-- ==== Sys2Proof/Word.lean ====
section
/-! DEFINITION. The words of the LT1536 manual and their plainest arithmetic: bytes and addresses. -/

namespace Sys2Proof

/-- One byte of a memory, a message or a frame. -/
abbrev Byte := BitVec 8

/-- A 64-bit register or parameter word. -/
abbrev Word64 := BitVec 64

/-- The bit pattern of one FP32 value. -/
abbrev F32 := BitVec 32

end Sys2Proof
end

