-- ==== Sys2Proof/Syntax/Operands.lean ====
section
/-! DEFINITION. The operands of the commands: what the spec says each step of the operation table is given from outside
(a mailbox message, a frame, a strap reading, the result of a self-test). Plain data only. -/

namespace Sys2Proof

/-- A mailbox message as the stationmaster takes it from the head of a command ring (R334, R337).
`raw` is the 128-byte message, bit n of it bit n of Table 12-3. `block` is what the companion returns for an argument
block in companion memory (R350): none is a refused read. `ageUs` is the time since its doorbell was written (R337 step 3). -/
structure Msg where
  ring : Nat
  raw : BitVec 1024
  block : Option (List Byte)
  ageUs : Nat
  deriving DecidableEq, Repr

/-- An Ethernet frame as a port receives it (R286, R289, R290). `tags` is the tag control information of each 802.1Q tag, `flow` is true for
a PAUSE or priority flow control frame, `fcsOk` says the frame check sequence is correct. `hdr` is the Stenis header of
Table 11-1, `gcm` the 16-byte GCM tag (empty when ENC = 0), `crc` the Stenis CRC-32C. -/
structure Frame where
  dst : BitVec 48
  src : BitVec 48
  tags : List (BitVec 16)
  flow : Bool
  etype : BitVec 16
  hdr : BitVec 256
  payload : List Byte
  gcm : List Byte
  crc : BitVec 32
  fcsOk : Bool
  deriving DecidableEq, Repr

/-- What the members of a chain know of a piece and no field of a frame carries (R303, R305, R308, R316; log 19): the error account of each
BS8 block in units of 2^-134, whether a block saturated (R307), the MIDX of the holder or final agent, and by ring group the positions whose
contributions the sum includes. -/
structure PieceNote where
  acct : List Nat
  sat : Bool
  holder : Nat
  incl : List (Nat × Nat)
  deriving DecidableEq, Repr

/-- A received frame with a piece, and what its chain knows of it (R301). -/
structure NotedFrame where
  frame : Frame
  note : PieceNote
  deriving DecidableEq, Repr

/-- The strap pins as AON samples them (R469). -/
structure Straps where
  slot : BitVec 6
  cool : BitVec 3
  feed : BitVec 4
  deriving DecidableEq, Repr

/-- The values of a configuration record (R468): the order code, the digest of the Daxnen unlock key, the store geometry (an N24 and not an N12, and
its spare blocks), the trim per section, the stack timing and the sensor calibration. -/
structure ConfRecord where
  orderCode : BitVec 128
  unlock : BitVec 512
  n24 : Bool
  spares : Nat
  trim : List Nat
  timing : Nat
  calibration : Nat
  deriving DecidableEq, Repr, Inhabited

/-- One copy, A or B, of an image in boot flash (R467, R468): its version (or COUNTER), whether its signature verifies
and its FORMAT is known, its SHA-512 digest, and the values of a configuration record. -/
structure ImageCopy where
  version : Nat
  good : Bool
  digest : BitVec 512
  conf : ConfRecord
  deriving DecidableEq, Repr, Inhabited

/-- What the work of one start-up stage found (R466 to R473). `failing` lists the physical clusters, numbered
68 × section + number, that fail a step of stage 5. `sharedFail` says that a shared unit failed. `stackFail` says that a
stack failed PHY training or cannot be repaired in more than 64 granules. `repaired` counts rows repaired and `leftPoisoned`
lists (stack, granule) pairs that still fail. `portsDown` lists the ports that did not train, `linkDown` and `storeDown` the
link and the store. `mapBad` and `logBad` say that the map record, or the fault-log copy, of the superblock fails its CRC-32C (R471). `ms` is the
stage's duration. -/
structure StageResult where
  failing : List Nat
  sharedFail : Bool
  stackFail : Bool
  repaired : Nat
  leftPoisoned : List (Nat × Nat)
  portsDown : List Nat
  linkDown : Bool
  storeDown : Bool
  mapBad : Bool
  logBad : Bool
  ms : Nat
  deriving DecidableEq, Repr

/-- Result of Turaist training at each attempt of R325: whether x32 at 64 GT/s, x16 at 64 GT/s and x16 at 32 GT/s train. -/
structure TrainResult where
  x32full : Bool
  x16full : Bool
  x16half : Bool
  deriving DecidableEq, Repr

/-- Which access of a traverse: to an element of its memory-side pattern, to an element of a DIR 0b10 destination, to the memory-side scale byte
of an element's run (R273), at CHKADDR (R277) or at TAGADDR (R275). -/
inductive TrvSide where
  | element
  | dest
  | scale
  | check
  | tag
  deriving DecidableEq, Repr

/-- One request of a traverse: what it accesses, the ordinal of the element, and the byte of that access that the requested granule holds. -/
structure TrvAcc where
  side : TrvSide
  ord : Nat
  byte : Nat
  deriving DecidableEq, Repr

/-- A request of the n-th traverse that an engine has in flight, 0 the oldest; or, with `other`, the next access of the device to that companion
address which is no traverse's (R327). -/
structure TrvReq where
  n : Nat
  acc : TrvAcc
  other : Option Nat
  deriving DecidableEq, Repr

/-- When a pass issues or goes on (R90, R153): the issue cycle, and the number of further updates at whose boundary a hold stops it, none when it
runs to its end. -/
structure PassIssue where
  cyc : Nat
  upto : Option Nat
  deriving DecidableEq, Repr

/-- The cluster whose array becomes idle (R77), and the cycle. -/
structure IdleAt where
  lc : Nat
  cyc : Nat
  deriving DecidableEq, Repr

/-- A current excursion (R79): the cluster, the issue cycle, and the cycles that had passed of the ramp of a clamp that it cuts short. -/
structure ClampAt where
  lc : Nat
  cyc : Nat
  ramped : Nat
  deriving DecidableEq, Repr

/-- The end of a clamp's disabled cycles (R79): their number, of at most 64, and whether the excursion is still present. -/
structure ClampOver where
  cycles : Nat
  persists : Bool
  deriving DecidableEq, Repr

/-- A replay (R135): the cycle in which its frames open; the queue and the command index at which the parity or duplicated-decode check of a
running cluster fails (Table 13-1), none for a fault reported before; and the first failing word (memory, bank, word within the bank) that the recovery
test of Table 9-7 finds, where the response runs it. -/
structure ReplayAt where
  cyc : Nat
  parity : Option (Nat × Nat)
  fail : Option (Nat × Nat × Nat)
  deriving DecidableEq, Repr

/-- The end of a wake (R431): the microseconds it took, and what the tests of R249 find on a wake from SL2: logical cluster, memory, bank, first
failing word within the bank. -/
structure WakeEnd where
  us : Nat
  fails : List (Nat × Nat × Nat × Nat)
  deriving DecidableEq, Repr

/-- One access of 1 to 64 bytes: `data` is none for a read of `len` bytes, some bytes for a write. -/
structure Access where
  len : Nat
  data : Option (List Byte)
  deriving DecidableEq, Repr

/-- What the work of a long command found that the state alone does not decide (R252, R387, R454): the first failing word of a
march (memory, bank, word within the bank), the first failing words that a scrub's MARCH-D finds
(logical cluster, memory, bank, word), the granules (stack, granule) that twice read back wrong in a scrub, and the milliseconds the work took. -/
structure WorkResult where
  fail : Option (Nat × Nat × Nat)
  hard : List (Nat × Nat × Nat × Nat)
  stubborn : List (Nat × Nat)
  ms : Nat
  deriving DecidableEq, Repr

/-- One sample of the power controller (R429, R437): input voltage in mV, current in mA, power in 0.1 W and the three running
averages in 0.1 W. -/
structure PowerReading where
  mV : Nat
  mA : Nat
  p : Nat
  avg1ms : Nat
  avg100ms : Nat
  avg1s : Nat
  deriving DecidableEq, Repr

end Sys2Proof
end

