-- ==== Sys2Proof/Syntax.lean ====
section
/-! DEFINITION. The commands of the block: one constructor for every row of spec/opcode_table.json. The spec gives no row any
bits, so the operands are those the rule named beside each row gives the step. `lc` is a logical cluster, `q` a queue
(0 OPX, 1 VEC, 2 ROW, 3-6 TRV0-TRV3), `cyc` an issue cycle of the cluster, `e` a traverse engine, `m` a mailbox message. -/

namespace Sys2Proof

inductive Instr where
  -- mailbox commands (R343, Table 12-6)
  | getInfo (m : Msg)
  | getState (m : Msg)
  | getFaultLog (m : Msg)
  | assignTenant (m : Msg)
  | seal (m : Msg)
  | releaseTenant (m : Msg)
  | attest (m : Msg)
  | keyImport (m : Msg)
  | loadConsist (m : Msg)
  | patchPrm (m : Msg)
  | start (m : Msg)
  | pause (m : Msg)
  /-- R90: cluster lc reports itself paused. -/
  | clusterPaused (lc : Nat)
  | resume (m : Msg)
  | stop (m : Msg)
  /-- R345: every cluster has retired its last command. -/
  | consistEnd
  | setPerf (m : Msg)
  | setWake (m : Msg)
  | enterSleep (m : Msg)
  | sleepPointOfNoReturn
  | sleepEntryComplete
  | getPowerStats (m : Msg)
  | budgetSet (m : Msg)
  | budgetGet (m : Msg)
  | bankHandover (m : Msg)
  | runMarch (m : Msg)
  | ckptWrite (m : Msg)
  | ckptRestore (m : Msg)
  | ckptVerify (m : Msg)
  | ckptPolicy (m : Msg)
  | buddyPair (m : Msg)
  | fabricConfig (m : Msg)
  | ringJoin (m : Msg)
  | ringLeaveRemove (m : Msg)
  | ringLeaveReadmit (m : Msg)
  | ringLeaveLeave (m : Msg)
  | flowOpen (m : Msg)
  | debugOpen (m : Msg)
  | debugClose (m : Msg)
  | fwUpdate (m : Msg)
  /-- R339: the work of the outstanding long command with this SEQ ends. -/
  | longCommandFinal (seq : BitVec 32) (w : WorkResult)
  -- mailbox page, windows, registers
  | mbCtlEn (en : Bool)
  | mbCtlRst
  /-- R333: host write of RING_PROD_r. -/
  | doorbell (ring : Nat) (prod : BitVec 9)
  | ringConsWrite (ring : Nat) (cons : BitVec 9)
  | ringIrqWrite (ring : Nat)
  | hwinOpen (n : Nat) (rd wr : Bool)
  /-- R7: a write of 8 bytes at a hub register address by firmware (host = false), or at a mailbox page offset by the host driver. -/
  | registerWrite (host : Bool) (addr : Nat) (value : Word64)
  /-- R329, R331: a companion access at an aperture offset. -/
  | hostWindowAccess (off : Nat) (acc : Access)
  /-- R27: an access at an offset of the window of lc; tag is the tag that the descriptor of the writing traverse names, none for the host driver
  and the stationmaster (R235). -/
  | windowAccess (lc : Nat) (off : Nat) (tag : Option (BitVec 4)) (acc : Access)
  -- SMBus (R353); pec says that the write's PEC is present and right
  | info
  | state
  | temps
  | power
  | faults
  | alertStatus
  | alertClear (pec : Bool) (w : BitVec 16)
  | alertMask (pec : Bool) (w : Option (BitVec 16))
  | powerCap (pec : Bool) (w : Option (BitVec 16))
  | alertResponse
  | alertPulseEnd
  -- test access port (R459)
  | extest
  | idcode
  | samplePreload (preload : List Bool)
  | dbgStatus
  /-- R460: Update-DR with this data register. -/
  | dbgAccess (dr : BitVec 128)
  | dbgHalt
  | vendorAnalysis (op : BitVec 8)
  | bypass (op : BitVec 8)
  -- power input, reset, sleep and start-up
  | coldBoot (straps : Straps)
  | modResetAssert
  /-- R465: MOD_RESET# deasserted after `lowCycles` AON cycles low. -/
  | modResetDeassert (lowCycles : Nat) (straps : Straps)
  | inputUndervoltage
  | inputOvervoltage
  | aonPowerLoss
  /-- R435: source 1 WAKE0, 2 WAKE1, 3 Turaist, 4 fabric frame on `port`; for a pin, `rising` is the edge or the level high. -/
  | wake (source : Nat) (port : Nat) (rising : Bool)
  | whistle (port : Nat)
  | warmRestart
  | woke (w : WakeEnd)
  /-- R473: `stage` passes its bound; `unitsOnly` lists the ports it still waits for (8 is the link, 9 the store) when it waits only for such units. -/
  | stageBoundOverrun (stage : Nat) (unitsOnly : List Nat)
  /-- R473: retry of a unit marked down (port 0-7, 8 the link) and whether it now trains. -/
  | unitRetry (unit : Nat) (trained : Bool)
  -- outer-product engine; cyc is the cycle in which the command stands at the head of the OPX queue (R121)
  /-- R90, R153: a pass issues, or an open one goes on. -/
  | opxPass (lc : Nat) (p : PassIssue)
  | opxDrain (lc : Nat) (cyc : Nat)
  | opxLoad (lc : Nat) (cyc : Nat)
  | opxLoadImage (lc : Nat) (cyc : Nat)
  | opxSave (lc : Nat) (cyc : Nat)
  | opxSurvey (lc : Nat) (cyc : Nat)
  -- vector engine; cyc is the issue cycle (R122)
  | vecFma (lc : Nat) (cyc : Nat)
  | vecFn (lc : Nat) (cyc : Nat)
  | vecDfn (lc : Nat) (cyc : Nat)
  | vecCvt (lc : Nat) (cyc : Nat)
  | vecOpt (lc : Nat) (cyc : Nat)
  | vecRedCombine (lc : Nat) (cyc : Nat)
  | vecRedBlock (lc : Nat) (cyc : Nat)
  -- row engine
  | rowNormF (lc : Nat) (cyc : Nat)
  | rowNormB (lc : Nat) (cyc : Nat)
  | rowSmaxF (lc : Nat) (cyc : Nat)
  | rowSmaxB (lc : Nat) (cyc : Nat)
  | rowTopk (lc : Nat) (cyc : Nat)
  -- traverses
  | trvGo (lc : Nat) (q : Nat) (cyc : Nat)
  | trvWait (lc : Nat) (q : Nat) (cyc : Nat)
  -- flags and scalar commands
  | flgSet (lc : Nat) (q : Nat) (cyc : Nat)
  | flgWait (lc : Nat) (q : Nat) (cyc : Nat)
  | flgClr (lc : Nat) (q : Nat) (cyc : Nat)
  | flagWaiterRelease (lc : Nat) (q : Nat) (cyc : Nat)
  | cntSet (lc : Nat)
  | cntAdd (lc : Nat)
  | cntLoop (lc : Nat)
  | cmpSet (lc : Nat)
  | prmMov (lc : Nat)
  | prmAdd (lc : Nat)
  | datum (lc : Nat)
  /-- R141: the record write is acknowledged in cycle cyc; `march` is the first failing word that a marching DATUM finds: memory,
  bank, word within the bank (R250, R423). -/
  | datumRecordAck (lc : Nat) (cyc : Nat) (march : Option (Nat × Nat × Nat))
  | lossPost (lc : Nat) (q : Nat) (cyc : Nat)
  | verHold (lc : Nat) (q : Nat) (cyc : Nat)
  | verDrop (lc : Nat) (q : Nat) (cyc : Nat)
  | commitReady (lc : Nat) (q : Nat) (cyc : Nat)
  | sync (lc : Nat)
  /-- R130: the SYNC completes; `cycs` gives the issue cycle of each logical cluster then. -/
  | syncComplete (ordinal : Nat) (cycs : List (Nat × Nat))
  | syncTimeout (ordinal : Nat)
  | flagDeadlock (sec : Nat) (group : Nat)
  /-- R135: the stopped cluster begins its replay. -/
  | clusterReplay (lc : Nat) (r : ReplayAt)
  | conveyorDeferredStart (lc : Nat)
  | conveyorComplete (lc : Nat)
  | autoSurvey (lc : Nat) (bank : Bool)
  | arrayIdle (x : IdleAt)
  /-- R79: a current excursion. -/
  | currentClamp (x : ClampAt)
  /-- R79: the disabled cycles of a clamp end, or else the ramp after them. -/
  | clampEnd (lc : Nat) (x : ClampOver)
  | traverseComplete (lc : Nat) (e : Nat)
  /-- R282: the companion refuses the granule of one request of the engine. -/
  | translationRefused (lc : Nat) (e : Nat) (req : TrvReq)
  /-- R327: one companion request of the engine has no response within 4 ms. -/
  | turaistTimeout (lc : Nat) (e : Nat) (req : TrvReq) (train : TrainResult)
  | linkTrain (train : TrainResult)
  /-- R283: one probe read; `accepted` whether the companion accepts it, `refusedAt` a refusal met while the rest is read. -/
  | refusalProbe (lc : Nat) (e : Nat) (accepted : Bool) (refusedAt : Option TrvAcc)
  | probeTimeout (lc : Nat) (e : Nat)
  /-- R371, R372: the move of lc; `marchFail` is the outcome of MARCH-D on the fenced cluster, when it runs. -/
  | sidingMove (lc : Nat) (cyc : Nat) (marchFail : Option (Nat × Nat × Nat))
  | paceLag (lc : Nat)
  /-- R367: kind false clock, true voltage; the monitored value. -/
  | monitorTrip (sec : Nat) (kind : Bool) (value : BitVec 32)
  | monitorRecovered (sec : Nat)
  /-- R392: cause 0 watchdog, 1 hub SRAM; restart time in ms; the firmware copy reloaded. -/
  | smRestart (cause : Nat) (ms : Nat) (image : ImageCopy)
  /-- R430: sensor 0-3 sections, 4 hub, 5-16 stacks, 17 NAND, 18 lid; temperature in 1/256 degree C. -/
  | thermalThreshold (sensor : Nat) (temp : Int)
  | thermalCeilingStep (sensor : Nat)
  | powerSample (r : PowerReading)
  | timeSampleSet
  | timetablePeriod (kind : Nat) (inst : Nat)
  | patrolScrubRead (stk : Nat)
  /-- R234: mem 0 scratchpad, 1 side, 2 sequencer memory, 3 hub SRAM. -/
  | eccWriteback (lc : Nat) (mem : Nat) (word : Nat)
  /-- R247, R248: one word tested by MARCH-P (mem 3 is hub SRAM); `fault` says a read did not return the expected value. -/
  | preservingMarch (lc : Nat) (mem : Nat) (word : Nat) (fault : Bool)
  | marchArm
  | marchOverdue (lc : Nat) (march : Option (Nat × Nat))
  | tabletWrite (lc : Nat) (mem : Nat) (bank : Nat) (value : BitVec 2)
  | bankPowerDone (lc : Nat) (mem : Nat) (bank : Nat)
  -- fabric frames and timers
  /-- R301: a piece, with what its chain knows of it (R305, R308, R316). -/
  | dataRx (port : Nat) (f : NotedFrame)
  | ackRx (port : Nat) (f : Frame)
  | readyRx (port : Nat) (f : Frame)
  | decisionRx (port : Nat) (f : Frame)
  | decReqRx (port : Nat) (f : Frame)
  | oosRx (port : Nat) (f : Frame)
  | wakeRx (port : Nat) (f : Frame)
  | foreignFrameRx (port : Nat) (f : Frame)
  | buddyPairRx (port : Nat) (f : Frame)
  | buddyDataRx (port : Nat) (f : Frame)
  | buddyReadReqRx (port : Nat) (f : Frame)
  | buddyReadDataRx (port : Nat) (f : Frame)
  | buddySlotReqRx (port : Nat) (f : Frame)
  | buddySlotDataRx (port : Nat) (f : Frame)
  /-- R292: the n-th frame that waits for its ACK on the port. -/
  | retransmitTimeout (port : Nat) (n : Nat)
  | busyRetry (port : Nat) (n : Nat)
  | peerAbsent (port : Nat) (jslot : Nat) (midx : Nat)
  | flowRoundOpen (port : Nat) (ctx : Nat)
  | flowRoundComplete (port : Nat) (ctx : Nat)
  | contribDeadline (port : Nat) (ctx : Nat) (chunk : Nat)
  | starterTimeout (port : Nat) (ctx : Nat) (chunk : Nat)
  | sourceReread (port : Nat) (ctx : Nat) (chunk : Nat)
  /-- R360: the n-th formed piece of the port leaves; `differs` says the duplicated adders differed. -/
  | pieceTransmit (port : Nat) (n : Nat) (differs : Bool)
  | oosSend (port : Nat)
  | commitStalled (group : Nat)
  | roundCompletionLimit (port : Nat) (ctx : Nat)
  -- checkpoint store
  | ckptHoldRelease (n : Nat)
  | buddyAckTimeout
  /-- R405: patrol read of a block: worst decode step of its codewords (0 hard, 1 soft, 2 stripe, 3 unreadable) and whether a hard decode corrected more than half. -/
  | storePatrol (block : Nat) (step : Nat) (overHalf : Bool)
  | blockRefresh (block : Nat) (target : Nat)
  | wearLevelMove (block : Nat) (target : Nat)
  | grownBad (block : Nat) (target : Nat)
  | storeDieLost (channel : Nat) (die : Nat)
  -- check-value units
  | cvStart (u : Nat) (cfg : Word64)
  | cvFeed (u : Nat) (bytes : List Byte)
  | cvValueWrite (u : Nat) (value : Word64)
  /-- R393: unit 0 signal box, 1 root of trust, 2 always-on domain. -/
  | lockstepMismatch (unit : Nat)
  | inputRestored (straps : Straps)
  | startUpStageEnd (stage : Nat) (r : StageResult)
  | contributionReady (port : Nat) (ctx : Nat) (chunk : Nat)
  | rebuildEnd
  deriving DecidableEq, Repr

end Sys2Proof
end

