-- ==== Sys2Proof/Decode.lean ====
section
/-! DEFINITION. The command that a table word spells. The spec gives no row of spec/opcode_table.json any bits, so no word spells a
command. -/

namespace Sys2Proof

/-- The command of a word of `nbits` bits: none. -/
def decodeTableWord (_nbits _w : Nat) : Option Instr := none

end Sys2Proof
end

