-- ==== Sys2Proof/Config.lean ====
section
/-! DEFINITION. What the spec leaves to an implementation or does not fix: free values, secrets, and the contents of boot flash. Every constant
is opaque, so that no proof can see a value of it (log 6, log 7, log 10). -/

namespace Sys2Proof.Config

/-- Free value number n (log 6): the step supplies its counter `State.free`. -/
opaque free : Nat → Nat

/-- A free value in lo … hi: the spec bounds it and fixes nothing more. -/
def freeIn (lo hi n : Nat) : Nat := lo + free n % (hi - lo + 1)

/-- The unique device secret (R438). -/
opaque uds : BitVec 512

/-- The seed-to-private-key derivation of the root of trust (R438, R439), not stated (log 7). -/
opaque keyDerive : List Byte → Nat

/-- The secret number of a signature by private key and digest (log 7). -/
opaque sigNonce : Nat → BitVec 512 → Nat

/-- The certificate that Daxnen issued for the module (R438), DER, in boot flash (log 7). -/
opaque deviceCert : List Byte

/-- The boot ROM's bytes, which layer 0 measures (Table 16-2, log 7). -/
opaque bootRom : List Byte

/-- The to-be-signed part of the alias certificate for a public key (R439, log 7). -/
opaque certBody : List Byte → List Byte

/-- The Daxnen unlock key with a digest (R454, R468, log 7). -/
opaque unlockKey : BitVec 512 → List Byte

/-- What the key of the laid-up record is derived for (R461, log 7). -/
opaque laidUpInfo : List Byte

/-- The image that an argument block of FW_UPDATE carries: 0 the loader, 1 the stationmaster firmware, 2 the signal box firmware, 3 the
configuration record; and whether its signature verifies (R467, log 15). -/
opaque fwImage : Nat → Nat × ImageCopy

/-- The image copies in boot flash at delivery: loader A and B, stationmaster A and B, signal box A and B, configuration record A and B
(log 10). -/
opaque flashImage : Nat → ImageCopy

/-- The replay-protected counter of boot flash at delivery (log 10). -/
opaque flashCounter : Nat

end Sys2Proof.Config
end

