-- ==== Sys2Proof/Machine/Bits.lean ====
section
/-! DEFINITION. Bit fields, little-endian bytes (R5, R6), saturating counters and sparse tables in canonical form. -/

namespace Sys2Proof.Machine

/-- NAME[lo + n - 1 : lo] of a number (R6). -/
def natBits (x lo n : Nat) : Nat := (x >>> lo) % 2 ^ n

/-- NAME[lo + n - 1 : lo] of a register or message (R6). -/
def bits {w : Nat} (x : BitVec w) (lo n : Nat) : Nat := natBits x.toNat lo n

/-- NAME[n] of a register or message. -/
def bitAt {w : Nat} (x : BitVec w) (n : Nat) : Bool := natBits x.toNat n 1 == 1

/-- 1 for a set bit. -/
def b2n (b : Bool) : Nat := if b then 1 else 0

/-- Pack fields, the first from bit 0, each (value, width), values cut to their width. -/
def packFields : List (Nat × Nat) → Nat
  | [] => 0
  | (v, w) :: r => v % 2 ^ w + 2 ^ w * packFields r

/-- The bytes of a number, low byte first (R5). -/
def leBytes : Nat → Nat → List Byte
  | 0, _ => []
  | n + 1, x => BitVec.ofNat 8 x :: leBytes n (x / 256)

/-- The number that little-endian bytes hold (R5). -/
def ofLe : List Byte → Nat
  | [] => 0
  | b :: r => b.toNat + 256 * ofLe r

/-- `n` bytes from offset `lo` of a byte list, zero beyond its end. -/
def byteField (l : List Byte) (lo n : Nat) : Nat := ofLe ((l.drop lo).take n)

/-- A counter of `w` bits that saturates. -/
def satAdd (w x k : Nat) : Nat := min (x + k) (2 ^ w - 1)

/-- Two's complement reading of the low `w` bits. -/
def signed (w x : Nat) : Int :=
  let y := x % 2 ^ w
  if y < 2 ^ (w - 1) then (y : Int) else (y : Int) - (2 ^ w : Nat)

/-- Low `w` bits of an integer in two's complement. -/
def wrapInt (w : Nat) (x : Int) : Nat := (x % (2 ^ w : Nat)).toNat

/-- The smallest multiple of `k` at or above `n`. -/
def roundUp (n k : Nat) : Nat := (n + k - 1) / k * k

/-- ⌈a / b⌉. -/
def ceilDiv (a b : Nat) : Nat := (a + b - 1) / b

/-- The value at index `i`, or `d` beyond the end. -/
def listGet {α : Type} (d : α) : List α → Nat → α
  | [], _ => d
  | x :: _, 0 => x
  | _ :: r, i + 1 => listGet d r i

/-- Change the entry at index `i`, if there is one. -/
def listMod {α : Type} (f : α → α) : List α → Nat → List α
  | [], _ => []
  | x :: r, 0 => f x :: r
  | x :: r, i + 1 => x :: listMod f r i

/-- A sparse table: keys strictly rising, and no entry holds what an unlisted key reads as. -/
abbrev Sparse (α : Type) := List (Nat × α)

/-- Read a key; an unlisted key reads `d`. -/
def spGet {α : Type} (d : α) : Sparse α → Nat → α
  | [], _ => d
  | (k, v) :: r, a => if k = a then v else if a < k then d else spGet d r a

/-- Remove a key. -/
def spDel {α : Type} : Sparse α → Nat → Sparse α
  | [], _ => []
  | (k, v) :: r, a => if k = a then r else if a < k then (k, v) :: r else (k, v) :: spDel r a

/-- Enter a value that differs from what an unlisted key reads as. -/
def spPut {α : Type} : Sparse α → Nat → α → Sparse α
  | [], a, x => [(a, x)]
  | (k, v) :: r, a, x =>
    if k = a then (a, x) :: r else if a < k then (a, x) :: (k, v) :: r else (k, v) :: spPut r a x

/-- Write a key; writing what an unlisted key reads as removes the entry. -/
def spSet {α : Type} [DecidableEq α] (d : α) (m : Sparse α) (a : Nat) (x : α) : Sparse α :=
  if x = d then spDel m a else spPut m a x

/-- Change the value at a key. -/
def spMod {α : Type} [DecidableEq α] (d : α) (m : Sparse α) (a : Nat) (f : α → α) : Sparse α :=
  spSet d m a (f (spGet d m a))

/-- Keep the entries whose key satisfies `p`. -/
def spKeep {α : Type} (p : Nat → Bool) (m : Sparse α) : Sparse α := m.filter (fun e => p e.1)

/-- Keys above `lo` strictly rise and no value is `d`. -/
def spWfFrom {α : Type} [DecidableEq α] (d : α) : Nat → Sparse α → Bool
  | _, [] => true
  | lo, (k, v) :: r => decide (lo ≤ k) && decide (v ≠ d) && spWfFrom d (k + 1) r

/-- The canonical form of a sparse table. -/
def spWf {α : Type} [DecidableEq α] (d : α) (m : Sparse α) : Bool := spWfFrom d 0 m

/-- A set of numbers, kept as a strictly rising list. -/
abbrev NatSet := List Nat

/-- Is it in the set? -/
def setHas (s : NatSet) (a : Nat) : Bool := s.contains a

/-- Put a number into the set. -/
def setAdd : NatSet → Nat → NatSet
  | [], a => [a]
  | k :: r, a => if k = a then k :: r else if a < k then a :: k :: r else k :: setAdd r a

/-- Take a number out of the set. -/
def setDel (s : NatSet) (a : Nat) : NatSet := s.filter (fun k => k != a)

/-- Put every number of a list into the set. -/
def setAddAll (s : NatSet) (l : List Nat) : NatSet := l.foldl setAdd s

/-- A byte memory: (address, byte) pairs in canonical form; an unlisted byte reads 0 (log 4). -/
abbrev Memory := List Host.Cell

/-- Read one byte. -/
def memByte (m : Memory) (a : Nat) : Byte := spGet 0 m a

/-- Write one byte. -/
def memSet (m : Memory) (a : Nat) (b : Byte) : Memory := spSet 0 m a b

/-- Read `n` bytes from address `a`. -/
def memRead (m : Memory) (a : Nat) : Nat → List Byte
  | 0 => []
  | n + 1 => memByte m a :: memRead m (a + 1) n

/-- Write bytes from address `a`. -/
def memWrite (m : Memory) (a : Nat) : List Byte → Memory
  | [] => m
  | b :: r => memWrite (memSet m a b) (a + 1) r

/-- Read a little-endian number of `n` bytes. -/
def memLe (m : Memory) (a n : Nat) : Nat := ofLe (memRead m a n)

/-- The canonical form of a byte memory. -/
def Memory.wf (m : Memory) : Bool := spWf (0 : Byte) m

/-- The numbers lo, lo + 1, …, lo + n - 1. -/
def rangeFrom (lo n : Nat) : List Nat := (List.range n).map (fun i => lo + i)

/-- The indices of the k-byte units that the bytes a … a + n - 1 touch. -/
def unitsOf (k a n : Nat) : List Nat :=
  if n = 0 then [] else rangeFrom (a / k) ((a + n - 1) / k + 1 - a / k)

end Sys2Proof.Machine
end

