-- ==== Sys2Proof/Machine/Crypto.lean ====
section
/-! DEFINITION. The cryptography that the spec names by its standards (PRESUMED from them, log 7): SHA-512 (FIPS 180-4), HMAC and HKDF (RFC 2104,
RFC 5869), AES-256 (FIPS 197) in Galois/counter mode (SP 800-38D), ECDH and ECDSA on P-521 (SEC 1, FIPS 186-4). -/

namespace Sys2Proof.Machine

/-- The number that big-endian bytes hold. -/
def ofBe (l : List Byte) : Nat := l.foldl (fun n b => 256 * n + b.toNat) 0

/-- n bytes of a number, high byte first. -/
def beBytes (n x : Nat) : List Byte := (leBytes n x).reverse

/-! SHA-512 -/

/-- The largest r below 2^b with r^k ≤ n, for start value 0. -/
def rootBits (k n : Nat) : Nat → Nat → Nat
  | 0, r => r
  | b + 1, r => rootBits k n b (if (r + 2 ^ b) ^ k ≤ n then r + 2 ^ b else r)

/-- The first 80 primes. -/
def shaPrimes : List Nat :=
  [2, 3, 5, 7, 11, 13, 17, 19, 23, 29, 31, 37, 41, 43, 47, 53, 59, 61, 67, 71] ++
  [73, 79, 83, 89, 97, 101, 103, 107, 109, 113, 127, 131, 137, 139, 149, 151, 157, 163, 167, 173] ++
  [179, 181, 191, 193, 197, 199, 211, 223, 227, 229, 233, 239, 241, 251, 257, 263, 269, 271, 277, 281] ++
  [283, 293, 307, 311, 313, 317, 331, 337, 347, 349, 353, 359, 367, 373, 379, 383, 389, 397, 401, 409]

/-- Round constant of a prime: the first 64 bits of the fraction of its cube root. -/
def shaK (p : Nat) : BitVec 64 := BitVec.ofNat 64 (rootBits 3 (p * 2 ^ 192) 68 0)

/-- Initial hash word of a prime: the first 64 bits of the fraction of its square root. -/
def shaH0 (p : Nat) : BitVec 64 := BitVec.ofNat 64 (rootBits 2 (p * 2 ^ 128) 67 0)

/-- The padded message in blocks of 128 bytes. -/
def shaPad (l : List Byte) : List Byte :=
  l ++ [0x80] ++ List.replicate ((111 + 128 * (l.length / 128 + 1) - l.length) % 128) 0 ++ beBytes 16 (8 * l.length)

/-- One step of the message schedule: the words so far, newest first. -/
def shaNext (w : List (BitVec 64)) : BitVec 64 :=
  let g (i : Nat) : BitVec 64 := listGet 0 w i
  let s0 := (g 14).rotateRight 1 ^^^ (g 14).rotateRight 8 ^^^ ((g 14) >>> 7)
  let s1 := (g 1).rotateRight 19 ^^^ (g 1).rotateRight 61 ^^^ ((g 1) >>> 6)
  s1 + g 6 + s0 + g 15

/-- n further words of the message schedule. -/
def shaExtend : Nat → List (BitVec 64) → List (BitVec 64)
  | 0, w => w
  | n + 1, w => shaExtend n (shaNext w :: w)

/-- One round on the eight working variables a … h. -/
def shaRound (v : List (BitVec 64)) (kw : BitVec 64) : List (BitVec 64) :=
  match v with
  | [a, b, c, d, e, f, g, h] =>
    let t1 := h + (e.rotateRight 14 ^^^ e.rotateRight 18 ^^^ e.rotateRight 41) + ((e &&& f) ^^^ (~~~e &&& g)) + kw
    let t2 := (a.rotateRight 28 ^^^ a.rotateRight 34 ^^^ a.rotateRight 39) + ((a &&& b) ^^^ (a &&& c) ^^^ (b &&& c))
    [t1 + t2, a, b, c, d + t1, e, f, g]
  | _ => v

/-- One block. -/
def shaBlock (h : List (BitVec 64)) (block : List Byte) : List (BitVec 64) :=
  let w := (shaExtend 64 (((List.range 16).map (fun i => BitVec.ofNat 64 (ofBe ((block.drop (8 * i)).take 8)))).reverse)).reverse
  let kw := List.zipWith (· + ·) (shaPrimes.map shaK) w
  List.zipWith (· + ·) h (kw.foldl shaRound h)

/-- The blocks of a padded message; n bounds them. -/
def shaBlocks : Nat → List Byte → List (BitVec 64) → List (BitVec 64)
  | 0, _, h => h
  | n + 1, l, h => shaBlocks n (l.drop 128) (shaBlock h (l.take 128))

/-- The 64 bytes of a SHA-512 digest. -/
def digestBytes (l : List Byte) : List Byte :=
  let m := shaPad l
  (shaBlocks (m.length / 128) m ((shaPrimes.take 8).map shaH0)).flatMap (fun w => beBytes 8 w.toNat)

/-- SHA-512; as a number the first byte of the digest is its lowest (R5). -/
def sha512 (l : List Byte) : BitVec 512 := BitVec.ofNat 512 (ofLe (digestBytes l))

/-! HMAC and HKDF -/

/-- A key in one 128-byte block of SHA-512. -/
def hmacKey (k : List Byte) : List Byte :=
  let k := if 128 < k.length then digestBytes k else k
  k ++ List.replicate (128 - k.length) 0

/-- HMAC-SHA-512. -/
def hmac512 (k m : List Byte) : List Byte :=
  let k := hmacKey k
  digestBytes (k.map (fun b => b ^^^ 0x5C) ++ digestBytes (k.map (fun b => b ^^^ 0x36) ++ m))

/-- 32 bytes of HKDF-SHA-512: extract, then the first block of expand. -/
def hkdf512 (salt ikm info : List Byte) : BitVec 256 :=
  BitVec.ofNat 256 (ofLe ((hmac512 (hmac512 salt ikm) (info ++ [1])).take 32))

/-! AES-256 -/

/-- Multiply by x in GF(2^8). -/
def gfDouble (a : Byte) : Byte := if a.toNat < 128 then a <<< 1 else (a <<< 1) ^^^ 0x1B

/-- Multiply in GF(2^8); n bounds the bits of b. -/
def gfMulN : Nat → Byte → Byte → Byte
  | 0, _, _ => 0
  | n + 1, a, b => (if b.toNat % 2 = 1 then a else 0) ^^^ gfMulN n (gfDouble a) (b >>> 1)

/-- Multiply in GF(2^8). -/
def gfMul (a b : Byte) : Byte := gfMulN 8 a b

/-- The inverse in GF(2^8), a^254; 0 for 0. -/
def gfInv (a : Byte) : Byte :=
  let a2 := gfMul a a
  let a4 := gfMul a2 a2
  let a8 := gfMul a4 a4
  let a16 := gfMul a8 a8
  let a32 := gfMul a16 a16
  let a64 := gfMul a32 a32
  let a128 := gfMul a64 a64
  gfMul (gfMul (gfMul a2 a4) (gfMul a8 a16)) (gfMul (gfMul a32 a64) a128)

/-- The S-box. -/
def sbox (a : Byte) : Byte :=
  let b := gfInv a
  b ^^^ b.rotateLeft 1 ^^^ b.rotateLeft 2 ^^^ b.rotateLeft 3 ^^^ b.rotateLeft 4 ^^^ 0x63

/-- XOR byte by byte. -/
def xorBytes (a b : List Byte) : List Byte := List.zipWith (· ^^^ ·) a b

/-- The next word of the key schedule, from the eight before it, newest first; i is its number. -/
def keyNext (i : Nat) (w : List (List Byte)) : List Byte :=
  let prev := listGet [] w 0
  let t :=
    if i % 8 = 0 then
      xorBytes ((prev.drop 1 ++ prev.take 1).map sbox) [BitVec.ofNat 8 (2 ^ (i / 8 - 1)), 0, 0, 0]
    else if i % 8 = 4 then prev.map sbox
    else prev
  xorBytes (listGet [] w 7) t

/-- n further words of the key schedule. -/
def keyExtend : Nat → Nat → List (List Byte) → List (List Byte)
  | 0, _, w => w
  | n + 1, i, w => keyExtend n (i + 1) (keyNext i w :: w)

/-- The 15 round keys. -/
def roundKeys (k : List Byte) : List (List Byte) :=
  let ws := (keyExtend 52 8 (((List.range 8).map (fun i => (k.drop (4 * i)).take 4)).reverse)).reverse
  (List.range 15).map (fun r => ((ws.drop (4 * r)).take 4).flatten)

/-- ShiftRows: byte r + 4c comes from column c + r. -/
def shiftRows (s : List Byte) : List Byte := (List.range 16).map (fun i => listGet 0 s (i % 4 + 4 * ((i / 4 + i % 4) % 4)))

/-- MixColumns. -/
def mixColumns (s : List Byte) : List Byte :=
  (List.range 16).map (fun i =>
    let g (j : Nat) : Byte := listGet 0 s (i / 4 * 4 + (i + j) % 4)
    gfDouble (g 0) ^^^ gfDouble (g 1) ^^^ g 1 ^^^ g 2 ^^^ g 3)

/-- Encrypt one block under its round keys. -/
def aesBlock (rks : List (List Byte)) (b : List Byte) : List Byte :=
  let s := xorBytes b (listGet [] rks 0)
  let s := ((rks.drop 1).take 13).foldl (fun s rk => xorBytes (mixColumns (shiftRows (s.map sbox))) rk) s
  xorBytes (shiftRows (s.map sbox)) (listGet [] rks 14)

/-! Galois/counter mode -/

/-- One step of the multiplication in GF(2^128), bit 0 the highest. -/
def ghashMulN : Nat → BitVec 128 → BitVec 128 → BitVec 128 → BitVec 128
  | 0, _, _, z => z
  | n + 1, x, v, z =>
    ghashMulN n (x <<< 1) (if v.toNat % 2 = 0 then v >>> 1 else (v >>> 1) ^^^ (0xE1#128 <<< 120)) (if x.msb then z ^^^ v else z)

/-- Multiply in GF(2^128). -/
def ghashMul (x y : BitVec 128) : BitVec 128 := ghashMulN 128 x y 0

/-- GHASH over bytes in whole blocks; n bounds the blocks. -/
def ghashN (h : BitVec 128) : Nat → List Byte → BitVec 128 → BitVec 128
  | 0, _, y => y
  | n + 1, l, y => ghashN h n (l.drop 16) (ghashMul (y ^^^ BitVec.ofNat 128 (ofBe (l.take 16))) h)

/-- Zero bytes up to a whole block. -/
def pad16 (l : List Byte) : List Byte := l ++ List.replicate ((16 - l.length % 16) % 16) 0

/-- The keystream from counter block c on. -/
def keystream (rks : List (List Byte)) (iv : List Byte) : Nat → Nat → List Byte
  | 0, _ => []
  | n + 1, c => aesBlock rks (iv ++ beBytes 4 c) ++ keystream rks iv n (c + 1)

/-- AES-256-GCM en- or decryption of bytes, without the tag: key and nonce as little-endian numbers (R5), counters from 2. -/
def gcmPlain (key : BitVec 256) (iv : BitVec 96) (l : List Byte) : List Byte :=
  xorBytes l (keystream (roundKeys (leBytes 32 key.toNat)) (leBytes 12 iv.toNat) (ceilDiv l.length 16) 2)

/-- AES-256-GCM tag of a ciphertext with its additional data; its first byte is the lowest. -/
def gcmTag (key : BitVec 256) (iv : BitVec 96) (aad ct : List Byte) : BitVec 128 :=
  let rks := roundKeys (leBytes 32 key.toNat)
  let h := BitVec.ofNat 128 (ofBe (aesBlock rks (List.replicate 16 0)))
  let m := pad16 aad ++ pad16 ct ++ beBytes 8 (8 * aad.length) ++ beBytes 8 (8 * ct.length)
  let t := beBytes 16 (ghashN h (m.length / 16) m 0).toNat
  BitVec.ofNat 128 (ofLe (xorBytes t (aesBlock rks (leBytes 12 iv.toNat ++ beBytes 4 1))))

/-- AES-256-GCM seal: ciphertext and tag. -/
def gcmSeal (key : BitVec 256) (iv : BitVec 96) (aad pt : List Byte) : List Byte × BitVec 128 :=
  let ct := gcmPlain key iv pt
  (ct, gcmTag key iv aad ct)

/-! P-521 -/

/-- The field prime. -/
def ecP : Nat := 2 ^ 521 - 1

/-- The curve's constant b. -/
def ecB : Nat :=
  0x051953EB9618E1C9A1F929A21A0B68540EEA2DA725B99B315F3B8B489918EF109E156193951EC7E937B1652C0BD3BB1BF073573DF883D2C34F1EF451FD46B503F00

/-- The order of the group. -/
def ecN : Nat :=
  0x1FFFFFFFFFFFFFFFFFFFFFFFFFFFFFFFFFFFFFFFFFFFFFFFFFFFFFFFFFFFFFFFFFA51868783BF2F966B7FCC0148F709A5D03BB5C9B8899C47AEBB6FB71E91386409

/-- The base point. -/
def ecG : Nat × Nat :=
  (0x0C6858E06B70404E9CD9E3ECB662395B4429C648139053FB521F828AF606B4D3DBAA14B5E77EFE75928FE1DC127A2FFA8DE3348B3C1856A429BF97E7E31C2E5BD66,
   0x11839296A789A3BC0045C8A5FB42C7D1BD998F54449579B446817AFBD17273E662C97EE72995EF42640C550B9013FAD0761353C7086A272C24088BE94769FD16650)

/-- x^e modulo m; n bounds the bits of e. -/
def powModN : Nat → Nat → Nat → Nat → Nat → Nat
  | 0, _, _, _, r => r
  | n + 1, x, e, m, r => powModN n (x * x % m) (e / 2) m (if e % 2 = 1 then r * x % m else r)

/-- The inverse modulo a prime below 2^521. -/
def invMod (x m : Nat) : Nat := powModN 521 (x % m) (m - 2) m 1

/-- Add two points; none is the point at infinity. -/
def ecAdd (a b : Option (Nat × Nat)) : Option (Nat × Nat) :=
  match a, b with
  | none, q => q
  | p, none => p
  | some (x1, y1), some (x2, y2) =>
    if x1 = x2 ∧ (y1 + y2) % ecP = 0 then none
    else
      let l :=
        if x1 = x2 then (3 * x1 * x1 + (ecP - 3)) * invMod (2 * y1) ecP % ecP
        else (y2 + ecP - y1) * invMod (x2 + ecP - x1) ecP % ecP
      let x := (l * l + 2 * ecP - x1 - x2) % ecP
      some (x, (l * (x1 + ecP - x) + (ecP - y1)) % ecP)

/-- d times a point; n bounds the bits of d. -/
def ecMulN : Nat → Nat → Option (Nat × Nat) → Option (Nat × Nat)
  | 0, _, _ => none
  | n + 1, d, q => ecAdd (if d % 2 = 1 then q else none) (ecMulN n (d / 2) (ecAdd q q))

/-- d times a point. -/
def ecMul (d : Nat) (q : Nat × Nat) : Option (Nat × Nat) := ecMulN 521 d (some q)

/-- SEC1 uncompressed encoding, 133 bytes. -/
def sec1 (q : Option (Nat × Nat)) : List Byte :=
  match q with
  | some (x, y) => 4 :: (beBytes 66 x ++ beBytes 66 y)
  | none => [0]

/-- The point of a SEC1 uncompressed encoding, if it is one of the curve. -/
def sec1Point (l : List Byte) : Option (Nat × Nat) :=
  let x := ofBe ((l.drop 1).take 66)
  let y := ofBe ((l.drop 67).take 66)
  if l.length = 133 ∧ l.take 1 = [4] ∧ x < ecP ∧ y < ecP ∧ y * y % ecP = (x * x * x + (ecP - 3) * x + ecB) % ecP then some (x, y) else none

/-- The number that ECDSA signs for a message: the bytes of its SHA-512 digest, which are fewer than those of the order. -/
def ecdsaHash (m : List Byte) : Nat := ofBe (digestBytes m)

/-- ECDSA verification of a 132-byte signature r ‖ s over a message under a public key. -/
def ecdsaOk (key m sig : List Byte) : Bool :=
  let r := ofBe (sig.take 66)
  let s := ofBe ((sig.drop 66).take 66)
  match sec1Point key with
  | none => false
  | some q =>
    if r = 0 ∨ ecN ≤ r ∨ s = 0 ∨ ecN ≤ s then false
    else
      let w := invMod s ecN
      match ecAdd (ecMul (ecdsaHash m * w % ecN) ecG) (ecMul (r * w % ecN) q) with
      | none => false
      | some (x, _) => x % ecN == r

/-- ECDSA signature of a message under a private key with the secret number k. -/
def ecdsaSign (d k : Nat) (m : List Byte) : List Byte :=
  let r := ((ecMul k ecG).elim 0 (fun q => q.1)) % ecN
  beBytes 66 r ++ beBytes 66 (invMod k ecN * (ecdsaHash m + r * d) % ecN)

/-! DER -/

/-- A number in its shortest big-endian bytes; n bounds them. -/
def derNat (n x : Nat) : List Byte := (beBytes n x).dropWhile (fun b => b == 0)

/-- A DER element: tag, length, content. -/
def derTlv (tag : Byte) (l : List Byte) : List Byte :=
  let n := derNat 4 l.length
  tag :: ((if l.length < 128 then [BitVec.ofNat 8 l.length] else BitVec.ofNat 8 (128 + n.length) :: n) ++ l)

/-- A DER INTEGER of a number that 66 bytes hold. -/
def derInt (x : Nat) : List Byte :=
  let l := derNat 66 x
  derTlv 2 (if (l.take 1).all (fun b => decide (b.toNat < 128)) && !l.isEmpty then l else 0 :: l)

/-- An X.509 certificate from its to-be-signed part and a signature r ‖ s: the algorithm is ecdsa-with-SHA512 (RFC 5758). -/
def derCert (body sig : List Byte) : List Byte :=
  let alg := derTlv 0x30 (derTlv 6 [0x2A, 0x86, 0x48, 0xCE, 0x3D, 0x04, 0x03, 0x04])
  derTlv 0x30 (body ++ alg ++ derTlv 3 (0 :: derTlv 0x30 (derInt (ofBe (sig.take 66)) ++ derInt (ofBe (sig.drop 66)))))

/-- A private key from a seed: the derivation itself is not stated (log 7). -/
def privateKey (seed : List Byte) : Nat := 1 + Config.keyDerive seed % (ecN - 1)

/-- The public half of a private key. -/
def publicKey (d : Nat) : List Byte := sec1 (ecMul d ecG)

/-- Sign under a private key; the secret number of a signature is a free value (log 7). -/
def signWith (d : Nat) (m : List Byte) : List Byte := ecdsaSign d (1 + Config.sigNonce d (sha512 m) % (ecN - 1)) m

/-- ECDH: the x coordinate of d times a public point, 66 bytes; none when the encoding is no point of the curve. -/
def ecdhX (d : Nat) (pub : List Byte) : Option (List Byte) := (sec1Point pub).bind (fun q => (ecMul d q).map (fun r => beBytes 66 r.1))

end Sys2Proof.Machine
end

