-- ==== Sys2Proof/Machine/TrainState.lean ====
section
/-! DEFINITION. The state of training: weight versions, commit groups, loss monitors, commit records (08), and what the ring leader keeps
(R227). Plain data. -/

namespace Sys2Proof.Machine

/-- Version-table entry (Table 8-5). -/
structure VtEntry where
  valid : Bool
  frozen : Bool
  cur : Nat
  pend : Nat
  pendV : Bool
  slotsM1 : Nat
  hold0 : Nat
  hold1 : Nat
  hold2 : Nat
  hold3 : Nat
  base0 : Nat
  base1 : Nat
  base2 : Nat
  base3 : Nat
  size : Nat
  group : Nat
  ver : Nat
  deriving DecidableEq, Repr

/-- Reset value of an entry. -/
def VtEntry.reset : VtEntry := ⟨false, false, 0, 0, false, 0, 0, 0, 0, 0, 0, 0, 0, 0, 0, 0, 0⟩

/-- Commit group entry (Table 8-9). -/
structure Group where
  valid : Bool
  await : Bool
  last : Nat
  nclusters : Nat
  readyN : Nat
  withheld : Bool
  monmask : Nat
  cflag : Nat
  round : Nat
  nfLimit : Nat
  nfCount : Nat
  job : Nat
  wcause : Nat
  timeout : Nat
  deriving DecidableEq, Repr

/-- Reset value of a group. -/
def Group.reset : Group := ⟨false, false, 0, 0, 0, false, 0, 0, 0, 0, 0, 0, 0, 100000⟩

/-- Loss monitor (Table 8-8). -/
structure Monitor where
  enable : Bool
  wlog : Nat
  warmup : Nat
  k : F32
  floor : F32
  mean : F32
  var : F32
  sum : F32
  posts : Nat
  steps : Nat
  lastSpike : Bool
  lastLoss : F32
  lastZ : F32
  deriving DecidableEq, Repr

/-- Reset value of a monitor. -/
def Monitor.reset : Monitor := ⟨false, 8, 256, 0x40C00000#32, 0x3A800000#32, 0, 0, 0, 0, 0, false, 0, 0⟩

/-- Commit record (Table 8-10). CHECK is computed when the record is read. -/
structure CommitRec where
  round : Nat
  decision : Nat
  wcause : Nat
  leader : Nat
  job : Nat
  group : Nat
  step : Nat
  deriving DecidableEq, Repr

/-- Reset value of a record. -/
def CommitRec.reset : CommitRec := ⟨0, 0, 0, 0, 0, 0, 0⟩

/-- A ready that the leader holds (R227): job, group, round, member, withheld, causes. -/
structure Ready where
  job : Nat
  group : Nat
  round : Nat
  midx : Nat
  withheld : Bool
  wcause : Nat
  deriving DecidableEq, Repr

/-- A decision that the leader keeps (R227): the round, COMMIT or ABORT, the withholding causes, how many
members withheld, and up to eight of them with their causes (Table 11-10). -/
structure Decision where
  job : Nat
  group : Nat
  round : Nat
  commit : Bool
  wcause : Nat
  leader : Nat
  nwh : Nat
  wh : List (Nat × Nat)
  deriving DecidableEq, Repr

/-- A READY that this module sent and whose AWAIT is open (R226, R230): the group, its fixed verdict and causes, the AON time at which
it was acknowledged, and the SEQ of its frame; none while it has no frame. -/
structure SentReady where
  group : Nat
  round : Nat
  withheld : Bool
  wcause : Nat
  ackedAt : Option Nat
  stalled : Bool
  seq : Option Nat
  deriving DecidableEq, Repr

/-- Everything of training. `stopOwed` are the clusters that have still to stop at their next DATUM with STEP = 1 (R229, R389), `asking` the groups
whose rounds since a restored cut are asked for in turn (R390). -/
structure Train where
  vt : Sparse VtEntry
  groups : Sparse Group
  mons : Sparse Monitor
  recs : Sparse CommitRec
  readies : List Ready
  decisions : List Decision
  sent : List SentReady
  stopOwed : NatSet
  asking : NatSet
  deriving DecidableEq, Repr

/-- Training state at reset. -/
def Train.reset : Train := ⟨[], [], [], [], [], [], [], [], []⟩

end Sys2Proof.Machine
end

