-- ==== Sys2Proof/Machine/CkptState.lean ====
section
/-! DEFINITION. The state of checkpoints and buddies (13): the recovery policy, the checkpoint in progress with its holds, pairing, restore
and verification. Plain data. -/

namespace Sys2Proof.Machine

/-- The recovery policy (Table 13-8); regions are (address, length). -/
structure Policy where
  auto : Bool
  paceMove : Bool
  slowN : Nat
  slowM : Nat
  group : Nat
  lossPort : Nat
  lossCtx : Nat
  lossV : Bool
  imin : Nat
  imax : Nat
  window : Nat
  tol : F32
  regions : List (Nat × Nat)
  deriving DecidableEq, Repr

/-- Defaults of Table 13-8. -/
def Policy.reset : Policy := ⟨true, false, 4, 16, 0, 0, 0, false, 300, 21600, 604800, 0x3A800000#32, []⟩

/-- A hold of the checkpoint in progress (R381), numbered: a version slot (`resid` false) or a residual parity of a flow context (`resid`
true), and whether it is durable locally. -/
structure Hold where
  id : Nat
  resid : Bool
  key : Nat
  part : Nat
  loc : Bool
  deriving DecidableEq, Repr

/-- A checkpoint in progress: what the cut recorded (R380), the holds not yet released, the key of R400, the next INDEX and ALIVE, bytes
written, whether the END record is written (`localDone`), whether a buddy copy is being made, its BUDDY frames not yet acknowledged (SEQ, hold
number; a SEQ of 2^32 was never sent), and the CKPT_WRITE commands that it answers. `entry` marks the checkpoint of an SL3 entry (R434). -/
structure Cut where
  number : Nat
  step : Nat
  vt : Sparse VtEntry
  resids : List (Nat × Nat)
  holds : List Hold
  key : BitVec 256
  index : Nat
  alive : Nat
  bytes : Nat
  localDone : Bool
  budOn : Bool
  out : List (Nat × Nat)
  seqs : List (BitVec 32)
  entry : Bool
  deriving DecidableEq, Repr

/-- The buddy of this module (R385). -/
structure Buddy where
  mac : Nat
  port : Nat
  jslot : Nat
  midx : Nat
  feed : Nat
  feedUnknown : Bool
  deriving DecidableEq, Repr

/-- The SEAL record owed to a checkpoint (R389): its number, STEP, the membership digest of the cut, its key, and its payload once the
loss flow's first round after the cut has completed. -/
structure SealJob where
  number : Nat
  step : Nat
  digest : BitVec 512
  key : BitVec 256
  payload : Option (List Byte)
  deriving DecidableEq, Repr

/-- BUDDY data that arrives for one checkpoint: the bytes of its complete records so far, the pieces beyond them by OFFSET, the ALIVE and
INDEX of the last record taken, the frames whose ACK waits until their bytes are stored (port, frame, offset of its end), and whether the copy is lost
(R401). -/
structure Inbound where
  peer : Nat
  jslot : Nat
  midx : Nat
  ckpt : Nat
  got : Nat
  parts : Sparse (List Byte)
  last : Option (Nat × Nat)
  owed : List (Nat × Frame × Nat)
  lost : Bool
  deriving DecidableEq, Repr

/-- A copy that the module sends to a peer that asked for it, with the SEQs of its frames (R387). -/
structure Serving where
  port : Nat
  jslot : Nat
  midx : Nat
  peer : Nat
  ckpt : Nat
  seqs : List Nat
  deriving DecidableEq, Repr

/-- A commit group whose tensors are fetched from a member (R391): the round it will stand at, and for each tensor still owed the VER to
set and the bytes received by offset. -/
structure Fetch where
  group : Nat
  round : Nat
  tensors : List (Nat × Sparse (List Byte))
  deriving DecidableEq, Repr

/-- A checkpoint restored since LOAD (R389): its number and its SEAL payload, if the copy holds one. -/
structure Restored where
  number : Nat
  sealed : Option (List Byte)
  deriving DecidableEq, Repr

/-- A slot that a member serves (R391) and holds until its frames are acknowledged: tensor and slot, port, peer and the SEQs. -/
structure SlotServe where
  tensor : Nat
  slot : Nat
  port : Nat
  jslot : Nat
  midx : Nat
  seqs : List Nat
  deriving DecidableEq, Repr

/-- Checkpoint part. `interruptions` are HUB times in seconds (R382), `lastCut` that of the last cut, `lastC` the C of the last completed
checkpoint in ms. C is kept in AON cycles: `stepAt` is the count at which the present step began, `durs` are the durations of the last 16 steps, newest
first, `median` their median at the last cut, `cost` what the steps of that checkpoint have cost so far, and `covered` says that the present step
began while it was in progress. `nowSeqs` the CKPT_WRITE commands with NOW that wait for the next cut, `waitSeqs` those without. `peers` are the BASE_MACs
of the modules whose copies this one holds, `read` the bytes of the READ_DATA frames received, by OFFSET. `verify` is the CKPT_VERIFY that
waits for its round, `mute` says that its failure keeps every ready from being sent (R389). -/
structure Ckpt where
  policy : Policy
  cur : Option Cut
  counter : Nat
  lastC : Option Nat
  lastCut : Option Nat
  stepAt : Option Nat
  durs : List Nat
  median : Option Nat
  cost : Int
  covered : Bool
  nowSeqs : List (BitVec 32)
  waitSeqs : List (BitVec 32)
  interruptions : List Nat
  buddy : Option Buddy
  peers : List Nat
  sealJob : Option SealJob
  inb : List Inbound
  serving : List Serving
  slotServe : List SlotServe
  read : Sparse (List Byte)
  fetch : List Fetch
  restored : Option Restored
  verify : Option (BitVec 32)
  mute : Bool
  deriving DecidableEq, Repr

/-- Checkpoint part at reset. -/
def Ckpt.reset : Ckpt :=
  { policy := .reset, cur := none, counter := 0, lastC := none, lastCut := none, stepAt := none,
    durs := [], median := none, cost := 0, covered := false, nowSeqs := [], waitSeqs := [], interruptions := [],
    buddy := none, peers := [], sealJob := none, inb := [], serving := [], slotServe := [], read := [], fetch := [], restored := none,
    verify := none, mute := false }

/-- The median of durations, for an even number the mean of the middle two; none without a duration (log 47). -/
def medianOf (l : List Nat) : Option Nat :=
  let t := l.mergeSort (fun a b => decide (a ≤ b))
  let n := t.length
  if n = 0 then none
  else if n % 2 = 1 then t[n / 2]?
  else some ((t.getD (n / 2 - 1) 0 + t.getD (n / 2) 0) / 2)

/-- C in ms (R382); a checkpoint whose steps were no slower costs nothing (log 47). -/
def Ckpt.costMs (c : Ckpt) : Nat := c.cost.toNat / 50000

/-- A step begins at an AON count. -/
def Ckpt.beginStep (c : Ckpt) (now : Nat) : Ckpt := { c with stepAt := some now, covered := c.cur.isSome }

/-- A step ends, and the next begins (R382): a step that began while the checkpoint was in progress adds to its cost. -/
def Ckpt.endStep (c : Ckpt) (now : Nat) : Ckpt :=
  match c.stepAt with
  | none => c.beginStep now
  | some t =>
    let d := now - t
    let c := if c.covered then { c with cost := c.cost + c.median.elim 0 (fun m => (d : Int) - m) } else c
    let c := if c.covered && c.cur.isNone then { c with lastC := some c.costMs } else c
    { c with durs := (d :: c.durs).take 16 }.beginStep now

end Sys2Proof.Machine
end

