-- ==== Sys2Proof/Machine/MemState.lean ====
section
/-! DEFINITION. The memories outside the clusters: DRAM stacks (10), companion memory as the device sees it (R326, log 8), the cluster map
(R34), bound windows (R258), the fault log (R361). Plain data. -/

namespace Sys2Proof.Machine

/-- Registers of one stack controller (Table 10-2), whether it is in self-refresh or off, and the MEM time at which its pass began. -/
structure Stk where
  ceN : Nat
  ueN : Nat
  ueAddr : Nat
  ueV : Bool
  uePatrol : Bool
  pos : Nat
  passes : Nat
  lastPass : Nat
  passStart : Nat
  refresh : Bool
  off : Bool
  deriving DecidableEq, Repr

/-- Reset value of a stack's registers. -/
def Stk.reset : Stk := ⟨0, 0, 0, false, false, 0, 0, 0, 0, false, false⟩

/-- DRAM. A byte of stack k at local address a has key k × 2^37 + a; a granule has key k × 2^31 + a / 64. `poison` lists the poisoned
granules; `err` the symbols in error of a stored granule, 1 or 2 correctable, 3 or more not (R254, log 9). -/
structure Dram where
  bytes : Memory
  poison : NatSet
  err : Sparse Nat
  stk : Sparse Stk
  deriving DecidableEq, Repr

/-- DRAM at reset (contents log 4). -/
def Dram.reset : Dram := ⟨[], [], [], []⟩

/-- Companion memory as the device sees it (R326, R327): bytes by companion physical address, and poisoned 64-byte words. -/
structure Companion where
  bytes : Memory
  poison : NatSet
  lost : NatSet
  deriving DecidableEq, Repr

/-- Nothing written yet (log 8). -/
def Companion.reset : Companion := ⟨[], [], []⟩

/-- Cluster map entry (Table 1-6): the physical number when mapped, and MOVES. SECTION is the logical number / 64. -/
structure LcEntry where
  phys : Nat
  mapped : Bool
  moves : Nat
  deriving DecidableEq, Repr

/-- Reset value of LCMAPn. -/
def LcEntry.reset (n : Nat) : LcEntry := ⟨n % 64, true, 0⟩

/-- The cluster map, and the fenced and the failing physical clusters (68 × section + number). A map change is one step of the model, so that no
access arrives inside one (R35, log 38). -/
structure ClMap where
  lcmap : List LcEntry
  fenced : NatSet
  failing : NatSet
  deriving DecidableEq, Repr

/-- The map at reset (Table 1-6). -/
def ClMap.reset : ClMap := ⟨(List.range 256).map LcEntry.reset, [], []⟩

/-- A bound window (Table 10-3), and an exchange region of a tenant policy, which uses the same layout. -/
structure Window where
  v : Bool
  r : Bool
  w : Bool
  base : Nat
  limit : Nat
  deriving DecidableEq, Repr

/-- A window not in use. -/
def Window.reset : Window := ⟨false, false, false, 0, 0⟩

/-- One fault-log entry (Table 13-2); `detail` is the number that DETAIL holds. OCCUR is stored, CHECK is computed when it is read. -/
structure FaultEntry where
  code : Nat
  cls : Nat
  posted : Bool
  unit : Nat
  unitId : Nat
  occur : Nat
  stamp : Nat
  step : Nat
  link : Nat
  detail : Nat
  deriving DecidableEq, Repr

/-- The fault log (R361): the newest 16,384 entries, newest first, the next index, and the OCCUR counts by code × 2^16 + unit × 2^8 + id. -/
structure FaultLog where
  entries : List FaultEntry
  next : Nat
  occurs : Sparse Nat
  deriving DecidableEq, Repr

/-- An empty log. -/
def FaultLog.reset : FaultLog := ⟨[], 0, []⟩

/-- Hub SRAM (R232, R233): 65,536 words of 64 bytes in 8 banks. What it holds stands in State as the fault log (words 32,768 and up, R361) and
the tables of the hub; here are the stored errors by granule (4 × word + granule: none, 1 corrected, 2 not), the words that await write-back
(R234), and the next word of the preserving march (R249). -/
structure HubSram where
  err : Sparse Nat
  wb : NatSet
  pos : Nat
  deriving DecidableEq, Repr

/-- Hub SRAM after MARCH-D (R249). -/
def HubSram.reset : HubSram := ⟨[], [], 0⟩

/-- What the newest read by the companion or through a cluster window delivered: its bytes and whether they are poisoned (log 17). -/
structure ReadOut where
  data : List Byte
  poison : Bool
  deriving DecidableEq, Repr

/-- No read yet. -/
def ReadOut.reset : ReadOut := ⟨[], false⟩

end Sys2Proof.Machine
end

