-- ==== Sys2Proof/Machine/ClusterState.lean ====
section
/-! DEFINITION. The state of one logical cluster: outer-product engine (03, 04), sequencer (05, 06), memories (09), vector and row
engines (07), traverse engines (10), version handles and readies (08, 13). Plain data. -/

namespace Sys2Proof.Machine

/-- One array cell of one bank (R61): accumulator and compensation register. After INT8 passes the accumulator is INT32 and bit 0 of
the compensation register is the sticky range bit (R104). -/
structure Cell where
  s : F32
  c : F32
  deriving DecidableEq, Repr

/-- A cell after a clear. -/
def Cell.zero : Cell := ⟨0, 0⟩

/-- One checksum cell (R80): accumulator, compensation register, magnitude register. -/
structure CkCell where
  acc : F32
  comp : F32
  m : F32
  deriving DecidableEq, Repr

/-- A checksum cell after a clear. -/
def CkCell.zero : CkCell := ⟨0, 0, 0⟩

/-- One accumulator bank. `cells` is keyed 128·i + j. `kind` is some true for an INT chain, some false for a float chain (R105). `status`
is bits [15:0] of the tile status so far (R86). `updN` counts updates since the last drain or survey and `firstAon` is the AON count of
the first of them (R84). `lastWave` is the last wavefront issued into the bank (R74). -/
structure Bank where
  cells : Sparse Cell
  col : Sparse CkCell
  row : Sparse CkCell
  corner : CkCell
  n : Nat
  kind : Option Bool
  live : Bool
  parity : Bool
  updN : Nat
  firstAon : Option Nat
  status : Nat
  surveys : Nat
  lastWave : Option Nat
  deriving DecidableEq, Repr

/-- A cleared bank of parity `p`. -/
def Bank.clear (p : Bool) : Bank := ⟨[], [], [], .zero, 0, none, false, p, 0, none, 0, 0, none⟩

/-- The conveyor operations of Table 3-4. -/
inductive ConvKind where
  | drain | load | image | save | survey
  deriving DecidableEq, Repr

/-- A conveyor operation that has begun: its kind, bank, first shift cycle D, shift cycles, command index, and place in dispatch order. -/
structure ConvOp where
  kind : ConvKind
  bank : Bool
  start : Nat
  len : Nat
  idx : Nat
  ord : Nat
  deriving DecidableEq, Repr

/-- A command in a queue (R118): its consist index, its 256 bits, its descriptor slots, whether its predicate held at dispatch (R123), the
parameter registers at dispatch (R119), its frame number, the advance of the frame's anchor at its place (R120, R136), the ordinal of
this execution of its index in the interval (R129), and its place in dispatch order. -/
structure QEntry where
  idx : Nat
  raw : Nat
  desc : List Nat
  live : Bool
  prm : Sparse Nat
  frame : Nat
  adv : Nat
  occ : Nat
  ord : Nat
  deriving DecidableEq, Repr

/-- A scratchpad stream of the OPX queue (R68): its bank group (none: all four), the cycle of its check and of its last access, the OPX stream,
its base address, and the command that drives it. -/
structure OpxStream where
  group : Option Nat
  first : Nat
  last : Nat
  stream : Nat
  addr : Nat
  e : QEntry
  deriving DecidableEq, Repr

/-- A pass that has issued and not ended (R90, R140): its command, the cycle in which update 0 enters or would have entered, the updates done. One that
has done none runs its ramp (R77). -/
structure OpenPass where
  e : QEntry
  t0 : Nat
  done : Nat
  deriving DecidableEq, Repr

/-- Outer-product engine of a cluster. `conv` holds the conveyor operations that have begun and not completed, oldest first; `convWait`
those whose issue cycle has passed (R73). `wave` holds the last wavefront cycle of streams 0 and 1 (R121). `occ1` is the last occupation of the engine by stream 1 (R140): first cycle,
cycles of one update or of the whole conveyor operation, last cycle. `open0` and `open1` are the passes of streams 0 and 1 that have issued and
not ended. `hold` is OPX_STAT.HOLD. `clampRows` says that the clamp keeps the rows disabled, `clampRamp` that its ramp enables them again (R79). `idle`
is set when the array has become idle (R77), `rowsOn` is the issue cycle at which the ramp of a hold last left every row enabled. `survey` is the bank of the
automatic survey in progress (R85). `flagWait` holds the flag commands of the OPX queue that have issued and take effect once every earlier command of
the queue has retired (R127). `issueAt` is the issue-cycle count at which a pause stopped issue (R90). -/
structure Opx where
  bankA : Bank
  bankB : Bank
  ramp : Nat
  saveBase : Nat
  conv : List ConvOp
  convWait : List QEntry
  streams : List OpxStream
  wave0 : Option Nat
  wave1 : Option Nat
  occ1 : Option (Nat × Nat × Nat)
  open0 : Option OpenPass
  open1 : Option OpenPass
  idle : Bool
  rowsOn : Option Nat
  clampRows : Bool
  clampRamp : Bool
  survey : Option Bool
  flagWait : List QEntry
  hold : Nat
  issueAt : Nat
  paused : Bool
  drainSeq : Nat
  evSurveys : Nat
  evClamps : Nat
  evMismatches : Nat
  deriving DecidableEq, Repr

/-- The engine at reset (Tables 3-12 to 3-14). -/
def Opx.reset : Opx :=
  { bankA := .clear false, bankB := .clear false, ramp := 1, saveBase := 0x3BC, conv := [], convWait := [], streams := [], wave0 := none,
    wave1 := none, occ1 := none, open0 := none, open1 := none, idle := true, rowsOn := none, clampRows := false, clampRamp := false, survey := none,
    flagWait := [], hold := 0, issueAt := 0, paused := false, drainSeq := 0, evSurveys := 0, evClamps := 0, evMismatches := 0 }

/-- The cluster header in force (Table 5-1). -/
structure ClHeader where
  cmdN : Nat
  entry : Nat
  twoStream : Bool
  guard : Nat
  bgroup : Nat
  datumBase : Nat
  syncLimit : Nat
  deriving DecidableEq, Repr

/-- One entry of the loop stack (Table 5-7). -/
structure LoopEntry where
  cntx : Nat
  target : Nat
  index : Nat
  period : Nat
  deriving DecidableEq, Repr

/-- What the sequencer waits for. `start` is before START, `run` dispatching, `datum` at a DATUM whose record is not yet written,
`record` record written and not acknowledged, `sync` at a SYNC that has reported, `done` last command dispatched. `probe` stopped at a
DATUM for a refusal probe (R283). `step` stopped before a DATUM with STEP = 1 by R229 or R389. -/
inductive SeqWait where
  | start | run | datum | record | sync | done | probe | step
  deriving DecidableEq, Repr

/-- Why a cluster is stopped (Table 13-6). -/
inductive StopCause where
  | slip | checksum | poison | ctrlParity | seqMemory | monitor | faulted | resumeFail | march | pace
  deriving DecidableEq, Repr

/-- A frame of one stream: its dispatch number, its anchor advance so far, and the anchors of the opened frames (number ↦ anchor + 1). -/
structure Stream where
  no : Nat
  adv : Nat
  anchors : Sparse Nat
  deriving DecidableEq, Repr

/-- What the sets of one cycle have added to a flag (R128): the cluster and its issue cycle, the sum, and the waiters (logical cluster, head code) that
they released. A clear of the same cycle comes before them. -/
structure FlagNow where
  flag : Nat
  lc : Nat
  cyc : Nat
  sum : Nat
  granted : List (Nat × Nat)
  deriving DecidableEq, Repr

/-- Sequencer of a cluster (05). `pc` is the dispatch index, `icyc` the issue-cycle count, `q0` to `q6` the queues OPX, VEC, ROW and
TRV0 to TRV3, `stopAt` the AON count at which the cluster stopped. `staged` are the staged patches. `slot` is the record-slot bit. `line` is the
64-byte line that fetch reads next (R118). `lastIssue` is, of a cluster that a slip has stopped, the last cycle in which commands still issue (R135). `ord` counts dispatched commands. `lfNow` are the sets of local flags in the latest cycle that had one (R128). -/
structure Seq where
  hdr : ClHeader
  pc : Nat
  line : Nat
  wait : SeqWait
  stop : Option StopCause
  stopAt : Nat
  lastIssue : Nat
  icyc : Nat
  q0 : List QEntry
  q1 : List QEntry
  q2 : List QEntry
  q3 : List QEntry
  q4 : List QEntry
  q5 : List QEntry
  q6 : List QEntry
  st0 : Stream
  st1 : Stream
  prm : Sparse Nat
  cnt : Sparse Nat
  cmp : Nat
  loops : List LoopEntry
  lf : Sparse Nat
  lfNow : List FlagNow
  ord : Nat
  staged : Sparse Nat
  slot : Bool
  deriving DecidableEq, Repr

/-- What the sequencer keeps about replays, barriers and refusals of the interval and of the step. `conservative` is conservative timing (R136), `slips` the slips of the interval,
`reports` the fault reports of the interval by kind code (R367). `occs` counts executions of a section-flag command index in the interval and
`sfRec` the occurrences applied (R129). `waiting` lists the queues whose head flag wait has begun, `grant` those
whose flag wait at the head has been decided released, `grantAt` the first and the last cycle in which such a release may come, where the flag was set in
an issue cycle of the cluster itself (R127). `gForce` is G in force. `trvFail` counts failed compares by command index in the step (R278). `verdict` holds the
refused (group, cause) pairs of the step (R217). `readies` are COMMIT.READYs executed and not yet counted (group, newslot).
`lossRec` counts the LOSS.POST executions of the interval applied, by index (R220), `holdRec` the VER.HOLD executions (R213). `opened` is the anchor at which the interval opened.
`nf` counts the non-finite events of the interval's VEC.OPT commands and `nfHeld` those of earlier intervals not yet bound to a ready (R222).
`noContrib` and `noContribHeld` say the same of a command that met a CONTRIB of 0 (R219). `faulted` holds the (group, round) pairs of which the cluster
stopped a step as FAULTED (R225). -/
structure SeqLog where
  syncN : Nat
  waiting : NatSet
  grant : NatSet
  grantAt : Sparse (Nat × Nat)
  gForce : Nat
  conservative : Bool
  slips : Nat
  replays : Nat
  reports : List (Nat × Nat)
  occs : Sparse Nat
  sfRec : Sparse Nat
  lossRec : Sparse Nat
  holdRec : Sparse Nat
  readies : List (Nat × Nat)
  verdict : List (Nat × Nat)
  poisonN : Nat
  pcN : Nat
  through : Bool
  trvFail : Sparse Nat
  lost : List Nat
  lagPosted : Bool
  moveDue : Bool
  unbPosted : Bool
  own : NatSet
  inbound : NatSet
  faulted : List (Nat × Nat)
  noContrib : Bool
  noContribHeld : Bool
  opened : Nat
  faultIdx : Nat
  nf : Nat
  nfHeld : Nat
  deriving DecidableEq, Repr

/-- A stream before START. -/
def Stream.reset : Stream := ⟨0, 0, []⟩

/-- No header in force (log 3). -/
def ClHeader.reset : ClHeader := ⟨0, 0, false, 0, 0, 0, 0⟩

/-- The sequencer at reset (log 3). -/
def Seq.reset : Seq :=
  { hdr := .reset, pc := 0, line := 0, wait := .start, stop := none, stopAt := 0, lastIssue := 0, icyc := 0, q0 := [], q1 := [], q2 := [], q3 := [],
    q4 := [], q5 := [], q6 := [], st0 := .reset, st1 := .reset, prm := [], cnt := [], cmp := 0, loops := [], lf := [], lfNow := [], ord := 0, staged := [],
    slot := false }

/-- Nothing recorded. -/
def SeqLog.reset : SeqLog :=
  { syncN := 0, waiting := [], grant := [], grantAt := [], gForce := 0, conservative := false, slips := 0, replays := 0, reports := [], occs := [],
    sfRec := [], lossRec := [], holdRec := [], readies := [], verdict := [], poisonN := 0, pcN := 0, through := false, trvFail := [],
    lost := [], lagPosted := false, moveDue := false, unbPosted := false, own := [], inbound := [], faulted := [], noContrib := false, noContribHeld := false, opened := 0, faultIdx := 0xFFFFFFFF,
    nf := 0, nfHeld := 0 }

/-- Metadata of a scratchpad word (R232): generation tag and poison. -/
structure WordMeta where
  tag : Nat
  poison : Bool
  deriving DecidableEq, Repr

/-- A word after the clear of R236, and after power-up: tag 0, poison set. -/
def WordMeta.clear : WordMeta := ⟨0, true⟩

/-- Stored error of one 16-byte granule (R233): none, one bit, or more than one. Encoded 0, 1, 2 in the tables below (log 9). -/
abbrev EccKind := Nat

/-- The three memories of a cluster (09). `sp`, `side` and `seqm` hold data; `wmeta` the tag and poison of scratchpad words, `sideClean`
the side-memory words whose poison is clear; `spEcc`, `sideEcc`, `seqEcc` the stored errors by granule; `wb` the words that await
ECC write-back, memory × 65536 + word. `tab` holds the 76 tablets (scratchpad 0-63, side 64-67, sequencer 68-75), an unlisted one OFF;
`moving` those in transition with the value requested. `posSide` and `posSeq` are the next words of the MARCH-P sweeps, `sweepSide` and
`sweepSeq` the first word that failed in each (R251); `passSide` and `passSeq` say that a full sweep has ended since the last arming, `dueSide` and
`dueSeq` that the next marching DATUM tests the memory (R423). -/
structure ClMem where
  sp : Memory
  wmeta : Sparse WordMeta
  side : Memory
  sideClean : NatSet
  seqm : Memory
  spEcc : Sparse EccKind
  sideEcc : Sparse EccKind
  seqEcc : Sparse EccKind
  wb : NatSet
  tab : Sparse Nat
  moving : Sparse Nat
  retain : Nat
  armMask : Nat
  sideRet : Nat
  seqRet : Nat
  arm : Bool
  overdue : Bool
  armedAt : Nat
  marchRun : Bool
  lastAlg : Nat
  lastFail : Bool
  fail : Nat × Nat × Nat
  denied : Nat
  marches : Nat
  ceN : Nat
  ueN : Nat
  ue : Option (Nat × Nat × Nat)
  posSide : Nat
  posSeq : Nat
  sweepSide : Option (Nat × Nat × Nat)
  sweepSeq : Option (Nat × Nat × Nat)
  passSide : Bool
  passSeq : Bool
  dueSide : Bool
  dueSeq : Bool
  deriving DecidableEq, Repr

/-- The memories at reset (Table 9-4; contents log 4; every word poisoned, R236). -/
def ClMem.reset : ClMem :=
  { sp := [], wmeta := [], side := [], sideClean := [], seqm := [], spEcc := [], sideEcc := [], seqEcc := [], wb := [], tab := [],
    moving := [], retain := 0xFFFFFFFFFFFFFFFF, armMask := 0, sideRet := 0xF, seqRet := 0xFF, arm := false,
    overdue := false, armedAt := 0, marchRun := false, lastAlg := 0, lastFail := false, fail := (0, 0, 0), denied := 0, marches := 0,
    ceN := 0, ueN := 0, ue := none, posSide := 0, posSeq := 0,
    sweepSide := none, sweepSeq := none, passSide := false, passSeq := false, dueSide := false, dueSeq := false }

/-- A tile in the drain buffer (R179): 128 × 128 FP32 or INT32 values keyed 128·r + j, poison of its words, its status word. -/
structure DrainTile where
  vals : Sparse F32
  isInt : Bool
  poison : Bool
  status : BitVec 512
  start : Nat
  deriving DecidableEq, Repr

/-- A row context (R191): its statistics row, compensation register and term count. The key is the address of the statistics row. -/
structure RowCtx where
  key : Nat
  comp : F32
  n : Nat
  deriving DecidableEq, Repr

/-- Vector and row engines of a cluster (07). `busy` holds, for each drain-buffer slot whose tile has been taken, the cycle in which it becomes
free (R179). `ftab` is the function-table memory: 16 tables of 8 KiB. `spillWait`: a row waits for spilled statistics. -/
structure VecRow where
  drain : List DrainTile
  busy : List Nat
  ftab : Memory
  ctxs : List RowCtx
  cflags : Nat
  ctxRefused : Nat
  poisonRows : Nat
  drainFull : Nat
  spillWait : Bool
  deriving DecidableEq, Repr

/-- The engines at reset (Table 7-4). -/
def VecRow.reset : VecRow := ⟨[], [], [], [], 0, 0, 0, 0, false⟩

/-- Where the access at CHKADDR or TAGADDR stands: not yet made, refused (R277), or ended without a response (R327). -/
inductive EndAcc where
  | asked
  | refused
  | lost
  deriving DecidableEq, Repr

/-- A traverse in flight (R169, R280): its command, its resolved memory-side base and destination base, whether it moves data, the stream
check value, whether its key slot was empty, the tag that GCM gives its ciphertext (R275), the plaintext that a DIGEST entry needs, the companion memory before its writes, which a
refused write restores (R282), and how the accesses at CHKADDR and TAGADDR stand. -/
structure Trv where
  e : QEntry
  base : Nat
  dbase : Nat
  moved : Bool
  ck : Nat
  keyAbsent : Bool
  gtag : List Byte
  plain : List Byte
  before : Companion
  chk : EndAcc
  tag : EndAcc
  deriving DecidableEq, Repr

/-- One traverse engine: traverses in flight, oldest first, tickets completed in the interval, and its registers (Table 10-8). -/
structure TrvEngine where
  flight : List Trv
  done : NatSet
  probe : Bool
  refV : Bool
  chkFail : Bool
  refCmd : Nat
  coord : List Nat
  refAddr : Nat
  refWrite : Bool
  refOrd : Nat
  refEntry : Option (QEntry × Nat × Nat)
  refusedN : Nat
  shortSeg : Nat
  chkMismatch : Nat
  probes : Nat
  deriving DecidableEq, Repr

/-- A traverse engine at reset. -/
def TrvEngine.reset : TrvEngine := ⟨[], [], false, false, false, 0, [], 0, false, 0, none, 0, 0, 0, 0⟩

/-- A version handle (R213, Table 13-5). -/
structure Handle where
  tensor : Nat
  slot : Nat
  held : Bool
  release : Bool
  ver : Nat
  since : Nat
  deriving DecidableEq, Repr

/-- An empty handle. -/
def Handle.empty : Handle := ⟨0, 0, false, false, 0, 0⟩

/-- One logical cluster. `inConsist` says that the loaded consist uses it. `pausing` is set from a PAUSE request until
the cluster reports itself paused (R345), `pausedOk` from then until RESUME or STOP. -/
structure Cluster where
  opx : Opx
  seq : Seq
  log : SeqLog
  mem : ClMem
  vr : VecRow
  t0 : TrvEngine
  t1 : TrvEngine
  t2 : TrvEngine
  t3 : TrvEngine
  handles : Sparse Handle
  inConsist : Bool
  pausing : Bool
  pausedOk : Bool
  deriving DecidableEq, Repr

/-- A logical cluster at reset. -/
def Cluster.reset : Cluster :=
  ⟨.reset, .reset, .reset, .reset, .reset, .reset, .reset, .reset, .reset, [], false, false, false⟩

end Sys2Proof.Machine
end

