-- ==== Sys2Proof/Machine/FabState.lean ====
section
/-! DEFINITION. The state of the fabric (11): ports, jobs, member tables, flow contexts, chunk-stages, sequence spaces, frames. Plain data. -/

namespace Sys2Proof.Machine

/-- A piece of a chunk-stage as the port formed it (R301, R360): the job slot and the member it goes to, its flow, the header fields, the
plaintext payload, and what its chain knows of it (R305). -/
structure Piece where
  jslot : Nat
  midx : Nat
  ctx : Nat
  round : Nat
  stage : Nat
  chunk : Nat
  piece : Nat
  hops : Nat
  contrib : Nat
  payload : List Byte
  note : PieceNote
  deriving DecidableEq, Repr

/-- A frame that waits for its ACK (R291, R292): the frame, the job slot and member, whether its last answer was BUSY, and the piece that a
DATA frame carries. -/
structure Unacked where
  frame : Frame
  jslot : Nat
  midx : Nat
  busy : Bool
  piece : Option Piece
  deriving DecidableEq, Repr

/-- A formed piece that has not left the port (R360), the AON count at which it was formed, and whether its two copies have differed once. -/
structure Formed where
  piece : Piece
  formedAt : Nat
  differed : Bool
  deriving DecidableEq, Repr

/-- Port registers (Table 11-11), the fence of R360, the OOS state of R322, frames that await an ACK, formed pieces, oldest first, and the
frames over budget that wait in order (R421). -/
structure Port where
  etype : Nat
  en : Bool
  vlanEn : Bool
  pcp : Nat
  vid : Nat
  mac : Nat
  linkUp : Bool
  oos : Bool
  oosSent : Nat
  fenced : Bool
  txN : Nat
  rxN : Nat
  retx : Nat
  crcN : Nat
  foreignN : Nat
  authFail : Nat
  staleN : Nat
  busyN : Nat
  cfgMis : Nat
  oosRx : Nat
  unacked : List Unacked
  formed : List Formed
  waiting : List Frame
  deriving DecidableEq, Repr

/-- A port at reset. -/
def Port.reset : Port :=
  ⟨0x88B5, false, false, 0, 0, 0, false, false, 0, false, 0, 0, 0, 0, 0, 0, 0, 0, 0, 0, [], [], []⟩

/-- Job-table entry (Table 11-4); `removed` are the members removed permanently (R375), `stopped` says that a sequence
space has run out and the job's reductions have stopped (R321). -/
structure Job where
  valid : Bool
  enc : Bool
  fkey : Nat
  job : Nat
  pm1 : Nat
  pos : Nat
  gm1 : Nat
  gidx : Nat
  leader : Nat
  cport : Nat
  mtab : Nat
  xtab : Nat
  dlMissed : Nat
  bumps : Nat
  absentN : Nat
  removed : NatSet
  stopped : Bool
  deriving DecidableEq, Repr

/-- A free slot. -/
def Job.reset : Job := ⟨false, false, 0, 0, 0, 0, 0, 0, 0, 0, 0, 0, 0, 0, 0, [], false⟩

/-- Ring-table entry (Table 11-5). -/
structure RingEnt where
  mac : Nat
  absent : Bool
  deriving DecidableEq, Repr

/-- An empty ring-table entry. -/
def RingEnt.reset : RingEnt := ⟨0, false⟩

/-- Cross-table entry (Table 11-5). MAC_P and MAC_PM1 stand for the members `dP` and `dPM1` positions below POS, 0 and 1 until a removal
rewrites them (R376); `macs` and `absent` hold, by that distance, the MACs known and the members absent. -/
structure CrossEnt where
  macs : Sparse Nat
  absent : NatSet
  dP : Nat
  dPM1 : Nat
  deriving DecidableEq, Repr

/-- An empty cross-table entry. -/
def CrossEnt.reset : CrossEnt := ⟨[], [], 0, 1⟩

/-- Flow context (Table 11-6). -/
structure Flow where
  valid : Bool
  fopen : Bool
  kind : Nat
  cfmt : Nat
  sfmt : Nat
  rfmt : Nat
  residEn : Bool
  trig : Nat
  done : Nat
  trigThresh : Nat
  jslot : Nat
  ksel : Nat
  denseAt : Nat
  cpiecesM1 : Nat
  src : Nat
  src2 : Nat
  result : Nat
  hdr : Nat
  resid : Nat
  n : Nat
  deadline : Nat
  round : Nat
  deriving DecidableEq, Repr

/-- Status fields of a flow context that the port changes. `limit` says that the open round has the completion limit of R376, `flagged`
that FLOW_MISMATCH was posted in this round. -/
structure FlowStat where
  cfgchk : Nat
  chDone : Nat
  lateN : Nat
  bumpsR : Nat
  spent : Bool
  spentGen : Nat
  spentJob : Nat
  limit : Bool
  flagged : Bool
  deriving DecidableEq, Repr

/-- A context that was never opened. -/
def Flow.reset : Flow := ⟨false, false, 0, 0, 0, 0, false, 0, 0, 0, 0, 0, 0, 0, 0, 0, 0, 0, 0, 0, 200, 0⟩

/-- Its status fields. -/
def FlowStat.reset : FlowStat := ⟨0, 0, 0, 0, false, 0, 0, false, false⟩

/-- One unit of a sum: its bytes, the error account of each of its blocks (R308), whether a block of it saturated (R307). -/
structure UnitSt where
  data : List Byte
  acct : List Nat
  sat : Bool
  deriving DecidableEq, Repr

/-- One chunk-stage of the current round at this port (R299 to R304). Stages 0 to 3 are those of STAGE; 4 holds a ring-group sum and 5 the
final sum where this member is the holder or the final agent. `bound` is the sender it is bound to, `staged` the pieces not yet taken up by
index and `nextIn` the first of them still to come, `members` to `contrib` what its chain record and headers say, `holder` and `incl` what its notes say, `queue` the units taken up and
not yet acted on, `doneN` the units acted on, `act` what this member does with them (0 open, 1 adds its contribution, 2 passes them on).
The chain that the member itself sends: the blocks not yet in a frame, the index of its next piece, whether it was dropped (R291). -/
structure StageSt where
  port : Nat
  ctx : Nat
  chunk : Nat
  stage : Nat
  bound : Option Nat
  staged : Sparse (List Byte × PieceNote)
  nextIn : Nat
  members : Nat
  groups : Nat
  hops : Nat
  contrib : Nat
  holder : Nat
  incl : Sparse Nat
  queue : List UnitSt
  doneN : Nat
  act : Nat
  out : List Byte
  outN : Nat
  dropped : Bool
  deriving DecidableEq, Repr

/-- This member's contribution to a chunk of the open round (R312 to R317): the bytes of SRC and SRC2, the granules that read poisoned,
whether the chunk was passed on without it (`skipped`, with the granules then poisoned), whether the residual is written. -/
structure OwnSt where
  port : Nat
  ctx : Nat
  chunk : Nat
  src : List Byte
  src2 : List Byte
  bad : List Nat
  skipped : Bool
  resid : Bool
  deriving DecidableEq, Repr

/-- The result of a chunk of the current round: the units written, what the header will say (R316; `err` is the largest account of a block in
units of 2^-134), whether the header is written. -/
structure ResSt where
  port : Nat
  ctx : Nat
  chunk : Nat
  units : Nat
  members : Nat
  groups : Nat
  contrib : Nat
  holder : Nat
  densified : Bool
  nonfinite : Bool
  sat : Bool
  bumps : Nat
  err : Nat
  written : Bool
  deriving DecidableEq, Repr

/-- The fabric. `tx` is the record of the frames each port has sent, oldest first. `seqTx` is the next SEQ of a space, `taken` the SEQs
taken with their status, by space. `gens` is the generation of a fabric key slot, `registered` the (slot, job) pairs of the current
generations (R321). `slow` holds per job slot the DEADLINE_MISSED flags of its last rounds (R374). -/
structure Fabric where
  ports : Sparse Port
  jobs : Sparse Job
  ring : Sparse RingEnt
  cross : Sparse CrossEnt
  flows : Sparse Flow
  fstat : Sparse FlowStat
  stages : List StageSt
  owns : List OwnSt
  results : List ResSt
  seqTx : Sparse Nat
  taken : Sparse (List (Nat × Nat))
  gens : Sparse Nat
  registered : List (Nat × Nat)
  slow : Sparse (List Bool)
  tx : List (Nat × Frame)
  deriving DecidableEq, Repr

/-- The fabric at reset. -/
def Fabric.reset : Fabric := ⟨[], [], [], [], [], [], [], [], [], [], [], [], [], [], []⟩

end Sys2Proof.Machine
end

