-- ==== Sys2Proof/Machine/HostState.lean ====
section
/-! DEFINITION. The state of the host link, the mailbox (12), SMBus and the test access port (R353, R459). Plain data. -/

namespace Sys2Proof.Machine

/-- A ring (R332, R333, R336). `e` is the expected ALIVE of a command ring or the last ALIVE posted, `first` that the first-message rule
is armed, `last` the OPCODE and SEQ of the last accepted message. `sigd` is the PROD that the interrupt word last carried, `irqAt` the
AON count at which it was written. -/
structure Ring where
  base : Nat
  prod : Nat
  cons : Nat
  irqEn : Bool
  irqAddr : Nat
  e : Nat
  first : Bool
  last : Option (Nat × Nat)
  sigd : Nat
  irqAt : Option Nat
  deriving DecidableEq, Repr

/-- A ring at reset. -/
def Ring.reset : Ring := ⟨0, 0, 0, false, 0, 0, true, none, 0, none⟩

/-- A host window (Table 12-2). -/
structure HWin where
  base : Nat
  size : Nat
  en : Bool
  rd : Bool
  wr : Bool
  refused : Bool
  deriving DecidableEq, Repr

/-- A host window at reset. -/
def HWin.reset : HWin := ⟨0, 0, false, false, false, false⟩

/-- A long command outstanding (R339): its message, the number that the work has fixed (checkpoint number, key slot and the like), and the
index of the first fault-log entry that its work can have caused. -/
structure LongCmd where
  m : Msg
  aux : Nat
  since : Nat
  deriving DecidableEq, Repr

/-- A queued event (R351): index of its fault-log entry, the entry's code, and the 64 bytes of the entry as they were logged. -/
structure Event where
  code : Nat
  idx : Nat
  data : Nat
  deriving DecidableEq, Repr

/-- An interim or short completion in its turn (R340): its message, the first fault-log entry that the command's work can have caused, whether it is
final, and its status, length and body; none of a PAUSE that has not ended (R345). -/
structure ShortDone where
  m : Msg
  since : Nat
  final : Bool
  done : Option (Nat × Nat × Nat)
  deriving DecidableEq, Repr

/-- The final completion of a long command whose work has ended, while events of that work still wait for the event ring (R340): those from
`since` on; and the number that the work had fixed. -/
structure OwedFinal where
  m : Msg
  aux : Nat
  since : Nat
  status : Nat
  len : Nat
  body : Nat
  deriving DecidableEq, Repr

/-- Mailbox (12): MB_CTL, refusal and discard counters, rings 0 to 5, windows, queued events, event number, events lost since the last
posting, the log index at which the last command was taken, interim and short completions in taking order that wait for events or for one another (R340),
long commands outstanding, final completions that wait for events, the PAUSE whose completion is owed (R345), the AON count of the
last stationmaster restart (R392), and for command rings 0 to 3 the commands taken from other rings while the ring was not empty (R338). -/
structure Mailbox where
  en : Bool
  serviceUp : Bool
  refuse : Sparse Nat
  repeatN : Nat
  evtLost : Nat
  apertureN : Nat
  idxBad : Nat
  rings : Sparse Ring
  hwin : Sparse HWin
  evq : List Event
  evNo : Nat
  lostSince : Nat
  takeAt : Nat
  shorts : List ShortDone
  long : List LongCmd
  owed : List OwedFinal
  pauseOf : Option Msg
  restartAt : Option Nat
  waits : Sparse Nat
  deriving DecidableEq, Repr

/-- The mailbox at reset (Table 12-2). -/
def Mailbox.reset : Mailbox := ⟨false, false, [], 0, 0, 0, 0, [], [], [], 0, 0, 0, [], [], [], none, none, []⟩

/-- Turaist link (R325). -/
structure Link where
  up : Bool
  lanes : Nat
  gts : Nat
  down : Bool
  deriving DecidableEq, Repr

/-- The link before it trains. -/
def Link.reset : Link := ⟨false, 32, 64, false⟩

/-- SMBus target (R353, R354): alert registers, POWER_CAP, the scrub-edge pulse, the data that the last read returned and its PEC, and whether the
last transaction was NACKed. -/
structure Smb where
  alert : Nat
  mask : Nat
  cap : Nat
  pulse : Bool
  reply : List Byte
  pec : Nat
  nack : Bool
  deriving DecidableEq, Repr

/-- SMBus at reset. -/
def Smb.reset : Smb := ⟨0, 0, 0, false, [], 0, false⟩

/-- Test access port (R459, R460): the instruction in force, the status byte of the last access, the data register captured, the boundary
register's preload. -/
structure Tap where
  ir : Nat
  status : Nat
  dr : BitVec 128
  preload : List Bool
  drive : Bool
  deriving DecidableEq, Repr

/-- The port at reset: IDCODE in force (log 12). -/
def Tap.reset : Tap := ⟨0x01, 0, 0, [], false⟩

end Sys2Proof.Machine
end

