-- ==== Sys2Proof/Machine/PowerState.lean ====
section
/-! DEFINITION. The state of clocks, timetables, power and sleep (15), and of start-up (17). Plain data. -/

namespace Sys2Proof.Machine

/-- One activity of one timetable instance (Table 15-7a): credit in 1/256 unit, the budget it runs under, WAIT_N, SERVED, and whether a
request waited in this period. -/
structure TtCell where
  credit : Int
  budget : Nat
  waitN : Nat
  served : Nat
  waited : Bool
  deriving DecidableEq, Repr

/-- A request from outside that waits for a budget (R421): an access through a host window at a device address, a read of the hub register view
at an offset, an access to a cluster window with its tag, a memory read of the test port with its data register. -/
inductive TtReq where
  | host (a : Nat) (acc : Access)
  | view (off : Nat) (acc : Access)
  | window (lc a : Nat) (tag : Option (BitVec 4)) (acc : Access)
  | debug (a : Nat) (dr : BitVec 128)
  deriving DecidableEq, Repr

/-- The timetables: budgets set by BUDGET_SET, keyed 16 × kind + activity, and the cells that differ from their default, keyed
(kind × 256 + instance) × 16 + activity. `nandHalf` says that the store has halved its CKPT budget (Table 15-8), `waiting` holds the
requests over budget in arrival order (R421), `periods` the number of each instance's period, keyed kind × 256 + instance (R419). -/
structure Timetable where
  budgets : Sparse Nat
  cells : Sparse TtCell
  nandHalf : Bool
  waiting : List TtReq
  periods : Sparse Nat
  deriving DecidableEq, Repr

/-- Power control (R427 to R430, R437): `clockLv` holds the level at which each section's clock runs and `riseAt` the AON count + 1 at which its
voltage began to rise for a faster one (R428); requested levels, COUPLE, the ceilings, when each was last moved (`thermAt` holds the
AON count after the last move of a section's thermal ceiling), temperatures by sensor (in
1/256 °C), sensors above throttle, the last sample, energy in nJ, step counters, the open episode of POWER_CAP_UNMET, and since when the 1 s average lies below 0.9 L. -/
structure Power where
  clockLv : Sparse Nat
  riseAt : Sparse Nat
  req0 : Nat
  req1 : Nat
  req2 : Nat
  req3 : Nat
  couple : Bool
  powerCeil : Nat
  clamp : Sparse Nat
  therm : Sparse Nat
  slowedAt : Option Nat
  powerAt : Option Nat
  thermAt : Sparse Nat
  fasterAt : Option Nat
  clampAt : Sparse Nat
  temps : Sparse Int
  hot : NatSet
  warm : NatSet
  sample : PowerReading
  sampleAon : Nat
  energy : Nat
  powerSteps : Nat
  clampSteps : Nat
  thermSteps : Nat
  unmet : Bool
  lowSince : Option Nat
  deriving DecidableEq, Repr

/-- Power control at reset (log 3: requested levels P0, COUPLE by default 1). -/
def Power.reset : Power :=
  { clockLv := [], riseAt := [], req0 := 0, req1 := 0, req2 := 0, req3 := 0, couple := true, powerCeil := 0, clamp := [], therm := [], slowedAt := none, powerAt := none, thermAt := [],
    fasterAt := none, clampAt := [], temps := [], hot := [], warm := [], sample := ⟨0, 0, 0, 0, 0, 0⟩, sampleAon := 0, energy := 0,
    powerSteps := 0, clampSteps := 0, thermSteps := 0, unmet := false, lowSince := none }

/-- Sleep (R431 to R436). `edge0` and `edge1` hold the AON count at which a WAKE pin left its level, until 50 cycles have passed (R435), `asked` the
MIDX of a peer whose buddy request came during the entry (R433). `entering` holds the target (1 to 3) and RETAIN of an entry in progress, `ponr` that its point of no return has
passed, `back` the state to return to as an OPSTATE code, `waking` a wake in progress, `pend` a wake latched during the entry, `cut` the number of
the checkpoint that an SL3 entry writes (R434), `due` that an automatic checkpoint was due when the entry began, `pins`
the levels of WAKE0 (bit 0) and WAKE1 (bit 1), both high at reset through their pull-ups (Table 18-3). -/
structure Sleep where
  last : Nat
  cause : Nat
  port : Nat
  latched : Bool
  latchedN : Nat
  wakeUs : Nat
  refusedN : Nat
  abortedN : Nat
  lastKind : Nat
  aborted : Bool
  lastId : Nat
  cfg : Nat
  entering : Option (Nat × Nat)
  ponr : Bool
  back : Nat
  waking : Bool
  pend : Bool
  cut : Option Nat
  due : Bool
  pins : Nat
  edge0 : Option Nat
  edge1 : Option Nat
  asked : Option Nat
  deriving DecidableEq, Repr

/-- Sleep registers at reset (Table 15-12). WAKE_CFG is 0x7F_FFC1: W0_EN, HOST_EN, FAB_EN and WHISTLE_EN. -/
def Sleep.reset : Sleep := ⟨0, 0, 0, false, 0, 0, 0, 0, 0, false, 0, 0x7FFFC1, none, false, 1, false, false, none, false, 3, none, none, none⟩

/-- Correlation registers (Table 15-3). -/
structure TimeRegs where
  pairs : Sparse (Nat × Nat)
  seq : Nat
  run : Nat
  deriving DecidableEq, Repr

/-- Reset value. -/
def TimeRegs.reset : TimeRegs := ⟨[], 0, 0⟩

/-- Boot flash (R467, R468, R451, R461): copies A and B of the loader, the two firmware images and the configuration record; the
replay-protected counter; the SCRUB_PENDING mark; the laid-up counter. -/
structure Flash where
  loaderA : ImageCopy
  loaderB : ImageCopy
  fwA : ImageCopy
  fwB : ImageCopy
  sbA : ImageCopy
  sbB : ImageCopy
  cfgA : ImageCopy
  cfgB : ImageCopy
  counter : Nat
  scrubMark : Bool
  laidUp : Nat
  deriving DecidableEq, Repr

/-- Where the module stands between power and service: no power or below 40 V, held by MOD_RESET#, starting, up, or in the safe state (R394). -/
inductive PwPhase where
  | off | held | starting | up | safe
  deriving DecidableEq, Repr

/-- Start-up (17). `done` are the stages that have ended in this start, `running` those in progress; straps as latched; `fw` the digests of
layers 0 and 1, stationmaster, signal box and configuration record; `cdi1` and `cdi2` the compound identifiers, `aliasCert` the alias certificate
and `idLocked` that the root of trust refuses the identity key (R439); `conf` the values of the configuration record taken (R468); `version` FW_VERSION; `began` the AON count of the start; `retry` the
units marked down (ports 0 to 7, 8 the link, 9 the store); `coolNoted` that the fault log has the unknown cooling profile (R4); `inputLow` and `pinLow` what holds the module (R465). -/
structure Boot where
  phase : PwPhase
  kind : Nat
  running : NatSet
  done : NatSet
  overrun : Bool
  attempt : Bool
  failed : Bool
  cause : Nat
  loaderCopy : Nat
  fwCopy : Nat
  sbCopy : Nat
  cfgCopy : Nat
  conf : ConfRecord
  rerun : Bool
  mapRestored : Bool
  portUp : Nat
  repaired : Nat
  totalMs : Nat
  s5s : Nat
  began : Nat
  slot : Nat
  cool : Nat
  coolUnknown : Bool
  coolNoted : Bool
  feed : Nat
  feedUnknown : Bool
  fw : List (BitVec 512)
  cdi1 : List Byte
  cdi2 : List Byte
  aliasCert : List Byte
  idLocked : Bool
  version : Nat
  retry : NatSet
  inputLow : Bool
  pinLow : Bool
  deriving DecidableEq, Repr

/-- Start-up at reset (Table 17-4): nothing has begun; the configuration values are those of the record at delivery (log 10). -/
def Boot.reset : Boot :=
  { phase := .off, kind := 0, running := [], done := [], overrun := false, attempt := false, failed := false, cause := 0, loaderCopy := 0,
    fwCopy := 0, sbCopy := 0, cfgCopy := 0, conf := (Config.flashImage 6).conf, rerun := false, mapRestored := false, portUp := 0, repaired := 0, totalMs := 0, s5s := 0, began := 0, slot := 0,
    cool := 0, coolUnknown := false, coolNoted := false, feed := 0, feedUnknown := false, fw := [], cdi1 := [], cdi2 := [],
    aliasCert := [], idLocked := false, version := 0, retry := [],
    inputLow := false, pinLow := false }

end Sys2Proof.Machine
end

