-- ==== Sys2Proof/Machine/SecurityState.lean ====
section
/-! DEFINITION. The state of security and tenancy (16): tenant, policy, keys, digests, reports, scrub. Plain data. -/

namespace Sys2Proof.Machine

/-- Security part. `policy` is the 512-byte tenant policy, empty in OPEN. `wkeys` and `fkeys` hold the filled key slots, `wdig` the digest
entries (slot, DBASE, digest of the plaintext, R443), `entries` ENTRIES per slot, `reports` the report digests of R442, newest first.
`stage` is the scrub stage in progress (0 none), `toDbg` the level a scrub ends at, `began` the AON count at which it began. `vtDigest` is
the version-table image digest (Table 16-2). -/
structure Security where
  tenant : Nat
  policy : List Byte
  wdigFull : Bool
  wkeys : Sparse (BitVec 256)
  fkeys : Sparse (BitVec 256)
  ckey : Option (BitVec 256)
  wdig : List (Nat × Nat × BitVec 512)
  entries : Sparse Nat
  reports : List (BitVec 512)
  reportN : Nat
  scrubN : Nat
  lastMs : Nat
  stubborn : Nat
  stage : Nat
  toDbg : Nat
  began : Nat
  vtDigest : Option (BitVec 512)
  deriving DecidableEq, Repr

/-- Security part at reset. -/
def Security.reset : Security := ⟨0, [], false, [], [], none, [], [], [], 0, 0, 0, 0, 0, 0, 0, none⟩

end Sys2Proof.Machine
end

