-- ==== Sys2Proof/Machine/StoreState.lean ====
section
/-! DEFINITION. The state of the checkpoint store (14): copies and their records, blocks, counters, and what its superblock keeps. The
check-value units of the hub (R411). Plain data. -/

namespace Sys2Proof.Machine

/-- One record of a copy (R399): its bytes (header, ciphertext, tag, padding), the block that holds it, and whether it has become
unreadable (R397). -/
structure Rec where
  bytes : List Byte
  block : Nat
  unreadable : Bool
  deriving DecidableEq, Repr

/-- One checkpoint copy (R402, R403). `src` is SRC_ID of its records, `own` says that the module itself wrote it, `peer` the index of the
peer that sent it otherwise. `end_` is set when its END record is durable, `reader` while a restore, verify or READ_REQ reads it, `broken`
when a record was lost under R401. -/
structure Copy where
  own : Bool
  peer : Nat
  ckpt : Nat
  recs : List Rec
  end_ : Bool
  broken : Bool
  reader : Bool
  deriving DecidableEq, Repr

/-- One block (R404 to R406). `at_` is the AON count at which it was programmed, `seen` that of its last patrol read: negative once the counter has
started anew since. `due` says that a refresh is scheduled, or, of a block without records, that its erase is owed; `bad` that it is retired. -/
structure Block where
  erases : Nat
  at_ : Int
  seen : Int
  due : Bool
  bad : Bool
  deriving DecidableEq, Repr

/-- A block that was never erased. -/
def Block.fresh : Block := ⟨0, 0, 0, false, false⟩

/-- What the laid-up record of R461 holds: the binding, the state, the keys and the digest entries, and the laid-up counter. -/
structure LaidUp where
  tenant : Nat
  policy : List Byte
  windows : Sparse Window
  isSealed : Bool
  wkeys : Sparse (BitVec 256)
  fkeys : Sparse (BitVec 256)
  ckey : Option (BitVec 256)
  wdig : List (Nat × Nat × BitVec 512)
  wdigFull : Bool
  entries : Sparse Nat
  counter : Nat
  deriving DecidableEq, Repr

/-- A sealed record: nonce, ciphertext and tag of AES-256-GCM. -/
structure SealedRec where
  iv : BitVec 96
  ct : List Byte
  tag : BitVec 128
  deriving DecidableEq, Repr

/-- The checkpoint store. `n24` and `spares` are the geometry that the configuration record gives (R395, R468). `patrolLeft` are the blocks that
the patrol of a start has yet to read (R405), `moving` the moved blocks whose erase waits for the reads of copies (own, peer, number) (R407). `dies`
are the lost dies (channel × 16 + die), `wearPosted` is 0, 80 or 100 (R404). `laid`, `mapRec` and `flogCopy` are in the superblock (R461, R471). -/
structure Store where
  n24 : Bool
  spares : Nat
  ready : Bool
  copies : List Copy
  blocks : Sparse Block
  patrolLeft : NatSet
  moving : List (Nat × List (Bool × Nat × Nat))
  grownBad : Nat
  softN : Nat
  stripeN : Nat
  unreadN : Nat
  dies : NatSet
  degraded : Bool
  spareLow : Bool
  wearPosted : Nat
  laid : Option SealedRec
  mapRec : Option ClMap
  flogCopy : Option FaultLog
  deriving DecidableEq, Repr

/-- The store at reset (Table 14-4). -/
def Store.reset : Store :=
  { n24 := (Config.flashImage 6).conf.n24, spares := (Config.flashImage 6).conf.spares, ready := false, copies := [], blocks := [], patrolLeft := [],
    moving := [], grownBad := 0, softN := 0, stripeN := 0, unreadN := 0, dies := [], degraded := false, spareLow := false, wearPosted := 0,
    laid := none, mapRec := none, flogCopy := none }

/-- A check-value unit (Table 14-6); writes take effect in order and at once, so QUEUED and BUSY read 0. -/
structure CvUnit where
  widthM1 : Nat
  refin : Bool
  refout : Bool
  finv : Bool
  poly : Nat
  init : Nat
  value : Nat
  fed : Nat
  deriving DecidableEq, Repr

/-- Reset value of a unit. -/
def CvUnit.reset : CvUnit := ⟨31, true, true, true, 0x1EDC6F41, 0xFFFFFFFF, 0xFFFFFFFF, 0⟩

end Sys2Proof.Machine
end

