-- ==== Sys2Proof/Machine/State.lean ====
section
/-! DEFINITION. The whole state of the module, its reset value, and the faults and refusals of a step. -/

namespace Sys2Proof.Machine

/-- Operating states (Table 12-5). -/
inductive OpState where
  | boot | idle | loaded | running | paused | halted | scrubbing | sl1 | sl2 | sl3
  deriving DecidableEq, Repr

/-- Security states (R332). -/
inductive SecState where
  | sopen | assigned | sealed
  deriving DecidableEq, Repr

/-- The clock domain counters (R415): AON, HUB, MEM, NAND, HOST in whole cycles, FAB in quarter cycles, ARITH of the four sections. -/
structure Clocks where
  aon : Nat
  hub : Nat
  mem : Nat
  nand : Nat
  host : Nat
  fabQ : Nat
  arith0 : Nat
  arith1 : Nat
  arith2 : Nat
  arith3 : Nat
  deriving DecidableEq, Repr

/-- Counters at reset. -/
def Clocks.reset : Clocks := ⟨0, 0, 0, 0, 0, 0, 0, 0, 0, 0⟩

/-- One section (05, 10): section flag counts, the engine that the turntable served last (R268, whose order of service only timing
shows), halted barrier groups, monitor trips (AON times), stopped by a monitor. -/
structure Section where
  sf : Sparse Nat
  sfNow : List FlagNow
  ttRank : Nat
  haltedGroups : NatSet
  trips : List Nat
  tripped : Bool
  deriving DecidableEq, Repr

/-- A section at reset (log 3). -/
def Section.reset : Section := ⟨[], [], 0, [], [], false⟩

/-- An outstanding SYNC (R130): ordinal, AON time of the first report, logical clusters that have reported. -/
structure SyncRec where
  ordinal : Nat
  since : Nat
  reported : NatSet
  raised : Bool
  deriving DecidableEq, Repr

/-- The loaded consist (R116, R185): device addresses of each part by logical cluster and of the tables, digests, and the SYNC table of the
hub (`syncDone` is the number of completed ordinals). -/
structure Prog where
  loaded : Bool
  parts : Sparse Nat
  ftab : Nat
  vtab : Nat
  mons : Nat
  digests : Sparse (BitVec 512)
  ftabDigest : BitVec 512
  sync : List SyncRec
  syncDone : Nat
  replayN : Nat
  deriving DecidableEq, Repr

/-- No consist. -/
def Prog.reset : Prog := ⟨false, [], 0, 0, 0, [], 0, [], 0, 0⟩

/-- Boot flash as the module is delivered: the copies, the counters and the marks are what manufacture put there (log 10). -/
def Flash.reset : Flash :=
  ⟨Config.flashImage 0, Config.flashImage 1, Config.flashImage 2, Config.flashImage 3, Config.flashImage 4, Config.flashImage 5,
    Config.flashImage 6, Config.flashImage 7, Config.flashCounter, false, 0⟩

/-- The whole module. -/
structure State where
  pending : List Instr
  free : Nat
  clk : Clocks
  op : OpState
  sec : SecState
  dbg : Nat
  faultPin : Bool
  cl : Sparse Cluster
  map : ClMap
  hub : HubSram
  sect : Sparse Section
  prog : Prog
  dram : Dram
  comp : Companion
  out : ReadOut
  win : Sparse Window
  train : Train
  flog : FaultLog
  mb : Mailbox
  link : Link
  smb : Smb
  tap : Tap
  fab : Fabric
  su : Security
  ckpt : Ckpt
  store : Store
  cv : Sparse CvUnit
  tt : Timetable
  pw : Power
  slp : Sleep
  time : TimeRegs
  flash : Flash
  boot : Boot
  deriving DecidableEq, Repr

/-- Faults that end a run. -/
inductive Fault where
  /-- Not raised: every fault of the spec is an effect on State (Table 13-6). -/
  | none
  deriving DecidableEq, Repr

/-- Refusals of the model. -/
inductive Refusal where
  /-- The command has no meaning yet. Safe: nothing is claimed of it. -/
  | notModelled (mnemonic : String)
  deriving DecidableEq, Repr

/-- The module right after reset. -/
def State.reset : State :=
  { pending := [], free := 0, clk := .reset, op := .boot, sec := .sopen, dbg := 0, faultPin := false, cl := [], map := .reset, hub := .reset, sect := [],
    prog := .reset, dram := .reset, comp := .reset, out := .reset, win := [], train := .reset, flog := .reset, mb := .reset, link := .reset,
    smb := .reset, tap := .reset,
    fab := .reset, su := .reset, ckpt := .reset, store := .reset, cv := [], tt := ⟨[], [], false, [], []⟩, pw := .reset, slp := .reset, time := .reset,
    flash := Flash.reset, boot := .reset }

/-- What a command answers. -/
abbrev Res := Host.Outcome State Fault Refusal

end Sys2Proof.Machine
end

