-- ==== Sys2Proof/Machine/Access.lean ====
section
/-! DEFINITION. Reading and writing the parts of State. -/

namespace Sys2Proof.Machine

/-- Logical cluster lc. -/
def cluster (s : State) (lc : Nat) : Cluster := spGet .reset s.cl lc

/-- Replace a logical cluster. -/
def setCluster (s : State) (lc : Nat) (c : Cluster) : State := { s with cl := spSet .reset s.cl lc c }

/-- Change a logical cluster. -/
def modCluster (s : State) (lc : Nat) (f : Cluster → Cluster) : State := setCluster s lc (f (cluster s lc))

/-- Section k. -/
def sectionOf (s : State) (k : Nat) : Section := spGet .reset s.sect k

/-- Change a section. -/
def modSection (s : State) (k : Nat) (f : Section → Section) : State := { s with sect := spMod .reset s.sect k f }

/-- Stack registers. -/
def stkOf (s : State) (k : Nat) : Stk := spGet .reset s.dram.stk k

/-- Change a stack's registers. -/
def modStk (s : State) (k : Nat) (f : Stk → Stk) : State := { s with dram := { s.dram with stk := spMod .reset s.dram.stk k f } }

/-- Ring r. -/
def ringOf (s : State) (r : Nat) : Ring := spGet .reset s.mb.rings r

/-- Change a ring. -/
def modRing (s : State) (r : Nat) (f : Ring → Ring) : State := { s with mb := { s.mb with rings := spMod .reset s.mb.rings r f } }

/-- Tensor entry. -/
def vtOf (s : State) (t : Nat) : VtEntry := spGet .reset s.train.vt t

/-- Change a tensor entry. -/
def modVt (s : State) (t : Nat) (f : VtEntry → VtEntry) : State := { s with train := { s.train with vt := spMod .reset s.train.vt t f } }

/-- Commit group. -/
def groupOf (s : State) (g : Nat) : Group := spGet .reset s.train.groups g

/-- Change a commit group. -/
def modGroup (s : State) (g : Nat) (f : Group → Group) : State :=
  { s with train := { s.train with groups := spMod .reset s.train.groups g f } }

/-- Loss monitor. -/
def monitorOf (s : State) (m : Nat) : Monitor := spGet .reset s.train.mons m

/-- Change a loss monitor. -/
def modMonitor (s : State) (m : Nat) (f : Monitor → Monitor) : State :=
  { s with train := { s.train with mons := spMod .reset s.train.mons m f } }

/-- Cluster map entry. -/
def lcEntry (s : State) (lc : Nat) : LcEntry := listGet (LcEntry.reset 0) s.map.lcmap lc

/-- Section of a logical cluster (R29). -/
def secOf (lc : Nat) : Nat := lc / 64

/-- The private device identity key, derived from the unique device secret (R438). -/
def identityKey : Nat := privateKey (leBytes 64 Config.uds.toNat)

/-- The SHA-512 digest of the identity public key, whose first bytes are ID_PRINT (R438). -/
def idPrint : Nat := (sha512 (publicKey identityKey)).toNat

/-- The private alias key, derived from CDI2 (R439). -/
def aliasKey (s : State) : Nat := privateKey s.boot.cdi2

/-- The hardware issue is the final letter of the order code (R11). -/
def hwIssue (c : ConfRecord) : Nat := c.orderCode.toNat / 2 ^ 120

/-- Base of slot k (Table 8-5). -/
def slotBase (v : VtEntry) (k : Nat) : Nat :=
  match k with
  | 0 => v.base0
  | 1 => v.base1
  | 2 => v.base2
  | _ => v.base3

/-- The next free value, in lo … hi, and the state after it is drawn (log 6). -/
def drawFree (lo hi : Nat) (s : State) : Nat × State := (Config.freeIn lo hi s.free, { s with free := s.free + 1 })

/-- The mapped logical clusters of the loaded consist. -/
def consistLcs (s : State) : List Nat :=
  (s.prog.parts.map (fun e => e.1)).filter (fun lc => (lcEntry s lc).mapped)

/-- A value of PRM(n) of a cluster as its commands read it (Table 5-3). PRM249 and PRM250 are the module's own. -/
def prmGet (s : State) (lc n : Nat) : Nat :=
  let c := cluster s lc
  if n = 249 then lc
  else if n = 250 then secOf lc + 256 * (lcEntry s lc).phys
  else if n = 251 then c.log.gForce
  else if n < 240 ∨ n = 248 ∨ n = 252 ∨ n = 253 then spGet 0 c.seq.prm n
  else 0

/-- The parameter registers that a command captures at dispatch (R119). -/
def prmSnap (s : State) (lc : Nat) : Sparse Nat :=
  (List.range 256).filterMap (fun n => let v := prmGet s lc n; if v = 0 then none else some (n, v))

/-- GET_STATE STEP (Table 12-8): lowest PRM248 among mapped clusters of the consist, 0 without one. -/
def stateStep (s : State) : Nat :=
  match (consistLcs s).map (fun lc => prmGet s lc 248) with
  | [] => 0
  | x :: r => r.foldl min x

/-- Microseconds of HUB-independent AON time. -/
def aonUs (s : State) : Nat := s.clk.aon / 50

end Sys2Proof.Machine
end

