-- ==== Sys2Proof/Machine/Crc.lean ====
section
/-! DEFINITION. The CRC model of R410 and the fixed configurations of Table 14-7. -/

namespace Sys2Proof.Machine

/-- A CRC configuration: width, polynomial in normal notation, initial value, REFIN, REFOUT, FINV. -/
structure CrcCfg where
  w : Nat
  poly : Nat
  init : Nat
  refin : Bool
  refout : Bool
  finv : Bool
  deriving DecidableEq, Repr

/-- Reverse the low `w` bits. -/
def reflect : Nat → Nat → Nat
  | 0, _ => 0
  | w + 1, x => (x % 2) * 2 ^ w + reflect w (x / 2)

/-- One bit step of R410. -/
def crcBit (c : CrcCfg) (rpoly : Nat) (v : Nat) : Nat :=
  if c.refin then (if v % 2 = 1 then (v / 2) ^^^ rpoly else v / 2)
  else if natBits v (c.w - 1) 1 = 1 then ((2 * v) ^^^ c.poly) % 2 ^ c.w else (2 * v) % 2 ^ c.w

/-- `k` bit steps. -/
def crcBits (c : CrcCfg) (rpoly : Nat) : Nat → Nat → Nat
  | 0, v => v
  | k + 1, v => crcBits c rpoly k (crcBit c rpoly v)

/-- One byte enters (R410). -/
def crcByte (c : CrcCfg) (v : Nat) (b : Byte) : Nat :=
  let v' := if c.refin then v ^^^ b.toNat else v ^^^ (b.toNat * 2 ^ (c.w - 8))
  crcBits c (reflect c.w c.poly) 8 v'

/-- Bytes enter in ascending order. -/
def crcFeed (c : CrcCfg) (v : Nat) (l : List Byte) : Nat := l.foldl (crcByte c) v

/-- The result of R410 from the running value. -/
def crcResult (c : CrcCfg) (v : Nat) : Nat :=
  (if c.refin != c.refout then reflect c.w v else v) ^^^ (if c.finv then 2 ^ c.w - 1 else 0)

/-- A whole check value. -/
def crcOf (c : CrcCfg) (l : List Byte) : Nat := crcResult c (crcFeed c c.init l)

/-- Configuration 0b00 of Table 14-7, and every CRC-32C of the manual (R414). -/
def cfgCrc32c : CrcCfg := ⟨32, 0x1EDC6F41, 0xFFFFFFFF, true, true, true⟩

/-- Table 14-7 by CFG. -/
def streamCfg (n : Nat) : CrcCfg :=
  match n with
  | 0 => cfgCrc32c
  | 1 => ⟨32, 0x04C11DB7, 0xFFFFFFFF, true, true, true⟩
  | 2 => ⟨64, 0x42F0E1EBA9EA3693, 0xFFFFFFFFFFFFFFFF, true, true, true⟩
  | _ => ⟨16, 0x1021, 0xFFFF, false, false, false⟩

/-- CRC-32C of bytes (R335, R414). -/
def crc32c (l : List Byte) : Nat := crcOf cfgCrc32c l

end Sys2Proof.Machine
end

