-- ==== Sys2Proof/Machine/Log.lean ====
section
/-! DEFINITION. Messages, postings to the completion and event rings (R333 to R336), the fault log (R361, R362, R494) and events (R351). -/

namespace Sys2Proof.Machine

/-- The 128 bytes of a message (Table 12-3). -/
def messageBytes (opcode alive ring final seq status len stamp body : Nat) : List Byte :=
  let h := packFields [(opcode, 16), (alive, 8), (ring, 3), (final, 1), (0, 4), (seq, 32), (status, 8), (0, 8), (len, 16), (stamp, 32),
    (body, 864)]
  let l := leBytes 124 h
  l ++ leBytes 4 (crc32c l)

/-- Entries of a ring not yet consumed (R333). -/
def ringCount (r : Ring) : Nat := (r.prod + 512 - r.cons) % 512

/-- A device write of bytes to companion memory (R326): whole 64-byte words take the poison of the data, parts keep old poison. A word whose access gets no
response stays unwritten (R327). -/
def compWrite (c : Companion) (a : Nat) (l : List Byte) (poison : Bool) : Companion :=
  let ws := unitsOf 64 a l.length
  let live := ws.filter (fun w => !(setHas c.lost w))
  { c with
    bytes := if live = ws then memWrite c.bytes a l
      else ((List.range l.length).filter (fun i => live.contains ((a + i) / 64))).foldl (fun m i => memWrite m (a + i) [listGet 0 l i]) c.bytes
    lost := ws.foldl setDel c.lost
    poison := live.foldl (fun p w =>
      if poison then setAdd p w
      else if a ≤ 64 * w ∧ 64 * w + 64 ≤ a + l.length then setDel p w else p) c.poison }

/-- Post one message on ring 4 or 5 (R333, R336): written at BASE + 128 × (PROD mod 256), contiguous ALIVE, STAMP = HUB[31:0]. The first
ALIVE after EN rises is a free value. -/
def postRing (s : State) (r opcode final seq status len body : Nat) : State :=
  let g := ringOf s r
  let d := if g.first then drawFree 0 255 s else ((g.e + 1) % 256, s)
  let s := d.2
  let msg := messageBytes opcode d.1 r final seq status len s.clk.hub body
  modRing { s with comp := compWrite s.comp (g.base * 32768 + 128 * (g.prod % 256)) msg false } r
    (fun g => { g with prod := (g.prod + 1) % 512, e := d.1, first := false })

/-- The 60 bytes of a fault-log entry that CHECK covers, and CHECK (Table 13-2). -/
def entryBytes (e : FaultEntry) : List Byte :=
  let l := leBytes 60 (packFields [(e.code, 16), (e.cls, 3), (b2n e.posted, 1), (e.unit, 4), (e.unitId, 8), (e.occur, 32), (e.stamp, 64),
    (e.step, 32), (e.link, 32), (e.detail, 256), (0, 32)])
  l ++ leBytes 4 (crc32c l)

/-- The retained entry of an index. -/
def entryAt (l : FaultLog) (idx : Nat) : Option FaultEntry :=
  if idx < l.next ∧ l.next - idx ≤ l.entries.length then l.entries[l.next - 1 - idx]? else none

/-- Post one queued event (R351). -/
def postEvent (s : State) (ev : Event) (rest : List Event) : State :=
  let body := packFields [(ev.idx, 32), (ev.data, 512), (s.mb.lostSince, 32)]
  let s := postRing s 5 ev.code 0 s.mb.evNo 0 72 body
  { s with mb := { s.mb with evq := rest, evNo := (s.mb.evNo + 1) % 2 ^ 32, lostSince := 0 } }

/-- Post queued events while the event ring has room; the rings are served only while EN = 1 and the stationmaster runs, which SL2 and SL3
halt. -/
def flushEventsN : Nat → State → State
  | 0, s => s
  | n + 1, s =>
    if s.mb.en && s.mb.serviceUp && s.op != .sl2 && s.op != .sl3 && decide (ringCount (ringOf s 5) < 256) then
      match s.mb.evq with
      | [] => s
      | ev :: r => flushEventsN n (postEvent s ev r)
    else s

/-- Does some queued event belong to work that began at the log entry `since`? -/
def eventsSince (s : State) (since : Nat) : Bool := s.mb.evq.any (fun e => decide (since ≤ e.idx))

/-- Post a final completion on ring 4. -/
def postFinal (s : State) (o : OwedFinal) : State := postRing s 4 (bits o.m.raw 0 16) 1 (bits o.m.raw 32 32) o.status o.len o.body

/-- Post interim and short completions in taking order (R340): up to one whose command has not ended, or whose work has an event in the queue. -/
def postShortsN : List ShortDone → State → State
  | [], s => { s with mb := { s.mb with shorts := [] } }
  | x :: r, s => match x.done with
    | none => { s with mb := { s.mb with shorts := x :: r } }
    | some d =>
      if x.final && eventsSince s x.since then { s with mb := { s.mb with shorts := x :: r } }
      else postShortsN r (postRing s 4 (bits x.m.raw 0 16) (b2n x.final) (bits x.m.raw 32 32) d.1 d.2.1 d.2.2)

/-- Post the completions whose turn has come. -/
def postShorts (s : State) : State := postShortsN s.mb.shorts s

/-- Must a final completion wait: for an event of its work, or for its command's interim completion? -/
def finalWaits (s : State) (m : Msg) (since : Nat) : Bool := eventsSince s since || s.mb.shorts.any (fun x => !x.final && x.m == m)

/-- Post the final completions whose work has no event left in the queue (R340), in the order in which their work ended. -/
def postOwed (s : State) : State :=
  if s.mb.owed.isEmpty then s
  else
    let ready := s.mb.owed.filter (fun o => !(finalWaits s o.m o.since))
    ready.foldl postFinal { s with mb := { s.mb with owed := s.mb.owed.filter (fun o => finalWaits s o.m o.since) } }

/-- Post every queued event that finds room, then the completions that waited for one. -/
def flushEvents (s : State) : State := postOwed (postShorts (flushEventsN s.mb.evq.length s))

/-- Units of Table 13-2. -/
def uCluster : Nat := 0
def uSection : Nat := 1
def uStack : Nat := 2
def uPort : Nat := 3
def uHub : Nat := 4
def uTuraist : Nat := 5
def uStore : Nat := 6
def uModule : Nat := 7

/-- No linked entry. -/
def noLink : Nat := 0xFFFFFFFF

/-- How often a kind of fault has been reported in this interval (R367). -/
def repeats (c : Cluster) (kind : Nat) : Nat := (c.log.reports.filter (fun r => r.1 == kind)).length

/-- The LINK of a report that repeats one of its interval (R362): the entry of the fault whose replay it comes from; none for the first. -/
def repeatLink (c : Cluster) (n : Nat) : Nat := if n = 0 then noLink else c.log.faultIdx

/-- The words of hub SRAM that hold an entry, one in each copy of the log in its upper 2 MiB (R361; which word is a DESIGN CHOICE, log 9). -/
def logWords (idx : Nat) : List Nat := [32768 + idx % 16384, 49152 + idx % 16384]

/-- A write of a whole word of hub SRAM replaces its four codes (R233). -/
def HubSram.rewrite (h : HubSram) (w : Nat) : HubSram := { h with err := [0, 1, 2, 3].foldl (fun t g => spDel t (4 * w + g)) h.err }

/-- Append one entry to the fault log; `post` asks for an event, which is queued when the queue has room (R351, R361). -/
def logRaw (s : State) (code cls unit unitId link detail : Nat) (post : Bool) : State :=
  let key := code * 65536 + unit * 256 + unitId
  let occ := satAdd 32 (spGet 0 s.flog.occurs key) 1
  let room := decide (s.mb.evq.length < 1024)
  let step := if unit = 0 then prmGet s unitId 248 else stateStep s
  let e : FaultEntry :=
    { code := code, cls := cls, posted := post && room, unit := unit, unitId := unitId, occur := occ, stamp := s.clk.hub % 2 ^ 64,
      step := step % 2 ^ 32, link := link, detail := detail % 2 ^ 256 }
  let idx := s.flog.next
  let s := { s with flog := { entries := (e :: s.flog.entries).take 16384, next := idx + 1, occurs := spSet 0 s.flog.occurs key occ }
                    hub := (logWords idx).foldl HubSram.rewrite s.hub }
  if post then
    if room then { s with mb := { s.mb with evq := s.mb.evq ++ [⟨code, idx, ofLe (entryBytes e)⟩] } }
    else { s with mb := { s.mb with evtLost := satAdd 16 s.mb.evtLost 1, lostSince := s.mb.lostSince + 1 } }
  else s

/-- Append an entry and post its event. -/
def logEvent (s : State) (code cls unit unitId link detail : Nat) : State :=
  flushEvents (logRaw s code cls unit unitId link detail true)

/-- Append an entry that posts no event. -/
def logOnly (s : State) (code cls unit unitId link detail : Nat) : State := logRaw s code cls unit unitId link detail false

/-- Index of the newest entry. -/
def lastEntry (s : State) : Nat := s.flog.next - 1

/-- A program defect entry (R33, R143, R175, R215); the fields are packed by R494. -/
def logDefect (s : State) (lc : Nat) (fields : List (Nat × Nat)) : State := logEvent s 0x000B 4 0 lc noLink (packFields fields)

/-- Is the module awake: IDLE, LOADED, RUNNING, PAUSED or HALTED (R457)? -/
def OpState.awake : OpState → Bool
  | .idle => true
  | .loaded => true
  | .running => true
  | .paused => true
  | .halted => true
  | _ => false

/-- OPSTATE codes (Table 12-5). -/
def OpState.code : OpState → Nat
  | .boot => 0
  | .idle => 1
  | .loaded => 2
  | .running => 3
  | .paused => 4
  | .halted => 5
  | .scrubbing => 6
  | .sl1 => 8
  | .sl2 => 9
  | .sl3 => 10

/-- SECSTATE codes (Table 12-2). -/
def SecState.code : SecState → Nat
  | .sopen => 0
  | .assigned => 1
  | .sealed => 2

/-! Alerts (Table 13-13 of the SMBus rules R354) -/
def aFAULT : Nat := 0
def aTEMP : Nat := 1
def aPOWER : Nat := 2
def aSTATE : Nat := 3
def aSCRUB0 : Nat := 4
def aSCRUB1 : Nat := 5
def aSTRAP : Nat := 6

/-- Set an alert status bit; the scrub causes pulse the line. -/
def setAlert (s : State) (n : Nat) : State :=
  { s with smb := { s.smb with alert := s.smb.alert ||| 2 ^ n, pulse := s.smb.pulse || n == aSCRUB0 || n == aSCRUB1 } }

/-- Move to an operating or security state: STATE_CHANGE is logged and posted, and ALERT_STATUS.STATE_CHANGE is set (R354, R447). DETAIL
holds OPSTATE, SECSTATE and DBG. -/
def changeState (s : State) (o : OpState) (x : SecState) : State :=
  if s.op = o ∧ s.sec = x then s
  else
    let s := { s with op := o, sec := x }
    logEvent (setAlert s aSTATE) 0x0001 7 7 0 noLink (packFields [(o.code, 4), (x.code, 2), (s.dbg, 2)])

/-- Move to an operating state. -/
def setOp (s : State) (o : OpState) : State := changeState s o s.sec

end Sys2Proof.Machine
end

