-- ==== Sys2Proof/Machine/Clock.lean ====
section
/-! DEFINITION. Performance levels (R426 to R428), which clocks run (Table 15-1), the counters of an AON cycle, and STAT[1:0] (R475). -/

namespace Sys2Proof.Machine

/-- OPSTATE as GET_STATE and a refusal carry it: mailbox replies never carry the sleep codes. A sleep state reads as the state
that a wake returns to. -/
def mbOp (s : State) : Nat := if 8 ≤ s.op.code then s.slp.back else s.op.code

/-- Profile ceiling (R4, R427): P2 under AIR and an unlisted strap, P0 under LIQUID and IMMERSION. -/
def profileCeil (cool : Nat) : Nat := if cool = 1 ∨ cool = 2 then 0 else 2

/-- Profile power limit in W (Table 0-2). -/
def profileLimit (cool : Nat) : Nat := if cool = 1 ∨ cool = 2 then 1600 else 1000

/-- L of R429 in W. -/
def powerLimit (s : State) : Nat :=
  if s.smb.cap = 0 then profileLimit s.boot.cool else min s.smb.cap (profileLimit s.boot.cool)

/-- Requested level of a section. -/
def reqLevel (p : Power) (k : Nat) : Nat := if k = 0 then p.req0 else if k = 1 then p.req1 else if k = 2 then p.req2 else p.req3

/-- The slowest ceiling of a section other than its requested level (R427). -/
def ceilOf (s : State) (k : Nat) : Nat :=
  max (max (profileCeil s.boot.cool) s.pw.powerCeil) (max (spGet 0 s.pw.therm k) (spGet 0 s.pw.clamp k))

/-- A section's own level. -/
def ownLevel (s : State) (k : Nat) : Nat := max (reqLevel s.pw k) (ceilOf s k)

/-- The effective level of a section (R427). -/
def effLevel (s : State) (k : Nat) : Nat :=
  if s.pw.couple then max (max (ownLevel s 0) (ownLevel s 1)) (max (ownLevel s 2) (ownLevel s 3)) else ownLevel s k

/-- The four effective levels, 3 bits each, SEC0 lowest. -/
def perfBits (s : State) : Nat := packFields [(effLevel s 0, 3), (effLevel s 1, 3), (effLevel s 2, 3), (effLevel s 3, 3)]

/-- Does a ceiling other than the requested level set some effective level (R429)? -/
def ceilingSets (s : State) : Bool :=
  [0, 1, 2, 3].any (fun k => decide ((if s.pw.couple then max (max s.pw.req0 s.pw.req1) (max s.pw.req2 s.pw.req3) else reqLevel s.pw k) <
    effLevel s k))

/-- ARITH cycles in one AON cycle at a level (Table 15-7). -/
def arithPerAon (l : Nat) : Nat := 24 - 3 * min l 7

/-- Is power applied and MOD_RESET# high? -/
def powered (s : State) : Bool := s.boot.phase ≠ .off && s.boot.phase ≠ .held

/-- Do the ARITH clocks run? -/
def arithRuns (s : State) : Bool := s.boot.phase = .up && s.op ≠ .sl1 && s.op ≠ .sl2 && s.op ≠ .sl3

/-- Do the HUB and NAND clocks run? -/
def hubRuns (s : State) : Bool := powered s && s.op ≠ .sl2 && s.op ≠ .sl3

/-- Do the MEM clocks run? -/
def memRuns (s : State) : Bool := powered s && s.boot.phase ≠ .safe && s.op ≠ .sl2 && s.op ≠ .sl3

/-- Do the FAB and HOST clocks run? -/
def fabRuns (s : State) : Bool := powered s && s.op ≠ .sl3

/-- Has a start powered the domain that its stage n powers (Table 17-2)? -/
def stageUp (s : State) (n : Nat) : Bool :=
  s.boot.phase == .up || (s.boot.phase == .safe && !s.boot.failed) || setHas s.boot.done n || setHas s.boot.running n

/-- Which clocks run, domain by domain (Table 15-1): those that run in the present state and whose stage has powered them (Table 17-2). -/
def hubClock (s : State) : Bool := hubRuns s && stageUp s 1
def memClock (s : State) : Bool := memRuns s && stageUp s 6
def nandClock (s : State) : Bool := hubRuns s && stageUp s 8
def hostClock (s : State) : Bool := fabRuns s && stageUp s 4
def fabClock (s : State) : Bool := fabRuns s && stageUp s 7
def arithClock (s : State) : Bool := arithRuns s || (s.boot.phase == .starting && stageUp s 5)

/-- Nominal core voltage of a level in mV (Table 15-7). -/
def levelMv (l : Nat) : Nat :=
  match l with
  | 0 => 700
  | 1 => 650
  | 2 => 600
  | 3 => 560
  | 4 => 520
  | _ => 500

/-- The level at which a section's clock runs: in transition the slower of its two (R428). -/
def clockLevel (s : State) (k : Nat) : Nat := max (spGet 0 s.pw.clockLv k) (effLevel s k)

/-- Has the voltage of a section risen for its effective level, at 10 mV per µs since `riseAt` (R428)? -/
def risen (s : State) (k : Nat) : Bool :=
  let l := clockLevel s k
  decide (l ≤ effLevel s k) || (spGet 0 s.pw.riseAt k != 0 && decide (spGet 0 s.pw.riseAt k + 5 * (levelMv (effLevel s k) - levelMv l) ≤ s.clk.aon + 1))

/-- The clocks switch (R428): to a slower level at once, to a faster one when the voltage has risen, coupled sections on one edge. Sections whose clock
is stopped switch with it stopped. -/
def switchClocks (s : State) : State :=
  let ready (k : Nat) : Bool := !(arithClock s) || (if s.pw.couple then [0, 1, 2, 3].all (risen s) else risen s k)
  let lv (k : Nat) : Nat := if ready k then effLevel s k else clockLevel s k
  let at_ (k : Nat) : Nat := if lv k = effLevel s k then 0 else if spGet 0 s.pw.riseAt k = 0 then s.clk.aon + 1 else spGet 0 s.pw.riseAt k
  { s with pw := { s.pw with clockLv := [0, 1, 2, 3].foldl (fun t k => spSet 0 t k (lv k)) s.pw.clockLv
                             riseAt := [0, 1, 2, 3].foldl (fun t k => spSet 0 t k (at_ k)) s.pw.riseAt } }

/-- The counters after an AON cycle (20 ns): each advances by the cycles of its clock in that time (Table 15-1). -/
def countCycle (s : State) : Clocks :=
  let c := s.clk
  let a (k x : Nat) : Nat := if arithClock s then x + arithPerAon (clockLevel s k) else x
  let on (b : Bool) (x n : Nat) : Nat := if b then x + n else x
  { aon := c.aon + 1, hub := on (hubClock s) c.hub 40, mem := on (memClock s) c.mem 20, nand := on (nandClock s) c.nand 36,
    host := on (hostClock s) c.host 20, fabQ := on (fabClock s) c.fabQ 125, arith0 := a 0 c.arith0, arith1 := a 1 c.arith1,
    arith2 := a 2 c.arith2, arith3 := a 3 c.arith3 }

/-- STAT[1:0] (R475); none while AON is off, when the pins are high impedance (Table 18-3). -/
def statPins (s : State) : Option Nat :=
  if s.boot.phase = .off then none
  else if s.boot.phase = .safe then some 3
  else match s.op with
    | .boot => some 0
    | .sl3 => some 0
    | .scrubbing => some 2
    | .halted => some 3
    | _ => some 1

/-- PRESENT# (Table 18-3): tied to ground in the module. -/
def presentPin : Bool := false

/-- Is ALERT# asserted for a level cause (R354)? -/
def alertLevel (s : State) : Bool := natBits s.smb.alert 0 4 &&& (15 - natBits s.smb.mask 0 4) ≠ 0 ||
  (natBits s.smb.alert 6 1 == 1 && natBits s.smb.mask 6 1 == 0)

/-- POWER_LIMIT stays set while a ceiling sets the effective level (R429). -/
def refreshPowerAlert (s : State) : State := if ceilingSets s then setAlert s aPOWER else s

end Sys2Proof.Machine
end

