-- ==== Sys2Proof/Machine/Mem.lean ====
section
/-! DEFINITION. The device address map (R22 to R28) and every memory behind it: DRAM with its symbol code and poison (R254, R255),
cluster memories with SEC-DED, tags and poison (R233 to R235), windows (R27, R33, R241), companion memory (R326). All accesses are made
of pieces that lie in one aligned 64-byte unit. -/

namespace Sys2Proof.Machine

/-- What a device address reaches (Table 1-4). `dram` carries the stack and the stack-local address, `window` the logical cluster and
the offset, `comp` the companion physical address, `hub` the register offset. -/
inductive Loc where
  | dram (stk loc : Nat)
  | window (lc off : Nat)
  | hub (off : Nat)
  | comp (pa : Nat)
  | hole
  deriving DecidableEq, Repr

/-- R24: interleaved view. -/
def interleaved (a : Nat) : Nat × Nat :=
  let g := a / 4096
  let q := g / 12
  let r := g % 12
  let h := ((natBits q 0 4) ^^^ (natBits q 4 4) ^^^ (natBits q 8 4) ^^^ (natBits q 12 4)) % 12
  ((r + h) % 12, q * 4096 + a % 4096)

/-- R25: local view of section k, at byte b of the view. -/
def localView (k b : Nat) : Nat × Nat :=
  let j := b / 4096
  (3 * k + j % 3, j / 3 * 4096 + b % 4096)

/-- Table 1-4. -/
def locate (a : Nat) : Loc :=
  if a < 0x018000000000 then .dram (interleaved a).1 (interleaved a).2
  else if 0x040000000000 ≤ a ∧ a < 0x060000000000 then
    let k := (a - 0x040000000000) / 0x008000000000
    let b := (a - 0x040000000000) % 0x008000000000
    if b < 0x006000000000 then .dram (localView k b).1 (localView k b).2 else .hole
  else if 0x700000000000 ≤ a ∧ a < 0x700100000000 then
    .window ((a - 0x700000000000) / 0x01000000) ((a - 0x700000000000) % 0x01000000)
  else if 0x7F0000000000 ≤ a ∧ a < 0x7F0100000000 then .hub (a - 0x7F0000000000)
  else if 0x800000000000 ≤ a ∧ a < 0x1000000000000 then .comp (a - 0x800000000000)
  else .hole

/-- Is the address DRAM, in either view? -/
def isDram (a : Nat) : Bool :=
  match locate a with
  | .dram _ _ => true
  | _ => false

/-- Is the address companion memory? -/
def isComp (a : Nat) : Bool :=
  match locate a with
  | .comp _ => true
  | _ => false

/-- Bytes read, and whether the unit is poisoned. -/
structure RdRes where
  data : List Byte
  poison : Bool
  deriving DecidableEq, Repr

/-- n zero bytes. -/
def zeros (n : Nat) : List Byte := List.replicate n 0

/-- Cut a … a + n - 1 into pieces that lie in aligned 64-byte units: (address, length). `n` bounds the recursion. -/
def piecesN : Nat → Nat → Nat → List (Nat × Nat)
  | 0, _, _ => []
  | f + 1, a, n =>
    if n = 0 then []
    else
      let k := min n (64 - a % 64)
      (a, k) :: piecesN f (a + k) (n - k)

/-- Pieces of a range. -/
def pieces (a n : Nat) : List (Nat × Nat) := piecesN (n / 64 + 2) a n

/-! DRAM -/

/-- Key of a stack-local byte. -/
def dramKey (stk loc : Nat) : Nat := stk * 2 ^ 37 + loc

/-- Key of a granule. -/
def granKey (stk loc : Nat) : Nat := stk * 2 ^ 31 + loc / 64

/-- A controller read of one granule (R254, R255): corrects and rewrites, or poisons and rewrites, and counts. -/
def dramTouch (s : State) (stk loc : Nat) (patrol : Bool) : State :=
  let g := granKey stk loc
  let e := spGet 0 s.dram.err g
  if e = 0 then s
  else
    let s := { s with dram := { s.dram with err := spDel s.dram.err g } }
    if e ≤ 2 then modStk s stk (fun k => { k with ceN := satAdd 32 k.ceN 1 })
    else
      let s := { s with dram := { s.dram with poison := setAdd s.dram.poison g } }
      modStk s stk (fun k => { k with ueN := satAdd 32 k.ueN 1, ueAddr := loc / 64 * 64, ueV := true, uePatrol := patrol })

/-- Is the granule poisoned? -/
def dramPoisoned (s : State) (stk loc : Nat) : Bool := setHas s.dram.poison (granKey stk loc)

/-- Write part or all of one granule (R255). -/
def dramWriteUnit (s : State) (stk loc : Nat) (l : List Byte) (poison : Bool) : State :=
  let g := granKey stk loc
  let s := if l.length = 64 then { s with dram := { s.dram with err := spDel s.dram.err g } } else dramTouch s stk loc false
  let keep := l.length ≠ 64 && setHas s.dram.poison g
  let pz := if poison || keep then setAdd s.dram.poison g else setDel s.dram.poison g
  { s with dram := { s.dram with bytes := memWrite s.dram.bytes (dramKey stk loc) l, poison := pz } }

/-! Cluster memories -/

/-- Error table of memory 0 scratchpad, 1 side, 2 sequencer. -/
def eccTab (m : ClMem) (mem : Nat) : Sparse EccKind := if mem = 0 then m.spEcc else if mem = 1 then m.sideEcc else m.seqEcc

/-- Replace an error table. -/
def setEccTab (m : ClMem) (mem : Nat) (t : Sparse EccKind) : ClMem :=
  if mem = 0 then { m with spEcc := t } else if mem = 1 then { m with sideEcc := t } else { m with seqEcc := t }

/-- Banks of a cluster memory (Table 9-1). -/
def bankCount (mem : Nat) : Nat := if mem = 0 then 64 else if mem = 1 then 4 else 8

/-- Number of a bank's tablet. -/
def tabIdx (mem bank : Nat) : Nat := (if mem = 0 then 0 else if mem = 1 then 64 else 68) + bank

/-- Tablet of a bank (Table 9-3); an unlisted one is OFF. -/
def tablet (m : ClMem) (mem bank : Nat) : Nat := spGet 3 m.tab (tabIdx mem bank)

/-- The check of some granules of a word at a read (R233, R234): counts, the write-back owed (an uncorrectable word of sequencer memory is
not rewritten but reloaded), the record of the last uncorrectable error. Returns whether any granule, and whether granule 0, is uncorrectable. -/
def eccRead (m : ClMem) (mem w : Nat) (gs : List Nat) : ClMem × Bool × Bool :=
  let ks := gs.map (fun g => (g, spGet 0 (eccTab m mem) (4 * w + g)))
  let ce := (ks.filter (fun k => k.2 == 1)).length
  let ue := (ks.filter (fun k => decide (2 ≤ k.2))).length
  if ce + ue = 0 then (m, false, false)
  else
    let nb := bankCount mem
    let owed := mem ≠ 2 || ce ≠ 0
    let m := { m with ceN := satAdd 16 m.ceN ce, ueN := satAdd 16 m.ueN ue, wb := if owed then setAdd m.wb (mem * 65536 + w) else m.wb }
    let m := if ue = 0 then m else { m with ue := some (mem, w % nb, w / nb) }
    (m, ue ≠ 0, ks.any (fun k => k.1 == 0 && decide (2 ≤ k.2)))

/-- All four granules. -/
def allGran : List Nat := [0, 1, 2, 3]

/-- The granules that bytes lo … lo + n - 1 of a word touch. -/
def granOf (lo n : Nat) : List Nat := unitsOf 16 lo n

/-- Forget the stored errors of some granules of a word. -/
def eccClear (m : ClMem) (mem w : Nat) (gs : List Nat) : ClMem :=
  setEccTab m mem (gs.foldl (fun t g => spDel t (4 * w + g)) (eccTab m mem))

/-- A word read of the scratchpad: poison as delivered, and the tag when it can be trusted (R234). -/
structure SpWord where
  poison : Bool
  tag : Nat
  trusted : Bool
  deriving DecidableEq, Repr

/-- Read the metadata and check the code of scratchpad word w. -/
def spReadWord (m : ClMem) (w : Nat) : SpWord × ClMem :=
  let r := eccRead m 0 w allGran
  let k := spGet WordMeta.clear m.wmeta w
  (⟨k.poison || r.2.1, k.tag, !r.2.2⟩, r.1)

/-- Write bytes of one scratchpad word (R235). -/
def spWriteUnit (m : ClMem) (a : Nat) (l : List Byte) (poison : Bool) (tag : Nat) : ClMem :=
  let w := a / 64
  let gs := granOf (a % 64) l.length
  let full := l.length == 64
  let r := if full then (m, false, false) else eccRead m 0 w gs
  let old := (spGet WordMeta.clear m.wmeta w).poison
  let p := if full then poison else poison || old || r.2.1
  let m := eccClear r.1 0 w gs
  { m with sp := memWrite m.sp a l, wmeta := spSet WordMeta.clear m.wmeta w ⟨tag % 16, p⟩ }

/-- Read the poison and check the code of side-memory word w. -/
def sideReadWord (m : ClMem) (w : Nat) : Bool × ClMem :=
  let r := eccRead m 1 w allGran
  (!(setHas m.sideClean w) || r.2.1, r.1)

/-- Write bytes of one side-memory word. -/
def sideWriteUnit (m : ClMem) (a : Nat) (l : List Byte) (poison : Bool) : ClMem :=
  let w := a / 64
  let gs := granOf (a % 64) l.length
  let full := l.length == 64
  let r := if full then (m, false, false) else eccRead m 1 w gs
  let p := if full then poison else poison || !(setHas m.sideClean w) || r.2.1
  let m := eccClear r.1 1 w gs
  { m with side := memWrite m.side a l, sideClean := if p then setDel m.sideClean w else setAdd m.sideClean w }

/-- Change a cluster's memories. -/
def modMem (s : State) (lc : Nat) (f : ClMem → ClMem) : State := modCluster s lc (fun c => { c with mem := f c.mem })

/-- Does scratchpad address a lie in one of the two save areas (R91)? -/
def inSaveArea (saveBase a : Nat) : Bool := decide (saveBase * 4096 ≤ a) && decide (a < saveBase * 4096 + 0x44000)

/-- An inbound write lands in a region (R143): its inbound bit is set; with the own bit set the log receives a PROGRAM_DEFECT. -/
def noteInbound (s : State) (lc a : Nat) : State :=
  let c := cluster s lc
  if inSaveArea c.opx.saveBase a then s
  else
    let r := a / 1024
    let s := modCluster s lc (fun c => { c with log := { c.log with inbound := setAdd c.log.inbound r } })
    if setHas c.log.own r then logDefect s lc [(lc, 8), (r, 12)] else s

/-- Which memory a window offset names (Table 1-5): memory and byte offset within it. -/
def windowMem (off : Nat) : Option (Nat × Nat) :=
  if off < 0x400000 then some (0, off)
  else if 0x800000 ≤ off ∧ off < 0x840000 then some (1, off - 0x800000)
  else if 0xC00000 ≤ off ∧ off < 0xC80000 then some (2, off - 0xC00000)
  else none

/-- Bank of a byte offset of a cluster memory (Table 9-1). -/
def bankOf (mem a : Nat) : Nat := a / 64 % bankCount mem

/-- Count a denied window access (R241). -/
def denyWindow (s : State) (lc : Nat) : State := modMem s lc (fun m => { m with denied := satAdd 16 m.denied 1 })

/-- The cluster stops for an uncorrectable error in its sequencer memory (R234). A detected fault is reported in the fault log (R355); the code
is MEMORY_UE (log 13). -/
def stopCluster (s : State) (lc : Nat) (why : StopCause) : State :=
  if (cluster s lc).seq.stop.isSome then s
  else
    let n := ((cluster s lc).log.reports.filter (fun r => r.1 == 4)).length
    let s := logEvent s 0x0031 1 0 lc (repeatLink (cluster s lc) n) (packFields [(lc, 8)])
    modCluster s lc (fun c =>
      { c with seq := { c.seq with stop := some why, stopAt := s.clk.aon }
               log := { c.log with faultIdx := lastEntry s, reports := c.log.reports ++ [(4, n)] } })

/-- Has the recovery of a stopped cluster this bank at MARCH, which holds every window access to it (R241)? -/
def heldBank (c : Cluster) (mem bank : Nat) : Bool := tablet c.mem mem bank == 1 && c.seq.stop.isSome

/-- Is a window access to this bank refused (R241)? -/
def windowDenied (c : Cluster) (mem bank : Nat) : Bool := tablet c.mem mem bank ≠ 0 && !(heldBank c mem bank)

/-- Does a device address lie in a bank that holds window accesses? -/
def heldAddr (s : State) (a : Nat) : Bool :=
  match locate a with
  | .window lc off =>
    (match windowMem off with
     | some (mem, x) => (lcEntry s lc).mapped && heldBank (cluster s lc) mem (bankOf mem x)
     | none => false)
  | _ => false

/-- Does a range touch such a bank? -/
def heldRange (s : State) (a n : Nat) : Bool := (unitsOf 64 a n).any (fun u => heldAddr s (64 * u))

/-- A window read of n bytes inside one word (R27, R33, R241). -/
def winRead (s : State) (lc off n : Nat) : RdRes × State :=
  if !(lcEntry s lc).mapped then (⟨zeros n, true⟩, s)
  else match windowMem off with
    | none => (⟨zeros n, true⟩, s)
    | some (mem, a) =>
      let m := (cluster s lc).mem
      if windowDenied (cluster s lc) mem (bankOf mem a) then (⟨zeros n, false⟩, denyWindow s lc)
      else if mem = 0 then
        let r := spReadWord m (a / 64)
        (⟨memRead m.sp a n, r.1.poison⟩, modMem s lc (fun _ => r.2))
      else if mem = 1 then
        let r := sideReadWord m (a / 64)
        (⟨memRead m.side a n, r.1⟩, modMem s lc (fun _ => r.2))
      else if 0x60000 ≤ a then (⟨zeros n, false⟩, s)
      else
        let r := eccRead m 2 (a / 64) allGran
        let s := modMem s lc (fun _ => r.1)
        (⟨memRead m.seqm a n, false⟩, if r.2.1 && (cluster s lc).inConsist then stopCluster s lc .seqMemory else s)

/-- A window write inside one word (R27, R33, R117, R201, R235, R241). -/
def winWrite (s : State) (lc off : Nat) (l : List Byte) (poison : Bool) (tag : Nat) : State :=
  if !(lcEntry s lc).mapped then s
  else match windowMem off with
    | none => s
    | some (mem, a) =>
      if windowDenied (cluster s lc) mem (bankOf mem a) then denyWindow s lc
      else if mem = 0 then noteInbound (modMem s lc (fun m => spWriteUnit m a l poison tag)) lc a
      else if mem = 1 then
        (if s.op = .running ∨ s.op = .paused then s else modMem s lc (fun m => sideWriteUnit m a l poison))
      else if 0x60000 ≤ a ∨ s.op = .loaded ∨ s.op = .running ∨ s.op = .paused then s
      else modMem s lc (fun m =>
        let gs := granOf (a % 64) l.length
        let m := if l.length = 64 then m else (eccRead m 2 (a / 64) gs).1
        { eccClear m 2 (a / 64) gs with seqm := memWrite m.seqm a l })

/-! Device accesses -/

/-- Is a word of a cluster memory uncorrectable at a read? -/
def wordUe (m : ClMem) (mem w : Nat) : Bool := allGran.any (fun g => decide (2 ≤ spGet 0 (eccTab m mem) (4 * w + g)))

/-- Does a read of scratchpad word w deliver poison (R234)? -/
def spPoison (m : ClMem) (w : Nat) : Bool := (spGet WordMeta.clear m.wmeta w).poison || wordUe m 0 w

/-- Does word w fail a tag check against `tag` (R134)? No check is made when granule 0 is uncorrectable (R234). -/
def spTagBad (m : ClMem) (w tag : Nat) : Bool :=
  decide (spGet 0 m.spEcc (4 * w) < 2) && (spGet WordMeta.clear m.wmeta w).tag != tag

/-- Check the code of the scratchpad words read in one cycle (R234): of several uncorrectable ones SP_ECC keeps the lowest bank, then the lowest
word. -/
def spTouch (m : ClMem) (ws : List Nat) : ClMem :=
  let t := setAddAll [] ws
  let place (w : Nat) : Nat × Nat := (w % bankCount 0, w / bankCount 0)
  let low := (t.filter (wordUe m 0)).foldl (fun (b : Option (Nat × Nat)) w =>
    match b with
    | none => some (place w)
    | some x => some (if (place w).1 < x.1 ∨ (place w).1 = x.1 ∧ (place w).2 < x.2 then place w else x)) none
  let m := t.foldl (fun m w => (eccRead m 0 w allGran).1) m
  match low with
  | none => m
  | some x => { m with ue := some (0, x.1, x.2) }

/-- Check the code of scratchpad words, cycle by cycle: a word read in several cycles counts in each, the latest uncorrectable one stays in
SP_ECC (R234). -/
def spTouchAll (m : ClMem) (cycles : List (List Nat)) : ClMem := cycles.foldl spTouch m

/-- Granules of a word whose stored error is of one bit. -/
def correctable (t : Sparse EccKind) (word : Nat) : List Nat := allGran.filter (fun g => spGet 0 t (4 * word + g) == 1)

/-- Does hub SRAM hold a clean second copy of a word (R361, R392)? It holds two of the fault log and of each job table; where the second copy of a job
table lies is not stated, and it is taken as clean (DESIGN CHOICE, log 9). -/
def hubCopied (s : State) (w : Nat) : Bool :=
  if 32768 ≤ w then
    let o := if w < 49152 then w + 16384 else w - 16384
    allGran.all (fun g => decide (spGet 0 s.hub.err (4 * o + g) < 2))
  else s.fab.jobs.any (fun e => e.2.valid &&
    (decide (e.2.mtab ≤ w ∧ w ≤ e.2.mtab + e.2.pm1 / 8) || (e.2.gm1 ≠ 0 && decide (e.2.xtab ≤ w ∧ w ≤ e.2.xtab + e.2.gm1 / 4))))

/-- A read of a word of hub SRAM checks its four codes (R233, R234): a corrected word awaits write-back; an uncorrectable one is repaired from the
other copy where there is one (R392), and stays for the stationmaster's restart elsewhere (log 9). -/
def hubTouch (s : State) (w : Nat) : State :=
  let h := s.hub
  let ue := allGran.any (fun g => decide (2 ≤ spGet 0 h.err (4 * w + g)))
  let ce := !(correctable h.err w).isEmpty
  let h := if ce then { h with wb := setAdd h.wb w } else h
  { s with hub := if ue && hubCopied s w then h.rewrite w else h }

/-- A list cut into pieces of k, the last one shorter. -/
def chunks {α : Type} (k : Nat) (l : List α) : List (List α) :=
  (List.range ((l.length + k - 1) / k)).map (fun i => (l.drop (k * i)).take k)

/-- A read inside one 64-byte unit at a device address. -/
def unitRead (s : State) (a n : Nat) : RdRes × State :=
  match locate a with
  | .dram stk loc =>
    let s := dramTouch s stk loc false
    (⟨memRead s.dram.bytes (dramKey stk loc) n, dramPoisoned s stk loc⟩, s)
  | .window lc off => winRead s lc off n
  | .comp pa =>
    (⟨memRead s.comp.bytes pa n, setHas s.comp.poison (pa / 64) || setHas s.comp.lost (pa / 64)⟩,
      { s with comp := { s.comp with lost := setDel s.comp.lost (pa / 64) } })
  | _ => (⟨zeros n, true⟩, s)

/-- A write inside one 64-byte unit at a device address; `tag` is the tag that a write into a scratchpad carries. -/
def unitWrite (s : State) (a : Nat) (l : List Byte) (poison : Bool) (tag : Nat) : State :=
  match locate a with
  | .dram stk loc => dramWriteUnit s stk loc l poison
  | .window lc off => winWrite s lc off l poison tag
  | .comp pa => { s with comp := compWrite s.comp pa l poison }
  | _ => s

/-- Read pieces in order; the poison of each 64-byte unit is kept. -/
def devReadPieces : List (Nat × Nat) → State → List RdRes × State
  | [], s => ([], s)
  | p :: r, s =>
    let x := unitRead s p.1 p.2
    let y := devReadPieces r x.2
    (x.1 :: y.1, y.2)

/-- Read n bytes at a device address: the bytes, and whether any unit is poisoned. -/
def devRead (s : State) (a n : Nat) : RdRes × State :=
  let r := devReadPieces (pieces a n) s
  (⟨r.1.flatMap (fun x => x.data), r.1.any (fun x => x.poison)⟩, r.2)

/-- Write pieces in order, taking their bytes from the front of the list. -/
def devWritePieces (poison : Bool) (tag : Nat) : List (Nat × Nat) → List Byte → State → State
  | [], _, s => s
  | p :: r, l, s => devWritePieces poison tag r (l.drop p.2) (unitWrite s p.1 (l.take p.2) poison tag)

/-- Write bytes at a device address. -/
def devWrite (s : State) (a : Nat) (l : List Byte) (poison : Bool) (tag : Nat) : State :=
  devWritePieces poison tag (pieces a l.length) l s

/-- Does one of the tenant's bound windows contain lo … hi wholly and grant the kind (R259)? -/
def boundOk (s : State) (lo hi : Nat) (write : Bool) : Bool :=
  s.win.any (fun e =>
    e.2.v && (if write then e.2.w else e.2.r) && decide (e.2.base * 4096 ≤ lo) && decide (hi < (e.2.limit + 1) * 4096))

/-- Does a 4 KiB granule range lie wholly outside holes and hub registers (R23)? The range is base … limit in granules. -/
def rangeMapped (base limit : Nat) : Bool :=
  let lo := base * 4096
  let hi := limit * 4096 + 4095
  let inR (x y : Nat) : Bool := decide (x ≤ lo) && decide (hi ≤ y)
  inR 0 0x017FFFFFFFFF || inR 0x040000000000 0x045FFFFFFFFF || inR 0x048000000000 0x04DFFFFFFFFF ||
  inR 0x050000000000 0x055FFFFFFFFF || inR 0x058000000000 0x05DFFFFFFFFF || inR 0x800000000000 0xFFFFFFFFFFFF ||
  (inR 0x700000000000 0x7000FFFFFFFF && lo / 0x1000000 == hi / 0x1000000 && (windowMem (lo % 0x1000000)).isSome &&
    (windowMem (lo % 0x1000000)).map (fun x => x.1) == (windowMem (hi % 0x1000000)).map (fun x => x.1))

end Sys2Proof.Machine
end

