-- ==== Sys2Proof/Machine/Timetable.lean ====
section
/-! DEFINITION. Timetables (R419 to R425): budgets, credits, charges, periods. -/

namespace Sys2Proof.Machine

/-- Capacity per period of a kind, in units (Table 15-4). -/
def ttCapacity (k : Nat) : Nat :=
  match k with
  | 0 => 256000
  | 1 => 128000
  | 2 => 8192
  | 3 => 262144
  | 4 => 256
  | _ => 4096

/-- Instances of a kind (Table 15-4). -/
def ttInstances (k : Nat) : Nat :=
  match k with
  | 0 => 12
  | 1 => 20
  | 2 => 8
  | 3 => 256
  | 4 => 16
  | _ => 1

/-- Default budget of an activity in tenths of a percent (Table 15-6); none where the activity never charges the kind. -/
def ttPermille (k a : Nat) : Option Nat :=
  match k, a with
  | 0, 0 => some 859 | 0, 1 => some 20 | 0, 2 => some 10 | 0, 3 => some 50 | 0, 4 => some 40 | 0, 5 => some 1 | 0, 7 => some 10
  | 0, 8 => some 10
  | 1, 0 => some 900 | 1, 1 => some 10 | 1, 2 => some 10 | 1, 3 => some 30 | 1, 4 => some 30 | 1, 7 => some 10 | 1, 8 => some 10
  | 2, 3 => some 900 | 2, 4 => some 90 | 2, 7 => some 10
  | 3, 0 => some 900 | 3, 7 => some 50 | 3, 8 => some 50
  | 4, 4 => some 950 | 4, 5 => some 40 | 4, 7 => some 10
  | 5, 7 => some 250 | 5, 8 => some 750
  | _, _ => none

/-- Guaranteed minimum in tenths of a percent (Table 15-6). -/
def ttMinPermille (k a : Nat) : Nat :=
  match k, a with
  | 0, 0 => 500 | 0, 2 => 1 | 0, 7 => 5 | 0, 8 => 1
  | 1, 0 => 500 | 1, 2 => 1 | 1, 7 => 5 | 1, 8 => 1
  | 2, 7 => 5
  | 3, 0 => 500 | 3, 7 => 10 | 3, 8 => 10
  | 4, 7 => 5
  | 5, 7 => 100 | 5, 8 => 500
  | _, _ => 0

/-- ⌊percentage × capacity × 256 / 100⌋ (R422). -/
def ttValue (k permille : Nat) : Nat := permille * ttCapacity k * 256 / 1000

/-- MIN in 1/256 unit; PATROL's minimums are exact (R422). -/
def ttMin (k a : Nat) : Nat := if a = 5 then (if k = 0 then 66 else if k = 4 then 8 else 0) else ttValue k (ttMinPermille k a)

/-- BUDGET of an activity as set. -/
def ttBudget (s : State) (k a : Nat) : Nat :=
  match s.tt.budgets.find? (fun e => e.1 == 16 * k + a) with
  | some e => e.2
  | none => (ttPermille k a).elim 0 (ttValue k)

/-- The budget that an instance applies: the store halves its CKPT budget while the NAND is hot (Table 15-8), and during SCRUBBING the SM activity
of a stack receives its TRV budget too (R451). -/
def ttApplied (s : State) (k a : Nat) : Nat :=
  if k = 4 ∧ a = 4 ∧ s.tt.nandHalf then ttBudget s k a / 2
  else if k = 0 ∧ a = 7 ∧ s.op = .scrubbing then ttBudget s 0 7 + ttBudget s 0 0
  else ttBudget s k a

/-- Key of a cell. -/
def ttKey (k i a : Nat) : Nat := (k * 256 + i) * 16 + a

/-- The cell of an activity of an instance; an unlisted one holds its reset value (Table 15-7a). -/
def ttCell (s : State) (k i a : Nat) : TtCell :=
  match s.tt.cells.find? (fun e => e.1 == ttKey k i a) with
  | some e => e.2
  | none =>
    let b := (ttPermille k a).elim 0 (ttValue k)
    ⟨b, b, 0, 0, false⟩

/-- Replace a cell. -/
def setTtCell (s : State) (k i a : Nat) (c : TtCell) : State :=
  { s with tt := { s.tt with cells := spPut s.tt.cells (ttKey k i a) c } }

/-- Charge `u` units (R421): credit falls by 256 u and may become negative, SERVED grows. An activity with a dash in Table 15-6 never charges the
kind (R422). -/
def ttCharge (s : State) (k i a u : Nat) : State :=
  if u = 0 ∨ (ttPermille k a).isNone then s
  else
    let c := ttCell s k i a
    setTtCell s k i a { c with credit := c.credit - 256 * (u : Int), served := (c.served + u) % 2 ^ 48 }

/-- Has the activity credit at the instance, or does it never charge the kind? -/
def ttAdmits (s : State) (k i a : Nat) : Bool := (ttPermille k a).isNone || decide (0 < (ttCell s k i a).credit)

/-- A request waits for the next period. -/
def ttWait (s : State) (k i a : Nat) : State := setTtCell s k i a { ttCell s k i a with waited := true }

/-- The start of a period for one activity (R421, R424): a new budget applies, credit is refilled to at most one period's budget. -/
def ttRefill (s : State) (k i a : Nat) : State :=
  let c := ttCell s k i a
  let b := ttApplied s k a
  setTtCell s k i a { c with
    budget := b, credit := min (c.credit + b) b, waitN := if c.waited then satAdd 16 c.waitN 1 else c.waitN, waited := false }

/-- The bridge between two sections, or between a section and the hub (4) (Table 15-4). -/
def bridgeOf (a b : Nat) : Nat :=
  let x := min a b
  let y := max a b
  if y = 4 then 6 + x
  else match x, y with
    | 0, 1 => 0
    | 0, 2 => 1
    | 0, 3 => 2
    | 1, 2 => 3
    | 1, 3 => 4
    | _, _ => 5

/-- The direction of the bridge that data takes from one place to another, as an instance of kind 1. -/
def bridgeCell (src dst : Nat) : List (Nat × Nat) := if src = dst then [] else [(1, 2 * bridgeOf src dst + b2n (dst < src))]

/-- The instances (kind, index) that an access of an agent in a section (4 is the hub) at a device address draws on (R419, Table 15-4). -/
def devCells (sec a : Nat) (write : Bool) : List (Nat × Nat) :=
  let go (dst : Nat) : List (Nat × Nat) := if write then bridgeCell sec dst else bridgeCell dst sec
  match locate a with
  | .dram stk _ => (0, stk) :: go (stk / 3)
  | .window lc _ => (3, lc) :: go (secOf lc)
  | .comp _ => go 4
  | _ => []

/-- Charge instances `u` units each. -/
def chargeCells (s : State) (act : Nat) (l : List (Nat × Nat)) (u : Nat) : State := l.foldl (fun s k => ttCharge s k.1 k.2 act u) s

/-- Charge a device access of one activity that is no traverse (R419, R420) its 64-byte units, each 4 KiB of it where it lies. -/
def chargeDev (s : State) (sec act a n : Nat) (write : Bool) : State :=
  (unitsOf 4096 a n).foldl (fun s b =>
    let lo := max a (4096 * b)
    chargeCells s act (devCells sec lo write) (unitsOf 64 lo (min (a + n) (4096 * b + 4096) - lo)).length) s

/-- The activity of a waiting request (Table 15-5): a window access with a traverse's tag is the traverse's, every other one the companion's. -/
def TtReq.act : TtReq → Nat
  | .window _ _ tag _ => if tag.isSome then 0 else 8
  | _ => 8

/-- The section of a hub register: of a cluster's, a stack's or a port's; 4 is the hub. -/
def regPlace (o : Nat) : Nat :=
  if 0x200000 ≤ o ∧ o < 0x400000 ∨ 0x600000 ≤ o ∧ o < 0x700000 then o % 0x100000 / 0x1000 % 4
  else if 0x800000 ≤ o ∧ o < 0x900000 then o % 0x100000 / 0x4000 % 4
  else if 0x900000 ≤ o ∧ o < 0xA00000 then o % 0x100000 / 0x60 % 4
  else if 0xA00000 ≤ o ∧ o < 0xB00000 then o % 0x100000 / 0x200 % 4
  else 4

/-- The instances that a waiting request draws on. A window access draws on the scratchpad's background only, its other instances belong to the
agent that makes it; a register crosses the bridge from its section (DESIGN CHOICE, log 45). -/
def TtReq.cells : TtReq → List (Nat × Nat)
  | .host a acc => devCells 4 a acc.data.isSome
  | .view off _ => bridgeCell (regPlace off) 4
  | .window lc _ _ _ => [(3, lc)]
  | .debug a _ => devCells 4 a false

/-- Is a request of an activity that draws on some instances admitted now (R421)? It has credit at each of them and no request of its activity
waits there before it. -/
def admits (s : State) (act : Nat) (l : List (Nat × Nat)) : Bool :=
  l.all (fun k => ttAdmits s k.1 k.2 act && !(s.tt.waiting.any (fun r => r.act == act && r.cells.contains k)))

/-- A request waits at the instances that do not admit it. -/
def waitCells (s : State) (act : Nat) (l : List (Nat × Nat)) : State :=
  l.foldl (fun s k => if admits s act [k] then s else ttWait s k.1 k.2 act) s

/-- Run what an activity asks of some instances when they admit it (R421); until then it waits, and the command that asks stays where it is. -/
def gate (s : State) (act : Nat) (l : List (Nat × Nat)) (r : Res) : Res := if admits s act l then r else .next (waitCells s act l)

/-- The counter of an instance's clock (Table 15-4). -/
def ttClock (s : State) (k i : Nat) : Nat :=
  match k with
  | 0 => s.clk.mem
  | 1 => s.clk.hub
  | 2 => s.clk.fabQ / 4
  | 3 => match secOf i with
    | 0 => s.clk.arith0
    | 1 => s.clk.arith1
    | 2 => s.clk.arith2
    | _ => s.clk.arith3
  | 4 => s.clk.nand
  | _ => s.clk.hub

/-- The number of an instance's period, counter[63:12] (R419). -/
def ttPeriod (s : State) (k i : Nat) : Nat := ttClock s k i / 4096

end Sys2Proof.Machine
end

