-- ==== Sys2Proof/Machine/Frames.lean ====
section
/-! DEFINITION. Stenis frames (R286 to R292, R319 to R321): headers, sequence spaces, encryption, sending, acknowledging, absent peers. -/

namespace Sys2Proof.Machine

/-- Port p. -/
def portOf (s : State) (p : Nat) : Port := spGet .reset s.fab.ports p

/-- Change a port. -/
def modPort (s : State) (p : Nat) (f : Port → Port) : State := { s with fab := { s.fab with ports := spMod .reset s.fab.ports p f } }

/-- Job-table entry j. -/
def jobOf (s : State) (j : Nat) : Job := spGet .reset s.fab.jobs j

/-- Change a job-table entry. -/
def modJob (s : State) (j : Nat) (f : Job → Job) : State := { s with fab := { s.fab with jobs := spMod .reset s.fab.jobs j f } }

/-- Ring-table entry of a job at a position. -/
def ringEnt (s : State) (j pos : Nat) : RingEnt := spGet .reset s.fab.ring (j * 512 + pos)

/-- Change a ring-table entry. -/
def modRingEnt (s : State) (j pos : Nat) (f : RingEnt → RingEnt) : State :=
  { s with fab := { s.fab with ring := spMod .reset s.fab.ring (j * 512 + pos) f } }

/-- Cross-table entry of a job for a ring group. -/
def crossEnt (s : State) (j g : Nat) : CrossEnt := spGet .reset s.fab.cross (j * 64 + g)

/-- Change a cross-table entry. -/
def modCrossEnt (s : State) (j g : Nat) (f : CrossEnt → CrossEnt) : State :=
  { s with fab := { s.fab with cross := spMod .reset s.fab.cross (j * 64 + g) f } }

/-- The VALID job slot of a job identifier. -/
def jobSlot (s : State) (job : Nat) : Option Nat := (s.fab.jobs.find? (fun e => e.2.valid && e.2.job == job)).map (fun e => e.1)

/-- Members per ring group. -/
def Job.p (j : Job) : Nat := j.pm1 + 1

/-- Ring groups. -/
def Job.g (j : Job) : Nat := j.gm1 + 1

/-- This module's index (R293). -/
def Job.midx (j : Job) : Nat := j.gidx * j.p + j.pos

/-- Members of a job. -/
def members (j : Job) : List Nat := List.range (j.p * j.g)

/-- Is a member removed from the job (R375)? -/
def memberRemoved (s : State) (jslot midx : Nat) : Bool := setHas (jobOf s jslot).removed midx

/-- Positions from POS down to the position of a member, modulo P. -/
def Job.below (j : Job) (midx : Nat) : Nat := (j.pos + j.p - midx % j.p) % j.p

/-! Headers -/

/-- Fields of a Stenis header (Table 11-1). -/
structure Hdr where
  ver : Nat
  type : Nat
  enc : Bool
  stage : Nat
  job : Nat
  flow : Nat
  src : Nat
  dst : Nat
  hops : Nat
  seq : Nat
  round : Nat
  chunk : Nat
  contrib : Nat
  piece : Nat
  len : Nat
  cfgchk : Nat
  deriving DecidableEq, Repr

/-- The 256 bits of a header. -/
def Hdr.bits (h : Hdr) : BitVec 256 :=
  BitVec.ofNat 256 (packFields [(h.ver, 4), (h.type, 4), (b2n h.enc, 1), (h.stage, 2), (0, 5), (h.job, 16), (h.flow, 15), (0, 1),
    (h.src, 16), (h.dst, 16), (h.hops, 16), (h.seq, 32), (h.round, 32), (h.chunk, 24), (h.contrib, 16), (h.piece, 12), (0, 4),
    (h.len, 14), (0, 2), (h.cfgchk, 16), (0, 8)])

/-- The header of a frame; reserved bits are ignored (R289). -/
def hdrOf (f : Frame) : Hdr :=
  let b := f.hdr.toNat
  ⟨natBits b 0 4, natBits b 4 4, natBits b 8 1 == 1, natBits b 9 2, natBits b 16 16, natBits b 32 15, natBits b 48 16, natBits b 64 16,
    natBits b 80 16, natBits b 96 32, natBits b 128 32, natBits b 160 24, natBits b 184 16, natBits b 200 12, natBits b 216 14,
    natBits b 232 16⟩

/-- Frame types of Table 11-2. -/
def tDATA : Nat := 1
def tACK : Nat := 2
def tREADY : Nat := 3
def tDECISION : Nat := 4
def tDECREQ : Nat := 5
def tOOS : Nat := 6
def tWAKE : Nat := 7
def tBUDDY : Nat := 8

/-- The bytes of a header. -/
def hdrBytes (h : BitVec 256) : List Byte := leBytes 32 h.toNat

/-- The Stenis CRC-32C (R290). -/
def stenisCrc (h : BitVec 256) (payload gcm : List Byte) : BitVec 32 := BitVec.ofNat 32 (crc32c (hdrBytes h ++ payload ++ gcm))

/-- The frame key of a job (R319): HKDF-SHA-512 of the slot key, with "STENIS" and the job identifier. -/
def frameKey (s : State) (j : Job) : Option (BitVec 256) :=
  (s.su.fkeys.find? (fun e => e.1 == j.fkey)).map (fun e => hkdf512 (List.replicate 64 0) (leBytes 32 e.2.toNat) ([0x53, 0x54, 0x45, 0x4E, 0x49, 0x53] ++ leBytes 2 j.job))

/-- The nonce of a frame (R320); `ctl` says that its SEQ, or the one it acknowledges, is of a control space. -/
def nonce (h : Hdr) (ctl : Bool) (port : Nat) (status : Nat) : BitVec 96 :=
  BitVec.ofNat 96 (packFields [(h.seq, 32), (h.dst, 16), (h.src, 16), (h.flow, 15), (b2n ctl, 1), (port, 3), (b2n (h.type == tACK), 1),
    (status, 2), (0, 10)])

/-- Seal a payload under a job's frame key; a job without its key cannot seal and sends nothing. -/
def sealPayload (s : State) (j : Job) (h : Hdr) (ctl : Bool) (port status : Nat) (payload : List Byte) : Option (List Byte × List Byte) :=
  if j.enc then
    (frameKey s j).map (fun k =>
      let r := gcmSeal k (nonce h ctl port status) (hdrBytes h.bits) payload
      (r.1, leBytes 16 r.2.toNat))
  else some (payload, [])

/-- 64-byte units of line time of a frame, preamble and inter-frame gap included (R288, Table 15-4). -/
def lineUnits (f : Frame) : Nat := ceilDiv (74 + 4 * f.tags.length + f.payload.length + f.gcm.length) 64

/-- The activity that a frame belongs to (Table 15-5). -/
def frameAct (f : Frame) : Nat :=
  let t := (hdrOf f).type
  if t = tBUDDY then 4 else if t = tOOS ∨ t = tWAKE then 7 else 3

/-- Does a port send frames? Nothing leaves while EN = 0, while it is fenced (R360), or while its link is not trained. -/
def portSends (s : State) (p : Nat) : Bool :=
  let q := portOf s p
  q.en && q.linkUp && !q.fenced && s.boot.phase != .safe

/-- Put a frame on the wire of a port that sends (R286, R288), charged against the port (R420). One over budget, or behind another of its activity,
waits for the next period (R421). -/
def putFrame (s : State) (p : Nat) (f : Frame) : State :=
  if !(portSends s p) then s
  else if ttAdmits s 2 p (frameAct f) && !((portOf s p).waiting.any (fun g => frameAct g == frameAct f)) then
    let s := ttCharge s 2 p (frameAct f) (lineUnits f)
    modPort { s with fab := { s.fab with tx := s.fab.tx ++ [(p, f)] } } p (fun q => { q with txN := satAdd 32 q.txN 1 })
  else modPort (ttWait s 2 p (frameAct f)) p (fun q => { q with waiting := q.waiting ++ [f] })

/-- Send the frames that wait at a port, in order, as far as its budgets admit them. -/
def flushPort (s : State) (p : Nat) : State :=
  (portOf s p).waiting.foldl (fun s f => putFrame s p f) (modPort s p (fun q => { q with waiting := [] }))

/-- The 802.1Q tag that a port puts into a frame (R286): PCP in bits [15:13], VID in [11:0]. -/
def portTags (q : Port) : List (BitVec 16) := if q.vlanEn then [BitVec.ofNat 16 (q.pcp % 8 * 8192 + q.vid % 4096)] else []

/-- Build a frame to a MAC address. -/
def mkFrame (s : State) (p mac : Nat) (h : Hdr) (payload gcm : List Byte) : Frame :=
  let q := portOf s p
  { dst := BitVec.ofNat 48 mac, src := BitVec.ofNat 48 (q.mac + p), tags := portTags q, flow := false, etype := BitVec.ofNat 16 q.etype,
    hdr := h.bits, payload := payload, gcm := gcm, crc := stenisCrc h.bits payload gcm, fcsOk := true }

/-- Key of a sequence space (R291) of a peer: a flow context's by port and index, a job's one control space by job slot, whatever the port. -/
def spaceKey (p : Nat) (ctl : Bool) (ix peer : Nat) : Nat := (((if ctl then 0 else p) * 2 + b2n ctl) * 32768 + ix) * 65536 + peer

/-- The next SEQ of a space, if it has one left (R321). -/
def nextSeq (s : State) (k : Nat) : Option Nat :=
  let v := spGet 0 s.fab.seqTx k
  if v < 2 ^ 32 then some v else none

/-- Take the next SEQ of a space. -/
def bumpSeq (s : State) (k : Nat) : State := { s with fab := { s.fab with seqTx := spSet 0 s.fab.seqTx k (spGet 0 s.fab.seqTx k + 1) } }

/-- The MAC base of a member of a job as the tables name it (R294): own group by the ring table, another group by the cross table; none when
no table names it. -/
def memberMac (s : State) (jslot midx : Nat) : Option Nat :=
  let j := jobOf s jslot
  let g := midx / j.p
  if g = j.gidx then some (ringEnt s jslot (midx % j.p)).mac
  else ((crossEnt s jslot g).macs.find? (fun e => e.1 == j.below midx)).map (fun e => e.2)

/-- Is a member absent, for a time or for good? -/
def memberAbsent (s : State) (jslot midx : Nat) : Bool :=
  let j := jobOf s jslot
  let g := midx / j.p
  memberRemoved s jslot midx ||
  (if g = j.gidx then (ringEnt s jslot (midx % j.p)).absent else setHas (crossEnt s jslot g).absent (j.below midx))

/-- The word of hub SRAM that holds a member's entry of the ring or cross table (R294). -/
def memberWord (j : Job) (midx : Nat) : Nat :=
  if midx / j.p = j.gidx then j.mtab + midx % j.p / 8 else j.xtab + midx / j.p / 4

/-- Send a new frame of a job to a member, in the space of its type, and keep it until it is acknowledged (R291, R292). When the space is
exhausted nothing is sent, the port posts KEY_EXHAUSTED once, and the job's reductions stop (R321). A member whose MAC no table names is reached at a free address. -/
def sendKept (s : State) (p jslot midx : Nat) (type flow round : Nat) (stage chunk piece hops contrib cfgchk : Nat)
    (payload : List Byte) (kept : Option Piece) : State :=
  let j := jobOf s jslot
  let ctl := type ≠ tDATA
  let k := spaceKey p ctl (if ctl then jslot else flow) midx
  match nextSeq s k with
  | none => if j.stopped then s else
      logEvent (modJob s jslot (fun j => { j with stopped := true })) 0x0024 7 3 p noLink (packFields [(j.job, 16)])
  | some seq =>
    let s := hubTouch s (memberWord j midx)
    let d := match memberMac s jslot midx with
      | some m => (m, s)
      | none => drawFree 0 (2 ^ 48 - 1) s
    let s := d.2
    let h : Hdr :=
      { ver := 1, type := type, enc := j.enc, stage := stage, job := j.job, flow := flow, src := j.midx, dst := midx, hops := hops, seq := seq,
        round := round, chunk := chunk, contrib := contrib, piece := piece, len := payload.length, cfgchk := cfgchk }
    match sealPayload s j h ctl p 0 payload with
    | none => s
    | some (ct, tag) =>
      let f := mkFrame s p (d.1 + p) h ct tag
      let s := putFrame (bumpSeq s k) p f
      modPort s p (fun q => { q with unacked := q.unacked ++ [⟨f, jslot, midx, false, kept⟩] })

/-- Send a new frame that carries no piece. -/
def sendFrame (s : State) (p jslot midx : Nat) (type flow round : Nat) (stage chunk piece hops contrib cfgchk : Nat)
    (payload : List Byte) : State := sendKept s p jslot midx type flow round stage chunk piece hops contrib cfgchk payload none

/-- Send a control frame through CPORT (R318). -/
def sendControl (s : State) (jslot midx type round : Nat) (payload : List Byte) : State :=
  sendFrame s (jobOf s jslot).cport jslot midx type 0 round 0 0 0 0 0 0 payload

/-- Set or clear ABSENT in a member's table entry. -/
def setAbsent (s : State) (jslot midx : Nat) (b : Bool) : State :=
  let j := jobOf s jslot
  if midx / j.p = j.gidx then modRingEnt s jslot (midx % j.p) (fun r => { r with absent := b })
  else modCrossEnt s jslot (midx / j.p) (fun r =>
    { r with absent := if b then setAdd r.absent (j.below midx) else setDel r.absent (j.below midx) })

/-- Mark a member absent at this module (R292): its table entry, ABSENT_N, MEMBER_ABSENT. -/
def markAbsent (s : State) (p jslot midx : Nat) : State :=
  let j := jobOf s jslot
  let s := modJob (setAbsent s jslot midx true) jslot (fun j => { j with absentN := satAdd 32 j.absentN 1 })
  logEvent s 0x0020 7 3 p noLink (packFields [(j.job, 16), (midx, 16)])

/-- Answer a frame with an ACK (R291): every header field but TYPE and LEN is copied. STALE and BUSY answers that the port sends are counted (R324). -/
def sendAck (s : State) (p : Nat) (f : Frame) (status : Nat) : State :=
  let h := hdrOf f
  let j := match jobSlot s h.job with
    | some k => jobOf s k
    | none => .reset
  let h' : Hdr := { h with type := tACK, len := 8 }
  match sealPayload s j h' (h.type ≠ tDATA) p status (leBytes 8 status) with
  | none => s
  | some (ct, tag) =>
    let s := if portSends s p then modPort s p (fun q =>
      if status = 1 then { q with staleN := satAdd 32 q.staleN 1 } else if status = 2 then { q with busyN := satAdd 32 q.busyN 1 } else q) else s
    putFrame s p { (mkFrame s p 0 h' ct tag) with dst := f.src }

/-! Receiving -/

/-- Does R286 discard the frame as foreign: another EtherType, more than one tag, flow control, or a breach of R289? -/
def foreign (s : State) (p : Nat) (f : Frame) : Bool :=
  let h := hdrOf f
  f.flow || decide (1 < f.tags.length) || f.etype.toNat ≠ (portOf s p).etype || h.ver ≠ 1 || h.type = 0 || decide (8 < h.type) ||
  decide (8552 < h.len)

/-- Is the frame addressed to this port (R288)? -/
def forPort (s : State) (p : Nat) (f : Frame) : Bool :=
  f.dst.toNat == (portOf s p).mac + p || f.dst.toNat == 2 ^ 48 - 1

/-- What the port makes of a received frame before its type is looked at (R286, R290, R319): `none` when it is discarded, with its counter;
otherwise the plaintext payload. -/
def acceptFrame (s : State) (p : Nat) (f : Frame) : Option (List Byte) × State :=
  let h := hdrOf f
  let q := portOf s p
  if !q.linkUp then (none, s)
  else if foreign s p f then (none, modPort s p (fun q => { q with foreignN := satAdd 32 q.foreignN 1 }))
  else if !q.en then (none, s)
  else if !(forPort s p f) then (none, s)
  else if !f.fcsOk || f.crc ≠ stenisCrc f.hdr f.payload f.gcm || f.payload.length ≠ h.len then
    (none, modPort s p (fun q => { q with crcN := satAdd 32 q.crcN 1 }))
  else
    let ok := modPort s p (fun q => { q with rxN := satAdd 32 q.rxN 1 })
    if h.type = tOOS ∨ h.type = tWAKE then (some f.payload, ok)
    else match jobSlot s h.job with
      | none => if h.enc then (none, s) else (some f.payload, ok)
      | some k =>
        let j := jobOf s k
        if h.enc ≠ j.enc then (none, s)
        else if !j.enc then (some f.payload, ok)
        else match frameKey s j with
          | none => (none, modPort s p (fun q => { q with authFail := satAdd 32 q.authFail 1 }))
          | some key =>
            let tagOk (x : Nat × Bool) : Bool :=
              leBytes 16 (gcmTag key (nonce h x.2 p x.1) (hdrBytes f.hdr) f.payload).toNat == f.gcm
            -- the nonce of an ACK holds its status and the kind of its space, which the tag confirms (R320)
            let dflt := (0, !(h.type == tDATA))
            let x := if h.type = tACK then
                ([(0, false), (0, true), (1, false), (1, true), (2, false), (2, true)].find? tagOk).getD dflt else dflt
            if tagOk x then
              (some (gcmPlain key (nonce h x.2 p x.1) f.payload), ok)
            else (none, modPort s p (fun q => { q with authFail := satAdd 32 q.authFail 1 }))

/-- The status under which a SEQ of a space was taken (R291). -/
def takenStatus (s : State) (k seq : Nat) : Option Nat :=
  ((spGet [] s.fab.taken k).find? (fun e => e.1 == seq)).map (fun e => e.2)

/-- Remember that a SEQ was taken. -/
def noteTaken (s : State) (k seq status : Nat) : State :=
  { s with fab := { s.fab with taken := spMod [] s.fab.taken k (fun l => l ++ [(seq, status)]) } }

/-- The receive space of a frame of a job slot. -/
def rxSpace (p jslot : Nat) (h : Hdr) : Nat :=
  spaceKey p (h.type ≠ tDATA) (if h.type = tDATA then h.flow else jslot) h.src

/-- Do frames of these SEQs to a member still wait for an ACK on a port? -/
def framesOpen (s : State) (p jslot midx : Nat) (seqs : List Nat) : Bool :=
  (portOf s p).unacked.any (fun u => u.jslot == jslot && u.midx == midx && (hdrOf u.frame).type == tBUDDY && seqs.contains (hdrOf u.frame).seq)

/-- Does a READ_REQ service read this copy (R403)? -/
def copyServed (s : State) (c : Copy) : Bool :=
  !c.own && s.ckpt.serving.any (fun v => v.peer == c.peer && v.ckpt == c.ckpt && framesOpen s v.port v.jslot v.midx v.seqs)

end Sys2Proof.Machine
end

