-- ==== Sys2Proof/Machine/Layout.lean ====
section
/-! DEFINITION. The layouts of table entries (8-5, 8-8, 8-9, 8-10, 10-3, 11-4 to 11-6) as numbers of their bits, and reading them back. -/

namespace Sys2Proof.Machine

/-- Field [lo + n - 1 : lo] as a Boolean. -/
def flagBit (x lo : Nat) : Bool := natBits x lo 1 == 1

/-! Version table (Table 8-5) -/

/-- The bits of an entry. -/
def vtBits (v : VtEntry) : Nat :=
  packFields [(b2n v.valid, 1), (b2n v.frozen, 1), (v.cur, 2), (v.pend, 2), (b2n v.pendV, 1), (0, 1), (v.slotsM1, 2), (0, 6), (v.hold0, 12),
    (v.hold1, 12), (v.hold2, 12), (v.hold3, 12), (v.base0, 48), (v.base1, 48), (v.base2, 48), (v.base3, 48), (v.size, 40), (v.group, 10),
    (0, 14), (v.ver, 32)]

/-- An entry from its bits. -/
def vtParse (x : Nat) : VtEntry :=
  { valid := flagBit x 0, frozen := flagBit x 1, cur := natBits x 2 2, pend := natBits x 4 2, pendV := flagBit x 6, slotsM1 := natBits x 8 2,
    hold0 := natBits x 16 12, hold1 := natBits x 28 12, hold2 := natBits x 40 12, hold3 := natBits x 52 12, base0 := natBits x 64 48,
    base1 := natBits x 112 48, base2 := natBits x 160 48, base3 := natBits x 208 48, size := natBits x 256 40, group := natBits x 296 10,
    ver := natBits x 320 32 }

/-- The entry that LOAD_CONSIST writes: the configuration fields, CUR and VER of the image (R348). -/
def vtConfig (x : Nat) : VtEntry :=
  { vtParse x with pend := 0, pendV := false, hold0 := 0, hold1 := 0, hold2 := 0, hold3 := 0 }

/-- Bit 0 of the first field of an image's entry that breaks Table 8-5, counting the reserved bits, if some field does. -/
def vtBad (x : Nat) : Option Nat :=
  let v := vtParse x
  if natBits x 7 1 ≠ 0 then some 7
  else if v.valid && v.slotsM1 == 0 then some 8
  else if v.valid && decide (v.slotsM1 < v.cur) then some 2
  else if natBits x 10 6 ≠ 0 then some 10
  else if v.base0 % 4096 ≠ 0 then some 64
  else if v.base1 % 4096 ≠ 0 then some 112
  else if v.base2 % 4096 ≠ 0 ∨ (v.slotsM1 < 2 ∧ v.base2 ≠ 0) then some 160
  else if v.base3 % 4096 ≠ 0 ∨ (v.slotsM1 < 3 ∧ v.base3 ≠ 0) then some 208
  else if v.size % 64 ≠ 0 then some 256
  else if natBits x 306 14 ≠ 0 then some 306
  else if natBits x 352 160 ≠ 0 then some 352
  else none

/-! Commit groups (Table 8-9) -/

/-- The bits of an entry. -/
def groupBits (g : Group) : Nat :=
  packFields [(b2n g.valid, 1), (b2n g.await, 1), (g.last, 2), (0, 4), (g.nclusters, 9), (g.readyN, 9), (b2n g.withheld, 1), (0, 5),
    (g.monmask, 16), (g.cflag, 10), (0, 6), (g.round, 32), (g.nfLimit, 32), (g.nfCount, 32), (g.job, 16), (g.wcause, 8), (0, 8),
    (g.timeout, 32)]

/-- An entry from its bits. -/
def groupParse (x : Nat) : Group :=
  { valid := flagBit x 0, await := flagBit x 1, last := natBits x 2 2, nclusters := natBits x 8 9, readyN := natBits x 17 9,
    withheld := flagBit x 26, monmask := natBits x 32 16, cflag := natBits x 48 10, round := natBits x 64 32, nfLimit := natBits x 96 32,
    nfCount := natBits x 128 32, job := natBits x 160 16, wcause := natBits x 176 8, timeout := natBits x 192 32 }

/-- The entry that LOAD_CONSIST writes: the configuration fields (R224, R348). -/
def groupConfig (x : Nat) : Group :=
  { groupParse x with await := false, last := 0, readyN := 0, withheld := false, round := 0, nfCount := 0, wcause := 0 }

/-- The first field of an image's entry that breaks Table 8-9. -/
def groupBad (x : Nat) : Option Nat :=
  let g := groupParse x
  if natBits x 4 4 ≠ 0 then some 4
  else if g.valid && (g.nclusters == 0 || decide (256 < g.nclusters)) then some 8
  else if natBits x 27 5 ≠ 0 then some 27
  else if natBits x 58 6 ≠ 0 then some 58
  else if natBits x 184 8 ≠ 0 then some 184
  else if natBits x 224 288 ≠ 0 then some 224
  else none

/-! Loss monitors (Table 8-8) -/

/-- The bits of a monitor. -/
def monBits (m : Monitor) : Nat :=
  packFields [(b2n m.enable, 1), (m.wlog, 4), (0, 3), (m.warmup, 24), (m.k.toNat, 32), (m.floor.toNat, 32), (m.mean.toNat, 32),
    (m.var.toNat, 32), (m.sum.toNat, 32), (m.posts, 16), (m.steps, 24), (b2n m.lastSpike, 1), (0, 23), (m.lastLoss.toNat, 32),
    (m.lastZ.toNat, 32)]

/-- A monitor from its bits. -/
def monParse (x : Nat) : Monitor :=
  let f (lo : Nat) : F32 := BitVec.ofNat 32 (natBits x lo 32)
  { enable := flagBit x 0, wlog := natBits x 1 4, warmup := natBits x 8 24, k := f 32, floor := f 64, mean := f 96, var := f 128,
    sum := f 160, posts := natBits x 192 16, steps := natBits x 208 24, lastSpike := flagBit x 232, lastLoss := f 256, lastZ := f 288 }

/-- The monitor that LOAD_CONSIST writes: the configuration fields of the monitor block (R223, R348). -/
def monConfig (x : Nat) : Monitor :=
  { monParse x with mean := 0, var := 0, sum := 0, posts := 0, steps := 0, lastSpike := false, lastLoss := 0, lastZ := 0 }

/-- The state fields of `b` with the configuration of `a` (R223, R387). -/
def monState (a b : Monitor) : Monitor :=
  { a with mean := b.mean, var := b.var, sum := b.sum, posts := b.posts, steps := b.steps, lastSpike := b.lastSpike, lastLoss := b.lastLoss,
           lastZ := b.lastZ }

/-- The first field of the block's entry that breaks Table 8-8. WLOG of a monitor that is not enabled is not examined. -/
def monBad (x : Nat) : Option Nat :=
  let m := monParse x
  if m.enable && m.wlog == 0 then some 1
  else if natBits x 5 3 ≠ 0 then some 5
  else if natBits x 233 23 ≠ 0 then some 233
  else if natBits x 320 192 ≠ 0 then some 320
  else none

/-! Commit records (Table 8-10) -/

/-- The 224 bits that CHECK covers, and CHECK. -/
def recBits (r : CommitRec) : Nat :=
  let x := packFields [(r.round, 32), (r.decision, 2), (0, 6), (r.wcause, 8), (r.leader, 16), (r.job, 16), (r.group, 10), (0, 6),
    (r.step, 32), (0, 96)]
  x + 2 ^ 224 * crc32c (leBytes 28 x)

/-- A record from its bits. -/
def recParse (x : Nat) : CommitRec :=
  ⟨natBits x 0 32, natBits x 32 2, natBits x 40 8, natBits x 48 16, natBits x 64 16, natBits x 80 10, natBits x 96 32⟩

/-! Bound windows and exchange regions (Table 10-3) -/

/-- The bits of a window. -/
def winBits (w : Window) : Nat := packFields [(b2n w.v, 1), (b2n w.r, 1), (b2n w.w, 1), (0, 9), (w.base, 36), (0, 28), (w.limit, 36)]

/-- A window from its bits. -/
def winParse (x : Nat) : Window := ⟨flagBit x 0, flagBit x 1, flagBit x 2, natBits x 12 36, natBits x 76 36⟩

/-- Are the reserved bits of a window 0? -/
def winRsvd (x : Nat) : Bool := natBits x 3 9 == 0 && natBits x 48 28 == 0 && natBits x 112 16 == 0

/-! Jobs (Tables 11-4 and 11-5) -/

/-- The bits of a job entry. -/
def jobBits (j : Job) : Nat :=
  if !j.valid then 0
  else packFields [(b2n j.valid, 1), (b2n j.enc, 1), (0, 6), (j.fkey, 4), (0, 4), (j.job, 16), (j.pm1, 9), (j.pos, 9), (j.gm1, 6),
    (j.gidx, 6), (0, 2), (j.leader, 16), (j.cport, 3), (0, 13), (j.mtab, 15), (0, 1),
    (j.xtab, 15), (0, 1), (j.dlMissed, 32), (j.bumps, 32), (j.absentN, 32)]

/-- A job entry from the configuration fields of its bits; the counters start at 0. -/
def jobConfig (x : Nat) : Job :=
  { valid := true, enc := flagBit x 1, fkey := natBits x 8 4, job := natBits x 16 16, pm1 := natBits x 32 9, pos := natBits x 41 9,
    gm1 := natBits x 50 6, gidx := natBits x 56 6, leader := natBits x 64 16, cport := natBits x 80 3, mtab := natBits x 96 15,
    xtab := natBits x 112 15, dlMissed := 0, bumps := 0, absentN := 0, removed := [], stopped := false }

/-- A ring-table entry from its bits. -/
def ringEntParse (x : Nat) : RingEnt := ⟨natBits x 0 48, flagBit x 48⟩

/-- A cross-table entry from its bits. -/
def crossEntParse (x : Nat) : CrossEnt :=
  ⟨[(0, natBits x 0 48), (1, natBits x 48 48)], (if flagBit x 96 then [0] else []) ++ (if flagBit x 97 then [1] else []), 0, 1⟩

/-! Flow contexts (Table 11-6) -/

/-- The configuration bits of a flow context. -/
def flowBits (f : Flow) : Nat :=
  packFields [(b2n f.valid, 1), (b2n f.fopen, 1), (f.kind, 2), (f.cfmt, 4), (f.sfmt, 4), (f.rfmt, 4), (b2n f.residEn, 1), (0, 1), (f.trig, 10),
    (f.done, 10), (f.trigThresh, 16), (0, 10), (f.jslot, 12), (0, 4), (f.ksel, 9), (0, 1), (f.denseAt, 12), (f.cpiecesM1, 12), (0, 14),
    (f.src, 48), (0, 16), (f.src2, 48), (0, 16), (f.result, 48), (0, 16), (f.hdr, 48), (0, 16), (f.resid, 48), (0, 16), (f.n, 40),
    (f.deadline, 24), (f.round, 32)]

/-- A context from its bits; VALID, OPEN and ROUND are the port's. -/
def flowConfig (x : Nat) : Flow :=
  { valid := true, fopen := false, kind := natBits x 2 2, cfmt := natBits x 4 4, sfmt := natBits x 8 4, rfmt := natBits x 12 4,
    residEn := flagBit x 16, trig := natBits x 18 10, done := natBits x 28 10, trigThresh := natBits x 38 16, jslot := natBits x 64 12,
    ksel := natBits x 80 9, denseAt := natBits x 90 12, cpiecesM1 := natBits x 102 12, src := natBits x 128 48, src2 := natBits x 192 48,
    result := natBits x 256 48, hdr := natBits x 320 48, resid := natBits x 384 48, n := natBits x 448 40, deadline := natBits x 488 24,
    round := 0 }

/-- The reserved fields of a context image: bit and width. -/
def flowRsvd : List (Nat × Nat) :=
  [(17, 1), (54, 10), (76, 4), (89, 1), (114, 14), (176, 16), (240, 16), (304, 16), (368, 16), (432, 16)]

/-- All bits of a context, with its status fields. -/
def flowAllBits (f : Flow) (st : FlowStat) : Nat :=
  flowBits f + 2 ^ 544 * packFields [(st.cfgchk, 16), (0, 16), (st.chDone, 24), (st.lateN, 16), (st.bumpsR, 16), (b2n st.spent, 1), (0, 31),
    (st.spentGen, 32), (st.spentJob, 16)]

end Sys2Proof.Machine
end

