-- ==== Sys2Proof/Machine/StoreOps.lean ====
section
/-! DEFINITION. Blocks, copies and records of the checkpoint store (R395 to R407) and its register values (Table 14-4). -/

namespace Sys2Proof.Machine

/-- Bytes of an erase block (Table 14-1). -/
def eraseBytes : Nat := 6291456

/-- Blocks of record space (Table 14-1). -/
def blockCount (st : Store) : Nat := if st.n24 then 8000000000000 / eraseBytes else 4000000000000 / eraseBytes

/-- Block b. -/
def blockOf (st : Store) (b : Nat) : Block := spGet .fresh st.blocks b

/-- Change a block. -/
def modBlock (st : Store) (b : Nat) (f : Block → Block) : Store := { st with blocks := spMod .fresh st.blocks b f }

/-- Retired blocks (R404, R406). -/
def retiredN (st : Store) : Nat := st.blocks.countP (fun e => e.2.bad)

/-- Blocks in service or retired from it: those of record space, then the spare blocks that retirements have called in (R406). -/
def inService (st : Store) : Nat := blockCount st + min st.spares (retiredN st)

/-- The ages of blocks as a counter that starts anew tells them (R405). -/
def ageBlocks (st : Store) (now : Nat) : Store :=
  st.blocks.foldl (fun t e => modBlock t e.1 (fun k => { k with at_ := k.at_ - now, seen := k.seen - now })) st

/-- The bytes of records that a block holds. -/
def blockUsed (st : Store) (b : Nat) : Nat :=
  st.copies.foldl (fun n c => c.recs.foldl (fun n r => if r.block = b then n + r.bytes.length else n) n) 0

/-- The blocks that hold a record. -/
def holding (st : Store) : NatSet := st.copies.foldl (fun m c => c.recs.foldl (fun m r => setAdd m r.block) m) []

/-- May a block take records: in service, holding none, and owed no erase? -/
def blockFree (st : Store) (b : Nat) : Bool := decide (b < inService st) && !(blockOf st b).bad && !(blockOf st b).due && !(setHas (holding st) b)

/-- The free block with the lowest erase count, the lowest number among equals (R404). A block that the table does not list was never erased. -/
def takeBlock (st : Store) : Option Nat :=
  let fresh := (List.range (st.blocks.length + (holding st).length + 1)).find? (fun b => (blockOf st b).erases == 0 && blockFree st b)
  match fresh with
  | some b => some b
  | none => (st.blocks.filter (fun e => blockFree st e.1)).foldl (fun best e =>
      match best with
      | none => some e.1
      | some b => if e.2.erases < (blockOf st b).erases then some e.1 else some b) none

/-- Is a free block one with the lowest erase count (R404)? -/
def lowestFree (st : Store) (b : Nat) : Bool := blockFree st b && (takeBlock st).any (fun x => (blockOf st x).erases == (blockOf st b).erases)

/-- Erase a block (R404): its count rises; a block that has reached 50,000 erases is retired. -/
def eraseBlock (st : Store) (b : Nat) : Store :=
  let old := (blockOf st b).erases
  let st := modBlock st b (fun k => { k with erases := k.erases + 1, at_ := 0, seen := 0, due := false, bad := k.bad || decide (50000 ≤ old) })
  { st with moving := st.moving.filter (fun e => e.1 != b) }

/-- Drop the copies that satisfy `p`: the blocks that then hold no record are invalid, and their erase is owed (R402, R403). -/
def dropCopies (st : Store) (p : Copy → Bool) : Store :=
  let before := holding st
  let st := { st with copies := st.copies.filter (fun c => !(p c)) }
  let after := holding st
  (before.filter (fun b => !(setHas after b))).foldl (fun st b => modBlock st b (fun k => { k with due := !k.bad })) st

/-- The blocks whose erase is owed and waits for no read (R403, R407). -/
def owedErase (st : Store) : List Nat :=
  let h := holding st
  (st.blocks.filter (fun e => e.2.due && !(setHas h e.1) && !(st.moving.any (fun m => m.1 == e.1)))).map (fun e => e.1)

/-- Total erases of the blocks. -/
def totalErases (st : Store) : Nat := st.blocks.foldl (fun n e => n + e.2.erases) 0

/-- Mean erase count. -/
def meanErases (st : Store) : Nat := totalErases st / blockCount st

/-- Highest erase count of a block in service. -/
def maxErases (st : Store) : Nat := st.blocks.foldl (fun n e => if e.2.bad then n else max n e.2.erases) 0

/-- Spare blocks left: those that retirements have not taken (R406). -/
def sparesLeft (st : Store) : Nat := st.spares - retiredN st

/-- Spare blocks left, in percent of the initial count. -/
def sparePct (st : Store) : Nat := if st.spares = 0 then 0 else sparesLeft st * 100 / st.spares

/-- Post what wear and retirements call for (R404, R406). -/
def storeWear (s : State) : State :=
  let mean := meanErases s.store
  let s :=
    if 50000 < mean ∧ s.store.wearPosted < 100 then
      logEvent { s with store := { s.store with wearPosted := 100 } } 0x0072 7 6 0 noLink (packFields [(mean, 16), (100, 32)])
    else if 40000 < mean ∧ s.store.wearPosted < 80 then
      logEvent { s with store := { s.store with wearPosted := 80 } } 0x0072 7 6 0 noLink (packFields [(mean, 16), (80, 32)])
    else s
  if retiredN s.store ≠ 0 ∧ sparePct s.store < 20 ∧ !s.store.spareLow then
    logEvent { s with store := { s.store with spareLow := true } } 0x0070 7 6 0 noLink (packFields [(sparePct s.store, 8)])
  else s

/-- Bytes that records occupy. -/
def storeUsed (st : Store) : Nat := eraseBytes * (holding st).length

/-- Record space in service, in bytes: retirements beyond the spares take record space (R406). -/
def storeSpace (st : Store) : Nat := eraseBytes * (blockCount st - (retiredN st - st.spares))

/-- Free record space in bytes: neither holding records nor owed an erase. -/
def storeFree (st : Store) : Nat :=
  let h := holding st
  storeSpace st - storeUsed st - eraseBytes * st.blocks.countP (fun e => e.2.due && !e.2.bad && !(setHas h e.1))

/-- Is a copy complete (R402): its END record is durable and every record before it is accepted? A SEAL record (KIND 7) follows END. -/
def copyComplete (c : Copy) : Bool := c.end_ && !c.broken && c.recs.all (fun r => !r.unreadable || natBits (byteField r.bytes 2 1) 0 4 == 7)

/-- This module's newest complete checkpoint. -/
def newestOwn (st : Store) : Option Nat :=
  st.copies.foldl (fun m c => if c.own && copyComplete c then (match m with
    | none => some c.ckpt
    | some n => some (max n c.ckpt)) else m) none

/-- The order in which copies are freed for space (R403), first first. Copies being read stay. -/
def freeOrder (st : Store) (busy : Copy → Bool) : List Copy :=
  let cand := st.copies.filter (fun c => !c.reader && !(busy c))
  let newest (c : Copy) : Bool := !(st.copies.any (fun d => copyComplete d && d.own == c.own && (c.own || d.peer == c.peer) && decide (c.ckpt < d.ckpt)))
  cand.filter (fun c => !(copyComplete c)) ++
    (cand.filter (fun c => copyComplete c && c.own && !(newest c))).mergeSort (fun a b => decide (a.ckpt ≤ b.ckpt)) ++
    (cand.filter (fun c => copyComplete c && !c.own && !(newest c))).mergeSort (fun a b => decide (a.ckpt ≤ b.ckpt))

/-- Carry out the erases that are owed when n bytes do not fit. -/
def reclaim (st : Store) (n : Nat) : Store := if n ≤ storeFree st then st else (owedErase st).foldl eraseBlock st

/-- Free copies in the order of R403 until `n` bytes fit; none when they cannot. `busy` marks copies still being written. -/
def makeSpace (st : Store) (n : Nat) (busy : Copy → Bool) : Option Store :=
  let st := (freeOrder st busy).foldl (fun st c => if n ≤ storeFree st then st else reclaim (dropCopies st (fun d => d == c)) n) (reclaim st n)
  if n ≤ storeFree st then some st else none

/-- Is this the copy of a source and number? -/
def isCopy (own : Bool) (peer ckpt : Nat) (c : Copy) : Bool := c.own == own && (own || c.peer == peer) && c.ckpt == ckpt

/-- Append a record to a copy (R399, R404): into the block of its last record while it fits, else into a free block. -/
def storeRecord (st : Store) (now : Nat) (own : Bool) (peer ckpt : Nat) (bytes : List Byte) (last : Bool) : Option Store :=
  let c := (st.copies.find? (isCopy own peer ckpt)).getD ⟨own, peer, ckpt, [], false, false, false⟩
  let blk := match c.recs.getLast? with
    | some r => if blockUsed st r.block + bytes.length ≤ eraseBytes then some r.block else takeBlock st
    | none => takeBlock st
  match blk with
  | none => none
  | some b =>
    let now : Int := now
    let c' := { c with recs := c.recs ++ [⟨bytes, b, false⟩], end_ := c.end_ || last }
    let copies := if st.copies.any (isCopy own peer ckpt) then st.copies.map (fun d => if isCopy own peer ckpt d then c' else d)
      else st.copies ++ [c']
    some (modBlock { st with copies := copies } b (fun k => { k with at_ := now, seen := now, due := false }))

/-- Copy a block's records, unchanged, into another block and update the map (R405). -/
def moveRecords (st : Store) (now b t : Nat) : Store :=
  let st := { st with copies := st.copies.map (fun c => { c with recs := c.recs.map (fun r => if r.block = b then { r with block := t } else r) }) }
  modBlock st t (fun k => { k with at_ := (now : Int), seen := (now : Int), due := false })

/-! Register values (Table 14-4) -/

/-- CKS_SPACE; 0 until the store is mounted. -/
def cksSpace (s : State) : Nat := if !s.store.ready then 0 else packFields [(storeFree s.store / 1000000000, 32), (storeUsed s.store / 1000000000, 32)]

/-- CKS_WEAR; 0 until the store is mounted. -/
def cksWear (s : State) : Nat :=
  let m := meanErases s.store
  if !s.store.ready then 0 else packFields [(min 65535 (maxErases s.store), 16), (min 65535 m, 16), (min 10000 (m * 10000 / 50000), 16), (min 100 (sparePct s.store), 8)]

/-- CKS_ERR. -/
def cksErr (s : State) : Nat :=
  packFields [(s.store.softN, 16), (s.store.stripeN, 16), (s.store.grownBad, 16), (s.store.unreadN, 16)]

end Sys2Proof.Machine
end

