-- ==== Sys2Proof/Machine/CkptRecords.lean ====
section
/-! DEFINITION. Records of the checkpoint store (R399 to R402): headers, encryption, the judgement of a reader, and the payloads of MANIFEST,
META, END and SEAL, whose inner layout is the model's (log 24). -/

namespace Sys2Proof.Machine

/-- The largest payload of a record (R399). -/
def maxPlen : Nat := 1048496

/-! Record kinds (Table 14-3) -/
def kMANIFEST : Nat := 1
def kMETA : Nat := 2
def kSLOT : Nat := 3
def kRESID : Nat := 4
def kREGION : Nat := 5
def kEND : Nat := 6
def kSEAL : Nat := 7

/-- SRC_ID of this module (Table 14-2). -/
def srcId : Nat := idPrint % 2 ^ 32

/-- A record header (Table 14-2). -/
structure RecHdr where
  kind : Nat
  alive : Nat
  ckpt : Nat
  index : Nat
  src : Nat
  plen : Nat
  step : Nat
  tensor : Nat
  offset : Nat
  ver : Nat
  deriving DecidableEq, Repr

/-- Its 64 bytes, with CHECK over the first 60. -/
def RecHdr.bytes (h : RecHdr) : List Byte :=
  let l := leBytes 60 (packFields [(1, 16), (h.kind, 4), (0, 4), (h.alive, 8), (h.ckpt, 32), (h.index, 32), (h.src, 32), (h.plen, 32),
    (h.step, 32), (h.tensor, 13), (0, 3), (h.offset, 48), (h.ver, 32), (0, 192)])
  l ++ leBytes 4 (crc32c l)

/-- The header at the front of bytes; none when CHECK or FORMAT is wrong or PLEN is too large. -/
def recHdr (l : List Byte) : Option RecHdr :=
  let x := byteField l 0 60
  if l.length < 64 ∨ byteField l 60 4 ≠ crc32c (l.take 60) ∨ natBits x 0 16 ≠ 1 ∨ maxPlen < natBits x 128 32 then none
  else some ⟨natBits x 16 4, natBits x 24 8, natBits x 32 32, natBits x 64 32, natBits x 96 32, natBits x 128 32, natBits x 160 32,
    natBits x 192 13, natBits x 208 48, natBits x 256 32⟩

/-- Bytes of a whole record with PLEN bytes of payload. -/
def recLen (plen : Nat) : Nat := roundUp (64 + plen + 16) 4096

/-- The nonce of a record (R400). -/
def recNonce (h : RecHdr) : BitVec 96 := BitVec.ofNat 96 (packFields [(h.ckpt, 32), (h.index, 32), (h.src, 32)])

/-- A record: header, ciphertext, tag, padding (R399, R400). -/
def mkRecord (key : BitVec 256) (h : RecHdr) (payload : List Byte) : List Byte :=
  let hb := h.bytes
  let c := gcmSeal key (recNonce h) hb payload
  let l := hb ++ c.1 ++ leBytes 16 c.2.toNat
  l ++ List.replicate (recLen h.plen - l.length) 0

/-- The tag of a record. -/
def recTag (h : RecHdr) (l : List Byte) : List Byte := (l.drop (64 + h.plen)).take 16

/-- The payload of a record; none when its tag does not verify. -/
def recOpen (key : BitVec 256) (h : RecHdr) (l : List Byte) : Option (List Byte) :=
  let ct := (l.drop 64).take h.plen
  if leBytes 16 (gcmTag key (recNonce h) (l.take 64) ct).toNat == recTag h l then some (gcmPlain key (recNonce h) ct) else none

/-- How a reader judges a record after one with this ALIVE and INDEX (R401): stale, accepted or lost. -/
inductive Judged where
  | stale | accepted | lost
  deriving DecidableEq, Repr

/-- The table of R401. Record 0 is any ALIVE with INDEX 0. -/
def judgeRec (last : Option (Nat × Nat)) (h : RecHdr) : Judged :=
  match last with
  | none => if h.index = 0 then .accepted else .lost
  | some (a, i) =>
    if h.alive = a ∧ h.index = i then .stale
    else if h.alive = (a + 1) % 256 ∧ h.index = i + 1 then .accepted else .lost

/-- The accepted records of a copy, in storage order: none when one is unreadable or the copy is lost from some record onwards. -/
def acceptRecs : Option (Nat × Nat) → List Rec → Option (List (RecHdr × List Byte))
  | _, [] => some []
  | last, r :: rest =>
    if r.unreadable then none
    else match recHdr r.bytes with
      | none => none
      | some h => match judgeRec last h with
        | .stale => acceptRecs last rest
        | .lost => none
        | .accepted => (acceptRecs (some (h.alive, h.index)) rest).map (fun t => (h, r.bytes) :: t)

/-- What END digests: the headers and tags of the records before it. -/
def endDigest (rs : List (RecHdr × List Byte)) : BitVec 512 := sha512 (rs.flatMap (fun r => r.2.take 64 ++ recTag r.1 r.2))

/-- The payload of END. -/
def endPayload (rs : List (RecHdr × List Byte)) : List Byte := leBytes 4 rs.length ++ leBytes 64 (endDigest rs).toNat

/-- Open every record. -/
def openAll (key : BitVec 256) : List (RecHdr × List Byte) → Option (List (RecHdr × List Byte))
  | [] => some []
  | r :: rest => match recOpen key r.1 r.2 with
    | none => none
    | some p => (openAll key rest).map (fun t => (r.1, p) :: t)

/-- The plaintext records of a readable copy (R402): complete, every tag right, the END digest and count right. -/
def readCopy (key : BitVec 256) (recs : List Rec) : Option (List (RecHdr × List Byte)) :=
  match acceptRecs none recs with
  | none => none
  | some rs =>
    let before := rs.takeWhile (fun r => r.1.kind != kEND)
    match openAll key rs with
    | none => none
    | some ps => match ps.find? (fun p => p.1.kind == kEND) with
      | none => none
      | some e => if e.2 = endPayload before then some ps else none

/-- Cut bytes into pieces of at most n; `f` bounds the recursion. -/
def chunksN : Nat → Nat → List Byte → List (List Byte)
  | 0, _, _ => []
  | f + 1, n, l => if l.isEmpty then [] else l.take n :: chunksN f n (l.drop n)

/-- Cut bytes into pieces of at most n > 0. -/
def chunksOf (n : Nat) (l : List Byte) : List (List Byte) := chunksN (l.length + 1) n l

/-! Payloads -/

/-- Number of pieces of a length. -/
def pieceCount (n : Nat) : Nat := ceilDiv n maxPlen

/-- Slots (tensor, slot, VER, length), residuals and regions (address, length) of a checkpoint. -/
structure Manifest where
  slots : List (Nat × Nat × Nat × Nat)
  resids : List (Nat × Nat)
  regions : List (Nat × Nat)
  deriving DecidableEq, Repr

/-- The MANIFEST payload: record counts per kind, then the lists. -/
def Manifest.bytes (m : Manifest) (metaN : Nat) : List Byte :=
  let sum (l : List Nat) : Nat := l.foldl (· + ·) 0
  let counts := [1, metaN, sum (m.slots.map (fun x => pieceCount x.2.2.2)), sum (m.resids.map (fun x => pieceCount x.2)),
    sum (m.regions.map (fun x => pieceCount x.2)), 1, 0]
  counts.flatMap (leBytes 4) ++ leBytes 4 m.slots.length ++ leBytes 4 m.resids.length ++ leBytes 4 m.regions.length ++
    m.slots.flatMap (fun x => leBytes 16 (packFields [(x.1, 16), (x.2.1, 16), (x.2.2.1, 32), (x.2.2.2, 64)])) ++
    (m.resids ++ m.regions).flatMap (fun x => leBytes 16 (packFields [(x.1, 64), (x.2, 64)]))

/-- `n` entries of `w` bytes from offset `lo`. -/
def entriesAt (l : List Byte) (lo w n : Nat) : List Nat := (List.range n).map (fun i => byteField l (lo + w * i) w)

/-- A MANIFEST from its payload. -/
def manifestParse (l : List Byte) : Manifest :=
  let a := byteField l 28 4
  let b := byteField l 32 4
  let c := byteField l 36 4
  let two (x : Nat) : Nat × Nat := (natBits x 0 64, natBits x 64 64)
  { slots := (entriesAt l 40 16 a).map (fun x => (natBits x 0 16, natBits x 16 16, natBits x 32 32, natBits x 64 64))
    resids := (entriesAt l (40 + 16 * a) 16 b).map two
    regions := (entriesAt l (40 + 16 * a + 16 * b) 16 c).map two }

/-- What META holds (R380); the record header has STEP[31:0] only. -/
structure MetaData where
  step : Nat
  vt : Sparse VtEntry
  groups : Sparse Group
  recs : Sparse CommitRec
  mons : Sparse Monitor
  sets : List Byte
  deriving DecidableEq, Repr

/-- The META payload: STEP, counts, entries with their index, the present-member sets and their digest. -/
def MetaData.bytes (d : MetaData) : List Byte :=
  let tab {α : Type} (w : Nat) (f : α → Nat) (l : Sparse α) : List Byte := l.flatMap (fun e => leBytes 4 e.1 ++ leBytes w (f e.2))
  leBytes 8 d.step ++ leBytes 4 d.vt.length ++ leBytes 4 d.groups.length ++ leBytes 4 d.recs.length ++ leBytes 4 d.mons.length ++
    tab 64 vtBits d.vt ++ tab 32 groupBits d.groups ++ tab 32 recBits d.recs ++ tab 64 monBits d.mons ++
    d.sets ++ leBytes 64 (sha512 d.sets).toNat

/-- META from its payload. -/
def metaParse (l : List Byte) : MetaData :=
  let n (i : Nat) : Nat := byteField l (8 + 4 * i) 4
  let tab {α : Type} (lo w k : Nat) (f : Nat → α) : Sparse α :=
    (entriesAt l lo (w + 4) k).map (fun x => (natBits x 0 32, f (natBits x 32 (8 * w))))
  let g := 24 + 68 * n 0
  let r := g + 36 * n 1
  let o := r + 36 * n 2
  let z := o + 68 * n 3
  { step := byteField l 0 8, vt := tab 24 64 (n 0) vtParse, groups := tab g 32 (n 1) groupParse, recs := tab r 32 (n 2) recParse, mons := tab o 64 (n 3) monParse,
    sets := (l.drop z).take (l.length - z - 64) }

/-- The SEAL payload (R389, Table 14-3): V, the membership digest, the member and group bitmaps. -/
def sealPayloadBytes (v : F32) (digest : BitVec 512) (mem grp : Nat) : List Byte :=
  leBytes 4 v.toNat ++ leBytes 64 digest.toNat ++ leBytes 64 mem ++ leBytes 8 grp

/-! The laid-up record (R461); its inner layout is the model's (log 24) -/

/-- Slots of a sparse table with their entries, w bytes each. -/
def tabBytes {α : Type} (w : Nat) (f : α → Nat) (l : Sparse α) : List Byte := l.flatMap (fun e => leBytes 1 e.1 ++ leBytes w (f e.2))

/-- n entries of such a table from offset lo. -/
def tabParse {α : Type} (l : List Byte) (lo w n : Nat) (f : Nat → α) : Sparse α :=
  (entriesAt l lo (w + 1) n).map (fun x => (natBits x 0 8, f (natBits x 8 (8 * w))))

/-- The bytes of a laid-up record. -/
def LaidUp.bytes (r : LaidUp) : List Byte :=
  leBytes 32 (packFields [(r.tenant, 32), (r.counter, 64), (b2n r.isSealed, 8), (b2n r.wdigFull, 8), (b2n r.ckey.isSome, 8), (r.policy.length, 16),
    (r.windows.length, 16), (r.wkeys.length, 16), (r.fkeys.length, 16), (r.entries.length, 16), (r.wdig.length, 16)]) ++
    leBytes 32 (r.ckey.elim 0 (fun k => k.toNat)) ++ r.policy ++ tabBytes 16 winBits r.windows ++ tabBytes 32 (fun k : BitVec 256 => k.toNat) r.wkeys ++
    tabBytes 32 (fun k : BitVec 256 => k.toNat) r.fkeys ++ tabBytes 4 id r.entries ++ tabBytes 72 (fun d : Nat × BitVec 512 => d.1 + 2 ^ 64 * d.2.toNat) r.wdig

/-- A laid-up record from its bytes. -/
def laidUpParse (l : List Byte) : LaidUp :=
  let h := byteField l 0 32
  let p := 64 + natBits h 120 16
  let nw := natBits h 136 16
  let nk := natBits h 152 16
  let nf := natBits h 168 16
  let ne := natBits h 184 16
  let key (x : Nat) : BitVec 256 := BitVec.ofNat 256 x
  let k := p + 17 * nw
  let f := k + 33 * nk
  let e := f + 33 * nf
  { tenant := natBits h 0 32, counter := natBits h 32 64, isSealed := natBits h 96 8 == 1, wdigFull := natBits h 104 8 == 1,
    ckey := if natBits h 112 8 = 1 then some (key (byteField l 32 32)) else none
    policy := (l.drop 64).take (natBits h 120 16), windows := tabParse l p 16 nw winParse, wkeys := tabParse l k 32 nk key, fkeys := tabParse l f 32 nf key,
    entries := tabParse l e 4 ne id,
    wdig := tabParse l (e + 5 * ne) 72 (natBits h 200 16) (fun x => (natBits x 0 64, BitVec.ofNat 512 (natBits x 64 512))) }

/-- The key of the laid-up record: derived by HMAC-SHA-512 from CDI2 (log 7). -/
def laidUpKey (cdi2 : List Byte) : BitVec 256 := BitVec.ofNat 256 (ofLe ((hmac512 cdi2 Config.laidUpInfo).take 32))

/-- Seal a laid-up record; its counter, which no two records share, is the nonce (log 7). -/
def sealLaidUp (cdi2 : List Byte) (r : LaidUp) : SealedRec :=
  let iv := BitVec.ofNat 96 r.counter
  let c := gcmSeal (laidUpKey cdi2) iv [] r.bytes
  ⟨iv, c.1, c.2⟩

/-- Open a laid-up record; none when its tag does not verify (R462). -/
def openSealed (cdi2 : List Byte) (x : SealedRec) : Option LaidUp :=
  if gcmTag (laidUpKey cdi2) x.iv [] x.ct = x.tag then some (laidUpParse (gcmPlain (laidUpKey cdi2) x.iv x.ct)) else none

/-- All payload bytes of one kind, in INDEX order. -/
def payloadOf (ps : List (RecHdr × List Byte)) (kind : Nat) : List Byte := (ps.filter (fun p => p.1.kind == kind)).flatMap (fun p => p.2)

/-- Cut a stream of records into records (R399): a piece whose header is wrong ends it. `f` bounds the recursion. -/
def splitRecsN : Nat → List Byte → List Rec
  | 0, _ => []
  | f + 1, l => match recHdr l with
    | none => []
    | some h =>
      let n := recLen h.plen
      if l.length < n then [] else ⟨l.take n, 0, false⟩ :: splitRecsN f (l.drop n)

/-- Cut a stream of records into records. -/
def splitRecs (l : List Byte) : List Rec := splitRecsN (l.length / 4096 + 1) l

end Sys2Proof.Machine
end

