-- ==== Sys2Proof/Machine/Num.lean ====
section
/-! DEFINITION. Number formats and rounding (02_number_formats.md): exact values, decoding of every format of Table 2-1, the five
rounding modes, saturation and special values, and correctly rounded arithmetic on FP32. -/

namespace Sys2Proof.Machine

/-- An exact value: NaN, an infinity, or (−1)^neg × mag × 2^exp. A zero keeps its sign in `neg`. -/
inductive FVal where
  | nan
  | inf (neg : Bool)
  | fin (neg : Bool) (mag : Nat) (exp : Int)
  deriving DecidableEq, Repr

/-- 2^e for a natural e as a Nat shift of m by an exponent difference that is not negative. -/
def shl (m : Nat) (e : Int) : Nat := m * 2 ^ e.toNat

/-- +0. -/
def fvZero : FVal := .fin false 0 0

/-- An integer as an exact value. -/
def fvInt (i : Int) : FVal := .fin (decide (i < 0)) i.natAbs 0

/-- Is it finite? -/
def fvFinite : FVal → Bool
  | .fin _ _ _ => true
  | _ => false

/-- Is it zero? -/
def fvIsZero : FVal → Bool
  | .fin _ 0 _ => true
  | _ => false

/-- Sign changed. -/
def fvNeg : FVal → FVal
  | .nan => .nan
  | .inf n => .inf (!n)
  | .fin n m e => .fin (!n) m e

/-- Magnitude. -/
def fvAbs : FVal → FVal
  | .nan => .nan
  | .inf _ => .inf false
  | .fin _ m e => .fin false m e

/-- Signed mantissa of a finite value at exponent `e0` not above its own. -/
def mantAt (n : Bool) (m : Nat) (e e0 : Int) : Int :=
  let k : Int := (shl m (e - e0) : Nat)
  if n then -k else k

/-- Rounding modes of Table 2-4; SR carries the 16 drawn bits of R52. -/
inductive RMode where
  | rne | rtz | rdn | rup
  | sr (r : Nat)
  deriving DecidableEq, Repr

/-- The sign of an exact zero sum of operands that differ in sign (R48): −0 under RDN, +0 otherwise. -/
def zeroSumNeg : RMode → Bool
  | .rdn => true
  | _ => false

/-- Exact sum (R48); `rm` is the mode that rounds the result and decides the sign of an exact zero. -/
def fvAdd (rm : RMode) : FVal → FVal → FVal
  | .nan, _ => .nan
  | _, .nan => .nan
  | .inf a, .inf b => if a = b then .inf a else .nan
  | .inf a, _ => .inf a
  | _, .inf b => .inf b
  | .fin n1 m1 e1, .fin n2 m2 e2 =>
    if m1 = 0 ∧ m2 = 0 then .fin (if n1 = n2 then n1 else zeroSumNeg rm) 0 0
    else
      let e := min e1 e2
      let s := mantAt n1 m1 e1 e + mantAt n2 m2 e2 e
      if s = 0 then .fin (zeroSumNeg rm) 0 0 else .fin (decide (s < 0)) s.natAbs e

/-- Exact difference. -/
def fvSub (rm : RMode) (a b : FVal) : FVal := fvAdd rm a (fvNeg b)

/-- Exact product (R48). -/
def fvMul : FVal → FVal → FVal
  | .nan, _ => .nan
  | _, .nan => .nan
  | .inf a, .inf b => .inf (a != b)
  | .inf a, .fin n m _ => if m = 0 then .nan else .inf (a != n)
  | .fin n m _, .inf b => if m = 0 then .nan else .inf (n != b)
  | .fin n1 m1 e1, .fin n2 m2 e2 => .fin (n1 != n2) (m1 * m2) (e1 + e2)

/-- Exact product with a power of two. -/
def fvScale (k : Int) : FVal → FVal
  | .fin n m e => .fin n m (e + k)
  | v => v

/-- Comparison of numbers that are not NaN: −1, 0 or 1; +0 and −0 are equal. -/
def fvCmp : FVal → FVal → Int
  | .nan, _ => 0
  | _, .nan => 0
  | .inf a, .inf b => if a = b then 0 else if a then -1 else 1
  | .inf a, .fin _ _ _ => if a then -1 else 1
  | .fin _ _ _, .inf b => if b then 1 else -1
  | .fin n1 m1 e1, .fin n2 m2 e2 =>
    let e := min e1 e2
    let d := mantAt n1 m1 e1 e - mantAt n2 m2 e2 e
    if d < 0 then -1 else if d = 0 then 0 else 1

/-- a < b; false when either is NaN. -/
def fvLt (a b : FVal) : Bool := a ≠ .nan && b ≠ .nan && decide (fvCmp a b < 0)

/-- A floating-point layout of Table 2-2: exponent bits, fraction bits, bias, and what the top of the range encodes:
`top` 0 is IEEE (infinity and NaN in the top exponent), 1 is E4M3 (only the all-ones pattern is NaN), 2 is E2M1 (no special values). -/
structure FFmt where
  eb : Nat
  mb : Nat
  bias : Nat
  top : Nat
  deriving DecidableEq, Repr

def fmtFP32 : FFmt := ⟨8, 23, 127, 0⟩
def fmtBF16 : FFmt := ⟨8, 7, 127, 0⟩
def fmtFP16 : FFmt := ⟨5, 10, 15, 0⟩
def fmtE4M3 : FFmt := ⟨4, 3, 7, 1⟩
def fmtE5M2 : FFmt := ⟨5, 2, 15, 0⟩
def fmtE2M1 : FFmt := ⟨2, 1, 1, 2⟩
def fmtW8 : FFmt := ⟨6, 1, 47, 0⟩

/-- Width in bits of a layout. -/
def FFmt.width (f : FFmt) : Nat := 1 + f.eb + f.mb

/-- Biased exponent and fraction of the largest finite value (Table 2-2). -/
def FFmt.maxFin (f : FFmt) : Nat × Nat :=
  if f.top = 0 then (2 ^ f.eb - 2, 2 ^ f.mb - 1)
  else if f.top = 1 then (2 ^ f.eb - 1, 2 ^ f.mb - 2)
  else (2 ^ f.eb - 1, 2 ^ f.mb - 1)

/-- Value of a bit pattern (R39, R40, R41, Table 2-3). -/
def fdecode (f : FFmt) (x : Nat) : FVal :=
  let m := x % 2 ^ f.mb
  let e := natBits x f.mb f.eb
  let s := natBits x (f.mb + f.eb) 1 == 1
  if f.top = 0 ∧ e = 2 ^ f.eb - 1 then (if m = 0 then .inf s else .nan)
  else if f.top = 1 ∧ e = 2 ^ f.eb - 1 ∧ m = 2 ^ f.mb - 1 then .nan
  else if e = 0 then .fin s m (1 - (f.bias : Int) - f.mb)
  else .fin s (2 ^ f.mb + m) ((e : Int) - f.bias - f.mb)

/-- The NaN that the module writes (Table 2-3); E2M1 has none and holds encoding 0 (R55). -/
def FFmt.nanBits (f : FFmt) : Nat :=
  if f.top = 1 then 2 ^ (f.eb + f.mb) - 1
  else if f.top = 2 then 0
  else (2 ^ f.eb - 1) * 2 ^ f.mb + 2 ^ (f.mb - 1)

/-- The infinity of a sign, where the format has one. -/
def FFmt.infBits (f : FFmt) (neg : Bool) : Nat := b2n neg * 2 ^ (f.eb + f.mb) + (2 ^ f.eb - 1) * 2 ^ f.mb

/-- The largest finite value of a sign. -/
def FFmt.maxBits (f : FFmt) (neg : Bool) : Nat :=
  b2n neg * 2 ^ (f.eb + f.mb) + f.maxFin.1 * 2 ^ f.mb + f.maxFin.2

/-- Does the magnitude round up? `q` is the kept part, `rem` of `den` the discarded fraction rem/den (R49, R52). -/
def roundsUp (rm : RMode) (neg : Bool) (q rem den : Nat) : Bool :=
  match rm with
  | .rne => decide (2 * rem > den) || (decide (2 * rem = den) && q % 2 == 1)
  | .rtz => false
  | .rdn => neg && rem != 0
  | .rup => !neg && rem != 0
  | .sr r => decide (65536 ≤ rem * 65536 / den + r)

/-- Overflow result of R54. -/
def overflowBits (f : FFmt) (rm : RMode) (sat neg : Bool) : Nat :=
  if f.top ≠ 0 || sat then f.maxBits neg
  else match rm with
    | .rtz => f.maxBits neg
    | .rup => if neg then f.maxBits neg else f.infBits neg
    | .rdn => if neg then f.infBits neg else f.maxBits neg
    | _ => f.infBits neg

/-- Round the exact magnitude num/den × 2^exp, with sign, into a format: once, from the exact value (R51, R52, R54, R56). -/
def roundFrac (f : FFmt) (rm : RMode) (sat neg : Bool) (num den : Nat) (exp : Int) : Nat :=
  if num = 0 then b2n neg * 2 ^ (f.eb + f.mb)
  else
    -- exponent of the leading bit of num/den × 2^exp, exactly
    let l0 : Int := (num.log2 : Int) - den.log2
    let ge : Bool := if 0 ≤ l0 then decide (den * 2 ^ l0.toNat ≤ num) else decide (den ≤ num * 2 ^ (-l0).toNat)
    let lead : Int := exp + (if ge then l0 else l0 - 1)
    let emin : Int := 1 - (f.bias : Int)
    -- weight of the last kept bit
    let ulp : Int := (max lead emin) - f.mb
    let d : Int := exp - ulp
    let n' := if 0 ≤ d then num * 2 ^ d.toNat else num
    let d' := if 0 ≤ d then den else den * 2 ^ (-d).toNat
    let q := n' / d'
    let rem := n' % d'
    let q' := if roundsUp rm neg q rem d' then q + 1 else q
    -- a carry into the next binade falls out of the encoding
    let be : Nat := if lead < emin then 0 else (lead - emin).toNat
    let code := be * 2 ^ f.mb + q'
    let maxCode := f.maxFin.1 * 2 ^ f.mb + f.maxFin.2
    if code > maxCode then overflowBits f rm sat neg
    else b2n neg * 2 ^ (f.eb + f.mb) + code

/-- Result of a conversion: the encoding, and whether the destination word is poisoned (R55). -/
structure Conv where
  code : Nat
  poison : Bool
  deriving DecidableEq, Repr

/-- Round an exact value into a floating-point layout (R51, R54, R55). -/
def fround (f : FFmt) (rm : RMode) (sat : Bool) : FVal → Conv
  | .nan => if f.top = 2 then ⟨0, true⟩ else ⟨f.nanBits, false⟩
  | .inf n =>
    if f.top = 0 then ⟨if sat then f.maxBits n else f.infBits n, false⟩
    else if f.top = 1 then ⟨f.nanBits, false⟩
    else ⟨0, true⟩
  | .fin n m e => ⟨roundFrac f rm sat n m 1 e, false⟩

/-- Round an exact value to an integer in [lo, hi] (INT8 and INT32 destinations, R54, R55). -/
def fvToInt (rm : RMode) : Bool → Nat → Int → Int := fun n m e =>
  let num := if 0 ≤ e then m * 2 ^ e.toNat else m
  let den := if 0 ≤ e then 1 else 2 ^ (-e).toNat
  let q := num / den
  let q' := if roundsUp rm n q (num % den) den then q + 1 else q
  if n then -(q' : Int) else q'

/-- Clamp to a range. -/
def clampInt (lo hi x : Int) : Int := max lo (min hi x)

/-- Round into a two's complement integer format of `w` bits. -/
def iround (w : Nat) (rm : RMode) : FVal → Conv
  | .fin n m e => ⟨wrapInt w (clampInt (-(2 ^ (w - 1) : Nat)) ((2 ^ (w - 1) : Nat) - 1) (fvToInt rm n m e)), false⟩
  | _ => ⟨0, true⟩

/-- Format codes of Table 2-1. -/
def FP32 : Nat := 0
def BF16 : Nat := 1
def FP16 : Nat := 2
def E4M3 : Nat := 3
def E5M2 : Nat := 4
def E2M1 : Nat := 5
def W8 : Nat := 6
def INT8 : Nat := 7
def BS8I : Nat := 8
def BS8E4 : Nat := 9
def BS8E5 : Nat := 10
def INT32 : Nat := 11

/-- Is the code a BS8 subtype? -/
def isBs8 (c : Nat) : Bool := decide (8 ≤ c) && decide (c ≤ 10)

/-- Element width in bits (Table 2-1; BS8 elements are bytes). -/
def fmtBits (c : Nat) : Nat :=
  if c = 0 ∨ c = 11 then 32 else if c = 1 ∨ c = 2 then 16 else if c = 5 then 4 else 8

/-- Bytes of a 128-element block (Table 3-3). -/
def blockBytes (c : Nat) : Nat := fmtBits c * 16

/-- Significand width of Table 2-1. -/
def sigOf (c : Nat) : Nat :=
  match c with
  | 0 => 24 | 1 => 8 | 2 => 11 | 3 => 4 | 4 => 3 | 5 => 2 | 6 => 2 | 7 => 8 | 8 => 8 | 9 => 4 | 10 => 3 | _ => 0

/-- Layout of a floating-point code (of a BS8 FP8 subtype: of its elements). -/
def layoutOf (c : Nat) : FFmt :=
  match c with
  | 0 => fmtFP32 | 1 => fmtBF16 | 2 => fmtFP16 | 3 => fmtE4M3 | 4 => fmtE5M2 | 5 => fmtE2M1 | 6 => fmtW8
  | 9 => fmtE4M3 | 10 => fmtE5M2 | _ => fmtFP32

/-- Value of a plain (not block-scaled) element. -/
def decodeElem (c x : Nat) : FVal :=
  if c = 7 then fvInt (signed 8 x) else if c = 11 then fvInt (signed 32 x) else fdecode (layoutOf c) x

/-- Value of a BS8 element under scale byte `sc` (R45). -/
def decodeBs8 (c sc x : Nat) : FVal :=
  if sc = 255 then .nan
  else if c = 8 then fvScale ((sc : Int) - 127 - 6) (fvInt (signed 8 x))
  else match fdecode (layoutOf c) x with
    | .fin n m e => .fin n m (e + sc - 127)
    | _ => .nan

/-- Value of an element of any format; `sc` is its scale byte when the format is BS8. -/
def decodeAny (c sc x : Nat) : FVal := if isBs8 c then decodeBs8 c sc x else decodeElem c x

/-- Write a value in a plain format (R51 to R56). -/
def encodeElem (c : Nat) (rm : RMode) (sat : Bool) (v : FVal) : Conv :=
  if c = 7 then iround 8 rm v else if c = 11 then iround 32 rm v else fround (layoutOf c) rm sat v

/-- Exponent of the leading bit of a non-zero magnitude. -/
def leadExp (m : Nat) (e : Int) : Int := (m.log2 : Int) + e

/-- e_max of R46. -/
def bsEmax (c : Nat) : Int := if c = 8 then 0 else if c = 9 then 8 else 15

/-- One element of a BS8 block at shared exponent X: round v × 2^(127 − X) (× 64 for BS8.I) and clamp (R46). -/
def bsElem (c : Nat) (rm : RMode) (X : Int) (v : FVal) : Nat :=
  match v with
  | .fin n m e =>
    if c = 8 then wrapInt 8 (clampInt (-128) 127 (fvToInt rm n m (e + 127 - X + 6)))
    else (fround (layoutOf c) rm true (.fin n m (e + 127 - X))).code
  | _ => 0

/-- Encode a block of values into BS8 (R46): the scale byte and the elements, each under its own mode. -/
def encodeBs8 (c : Nat) (rms : List RMode) (vs : List FVal) : Nat × List Nat :=
  if vs.any (fun v => !fvFinite v) then (255, vs.map (fun _ => 0))
  else
    let leads := vs.filterMap (fun v => match v with
      | .fin _ m e => if m = 0 then none else some (leadExp m e)
      | _ => none)
    match leads with
    | [] => (0, List.zipWith (fun rm v => bsElem c rm 0 v) rms vs)
    | l0 :: ls =>
      let X := clampInt 0 254 (ls.foldl max l0 - bsEmax c + 127)
      (X.toNat, List.zipWith (fun rm v => bsElem c rm X v) rms vs)

/-! Correctly rounded operations on FP32 bit patterns. -/

/-- Value of an FP32 pattern. -/
def fv (x : F32) : FVal := fdecode fmtFP32 x.toNat

/-- Round an exact value to FP32 under a mode, without saturation. -/
def toF32 (rm : RMode) (v : FVal) : F32 := BitVec.ofNat 32 (fround fmtFP32 rm false v).code

/-- rne(v) into FP32 (R50). -/
def rne (v : FVal) : F32 := toF32 .rne v

def f32Add (a b : F32) : F32 := rne (fvAdd .rne (fv a) (fv b))
def f32Sub (a b : F32) : F32 := rne (fvSub .rne (fv a) (fv b))
def f32Mul (a b : F32) : F32 := rne (fvMul (fv a) (fv b))
/-- rne(a × b + c), rounded once. -/
def f32Fma (a b c : F32) : F32 := rne (fvAdd .rne (fvMul (fv a) (fv b)) (fv c))

/-- Correctly rounded quotient (RNE). -/
def f32Div (a b : F32) : F32 :=
  match fv a, fv b with
  | .nan, _ => 0x7FC00000#32
  | _, .nan => 0x7FC00000#32
  | .inf _, .inf _ => 0x7FC00000#32
  | .inf n, .fin n2 _ _ => BitVec.ofNat 32 (fmtFP32.infBits (n != n2))
  | .fin n _ _, .inf n2 => BitVec.ofNat 32 (b2n (n != n2) * 2 ^ 31)
  | .fin n1 m1 e1, .fin n2 m2 e2 =>
    if m2 = 0 then (if m1 = 0 then 0x7FC00000#32 else BitVec.ofNat 32 (fmtFP32.infBits (n1 != n2)))
    else BitVec.ofNat 32 (roundFrac fmtFP32 .rne false (n1 != n2) m1 m2 (e1 - e2))

/-- ⌊√n⌋ by its bits, from bit `k` down. -/
def isqrtFrom (n : Nat) : Nat → Nat → Nat
  | 0, acc => acc
  | k + 1, acc =>
    let t := acc + 2 ^ k
    isqrtFrom n k (if t * t ≤ n then t else acc)

/-- ⌊√n⌋. -/
def isqrt (n : Nat) : Nat := isqrtFrom n (n.log2 / 2 + 1) 0

/-- A value ≥ 0 that lies strictly between q/1 and (q+1)/1 units is rounded as q + 1/2 of a far lower unit (a sticky bit). -/
def stickyRound (q : Nat) (exact : Bool) (exp : Int) : F32 :=
  BitVec.ofNat 32 (roundFrac fmtFP32 .rne false false (2 * q + (if exact then 0 else 1)) 1 (exp - 1))

/-- Correctly rounded square root (RNE): NaN for a negative operand, ±0 for ±0. -/
def f32Sqrt (a : F32) : F32 :=
  match fv a with
  | .nan => 0x7FC00000#32
  | .inf n => if n then 0x7FC00000#32 else 0x7F800000#32
  | .fin n m e =>
    if m = 0 then a
    else if n then 0x7FC00000#32
    else
      -- m × 2^e = M × 2^(2h) with M large
      let odd := e % 2
      let M := m * 2 ^ (64 + odd.toNat)
      let h := (e - odd - 64) / 2
      let q := isqrt M
      stickyRound q (q * q == M) h

/-- Correctly rounded reciprocal square root (RNE) of a value > 0: +∞ at 0, +0 at +∞, NaN below 0. -/
def f32Rsqrt (a : F32) : F32 :=
  match fv a with
  | .nan => 0x7FC00000#32
  | .inf n => if n then 0x7FC00000#32 else 0#32
  | .fin n m e =>
    if m = 0 then BitVec.ofNat 32 (fmtFP32.infBits n)
    else if n then 0x7FC00000#32
    else
      -- 1/√(m 2^e) = √(2^128/m) × 2^(−e/2 − 64); the quotient is not exact, so sticky unless both steps are
      let odd := e % 2
      let N := 2 ^ 128
      let den := m * 2 ^ odd.toNat
      let Q := N / den
      let q := isqrt Q
      stickyRound q (q * q * den == N) (-(e - odd) / 2 - 64)

/-- ⌊x⌋ of a finite value, as an integer. -/
def fvFloor (n : Bool) (m : Nat) (e : Int) : Int :=
  let num := if 0 ≤ e then m * 2 ^ e.toNat else m
  let den := if 0 ≤ e then 1 else 2 ^ (-e).toNat
  if n then -((ceilDiv num den : Nat) : Int) else ((num / den : Nat) : Int)

/-- Working precision of the power of two below: bits after the point. -/
def expPrec : Nat := 160

/-- 2^(2^−i) at the working precision, for i = 1, 2, …: each the square root of the one before. -/
def exp2Step (x : Nat) : Nat := isqrt (x * 2 ^ expPrec)

/-- Product of 2^(2^−i) over the set bits of the fraction, most significant first. -/
def exp2Frac : List Bool → Nat → Nat → Nat
  | [], _, acc => acc
  | b :: r, root, acc => exp2Frac r (exp2Step root) (if b then acc * root / 2 ^ expPrec else acc)

/-- exp2 of a fraction 0 ≤ m × 2^e < 1, correctly rounded to FP32 (R195). The fraction is taken to 96 bits; the value is computed to
more than 120 bits, which decides the rounding of every FP32 fraction (log 11). -/
def exp2F32 (m : Nat) (e : Int) : F32 :=
  if m = 0 then 0x3F800000#32
  else
    let fx := if 0 ≤ e + 96 then m * 2 ^ (e + 96).toNat else m / 2 ^ (-(e + 96)).toNat
    let bs := (List.range 96).map (fun i => natBits fx (95 - i) 1 == 1)
    let r1 := exp2Step (2 * 2 ^ expPrec)
    let v := exp2Frac bs r1 (2 ^ expPrec)
    stickyRound v false (-(expPrec : Int))

end Sys2Proof.Machine
end

