-- ==== Sys2Proof/Machine/Reply.lean ====
section
/-! DEFINITION. Taking a command from a ring and judging it (R336 to R343), and posting its completions (R339, R340, R342). -/

namespace Sys2Proof.Machine

def mOpcode (m : Msg) : Nat := bits m.raw 0 16
def mAlive (m : Msg) : Nat := bits m.raw 16 8
def mRing (m : Msg) : Nat := bits m.raw 24 3
def mSeq (m : Msg) : Nat := bits m.raw 32 32
def mLen (m : Msg) : Nat := bits m.raw 80 16

/-- Body bits [lo + n - 1 : lo] (R334). -/
def mb (m : Msg) (lo n : Nat) : Nat := bits m.raw (128 + lo) n

/-- The body bits from `lo` on are all 0: the reserved tail of a layout (R8). -/
def mTail (m : Msg) (lo : Nat) : Bool := mb m lo (864 - lo) == 0

/-! Status codes (Table 12-4) -/
def stOK : Nat := 0
def stACCEPTED : Nat := 1
def stBUSY : Nat := 2
def stSTATE : Nat := 3
def stBADARG : Nat := 4
def stNOTAUTH : Nat := 5
def stSEQ : Nat := 6
def stCHECK : Nat := 7
def stEXHAUST : Nat := 8
def stFAULTED : Nat := 9
def stUNSUPP : Nat := 10

/-- Post a completion on ring 4 (R334), OPCODE and SEQ echoed, when its turn has come (R340). -/
def complete (s : State) (m : Msg) (final : Bool) (status len body : Nat) : State :=
  postShorts { s with mb := { s.mb with shorts := s.mb.shorts ++ [⟨m, s.mb.takeAt, final, some (status, len, body)⟩] } }

/-- A command whose completion is owed keeps its place in the order (R340, R345). -/
def reserve (s : State) (m : Msg) : State := { s with mb := { s.mb with shorts := s.mb.shorts ++ [⟨m, s.mb.takeAt, true, none⟩] } }

/-- The completion that a place was kept for. -/
def fulfil (s : State) (m : Msg) (status len body : Nat) : State :=
  postShorts { s with mb := { s.mb with shorts := s.mb.shorts.map (fun x =>
    if x.done.isNone && x.m == m then { x with done := some (status, len, body) } else x) } }

/-- Post OK with a body of `len` bytes. -/
def ok (s : State) (m : Msg) (len body : Nat) : State := complete s m true stOK len body

/-- Count a refusal (R337, Table 12-2). -/
def countRefusal (s : State) (status : Nat) : State :=
  { s with mb := { s.mb with refuse := spSet 0 s.mb.refuse status (satAdd 16 (spGet 0 s.mb.refuse status) 1) } }

/-- Post a refusal and count it (R337). -/
def refuse (s : State) (m : Msg) (status len body : Nat) : State := complete (countRefusal s status) m true status len body

/-- The body of STATE_REFUSED: the present state. -/
def stateBits (s : State) : Nat := packFields [(mbOp s, 4), (s.sec.code, 2), (s.dbg, 2)]

/-- STATE_REFUSED with the present state. -/
def stateRefused (s : State) (m : Msg) : State := refuse s m stSTATE 1 (stateBits s)

/-- Where the first field in error lies (Table 12-4): the object, the cluster, the command, the byte offset. -/
structure BadAt where
  whereIn : Nat
  lc : Option Nat
  cmd : Option Nat
  off : Nat
  deriving DecidableEq, Repr

/-- An error in the message body at a body bit. -/
def inBody (bit : Nat) : BadAt := ⟨0, none, none, bit / 8⟩

/-- An error in the argument block at a byte. -/
def inBlock (byte : Nat) : BadAt := ⟨1, none, none, byte⟩

/-- The body of BAD_ARGUMENT. -/
def badBody (b : BadAt) : Nat :=
  packFields [(b.whereIn, 3), (b.lc.getD 0, 8), (b2n b.lc.isSome, 1), (b.cmd.getD 0, 14), (b2n b.cmd.isSome, 1), (0, 37), (b.off, 40)]

/-- BAD_ARGUMENT. -/
def badArg (s : State) (m : Msg) (b : BadAt) : State := refuse s m stBADARG 13 (badBody b)

/-- BUSY with a REASON; RETRY_US is a free value within its bounds (R342). -/
def busy (s : State) (m : Msg) (reason : Nat) : State :=
  let d := drawFree 100 1000000 s
  refuse d.2 m stBUSY 5 (packFields [(d.1, 32), (reason, 8)])

/-- RESOURCE_EXHAUSTED. -/
def exhausted (s : State) (m : Msg) (resource : Nat) : State := refuse s m stEXHAUST 1 resource

/-- NOT_AUTHORISED. -/
def notAuth (s : State) (m : Msg) : State := refuse s m stNOTAUTH 0 0

/-- CHECK_ERROR: bit 0 message, 1 ring, 2 block. -/
def checkError (s : State) (m : Msg) (x : Nat) : State := refuse s m stCHECK 1 x

/-! Opcodes (Table 12-6) -/

/-- Opcodes of the table with the largest body that each takes, in bytes. -/
def bodyMax (op : Nat) : Option Nat :=
  match op with
  | 0x0001 => some 0 | 0x0002 => some 0 | 0x0003 => some 14 | 0x0010 => some 16 | 0x0011 => some 0 | 0x0012 => some 0 | 0x0013 => some 76
  | 0x0014 => some 16 | 0x0020 => some 30 | 0x0021 => some 104 | 0x0022 => some 0 | 0x0023 => some 0 | 0x0024 => some 0 | 0x0025 => some 0
  | 0x0030 => some 2 | 0x0031 => some 1 | 0x0032 => some 8 | 0x0033 => some 0 | 0x0040 => some 10 | 0x0041 => some 10 | 0x0050 => some 1
  | 0x0051 => some 16 | 0x0052 => some 0 | 0x0053 => some 16 | 0x0054 => some 8 | 0x0060 => some 16 | 0x0061 => some 16 | 0x0062 => some 4
  | 0x0063 => some 16 | 0x0070 => some 8 | 0x0071 => some 2 | 0x0080 => some 16 | 0x0081 => some 0 | 0x0090 => some 108
  | _ => none

/-- The information opcodes. -/
def isInfoOp (op : Nat) : Bool := op == 1 || op == 2 || op == 3

/-- Operating states in which an opcode is legal (Table 12-6), as the bits of OPSTATE codes 0 to 6. -/
def legalOp (op : Nat) : Nat :=
  if isInfoOp op then 0x7F
  else if op = 0x10 ∨ op = 0x20 ∨ op = 0x90 then 0x02
  else if op = 0x11 ∨ op = 0x40 ∨ op = 0x41 ∨ op = 0x54 ∨ op = 0x60 then 0x06
  else if op = 0x12 then 0x36
  else if op = 0x13 ∨ op = 0x33 ∨ op = 0x71 ∨ op = 0x80 ∨ op = 0x81 then 0x3E
  else if op = 0x14 ∨ op = 0x30 ∨ op = 0x32 ∨ op = 0x53 ∨ op = 0x61 ∨ op = 0x62 then 0x1E
  else if op = 0x21 ∨ op = 0x25 ∨ op = 0x50 ∨ op = 0x63 then 0x1C
  else if op = 0x22 ∨ op = 0x51 ∨ op = 0x52 then 0x04
  else if op = 0x23 then 0x08
  else if op = 0x24 then 0x10
  else if op = 0x31 ∨ op = 0x70 then 0x16
  else 0

/-- Security states in which an opcode is legal (Table 12-6): bit 0 OPEN, 1 ASSIGNED, 2 SEALED. -/
def legalSec (op : Nat) : Nat :=
  if isInfoOp op ∨ op = 0x13 ∨ op = 0x30 ∨ op = 0x32 ∨ op = 0x31 ∨ op = 0x33 ∨ op = 0x71 ∨ op = 0x40 ∨ op = 0x41 ∨ op = 0x60 ∨ op = 0x70 ∨
    op = 0x80 ∨ op = 0x81 then 7
  else if op = 0x10 ∨ op = 0x90 then 1
  else if op = 0x11 then 2
  else 6

/-- Is the opcode legal now (R343)? -/
def legal (s : State) (op : Nat) : Bool := natBits (legalOp op) (mbOp s) 1 == 1 && natBits (legalSec op) s.sec.code 1 == 1

/-- Opcodes that complete ACCEPTED first (R339); DEBUG_OPEN may. -/
def isLong (op : Nat) : Bool :=
  op == 0x20 || op == 0x12 || op == 0x13 || op == 0x14 || op == 0x41 || op == 0x50 || op == 0x51 || op == 0x52 || op == 0x54 ||
  op == 0x61 || op == 0x62 || op == 0x90 || op == 0x80

/-- Is a command ring not empty? -/
def ringWaits (s : State) (r : Nat) : Bool := decide (0 < ringCount (ringOf s r))

/-- The ring from which the stationmaster takes its next command (R338): the highest-priority one that is not empty, but of the rings that 13
commands from others have passed over the highest-priority one, so that among any 16 commands each such ring has one. DESIGN CHOICE (log 45): the
rule does not say at which of the 16. -/
def nextTake (s : State) : Option Nat :=
  ([1, 2, 3].find? (fun r => ringWaits s r && decide (13 ≤ spGet 0 s.mb.waits r))).or ([0, 1, 2, 3].find? (ringWaits s))

/-- Count the taking of a command from ring r against the other rings that are not empty. -/
def noteTake (s : State) (r : Nat) : State :=
  { s with mb := { s.mb with waits := [0, 1, 2, 3].foldl (fun w k =>
      spSet 0 w k (if k ≠ r ∧ ringWaits s k then spGet 0 w k + 1 else 0)) s.mb.waits } }

/-- The long commands whose final completion is not posted, with the number that their work has fixed (R339): they hold what the work uses. -/
def outstanding (s : State) : List (Msg × Nat) := s.mb.long.map (fun l => (l.m, l.aux)) ++ s.mb.owed.map (fun o => (o.m, o.aux))

/-- Long commands whose final completion is not posted (R339). -/
def longN (s : State) : Nat := s.mb.long.length + s.mb.owed.length

/-- The mailbox core's own accesses (R352): n bytes of hub SRAM or DRAM, in 64-byte accesses. -/
def chargeCore (s : State) (n : Nat) : State := ttCharge s 5 0 8 (ceilDiv n 64)

/-- The instance that the mailbox core's accesses draw on. -/
def coreCells : List (Nat × Nat) := [(5, 0)]

/-- Is a command of this ring the next that the stationmaster takes (R338)? -/
def isNext (s : State) (m : Msg) : Bool :=
  s.mb.en && s.mb.serviceUp && decide (s.op.code < 8) && s.slp.entering.isNone && nextTake s == some m.ring &&
  decide (ringCount (ringOf s 4) + longN s + s.mb.shorts.length + (if isLong (mOpcode m) then 2 else 1) ≤ 256)

/-- May the stationmaster take a command from this ring now (R338, R352)? The mailbox service budget admits it (R421). -/
def canTake (s : State) (m : Msg) : Bool := isNext s m && admits s 8 coreCells

/-- Steps 1 to 5 of R337, for which the mailbox core makes one access to its memory (DESIGN CHOICE, log 45). `inl` is the state after a refusal or a discarded repeat, `inr` the state in which the arguments are judged. -/
def judge (s : State) (m : Msg) : Sum State State :=
  let r := ringOf s m.ring
  let s := modRing (noteTake (chargeCore s 64) m.ring) m.ring (fun r => { r with cons := (r.cons + 1) % 512 })
  let s := { s with mb := { s.mb with takeAt := s.flog.next } }
  let op := mOpcode m
  let crcBad := bits m.raw 992 32 != crc32c (leBytes 124 m.raw.toNat)
  if crcBad || mRing m != m.ring then .inl (checkError s m (b2n crcBad + 2 * b2n (mRing m != m.ring)))
  else
    let a := mAlive m
    if !r.first && a == (r.e + 255) % 256 && a != r.e && r.last == some (op, mSeq m) then
      .inl { s with mb := { s.mb with repeatN := satAdd 16 s.mb.repeatN 1 } }
    else if !r.first && a != r.e then .inl (refuse s m stSEQ 2 (packFields [(r.e, 8), (a, 8)]))
    else
      let s := modRing s m.ring (fun r => { r with e := (a + 1) % 256, first := false, last := some (op, mSeq m) })
      if m.ring ≠ 0 ∧ !(isInfoOp op) ∧ 1000 < m.ageUs then .inl (busy s m 0)
      else match bodyMax op with
        | none => .inl (refuse s m stUNSUPP 0 0)
        | some n =>
          if bits m.raw 28 4 ≠ 0 ∨ bits m.raw 72 8 ≠ 0 ∨ n < mLen m then .inl (badArg s m (inBody 0))
          else if !(legal s op) then .inl (stateRefused s m)
          else .inr s

/-- Take a message as the command `op`, run its arguments' judgement `f`. A message of another opcode of the table is another row's.
Over budget it waits (R352, R421). -/
def takeCommand (s : State) (m : Msg) (op : Nat) (f : State → State) : State :=
  if !(isNext s m) || (mOpcode m != op && (bodyMax (mOpcode m)).isSome) then s
  else if !(admits s 8 coreCells) then waitCells s 8 coreCells
  else match judge s m with
    | .inl t => flushEvents t
    | .inr t => flushEvents (f t)

/-- Does an exchange region of the tenant's policy contain lo … hi (R331, R350)? -/
def inExchange (s : State) (lo hi : Nat) : Bool :=
  (List.range 8).any (fun k =>
    let w := byteField s.su.policy (0xC0 + 16 * k) 16
    natBits w 0 1 == 1 && decide (natBits w 12 36 * 4096 ≤ lo) && decide (hi < (natBits w 76 36 + 1) * 4096))

/-- Step 6 of R337: the argument block (R350), at the address, length and CRC of body bits [127:0]. A block in DRAM draws on the mailbox service
budget (R352). -/
def readBlock (s : State) (m : Msg) : Sum State (List Byte × State) :=
  let a := mb m 0 48
  let n := mb m 64 32
  let crc := mb m 96 32
  if n > 1048576 then .inl (badArg s m (inBody 64))
  else if isComp a then
    match m.block with
    | none => .inl (busy s m 3)
    | some l => if l.length ≠ n ∨ crc32c l ≠ crc then .inl (checkError s m 4) else .inr (l, s)
  else if isDram a && inExchange s a (a + n - 1) then
    let r := devRead (chargeDev (chargeCore s n) 4 8 a n false) a n
    if r.1.poison || crc32c r.1.data != crc then .inl (checkError r.2 m 4) else .inr (r.1.data, r.2)
  else .inl (badArg s m (inBody 0))

/-- The lowest body bit that is set and that no field (bit, width) of the layout covers. -/
def strayBit (m : Msg) (fs : List (Nat × Nat)) : Option Nat :=
  (List.range 864).find? (fun b => mb m b 1 == 1 && !(fs.any (fun f => decide (f.1 ≤ b) && decide (b < f.1 + f.2))))

/-- Refuse a body with a reserved bit set (R334, log 16); otherwise judge on. -/
def checkBody (s : State) (m : Msg) (fs : List (Nat × Nat)) (f : State → State) : State :=
  match strayBit m fs with
  | some b => badArg s m (inBody b)
  | none => f s

/-- Take a command whose body has the fields `fs`. -/
def takeArgs (s : State) (m : Msg) (op : Nat) (fs : List (Nat × Nat)) (f : State → State) : State :=
  takeCommand s m op (fun s => checkBody s m fs f)

/-- The body fields that name an argument block (R350). -/
def blockFields : List (Nat × Nat) := [(0, 48), (64, 32), (96, 32)]

/-- Take a command with an argument block: read it (step 6), judge its signature (step 7), then its arguments (step 8). -/
def takeWithBlock (s : State) (m : Msg) (op : Nat) (fs : List (Nat × Nat)) (auth : List Byte → State → Bool)
    (f : List Byte → State → State) : State :=
  takeCommand s m op (fun s => match readBlock s m with
    | .inl t => t
    | .inr (l, t) => if !(auth l t) then notAuth t m else checkBody t m fs (f l))

/-- Accept a long command (R339): ESTIMATE_US is a free value; at most 16 are outstanding. -/
def accept (s : State) (m : Msg) (aux : Nat) (f : State → State) : State :=
  if 16 ≤ longN s then busy s m 2
  else
    let d := drawFree 0 (2 ^ 32 - 1) s
    let s := complete d.2 m false stACCEPTED 4 d.1
    f { s with mb := { s.mb with long := s.mb.long ++ [⟨m, aux, s.flog.next⟩] } }

/-- Is a long command of this opcode outstanding? -/
def longOf (s : State) (op : Nat) : Bool := (outstanding s).any (fun x => mOpcode x.1 == op)

/-- Is it the outstanding command of a message? -/
def isCmd (m : Msg) (l : LongCmd) : Bool := mSeq l.m == mSeq m && mOpcode l.m == mOpcode m

/-- A long command ends: of several with its OPCODE and SEQ the oldest. -/
def dropLong (s : State) (m : Msg) : State := { s with mb := { s.mb with long := s.mb.long.eraseP (isCmd m) } }

/-- Change the number that the work of a long command has fixed. -/
def setAux (s : State) (m : Msg) (n : Nat) : State :=
  { s with mb := { s.mb with long := s.mb.long.map (fun l => if isCmd m l then { l with aux := n } else l) } }

/-- End a long command: its final completion is posted, or waits for the events of its work (R340). -/
def finish (s : State) (m : Msg) (status len body : Nat) : State :=
  let since := ((s.mb.long.find? (isCmd m)).map (fun l => l.since)).getD s.flog.next
  let aux := ((s.mb.long.find? (isCmd m)).map (fun l => l.aux)).getD 0
  let s := dropLong s m
  let s := if status = stOK ∨ status = stFAULTED then s else countRefusal s status
  let o : OwedFinal := ⟨m, aux, since, status, len, body⟩
  if finalWaits s m since then { s with mb := { s.mb with owed := s.mb.owed ++ [o] } } else postFinal s o

/-- Is a RUN_MARCH on a cluster under way (Table 9-4)? -/
def marchRuns (s : State) (lc : Nat) : Bool := s.mb.long.any (fun l => mOpcode l.m == 0x41 && mb l.m 0 8 == lc)

/-- MARCH_RUN of a cluster follows the RUN_MARCH commands that are under way. -/
def noteRunning (s : State) (lc : Nat) : State := modMem s lc (fun m => { m with marchRun := marchRuns s lc })

/-- Every outstanding long command completes FAULTED (R352, R450), naming the newest fault-log entry. -/
def faultLong (s : State) (keep : LongCmd → Bool) : State :=
  (s.mb.long.filter (fun l => !(keep l))).foldl (fun s l =>
    let s := finish s l.m stFAULTED 4 (lastEntry s)
    if mOpcode l.m = 0x41 then noteRunning s (mb l.m 0 8) else s) s

end Sys2Proof.Machine
end

