-- ==== Sys2Proof/Machine/CkptWrite.lean ====
section
/-! DEFINITION. Writing a checkpoint (R380 to R386, R400, R403): the cut, its holds, the records written to the store and sent to the buddy, and
the completion. -/

namespace Sys2Proof.Machine

/-- Change the checkpoint part. -/
def modCkpt (s : State) (f : Ckpt → Ckpt) : State := { s with ckpt := f s.ckpt }

/-- Change the checkpoint in progress. -/
def modCut (s : State) (f : Cut → Cut) : State := modCkpt s (fun c => { c with cur := c.cur.map f })

/-- Seconds of HUB time. -/
def hubSec (s : State) : Nat := s.clk.hub / 2000000000

/-- Interruptions in the window (R382). -/
def interruptions (s : State) : Nat := (s.ckpt.interruptions.filter (fun t => decide (hubSec s < t + s.ckpt.policy.window))).length

/-- Count an interruption. -/
def noteInterruption (s : State) : State := modCkpt s (fun c => { c with interruptions := c.interruptions ++ [hubSec s] })

/-- Is a checkpoint due by R382? √(2·C·M), with M = WINDOW_S / max(1, n) and C in ms, is compared by its square. -/
def ckptDue (s : State) : Bool :=
  let p := s.ckpt.policy
  match s.ckpt.lastCut with
  | none => true
  | some t =>
    let el := hubSec s - t
    match s.ckpt.lastC with
    | none => decide (p.imin ≤ el)
    | some c => decide (p.imin ≤ el) && (decide (p.imax ≤ el) || decide (2 * c * p.window ≤ el * el * 1000 * max 1 (interruptions s)))

/-- The interval of R382 in whole seconds. -/
def ckptInterval (s : State) : Nat :=
  let p := s.ckpt.policy
  match s.ckpt.lastC with
  | none => p.imin
  | some c => min (max (isqrt (2 * c * p.window / (1000 * max 1 (interruptions s)))) p.imin) p.imax

/-- The present-member sets of the jobs, as bytes (R380): JOB and one bit for each member. -/
def memberSets (s : State) : List Byte :=
  s.fab.jobs.flatMap (fun e =>
    if e.2.valid then
      leBytes 2 e.2.job ++ leBytes (ceilDiv (members e.2).length 8) (packFields ((members e.2).map (fun m => (b2n (!(memberAbsent s e.1 m)), 1))))
    else [])

/-- Bytes of one residual parity in memory (Table 11-8). -/
def residSize (n : Nat) : Nat := roundUp (4 * n) 4096

/-- The flow contexts with RESID_EN = 1 and the parity of their last completed round. -/
def residParities (s : State) : List (Nat × Nat) :=
  s.fab.flows.filterMap (fun e =>
    if e.2.valid && e.2.residEn && e.2.round ≠ 0 then some (e.1, (e.2.round + 1) % 2) else none)

/-- Address and length of a recorded residual. -/
def residRange (s : State) (r : Nat × Nat) : Nat × Nat :=
  let f := spGet .reset s.fab.flows r.1
  (f.resid + r.2 * residSize f.n, 4 * f.n)

/-! Buddy frames -/

/-! Kinds of Table 13-9 -/
def bPAIR : Nat := 1
def bDATA : Nat := 2
def bEND : Nat := 3
def bREADREQ : Nat := 4
def bREADDATA : Nat := 5
def bSLOTREQ : Nat := 6
def bSLOTDATA : Nat := 7

/-- The sub-header (Table 13-9). -/
def buddySub (s : State) (kind ckpt tensor off dlen : Nat) : List Byte :=
  leBytes 32 (packFields [(kind, 4), (s.boot.feed, 4), (b2n s.boot.feedUnknown, 1), (0, 7), (ckpt, 32), (tensor, 13), (0, 3), (off, 48), (0, 16),
    (dlen, 14)])

/-- Send one BUDDY frame; the SEQ that it took, 2^32 when it could not be sent. -/
def sendBuddy (s : State) (p jslot midx kind ckpt tensor off : Nat) (data : List Byte) : Nat × State :=
  let k := spaceKey p true jslot midx
  let before := spGet 0 s.fab.seqTx k
  if memberAbsent s jslot midx then (2 ^ 32, s)
  else
    let s := sendFrame s p jslot midx tBUDDY 0 0 0 0 0 0 0 0 (buddySub s kind ckpt tensor off data.length ++ data)
    (if spGet 0 s.fab.seqTx k = before then 2 ^ 32 else before, s)

/-- Send bytes as frames of at most 8,520 data bytes from OFFSET `off` (R386); their SEQs. The last frame has kind `kindLast`. -/
def sendBuddyAll (s : State) (p jslot midx kind kindLast ckpt tensor off : Nat) (data : List Byte) : List Nat × State :=
  let cs := chunksOf 8520 data
  (List.range cs.length).foldl (fun r i =>
    let x := sendBuddy r.2 p jslot midx (if i + 1 = cs.length then kindLast else kind) ckpt tensor (off + 8520 * i) (cs.getD i [])
    (r.1 ++ [x.1], x.2)) ([], s)

/-- May the store not free this copy: it is being written, or read for a peer? -/
def copyBusy (s : State) (c : Copy) : Bool :=
  copyServed s c || (c.own && s.ckpt.cur.any (fun x => x.number == c.ckpt)) || s.ckpt.inb.any (fun i => !c.own && !i.lost && i.peer == c.peer && i.ckpt == c.ckpt)

/-- Does the checkpoint in progress, or the service of a slot to a member, hold a version slot (R381, R391)? -/
def ckptHolds (s : State) (t slot : Nat) : Bool :=
  s.ckpt.cur.any (fun c => c.holds.any (fun h => !h.resid && h.key == t && h.part == slot)) ||
  s.ckpt.slotServe.any (fun v => v.tensor == t && v.slot == slot && framesOpen s v.port v.jslot v.midx v.seqs)

/-- Does it hold a residual parity of a flow context (R381)? -/
def ckptHoldsResid (s : State) (key parity : Nat) : Bool :=
  s.ckpt.cur.any (fun c => c.holds.any (fun h => h.resid && h.key == key && h.part == parity))

/-! Completing -/

/-- End CKPT_WRITE commands with these SEQs. -/
def finishWrites (s : State) (seqs : List (BitVec 32)) (status len body : Nat) : State :=
  seqs.foldl (fun s q =>
    match s.mb.long.find? (fun l => mOpcode l.m == 0x50 && BitVec.ofNat 32 (mSeq l.m) == q) with
    | none => s
    | some l => finish s l.m status len body) s

/-! Causes in the detail of CKPT_FAILED, an encoding of the model (log 13) -/
def cfABANDON : Nat := 0
def cfSPACE : Nat := 1
def cfTIMEOUT : Nat := 2
def cfUNREADABLE : Nat := 3

/-- Post CKPT_FAILED. -/
def postCkptFailed (s : State) (number buddy cause : Nat) : State :=
  logEvent s 0x0066 7 7 0 noLink (packFields [(number, 32), (buddy, 8), (cause, 8)])

/-- A checkpoint that found no space: nothing of it stays, and its commands, or the module, report it (R403). -/
def noSpace (s : State) (number : Nat) (seqs : List (BitVec 32)) : State :=
  let s := modCkpt { s with store := dropCopies s.store (isCopy true 0 number) } (fun c => { c with cur := none, sealJob := none })
  if seqs = [] then postCkptFailed s number 0 cfSPACE else finishWrites s seqs stEXHAUST 1 4

/-- A checkpoint with a record that has become unreadable before END is never complete (R402): it fails, and its commands report it (log 47). -/
def failCut (s : State) (number : Nat) (seqs : List (BitVec 32)) : State :=
  let s := modCkpt { s with store := dropCopies s.store (isCopy true 0 number) } (fun c => { c with cur := none, sealJob := none })
  let s := postCkptFailed s number 0 cfUNREADABLE
  finishWrites s seqs stFAULTED 4 (lastEntry s)

/-- Post CKPT_DONE and the completions when the local copy and the buddy copy are done (R384), with the C of the steps that have ended (log 47). -/
def finishCut (s : State) : State :=
  match s.ckpt.cur with
  | none => s
  | some c =>
    if !c.localDone || (c.budOn && c.out ≠ []) then s
    else
      let ms := s.ckpt.costMs
      let s := modCkpt s (fun k => { k with cur := none, lastC := some ms })
      let s := logEvent s 0x0065 7 7 0 noLink
        (packFields [(c.number, 32), (c.step, 32), (c.bytes, 32), (ms, 32), (ckptInterval s, 32)])
      finishWrites s c.seqs stOK 20 (packFields [(c.number, 32), (c.step, 32), (c.bytes, 64), (ms, 32)])

/-- The NAND channels, over all of which a record lies (R397). -/
def nandCells : List (Nat × Nat) := (List.range 16).map (fun ch => (4, ch))

/-- Charge the NAND channels for a record: 15 data codewords and their parity lie on the 16 channels (R397, R419). -/
def chargeNand (s : State) (act n : Nat) : State :=
  chargeCells s act nandCells (ceilDiv (ceilDiv n 64) 15)

/-- Charge n erases to the activity of refreshes (R420), one unit on each channel (DESIGN CHOICE, log 45). -/
def chargeErases (s : State) (n : Nat) : State := chargeCells s 5 nandCells n

/-- Take a store in which space has been made, and charge its erases. -/
def takeSpace (s : State) (st : Store) : State := { chargeErases s (totalErases st - totalErases s.store) with store := st }

/-- Write one record of the checkpoint in progress, and send it to the buddy (R385, R399, R400). -/
def writeOne (s : State) (kind tensor off ver : Nat) (payload : List Byte) (hold : Nat) : State :=
  match s.ckpt.cur with
  | none => s
  | some c =>
    let h : RecHdr :=
      { kind := kind, alive := c.alive, ckpt := c.number, index := c.index, src := srcId, plen := payload.length, step := c.step, tensor := tensor,
        offset := off, ver := ver }
    let bytes := mkRecord c.key h payload
    match storeRecord s.store s.clk.aon true 0 c.number bytes (kind == kEND) with
    | none => noSpace s c.number c.seqs
    | some st =>
      let s := storeWear (chargeNand { s with store := st } 4 bytes.length)
      let r := match s.ckpt.buddy with
        | some b => if c.budOn then sendBuddyAll s b.port b.jslot b.midx bDATA (if kind = kEND then bEND else bDATA) c.number 0 c.bytes bytes else ([], s)
        | none => ([], s)
      modCut r.2 (fun c =>
        { c with index := c.index + 1, alive := (c.alive + 1) % 256, bytes := c.bytes + bytes.length, out := c.out ++ r.1.map (fun q => (q, hold)) })

/-- The number that marks a record that belongs to no hold. -/
def noHold : Nat := 2 ^ 32

/-- Write bytes as records of one kind (R399). -/
def writeMany (s : State) (kind tensor ver : Nat) (placed : Bool) (data : List Byte) (hold : Nat) : State :=
  let cs := chunksOf maxPlen data
  (List.range cs.length).foldl (fun s i => writeOne s kind tensor (if placed then maxPlen * i else 0) ver (cs.getD i []) hold) s

/-- Copy one hold into the store (R381). -/
def writeHold (s : State) (h : Hold) : State :=
  match s.ckpt.cur with
  | none => s
  | some c =>
    let s :=
      if h.resid then
        let r := residRange s (h.key, h.part)
        let d := devRead (chargeDev s 4 4 r.1 r.2 false) r.1 r.2
        writeMany d.2 kRESID 0 0 true d.1.data h.id
      else
        let v := spGet .reset c.vt h.key
        let a := slotBase v h.part
        let d := devRead (chargeDev s 4 4 a v.size false) a v.size
        writeMany d.2 kSLOT h.key v.ver true d.1.data h.id
    modCut s (fun c => { c with holds := c.holds.map (fun x => if x.id = h.id then { x with loc := true } else x) })

/-- Release the holds that are durable locally and, while a buddy copy is being made, acknowledged (R381). -/
def settleHolds (s : State) : State :=
  modCut s (fun c => { c with holds := c.holds.filter (fun h => !(h.loc && (!c.budOn || !(c.out.any (fun o => o.2 == h.id))))) })

/-- Write END when every slot and residual has been copied (R402). -/
def writeEnd (s : State) : State :=
  match s.ckpt.cur with
  | none => s
  | some c =>
    if c.localDone || !(c.holds.all (fun h => h.loc)) then s
    else
      let recs := (s.store.copies.find? (isCopy true 0 c.number)).elim [] (fun k => k.recs)
      match acceptRecs none recs with
      | none => failCut s c.number c.seqs
      | some rs => modCut (writeOne s kEND 0 0 0 (endPayload rs) noHold) (fun c => { c with localDone := true })

/-- Append the SEAL record once its value is known and END is written (R389, Table 14-3). -/
def writeSeal (s : State) : State :=
  match s.ckpt.sealJob with
  | none => s
  | some j => match j.payload, s.store.copies.find? (isCopy true 0 j.number) with
    | some pl, some k =>
      if !k.end_ then s
      else
        let s := modCkpt s (fun c => { c with sealJob := none })
        match k.recs.getLast?.bind (fun r => recHdr r.bytes) with
        | none => s
        | some last =>
          let h : RecHdr :=
            { kind := kSEAL, alive := (last.alive + 1) % 256, ckpt := j.number, index := last.index + 1, src := srcId, plen := pl.length, step := j.step,
              tensor := 0, offset := 0, ver := 0 }
          let bytes := mkRecord j.key h pl
          let off := k.recs.foldl (fun n r => n + r.bytes.length) 0
          match storeRecord s.store s.clk.aon true 0 j.number bytes false with
          | none => s
          | some st =>
            let s := chargeNand { s with store := st } 4 bytes.length
            match s.ckpt.buddy with
            | some b => (sendBuddyAll s b.port b.jslot b.midx bDATA bDATA j.number 0 off bytes).2
            | none => s
    | _, _ => s

/-- Move the checkpoint in progress on. -/
def advanceCkpt (s : State) : State := finishCut (writeSeal (writeEnd (settleHolds s)))

/-! The cut -/

/-- The manifest of a cut. -/
def cutManifest (s : State) : Manifest :=
  { slots := s.train.vt.filterMap (fun e => if e.2.valid then some (e.1, e.2.cur, e.2.ver, e.2.size) else none)
    resids := (residParities s).map (residRange s)
    regions := s.ckpt.policy.regions }

/-- META of a cut: the VALID tensors and groups, the records, the monitors, the member sets. -/
def cutMeta (s : State) : MetaData :=
  { step := stateStep s, vt := s.train.vt.filter (fun e => e.2.valid), groups := s.train.groups.filter (fun e => e.2.valid), recs := s.train.recs, mons := s.train.mons,
    sets := memberSets s }

/-- Bytes that a stream of `n` payload bytes takes in records, at most. -/
def spaceOf (n : Nat) : Nat := n + 8192 * (pieceCount n + 1)

/-- Record space that the checkpoint needs. A block holds at least 5 MiB of records before it is closed. -/
def cutSpace (m : Manifest) (metaLen : Nat) : Nat :=
  let sum (l : List Nat) : Nat := l.foldl (fun a n => a + spaceOf n) 0
  let n := sum (m.slots.map (fun x => x.2.2.2)) + sum (m.resids.map (fun x => x.2)) + sum (m.regions.map (fun x => x.2)) + spaceOf metaLen +
    spaceOf (68 + 16 * (m.slots.length + m.resids.length + m.regions.length)) + spaceOf 68
  ceilDiv n 5242880 * eraseBytes

/-- The cut (R380): the records are taken, every slot and residual that they name is held (R381), and MANIFEST, META and the policy regions are
written. `entry` is the checkpoint of an SL3 entry (R434). -/
def makeCut (s : State) (entry : Bool) : State :=
  let seqs := s.ckpt.nowSeqs ++ s.ckpt.waitSeqs
  match s.su.ckey with
  | none => finishWrites (modCkpt s (fun c => { c with nowSeqs := [], waitSeqs := [] })) seqs stEXHAUST 1 3
  | some key =>
    let s := modCkpt s (fun c => { c with nowSeqs := [], waitSeqs := [] })
    let n := s.ckpt.counter
    let man := cutManifest s
    let metaL := (cutMeta s).bytes
    match (if s.store.ready then makeSpace s.store (cutSpace man metaL.length) (copyBusy s) else none) with
    | none => noSpace s n seqs
    | some st =>
      let d := drawFree 0 255 (takeSpace s st)
      let s := d.2
      let slots := man.slots.map (fun x => (false, x.1, x.2.1))
      let hs := slots ++ (residParities s).map (fun r => (true, r.1, r.2))
      let holds := (List.range hs.length).map (fun i => let x := hs.getD i (false, 0, 0); (⟨i, x.1, x.2.1, x.2.2, false⟩ : Hold))
      let cut : Cut :=
        { number := n, step := stateStep s, vt := s.train.vt, resids := residParities s, holds := holds, key := key, index := 0,
          alive := d.1, bytes := 0, localDone := false, budOn := s.ckpt.buddy.isSome, out := [], seqs := seqs, entry := entry }
      let job : SealJob := ⟨n, cut.step, sha512 (memberSets s), key, none⟩
      let s := modCkpt s (fun c =>
        { c with cur := some cut, counter := (n + 1) % 2 ^ 32, lastCut := some (hubSec s), median := medianOf c.durs, cost := 0, covered := false
                 sealJob := if c.policy.lossV then some job else none })
      let s := writeMany s kMANIFEST 0 0 false (man.bytes (chunksOf maxPlen metaL).length) noHold
      let s := writeMany s kMETA 0 0 false metaL noHold
      let s := man.regions.foldl (fun s r =>
        let x := devRead (chargeDev s 4 4 r.1 r.2 false) r.1 r.2
        writeMany x.2 kREGION 0 0 true x.1.data noHold) s
      advanceCkpt s

end Sys2Proof.Machine
end

