-- ==== Sys2Proof/Machine/Command.lean ====
section
/-! DEFINITION. The 32-byte consist command (06): header (Table 6-1), scratchpad references (Table 6-3), descriptors (Tables 10-4 to 10-7).
A command is the number of its 256 bits. -/

namespace Sys2Proof.Machine

def cOp (c : Nat) : Nat := natBits c 0 8
def cQueue (c : Nat) : Nat := natBits c 8 3
def cStream (c : Nat) : Nat := natBits c 11 1
def cPred (c : Nat) : Nat := natBits c 12 2
def cPcmp (c : Nat) : Nat := natBits c 14 3
def cAnchor (c : Nat) : Bool := natBits c 17 1 == 1
def cPbase (c : Nat) : Nat := natBits c 18 8
def cCx (c : Nat) : Nat := natBits c 26 6
def cOffset (c : Nat) : Nat := natBits c 32 32

/-- A scratchpad reference (Table 6-3). -/
structure SRef where
  addr : Nat
  chk : Bool
  tag : Nat
  fmt : Nat
  prmEn : Bool
  prmx : Nat
  lstride : Nat
  mode : Nat
  deriving DecidableEq, Repr

/-- Slot k of a command (R149). -/
def sref (c k : Nat) : SRef :=
  let x := natBits c (64 + 48 * k) 48
  ⟨natBits x 0 16, natBits x 16 1 == 1, natBits x 17 4, natBits x 21 4, natBits x 25 1 == 1, natBits x 26 8, natBits x 34 10,
    natBits x 44 4⟩

/-- The bits of a slot. -/
def srefBits (c k : Nat) : Nat := natBits c (64 + 48 * k) 48

/-- SAT of a destination (Table 6-3). -/
def SRef.sat (r : SRef) : Bool := decide (8 ≤ r.mode)

/-- RMODE of a destination. -/
def SRef.rmode (r : SRef) : Nat := r.mode % 8

/-! Opcodes of Table 6-2 -/
def oPASS : Nat := 0x10
def oDRAIN : Nat := 0x11
def oLOAD : Nat := 0x12
def oSAVE : Nat := 0x13
def oSURVEY : Nat := 0x14
def oFMA : Nat := 0x20
def oFN : Nat := 0x21
def oDFN : Nat := 0x22
def oCVT : Nat := 0x23
def oOPT : Nat := 0x24
def oRED : Nat := 0x25
def oNORMF : Nat := 0x30
def oNORMB : Nat := 0x31
def oSMAXF : Nat := 0x32
def oSMAXB : Nat := 0x33
def oTOPK : Nat := 0x34
def oTRVGO : Nat := 0x40
def oTRVWAIT : Nat := 0x41
def oFSET : Nat := 0x50
def oFWAIT : Nat := 0x51
def oFCLR : Nat := 0x52
def oCSET : Nat := 0x60
def oCADD : Nat := 0x61
def oCLOOP : Nat := 0x62
def oCMP : Nat := 0x68
def oPMOV : Nat := 0x70
def oPADD : Nat := 0x71
def oDATUM : Nat := 0x80
def oLOSS : Nat := 0x81
def oHOLD : Nat := 0x82
def oDROP : Nat := 0x83
def oREADY : Nat := 0x84
def oSYNC : Nat := 0x85

/-- Does the sequencer execute the command itself (place 7)? -/
def isSeqOp (o : Nat) : Bool := o == 0x60 || o == 0x61 || o == 0x62 || o == 0x68 || o == 0x70 || o == 0x71 || o == 0x80 || o == 0x85

/-- Is the opcode listed in Table 6-2? -/
def isOpcode (o : Nat) : Bool :=
  (decide (0x10 ≤ o) && decide (o ≤ 0x14)) || (decide (0x20 ≤ o) && decide (o ≤ 0x25)) || (decide (0x30 ≤ o) && decide (o ≤ 0x34)) ||
  o == 0x40 || o == 0x41 || (decide (0x50 ≤ o) && decide (o ≤ 0x52)) || isSeqOp o || (decide (0x81 ≤ o) && decide (o ≤ 0x84))

/-- OPX.PASS body (Table 6-6). -/
def passK (c : Nat) : Nat := natBits c 160 24
def passBank (c : Nat) : Bool := natBits c 184 1 == 1
def passBseq (c : Nat) : Bool := natBits c 185 1 == 1
def passClear (c : Nat) : Bool := natBits c 186 1 == 1
def passAscale (c : Nat) : Nat := natBits c 192 16
def passBscale (c : Nat) : Nat := natBits c 208 16

/-- OPX.DRAIN body (Table 6-7). -/
def drainStatus (c : Nat) : Nat := natBits c 160 16
def drainBank (c : Nat) : Bool := natBits c 176 1 == 1
def drainToVec (c : Nat) : Bool := natBits c 177 1 == 1
def drainLoadEn (c : Nat) : Bool := natBits c 178 1 == 1

/-- OPX.LOAD, OPX.SAVE and OPX.SURVEY (Table 6-8). -/
def convBank (c : Nat) : Bool := natBits c 160 1 == 1
def loadImage (c : Nat) : Bool := natBits c 161 1 == 1

/-- TRV.GO (Table 6-13). -/
def trvDir (c : Nat) : Nat := natBits c 160 2
def trvTicket (c : Nat) : Nat := natBits c 162 6
def trvDslots (c : Nat) : Nat := natBits (cCx c) 0 3
def waitTicket (c : Nat) : Nat := natBits c 64 6

/-- Flag commands (Table 6-14). -/
def flFlag (c : Nat) : Nat := natBits c 64 10
def flSect (c : Nat) : Bool := natBits c 74 1 == 1
def flInc (c : Nat) : Nat := natBits c 80 8
def flThresh (c : Nat) : Nat := natBits c 96 16

/-- Control commands (Table 6-16). -/
def datumStep (c : Nat) : Bool := natBits c 64 1 == 1
def lossMon (c : Nat) : Nat := natBits c 160 4
def holdTensor (c : Nat) : Nat := natBits c 64 16
def holdHandle (c : Nat) : Nat := natBits c 80 3
def readyGroup (c : Nat) : Nat := natBits c 64 16
def readyNew (c : Nat) : Nat := natBits c 80 2

/-- The slots that a command reads as sources (Tables 6-9, 6-12; R153 to R157, R168, R173). -/
def sourceSlots (c : Nat) : List Nat :=
  let o := cOp c
  if o = oPASS then [0, 1]
  else if o = oDRAIN then (if drainLoadEn c then [1] else [])
  else if o = oLOAD then [0]
  else if o = oFMA then [0, 1, 2]
  else if o = oFN ∨ o = oDFN ∨ o = oCVT ∨ o = oRED then [0, 1]
  else if o = oOPT then [0, 1, 2, 3]
  else if o = oNORMF ∨ o = oNORMB then [0, 1, 2]
  else if o = oSMAXF ∨ o = oTOPK ∨ o = oLOSS then [0]
  else if o = oSMAXB then [0, 1]
  else if o = oTRVGO then (if trvDir c = 1 then [0] else [])
  else []

/-- Has the command a source with TAGCHK = 1 (R136)? -/
def hasTagged (c : Nat) : Bool := (sourceSlots c).any (fun k => (sref c k).chk)

/-- Descriptor slot 0 (Table 10-4). -/
structure Desc0 where
  base : Nat
  mfmt : Nat
  ndim : Nat
  prmEn : Bool
  prmx : Nat
  vsel : Nat
  tensor : Nat
  varg : Nat
  tt : Bool
  rmode : Nat
  sat : Bool
  rtagEn : Bool
  rtag : Nat
  deriving DecidableEq, Repr

/-- Read slot 0. -/
def desc0 (d : Nat) : Desc0 :=
  ⟨natBits d 0 48, natBits d 48 4, natBits d 52 3, natBits d 55 1 == 1, natBits d 56 8, natBits d 64 2, natBits d 66 13, natBits d 79 3,
    natBits d 82 1 == 1, natBits d 83 3, natBits d 86 1 == 1, natBits d 87 1 == 1, natBits d 88 4⟩

/-- A dimension (Table 10-7): count and signed stride. -/
def dimOf (x : Nat) : Nat × Int := (natBits x 0 24 + 1, signed 40 (natBits x 24 40))

/-- The dimensions of a descriptor, innermost first (Tables 10-4, 10-5). -/
def descDims (ds : List Nat) : List (Nat × Int) :=
  let d0 := listGet 0 ds 0
  let d1 := listGet 0 ds 1
  let all := [natBits d0 128 64, natBits d0 192 64, natBits d1 0 64, natBits d1 64 64, natBits d1 128 64, natBits d1 192 64]
  (all.take (desc0 d0).ndim).map dimOf

/-- The option slots of a descriptor (Table 10-6). -/
def descOptions (ds : List Nat) : List Nat := if 3 ≤ (desc0 (listGet 0 ds 0)).ndim then ds.drop 2 else ds.drop 1

/-- The option slot of a kind. -/
def descOpt (ds : List Nat) (kind : Nat) : Option Nat := (descOptions ds).find? (fun x => natBits x 0 4 == kind)

end Sys2Proof.Machine
end

