-- ==== Sys2Proof/Machine/Sequencer.lean ====
section
/-! DEFINITION. Queues, dispatch, frames and anchors of a cluster's sequencer (R118 to R123, R136), and the operations that every
engine's commands share: enabling, retiring, the slip record (Table 5-5), stops. -/

namespace Sys2Proof.Machine

/-- Queue q of a cluster (Table 6-1: 0 OPX, 1 VEC, 2 ROW, 3-6 TRV0-TRV3). -/
def queueOf (c : Cluster) (q : Nat) : List QEntry :=
  match q with
  | 0 => c.seq.q0 | 1 => c.seq.q1 | 2 => c.seq.q2 | 3 => c.seq.q3 | 4 => c.seq.q4 | 5 => c.seq.q5 | 6 => c.seq.q6 | _ => []

/-- Replace queue q. -/
def setQueue (c : Cluster) (q : Nat) (l : List QEntry) : Cluster :=
  match q with
  | 0 => { c with seq := { c.seq with q0 := l } }
  | 1 => { c with seq := { c.seq with q1 := l } }
  | 2 => { c with seq := { c.seq with q2 := l } }
  | 3 => { c with seq := { c.seq with q3 := l } }
  | 4 => { c with seq := { c.seq with q4 := l } }
  | 5 => { c with seq := { c.seq with q5 := l } }
  | 6 => { c with seq := { c.seq with q6 := l } }
  | _ => c

/-- Traverse engine e. -/
def trvOf (c : Cluster) (e : Nat) : TrvEngine :=
  match e with
  | 0 => c.t0 | 1 => c.t1 | 2 => c.t2 | _ => c.t3

/-- Change a traverse engine. -/
def modTrv (c : Cluster) (e : Nat) (f : TrvEngine → TrvEngine) : Cluster :=
  match e with
  | 0 => { c with t0 := f c.t0 }
  | 1 => { c with t1 := f c.t1 }
  | 2 => { c with t2 := f c.t2 }
  | _ => { c with t3 := f c.t3 }

/-- Stream 0 or 1. -/
def streamOf (c : Cluster) (k : Nat) : Stream := if k = 0 then c.seq.st0 else c.seq.st1

/-- Change a stream. -/
def modStream (c : Cluster) (k : Nat) (f : Stream → Stream) : Cluster :=
  if k = 0 then { c with seq := { c.seq with st0 := f c.seq.st0 } } else { c with seq := { c.seq with st1 := f c.seq.st1 } }

/-- Commands in flight (R118): in a queue, or issued and not retired. -/
def inFlight (c : Cluster) : Nat :=
  c.seq.q0.length + c.seq.q1.length + c.seq.q2.length + c.seq.q3.length + c.seq.q4.length + c.seq.q5.length + c.seq.q6.length +
  c.t0.flight.length + c.t1.flight.length + c.t2.flight.length + c.t3.flight.length + c.opx.conv.length + c.opx.convWait.length +
  (b2n c.opx.open0.isSome + b2n c.opx.open1.isSome + c.opx.flagWait.length)

/-- Has every command dispatched so far retired (R130, R141)? -/
def quiet (c : Cluster) : Bool := inFlight c == 0

/-- Command i of the sequencer memory (Table 5-2). -/
def fetchCmd (c : Cluster) (i : Nat) : Nat := memLe c.mem.seqm (32 * i) 32

/-- The 32-byte slots i, i + 1, … (R168). -/
def fetchSlots (c : Cluster) (i : Nat) : Nat → List Nat
  | 0 => []
  | n + 1 => fetchCmd c i :: fetchSlots c (i + 1) n

/-- Does the predicate of a command hold (R123)? -/
def predHolds (c : Cluster) (raw : Nat) : Bool :=
  let v := natBits c.seq.cmp (cPcmp raw) 1 == 1
  if cPred raw = 0 then true else if cPred raw = 1 then v else !v

/-- Is the cluster at work: RUNNING, mapped, of the consist, not stopped, not paused? Its conveyor then shifts, unless a clamp freezes it. -/
def atWork (s : State) (lc : Nat) : Bool :=
  let c := cluster s lc
  s.op == .running && (lcEntry s lc).mapped && c.inConsist && c.seq.stop.isNone && !c.pausedOk

/-- Does the cluster run: at work, not pausing, and no hold stops issue from its sequencer and queues (R70)? -/
def running (s : State) (lc : Nat) : Bool :=
  let c := cluster s lc
  atWork s lc && !c.pausing && c.opx.hold == 0

/-- Is the barrier group of a cluster halted (R132)? -/
def groupHalted (s : State) (lc : Nat) : Bool := setHas (sectionOf s (secOf lc)).haltedGroups (cluster s lc).seq.hdr.bgroup

/-- Do the cluster's queues issue: it runs, and its barrier group is not halted (R132)? -/
def issuing (s : State) (lc : Nat) : Bool := running s lc && !(groupHalted s lc)

/-- Do the cluster's queues issue in cycle cyc? Those of a cluster that a slip has stopped issue up to the cycle after the one of its detection (R135
step 2). -/
def issuingAt (s : State) (lc cyc : Nat) : Bool :=
  let c := cluster s lc
  issuing s lc ||
    (s.op == .running && c.inConsist && c.seq.stop == some .slip && decide (cyc ≤ c.seq.lastIssue) && !c.pausing && !c.pausedOk && c.opx.hold == 0 &&
      !(groupHalted s lc))

/-- Has a slip stopped the cluster, so that what has issued still takes effect (R135 steps 2 and 3)? -/
def slipping (s : State) (lc : Nat) : Bool :=
  let c := cluster s lc
  s.op == .running && (lcEntry s lc).mapped && c.inConsist && c.seq.stop == some .slip && !c.pausedOk

/-- OPX_STAT.HOLD (Table 3-13): a clamp while its hold lasts, else the survey, else the hold of a pause, whose work is save and restore. -/
def holdCode (c : Cluster) : Nat :=
  if c.opx.clampRows || c.opx.clampRamp then 1 else if c.opx.survey.isSome then 2 else if c.pausing || c.pausedOk then 3 else 0

/-- Bring HOLD up to date. -/
def setHold (c : Cluster) : Cluster := { c with opx := { c.opx with hold := holdCode c } }

/-- The issue-cycle count at a boundary, as far as what has issued tells (R70): after the latest command and the latest wavefront. -/
def issueCount (c : Cluster) : Nat :=
  let f (w : Option Nat) : Nat := match w with
    | some t => t + 1
    | none => 0
  max (c.seq.icyc + 1) (max (f c.opx.wave0) (f c.opx.wave1))

/-- Count one execution of a command index in the interval (R129, R220); a command whose predicate fails is not executed. -/
def occOf (c : Cluster) (idx : Nat) : Nat := spGet 0 c.log.occs idx + 1

/-- Dispatch one queued command at the dispatch index (R118, R119, R120, R136). -/
def dispatchOne (s : State) (lc : Nat) (raw : Nat) : State :=
  let c := cluster s lc
  let o := cOp raw
  let n := if o = oTRVGO then trvDslots raw else 0
  let live := predHolds c raw
  let k := cStream raw
  -- conservative timing: the anchor advances by G before a tagged command (R136)
  let c := if c.log.conservative && hasTagged raw then modStream c k (fun t => { t with adv := t.adv + c.log.gForce }) else c
  let t := streamOf c k
  let e : QEntry :=
    { idx := c.seq.pc, raw := raw, desc := fetchSlots c (c.seq.pc + 1) n, live := live, prm := prmSnap s lc, frame := t.no, adv := t.adv,
      occ := if live then occOf c c.seq.pc else 0, ord := c.seq.ord }
  let c := if live then { c with log := { c.log with occs := spSet 0 c.log.occs c.seq.pc (occOf c c.seq.pc) } } else c
  let c := setQueue c (cQueue raw) (queueOf c (cQueue raw) ++ [e])
  -- an anchoring wait ends its frame in program order
  let c := if o = oFWAIT && cAnchor raw then modStream c k (fun t => { t with no := t.no + 1, adv := 0 }) else c
  setCluster s lc { c with seq := { c.seq with pc := c.seq.pc + 1 + n, ord := c.seq.ord + 1 } }

/-- Fetch runs ahead until the buffer of eight slots is full (R118): the lines of slots pc … pc + 7 that it has not read, up to the end of the part (log 39);
every read checks the code (R234). An uncorrectable line stops the cluster. -/
def fetchLines (s : State) (lc : Nat) : State :=
  let c := cluster s lc
  let lo := max (c.seq.pc / 2) c.seq.line
  let hi := min (c.seq.pc / 2 + 4) (ceilDiv c.seq.hdr.cmdN 2)
  let ls := rangeFrom lo (hi - lo)
  let s := modCluster s lc (fun c =>
    { c with mem := ls.foldl (fun m w => (eccRead m 2 w allGran).1) c.mem, seq := { c.seq with line := max lo hi } })
  if ls.any (wordUe c.mem 2) then stopCluster s lc .seqMemory else s

/-- Run-ahead dispatch (R118): queued commands are dispatched in program order until a command that the sequencer executes itself, a
full queue, 2,048 commands in flight, or the end of the part. -/
def dispatchN : Nat → State → Nat → State
  | 0, s, _ => s
  | f + 1, s, lc =>
    let c := cluster s lc
    if !(running s lc) || c.seq.wait ≠ .run then s
    else if c.seq.hdr.cmdN ≤ c.seq.pc then setCluster s lc { c with seq := { c.seq with wait := .done } }
    else
      let raw := fetchCmd c c.seq.pc
      let s := fetchLines s lc
      if (cluster s lc).seq.stop.isSome || isSeqOp (cOp raw) then s
      else if 512 ≤ (queueOf c (cQueue raw)).length ∨ 2048 ≤ inFlight c then s
      else dispatchN f (dispatchOne s lc raw) lc

/-- Dispatch as far as it goes. No more than 2,048 commands can be in flight. -/
def dispatch (s : State) (lc : Nat) : State := dispatchN 2049 s lc

/-- Change a cluster and let its sequencer run on. -/
def advance (s : State) (lc : Nat) (f : Cluster → Cluster) : State := dispatch (modCluster s lc f) lc

/-- The opened anchor of a frame of stream k. -/
def anchorOf (c : Cluster) (k no : Nat) : Option Nat :=
  let v := spGet 0 (streamOf c k).anchors no
  if v = 0 then none else some (v - 1)

/-- F of an entry: the anchor of its frame as it stands for it, advanced by loops and guard cycles (R120, R136). -/
def frameF (c : Cluster) (e : QEntry) : Option Nat := (anchorOf c (cStream e.raw) e.frame).map (fun f => f + e.adv)

/-- Due cycle F + OFFSET. -/
def dueOf (c : Cluster) (e : QEntry) : Option Nat := (frameF c e).map (fun f => f + cOffset e.raw)

/-- Open a frame with anchor F. -/
def openFrame (c : Cluster) (k no F : Nat) : Cluster := modStream c k (fun t => { t with anchors := spSet 0 t.anchors no (F + 1) })

/-- Open new frames of both streams with anchor F, after a DATUM or SYNC (R120). -/
def openBoth (c : Cluster) (F : Nat) : Cluster :=
  let f (t : Stream) : Stream := { no := t.no + 1, adv := 0, anchors := [(t.no + 1, F + 1)] }
  { c with seq := { c.seq with st0 := f c.seq.st0, st1 := f c.seq.st1 } }

/-- The issue-cycle count has reached at least cyc. -/
def atCycle (c : Cluster) (cyc : Nat) : Cluster := { c with seq := { c.seq with icyc := max c.seq.icyc cyc } }

/-- The head that a code names: 0 to 7 the head of that queue, 8 the first stream-1 entry of the OPX queue, whose two streams are
independent (R138). -/
def headAt (c : Cluster) (w : Nat) : Option QEntry :=
  if w = 0 then c.seq.q0.find? (fun e => cStream e.raw == 0)
  else if w = 8 then c.seq.q0.find? (fun e => cStream e.raw == 1)
  else (queueOf c w).head?

/-- Code of an entry at the head of queue q. -/
def headCode (q : Nat) (e : QEntry) : Nat := if q = 0 ∧ cStream e.raw = 1 then 8 else q

/-- The codes of a queue's heads. -/
def headCodes (q : Nat) : List Nat := if q = 0 then [0, 8] else [q]

/-- The head of queue q that satisfies `p`, when the queue issues in cycle cyc. -/
def pick (s : State) (lc q cyc : Nat) (p : QEntry → Bool) : Option QEntry :=
  if !(issuingAt s lc cyc) then none else ((headCodes q).filterMap (headAt (cluster s lc))).find? p

/-- Drop an entry from queue q. -/
def dropEntry (c : Cluster) (q : Nat) (e : QEntry) : Cluster := setQueue c q ((queueOf c q).erase e)

/-- An entry leaves its queue; the sequencer runs on. -/
def retire (s : State) (lc q : Nat) (e : QEntry) : State := advance s lc (fun c => dropEntry c q e)

/-- Has every earlier command of queue q retired and been acknowledged (R127)? Traverses of its engine, passes, conveyor operations and flag commands
retire after they leave their queue. -/
def queueDone (c : Cluster) (q : Nat) (e : QEntry) : Bool :=
  let later (n : Nat) : Bool := decide (e.ord ≤ n)
  let pass (x : Option OpenPass) : Bool := match x with
    | some x => later x.e.ord
    | none => true
  (queueOf c q).all (fun x => later x.ord) &&
  (if q = 0 then
     c.opx.conv.all (fun k => later k.ord) && c.opx.convWait.all (fun x => later x.ord) && pass c.opx.open0 && pass c.opx.open1 &&
     c.opx.flagWait.all (fun x => later x.ord)
   else if 3 ≤ q then (trvOf c (q - 3)).flight.all (fun t => later t.e.ord) else true)

/-- A head command of VEC, ROW or a TRV queue may issue in cycle cyc (R122): its frame is open, it is due, its predicate is known. -/
def readyAt (c : Cluster) (e : QEntry) (cyc : Nat) : Bool :=
  match dueOf c e with
  | some d => decide (d ≤ cyc)
  | none => false

/-- Parameter register n as the command captured it. -/
def ePrm (e : QEntry) (n : Nat) : Nat := spGet 0 e.prm n

/-! Slips -/

/-- What a slip record names beyond the command (Table 5-5). -/
structure SlipInfo where
  cause : Nat
  x : Nat
  exp : Nat
  found : Nat
  addr : Nat
  group : Nat
  deriving DecidableEq, Repr

/-- Slip causes of Table 5-4. -/
def slipTag (found exp : Nat) : Nat :=
  let d := (found + 16 - exp % 16) % 16
  if d = 8 then 2 else if d < 8 then 1 else 0

/-- The slip record (Table 5-5). -/
def slipRecord (c : Cluster) (lc q : Nat) (e : QEntry) (i : SlipInfo) (step : Nat) : Nat :=
  let off := match frameF c e with
    | some f => (i.x + 2 ^ 32 - f % 2 ^ 32) % 2 ^ 32
    | none => 0
  packFields [(lc, 8), (q, 3), (cStream e.raw, 1), (i.cause, 4), (e.idx, 14), (min c.log.replays 3, 2), (i.exp, 4), (i.found, 4),
    (c.log.gForce, 7), (b2n c.log.conservative, 1), (step, 24), (0, 24), (off, 32), (i.x, 64), (i.addr, 22), (i.group, 2), (0, 40)]

/-- The cluster stops, remembering when and the entry that says why. -/
def stopWith (s : State) (lc : Nat) (why : StopCause) : State :=
  let at_ := s.clk.aon
  modCluster s lc (fun c =>
    if c.seq.stop.isSome then c
    else { c with seq := { c.seq with stop := some why, stopAt := at_ }, log := { c.log with faultIdx := lastEntry s } })

/-- Raise SCHEDULE_SLIP (R135 steps 2 and 4): the record goes to the fault log and the event ring as a program defect and the cluster
stops: dispatch at once, its queues after the cycle that follows x. The response is CLUSTER_REPLAY's, by R136 and R137; a slip met in those cycles adds
its record and no second response. -/
def raiseSlip (s : State) (lc q : Nat) (e : QEntry) (i : SlipInfo) : State :=
  let c := cluster s lc
  let s := logEvent s 0x0002 4 0 lc (repeatLink c c.log.slips) (slipRecord c lc q e i (prmGet s lc 248))
  if c.seq.stop.isSome then s
  else stopWith (modCluster s lc (fun c => { c with
    seq := { c.seq with lastIssue := i.x + 1 }, log := { c.log with slips := c.log.slips + 1 } })) lc .slip

/-- Add poisoned words that a command consumed to POISON_N (Table 13-5). -/
def consumePoison (c : Cluster) (n : Nat) : Cluster := { c with log := { c.log with poisonN := satAdd 32 c.log.poisonN n } }

/-- The unmapped logical clusters whose windows some addresses name (R33). -/
def unmappedLcs (s : State) (as : List Nat) : List Nat :=
  as.foldl (fun l a => match locate a with
    | .window lc _ => if (lcEntry s lc).mapped then l else setAdd l lc
    | _ => l) []

/-- PROGRAM_DEFECT entries of R33: one for each unmapped cluster addressed, with the command index. A bound window lies in one memory of one
cluster (R23), so the lowest address of each box tells. -/
def noteUnmapped (s : State) (lc idx : Nat) (as : List Nat) : State :=
  (unmappedLcs s as).foldl (fun s x => logDefect s lc [(x, 8), (idx, 14)]) s

/-! Writes of a cluster's own commands -/

/-- One piece that a command writes: scratchpad address inside one word, bytes, poison. -/
structure SpPiece where
  addr : Nat
  data : List Byte
  poison : Bool
  deriving DecidableEq, Repr

/-- Cut bytes at a scratchpad address into pieces; `pz` gives the poison of the byte at an offset of the list. -/
def spPieces (addr : Nat) (l : List Byte) (pz : Nat → Bool) : List SpPiece :=
  (pieces addr l.length).map (fun p =>
    { addr := p.1, data := (l.drop (p.1 - addr)).take p.2, poison := (rangeFrom (p.1 - addr) p.2).any pz })

/-- The first piece that would land in a region whose inbound bit is set (R143). -/
def inboundHit (c : Cluster) (ps : List SpPiece) : Option SpPiece :=
  ps.find? (fun p => !(inSaveArea c.opx.saveBase p.addr) && setHas c.log.inbound (p.addr / 1024))

/-- Write the pieces with a tag and mark their regions in the own map (R133, R143, R235). -/
def spWriteAll (c : Cluster) (ps : List SpPiece) (tag : Nat) : Cluster :=
  ps.foldl (fun c p =>
    { c with
      mem := spWriteUnit c.mem p.addr p.data p.poison tag
      log := if inSaveArea c.opx.saveBase p.addr then c.log else { c.log with own := setAdd c.log.own (p.addr / 1024) } }) c

end Sys2Proof.Machine
end

