-- ==== Sys2Proof/Machine/Flags.lean ====
section
/-! DEFINITION. Flag computations: local and section flags with their waiters (R127 to R129), and the flags of a tile status (Table 3-6)
with the carried flags of R184. -/

namespace Sys2Proof.Machine

/-- Count of a section flag. -/
def sfGet (s : State) (sec f : Nat) : Nat := spGet 0 (sectionOf s sec).sf f

/-- Count of a local flag. -/
def lfGet (s : State) (lc f : Nat) : Nat := spGet 0 (cluster s lc).seq.lf f

/-- The count that a flag command of cluster lc names. -/
def flagCount (s : State) (lc raw : Nat) : Nat := if flSect raw then sfGet s (secOf lc) (flFlag raw) else lfGet s lc (flFlag raw)

/-- Decide the releases of one cluster's waiters on a flag whose count is `n` (R127): those whose threshold it meets are granted. -/
def grantCluster (c : Cluster) (sect : Bool) (f n : Nat) : Cluster :=
  let met (q : Nat) : Bool :=
    match headAt c q with
    | some e => flSect e.raw == sect && flFlag e.raw == f && decide (flThresh e.raw ≤ n)
    | none => false
  { c with log := { c.log with grant := setAddAll c.log.grant (c.log.waiting.filter met) } }

/-- The clusters of a section that hold state. -/
def sectionLcs (s : State) (sec : Nat) : List Nat := (s.cl.map (fun e => e.1)).filter (fun lc => secOf lc == sec)

/-- Decide the releases of a section flag's waiters. -/
def grantSection (s : State) (sec f : Nat) : State :=
  (sectionLcs s sec).foldl (fun s lc => modCluster s lc (fun c => grantCluster c true f (sfGet s sec f))) s

/-- Add to a section flag; the count saturates at 65,535 (R127). -/
def sfAdd (s : State) (sec f inc : Nat) : State :=
  grantSection (modSection s sec (fun k => { k with sf := spSet 0 k.sf f (min 65535 (spGet 0 k.sf f + inc)) })) sec f

/-- Clear a section flag. -/
def sfClear (s : State) (sec f : Nat) : State := modSection s sec (fun k => { k with sf := spDel k.sf f })

/-- Add to a local flag. -/
def lfAdd (s : State) (lc f inc : Nat) : State :=
  let n := min 65535 (lfGet s lc f + inc)
  modCluster s lc (fun c => grantCluster { c with seq := { c.seq with lf := spSet 0 c.seq.lf f n } } false f n)

/-- The waiters of some clusters whose release has been decided: (logical cluster, head code). -/
def grantsOf (s : State) (lcs : List Nat) : List (Nat × Nat) := lcs.flatMap (fun lc => (cluster s lc).log.grant.map (fun w => (lc, w)))

/-- Enter a set in the record of its cycle (R128): the cluster's sets of other cycles go, those of other clusters stand. -/
def noteSet (l : List FlagNow) (x : FlagNow) : List FlagNow :=
  let now := l.filter (fun y => y.lc != x.lc || y.cyc == x.cyc)
  let same (y : FlagNow) : Bool := y.flag == x.flag && y.lc == x.lc
  match now.find? same with
  | some y => now.filter (fun z => !(same z)) ++ [{ y with sum := y.sum + x.sum, granted := y.granted ++ x.granted }]
  | none => now ++ [x]

/-- The set of a flag by cluster lc in issue cycle cyc, if there was one (R128). -/
def setNow (l : List FlagNow) (f lc cyc : Nat) : Option FlagNow := l.find? (fun y => y.flag == f && y.lc == lc && y.cyc == cyc)

/-- Take back the releases that a count of `n` does not support: waiters see the result of a cycle (R128). -/
def ungrant (s : State) (n : Nat) (l : List (Nat × Nat)) : State :=
  l.foldl (fun s g => modCluster s g.1 (fun c => match headAt c g.2 with
    | some e => if n < flThresh e.raw then { c with log := { c.log with grant := setDel c.log.grant g.2, grantAt := spDel c.log.grantAt g.2 } } else c
    | none => c)) s

/-- The cycles in which some waiters of cluster lc may be released (R127), from lo to hi. -/
def grantIn (s : State) (lc lo hi : Nat) (l : List (Nat × Nat)) : State :=
  l.foldl (fun s g => if g.1 = lc then
    modCluster s lc (fun c => { c with log := { c.log with grantAt := spSet (0, 0) c.log.grantAt g.2 (lo, hi) } }) else s) s

/-- FLG.SET of a section flag by cluster lc in issue cycle cyc (R127, R128). A waiter of the cluster itself is released in one of the 12 cycles that follow;
those of other clusters count issue cycles of their own. -/
def sfSetAt (s : State) (lc cyc f inc : Nat) : State :=
  let old := grantsOf s (sectionLcs s (secOf lc))
  let s := sfAdd s (secOf lc) f inc
  let new := (grantsOf s (sectionLcs s (secOf lc))).filter (fun g => !(old.contains g))
  let s := grantIn s lc (cyc + 1) (cyc + 12) new
  modSection s (secOf lc) (fun k => { k with sfNow := noteSet k.sfNow ⟨f, lc, cyc, inc, new⟩ })

/-- FLG.CLR of a section flag (R127, R128): sets of the same cycle stand, and waiters see their sum. The cycles of one cluster are compared; between
clusters, whose issue-cycle counts differ, the order of the commands decides (log 1). -/
def sfClearAt (s : State) (lc cyc f : Nat) : State :=
  match setNow (sectionOf s (secOf lc)).sfNow f lc cyc with
  | some x => ungrant (modSection s (secOf lc) (fun k => { k with sf := spSet 0 k.sf f (min 65535 x.sum) })) (min 65535 x.sum) x.granted
  | none => sfClear s (secOf lc) f

/-- FLG.SET of a local flag in issue cycle cyc: its waiters are released in the next (R127). -/
def lfSetAt (s : State) (lc cyc f inc : Nat) : State :=
  let old := grantsOf s [lc]
  let s := lfAdd s lc f inc
  let new := (grantsOf s [lc]).filter (fun g => !(old.contains g))
  let s := grantIn s lc (cyc + 1) (cyc + 1) new
  modCluster s lc (fun c => { c with seq := { c.seq with lfNow := noteSet c.seq.lfNow ⟨f, lc, cyc, inc, new⟩ } })

/-- FLG.CLR of a local flag (R127, R128). -/
def lfClearAt (s : State) (lc cyc f : Nat) : State :=
  match setNow (cluster s lc).seq.lfNow f lc cyc with
  | some x =>
    ungrant (modCluster s lc (fun c => { c with seq := { c.seq with lf := spSet 0 c.seq.lf f (min 65535 x.sum) } })) (min 65535 x.sum) x.granted
  | none => modCluster s lc (fun c => { c with seq := { c.seq with lf := spDel c.seq.lf f } })

/-- The sets of the flag that a flag command of cluster lc names, in issue cycle cyc. -/
def setsNow (s : State) (lc cyc raw : Nat) : Option FlagNow :=
  setNow (if flSect raw then (sectionOf s (secOf lc)).sfNow else (cluster s lc).seq.lfNow) (flFlag raw) lc cyc

/-- A wait of cluster lc, at head w, that finds its count met in a cycle which has set the flag: it is released in the next cycle, unless a clear of the
same cycle takes the count back (R128: clears come before sets, and waiters see the result). -/
def waitNow (s : State) (lc cyc w raw : Nat) : State :=
  let s := modCluster s lc (fun c => { c with log := { c.log with waiting := setAdd c.log.waiting w, grant := setAdd c.log.grant w } })
  let s := grantIn s lc (cyc + 1) (cyc + 1) [(lc, w)]
  if flSect raw then modSection s (secOf lc) (fun k => { k with sfNow := noteSet k.sfNow ⟨flFlag raw, lc, cyc, 0, [(lc, w)]⟩ })
  else modCluster s lc (fun c => { c with seq := { c.seq with lfNow := noteSet c.seq.lfNow ⟨flFlag raw, lc, cyc, 0, [(lc, w)]⟩ } })

/-- Add 1 to a section flag in each of the four sections (R228). -/
def sfAddAll (s : State) (f : Nat) : State := [0, 1, 2, 3].foldl (fun s k => sfAdd s k f 1) s

/-- Is this execution of a section-flag command to be applied (R129)? A replay does not apply again what the record counts. -/
def sfApplies (c : Cluster) (e : QEntry) : Bool := decide (spGet 0 c.log.sfRec e.idx < e.occ)

/-- Record one applied execution (R129). -/
def sfRecord (c : Cluster) (e : QEntry) : Cluster := { c with log := { c.log with sfRec := spSet 0 c.log.sfRec e.idx e.occ } }

/-! Tile status bits (Table 3-6) -/
def tsVALID : Nat := 0
def tsBANK : Nat := 1
def tsLOADED : Nat := 2
def tsCOMP : Nat := 3
def tsUNB : Nat := 4
def tsINT : Nat := 5
def tsCHECKED : Nat := 6
def tsMISMATCH : Nat := 7
def tsNONFINITE : Nat := 8
def tsINTRANGE : Nat := 9
def tsPOISON : Nat := 10
def tsSLIP : Nat := 11
def tsSURVEYED : Nat := 12
def tsRESUMED : Nat := 13
def tsPAIRED : Nat := 14

/-- Set bit n of a number when b holds. -/
def orBit (x n : Nat) (b : Bool) : Nat := if b then x ||| 2 ^ n else x

/-- Bit n of a number. -/
def tbit (x n : Nat) : Bool := natBits x n 1 == 1

/-- The carried flags that a status word adds (R184): ACCUM_UNBOUNDED, NONFINITE, INT_RANGE, POISON in bits 0 to 3. -/
def carriedOf (status : Nat) : Nat :=
  packFields [(natBits status tsUNB 1, 1), (natBits status tsNONFINITE 1, 1), (natBits status tsINTRANGE 1, 1),
    (natBits status tsPOISON 1, 1)]

/-- Add a status word to the carried flags. -/
def carry (c : Cluster) (status : Nat) : Cluster := { c with vr := { c.vr with cflags := c.vr.cflags ||| carriedOf status } }

/-- R102: a drained or combined tile with ACCUM_UNBOUNDED is recorded in the fault log with LC, command index and CHAIN_N; one event per
cluster and step. -/
def noteUnbounded (s : State) (lc idx chainN : Nat) : State :=
  let first := !(cluster s lc).log.unbPosted
  let d := packFields [(lc, 8), (idx, 14), (chainN, 48)]
  let s := if first then logEvent s 0x0006 7 0 lc noLink d else logOnly s 0x0006 7 0 lc noLink d
  modCluster s lc (fun c => { c with log := { c.log with unbPosted := true } })

end Sys2Proof.Machine
end

