-- ==== Sys2Proof/Machine/CommitOps.lean ====
section
/-! DEFINITION. The two-phase commit (R220 to R231), the checkpoint cut that a COMMIT makes (R380), and the faulted step (R368). -/

namespace Sys2Proof.Machine

/-! Causes of WCAUSE (Table 8-9) -/
def wSPIKE : Nat := 1
def wNFLOSS : Nat := 2
def wNFGRAD : Nat := 4
def wHELD : Nat := 8
def wSLOT : Nat := 16
def wFAULT : Nat := 32

/-- Is an FP32 value finite? -/
def f32Finite (x : F32) : Bool := fvFinite (fv x)

/-- |x| of an FP32 value. -/
def f32Abs (x : F32) : F32 := x &&& 0x7FFFFFFF#32

/-- a > b as FP32 values; false when either is NaN. -/
def f32Gt (a b : F32) : Bool := fvLt (fv b) (fv a)

/-- The larger of two FP32 values. -/
def f32Max (a b : F32) : F32 := if f32Gt b a then b else a

/-- FP32 value of a natural number, rounded RNE. -/
def f32Nat (n : Nat) : F32 := rne (fvInt n)

/-- Judge one loss monitor (R220, R221): its cause, 0 when it gives OK or no verdict, and the monitor after it. -/
def judgeMonitor (m : Monitor) : Nat × Monitor :=
  if m.posts = 0 then (0, { m with sum := 0 })
  else
    let l := f32Div m.sum (f32Nat m.posts)
    let m := { m with sum := 0, posts := 0, lastLoss := l }
    if !m.enable then (0, m)
    else
      let bump (m : Monitor) : Monitor := { m with steps := min (m.steps + 1) (2 ^ 24 - 1) }
      if !(f32Finite l) then (wNFLOSS, bump { m with lastSpike := false })
      else if m.steps = 0 then (0, bump { m with mean := l, var := 0, lastSpike := false })
      else
        let alpha := rne (fvScale (-(m.wlog : Int)) (fvInt 1))
        let sigma := f32Max (f32Sqrt m.var) (f32Mul m.floor (f32Abs m.mean))
        let z := f32Div (f32Sub l m.mean) sigma
        let m := { m with lastZ := z }
        if decide (m.warmup ≤ m.steps) && f32Gt z m.k then (wSPIKE, bump { m with lastSpike := true })
        else
          let d := f32Sub l m.mean
          let mean := f32Add m.mean (f32Mul alpha d)
          let var := f32Mul (f32Sub 0x3F800000#32 alpha) (f32Add m.var (f32Mul (f32Mul alpha d) d))
          (0, bump { m with mean := mean, var := var, lastSpike := false })

/-- Judge the monitors of a mask; the OR of their causes (R226 step 1). -/
def judgeMask (s : State) (mask : Nat) : Nat × State :=
  (List.range 16).foldl (fun r k =>
    if natBits mask k 1 = 1 then
      let j := judgeMonitor (monitorOf r.2 k)
      (r.1 ||| j.1, modMonitor r.2 k (fun _ => j.2))
    else r) (0, s)

/-- READY payload (Table 11-9). -/
def readyPayload (g : Nat) (withheld : Bool) (wc : Nat) : List Byte := leBytes 16 (packFields [(g, 10), (b2n withheld, 1), (0, 5), (wc, 8)])

/-- DECISION payload (Table 11-10). -/
def decisionPayload (d : Decision) : List Byte :=
  leBytes 40 (packFields ([(d.group, 10), (if d.commit then 1 else 2, 2), (0, 4), (d.wcause, 8), (0, 8), (d.nwh, 16), (0, 16)] ++
    d.wh.flatMap (fun w => [(w.1, 16), (w.2, 8), (0, 8)])))

/-- Write a commit record (R228, R229). -/
def writeRec (s : State) (d : Decision) : State :=
  let r : CommitRec := ⟨d.round, if d.commit then 1 else 2, d.wcause, d.leader, d.job, d.group, stateStep s % 2 ^ 32⟩
  { s with train := { s.train with recs := spSet .reset s.train.recs d.group r } }

/-- Change every tensor of a group. -/
def mapGroupTensors (s : State) (g : Nat) (f : VtEntry → VtEntry) : State :=
  { s with train := { s.train with
      vt := s.train.vt.map (fun e => (e.1, if e.2.valid && e.2.group == g then f e.2 else e.2)) } }

/-- CHECKPOINT_CUT (R380): at a COMMIT of CKPT_GROUP with no checkpoint in progress and one due or asked for. -/
def checkpointCut (s : State) (g : Nat) : State :=
  let c := s.ckpt
  if c.policy.group = g ∧ c.cur = none ∧ (c.nowSeqs ≠ [] ∨ ((c.policy.auto ∨ c.waitSeqs ≠ []) ∧ ckptDue s)) then makeCut s false else s

/-- COMMIT_APPLY (R228), one action. -/
def applyCommit (s : State) (d : Decision) : State :=
  let s := mapGroupTensors s d.group (fun e =>
    if e.pendV then { e with cur := e.pend, ver := (e.ver + 1) % 2 ^ 32, pendV := false } else e)
  let s := writeRec s d
  let s := modGroup s d.group (fun g =>
    { g with last := 1, await := false, readyN := 0, withheld := false, wcause := 0, round := (g.round + 1) % 2 ^ 32 })
  let s := checkpointCut s d.group
  sfAddAll s (groupOf s d.group).cflag

/-- Every cluster of the consist is to stop at its next DATUM with STEP = 1 (R229, R389); one that stands at such a stop has. -/
def oweStop (s : State) : State :=
  let l := (consistLcs s).filter (fun lc => (cluster s lc).seq.wait != .step)
  { s with train := { s.train with stopOwed := setAddAll s.train.stopOwed l } }

/-- ABORT_APPLY (R229). The clusters stop at their next DATUM with STEP = 1. -/
def applyAbort (s : State) (d : Decision) : State :=
  let s := mapGroupTensors s d.group (fun e => { e with pendV := false })
  let s := writeRec s d
  let s := modGroup s d.group (fun g =>
    { g with last := 2, await := false, readyN := 0, withheld := false, wcause := 0, round := (g.round + 1) % 2 ^ 32 })
  let s := sfAddAll s (groupOf s d.group).cflag
  oweStop (logEvent s 0x0010 5 7 0 noLink (packFields ([(d.group, 10), (d.round, 32)] ++ d.wh.map (fun w => (w.2, 8)))))

/-- Apply a decision once: a round already decided, or not the group's, is discarded (R227, R318). -/
def applyDecision (s : State) (d : Decision) : State :=
  let g := groupOf s d.group
  if g.valid && g.round == d.round then
    let s := { s with train := { s.train with sent := s.train.sent.filter (fun r => r.group != d.group) } }
    if d.commit then applyCommit s d else applyAbort s d
  else s

/-- The decision that the readies of a round determine, if they determine one (R227, R376). -/
def decisionOf (s : State) (jslot g round : Nat) : Option Decision :=
  let j := jobOf s jslot
  let rs := s.train.readies.filter (fun r => r.job == j.job && r.group == g && r.round == round)
  let wh := rs.filter (fun r => r.withheld)
  if wh ≠ [] then
    some ⟨j.job, g, round, false, wh.foldl (fun a r => a ||| r.wcause) 0, j.leader, wh.length, (wh.take 8).map (fun r => (r.midx, r.wcause))⟩
  else if (members j).all (fun m => memberRemoved s jslot m || rs.any (fun r => r.midx == m)) then
    some ⟨j.job, g, round, true, 0, j.leader, 0, []⟩
  else none

/-- Keep a decision: the last 16 rounds of a job's group (R227). -/
def keepDecision (s : State) (d : Decision) : State :=
  let same := s.train.decisions.filter (fun e => e.job == d.job && e.group == d.group)
  let other := s.train.decisions.filter (fun e => !(e.job == d.job && e.group == d.group))
  { s with train := { s.train with
      decisions := other ++ (d :: same).take 16
      readies := s.train.readies.filter (fun r => !(r.job == d.job && r.group == d.group && r.round == d.round)) } }

/-- Has the leader decided this round? -/
def decided (s : State) (job g round : Nat) : Option Decision :=
  s.train.decisions.find? (fun d => d.job == job && d.group == g && d.round == round)

/-- Send a decision to every other member that is not removed (R318). -/
def sendDecision (s : State) (jslot : Nat) (d : Decision) : State :=
  (members (jobOf s jslot)).foldl (fun s m =>
    if m = (jobOf s jslot).midx ∨ memberRemoved s jslot m then s else sendControl s jslot m tDECISION d.round (decisionPayload d)) s

/-- LEADER_DECIDE (R227): decide once, write the own record first, send, apply. -/
def leaderDecide (s : State) (jslot g round : Nat) : State :=
  let j := jobOf s jslot
  if (decided s j.job g round).isSome then s
  else match decisionOf s jslot g round with
    | none => s
    | some d =>
      let s := writeRec (keepDecision s d) d
      applyDecision (sendDecision s jslot d) d

/-- The leader takes a ready: a second one of a member and round is the same and is not kept twice. -/
def takeReady (s : State) (jslot : Nat) (r : Ready) : State :=
  let dup := s.train.readies.any (fun x => x.job == r.job && x.group == r.group && x.round == r.round && x.midx == r.midx)
  let s := if dup then s else { s with train := { s.train with readies := s.train.readies ++ [r] } }
  leaderDecide s jslot r.group r.round

/-- Send a ready to the leader of its job (R226), and remember the SEQ of its frame. -/
def sendReadyFrame (s : State) (k : Nat) (r : SentReady) : State :=
  let j := jobOf s k
  let key := spaceKey j.cport true k j.leader
  let q := spGet 0 s.fab.seqTx key
  let s := sendControl s k j.leader tREADY r.round (readyPayload r.group r.withheld r.wcause)
  let q := if spGet 0 s.fab.seqTx key = q then none else some q
  { s with train := { s.train with sent := s.train.sent.map (fun x =>
      if x.group = r.group ∧ x.round = r.round then { x with ackedAt := none, seq := q } else x) } }

/-- Ask the leader of a group's job for the decision of its open round (R230, R390). -/
def askRound (s : State) (g : Nat) : State :=
  match jobSlot s (groupOf s g).job with
  | none => s
  | some k =>
    let j := jobOf s k
    if j.leader = j.midx then s else sendControl s k j.leader tDECREQ (groupOf s g).round (leBytes 8 g)

/-- Form the module verdict of a group's open round and send the ready (R226 steps 3 to 5). A module without the group's job sends
nothing and waits. A failed verification keeps it from being sent (R389). -/
def sendReady (s : State) (g wc : Nat) : State :=
  if s.ckpt.mute then s else
  let grp := groupOf s g
  let withheld := grp.withheld || wc ≠ 0
  let wc := grp.wcause ||| wc
  let s := modGroup s g (fun x => { x with await := true, withheld := withheld, wcause := wc })
  let r : SentReady := ⟨g, grp.round, withheld, wc, none, false, none⟩
  let s := { s with train := { s.train with sent := s.train.sent ++ [r], asking := setDel s.train.asking g } }
  match jobSlot s grp.job with
  | none => s
  | some k =>
    let j := jobOf s k
    if j.leader = j.midx then
      takeReady { s with train := { s.train with
        sent := s.train.sent.map (fun r => if r.group = g then { r with ackedAt := some s.clk.aon } else r) } } k
        ⟨j.job, g, grp.round, j.midx, withheld, wc⟩
    else sendReadyFrame s k r

/-- COMMIT_ROUND_EVALUATE (R226), when READY_N has reached NCLUSTERS. -/
def evaluateRound (s : State) (g : Nat) : State :=
  let grp := groupOf s g
  let r := judgeMask s grp.monmask
  let nf := if grp.nfLimit < grp.nfCount then wNFGRAD else 0
  sendReady (modGroup r.2 g (fun x => { x with nfCount := 0 })) g (r.1 ||| nf)

/-- What a cluster discards when it stops (R93, R135, R368): its queues, its banks, its work, the drain buffer and the row contexts. -/
def stopDiscard (c : Cluster) : Cluster :=
  { c with
    opx := { c.opx with bankA := .clear c.opx.bankA.parity, bankB := .clear c.opx.bankB.parity, conv := [], convWait := [], streams := [],
                        -- the wavefronts issued so far stand: the array is idle 64 cycles after them (R77)
                        wave0 := c.opx.wave0.map (min c.seq.icyc), wave1 := c.opx.wave1.map (min c.seq.icyc), occ1 := none, open0 := none, open1 := none, survey := none, flagWait := [], paused := false
                        -- a clamp is a power event: it goes on
                        hold := if c.opx.clampRows || c.opx.clampRamp then 1 else 0 }
    seq := { c.seq with q0 := [], q1 := [], q2 := [], q3 := [], q4 := [], q5 := [], q6 := [] }
    log := { c.log with waiting := [], grant := [], grantAt := [] }
    vr := { c.vr with drain := [], busy := [], ctxs := [] }
    t0 := { c.t0 with flight := [] }
    t1 := { c.t1 with flight := [] }
    t2 := { c.t2 with flight := [] }
    t3 := { c.t3 with flight := [] }
    pausing := false
    pausedOk := false }

/-- One cluster stops for a faulted step, which belongs to the round that each group has open, or next opens when the open one is already answered
(R225). -/
def faultCluster (s : State) (lc : Nat) : State :=
  let t := s.clk.aon
  let gs := (s.train.groups.filter (fun e => e.2.valid)).map (fun e => (e.1, (e.2.round + b2n e.2.await) % 2 ^ 32))
  modCluster s lc (fun c =>
    let c := stopDiscard c
    { c with seq := { c.seq with stop := some .faulted, stopAt := t }
             log := { c.log with faulted := gs } })

/-- A PAUSE that the module's own change of state overtakes has no effect and is refused with the new state (R341). -/
def refusePause (s : State) : State :=
  match s.mb.pauseOf with
  | none => s
  | some m =>
    let go (c : Cluster) : Cluster := setHold { c with pausing := false, pausedOk := false, opx := { c.opx with paused := false } }
    let s := { s with mb := { s.mb with pauseOf := none }, cl := s.cl.map (fun e => (e.1, go e.2)) }
    fulfil (countRefusal s stSTATE) m stSTATE 1 (stateBits s)

/-- STEP_FAULTED (R368): every cluster of the consist stops and discards its queues and banks; every open round not yet answered gets the
verdict WITHHELD with FAULTED_CLUSTER; STEP_FAULTED is posted; the module enters PAUSED. `link` is the entry of the fault. -/
def stepFaulted (s : State) (link : Nat) : State :=
  let s := (consistLcs s).foldl faultCluster s
  let gs := (s.train.groups.filter (fun e => e.2.valid && !e.2.await)).map (fun e => e.1)
  let s := gs.foldl (fun s g => sendReady s g wFAULT) s
  let s := logEvent s 0x0008 3 7 0 link 0
  refusePause (setOp (noteInterruption s) .paused)

/-- A fault that stops a cluster without replay (R260, R276): the entry, then the faulted step. -/
def faultNoReplay (s : State) (code lc detail : Nat) : State :=
  let s := logEvent s code 3 0 lc noLink detail
  stepFaulted (modCluster s lc (fun c => { c with log := { c.log with faultIdx := lastEntry s } })) (lastEntry s)

/-- BOUND_FAULT (R260): logical cluster, command index, box, access kind. -/
def boundFault (s : State) (lc idx lo hi : Nat) (write : Bool) : State :=
  faultNoReplay s 0x0007 lc (packFields [(lc, 8), (idx, 14), (lo, 48), (hi, 48), (b2n write, 2)])

end Sys2Proof.Machine
end

