-- ==== Sys2Proof/Machine/Operands.lean ====
section
/-! DEFINITION. Every operand form of a consist command: scratchpad references and their layouts (R67, R149, R150), source modes
(Table 6-4), tag checks and poison of the words read (R134, R178), destinations (R46, R51, R53, R133), the random generator (R202). -/

namespace Sys2Proof.Machine

/-- Formed address of a reference: ADDR × 64, plus PRM(PRMX) when PRMEN = 1 (R150). -/
def formed (e : QEntry) (r : SRef) : Nat := r.addr * 64 + (if r.prmEn then ePrm e r.prmx else 0)

/-- Address of block k of `bytes` bytes (R150, R67). -/
def blockAddr (base lstride bytes k : Nat) : Nat :=
  if lstride = 0 then base + k * bytes
  else
    let n := 1024 / bytes
    base + k / n * (lstride * 4096) + k % n * bytes

/-- One past the highest byte of blocks 0 … k − 1 of an operand whose last block has `tail` bytes. -/
def operandEnd (base lstride bytes k tail : Nat) : Nat :=
  if k = 0 then base
  else
    let a := blockAddr base lstride bytes (k - 1) + tail
    if lstride = 0 then a
    else
      let n := 1024 / bytes
      if k ≤ n then a else max a (blockAddr base lstride bytes ((k - 1) / n * n - 1) + bytes)

/-- Byte address and element index within its block of element i of an operand in a format. -/
def elemAddr (fmt base lstride i : Nat) : Nat :=
  blockAddr base lstride (blockBytes fmt) (i / 128) + i % 128 * fmtBits fmt / 8

/-- Code of the element at a byte address; `odd` selects the high nibble of an E2M1 pair (R42). -/
def elemCode (mem : Memory) (fmt a : Nat) (odd : Bool) : Nat :=
  if fmtBits fmt = 4 then (if odd then (memByte mem a).toNat / 16 else (memByte mem a).toNat % 16)
  else memLe mem a (fmtBits fmt / 8)

/-- Code of element i of an operand. -/
def operandCode (mem : Memory) (fmt base lstride i : Nat) : Nat := elemCode mem fmt (elemAddr fmt base lstride i) (i % 2 == 1)

/-- Bytes that n elements of a format occupy. -/
def elemBytes (fmt n : Nat) : Nat := (n * fmtBits fmt + 7) / 8

/-- One past the highest byte of an operand of n elements. -/
def elemsEnd (fmt base lstride n : Nat) : Nat :=
  if n = 0 then base
  else operandEnd base lstride (blockBytes fmt) (ceilDiv n 128) (elemBytes fmt (n - (ceilDiv n 128 - 1) * 128))

/-- The scratchpad words of an operand of n elements, in order of first use. -/
def operandWords (fmt base lstride n : Nat) : List Nat :=
  (List.range (ceilDiv n 128)).flatMap (fun k =>
    unitsOf 64 (blockAddr base lstride (blockBytes fmt) k) (elemBytes fmt (min 128 (n - k * 128))))

/-- Last scratchpad address. -/
def spTop : Nat := 0x3FFFFF

/-! Slips of the words that a command reads -/

/-- The first word of a list that fails the tag check: its address and the tag found. -/
def firstBad (m : ClMem) (chk : Bool) (tag : Nat) (ws : List Nat) : Option (Nat × Nat) :=
  if chk then (ws.find? (fun w => spTagBad m w tag)).map (fun w => (64 * w, (spGet WordMeta.clear m.wmeta w).tag)) else none

/-- The poisoned words of a list, each once. -/
def poisonedOf (m : ClMem) (ws : List Nat) : List Nat := (setAddAll [] ws).filter (fun w => spPoison m w)

/-! Random generator (R202) -/

def m64 (x : Nat) : Nat := x % 2 ^ 64

/-- One of the four rounds: (a, b, k0, k1). -/
def genRound (t : Nat × Nat × Nat × Nat) : Nat × Nat × Nat × Nat :=
  let (a, b, k0, k1) := t
  let a := m64 ((a ^^^ k0) * 0x9F3B52C70E6AD4C5)
  let a := a ^^^ (a >>> 31)
  let b := m64 ((b ^^^ k1 ^^^ a) * 0xC2A46E1D93F71B0B)
  let b := b ^^^ (b >>> 29)
  let a := m64 (a + m64 (b <<< 17) + (b >>> 47))
  (a, b, m64 (k0 + 0x6B2D8E41F09C375D), m64 (k1 + 0x1E79C4A35D0BE6F7))

/-- The generator: 128 bits as (low, high) (R202). -/
def generator (seed stream counter : Nat) : Nat × Nat :=
  let s := stream % 2 ^ 32
  let k0 := m64 seed
  let k1 := k0 ^^^ (s * 2 ^ 32 + s)
  let a := m64 counter
  let r := genRound (genRound (genRound (genRound (a, 2 ^ 64 - 1 - a, k0, k1))))
  (r.1, r.2.1)

/-- The 16 bits r of R53 for an element ordinal. -/
def srDraw (seed stream step indexBase ordinal : Nat) : Nat :=
  (generator seed stream (step % 2 ^ 24 * 2 ^ 40 + (indexBase + ordinal) % 2 ^ 40)).1 % 65536

/-- Keys of a stochastic destination: SEED, STREAM, STEP, INDEX_BASE (R53, R203). -/
structure SrKey where
  seed : Nat
  stream : Nat
  step : Nat
  index : Nat
  deriving DecidableEq, Repr

/-- The rounding mode of a code of Table 2-4, for the element of an ordinal. -/
def modeOf (code : Nat) (k : SrKey) (ordinal : Nat) : RMode :=
  match code with
  | 0 => .rne
  | 1 => .rtz
  | 2 => .rdn
  | 3 => .rup
  | _ => .sr (srDraw k.seed k.stream k.step k.index ordinal)

/-! Destinations -/

/-- Join the codes of elements into bytes, two E2M1 elements a byte; a last single nibble keeps the other nibble `old` (R42). -/
def packCodes (fmt : Nat) (old : Byte) : List Nat → List Byte
  | [] => []
  | [x] => if fmtBits fmt = 4 then [BitVec.ofNat 8 (x % 16 + old.toNat / 16 * 16)] else leBytes (fmtBits fmt / 8) x
  | x :: y :: r =>
    if fmtBits fmt = 4 then BitVec.ofNat 8 (x % 16 + y % 16 * 16) :: packCodes fmt old r
    else leBytes (fmtBits fmt / 8) x ++ packCodes fmt old (y :: r)

/-- A written element: its code and whether its word is poisoned. -/
structure WElem where
  code : Nat
  poison : Bool
  deriving DecidableEq, Repr

/-- The elements of block k. -/
def blockSlice {α : Type} (l : List α) (k : Nat) : List α := (l.drop (128 * k)).take 128

/-- Poison of the byte at offset b of a block whose elements carry these flags. -/
def bytePoison (fmt : Nat) (els : List WElem) (b : Nat) : Bool :=
  if fmtBits fmt = 4 then
    (listGet ⟨0, false⟩ els (2 * b)).poison || (listGet ⟨0, false⟩ els (2 * b + 1)).poison
  else (listGet ⟨0, false⟩ els (b * 8 / fmtBits fmt)).poison

/-- Join pieces that go on in one word: a word that a command writes whole takes the poison of its own data alone (R178, R235, R279). -/
def joinPieces : List SpPiece → List SpPiece
  | [] => []
  | p :: r => match joinPieces r with
    | q :: t =>
      if q.addr = p.addr + p.data.length ∧ q.addr / 64 = p.addr / 64 then ⟨p.addr, p.data ++ q.data, p.poison || q.poison⟩ :: t
      else p :: q :: t
    | [] => [p]

/-- The pieces that a destination of elements writes, block by block (R150, R178). -/
def destPieces (mem : Memory) (fmt base lstride : Nat) (els : List WElem) : List SpPiece :=
  joinPieces <| (List.range (ceilDiv els.length 128)).flatMap (fun k =>
    let a := blockAddr base lstride (blockBytes fmt) k
    let b := blockSlice els k
    let bs := packCodes fmt (memByte mem (a + elemBytes fmt b.length - 1)) (b.map (fun x => x.code))
    spPieces a bs (bytePoison fmt b))

/-- The pieces of a plain run of bytes with one poison. -/
def runPieces (a : Nat) (l : List Byte) (poison : Bool) : List SpPiece := spPieces a l (fun _ => poison)

/-- Convert one value into a plain format. -/
def convElem (fmt rmode : Nat) (sat : Bool) (k : SrKey) (ordinal : Nat) (v : FVal) : Conv := encodeElem fmt (modeOf rmode k ordinal) sat v

end Sys2Proof.Machine
end

