-- ==== Sys2Proof/Machine/OpxData.lean ====
section
/-! DEFINITION. The arithmetic of the outer-product engine: accumulation modes (R96 to R99), integer accumulation (R104), checksum cells
(R80), compares (R81, R82), the tile status word (R86), save images (Tables 3-10, 3-11). -/

namespace Sys2Proof.Machine

/-- u of R82 is 2^−24; the thresholds of Table 4-1. -/
def nStd : Nat := 4096
def nComp : Nat := 2 ^ 26

/-- One accumulation of an exact term into (s, c) by the mode of chain count n (R96, R98). -/
def accFloat (n : Nat) (x : Cell) (p : FVal) : Cell :=
  let s := fv x.s
  if n ≤ nStd then
    let t := fvAdd .rne s p
    let sn := rne t
    if !(fvFinite s) || !(fvFinite p) || !(f32Finite sn) then ⟨sn, 0⟩
    else ⟨sn, rne (fvAdd .rne (fv x.c) (fvSub .rne t (fv sn)))⟩
  else if n ≤ nComp then
    let y := fvAdd .rne p (fv x.c)
    let t := fvAdd .rne s y
    let sn := rne t
    if !(fvFinite s) || !(fvFinite y) || !(f32Finite sn) then ⟨sn, 0⟩
    else ⟨sn, rne (fvSub .rne t (fv sn))⟩
  else
    let sn := rne (fvAdd .rne s p)
    if !(fvFinite s) || !(fvFinite p) || !(f32Finite sn) then ⟨sn, 0⟩ else ⟨sn, x.c⟩

/-- A NaN as the format has it, whatever its payload (R47, Table 2-3). -/
def canonF32 (x : F32) : F32 := if fv x = .nan then 0x7FC00000#32 else x

/-- The fold RNE(s + c); a non-finite s is returned unchanged (R72, R98), a NaN as FP32 writes it (R47). -/
def foldCell (x : Cell) : F32 := if f32Finite x.s then f32Add x.s x.c else canonF32 x.s

/-- One INT8 product into a cell (R104): sticky at the limit. -/
def accInt (x : Cell) (p : Int) : Cell :=
  if natBits x.c.toNat 0 1 = 1 then x
  else
    let t := x.s.toInt + p
    if t < -(2 ^ 31) then ⟨0x80000000#32, 1⟩ else if 2 ^ 31 ≤ t then ⟨0x7FFFFFFF#32, 1⟩ else ⟨BitVec.ofInt 32 t, 0⟩

/-- Integer of a value that decodes from INT8 or INT32. -/
def fvToIntExact (v : FVal) : Int :=
  match v with
  | .fin n m e => if n then -((shl m e : Nat) : Int) else ((shl m e : Nat) : Int)
  | _ => 0

/-- Add to a magnitude register with RUP (R80). -/
def addMag (m : F32) (v : FVal) : F32 := toF32 .rup (fvAdd .rup (fv m) v)

/-- One update of a checksum cell (R80): exact term for the accumulator, exact term for M. -/
def accCk (n : Nat) (x : CkCell) (p q : FVal) : CkCell :=
  let a := accFloat n ⟨x.acc, x.comp⟩ p
  ⟨a.s, a.c, addMag x.m q⟩

/-- The 64-bit integer of a checksum cell of an INT chain (R104). -/
def ckInt (x : CkCell) : BitVec 64 := x.comp ++ x.acc

/-- Its halves. -/
def ckOfInt (m : F32) (v : BitVec 64) : CkCell := ⟨v.setWidth 32, (v >>> 32).setWidth 32, m⟩

/-- Exact sum of a list. -/
def fvSum (l : List FVal) : FVal := l.foldl (fvAdd .rne) fvZero

/-- One operand column: its 128 values, Σ rounded RNE and Σ|·| rounded RUP (R80). -/
structure Col where
  v : List FVal
  sum : FVal
  mag : FVal
  deriving DecidableEq, Repr

/-- Form a column's edge sums. -/
def mkCol (v : List FVal) : Col :=
  ⟨v, fv (rne (fvSum v)), fv (toF32 .rup (fvSum (v.map fvAbs)))⟩

/-- A table built from a function of the keys 0 … n − 1, canonical. -/
def spTab {α : Type} [DecidableEq α] (d : α) (n : Nat) (f : Nat → α) : Sparse α :=
  (List.range n).filterMap (fun k => let x := f k; if x = d then none else some (k, x))

/-- Value i of a column. -/
def Col.at (c : Col) (i : Nat) : FVal := listGet fvZero c.v i

/-- The updates of a pass applied to one cell: `terms` are the columns in order, with the chain count before the first (R96). -/
def runCell (isInt : Bool) (i j : Nat) : Nat → List (Col × Col) → Cell → Cell
  | _, [], x => x
  | n, (a, b) :: r, x =>
    let p := fvMul (a.at i) (b.at j)
    runCell isInt i j (n + 1) r (if isInt then accInt x (fvToIntExact p) else accFloat (n + 1) x p)

/-- The updates of a pass applied to one checksum cell; `fa` and `fb` pick the two factors and their magnitudes. -/
def runCk (isInt : Bool) (fa fb : Col → FVal × FVal) : Nat → List (Col × Col) → CkCell → CkCell
  | _, [], x => x
  | n, (a, b) :: r, x =>
    let p := fvMul (fa a).1 (fb b).1
    let x' := if isInt then ckOfInt x.m (ckInt x + BitVec.ofInt 64 (fvToIntExact p))
      else accCk (n + 1) x p (fvMul (fa a).2 (fb b).2)
    runCk isInt fa fb (n + 1) r x'

/-- Element i and its magnitude. -/
def pickEl (i : Nat) (c : Col) : FVal × FVal := (c.at i, fvAbs (c.at i))

/-- The column's sums: exact for INT8, else Σ and Σ|·| as rounded. -/
def pickSum (isInt : Bool) (c : Col) : FVal × FVal := (if isInt then fvSum c.v else c.sum, c.mag)

/-- Chain count saturated to 48 bits. -/
def chain (n : Nat) : Nat := min n (2 ^ 48 - 1)

/-- The status bits that a chain of n updates of a kind has reached (R71, R101, R104). -/
def modeBits (isInt : Bool) (n st : Nat) : Nat :=
  if isInt then orBit st tsINT true else orBit (orBit st tsCOMP (decide (nStd < n))) tsUNB (decide (nComp < n))

/-- Apply the updates of a pass to a bank (R62, R80, R96). `aon` is the time for R84. -/
def applyPass (b : Bank) (isInt paired : Bool) (cols : List (Col × Col)) (aon last : Nat) : Bank :=
  let k := cols.length
  let n := b.n
  { b with
    cells := spTab Cell.zero 16384 (fun x => runCell isInt (x / 128) (x % 128) n cols (spGet Cell.zero b.cells x))
    col := spTab CkCell.zero 128 (fun i => runCk isInt (pickEl i) (pickSum isInt) n cols (spGet CkCell.zero b.col i))
    row := spTab CkCell.zero 128 (fun j => runCk isInt (pickSum isInt) (pickEl j) n cols (spGet CkCell.zero b.row j))
    corner := runCk isInt (pickSum isInt) (pickSum isInt) n cols b.corner
    n := chain (n + k)
    kind := some isInt
    live := true
    updN := min (b.updN + k) (2 ^ 17 - 1)
    firstAon := if b.firstAon.isSome then b.firstAon else some aon
    status := orBit (modeBits isInt (n + k) b.status) tsPAIRED (paired && decide (2 ≤ k))
    lastWave := some last }

/-! Compares (R81, R82). Tolerances and differences are exact rationals. -/

/-- A non-negative rational num/den with den > 0. -/
structure Frac where
  num : Nat
  den : Nat
  deriving DecidableEq, Repr

/-- Sum. -/
def Frac.add (a b : Frac) : Frac := ⟨a.num * b.den + b.num * a.den, a.den * b.den⟩

/-- Product. -/
def Frac.mul (a b : Frac) : Frac := ⟨a.num * b.num, a.den * b.den⟩

/-- a > b. -/
def Frac.gt (a b : Frac) : Bool := decide (b.num * a.den < a.num * b.den)

/-- Magnitude of a finite value. -/
def fracOf (v : FVal) : Frac :=
  match v with
  | .fin _ m e => if 0 ≤ e then ⟨m * 2 ^ e.toNat, 1⟩ else ⟨m, 2 ^ (-e).toNat⟩
  | _ => ⟨0, 1⟩

/-- β(n) (R82). -/
def beta (n : Nat) : Frac :=
  if n ≤ nStd then ⟨101 * n, 100 * 2 ^ 24⟩
  else if n ≤ nComp then Frac.add ⟨2, 2 ^ 24⟩ ⟨101 * n, 100 * 2 ^ 48⟩
  else ⟨1, 1⟩

/-- τ = (2·β(n) + 32·u)·M + 2^−126 (R82). -/
def tau (n : Nat) (m : F32) : Frac :=
  Frac.add (Frac.mul (Frac.add (Frac.mul ⟨2, 1⟩ (beta n)) ⟨32, 2 ^ 24⟩) (fracOf (fv m))) ⟨1, 2 ^ 126⟩

/-- The value of a ratio as FP32, rounded RNE. -/
def fracF32 (a b : Frac) : Nat := roundFrac fmtFP32 .rne false false (a.num * b.den) (a.den * b.num) 0

/-- Outcome of one compare: not made, or its ratio (FP32 bits) and whether it fails. -/
abbrev Cmp := Option (Nat × Bool)

/-- A float compare (R82); a difference that is not finite fails (log 34). -/
def cmpFloat (n : Nat) (sum chk m : F32) : Cmp :=
  let v := fvSub .rne (fv sum) (fv chk)
  let d := fracOf v
  let t := tau n m
  if fvFinite v then some (fracF32 d t, Frac.gt d t) else some (0x7F800000, true)

/-- An integer compare fails on any difference (R82). -/
def cmpInt (sum : Int) (chk : BitVec 64) : Cmp :=
  let bad := BitVec.ofInt 64 sum ≠ chk
  some (if bad then 0x7F800000 else 0, bad)

/-- Checksum value of a cell: folded at a drain, unfolded at a survey (R72, R82). -/
def ckVal (fold : Bool) (x : CkCell) : F32 := if fold then foldCell ⟨x.acc, x.comp⟩ else x.acc

/-- Result of the compares of a tile: the status bits they set, the first failing row and column, the largest ratio. -/
structure CmpResult where
  bits : Nat
  failRow : Option Nat
  failCol : Option Nat
  worst : Nat
  mismatch : Bool
  deriving DecidableEq, Repr

/-- First index whose compare fails. -/
def firstFail (l : List Cmp) : Option Nat :=
  l.findIdx? (fun c => match c with
    | some (_, b) => b
    | none => false)

/-- Largest ratio of a list of compares (FP32 bit patterns of values ≥ 0 order as numbers). -/
def worstOf (l : List Cmp) : Nat := l.foldl (fun w c => match c with
  | some (r, _) => max w r
  | none => w) 0

/-- The compares of R81 over a tile `v` (FP32 or INT32 patterns keyed 128·i + j). `fold` is true for a drain. -/
def compareTile (b : Bank) (v : Nat → F32) (fold : Bool) : CmpResult :=
  let isInt := b.kind == some true
  let n := b.n
  let rng := List.range 128
  let bad (x : Nat) : Bool :=
    if isInt then natBits (spGet Cell.zero b.cells x).c.toNat 0 1 == 1 else !(f32Finite (v x))
  let rowX (i : Nat) : Bool :=
    rng.any (fun j => bad (128 * i + j)) || (!isInt && !(f32Finite (spGet CkCell.zero b.col i).m))
  let colX (j : Nat) : Bool :=
    rng.any (fun i => bad (128 * i + j)) || (!isInt && !(f32Finite (spGet CkCell.zero b.row j).m))
  let one (xs : List F32) (k : CkCell) : Cmp :=
    if isInt then cmpInt ((xs.map (fun x => x.toInt)).foldl (· + ·) 0) (ckInt k)
    else cmpFloat n (rne (fvSum (xs.map fv))) (ckVal fold k) k.m
  let rows := rng.map (fun i => if rowX i then (none : Cmp) else one (rng.map (fun j => v (128 * i + j))) (spGet CkCell.zero b.col i))
  let cols := rng.map (fun j => if colX j then (none : Cmp) else one (rng.map (fun i => v (128 * i + j))) (spGet CkCell.zero b.row j))
  let excl := rows.any (fun c => c.isNone) || cols.any (fun c => c.isNone)
  let ckSum := rne (fvSum (rng.map (fun i => fv (ckVal fold (spGet CkCell.zero b.col i)))))
  let cornerX := excl || (!isInt && (!(f32Finite b.corner.m) || !(f32Finite ckSum)))
  let corner : Cmp :=
    if cornerX then none
    else if isInt then cmpInt (BitVec.toInt (rng.foldl (fun a i => a + ckInt (spGet CkCell.zero b.col i)) (0 : BitVec 64))) (ckInt b.corner)
    else cmpFloat n ckSum (ckVal fold b.corner) b.corner.m
  let fr := firstFail rows
  let fc := firstFail cols
  let fail := fr.isSome || fc.isSome || (firstFail [corner]).isSome
  let chk := rows.any (fun c => c.isSome) || cols.any (fun c => c.isSome)
  let bits := orBit (orBit (orBit (orBit 0 tsCHECKED chk) tsMISMATCH fail) tsNONFINITE (!isInt && cornerX)) tsINTRANGE (isInt && excl)
  ⟨bits, fr, fc, worstOf (rows ++ cols), fail⟩

/-- The tile that a drain delivers: folded values of a float chain, INT32 values of an INT chain (R72). -/
def drainValue (b : Bank) (x : Nat) : F32 :=
  let c := spGet Cell.zero b.cells x
  if b.kind == some true then c.s else foldCell c

/-- The tile status word (Table 3-6) of a bank drained at cycle d. -/
def statusWord (b : Bank) (bank : Bool) (r : CmpResult) (drainSeq d : Nat) : BitVec 512 :=
  let st := orBit (orBit ((b.status ||| r.bits) % 32768) tsVALID true) tsBANK bank
  BitVec.ofNat 512 (packFields [(st, 16), (r.failRow.getD 0, 7), (b2n r.failRow.isSome, 1), (r.failCol.getD 0, 7),
    (b2n r.failCol.isSome, 1), (b.n, 48), (b.surveys, 16), (0, 32), (r.worst, 32), (drainSeq, 32), (d, 64)])

/-- A bank loaded with rows (R80, R97, R105): checksum cells from the rows that enter, n = 0, c = 0. -/
def loadBank (parity isInt poison slip : Bool) (v : Nat → F32) : Bank :=
  let rng := List.range 128
  let val (x : Nat) : FVal := if isInt then fvInt (v x).toInt else fv (v x)
  let ck (xs : List FVal) : CkCell :=
    if isInt then ckOfInt 0 (BitVec.ofInt 64 (fvToIntExact (fvSum xs)))
    else ⟨rne (fvSum xs), 0, toF32 .rup (fvSum (xs.map fvAbs))⟩
  let rowV (i : Nat) : List FVal := rng.map (fun j => val (128 * i + j))
  let colV (j : Nat) : List FVal := rng.map (fun i => val (128 * i + j))
  { Bank.clear parity with
    cells := spTab Cell.zero 16384 (fun x => ⟨if isInt then v x else canonF32 (v x), 0⟩)
    col := spTab CkCell.zero 128 (fun i => ck (rowV i))
    row := spTab CkCell.zero 128 (fun j => ck (colV j))
    corner := ck ((List.range 16384).map val)
    kind := some isInt
    live := true
    status := orBit (orBit (orBit (orBit 0 tsLOADED true) tsINT isInt) tsPOISON poison) tsSLIP slip }

/-! Save images (R91, Tables 3-10 and 3-11) -/

/-- The 3 × 128 registers of a checksum column or row. -/
def ckBytes (t : Sparse CkCell) : List Byte :=
  let rng := List.range 128
  rng.flatMap (fun i => leBytes 4 (spGet CkCell.zero t i).acc.toNat) ++ rng.flatMap (fun i => leBytes 4 (spGet CkCell.zero t i).comp.toNat) ++
  rng.flatMap (fun i => leBytes 4 (spGet CkCell.zero t i).m.toNat)

/-- Offsets 0x0_0000 to 0x2_0FFF of an image. -/
def imageBody (b : Bank) : List Byte :=
  let rng := List.range 16384
  rng.flatMap (fun x => leBytes 4 (spGet Cell.zero b.cells x).s.toNat) ++ rng.flatMap (fun x => leBytes 4 (spGet Cell.zero b.cells x).c.toNat) ++
  ckBytes b.col ++ ckBytes b.row ++ leBytes 4 b.corner.acc.toNat ++ leBytes 4 b.corner.comp.toNat ++ leBytes 4 b.corner.m.toNat ++
  zeros (0x1000 - 0xC0C)

/-- CRC-32C as if a body of zeros stood before the header (R92). -/
def zeroBody : List Byte := zeros 0x21000

/-- What a header says beyond its bank (Table 3-11): the issue-cycle count, and of an open pass its last completed update, its index and its stream. -/
structure SaveInfo where
  issue : Nat
  pass : Option (Nat × Nat × Nat)
  deriving DecidableEq, Repr

/-- No open pass. -/
def SaveInfo.none : SaveInfo := ⟨0, .none⟩

/-- STATUS of a header: bits [15:0] of the chain's tile status so far, VALID at the value that Table 3-6 gives it, BANK the bank. -/
def saveStatus (b : Bank) (bank : Bool) : Nat := orBit (orBit b.status tsVALID true) tsBANK bank

/-- Header bytes 0 to 59 (Table 3-11). -/
def headerBytes (b : Bank) (bank : Bool) (lc : Nat) (i : SaveInfo) : List Byte :=
  let p := i.pass.getD (0, 0, 0)
  leBytes 60 (packFields [(1, 8), (b2n b.live, 1), (b2n bank, 1), (b2n b.parity, 1), (natBits b.status tsCOMP 1, 1),
    (natBits b.status tsUNB 1, 1), (natBits b.status tsLOADED 1, 1), (b2n i.pass.isSome, 1), (b2n (b.kind == some true), 1), (lc, 8), (0, 8), (b.n, 48),
    (b.updN, 17), (0, 31), (p.1, 24), (p.2.1, 16), (p.2.2, 1), (0, 23), (i.issue, 64), (saveStatus b bank, 16)])

/-- The header with CHECK (R91, R92). -/
def imageHeader (b : Bank) (bank : Bool) (lc : Nat) (i : SaveInfo) : List Byte :=
  let h := headerBytes b bank lc i
  h ++ leBytes 4 (crc32c ((if b.live then imageBody b else zeroBody) ++ h))

/-- The bytes of an image of a live bank up to and with its header, or the header alone of an empty one: (offset, bytes). -/
def imageParts (b : Bank) (bank : Bool) (lc : Nat) (i : SaveInfo) : List (Nat × List Byte) :=
  if b.live then [(0, imageBody b ++ imageHeader b bank lc i ++ zeros 0xFC0)] else [(0x21000, imageHeader b bank lc i)]

/-- What a header in memory says of its pass and of the issue-cycle count. -/
def readSaveInfo (mem : Memory) (base : Nat) : SaveInfo :=
  let x := memLe mem (base + 0x21000) 64
  ⟨natBits x 192 64, if natBits x 14 1 = 1 then some (natBits x 128 24, natBits x 152 16, natBits x 168 1) else .none⟩

/-- The bank that an image holds, when its header checks: FORMAT, LC_LOW, CHECK (R92, R156). DESIGN CHOICE (log 44): Table 3-11 has no field for SURVEYS
of the chain (Table 3-6), which therefore counts from 0 again. -/
def readImage (mem : Memory) (base lc : Nat) : Option Bank :=
  let h := memRead mem (base + 0x21000) 64
  let x := ofLe h
  let live := natBits x 8 1 == 1
  let body := if live then memRead mem base 0x21000 else zeroBody
  if natBits x 0 8 ≠ 1 ∨ natBits x 16 8 ≠ lc ∨ natBits x 480 32 ≠ crc32c (body ++ h.take 60) then none
  else if !live then some (Bank.clear (natBits x 10 1 == 1))
  else
    let w (o : Nat) : F32 := BitVec.ofNat 32 (memLe mem (base + o) 4)
    let ck (o i : Nat) : CkCell := ⟨w (o + 4 * i), w (o + 0x200 + 4 * i), w (o + 0x400 + 4 * i)⟩
    let isInt := natBits x 15 1 == 1
    some
      { cells := spTab Cell.zero 16384 (fun k => ⟨w (4 * k), w (0x10000 + 4 * k)⟩)
        col := spTab CkCell.zero 128 (ck 0x20000)
        row := spTab CkCell.zero 128 (ck 0x20600)
        corner := ⟨w 0x20C00, w 0x20C04, w 0x20C08⟩
        n := natBits x 32 48
        kind := some isInt
        live := true
        parity := natBits x 10 1 == 1
        updN := natBits x 80 17
        firstAon := none
        status := natBits x 258 14 * 4
        surveys := 0
        lastWave := none }

/-- The INT chain's compensation plane holds only the sticky bit (R104). -/
def normInt (b : Bank) : Bank :=
  if b.kind == some true then
    { b with cells := spTab Cell.zero 16384 (fun x => let k := spGet Cell.zero b.cells x; ⟨k.s, BitVec.ofNat 32 (natBits k.c.toNat 0 1)⟩) }
  else b

/-- The scratchpad words of an image (R91). -/
def imageWords (base : Nat) : List Nat := unitsOf 64 base 0x22000

end Sys2Proof.Machine
end

