-- ==== Sys2Proof/Machine/Opx.lean ====
section
/-! DEFINITION. The commands of the outer-product engine (R153 to R158) with their start checks (R495), the conveyor (R72 to R75), surveys,
ramp, idle state and current clamp (R77, R79, R84, R85). -/

namespace Sys2Proof.Machine

/-- A bank of the engine. -/
def bankOfB (o : Opx) (b : Bool) : Bank := if b then o.bankB else o.bankA

/-- Replace a bank. -/
def setBank (o : Opx) (b : Bool) (k : Bank) : Opx := if b then { o with bankB := k } else { o with bankA := k }

/-- Change the engine of a cluster. -/
def modOpx (s : State) (lc : Nat) (f : Opx → Opx) : State := modCluster s lc (fun c => { c with opx := f c.opx })

/-- Ramp length L (Table 3-5). -/
def rampLen (r : Nat) : Nat :=
  match r with
  | 0 => 16
  | 1 => 32
  | 2 => 64
  | 3 => 128
  | _ => 256

/-- The cycle from which an array whose last counted wavefront was `w` disables its rows: idle after 64 cycles without one (R77), but not before the
cycle `on` at which a hold's ramp last left every row enabled; none when no row was ever enabled. -/
def disableFrom (w on : Option Nat) : Option Nat :=
  match w, on with
  | some t, some x => some (max (t + 65) x)
  | some t, none => some (t + 65)
  | none, y => y

/-- Cycles of ramp that a pass needs when it issues in cycle i and its first wavefront would issue in cycle x (R77): none into an array that is not
idle then, else as many as rows have been disabled for, at most L. Rows that the lead-in's cycles would disable count too (DEDUCED, log 44). -/
def rampDelay (L : Nat) (w on : Option Nat) (i x : Nat) : Nat :=
  match disableFrom w on with
  | none => L
  | some d => min L ((if i < d then x else i) - d)

/-- The later of two wavefronts. -/
def maxWave (a b : Option Nat) : Option Nat :=
  match a, b with
  | some x, some y => some (max x y)
  | some x, none => some x
  | none, y => y

/-- Cycles of one update (R63). -/
def updCost (fa fb : Nat) : Nat := ceilDiv (sigOf fb) 4 * ceilDiv (sigOf fa) 12

/-- Is a pass paired (R65)? -/
def isPaired (fa fb : Nat) : Bool := decide (sigOf fa ≤ 2) && decide (sigOf fb ≤ 2)

/-- Bank group of an address (R67). -/
def groupAt (a : Nat) : Nat := natBits a 10 2

/-- Do two groups collide? none stands for all four. -/
def groupsMeet (a b : Option Nat) : Bool :=
  match a, b with
  | some x, some y => x == y
  | _, _ => true

/-- The groups that two streams share. -/
def sharedGroup (a b : OpxStream) : Nat := (a.group.or b.group).getD 0

/-- Do two streams use one group in one cycle? -/
def streamsMeet (a b : OpxStream) : Bool := groupsMeet a.group b.group && decide (a.first ≤ b.last) && decide (b.first ≤ a.last)

/-- A collision among the streams of one command. -/
def selfCollision : List OpxStream → Option (OpxStream × OpxStream)
  | [] => none
  | n :: r => ((r.find? (streamsMeet n)).map (fun a => (n, a))).or (selfCollision r)

/-- The collision of a command's streams with one another or with a stream that is active when the command is checked, in the cycle of its first
access (R68). -/
def collision (new act : List OpxStream) : Option (OpxStream × OpxStream) :=
  (selfCollision new).or
    (new.findSome? (fun n => (act.find? (fun a => streamsMeet n a && decide (a.first ≤ n.first))).map (fun a => (n, a))))

/-- A command that issued before and begins its accesses after a new command's check: its own check finds the new stream active (R68). -/
def laterCollision (new act : List OpxStream) : Option (OpxStream × OpxStream) :=
  new.findSome? (fun n => (act.find? (fun a => streamsMeet n a && decide (n.first < a.first))).map (fun a => (a, n)))

/-- Only the streams of stream 0 can make a stream-0 command collide, and a stream-1 command never slips for a collision: it has waited until its groups
are free of stream 0 (R139, R140). -/
def actFor (c : Cluster) (e : QEntry) : List OpxStream := c.opx.streams.filter (fun a => a.stream == cStream e.raw)

/-- Keep the streams that can still matter from a cycle on. -/
def liveStreams (l : List OpxStream) (cyc : Nat) : List OpxStream := l.filter (fun a => decide (cyc ≤ a.last + 4))

/-- Bank-sequence parity at cycle t: the flips of operations that end before t count (R73). -/
def parityAt (o : Opx) (b : Bool) (t : Nat) : Bool :=
  (o.conv.filter (fun k => k.bank == b && k.kind != .survey && decide (k.start + k.len ≤ t))).foldl (fun p _ => !p) (bankOfB o b).parity

/-- Is a conveyor operation shifting the bank in cycle t? -/
def shiftingAt (o : Opx) (b : Bool) (t : Nat) : Bool :=
  o.conv.any (fun k => k.bank == b && decide (k.start ≤ t) && decide (t < k.start + k.len))

/-- Raise a slip of an OPX command and let it leave its queue. -/
def opxSlip (s : State) (lc : Nat) (e : QEntry) (cause x exp found addr group : Nat) : State :=
  raiseSlip (modCluster s lc (fun c => dropEntry (atCycle c x) 0 e)) lc 0 e ⟨cause, x, exp, found, addr, group⟩

/-- Is a bank due for a survey (R84), by the updates and the time since its last drain or survey, whatever it holds now? -/
def surveyDue (s : State) (b : Bank) : Bool :=
  decide (65536 ≤ b.updN) ||
    (match b.firstAon with
     | some t => decide (t + 4000 ≤ s.clk.aon)
     | none => false)

/-- Is a command one of the engine's own (Table 6-1)? -/
def isEngineOp (raw : Nat) : Bool :=
  cOp raw == oPASS || cOp raw == oDRAIN || cOp raw == oLOAD || cOp raw == oSAVE || cOp raw == oSURVEY

/-- The next stream-0 OPX command, when it is dispatched and no wait for a frame stands before it (R140). -/
def nextStream0 (c : Cluster) : Option QEntry :=
  ((c.seq.q0.filter (fun e => cStream e.raw == 0)).find? (fun e => isEngineOp e.raw || cOp e.raw == oFWAIT)).filter (fun e => isEngineOp e.raw)

/-- Has dispatch come to a DATUM or SYNC, which opens the next frames of both streams (R120), or to the end of the part? -/
def stream0Ended (c : Cluster) : Bool :=
  let o := cOp (fetchCmd c c.seq.pc)
  c.seq.wait ≠ .run || decide (c.seq.hdr.cmdN ≤ c.seq.pc) || o == oDATUM || o == oSYNC

/-- Does stream 0 wait for a frame to open (R140): its next command of the OPX queue is a wait that anchors, stands in a frame not yet opened, or is
still to be dispatched into one, or it has no further command before the DATUM, SYNC or part's end at which dispatch stands? -/
def stream0Waits (c : Cluster) : Bool :=
  match (c.seq.q0.filter (fun e => cStream e.raw == 0)).find? (fun e => isEngineOp e.raw || cOp e.raw == oFWAIT) with
  | some e => cOp e.raw == oFWAIT || (dueOf c e).isNone
  | none => (anchorOf c 0 c.seq.st0.no).isNone || stream0Ended c

/-- R140: may a stream-1 command that occupies the engine to cycle `last` issue now? It ends before the next stream-0 command, or stream 0
waits for a frame; its groups are free of active stream-0 streams. -/
def elasticOk (c : Cluster) (last : Nat) (new : List OpxStream) : Bool :=
  !(new.any (fun n => c.opx.streams.any (fun a => a.stream == 0 && streamsMeet n a))) &&
  (stream0Waits c || (match (nextStream0 c).bind (dueOf c) with
    | some d => decide (last < d)
    | none => false))

/-- Is a survey due and free to begin (R84, R496)? It comes before the engine's next command and at the next boundary of an open pass. -/
def surveyNow (s : State) (lc : Nat) : Bool :=
  let o := (cluster s lc).opx
  o.conv.isEmpty && o.convWait.isEmpty && (surveyDue s o.bankA || surveyDue s o.bankB)

/-- May the engine issue in cycle cyc: the cluster issues and no survey goes first? -/
def engineFree (s : State) (lc cyc : Nat) : Bool := issuingAt s lc cyc && !(surveyNow s lc)

/-- The head of the OPX queue that a row of opcode class `p` takes in cycle cyc, and the cycle in which it issues: F + OFFSET for stream 0
(R121), the present cycle for stream 1 when R140 lets it (`span` gives its last cycle and its streams). -/
def opxPick (s : State) (lc cyc : Nat) (p : QEntry → Bool) (span : Cluster → QEntry → Nat → Nat × List OpxStream) :
    Option (QEntry × Nat) :=
  let c := cluster s lc
    let order := match c.seq.q0 with
      | e :: _ => if cStream e.raw = 1 then [8, 0] else [0, 8]
      | [] => []
    (order.filterMap (headAt c)).findSome? (fun e =>
      if !(p e) then none
      else match dueOf c e with
        | none => none
        | some d =>
          if !(engineFree s lc (if cStream e.raw = 0 then d else cyc)) then none
          else if cStream e.raw = 0 then some (e, d)
          else if decide (d ≤ cyc) && (!e.live || elasticOk c (span c e cyc).1 (span c e cyc).2) then some (e, cyc) else none)

/-- R121: is the command at the head too late? Stream 1 is elastic. -/
def isLate (e : QEntry) (cyc i : Nat) : Bool := cStream e.raw == 0 && decide (i < cyc + 2)

/-! What a conveyor command is -/

/-- The last shift cycle of the conveyor's pending work. -/
def convEnd (o : Opx) : Option Nat := o.conv.foldl (fun m k => maxWave m (some (k.start + k.len - 1))) none

/-- Kind of conveyor operation of a command. -/
def convKindOf (raw : Nat) : ConvKind :=
  if cOp raw = oDRAIN then .drain
  else if cOp raw = oLOAD then (if loadImage raw then .image else .load)
  else if cOp raw = oSAVE then .save else .survey

/-- Bank that a conveyor command names. -/
def convBankOf (raw : Nat) : Bool := if cOp raw = oDRAIN then drainBank raw else convBank raw

/-- Shift cycles of a conveyor operation (Table 6-2): 8 for OPX.SAVE of an empty bank. -/
def convLen (o : Opx) (raw : Nat) : Nat :=
  match convKindOf raw with
  | .image => 272
  | .save => if (bankOfB o (convBankOf raw)).live then 272 else 8
  | _ => 128

/-! OPX.PASS -/

/-- Where a pass reads and when it runs. -/
structure PassPlan where
  fa : Nat
  fb : Nat
  k : Nat
  a : Nat
  b : Nat
  sa : Nat
  sb : Nat
  c : Nat
  paired : Bool
  t0 : Nat
  last : Nat
  deriving DecidableEq, Repr

/-- A pass whose update 0 enters in cycle t0 (R63, R69, R88, R89). -/
def planAt (e : QEntry) (t0 : Nat) : PassPlan :=
  let r0 := sref e.raw 0
  let r1 := sref e.raw 1
  let cost := updCost r0.fmt r1.fmt
  let paired := isPaired r0.fmt r1.fmt
  let k := passK e.raw
  let add (r : SRef) : Nat := if r.prmEn then ePrm e r.prmx else 0
  { fa := r0.fmt, fb := r1.fmt, k := k, a := formed e r0, b := formed e r1, sa := passAscale e.raw * 64 + add r0,
    sb := passBscale e.raw * 64 + add r1, c := cost, paired := paired, t0 := t0,
    last := t0 + (if paired then ceilDiv k 2 else k * cost) - 1 }

/-- Lead-in of a pass (R69). -/
def passLead (e : QEntry) : Nat := if isBs8 (sref e.raw 0).fmt || isBs8 (sref e.raw 1).fmt then 2 else 0

/-- The wavefronts by which a pass of a stream counts idleness (R77, R139). -/
def idleWave (c : Cluster) (k : Nat) : Option Nat := if k = 0 then c.opx.wave0 else maxWave c.opx.wave0 c.opx.wave1

/-- Ramp of a pass that issues in cycle i. -/
def passRamp (c : Cluster) (e : QEntry) (i : Nat) : Nat :=
  rampDelay (rampLen c.opx.ramp) (idleWave c (cStream e.raw)) c.opx.rowsOn i (i + passLead e)

/-- Plan a pass that issues in cycle i (R77, R121, R139). -/
def planPass (c : Cluster) (e : QEntry) (i : Nat) : PassPlan := planAt e (i + passRamp c e i + passLead e)

/-- Cycles that the first n updates of a pass take (R65, R88, R89). -/
def PassPlan.cycles (p : PassPlan) (n : Nat) : Nat := if p.paired then ceilDiv n 2 else n * p.c

/-- The first rank-one boundary at or after n updates (R90): in a paired cycle after both. -/
def PassPlan.boundary (p : PassPlan) (n : Nat) : Nat := min p.k (if p.paired then 2 * ceilDiv n 2 else n)

/-- Streams of updates lo to hi − 1 of a pass (R68): from the first read two cycles before the first wavefront to the last read. -/
def passStreams (e : QEntry) (p : PassPlan) (lo hi : Nat) : List OpxStream :=
  let first := p.t0 + p.cycles lo - 2
  let last := p.t0 + p.cycles hi - 1 - (if p.paired then 0 else p.c - 1) - 2
  [⟨some (groupAt p.a), first, last, cStream e.raw, p.a, e⟩, ⟨some (groupAt p.b), first, last, cStream e.raw, p.b, e⟩]

/-- A stream or scale address of the pass that breaks R69, R124 or R150: the box to report. A scale array lies in the layout of R67, so it starts a
1 KiB block, which holds the scales of 256 columns. -/
def passBound (e : QEntry) (p : PassPlan) : Option (Nat × Nat) :=
  let chk (r : SRef) (base sc : Nat) : Option (Nat × Nat) :=
    let fin := operandEnd base r.lstride (blockBytes r.fmt) p.k (blockBytes r.fmt)
    if base % 1024 ≠ 0 ∨ spTop + 1 < fin then some (base, fin - 1)
    else if isBs8 r.fmt && (groupAt sc != groupAt base || sc % 1024 != 0 || decide (spTop + 1 < sc + 4 * p.k)) then
      some (sc, sc + 4 * p.k - 1)
    else none
  (chk (sref e.raw 0) p.a p.sa).or (chk (sref e.raw 1) p.b p.sb)

/-- The values of column k of a stream (R45, R67). -/
def columnVals (m : Memory) (r : SRef) (base sc k : Nat) : List FVal :=
  let a := blockAddr base r.lstride (blockBytes r.fmt) k
  (List.range 128).map (fun i =>
    let scale := if isBs8 r.fmt then (memByte m (sc + k / 256 * (r.lstride * 4096) + k % 256 * 4 + i / 32)).toNat else 0
    decodeAny r.fmt scale (elemCode m r.fmt (a + i * fmtBits r.fmt / 8) (i % 2 == 1)))

/-- The words that update k of a stream reads; update 0 is preceded by the scale words (R69). -/
def columnWords (r : SRef) (base sc k n : Nat) : List Nat :=
  let a := unitsOf 64 (blockAddr base r.lstride (blockBytes r.fmt) k) (blockBytes r.fmt)
  if k = 0 ∧ isBs8 r.fmt then unitsOf 64 sc (4 * n) ++ a else a

/-- The first tag mismatch of updates lo to hi − 1: update, address, found tag, expected tag. -/
def passSlip (m : ClMem) (e : QEntry) (p : PassPlan) (lo hi : Nat) : Option (Nat × Nat × Nat × Nat) :=
  let r0 := sref e.raw 0
  let r1 := sref e.raw 1
  (rangeFrom lo (hi - lo)).findSome? (fun k =>
    ((firstBad m r0.chk r0.tag (columnWords r0 p.a p.sa k p.k)).map (fun x => (k, x.1, x.2, r0.tag))).or
      ((firstBad m r1.chk r1.tag (columnWords r1 p.b p.sb k p.k)).map (fun x => (k, x.1, x.2, r1.tag))))

/-- Would the first wavefront of a pass fall while the stream's last pass still has wavefronts to issue (R121)? -/
def waveBusy (c : Cluster) (e : QEntry) (p : PassPlan) : Bool :=
  match (if cStream e.raw = 0 then c.opx.wave0 else c.opx.wave1) with
  | some t => decide (p.t0 ≤ t)
  | none => false

/-- The checks that a pass makes at its first read and its first wavefront (R495): the first broken one as (cause, exp, found, group). -/
def passChecks (c : Cluster) (e : QEntry) (p : PassPlan) : Option (Nat × Nat × Nat × Nat) :=
  let bank := passBank e.raw
  let b := bankOfB c.opx bank
  let isInt := (sref e.raw 0).fmt == INT8
  match (if cStream e.raw = 0 then collision (passStreams e p 0 p.k) (actFor c e) else none) with
  | some (n, _) => some (5, 0, 0, n.group.getD 0)
  | none =>
    if shiftingAt c.opx bank p.t0 then some (4, 0, 0, groupAt p.a)
    else if parityAt c.opx bank p.t0 != passBseq e.raw then some (3, b2n (passBseq e.raw), b2n (parityAt c.opx bank p.t0), 0)
    else if !(passClear e.raw) && (match b.kind with
        | some x => x != isInt
        | none => false) then some (7, 0, 0, 0)
    else none

/-- The open pass of a stream. -/
def openOf (o : Opx) (k : Nat) : Option OpenPass := if k = 0 then o.open0 else o.open1

/-- Replace the open pass of a stream. -/
def setOpen (o : Opx) (k : Nat) (x : Option OpenPass) : Opx := if k = 0 then { o with open0 := x } else { o with open1 := x }

/-- Apply updates lo to hi − 1 of a pass that has passed its checks (R61 to R65, R80, R87, R154). The pass stays open until its last update. -/
def runUpdates (s : State) (lc : Nat) (e : QEntry) (p : PassPlan) (lo hi : Nat) : State :=
  let c := cluster s lc
  let m := c.mem
  let r0 := sref e.raw 0
  let r1 := sref e.raw 1
  let bank := passBank e.raw
  let b0 := bankOfB c.opx bank
  let b := if passClear e.raw ∧ lo = 0 then { Bank.clear b0.parity with updN := b0.updN, firstAon := b0.firstAon } else b0
  let isInt := r0.fmt == INT8
  let ks := rangeFrom lo (hi - lo)
  let cols := ks.map (fun k => (mkCol (columnVals m.sp r0 p.a p.sa k), mkCol (columnVals m.sp r1 p.b p.sb k)))
  let reads (k : Nat) : List Nat := columnWords r0 p.a p.sa k p.k ++ columnWords r1 p.b p.sb k p.k
  let ws := setAddAll [] (ks.flatMap reads)
  let pz := poisonedOf m ws
  let slip := passSlip m e p lo hi
  let last := p.t0 + p.cycles hi - 1
  let b := applyPass b isInt p.paired cols s.clk.aon last
  let b := { b with status := orBit (orBit b.status tsPOISON (!pz.isEmpty || slip.isSome)) tsSLIP slip.isSome }
  let k := cStream e.raw
  let o := setBank c.opx bank b
  let o := { o with
    wave0 := if k = 0 then some last else o.wave0
    wave1 := if k = 0 then o.wave1 else some last
    occ1 := if k = 0 then o.occ1 else some (p.t0 + p.cycles lo, if p.paired then 1 else p.c, last)
    idle := false
    streams := if k ≠ 0 then liveStreams o.streams p.t0 ++ passStreams e p lo hi
      else if lo = 0 then liveStreams o.streams p.t0 ++ passStreams e p 0 p.k else o.streams }
  let o := setOpen o k (if hi < p.k then some ⟨e, p.t0, hi⟩ else none)
  let c := consumePoison { (atCycle c (p.t0 + p.cycles lo)) with opx := o, mem := spTouchAll m (ks.map reads) } pz.length
  let s := dispatch (setCluster s lc c) lc
  match slip with
  | none => s
  | some (n, a, found, exp) => raiseSlip s lc 0 e ⟨slipTag found exp, p.t0 + p.cycles (n + 1) - (if p.paired then 1 else p.c) - 2, exp, found, a, 0⟩

/-- Raise the slip of a command that issued before and begins its accesses after another's check (R68). -/
def slipLater (s : State) (lc : Nat) (x : Option (OpxStream × OpxStream)) : State :=
  match x with
  | none => s
  | some (a, n) =>
    if (cluster s lc).seq.stop.isSome then s else raiseSlip s lc 0 a.e ⟨5, a.first, 0, 0, a.addr, sharedGroup a n⟩

/-- The cycle after the work that the conveyor still owes (R73). -/
def convFree (o : Opx) : Nat :=
  (o.convWait.foldl (fun t e => t + convLen o e.raw) ((o.conv.foldl (fun m k => max m (k.start + k.len)) 0)))

/-- The boundary at which a due survey ends the pass's present run (R84): the bank's 65,536th update, or the first when one is due already, but not
before the conveyor is free. `k` when none falls due. -/
def surveyStop (s : State) (lc : Nat) (p : PassPlan) (b : Bank) (lo : Nat) : Nat :=
  let o := (cluster s lc).opx
  let n1 := if surveyDue s o.bankA || surveyDue s o.bankB then lo else lo + (65536 - b.updN)
  let n2 := (convFree o - p.t0) * (if p.paired then 2 else 1)
  p.boundary (max n1 (if p.paired then n2 else ceilDiv n2 p.c))

/-- Carry an open pass on (R90, R140): its checks when it has done no update, then its updates to the boundary that `upto` names, to a survey that
falls due, or to its end. A stream-1 pass goes one boundary at a time while stream 0 waits for a frame, which would stop it there. -/
def passGo (s : State) (lc : Nat) (x : OpenPass) (upto : Option Nat) : State :=
  let c := cluster s lc
  let k := cStream x.e.raw
  let p := planAt x.e x.t0
  match (if x.done = 0 then passChecks c x.e p else none) with
  | some (cause, exp, found, group) =>
    raiseSlip (modOpx s lc (fun o => setOpen o k none)) lc 0 x.e ⟨cause, if cause = 5 then p.t0 - 2 else p.t0, exp, found, p.a, group⟩
  | none =>
    let want := if k = 1 && stream0Waits c then x.done + 1 else x.done + upto.getD p.k
    let hi := min (p.boundary want) (max (x.done) (surveyStop s lc p (bankOfB c.opx (passBank x.e.raw)) x.done))
    if hi ≤ x.done then s
    else
      let later := if x.done = 0 ∧ k = 0 then laterCollision (passStreams x.e p 0 p.k) (actFor c x.e) else none
      slipLater (runUpdates s lc x.e p x.done hi) lc later

/-- An open pass of stream 1 in cycle cyc (R140): its remaining updates follow the last wavefront and any ramp, when their wavefronts end before the
next stream-0 command or stream 0 waits for a frame. -/
def elasticPass (c : Cluster) (x : OpenPass) (cyc : Nat) (upto : Option Nat) : Option OpenPass :=
  let p := planAt x.e x.t0
  let next := x.t0 + p.cycles x.done
  let free := match maxWave c.opx.wave0 c.opx.wave1 with
    | some t => t + 1
    | none => 0
  let i := max cyc (max next free)
  let t0 := if x.done = 0 then i else i + passRamp c x.e i - p.cycles x.done
  let p := planAt x.e t0
  let hi := p.boundary (if stream0Waits c then x.done + 1 else x.done + upto.getD p.k)
  if elasticOk c (t0 + p.cycles hi - 1) (passStreams x.e p x.done hi) then some { x with t0 := t0 } else none

/-- The earliest cycle at which a pass's first wavefront finds no wavefront of the other stream. -/
def waveFree (c : Cluster) (e : QEntry) (p : PassPlan) : Bool :=
  cStream e.raw == 0 || (match c.opx.wave0 with
    | some t => decide (t < p.t0)
    | none => true)

/-- A pass at the head of the OPX queue issues (R121, R153, R495): late, out of bounds or in the way of its stream's last pass it does not; else it
runs its ramp, if it needs one, and then its updates. -/
def passIssue (s : State) (lc cyc : Nat) (upto : Option Nat) : State :=
  match opxPick s lc cyc (fun e => cOp e.raw == oPASS && (openOf (cluster s lc).opx (cStream e.raw)).isNone)
      (fun c e i => let p := planPass c e i; (p.last, passStreams e p 0 p.k)) with
  | none => s
  | some (e, i) =>
    if !e.live then retire (modCluster s lc (fun c => atCycle c i)) lc 0 e
    else if isLate e cyc i then opxSlip s lc e 8 (i - 2) 0 0 0 0
    else
      let c := cluster s lc
      let p := planPass c e i
      match passBound e p with
      | some (lo, hi) => boundFault s lc e.idx lo hi false
      | none =>
        if waveBusy c e p then opxSlip s lc e 0xA p.t0 0 0 p.a 0
        else if !(waveFree c e p) then s
        else
          let x : OpenPass := ⟨e, p.t0, 0⟩
          let s := modCluster s lc (fun c => let c := dropEntry (atCycle c i) 0 e; { c with opx := setOpen c.opx (cStream e.raw) (some x) })
          if p.t0 = i then passGo s lc x upto else dispatch s lc

/-- OPX.PASS in cycle cyc (R153): the open pass of stream 0 goes on, else that of stream 1 when R140 lets it, else the pass at the head of the OPX
queue issues. -/
def opxPass (s : State) (lc cyc : Nat) (upto : Option Nat) : State :=
  let c := cluster s lc
  if !(issuing s lc) || surveyNow s lc then passIssue s lc cyc upto
  else match c.opx.open0 with
    | some x => passGo s lc x upto
    | none =>
      match c.opx.open1.bind (fun x => elasticPass c x cyc upto) with
      | some x => passGo s lc x upto
      | none => passIssue s lc cyc upto

/-! Conveyor operations -/

/-- The slot that a conveyor command loads rows from. -/
def loadSlot (raw : Nat) : Option SRef :=
  if cOp raw = oDRAIN then (if drainLoadEn raw then some (sref raw 1) else none)
  else if cOp raw = oLOAD ∧ !(loadImage raw) then some (sref raw 0) else none

/-- Streams of a conveyor operation that begins shifting in cycle d (R68, R157). -/
def convStreams (o : Opx) (e : QEntry) (d : Nat) : List OpxStream :=
  let k := cStream e.raw
  let at0 := formed e (sref e.raw 0)
  match convKindOf e.raw with
  | .image => [⟨none, d, d + 271, k, at0, e⟩]
  | .save => [⟨none, d, d + convLen o e.raw - 1, k, at0, e⟩]
  | .survey => []
  | _ =>
    let chk := if (loadSlot e.raw).isSome then d - 2 else d
    (match loadSlot e.raw with
     | some r => [⟨some (groupAt (formed e r)), chk, d + 125, k, formed e r, e⟩]
     | none => []) ++
    (if cOp e.raw = oDRAIN ∧ !(drainToVec e.raw) then [⟨some (groupAt at0), chk, d + 129, k, at0, e⟩] else [])

/-- An address of a conveyor command that breaks R150, R156 or R157: the box to report. -/
def convBound (c : Cluster) (e : QEntry) : Option (Nat × Nat × Bool) :=
  let rows (r : SRef) (w : Bool) : Option (Nat × Nat × Bool) :=
    let base := formed e r
    let fin := operandEnd base r.lstride 512 128 512
    if base % 1024 ≠ 0 ∨ spTop + 1 < fin then some (base, fin - 1, w) else none
  let image (w : Bool) : Option (Nat × Nat × Bool) :=
    let base := formed e (sref e.raw 0)
    let sv := c.opx.saveBase * 4096
    if base % 4096 ≠ 0 ∨ spTop + 1 < base + 0x22000 ∨ (base < sv + 0x44000 ∧ sv < base + 0x22000) then
      some (base, base + 0x22000 - 1, w) else none
  match convKindOf e.raw with
  | .survey => none
  | .image => image false
  | .save => image true
  | _ =>
    ((if cOp e.raw = oDRAIN ∧ !(drainToVec e.raw) then rows (sref e.raw 0) true else none)).or
      (match loadSlot e.raw with
       | some r => rows r false
       | none => none)

/-- Raise CHECKSUM_MISMATCH (R83, R362, Table 13-6): the third report of one interval faults the step. `detail` is bits [255:0] of the
tile status. -/
def raiseChecksum (s : State) (lc detail : Nat) : State :=
  let n := (cluster s lc).log.reports.filter (fun r => r.1 == 1) |>.length
  let cls := if n = 0 then 1 else if n = 1 then 2 else 3
  let s := logEvent s 0x0004 cls 0 lc (repeatLink (cluster s lc) n) (detail % 2 ^ 256)
  let s := modCluster s lc (fun c =>
    { c with log := { c.log with reports := c.log.reports ++ [(1, n)] }, opx := { c.opx with evMismatches := satAdd 16 c.opx.evMismatches 1 } })
  if 2 ≤ n then stepFaulted s (lastEntry s) else stopWith s lc .checksum

/-- The rows that enter a bank: their values, the poisoned words, the first tag mismatch (row, address, found tag), the words read. -/
structure LoadRows where
  v : Sparse F32
  isInt : Bool
  poison : Nat
  slip : Option (Nat × Nat × Nat)
  words : List Nat
  deriving DecidableEq, Repr

/-- Address of tile row r of a slot (R67). -/
def rowAddr (base lstride r : Nat) : Nat := blockAddr base lstride 512 r

/-- Read the load rows of a slot (R155). -/
def readRows (m : ClMem) (e : QEntry) (r : SRef) : LoadRows :=
  let base := formed e r
  let ws := operandWords FP32 base r.lstride 16384
  { v := spTab 0 16384 (fun x => BitVec.ofNat 32 (operandCode m.sp FP32 base r.lstride x))
    isInt := r.fmt == INT32
    poison := (poisonedOf m ws).length
    slip := (List.range 128).findSome? (fun i =>
      (firstBad m r.chk r.tag (unitsOf 64 (rowAddr base r.lstride i) 512)).map (fun x => (i, x.1, x.2)))
    words := ws }

/-- The bank after a load from a slot, or cleared. -/
def nextBank (parity : Bool) (l : Option LoadRows) : Bank :=
  match l with
  | none => Bank.clear parity
  | some l => loadBank parity l.isInt (l.poison ≠ 0 || l.slip.isSome) l.slip.isSome (fun x => spGet 0 l.v x)

/-- A slip of the rows that a conveyor operation loaded: row r is read in cycle D + r − 2 (R155). -/
def loadSlip (s : State) (lc : Nat) (e : QEntry) (r : SRef) (d : Nat) (l : Option LoadRows) : State :=
  match l with
  | some l => (match l.slip with
    | some (i, a, found) => raiseSlip s lc 0 e ⟨slipTag found r.tag, d + i - 2, r.tag, found, a, 0⟩
    | none => s)
  | none => s

/-- Enter a begun operation and its streams. -/
def beginConv (o : Opx) (e : QEntry) (d : Nat) : Opx :=
  { o with
    conv := o.conv ++ [⟨convKindOf e.raw, convBankOf e.raw, d, convLen o e.raw, e.idx, e.ord⟩]
    streams := liveStreams o.streams d ++ convStreams o e d
    occ1 := if cStream e.raw = 1 then some (d, convLen o e.raw, d + convLen o e.raw - 1) else o.occ1 }

/-- The drain's tile status (R86): the compares of R81 at cycle d. -/
def drainResult (c : Cluster) (raw : Nat) : CmpResult :=
  let b := bankOfB c.opx (convBankOf raw)
  compareTile b (drainValue b) true

/-- The write cycle of a drained piece (R75, R86): row r in D + r + 2, the status word in D + 132. -/
def drainCycle (d base lstride a : Nat) : Nat :=
  match (List.range 128).find? (fun r => decide (rowAddr base lstride r ≤ a) && decide (a < rowAddr base lstride r + 512)) with
  | some r => d + r + 2
  | none => d + 132

/-- Does a row that arrives in cycle t find both tile slots of the drain buffer taken (R75, R179)? -/
def drainBufferFull (v : VecRow) (t : Nat) : Bool := decide (2 ≤ v.drain.length + (v.busy.filter (fun f => decide (t < f))).length)

/-- OPX.DRAIN begins shifting in cycle d (R72, R75, R81 to R83, R155). A drain that slips, for a full drain buffer or for a load row's tag, delivers
or writes its tile with poison and SLIP (R135). DESIGN CHOICE (log 44): the first drain after a datum is number 1. -/
def drainStart (s : State) (lc : Nat) (e : QEntry) (d : Nat) : State :=
  let c := cluster s lc
  let raw := e.raw
  let bank := drainBank raw
  let b := bankOfB c.opx bank
  let r0 := sref raw 0
  let isInt := b.kind == some true
  let full := drainToVec raw && drainBufferFull c.vr (d + 1)
  let load := (loadSlot raw).map (readRows c.mem e)
  let slips := full || (match load with
    | some l => l.slip.isSome
    | none => false)
  let res := drainResult c raw
  let b1 := if slips then { b with status := orBit (orBit b.status tsPOISON true) tsSLIP true } else b
  let st := statusWord b1 bank res (c.opx.drainSeq + 1) d
  let pz := tbit b1.status tsPOISON
  let base := formed e r0
  let els := (List.range 16384).map (fun x => (⟨(drainValue b x).toNat, pz⟩ : WElem))
  let stw := leBytes 64 st.toNat
  let ps := if drainToVec raw then [] else destPieces c.mem.sp FP32 base r0.lstride els ++ runPieces (drainStatus raw * 64) stw slips
  match inboundHit c ps with
  | some p => raiseSlip s lc 0 e ⟨9, drainCycle d base r0.lstride p.addr, 0, 0, p.addr, 0⟩
  | none =>
    let nb := nextBank b.parity load
    let c1 := spWriteAll { c with mem := (match load with
      | some l => spTouchAll c.mem (chunks 8 l.words)
      | none => c.mem) } ps r0.tag
    let c2 := { c1 with
      opx := { (setBank (beginConv c.opx e d) bank nb) with drainSeq := c.opx.drainSeq + 1 }
      vr := if drainToVec raw && !full then
          { c1.vr with drain := c1.vr.drain ++ [⟨spTab 0 16384 (drainValue b), isInt, pz, st, d⟩] }
        else if full then { c1.vr with drainFull := satAdd 16 c1.vr.drainFull 1 } else c1.vr }
    let c3 := consumePoison (if drainToVec raw then c2 else carry c2 st.toNat) (match load with
      | some l => l.poison
      | none => 0)
    let s := setCluster s lc (atCycle c3 d)
    let s := if tbit st.toNat tsUNB then noteUnbounded s lc e.idx b.n else s
    if full then raiseSlip s lc 0 e ⟨6, d + 1, 0, 0, 0, 0⟩
    else
      let s := if res.mismatch then raiseChecksum s lc st.toNat else s
      if (cluster s lc).seq.stop.isSome then s else loadSlip s lc e (sref raw 1) d load

/-- The survey counts of a bank go on: only a drain or a survey restarts them (R84). -/
def keepCounts (old new : Bank) : Bank := { new with updN := old.updN, firstAon := old.firstAon }

/-- OPX.LOAD with IMAGE = 0 begins (R72, R156). -/
def loadStart (s : State) (lc : Nat) (e : QEntry) (d : Nat) : State :=
  let c := cluster s lc
  let b := bankOfB c.opx (convBank e.raw)
  let l := readRows c.mem e (sref e.raw 0)
  let nb := keepCounts b (nextBank b.parity (some l))
  let c := consumePoison { (atCycle c d) with
    opx := setBank (beginConv c.opx e d) (convBank e.raw) nb
    mem := spTouchAll c.mem (chunks 8 l.words) } l.poison
  loadSlip (setCluster s lc c) lc e (sref e.raw 0) d (some l)

/-- The cycle in which the conveyor reads or writes an address of an image, 512 bytes a cycle (R90, R156; DEDUCED, log 44). -/
def imageCycle (d base a : Nat) : Nat := d + (a - base) / 512

/-- OPX.LOAD with IMAGE = 1 begins (R156): a header that does not check raises CHECKSUM_MISMATCH. -/
def imageStart (s : State) (lc : Nat) (e : QEntry) (d : Nat) : State :=
  let c := cluster s lc
  let r := sref e.raw 0
  let base := formed e r
  let bank := convBank e.raw
  let b := bankOfB c.opx bank
  let live := natBits (memLe c.mem.sp (base + 0x21000) 64) 8 1 == 1
  let ws := if live then imageWords base else unitsOf 64 (base + 0x21000) 64
  let pz := poisonedOf c.mem ws
  let slip := firstBad c.mem r.chk r.tag ws
  match readImage c.mem.sp base lc with
  | none => raiseChecksum (modCluster s lc (fun c => { (atCycle c d) with mem := spTouchAll c.mem (chunks 8 ws) })) lc 0
  | some nb =>
    let nb := keepCounts b (normInt { nb with parity := b.parity })
    let nb := if nb.live then
        { nb with status := orBit (orBit nb.status tsPOISON (!pz.isEmpty || slip.isSome)) tsSLIP slip.isSome }
      else nb
    let c := consumePoison { (atCycle c d) with opx := setBank (beginConv c.opx e d) bank nb, mem := spTouchAll c.mem (chunks 8 ws) } pz.length
    let s := setCluster s lc c
    match slip with
    | some (a, found) => raiseSlip s lc 0 e ⟨slipTag found r.tag, imageCycle d base a, r.tag, found, a, 0⟩
    | none => s

/-- OPX.SAVE begins (R157): the image is written with DTAG, the bank is cleared. BSEQ is the parity at D, which an operation that has ended before has
flipped; ISSUE_CYCLE is D (log 44). -/
def saveStart (s : State) (lc : Nat) (e : QEntry) (d : Nat) : State :=
  let c := cluster s lc
  let r := sref e.raw 0
  let base := formed e r
  let bank := convBank e.raw
  let b := bankOfB c.opx bank
  let b1 := { b with parity := parityAt c.opx bank d }
  let ps := (imageParts b1 bank lc { SaveInfo.none with issue := d }).flatMap (fun p => runPieces (base + p.1) p.2 false)
  match inboundHit c ps with
  | some p => raiseSlip s lc 0 e ⟨9, imageCycle d base p.addr, 0, 0, p.addr, 0⟩
  | none =>
    let c1 := spWriteAll c ps r.tag
    setCluster s lc { (atCycle c1 d) with opx := setBank (beginConv c.opx e d) bank (keepCounts b (Bank.clear b.parity)) }

/-- The outcome of a survey on its bank (R81, R84 to R86): counts restart; the chain's status records what was compared and excluded, and
SURVEYED when the survey passes; SURVEYS counts it. -/
def surveyBank (b : Bank) (res : CmpResult) : Bank :=
  { b with
    updN := 0, firstAon := none
    status := let st := b.status ||| res.bits; if res.mismatch then st else orBit st tsSURVEYED true
    surveys := min (b.surveys + 1) 65535 }

/-- The compares of a survey: values and checksum cells as they stand, no fold (R72, R82). -/
def surveyResult (b : Bank) : CmpResult := compareTile b (fun x => (spGet Cell.zero b.cells x).s) false

/-- OPX.SURVEY begins (R158). -/
def surveyStart (s : State) (lc : Nat) (e : QEntry) (d : Nat) : State :=
  let c := cluster s lc
  let bank := convBank e.raw
  let b := bankOfB c.opx bank
  let res := surveyResult b
  let s := setCluster s lc { (atCycle c d) with opx := setBank (beginConv c.opx e d) bank (surveyBank b res) }
  if res.mismatch then raiseChecksum s lc (statusWord b bank res c.opx.drainSeq d).toNat else s

/-- Would a conveyor operation on a bank begin in cycle d before the fourth cycle after the last wavefront issued into it, of a pass that has ended or
still runs (R74)? A pass whose ramp or lead-in lasts has issued none; it is judged at its own first wavefront (R73, R154). -/
def bankBusy (o : Opx) (bank : Bool) (d : Nat) : Bool :=
  (match (bankOfB o bank).lastWave with
   | some t => decide (d < t + 4)
   | none => false) ||
  (match o.open0 with
   | some x => passBank x.e.raw == bank && decide (x.t0 ≤ d) && decide (d < (planAt x.e x.t0).last + 4)
   | none => false)

/-- The start checks of a conveyor operation after its address check (R495): GROUP_COLLISION, BANK_BUSY, KIND_MIX, as (cause, group). -/
def convChecks (c : Cluster) (e : QEntry) (d : Nat) : Option (Nat × Nat) :=
  let b := bankOfB c.opx (convBankOf e.raw)
  match (if cStream e.raw = 0 then collision (convStreams c.opx e d) (actFor c e) else none) with
  | some (n, a) => some (5, sharedGroup n a)
  | none =>
    if bankBusy c.opx (convBankOf e.raw) d then some (4, groupAt (formed e (sref e.raw 0)))
    else if cOp e.raw == oDRAIN && !(drainToVec e.raw) &&
        (sref e.raw 0).fmt != (if b.kind == some true then INT32 else FP32) then some (7, 0)
    else none

/-- Begin a conveyor command that leaves the queue in cycle d, by its kind. -/
def convStart (s : State) (lc : Nat) (e : QEntry) (d : Nat) : State :=
  match convChecks (cluster s lc) e d with
  | some (cause, group) =>
    raiseSlip (modCluster s lc (fun c => atCycle c d)) lc 0 e
      ⟨cause, if cause = 5 ∧ (loadSlot e.raw).isSome then d - 2 else d, 0, 0, formed e (sref e.raw 0), group⟩
  | none =>
    let later := if cStream e.raw = 0 then laterCollision (convStreams (cluster s lc).opx e d) (actFor (cluster s lc) e) else none
    let s := match convKindOf e.raw with
      | .drain => drainStart s lc e d
      | .load => loadStart s lc e d
      | .image => imageStart s lc e d
      | .save => saveStart s lc e d
      | .survey => surveyStart s lc e d
    dispatch (slipLater s lc later) lc

/-- An open pass goes on before a later command of its stream issues in cycle i: one of stream 0 to its next wavefront, or its first read, one of
stream 1 to its end. A conveyor operation on the pass's own bank goes first when it begins before the pass's first wavefront (R74). -/
def passFirst (c : Cluster) (e : QEntry) (i : Nat) : Bool :=
  match openOf c.opx (cStream e.raw) with
  | none => false
  | some x => cStream e.raw == 1 || decide ((if x.done = 0 then (if passBank x.e.raw = convBankOf e.raw then x.t0 else x.t0 - 2) else x.t0 + (planAt x.e x.t0).cycles x.done) ≤ i)

/-- Is the conveyor taken in cycle i, by an operation that shifts or by those that wait behind it (R73)? -/
def convBusy (o : Opx) (i : Nat) : Bool :=
  !o.convWait.isEmpty || (match convEnd o with
    | some t => decide (i ≤ t)
    | none => false)

/-- A conveyor command of a kind at the head of the OPX queue in cycle cyc: it starts in its issue cycle, or waits for the operation that
is shifting (R73). One of stream 1, which R140 lets wait, issues only once the conveyor is free, so that its shifts are those that R140 judges and its start
never delays stream 0 (R139; DEDUCED, log 44). -/
def opxConv (s : State) (lc cyc : Nat) (k : ConvKind) : State :=
  match opxPick s lc cyc
      (fun e => (cOp e.raw == oDRAIN || cOp e.raw == oLOAD || cOp e.raw == oSAVE || cOp e.raw == oSURVEY) && convKindOf e.raw == k &&
        (cStream e.raw == 0 || !e.live || !(convBusy (cluster s lc).opx cyc)))
      (fun c e i => (i + convLen c.opx e.raw - 1, convStreams c.opx e i)) with
  | none => s
  | some (e, i) =>
    if passFirst (cluster s lc) e i then s
    else if !e.live then retire (modCluster s lc (fun c => atCycle c i)) lc 0 e
    else if isLate e cyc i then opxSlip s lc e 8 (i - 2) 0 0 0 0
    else
      let c := cluster s lc
      match convBound c e with
      | some (lo, hi, w) => boundFault s lc e.idx lo hi w
      | none =>
        let s := modCluster s lc (fun c => dropEntry (atCycle c i) 0 e)
        if convBusy c.opx i then
          dispatch (modOpx s lc (fun o => { o with convWait := o.convWait ++ [e] })) lc
        else convStart s lc e i

/-- Does the conveyor shift (R70, R90)? It completes what has issued while a pause waits for it and after a slip has stopped the cluster (R135 step 2); a
clamp and an automatic survey stop it. -/
def shifts (s : State) (lc : Nat) : Bool := (atWork s lc || slipping s lc) && (cluster s lc).opx.hold != 1 && (cluster s lc).opx.hold != 2

/-- A waiting conveyor operation begins in the cycle after the last shift of the one before (R73). -/
def conveyorDeferred (s : State) (lc : Nat) : State :=
  let c := cluster s lc
  match c.opx.convWait, convEnd c.opx with
  | e :: r, some t =>
    if shifts s lc then
      convStart (modOpx s lc (fun o => { o with convWait := r })) lc e (t + 1)
    else s
  | _, _ => s

/-- The oldest conveyor operation has made its last shift: it retires and, when it loads or clears, the bank's parity flips (R73). A wait
behind it keeps the place of its end. The issue-cycle count stands while a pause waits (R90). -/
def conveyorDone (s : State) (lc : Nat) : State :=
  let c := cluster s lc
  match c.opx.conv with
  | [] => s
  | k :: r =>
    if !(shifts s lc) ∨ (r.isEmpty ∧ !c.opx.convWait.isEmpty) then s
    else
      let b := bankOfB c.opx k.bank
      let b := if k.kind = .survey then b else { b with parity := !b.parity }
      advance s lc (fun c =>
        let c := { c with opx := { (setBank c.opx k.bank b) with conv := r } }
        if c.pausing then c else atCycle c (k.start + k.len))

/-! Surveys, activity and clamp -/

/-- Add to the lost cycles of the period (R373). -/
def addLost (c : Cluster) (n : Nat) : Cluster :=
  { c with log := { c.log with lost := match c.log.lost with
      | x :: r => (x + n) :: r
      | [] => [n] } }

/-- Cycles of an automatic survey's hold (R85). -/
def surveyCycles : Nat := 132

/-- An automatic survey begins (R84, R85, R496): its bank is due, the engine stands at a rank-one boundary with the conveyor free, and no clamp or pause
goes first. It holds the cluster. -/
def surveyBegin (s : State) (lc : Nat) (bank : Bool) : State :=
  modCluster s lc (fun c =>
    addLost (setHold { c with opx := { c.opx with survey := some bank, evSurveys := satAdd 32 c.opx.evSurveys 1 } }) surveyCycles)

/-- The automatic survey ends (R83, R85): its compares are made, the hold ends, and issue resumes unless a pause waits. -/
def surveyEnd (s : State) (lc : Nat) (bank : Bool) : State :=
  let c := cluster s lc
  let b := bankOfB c.opx bank
  let res := surveyResult b
  let s := modCluster s lc (fun c => setHold { c with opx := { (setBank c.opx bank (surveyBank b res)) with survey := none } })
  if res.mismatch then raiseChecksum s lc (statusWord b bank res c.opx.drainSeq c.seq.icyc).toNat else dispatch s lc

/-- AUTO_SURVEY (R84, R85): begins the survey of a bank that is due, or ends the one in progress when no clamp has put it off (R79). -/
def autoSurveyOp (s : State) (lc : Nat) (bank : Bool) : State :=
  let c := cluster s lc
  let b := bankOfB c.opx bank
  if c.opx.survey == some bank then (if atWork s lc && c.opx.hold == 2 then surveyEnd s lc bank else s)
  else if running s lc && c.opx.conv.isEmpty && c.opx.convWait.isEmpty && surveyDue s b then surveyBegin s lc bank
  else s

/-- The array becomes idle after 64 issue cycles without a wavefront and disables its rows, whatever stopped the wavefronts (R77). -/
def arrayIdleOp (s : State) (lc cyc : Nat) : State :=
  let o := (cluster s lc).opx
  match disableFrom (maxWave o.wave0 o.wave1) o.rowsOn with
  | some d =>
    if d ≤ cyc ∧ o.open0.isNone ∧ o.open1.isNone ∧ (lcEntry s lc).mapped ∧ o.hold = 0 then
      modCluster s lc (fun c => atCycle { c with opx := { c.opx with idle := true } } cyc)
    else s
  | none => s

/-- A current excursion in issue cycle cyc holds the cluster at the next rank-one boundary, or at once when another hold stands, and disables the
rows (R79). One during the disabled cycles belongs to the clamp in progress; one after `ramped` cycles of its ramp cuts the ramp and starts a new clamp. -/
def clampOp (s : State) (lc cyc ramped : Nat) : State :=
  let c := cluster s lc
  if !(lcEntry s lc).mapped || c.opx.clampRows then s
  else modCluster s lc (fun c =>
    let n := if c.opx.clampRamp then min ramped (rampLen c.opx.ramp) else 0
    let x := if c.pausing || c.pausedOk then c.opx.issueAt else max cyc (issueCount c)
    addLost (setHold { c with opx := { c.opx with
      clampRows := true, clampRamp := false, rowsOn := some x, evClamps := satAdd 16 c.opx.evClamps 1 } }) n)

/-- The disabled cycles of a clamp end, after `cycles` of at most 64, and the ramp begins (R79). -/
def clampRampOp (s : State) (lc cycles : Nat) : State :=
  modCluster s lc (fun c => addLost (setHold { c with opx := { c.opx with clampRows := false, clampRamp := true } }) (min 64 cycles))

/-- The ramp of a clamp ends: every row is enabled, and issue or the other hold's work resumes (R79). -/
def clampDoneOp (s : State) (lc : Nat) : State :=
  dispatch (modCluster s lc (fun c =>
    addLost (setHold { c with opx := { c.opx with clampRamp := false, idle := false } }) (rampLen c.opx.ramp))) lc

end Sys2Proof.Machine
end

