-- ==== Sys2Proof/Machine/HubRegs.lean ====
section
/-! DEFINITION. Hub register reads (R34, R94, R204, R211, R223, R224, R231, 09, R257, R258, R284, R295, R324, R408, R411, R418, R425, R436, R463, R476),
their classes (Table 16-7) and who may read them (Table 16-8). A register is named by its offset from 0x7F00_0000_0000. -/

namespace Sys2Proof.Machine

/-- LCMAPn (Table 1-6). -/
def lcBits (s : State) (n : Nat) : Nat :=
  let e := lcEntry s n
  packFields [(if e.mapped then e.phys else 0x7F, 7), (0, 1), (secOf n, 2), (b2n e.mapped, 1), (b2n (e.mapped && decide (64 ≤ e.phys)), 1),
    (e.moves, 4)]

/-- Is a group of rows being enabled or disabled (R77, R79)? A clamp's ramp, the ramp of a pass that has issued, or the L cycles after the array has
become idle. -/
def rampingNow (o : Opx) (icyc : Nat) : Bool :=
  let up (x : Option OpenPass) : Bool := match x with
    | some x => x.done == 0
    | none => false
  !o.clampRows && (o.clampRamp || up o.open0 || up o.open1 ||
    (o.idle && (match disableFrom (maxWave o.wave0 o.wave1) o.rowsOn with
      | some d => decide (icyc < d + rampLen o.ramp)
      | none => false)))

/-- OPX_CTL, OPX_STAT, OPX_CHAIN_A, OPX_CHAIN_B, OPX_EVT (Tables 3-12 to 3-14). -/
def opxReg (s : State) (lc k : Nat) : Nat :=
  let o := (cluster s lc).opx
  let fl (b : Bank) : Bool := b.kind != some true
  match k with
  | 0 => packFields [(o.ramp, 3), (0, 1), (o.saveBase, 10)]
  | 1 =>
    packFields [(b2n o.bankA.parity, 1), (b2n o.bankB.parity, 1), (b2n (fl o.bankA && decide (nStd < o.bankA.n) && decide (o.bankA.n ≤ nComp)), 1),
      (b2n (fl o.bankB && decide (nStd < o.bankB.n) && decide (o.bankB.n ≤ nComp)), 1),
      (b2n (fl o.bankA && decide (nComp < o.bankA.n)), 1), (b2n (fl o.bankB && decide (nComp < o.bankB.n)), 1), (b2n (!o.conv.isEmpty), 1),
      (b2n (!o.idle && !o.clampRows && !(rampingNow o (cluster s lc).seq.icyc)), 1), (b2n (rampingNow o (cluster s lc).seq.icyc), 1), (o.hold, 2), (b2n o.paused, 1)]
  | 2 => o.bankA.n % 2 ^ 48
  | 3 => o.bankB.n % 2 ^ 48
  | 4 => packFields [(o.evSurveys, 32), (o.evClamps, 16), (o.evMismatches, 16)]
  | _ => 0

/-- VR_STAT, VR_CFLAGS, VR_EVT (Table 7-4). A VEC or ROW command is one step, so VEC_BUSY and ROW_BUSY read 0 between steps. -/
def vrReg (s : State) (lc k : Nat) : Nat :=
  let c := cluster s lc
  match k with
  | 0 =>
    packFields [(min 2 (c.vr.drain.length + (c.vr.busy.filter (fun t => decide (c.seq.icyc < t))).length), 2), (0, 2), (c.vr.ctxs.length, 9), (b2n (c.opx.hold ≠ 0 || c.pausing || c.pausedOk), 1),
      (b2n c.vr.spillWait, 1)]
  | 1 => c.vr.cflags % 16
  | 2 => packFields [(c.vr.ctxRefused, 16), (c.vr.poisonRows, 16), (c.vr.drainFull, 16)]
  | _ => 0

/-- Tablets lo, lo + 1, … as 2-bit fields. -/
def tabBits (m : ClMem) (lo n : Nat) : Nat := packFields ((rangeFrom lo n).map (fun i => (spGet 3 m.tab i, 2)))

/-- SP_MSTAT (Table 9-4). -/
def spMstat (m : ClMem) : Nat :=
  packFields [(b2n m.marchRun, 1), (b2n (!m.moving.isEmpty), 1), (m.lastAlg, 2), (b2n m.lastFail, 1), (m.fail.1, 2), (m.fail.2.1, 6),
    (m.fail.2.2, 10), (0, 9), (m.denied, 16), (m.marches, 16)]

/-- The bank registers (Table 9-4). -/
def spReg (s : State) (lc k : Nat) : Nat :=
  let m := (cluster s lc).mem
  match k with
  | 0 => tabBits m 0 32
  | 1 => tabBits m 32 32
  | 2 => tabBits m 64 12
  | 3 => m.retain
  | 4 => m.armMask
  | 5 => packFields [(m.sideRet, 4), (m.seqRet, 8), (b2n m.arm, 1), (b2n m.overdue, 1)]
  | 6 => spMstat m
  | 7 =>
    let u := m.ue.getD (0, 0, 0)
    packFields [(m.ceN, 16), (m.ueN, 16), (u.1, 2), (u.2.1, 6), (u.2.2, 10), (b2n m.ue.isSome, 1)]
  | _ => 0

/-- The traverse-engine registers (Table 10-8). -/
def trvReg (s : State) (lc e k : Nat) : Nat :=
  let t := trvOf (cluster s lc) e
  let ix (i : Nat) : Nat := listGet 0 t.coord i % 2 ^ 24
  match k with
  | 0 => packFields [(t.flight.length, 3), (b2n t.probe, 1), (b2n t.refV, 1), (b2n t.chkFail, 1), (t.refCmd, 14)]
  | 1 => packFields [(ix 0, 24), (ix 1, 24)]
  | 2 => packFields [(ix 2, 24), (ix 3, 24)]
  | 3 => packFields [(ix 4, 24), (ix 5, 24)]
  | 4 => packFields [(t.refAddr, 48), (b2n t.refWrite, 1)]
  | 5 => packFields [(t.refusedN, 16), (t.shortSeg, 16), (t.chkMismatch, 16), (t.probes, 16)]
  | _ => 0

/-- The stack registers (Table 10-2). -/
def stkReg (s : State) (n k : Nat) : Nat :=
  let x := stkOf s n
  match k with
  | 0 => packFields [(x.ceN, 32), (x.ueN, 32)]
  | 1 => packFields [(x.ueAddr, 37), (b2n x.ueV, 1), (b2n x.uePatrol, 1)]
  | 2 => packFields [(x.pos, 31), (x.passes, 16), (x.lastPass, 17)]
  | _ => 0

/-- The flow contexts of a port. -/
def portFlows (s : State) (p : Nat) : List Flow := (s.fab.flows.filter (fun e => e.1 / 32768 == p)).map (fun e => e.2)

/-- Bytes staged at a port (R302). -/
def stageBytes (s : State) (p : Nat) : Nat :=
  (s.fab.stages.filter (fun c => c.port == p && decide (c.stage < 4))).foldl (fun n c =>
    c.queue.foldl (fun n x => n + x.data.length) (c.staged.foldl (fun n x => n + x.2.1.length) n)) 0

/-- The port registers (Table 11-11). -/
def portReg (s : State) (p k : Nat) : Nat :=
  let q := portOf s p
  match k with
  | 0 => packFields [(q.etype, 16), (b2n q.en, 1), (b2n q.vlanEn, 1), (q.pcp, 3), (q.vid, 12)]
  | 1 => q.mac % 2 ^ 48
  | 2 =>
    packFields [(b2n q.linkUp, 1), (b2n q.oos, 1), ((portFlows s p).countP (fun f => f.valid), 16),
      ((portFlows s p).countP (fun f => f.fopen), 16), (ceilDiv (stageBytes s p) 1024, 15)]
  | 3 => packFields [(q.txN, 32), (q.rxN, 32)]
  | 4 => packFields [(q.retx, 32), (q.crcN, 32)]
  | 5 => packFields [(q.foreignN, 32), (q.authFail, 32)]
  | 6 => packFields [(q.staleN, 32), (q.busyN, 32)]
  | 7 => packFields [(q.cfgMis, 32), (q.oosRx, 32)]
  | _ => 0

/-- The configuration of a check-value unit. -/
def cvCfg (u : CvUnit) : CrcCfg := ⟨u.widthM1 + 1, u.poly, u.init, u.refin, u.refout, u.finv⟩

/-- The check-value unit registers (Table 14-6). -/
def cvReg (s : State) (u k : Nat) : Nat :=
  let x := spGet .reset s.cv u
  match k with
  | 0 => packFields [(x.widthM1, 6), (b2n x.refin, 1), (b2n x.refout, 1), (b2n x.finv, 1)]
  | 1 => x.poly
  | 2 => x.init
  | 3 => x.value
  | 4 => crcResult (cvCfg x) x.value
  | 6 => packFields [(0, 16), (x.fed, 48)]
  | _ => 0

/-- TT_CFG (Table 15-7a). -/
def ttCfgReg (s : State) (k a w : Nat) : Nat :=
  if 5 < k ∨ 8 < a then 0
  else if w = 0 then packFields [(ttBudget s k a, 32), (ttMin k a, 32)] else b2n (ttPermille k a).isSome

/-- TT_INST (Table 15-7a). -/
def ttInstReg (s : State) (k i a w : Nat) : Nat :=
  if ttInstances k ≤ i ∨ 5 < k ∨ 8 < a then 0
  else
    let c := ttCell s k i a
    if w = 0 then packFields [(wrapInt 32 c.credit, 32), (c.waitN, 16)] else c.served % 2 ^ 48

/-- The correlation registers (Table 15-3). -/
def timeReg (s : State) (o : Nat) : Nat :=
  if o < 0x1C0 then
    let p := spGet (0, 0) s.time.pairs (o / 16)
    if o % 16 = 0 then p.1 % 2 ^ 64 else p.2 % 2 ^ 64
  else if o = 0x200 then s.time.seq
  else if o = 0x208 then s.time.run
  else 0

/-- The sleep registers (Table 15-12). -/
def slpReg (s : State) (k : Nat) : Nat :=
  let p := s.slp
  match k with
  | 0 => packFields [(p.last, 4), (p.cause, 4), (p.port, 3), (b2n p.latched, 1), (p.latchedN, 16), (p.wakeUs, 36)]
  | 1 => packFields [(p.refusedN, 16), (p.abortedN, 16), (p.lastKind, 3), (b2n p.aborted, 1), (p.lastId, 28)]
  | 2 => p.cfg % 2 ^ 23
  | _ => 0

/-- DBG_MAX of the bound policy; 0 in OPEN. -/
def dbgMax (s : State) : Nat := if s.sec = .sopen then 0 else natBits (byteField s.su.policy 0 4) 16 2

/-- A mask of the filled slots. -/
def slotMask (m : Sparse (BitVec 256)) : Nat := m.foldl (fun x e => x ||| 2 ^ e.1) 0

/-- The security registers (Table 16-11). -/
def secReg (s : State) (k : Nat) : Nat :=
  match k with
  | 0 =>
    packFields [(s.sec.code, 2), (s.dbg, 2), (dbgMax s, 2), (b2n s.flash.scrubMark, 1), (b2n s.su.wdigFull, 1), (0, 8),
      (slotMask s.su.wkeys, 16), (slotMask s.su.fkeys, 16), (b2n s.su.ckey.isSome, 1)]
  | 1 => packFields [(s.su.reportN, 32), (s.su.tenant, 32)]
  | 2 => packFields [(s.su.scrubN, 16), (s.su.lastMs, 16), (s.su.stubborn, 16)]
  | _ => 0

/-- STAGE of BOOT_STAT: the first stage in progress, 0xF after stage 9. -/
def bootStage (s : State) : Nat := if setHas s.boot.done 9 then 0xF else (s.boot.running.head?).getD 0

/-- The start-up registers (Table 17-4). -/
def bootReg (s : State) (k : Nat) : Nat :=
  let b := s.boot
  match k with
  | 0 =>
    packFields [(bootStage s, 4), (b.kind, 2), (b2n b.attempt, 1), (b2n b.failed, 1), (b.cause, 4), (b.fwCopy, 1), (b.cfgCopy, 1),
      (b2n b.rerun, 1), (b2n b.mapRestored, 1), (b.portUp, 8), (0, 8), (min 65535 b.repaired, 16)]
  | 1 => packFields [(b.totalMs, 32), (min 65535 b.s5s, 16)]
  | _ => 0

/-- CKS_STAT (Table 14-4). A move is in progress while the erase of its old block waits for reads (R407). -/
def cksStat (s : State) : Nat :=
  let st := s.store
  packFields [(b2n st.ready, 1), (b2n (s.ckpt.cur.isSome || st.copies.any (fun c => !c.end_ && !c.broken)), 1),
    (b2n (st.copies.any (fun c => c.reader || copyServed s c)), 1), (b2n (!st.moving.isEmpty), 1), (b2n st.degraded, 1), (b2n st.spareLow, 1), (b2n (decide (50000 < meanErases st)), 1),
    (0, 9), ((newestOwn st).getD 0, 32), (b2n (newestOwn st).isSome, 1)]

/-- Bits [64 w + 63 : 64 w] of a wide entry. -/
def wideWord (x w : Nat) : Nat := natBits x (64 * w) 64

/-- Does an offset lie in a region of n bytes at base? -/
def inReg (o base n : Nat) : Bool := decide (base ≤ o) && decide (o < base + n)

/-- The value of the 8 bytes at an aligned offset; an offset that no register covers reads 0. -/
def hubReg (s : State) (o : Nat) : Nat :=
  let i (base k : Nat) : Nat := (o - base) / k
  let w (base k : Nat) : Nat := (o - base) % k / 8
  if inReg o 0x10000 0x400 then lcBits s ((o - 0x10000) / 4) + 2 ^ 32 * lcBits s ((o - 0x10000) / 4 + 1)
  else if inReg o 0x200000 0x4000 then opxReg s (i 0x200000 0x40) (w 0x200000 0x40)
  else if inReg o 0x300000 0x4000 then vrReg s (i 0x300000 0x40) (w 0x300000 0x40)
  else if inReg o 0x400000 0x80000 then wideWord (vtBits (vtOf s (i 0x400000 0x40))) (w 0x400000 0x40)
  else if inReg o 0x500000 0x10000 then wideWord (groupBits (groupOf s (i 0x500000 0x40))) (w 0x500000 0x40)
  else if inReg o 0x510000 0x400 then wideWord (monBits (monitorOf s (i 0x510000 0x40))) (w 0x510000 0x40)
  else if inReg o 0x520000 0x8000 then wideWord (recBits (spGet .reset s.train.recs (i 0x520000 0x20))) (w 0x520000 0x20)
  else if inReg o 0x600000 0x4000 then spReg s (i 0x600000 0x40) (w 0x600000 0x40)
  else if inReg o 0x700000 0x400 then wideWord (winBits (spGet .reset s.win (i 0x700000 0x10))) (w 0x700000 0x10)
  else if inReg o 0x800000 0x10000 then trvReg s (i 0x800000 0x100) ((o - 0x800000) % 0x100 / 0x40) (w 0x800000 0x40)
  else if inReg o 0x900000 0x180 then stkReg s (i 0x900000 0x20) (w 0x900000 0x20)
  else if inReg o 0xA00000 0x800 then portReg s (i 0xA00000 0x100) (w 0xA00000 0x100)
  else if inReg o 0xB00000 0x40000 then wideWord (jobBits (jobOf s (i 0xB00000 0x40))) (w 0xB00000 0x40)
  else if o = 0xC00000 then cksStat s
  else if o = 0xC00008 then cksSpace s
  else if o = 0xC00010 then cksWear s
  else if o = 0xC00018 then cksErr s
  else if inReg o 0xD00000 0x200 then cvReg s (i 0xD00000 0x40) (w 0xD00000 0x40)
  else if inReg o 0xE00000 0x600 then ttCfgReg s (i 0xE00000 0x100) ((o - 0xE00000) % 0x100 / 0x10) (w 0xE00000 0x10)
  else if inReg o 0xE10000 0x60000 then
    ttInstReg s (i 0xE10000 0x10000) ((o - 0xE10000) % 0x10000 / 0x100) ((o - 0xE10000) % 0x100 / 0x10) (w 0xE10000 0x10)
  else if inReg o 0xF00000 0x210 then timeReg s (o - 0xF00000)
  else if inReg o 0xF10000 0x18 then slpReg s (w 0xF10000 0x18)
  else if inReg o 0xF20000 0x18 then secReg s (w 0xF20000 0x18)
  else if inReg o 0xF30000 0x10 then bootReg s (w 0xF30000 0x10)
  else if inReg o 0x1000000 0x2000000 then
    let f := i 0x1000000 0x80
    wideWord (flowAllBits (spGet .reset s.fab.flows f) (spGet .reset s.fab.fstat f)) (w 0x1000000 0x80)
  else 0

/-- Class of the register at an offset (Table 16-7); a register that the table does not name is in C2. -/
def hubClass (o : Nat) : Nat :=
  if inReg o 0x10000 0x400 || inReg o 0x900000 0x180 || inReg o 0xA00000 0x800 || inReg o 0xC00000 0x20 || inReg o 0xE00000 0x70000 ||
    inReg o 0xF00000 0x210 || inReg o 0xF10000 0x18 || inReg o 0xF20000 0x18 || inReg o 0xF30000 0x10 then 0
  else if inReg o 0x200000 0x4000 || inReg o 0x300000 0x4000 || inReg o 0x600000 0x4000 then 1
  else if inReg o 0x800000 0x10000 then (if (o - 0x800000) % 0x40 = 0 ∨ (o - 0x800000) % 0x40 = 0x28 then 1 else 2)
  else if inReg o 0xD00000 0x200 then 3
  else 2

/-- May the host or the test port read a class now (Table 16-8, R452, Table 17-3)? -/
def classReadable (s : State) (k : Nat) : Bool :=
  if k = 0 then true
  else if k = 3 then false
  else if s.op = .scrubbing ∨ s.op = .boot then false
  else if s.sec ≠ .sealed then true
  else if k = 1 then s.dbg == 1 || s.dbg == 2
  else s.dbg == 2

/-- Add to MB_DISCARD.APERTURE_N. -/
def countAperture (s : State) : State := { s with mb := { s.mb with apertureN := satAdd 16 s.mb.apertureN 1 } }

/-- A read of a register by the host or the test port (R456). -/
def hubRead (s : State) (o : Nat) : Nat × State :=
  if classReadable s (hubClass o) then (hubReg s o, s) else (0, countAperture s)

end Sys2Proof.Machine
end

