-- ==== Sys2Proof/Machine/FlagCommands.lean ====
section
/-! DEFINITION. The flag commands (R127 to R129, R170, R171), LOSS.POST (R220), version handles (R213, R214), COMMIT.READY (R225), and the
deadlock of a barrier group (R131, R132). -/

namespace Sys2Proof.Machine

/-- A head of queue q with this opcode that may take effect in cycle cyc (R122). -/
def pickOp (s : State) (lc q cyc op : Nat) : Option QEntry :=
  pick s lc q cyc (fun e => cOp e.raw == op && readyAt (cluster s lc) e cyc)

/-- Retire an entry in cycle cyc. -/
def retireAt (s : State) (lc q cyc : Nat) (e : QEntry) : State := retire (modCluster s lc (fun c => atCycle c cyc)) lc q e

/-- R140: the anchor of an opening stream-0 frame, deferred to the boundary at which an occupation by stream 1 ends. -/
def deferAnchor (c : Cluster) (k F : Nat) : Nat :=
  match c.opx.occ1 with
  | some (start, unit, last) => if k = 0 ∧ start ≤ F ∧ F ≤ last then start + roundUp (F - start) (max 1 unit) else F
  | none => F

/-- Open the frame that an anchoring wait ends (R120, R171). -/
def openNext (c : Cluster) (e : QEntry) (F : Nat) : Cluster :=
  let k := cStream e.raw
  if cAnchor e.raw then openFrame c k (e.frame + 1) (deferAnchor c k F) else c

/-- Apply a set or clear: once per recorded execution for a section flag (R129), always for a local flag. -/
def flagApply (s : State) (lc : Nat) (e : QEntry) (sect loc : State → State) : State :=
  if flSect e.raw then
    if sfApplies (cluster s lc) e then sect (modCluster s lc (fun c => sfRecord c e)) else s
  else loc s

/-- An issued flag command of the OPX queue that may take effect now: every earlier command of the queue has retired. What has issued takes effect as
usual after a slip has stopped the cluster (R135 step 2). -/
def flagReady (s : State) (lc op : Nat) : Option QEntry :=
  let c := cluster s lc
  if running s lc || (slipping s lc && c.opx.hold == 0 && !c.pausing) then c.opx.flagWait.find? (fun e => cOp e.raw == op && queueDone c 0 e) else none

/-- In the OPX queue a command of stream 0 issues in exactly its due cycle (Table 6-2, R121): the due cycle that one standing at the head in cycle cyc
has missed. -/
def missedDue (c : Cluster) (q cyc : Nat) (e : QEntry) : Option Nat :=
  if q = 0 ∧ cStream e.raw = 0 then (dueOf c e).filter (fun d => decide (d < cyc)) else none

/-- A flag, version, loss or ready command of the OPX queue has missed its due cycle d: it slips with LATE_DISPATCH (R121). -/
def lateSlip (s : State) (lc q d : Nat) (e : QEntry) : State :=
  raiseSlip (modCluster s lc (fun c => dropEntry (atCycle c (d - 2)) q e)) lc q e ⟨8, d - 2, 0, 0, 0, 0⟩

/-- A command that takes effect in its queue's order once every earlier command of the queue has retired and been acknowledged (R127, R225). In the OPX
queue it issues at its due cycle, or slips (Table 6-2, R121; log 43), and does not hold the commands behind it; in another queue it stands at the head. `f` is
the effect. -/
def flagCommand (s : State) (lc q cyc op : Nat) (f : QEntry → State → State) : State :=
  match (if q = 0 then flagReady s lc op else none) with
  | some e =>
    advance (f e s) lc (fun c => atCycle { c with opx := { c.opx with flagWait := c.opx.flagWait.erase e } } cyc)
  | none =>
    match pickOp s lc q cyc op with
    | none => s
    | some e =>
      match missedDue (cluster s lc) q cyc e with
      | some d => lateSlip s lc q d e
      | none =>
        if !e.live then retireAt s lc q cyc e
        else if queueDone (cluster s lc) q e then retireAt (f e s) lc q cyc e
        else if q = 0 then
          retire (modCluster s lc (fun c => { c with opx := { c.opx with flagWait := c.opx.flagWait ++ [e] } })) lc q e
        else s

/-- FLG.SET. -/
def execFlgSet (lc q cyc : Nat) (s : State) : Res :=
  .next (flagCommand s lc q cyc oFSET (fun e s =>
    flagApply s lc e (fun s => sfSetAt s lc cyc (flFlag e.raw) (flInc e.raw)) (fun s => lfSetAt s lc cyc (flFlag e.raw) (flInc e.raw))))

/-- FLG.CLR. -/
def execFlgClr (lc q cyc : Nat) (s : State) : Res :=
  .next (flagCommand s lc q cyc oFCLR (fun e s =>
    flagApply s lc e (fun s => sfClearAt s lc cyc (flFlag e.raw)) (fun s => lfClearAt s lc cyc (flFlag e.raw))))

/-- Run a VER or LOSS.POST command: late in the OPX queue it slips (R121), with a false predicate it retires (R123). -/
def queueCommand (s : State) (lc q cyc op : Nat) (f : QEntry → State → State) : State :=
  match pickOp s lc q cyc op with
  | none => s
  | some e =>
    match missedDue (cluster s lc) q cyc e with
    | some d => lateSlip s lc q d e
    | none => if e.live then f e s else retireAt s lc q cyc e

/-- FLG.WAIT reaches the head (R127, R171): in the OPX queue its start is exactly its due cycle (R121). One whose count is met goes on in the next cycle; in
a cycle that has set its flag it is released then, since a clear may still come (R128). -/
def execFlgWait (lc q cyc : Nat) (s : State) : Res :=
  let c := cluster s lc
  let opx0 (e : QEntry) : Bool := q == 0 && cStream e.raw == 0
  match pick s lc q cyc (fun e => cOp e.raw == oFWAIT && !(setHas c.log.waiting (headCode q e)) &&
      (opx0 e || readyAt c e cyc) && (dueOf c e).isSome) with
  | none => .next s
  | some e =>
    let d := (dueOf c e).getD 0
    let start := if opx0 e then d else cyc
    if !e.live then .next (retire (modCluster s lc (fun c => openNext (atCycle c start) e (d + 1))) lc q e)
    else if opx0 e && isLate e cyc d then
      .next (raiseSlip (modCluster s lc (fun c => dropEntry (atCycle c (d - 2)) q e)) lc q e ⟨8, d - 2, 0, 0, 0, 0⟩)
    else if flThresh e.raw ≤ flagCount s lc e.raw then
      if (setsNow s lc start e.raw).isSome then .next (waitNow (modCluster s lc (fun c => atCycle c start)) lc start (headCode q e) e.raw)
      else .next (retire (modCluster s lc (fun c => openNext (atCycle c start) e (start + 1))) lc q e)
    else
      .next (modCluster s lc (fun c =>
        let c := atCycle c start
        { c with log := { c.log with waiting := setAdd c.log.waiting (headCode q e) } }))

/-- The cycle of a release that is decided for head w (R127): the one given, held to those that its set allows. -/
def releaseCycle (c : Cluster) (w cyc : Nat) : Nat :=
  let b := spGet (0, 0) c.log.grantAt w
  if b = (0, 0) then cyc else max b.1 (min b.2 cyc)

/-- A released waiter leaves its queue (R127), and an anchoring one opens its frame in the next cycle (R171). -/
def execFlagWaiterRelease (lc q cyc : Nat) (s : State) : Res :=
  let c := cluster s lc
  match (headCodes q).find? (fun w => setHas c.log.grant w && setHas c.log.waiting w) with
  | none => .next s
  | some w =>
    match headAt c w with
    | none => .next s
    | some e =>
      let t := releaseCycle c w cyc
      if !(issuingAt s lc t) then .next s
      else
        .next (retire (modCluster s lc (fun c =>
          let c := openNext (atCycle c t) e (t + 1)
          { c with log := { c.log with
              waiting := setDel c.log.waiting w, grant := setDel c.log.grant w, grantAt := spDel c.log.grantAt w } })) lc q e)

/-! LOSS.POST -/

/-- The loss value that S0 gives: bits, whether its word is poisoned, the tag found when it mismatches, the word read, and its address. -/
structure LossRead where
  v : F32
  poison : Bool
  bad : Option (Nat × Nat)
  ws : List Nat
  deriving DecidableEq, Repr

/-- Read S0 (R173): FP32 at a scratchpad address, or a parameter scalar. -/
def readLoss (m : ClMem) (e : QEntry) : LossRead :=
  let r := sref e.raw 0
  if r.mode = 3 then ⟨BitVec.ofNat 32 (ePrm e r.prmx), false, none, []⟩
  else
    let a := formed e r
    let ws := unitsOf 64 a 4
    ⟨BitVec.ofNat 32 (memLe m.sp a 4), ws.any (spPoison m), firstBad m r.chk r.tag ws, ws⟩

/-- Add one post to a monitor; a poisoned loss counts as a non-finite one (R369). POSTS, a 16-bit field, stops at 65,535, since R220 says only that it
increments (DESIGN CHOICE, log 14). -/
def postLoss (m : Monitor) (v : F32) : Monitor := { m with sum := f32Add m.sum v, posts := min 65535 (m.posts + 1) }

/-- LOSS.POST on its entry (R173, R220). -/
def lossPost (lc q cyc : Nat) (e : QEntry) (s : State) : State :=
  let r0 := sref e.raw 0
  let a := formed e r0
  if r0.mode ≠ 3 ∧ spTop < a + 3 then boundFault s lc e.idx a (a + 3) false
  else
    let c := cluster s lc
    let r := readLoss c.mem e
    let s := modCluster s lc (fun c => consumePoison { c with mem := spTouch c.mem r.ws } (b2n r.poison))
    match r.bad with
    | some (x, found) =>
      raiseSlip (modCluster s lc (fun c => dropEntry (atCycle c cyc) q e)) lc q e ⟨slipTag found r0.tag, cyc, r0.tag, found, x, 0⟩
    | none =>
      let v := if r.poison then 0x7FC00000#32 else r.v
      let s := if spGet 0 c.log.lossRec e.idx < e.occ then
          modMonitor (modCluster s lc (fun c => { c with log := { c.log with lossRec := spSet 0 c.log.lossRec e.idx e.occ } }))
            (lossMon e.raw) (fun m => postLoss m v)
        else s
      retireAt s lc q cyc e

/-- LOSS.POST. -/
def execLossPost (lc q cyc : Nat) (s : State) : Res := .next (queueCommand s lc q cyc oLOSS (lossPost lc q cyc))

/-! Version handles -/

/-- The interval that a cluster is in, as one number: STEP and DATUM_N. -/
def intervalId (s : State) (lc : Nat) : Nat := prmGet s lc 248 * 2 ^ 64 + prmGet s lc 253 + 1

/-- Add to the HOLD count of a slot (Table 8-5). -/
def holdCount (v : VtEntry) (slot : Nat) : Nat :=
  match slot with
  | 0 => v.hold0
  | 1 => v.hold1
  | 2 => v.hold2
  | _ => v.hold3

/-- Change the HOLD count of a slot. -/
def modHold (v : VtEntry) (slot : Nat) (f : Nat → Nat) : VtEntry :=
  match slot with
  | 0 => { v with hold0 := f v.hold0 }
  | 1 => { v with hold1 := f v.hold1 }
  | 2 => { v with hold2 := f v.hold2 }
  | _ => { v with hold3 := f v.hold3 }

/-- Release what a handle holds. -/
def releaseHandle (s : State) (h : Handle) : State :=
  if h.held then modVt s h.tensor (fun v => modHold v h.slot (fun n => n - 1)) else s

/-- Handle h of a cluster. -/
def handleOf (s : State) (lc h : Nat) : Handle := spGet .empty (cluster s lc).handles h

/-- Set handle h. -/
def setHandle (s : State) (lc h : Nat) (x : Handle) : State :=
  modCluster s lc (fun c => { c with handles := spSet .empty c.handles h x })

/-- The program defect of R175: logical cluster, command index, handle. -/
def handleDefect (s : State) (lc : Nat) (e : QEntry) : State := logDefect s lc [(lc, 8), (e.idx, 14), (holdHandle e.raw, 3)]

/-- VER.HOLD takes the current slot (R213, R175). An execution that a replay makes again, which the interval's record counts, only confirms what its handle
holds. -/
def takeHold (s : State) (lc : Nat) (e : QEntry) : State :=
  let h := holdHandle e.raw
  let t := holdTensor e.raw
  let x := handleOf s lc h
  if e.occ ≤ spGet 0 (cluster s lc).log.holdRec e.idx ∧ x.held then s
  else
    let s := modCluster s lc (fun c => { c with log := { c.log with holdRec := spSet 0 c.log.holdRec e.idx e.occ } })
    let s := if x.held then handleDefect (releaseHandle s x) lc e else s
    let v := vtOf s t
    setHandle (modVt s t (fun v => modHold v v.cur (fun n => n + 1))) lc h ⟨t, v.cur, true, false, v.ver, intervalId s lc⟩

/-- VER.HOLD. -/
def execVerHold (lc q cyc : Nat) (s : State) : Res :=
  .next (queueCommand s lc q cyc oHOLD (fun e s => retireAt (takeHold s lc e) lc q cyc e))

/-- VER.DROP marks the handle (R214); the release comes with the next record. -/
def dropHold (s : State) (lc : Nat) (e : QEntry) : State :=
  let h := holdHandle e.raw
  let x := handleOf s lc h
  if x.held then setHandle s lc h { x with release := true } else handleDefect s lc e

/-- VER.DROP. -/
def execVerDrop (lc q cyc : Nat) (s : State) : Res :=
  .next (queueCommand s lc q cyc oDROP (fun e s => retireAt (dropHold s lc e) lc q cyc e))

/-- COMMIT.READY (R225): counted when the next record is written. -/
def execCommitReady (lc q cyc : Nat) (s : State) : Res :=
  .next (flagCommand s lc q cyc oREADY (fun e s => modCluster s lc (fun c =>
    { c with log := { c.log with readies := c.log.readies ++ [(readyGroup e.raw, readyNew e.raw)] } })))

/-! Deadlock of a barrier group -/

/-- The mapped clusters of a section's barrier group. -/
def groupLcs (s : State) (sec g : Nat) : List Nat :=
  (consistLcs s).filter (fun lc => secOf lc == sec && (cluster s lc).seq.hdr.bgroup == g)

/-- The waits of one cluster: (logical cluster, queue, entry). -/
def waitsOf (s : State) (lc : Nat) : List (Nat × Nat × QEntry) :=
  let c := cluster s lc
  [0, 8, 1, 2, 3, 4, 5, 6].filterMap (fun w =>
    if setHas c.log.waiting w && !(setHas c.log.grant w) then (headAt c w).map (fun e => (lc, if w = 8 then 0 else w, e)) else none)

/-- Does every command at a head of queue q wait on a flag, its release not decided? -/
def headsWait (c : Cluster) (q : Nat) : Bool :=
  (headCodes q).all (fun w => match headAt c w with
    | none => true
    | some _ => setHas c.log.waiting w && !(setHas c.log.grant w))

/-- Does every command in flight lie at or behind a wait (R132)? -/
def allBehindWaits (c : Cluster) : Bool :=
  [0, 1, 2, 3, 4, 5, 6].all (headsWait c) && c.t0.flight.isEmpty && c.t1.flight.isEmpty && c.t2.flight.isEmpty && c.t3.flight.isEmpty &&
  c.opx.conv.isEmpty && c.opx.convWait.isEmpty && c.opx.open0.isNone && c.opx.open1.isNone && c.opx.flagWait.isEmpty

/-- Can no command reach an empty queue of the cluster (R132)? Its dispatch stands at a DATUM or SYNC, waits for room in a queue whose head waits, stands
at the in-flight limit with every command at or behind a wait, or has ended. -/
def dispatchStopped (c : Cluster) : Bool :=
  let raw := fetchCmd c c.seq.pc
  c.seq.wait ≠ .run || decide (c.seq.hdr.cmdN ≤ c.seq.pc) || cOp raw == oDATUM || cOp raw == oSYNC ||
  (decide (512 ≤ (queueOf c (cQueue raw)).length) && headsWait c (cQueue raw)) || (decide (2048 ≤ inFlight c) && allBehindWaits c)

/-- Is every queue of a cluster waiting on a flag, or empty with no command able to reach it (R132)? -/
def clusterStuck (c : Cluster) : Bool :=
  c.seq.stop.isNone && c.opx.flagWait.isEmpty &&
  [0, 1, 2, 3, 4, 5, 6].all (fun q => if (queueOf c q).isEmpty then dispatchStopped c else headsWait c q)

/-- Does a cluster hold, outside the waits of the group, a dispatched set of a flag not yet taken effect? -/
def holdsSet (c : Cluster) (sect : Bool) (f : Nat) : Bool :=
  let hit (e : QEntry) : Bool := cOp e.raw == oFSET && flSect e.raw == sect && flFlag e.raw == f && e.live
  [0, 1, 2, 3, 4, 5, 6].any (fun q => (queueOf c q).any hit) || c.opx.flagWait.any hit

/-- Can work outside the group's own waits set the flag that an entry waits on (R131)? A checkpoint in progress counts for the flag of a flow whose round
waits for a residual parity that it holds (R381); a TRV.GO that waits for a held slot keeps its queue from counting as stuck. -/
def outsideSetter (s : State) (sec g : Nat) (e : QEntry) : Bool :=
  if flSect e.raw then
    let f := flFlag e.raw
    ((consistLcs s).any (fun k => secOf k == sec && (cluster s k).seq.hdr.bgroup != g && holdsSet (cluster s k) true f)) ||
    s.fab.flows.any (fun x => x.2.valid && x.1 / 65536 == sec && x.2.done == f &&
      (x.2.fopen || (decide (x.2.trigThresh ≤ sfGet s sec x.2.trig) && x.2.residEn && ckptHoldsResid s x.1 (x.2.round % 2)))) ||
    s.train.groups.any (fun x => x.2.valid && x.2.await && x.2.cflag == f)
  else false

/-- Log the waits of a halted group; the first eight and the total go to the event ring (R132). DESIGN CHOICE (log 43): each entry carries the total as a
32-bit field behind the count and the threshold, for which R132 names no place. -/
def logWaits (s : State) (n : Nat) : Nat → List (Nat × Nat × QEntry) → State
  | _, [] => s
  | i, (lc, q, e) :: r =>
    let d := packFields [(lc, 8), (q, 3), (e.idx, 14), (flFlag e.raw + (if flSect e.raw then 1024 else 0), 11), (flagCount s lc e.raw, 16),
      (flThresh e.raw, 16), (n, 32)]
    logWaits (if i < 8 then logEvent s 0x0003 5 1 (secOf lc) noLink d else logOnly s 0x0003 5 1 (secOf lc) noLink d) n (i + 1) r

/-- A fault that stops a cluster discards both banks, with the passes and the conveyor operations that work on them (R93). -/
def dropBanks (c : Cluster) : Cluster :=
  setHold { c with opx := { c.opx with
    bankA := .clear c.opx.bankA.parity, bankB := .clear c.opx.bankB.parity, conv := [], convWait := [], streams := [], occ1 := none, open0 := none,
    open1 := none, survey := none } }

/-- FLAG_DEADLOCK (R132): declared when every queue of the group is stuck and no outside work can set an awaited flag. The clusters of the group stop
without replay and lose both banks (R93). -/
def execFlagDeadlock (sec group : Nat) (s : State) : Res :=
  let lcs := groupLcs s sec group
  let ws := lcs.flatMap (waitsOf s)
  if s.op = .running && !ws.isEmpty && !(setHas (sectionOf s sec).haltedGroups group) && lcs.all (fun lc => clusterStuck (cluster s lc)) &&
      !(ws.any (fun w => outsideSetter s sec group w.2.2)) then
    let s := modSection s sec (fun k => { k with haltedGroups := setAdd k.haltedGroups group })
    .next (logWaits (lcs.foldl (fun s lc => modCluster s lc dropBanks) s) ws.length 0 ws)
  else .next s

end Sys2Proof.Machine
end

