-- ==== Sys2Proof/Machine/Scalar.lean ====
section
/-! DEFINITION. The commands that the sequencer executes itself at dispatch (R126, R172): counters, loops, comparators, parameters. -/

namespace Sys2Proof.Machine

/-- The command at the dispatch index, when the sequencer stands at one that it executes itself; dispatch waits while 2,048 commands are in flight
(R118). -/
def seqHead (s : State) (lc op : Nat) : Option Nat :=
  let c := cluster s lc
  let raw := fetchCmd c c.seq.pc
  if running s lc && c.seq.wait == .run && decide (c.seq.pc < c.seq.hdr.cmdN) && decide (inFlight c < 2048) && cOp raw == op then some raw else none

/-- A source of Table 6-15: kind 0 immediate, 1 parameter register, 2 counter. -/
def scalarSrc (s : State) (lc kind ix imm : Nat) : Nat :=
  if kind = 0 then imm
  else if kind = 1 then prmGet s lc (ix % 256)
  else spGet 0 (cluster s lc).seq.cnt (ix % 16)

/-- Execute at dispatch and go on with the next command; a scalar command whose predicate fails does nothing (R172). -/
def scalar (s : State) (lc op : Nat) (f : Nat → Cluster → Cluster) : State :=
  match seqHead s lc op with
  | none => s
  | some raw =>
    advance s lc (fun c =>
      let c := if predHolds c raw then f raw c else c
      { c with seq := { c.seq with pc := c.seq.pc + 1 } })

/-- Write a counter modulo 2^48 (R126). -/
def setCnt (c : Cluster) (n v : Nat) : Cluster := { c with seq := { c.seq with cnt := spSet 0 c.seq.cnt n (v % 2 ^ 48) } }

/-- Write PRM0 to PRM239 modulo 2^64 (R172); the system registers cannot be written (R117). -/
def setPrm (c : Cluster) (n v : Nat) : Cluster :=
  if n < 240 then { c with seq := { c.seq with prm := spSet 0 c.seq.prm n (v % 2 ^ 64) } } else c

/-- CNT.SET. -/
def execCntSet (lc : Nat) (s : State) : Res :=
  .next (scalar s lc oCSET (fun raw c =>
    setCnt c (natBits raw 64 4) (scalarSrc s lc (natBits raw 68 2) (natBits raw 72 8) (natBits raw 128 48))))

/-- CNT.ADD: the 48-bit sum wraps, so the sign of the addend needs no other treatment. -/
def execCntAdd (lc : Nat) (s : State) : Res :=
  .next (scalar s lc oCADD (fun raw c =>
    let n := natBits raw 64 4
    setCnt c n (spGet 0 c.seq.cnt n + scalarSrc s lc (natBits raw 68 2) (natBits raw 72 8) (natBits raw 128 48))))

/-- A taken loop continues at TARGET and advances the anchors of both streams' frames by PERIOD (R120). -/
def takeLoop (raw : Nat) (c : Cluster) : Cluster :=
  let p := natBits raw 128 32
  let e : LoopEntry := ⟨natBits raw 64 4, natBits raw 80 14, c.seq.pc, p⟩
  let ls := match c.seq.loops with
    | x :: r => if x.index = c.seq.pc then x :: r else e :: x :: r
    | [] => [e]
  let f (t : Stream) : Stream := { t with adv := t.adv + p }
  { c with seq := { c.seq with loops := ls, line := 0, st0 := f c.seq.st0, st1 := f c.seq.st1, pc := natBits raw 80 14 } }

/-- A loop that ends leaves the loop stack. -/
def leaveLoop (c : Cluster) : Cluster :=
  match c.seq.loops with
  | x :: r => if x.index = c.seq.pc then { c with seq := { c.seq with loops := r } } else c
  | [] => c

/-- CNT.LOOP (R126): decrement; a result other than 0 takes the loop. -/
def execCntLoop (lc : Nat) (s : State) : Res :=
  match seqHead s lc oCLOOP with
  | none => .next s
  | some raw =>
    .next (advance s lc (fun c =>
      let next (c : Cluster) : Cluster := { c with seq := { c.seq with pc := c.seq.pc + 1 } }
      if predHolds c raw then
        let n := natBits raw 64 4
        let v := (spGet 0 c.seq.cnt n + (2 ^ 48 - 1)) % 2 ^ 48
        let c := setCnt c n v
        if v = 0 then next (leaveLoop c) else takeLoop raw c
      else next (leaveLoop c)))

/-- CMP.SET (R126): unsigned EQ, NE, LT, GE. -/
def execCmpSet (lc : Nat) (s : State) : Res :=
  .next (scalar s lc oCMP (fun raw c =>
    let l := scalarSrc s lc (if natBits raw 70 1 = 1 then 1 else 2) (natBits raw 72 8) 0
    let r := scalarSrc s lc (natBits raw 80 2) (natBits raw 88 8) (natBits raw 128 64)
    let v := match natBits raw 68 2 with
      | 0 => l == r
      | 1 => l != r
      | 2 => decide (l < r)
      | _ => decide (r ≤ l)
    let b := natBits raw 64 3
    let old := c.seq.cmp - (if tbit c.seq.cmp b then 2 ^ b else 0)
    { c with seq := { c.seq with cmp := if v then old + 2 ^ b else old } }))

/-- PRM.MOV. -/
def execPrmMov (lc : Nat) (s : State) : Res :=
  .next (scalar s lc oPMOV (fun raw c =>
    setPrm c (natBits raw 64 8) (scalarSrc s lc (natBits raw 72 2) (natBits raw 80 8) (natBits raw 128 64))))

/-- PRM.ADD. -/
def execPrmAdd (lc : Nat) (s : State) : Res :=
  .next (scalar s lc oPADD (fun raw c =>
    setPrm c (natBits raw 64 8) (prmGet s lc (natBits raw 72 8) +
      scalarSrc s lc (natBits raw 80 2) (natBits raw 88 8) (natBits raw 128 64))))

end Sys2Proof.Machine
end

