-- ==== Sys2Proof/Machine/Record.lean ====
section
/-! DEFINITION. The datum record (Tables 5-6, 5-7, 13-5): forming it, reading it back, and the state that a replay or a START begins from
(R142, R201). -/

namespace Sys2Proof.Machine

/-- Device address of a record slot (R141). -/
def recordAddr (c : Cluster) (slot : Bool) : Nat := c.seq.hdr.datumBase + 4096 * b2n slot

/-- Distance from CUR of a pending slot (R212). -/
def pendDist (v : VtEntry) : Nat := (v.pend + (v.slotsM1 + 1) - v.cur) % (v.slotsM1 + 1)

/-- The cluster's verdict on a ready (R225): the WCAUSE bits that withhold it, 0 when it is OK. A CONTRIB of 0 withholds the next readies that the
cluster counts, whatever their group, since R219 names none (DESIGN CHOICE, log 14). -/
def readyCauses (s : State) (lc : Nat) (r : Nat × Nat) : Nat :=
  let c := cluster s lc
  let refused := (c.log.verdict.filter (fun v => v.1 == r.1)).foldl (fun a v => a ||| v.2) 0
  let mism := s.train.vt.any (fun e => e.2.valid && e.2.group == r.1 && e.2.pendV && pendDist e.2 != r.2)
  refused ||| (if mism then wSLOT else 0) ||| (if c.log.faulted.contains (r.1, (groupOf s r.1).round) then wFAULT else 0) |||
    (if c.log.noContrib || c.log.noContribHeld then wNFGRAD else 0)

/-- STEP, DATUM_N and REPLAY of the interval that a DATUM opens (R141). -/
def nextCounts (s : State) (lc : Nat) (step : Bool) : Nat × Nat × Nat :=
  if step then ((prmGet s lc 248 + 1) % 2 ^ 64, 0, 0)
  else (prmGet s lc 248, (prmGet s lc 253 + 1) % 2 ^ 64, prmGet s lc 252)

/-- A handle as the record carries it (Table 13-5). -/
def handleBits (h : Handle) : Nat :=
  packFields [(h.tensor, 13), (h.slot, 2), (b2n h.held, 1), (b2n h.release, 1), (h.ver, 32), (0, 15)]

/-- A counted ready as the record carries it. -/
def readyBits (s : State) (lc : Nat) (r : Nat × Nat) : Nat :=
  let w := readyCauses s lc r
  packFields [(r.1, 10), (r.2, 2), (b2n (w ≠ 0), 1), (w, 8), ((groupOf s r.1).round, 32), (0, 10), (1, 1)]

/-- The 4,092 bytes that CHECK covers, and CHECK. -/
def recordBytes (s : State) (lc resume : Nat) (step : Bool) : List Byte :=
  let c := cluster s lc
  let n := nextCounts s lc step
  let hdr := packFields [(1, 8), (lc, 8), (resume, 14), (b2n c.seq.slot, 1), (0, 1), (c.log.gForce, 7), (0, 1), (min 65535 n.2.2, 16), (0, 8),
    (n.1, 64), (n.2.1, 64), (c.log.syncN, 32)]
  let prm (k : Nat) : Nat := if k = 248 then n.1 else if k = 252 then n.2.2 else if k = 253 then n.2.1 else prmGet s lc k
  let l := leBytes 64 hdr ++ (List.range 16).flatMap (fun k => leBytes 8 (spGet 0 c.seq.cnt k)) ++
    leBytes 8 (packFields [(c.seq.cmp, 8), (c.seq.loops.length, 3)]) ++ zeros 56 ++
    (List.range 64).flatMap (fun k => leBytes 2 (spGet 0 c.seq.lf k)) ++ zeros 128 ++
    (List.range 256).flatMap (fun k => leBytes 8 (prm k)) ++
    (List.range 8).flatMap (fun h => leBytes 8 (handleBits (handleOf s lc h))) ++
    (List.range 16).flatMap (fun k => leBytes 8 ((c.log.readies[k]?).elim 0 (readyBits s lc))) ++
    leBytes 8 (packFields [(c.log.poisonN, 32), (c.log.pcN, 8), (b2n c.log.through, 1)]) ++ zeros (0xFC0 - 0xAC8) ++ zeros 60
  l ++ leBytes 4 (crc32c l)

/-- Bytes of a part: header, parameter block, commands (R116). -/
def partLen (cmdN : Nat) : Nat := 64 + 2048 + 32 * cmdN

/-- Reload a cluster's commands from the consist image, an access of the stationmaster (R420), under the digest check of R116; `none` when the part does not match. -/
def reloadPart (s : State) (lc : Nat) : Option State × State :=
  let c := cluster s lc
  let a := spGet 0 s.prog.parts lc
  let r := devRead (chargeDev s (secOf lc) 7 a (partLen c.seq.hdr.cmdN) false) a (partLen c.seq.hdr.cmdN)
  if !r.1.poison && sha512 r.1.data == spGet 0 s.prog.digests lc then
    (some (modMem r.2 lc (fun m => { m with seqm := memWrite [] 0 (r.1.data.drop 2112), seqEcc := [] })), r.2)
  else (none, r.2)

/-- Is a record usable for a cluster (R144)? DESIGN CHOICE (log 13): R144 names CHECK and poison; a record of another FORMAT or LC is not taken
either. -/
def recordOk (lc : Nat) (r : RdRes) : Bool :=
  !r.poison && byteField r.data 0 1 == 1 && byteField r.data 1 1 == lc && byteField r.data 0xFFC 4 == crc32c (r.data.take 0xFFC)

/-- What a record restores (Table 5-6): counters, comparators, local flags, parameters, the resume index and the SYNC ordinal. PRM252 and the
guard cycles stay as they stand (R136, R137). -/
def restoreRecord (c : Cluster) (l : List Byte) : Cluster :=
  let tab (lo w n : Nat) (ks : List Nat) : Sparse Nat :=
    ks.filterMap (fun k => let v := byteField l (lo + n * k) w; if v = 0 then none else some (k, v))
  let prm := tab 0x200 8 8 (List.range 249 ++ [253])
  { c with
    seq := { c.seq with
      pc := natBits (byteField l 0 8) 16 14, line := 0, cnt := tab 0x40 8 8 (List.range 16), cmp := byteField l 0xC0 1, loops := [],
      lf := tab 0x100 2 2 (List.range 64), prm := spSet 0 prm 252 (spGet 0 c.seq.prm 252) }
    log := { c.log with syncN := byteField l 24 4 } }

/-- Apply staged patches (R125): PRM251 sets the guard cycles, 7 bits as the datum record carries them (Table 5-6). -/
def applyStaged (c : Cluster) : Cluster :=
  let c := c.seq.staged.foldl (fun c p =>
    if p.1 = 251 then { c with log := { c.log with gForce := (p.2 - 1) % 128 } } else setPrm c p.1 (p.2 - 1)) c
  { c with seq := { c.seq with staged := [] } }

/-- Scratchpad preparation (R142): every word takes tag 0 and poison but those in the save areas and in the kept 1 KiB regions. -/
def prepareScratch (c : Cluster) (kept : Nat → Bool) : Cluster :=
  { c with mem := { c.mem with
      wmeta := spKeep (fun w => inSaveArea c.opx.saveBase (64 * w) || kept (w / 16)) c.mem.wmeta } }

/-- The regions that a replay keeps (R143). -/
def keptRegion (c : Cluster) (r : Nat) : Bool := setHas c.log.inbound r && !(setHas c.log.own r)

/-- Clear the traverse-engine registers but TRV_EVT (R284). -/
def clearTrvRegs (t : TrvEngine) : TrvEngine :=
  { t with flight := [], done := [], probe := false, refV := false, chkFail := false, refCmd := 0, coord := [], refAddr := 0,
           refWrite := false, refOrd := 0, refEntry := none }

/-- Clear the registers of the four engines. -/
def clearTrvs (c : Cluster) : Cluster :=
  { c with t0 := clearTrvRegs c.t0, t1 := clearTrvRegs c.t1, t2 := clearTrvRegs c.t2, t3 := clearTrvRegs c.t3 }

/-- Both banks at bank-sequence parity 0 (R174), cleared when `fresh`. -/
def resetBanks (c : Cluster) (fresh : Bool) : Cluster :=
  let f (b : Bank) : Bank := if fresh then .clear false else { b with parity := false }
  { c with opx := { c.opx with bankA := f c.opx.bankA, bankB := f c.opx.bankB } }

/-- Discard what a replay discards (R135, R200): queues, engines' work, drain buffer, row contexts, both banks. -/
def discardWork (c : Cluster) : Cluster :=
  resetBanks (clearTrvs (stopDiscard c)) true

/-- Begin dispatch at the restored index with frames opened by anchor F; DRAIN_SEQ counts from the datum (R86). -/
def beginAt (c : Cluster) (F : Nat) : Cluster :=
  let c := openBoth (atCycle c F) F
  { c with opx := { c.opx with drainSeq := 0 }
           mem := { c.mem with tab := c.mem.tab.map (fun e => if e.2 = 1 then (e.1, 0) else e) }
           seq := { c.seq with wait := .run, stop := none }
           log := { c.log with opened := F, occs := [], waiting := [], grant := [], grantAt := [] } }

/-- The record that a replay uses (R144): the one last written, else the other slot, with the slot bit so that the next record overwrites
the failed one. `none` when neither is usable. -/
def findRecord (s : State) (lc : Nat) : Option (List Byte × Bool) × State :=
  let c := cluster s lc
  let read (s : State) (a : Nat) : RdRes × State := devRead (chargeDev s (secOf lc) 2 a 4096 false) a 4096
  let a := read s (recordAddr c (!c.seq.slot))
  if recordOk lc a.1 then (some (a.1.data, c.seq.slot), a.2)
  else
    let s1 := logOnly a.2 0x0031 7 0 lc noLink (packFields [(recordAddr c (!c.seq.slot), 48)])
    let b := read s1 (recordAddr c c.seq.slot)
    if recordOk lc b.1 then (some (b.1.data, !c.seq.slot), b.2)
    else (none, logOnly b.2 0x0031 7 0 lc noLink (packFields [(recordAddr c c.seq.slot, 48)]))

/-- Cause NO_DATUM of R144, an encoding the spec does not give (log 13). -/
def cNoDatum : Nat := 1

/-- Fault the step because a cluster has no usable record (R144): the entry names the cluster and the cause. -/
def faultNoDatum (s : State) (lc : Nat) : State :=
  let s := logEvent s 0x000B 3 0 lc noLink (packFields [(lc, 8), (cNoDatum, 8)])
  stepFaulted s (lastEntry s)

/-- A handle that a record carries (Table 13-5), as it stands once the record is written: one that the write releases is empty (R214). -/
def recordHandle (x : Nat) : Handle :=
  if natBits x 15 1 = 1 ∧ natBits x 16 1 = 0 then { Handle.empty with tensor := natBits x 0 13, slot := natBits x 13 2, held := true, ver := natBits x 17 32 }
  else .empty

/-- Do two handles hold the same slot, or both none? -/
def sameHold (x y : Handle) : Bool := x.held == y.held && (!x.held || (x.tensor == y.tensor && x.slot == y.slot))

/-- A replay restores the handles from its record (R366). One that the replayed interval took itself holds its slot and its count (R213), when the
record is the latest. Where the record holds another slot than the cluster does, the HOLD counts follow it. -/
def restoreHandles (s : State) (lc : Nat) (l : List Byte) (latest : Bool) : State :=
  let id := byteField l 8 8 * 2 ^ 64 + byteField l 16 8 + 1
  (List.range 8).foldl (fun s h =>
    let x := handleOf s lc h
    let r := recordHandle (byteField l (0xA00 + 8 * h) 8)
    if latest && x.held && x.since == id then setHandle s lc h { x with release := false }
    else if sameHold x r then setHandle s lc h (if x.held then { x with release := false, ver := r.ver } else x)
    else
      let s := releaseHandle s x
      let s := if r.held then modVt s r.tensor (fun v => modHold v r.slot (fun n => n + 1)) else s
      setHandle s lc h r) s

/-- Replay a cluster from its last datum (R135 step 5, R142, R125, R366); its frames open in cycle cyc, after the cycles that it has counted. The
readies, non-finite events and CONTRIBs of 0 of the interval count when it runs again (R219, R222, R225). -/
def replayCluster (s : State) (lc cyc : Nat) (conservative : Bool) (g : Nat) : State :=
  match findRecord s lc with
  | (none, s) => faultNoDatum s lc
  | (some (l, slot), s) =>
    let s := restoreHandles s lc l (slot == (cluster s lc).seq.slot)
    let s := modCluster s lc (fun c =>
      let F := max cyc (c.seq.icyc + 1)
      let pausing := c.pausing
      let c := setHold { discardWork c with pausing := pausing }
      let c := prepareScratch c (keptRegion c)
      let c := restoreRecord c l
      let n := min 65535 (spGet 0 c.seq.prm 252 + 1)
      let lostHere := F - c.log.opened
      let c := { c with
        seq := { c.seq with slot := slot, prm := spSet 0 c.seq.prm 252 n }
        log := { c.log with conservative := conservative, gForce := g, replays := c.log.replays + 1, poisonN := 0, nf := 0, noContrib := false, readies := [],
                            lost := match c.log.lost with
                              | x :: r => (x + lostHere) :: r
                              | [] => [lostHere] } }
      beginAt (applyStaged c) F)
    dispatch { s with prog := { s.prog with replayN := s.prog.replayN + 1 } } lc

/-- START of one cluster (R125, R142, R201, R345): at ENTRY, from the parameters that stand, staged patches applied. Its issue-cycle count goes on, and
its first frames open in the next cycle (DESIGN CHOICE, log 44). -/
def startCluster (s : State) (lc : Nat) : State :=
  let s := modCluster s lc (fun c =>
    let F := c.seq.icyc + 1
    let c := discardWork c
    let step := spGet 0 c.seq.prm 248
    let c := { c with
      seq := { c.seq with pc := c.seq.hdr.entry, line := 0, slot := false, loops := [],
                          prm := spSet 0 (spSet 0 (spSet 0 c.seq.prm 252 0) 253 0) 248 step }
      log := { SeqLog.reset with gForce := c.log.gForce, own := c.log.own, inbound := c.log.inbound }
      mem := { c.mem with sideClean := [] }
      vr := { c.vr with cflags := 0 } }
    beginAt (applyStaged (prepareScratch c (fun _ => false))) F)
  dispatch s lc

end Sys2Proof.Machine
end

