-- ==== Sys2Proof/Machine/Datum.lean ====
section
/-! DEFINITION. DATUM and its record's acknowledgement (R141, R174, R250), SYNC (R130). -/

namespace Sys2Proof.Machine

/-- Has every cluster of the consist stopped before a DATUM with STEP = 1 since the abort, or come to the end of its part? -/
def allStepped (s : State) : Bool :=
  (consistLcs s).all (fun lc => !(setHas s.train.stopOwed lc) || (cluster s lc).seq.wait == .done)

/-- A cluster stops before the record of a DATUM with STEP = 1 (R229, R389); the module is PAUSED once every cluster has. One that a RESUME let go on
before that stands where it is until the next RESUME (DESIGN CHOICE, log 36). -/
def stopAtStep (s : State) (lc : Nat) : State :=
  let s := modCluster s lc (fun c => { c with seq := { c.seq with wait := .step } })
  let s := { s with train := { s.train with stopOwed := setDel s.train.stopOwed lc } }
  if allStepped s then refusePause (setOp { s with train := { s.train with stopOwed := [] } } .paused) else s

/-- Has some traverse of the interval a recorded refusal (R283)? -/
def refused (c : Cluster) : Bool := c.t0.refV || c.t1.refV || c.t2.refV || c.t3.refV

/-- Has some compare of the interval failed (R278)? -/
def checkFailed (c : Cluster) : Bool := c.t0.chkFail || c.t1.chkFail || c.t2.chkFail || c.t3.chkFail

/-- Post POISON_CONSUMED (R174): logical cluster, POISON_N, PC_N, THROUGH. -/
def postPoison (s : State) (lc cls : Nat) : State :=
  let l := (cluster s lc).log
  let s := logEvent s 0x0005 cls 0 lc (repeatLink (cluster s lc) l.pcN) (packFields [(lc, 8), (l.poisonN, 32), (l.pcN, 8), (b2n l.through, 1)])
  modCluster s lc (fun c => { c with log := { c.log with pcN := min 255 (c.log.pcN + 1) } })

/-- The cluster writes its datum record, applies the staged patches, and waits for the acknowledgement (R141 steps 3 and 4). A record that the window
of an unmapped cluster discards is a defect (R33). -/
def writeRecord (s : State) (lc : Nat) (raw : Nat) : State :=
  let c := cluster s lc
  let l := recordBytes s lc (c.seq.pc + 1) (datumStep raw)
  let s := chargeDev (devWrite (noteUnmapped s lc c.seq.pc [recordAddr c c.seq.slot]) (recordAddr c c.seq.slot) l false 0) (secOf lc) 2 (recordAddr c c.seq.slot) 4096 true
  modCluster s lc (fun c => let c := applyStaged c; { c with seq := { c.seq with wait := .record } })

/-- Begin the refusal probes of R283: the cluster discards its work, keeps its refusal records, and waits. -/
def beginProbe (s : State) (lc : Nat) : State :=
  modCluster s lc (fun c =>
    let c := setHold { resetBanks (stopDiscard c) true with pausing := c.pausing }
    let f (t : TrvEngine) : TrvEngine := { t with probe := t.refV, probes := if t.refV then satAdd 16 t.probes 1 else t.probes }
    { c with seq := { c.seq with wait := .probe }, t0 := f c.t0, t1 := f c.t1, t2 := f c.t2, t3 := f c.t3 })

/-- Write the record when the REC budgets admit it (R420, R421). -/
def recordWhen (s t : State) (lc : Nat) (raw : Nat) : Res :=
  let c := cluster s lc
  if heldRange s (recordAddr c c.seq.slot) 4096 then .next s else
  gate s 2 (devCells (secOf lc) (recordAddr c c.seq.slot) true) (.next (writeRecord t lc raw))

/-- DATUM (R141): with every earlier command retired. In poison-through every DATUM of the step reports POISON_CONSUMED and writes its record (R369). -/
def execDatum (lc : Nat) (s : State) : Res :=
  match seqHead s lc oDATUM with
  | none => .next s
  | some raw =>
    let c := cluster s lc
    if !(predHolds c raw) then .next (advance s lc (fun c => { c with seq := { c.seq with pc := c.seq.pc + 1 } }))
    else if !(quiet c) then .next s
    else if datumStep raw && setHas s.train.stopOwed lc then .next (stopAtStep s lc)
    else if refused c then .next (beginProbe (postPoison s lc 1) lc)
    else if c.log.through then recordWhen s (postPoison s lc 1) lc raw
    else if c.log.poisonN = 0 ∧ !(checkFailed c) then recordWhen s s lc raw
    else
      let n := (c.log.reports.filter (fun r => r.1 == 2)).length
      let s := postPoison s lc (if n = 0 then 1 else 2)
      let s := modCluster s lc (fun c => { c with log := { c.log with reports := c.log.reports ++ [(2, n)] } })
      .next (stopWith s lc .poison)

/-- Release the handles that the record's write releases (R214). -/
def releaseMarked (s : State) (lc : Nat) : State :=
  (cluster s lc).handles.foldl (fun s h =>
    if h.2.held && h.2.release then setHandle (releaseHandle s h.2) lc h.1 .empty else s) s

/-- Count the readies that the record binds (R225), and evaluate the rounds that become complete (R226). The non-finite events of the
cluster's VEC.OPT commands count for the groups that its next readies name (R222, log 14). WITHHELD and WCAUSE of the group entry show a cluster's withheld
verdict as its ready is counted, before the evaluation forms the module's verdict (DESIGN CHOICE, log 14). -/
def countReadies (s : State) (lc : Nat) : State :=
  let rs := (cluster s lc).log.readies
  let nf := (cluster s lc).log.nf + (cluster s lc).log.nfHeld
  let s := rs.foldl (fun s r => modGroup s r.1 (fun g => { g with nfCount := satAdd 32 g.nfCount nf })) s
  let s := rs.foldl (fun s r =>
    let w := readyCauses s lc r
    let s := modGroup s r.1 (fun g => { g with readyN := min 511 (g.readyN + 1), withheld := g.withheld || w ≠ 0, wcause := g.wcause ||| w })
    let g := groupOf s r.1
    if g.valid ∧ !g.await ∧ g.readyN = g.nclusters then evaluateRound s r.1 else s) s
  modCluster s lc (fun c =>
    { c with log := { c.log with
        readies := []
        verdict := c.log.verdict.filter (fun v => !(rs.any (fun r => r.1 == v.1)))
        nf := 0
        nfHeld := if rs.isEmpty then nf else 0
        noContrib := false
        noContribHeld := rs.isEmpty && (c.log.noContrib || c.log.noContribHeld) } })

/-- MARCH-D on the armed banks (Table 9-6): they are left clear, tag 0 with poison. -/
def marchScratch (m : ClMem) (mask : Nat) : ClMem :=
  let hit (w : Nat) : Bool := natBits mask (w % 64) 1 == 1
  { m with
    sp := spKeep (fun a => !(hit (a / 64))) m.sp
    wmeta := spKeep (fun w => !(hit w)) m.wmeta
    spEcc := spKeep (fun g => !(hit (g / 4))) m.spEcc }

/-- Record the outcome of a test (R251): algorithm 0 MARCH-D, 1 MARCH-P, 2 TRANSPARENT. -/
def noteMarch (m : ClMem) (alg : Nat) (fail : Option (Nat × Nat × Nat)) : ClMem :=
  { m with lastAlg := alg, lastFail := fail.isSome, fail := fail.getD m.fail, marches := satAdd 16 m.marches 1 }

/-- What a failing preserving test leaves (R251): the word (MARCH-P, 1) or the 16-word region (TRANSPARENT, 2) with poison, where the memory has
it. -/
def poisonFailed (c : ClMem) (alg : Nat) (fail : Option (Nat × Nat × Nat)) : ClMem :=
  match fail with
  | none => c
  | some (mem, b, x) =>
    let hit (y : Nat) : Bool := y % bankCount mem == b && (if alg = 1 then y / bankCount mem == x else y / bankCount mem / 16 == x / 16)
    if mem = 0 then
      { c with wmeta := ((List.range 65536).filter hit).foldl (fun t y => spMod WordMeta.clear t y (fun k => { k with poison := true })) c.wmeta }
    else if mem = 1 then { c with sideClean := c.sideClean.filter (fun y => !(hit y)) }
    else c

/-- The tests of a marching DATUM and of a recovery (Table 9-7): MARCH-D on scratchpad banks, then, with `both`, TRANSPARENT on side memory and
sequencer memory. `fail` is the first failing word; what a failing region of TRANSPARENT leaves is poisoned (R251). -/
def runTests (m : ClMem) (mask : Nat) (both : Bool) (fail : Option (Nat × Nat × Nat)) : ClMem :=
  let m0 := noteMarch (marchScratch m mask) 0 (fail.filter (fun x => x.1 == 0))
  if both then { noteMarch (poisonFailed m0 2 (fail.filter (fun x => x.1 != 0))) 2 fail with lastFail := fail.isSome } else m0

/-- The interval's bookkeeping that an acknowledged record ends (R141, R143, R174, R284, R367). DESIGN CHOICE (log 43): guard cycles that R137 has doubled
stay in force until PRM251 is patched or a consist is loaded; the spec ends conservative timing with the step and does not speak of G. -/
def closeInterval (c : Cluster) (step : Bool) : Cluster :=
  let c := resetBanks (clearTrvs c) false
  { c with
    log := { c.log with
      own := [], inbound := [], sfRec := [], lossRec := [], holdRec := [], poisonN := 0, pcN := 0, slips := 0, replays := 0, reports := []
      conservative := c.log.conservative && !step, through := c.log.through && !step
      trvFail := if step then [] else c.log.trvFail
      lagPosted := c.log.lagPosted && !step, unbPosted := c.log.unbPosted && !step }
    vr := { c.vr with ctxs := [], cflags := if step then 0 else c.vr.cflags } }

/-- May a marching DATUM find a fault in this memory (R250, R423)? -/
def marchable (m : ClMem) (mem : Nat) : Bool := mem == 0 || (mem == 1 && m.dueSide) || (mem == 2 && m.dueSeq)

/-- Cycles of TRANSPARENT on the memories that are due (R423). -/
def transparentCycles (m : ClMem) : Nat := (if m.dueSide then 13312 else 0) + (if m.dueSeq then 26624 else 0)

/-- The memories after a marching DATUM (R250, R423): MARCH-D on the armed banks, then TRANSPARENT on the memories due. -/
def marchDatum (m : ClMem) (fail : Option (Nat × Nat × Nat)) : ClMem :=
  { runTests m m.armMask (m.dueSide || m.dueSeq) fail with arm := false, overdue := false, dueSide := false, dueSeq := false }

/-- DATUM_RECORD_ACK (R141 step 5): counts, maps, the marching DATUM, a pending move, new frames. The frames open in the
next cycle, after a march in cycle Y + 11,266 (R250) and the cycles of R423. -/
def execDatumRecordAck (lc cyc : Nat) (march : Option (Nat × Nat × Nat)) (s : State) : Res :=
  let c := cluster s lc
  if c.seq.wait ≠ .record ∨ c.seq.stop.isSome ∨ s.op ≠ .running then .next s
  else
    let step := datumStep (fetchCmd c c.seq.pc)
    let n := nextCounts s lc step
    let was := stateStep s
    let s := countReadies (releaseMarked s lc) lc
    let marching := step && c.mem.arm
    let fail := if marching then march.filter (fun x => marchable c.mem x.1) else none
    let moving := step && c.log.moveDue
    let s := modCluster s lc (fun c =>
      let c := { c with seq := { c.seq with
        slot := !c.seq.slot, pc := c.seq.pc + 1
        prm := spSet 0 (spSet 0 (spSet 0 c.seq.prm 248 n.1) 253 n.2.1) 252 n.2.2 } }
      let c := closeInterval c step
      let F := if marching then cyc + 11266 + transparentCycles c.mem else cyc + 1
      beginAt (if marching then { c with mem := marchDatum c.mem fail } else c) F)
    let s := if was < stateStep s then { s with ckpt := s.ckpt.endStep s.clk.aon } else s
    let s := if fail.isSome then stopWith s lc .march else if moving then stopWith s lc .pace else s
    .next (dispatch s lc)

/-! SYNC -/

/-- Clusters that must report (R130). -/
def syncMembers (s : State) : List Nat := (consistLcs s).filter (fun lc => (lcEntry s lc).mapped)

/-- SYNC (R130): the cluster reports its ordinal once its earlier commands have retired. -/
def execSync (lc : Nat) (s : State) : Res :=
  match seqHead s lc oSYNC with
  | none => .next s
  | some raw =>
    let c := cluster s lc
    if !(predHolds c raw) then .next (advance s lc (fun c => { c with seq := { c.seq with pc := c.seq.pc + 1 } }))
    else if !(quiet c) then .next s
    else
      let n := c.log.syncN
      let t := s.clk.aon
      let s := modCluster s lc (fun c => { c with seq := { c.seq with wait := .sync } })
      if n < s.prog.syncDone then .next s
      else
        let has := s.prog.sync.any (fun r => r.ordinal == n)
        let sync := if has then s.prog.sync.map (fun r => if r.ordinal = n then { r with reported := setAdd r.reported lc } else r)
          else s.prog.sync ++ [⟨n, t, [lc], false⟩]
        .next { s with prog := { s.prog with sync := sync } }

/-- Open the frames of the clusters that wait at a SYNC ordinal, each at its own next issue cycle (R120): `cycs` gives the issue cycle of a cluster in
which the SYNC completes, at least the count it has reached. -/
def openSync (s : State) (n : Nat) (cycs : List (Nat × Nat)) : State :=
  (consistLcs s).foldl (fun s lc =>
    let c := cluster s lc
    if c.seq.wait = .sync ∧ c.log.syncN = n ∧ c.seq.stop.isNone then
      dispatch (modCluster s lc (fun c =>
        let c := atCycle c (((cycs.find? (fun x => x.1 == lc)).map (fun x => x.2)).getD 0)
        let c := openBoth c (c.seq.icyc + 1)
        { c with seq := { c.seq with wait := .run, pc := c.seq.pc + 1 }, log := { c.log with syncN := n + 1 } })) lc
    else s) s

/-- SYNC_COMPLETE (R130): every mapped cluster of the consist has reported the ordinal, or the hub has completed it before. -/
def execSyncComplete (ordinal : Nat) (cycs : List (Nat × Nat)) (s : State) : Res :=
  if s.op ≠ .running then .next s
  else if ordinal < s.prog.syncDone then .next (openSync s ordinal cycs)
  else match s.prog.sync.find? (fun r => r.ordinal == ordinal) with
    | none => .next s
    | some r =>
      if (syncMembers s).all (fun lc => setHas r.reported lc) then
        let s := { s with prog := { s.prog with syncDone := ordinal + 1, sync := s.prog.sync.filter (fun x => x.ordinal != ordinal) } }
        .next (openSync s ordinal cycs)
      else .next s

/-- The smallest SYNC_LIMIT of any part of the consist (R130), in µs; 0 without a part. -/
def syncLimitMin (s : State) : Nat :=
  match (consistLcs s).map (fun lc => (cluster s lc).seq.hdr.syncLimit) with
  | [] => 0
  | x :: r => r.foldl min x

/-- SYNC_TIMEOUT (R130): two linked FLAG_DEADLOCK entries, once for each ordinal, when the limit has passed since the first report. -/
def execSyncTimeout (ordinal : Nat) (s : State) : Res :=
  match s.prog.sync.find? (fun r => r.ordinal == ordinal) with
  | none => .next s
  | some r =>
    if r.raised ∨ s.op ≠ .running ∨ s.clk.aon < r.since + 50 * syncLimitMin s then .next s
    else
      let missing := (syncMembers s).filter (fun lc => !(setHas r.reported lc))
      let s := logEvent s 0x0003 5 4 0 noLink (packFields [(ordinal, 32), (missing.length, 32)])
      let s := logEvent s 0x0003 5 4 0 (lastEntry s) (missing.foldl (fun m lc => m ||| 2 ^ lc) 0)
      .next { s with prog := { s.prog with sync := s.prog.sync.map (fun x => if x.ordinal = ordinal then { x with raised := true } else x) } }

end Sys2Proof.Machine
end

