-- ==== Sys2Proof/Machine/Power.lean ====
section
/-! DEFINITION. Ceilings and their steps (R427 to R430). -/

namespace Sys2Proof.Machine

/-- Change power control. -/
def modPower (s : State) (f : Power → Power) : State := { s with pw := f s.pw }

/-- The count of domain d (R418). -/
def domCount (s : State) (d : Nat) : Nat :=
  if d = 0 then s.clk.arith0 else if d = 1 then s.clk.arith1 else if d = 2 then s.clk.arith2 else if d = 3 then s.clk.arith3
  else if d < 16 then s.clk.mem else if d < 24 then s.clk.fabQ / 4 else if d = 24 then s.clk.host else if d = 25 then s.clk.hub
  else if d = 26 then s.clk.nand else s.clk.aon

/-- Does domain d run (Table 15-1)? -/
def domRuns (s : State) (d : Nat) : Bool :=
  if d < 4 then arithClock s else if d < 16 then memClock s && !(stkOf s (d - 4)).refresh else if d < 24 then fabClock s
  else if d = 24 then hostClock s else if d = 25 then hubClock s else if d = 26 then nandClock s else powered s

/-- A sample set (R417): the running domains are captured, the other pairs stand. -/
def sampleSet (s : State) : State :=
  let ds := (List.range 28).filter (domRuns s)
  { s with time :=
      { pairs := ds.foldl (fun p d => spSet (0, 0) p d (s.clk.aon, domCount s d)) s.time.pairs
        seq := (s.time.seq + 2) % 2 ^ 32
        run := ds.foldl (fun m d => m + 2 ^ d) 0 } }

/-- Take a sample set when the step from `a` to `b` has changed a performance level (R417). -/
def sampleOnChange (a b : State) : State := if perfBits a = perfBits b then b else sampleSet b

/-- AON cycles in n ms. -/
def msAon (n : Nat) : Nat := n * 50000

/-- A ceiling moves one level slower, at most to P7 (Table 15-7). -/
def slower (l : Nat) : Nat := min 7 (l + 1)

/-- The clamp ceiling of a section moves one level slower (R429). -/
def clampSlower (s : State) (k : Nat) : State :=
  let t := s.clk.aon
  refreshPowerAlert (modPower s (fun p =>
    { p with clamp := spSet 0 p.clamp k (slower (spGet 0 p.clamp k)), clampAt := spSet 0 p.clampAt k t, slowedAt := some t,
             clampSteps := satAdd 16 p.clampSteps 1 }))

/-- Has `n` ms passed since an AON count, if there is one? -/
def since (s : State) (t : Option Nat) (n : Nat) : Bool :=
  match t with
  | none => true
  | some x => decide (x + msAon n ≤ s.clk.aon)

/-- The clamp ceilings release one level for each section without a further such clamp for 100 ms (R429). -/
def clampRelease (s : State) : State :=
  [0, 1, 2, 3].foldl (fun s k =>
    if spGet 0 s.pw.clamp k ≠ 0 ∧ since s (some (spGet 0 s.pw.clampAt k)) 100 then
      let t := s.clk.aon
      modPower s (fun p => { p with clamp := spSet 0 p.clamp k (spGet 0 p.clamp k - 1), clampAt := spSet 0 p.clampAt k t })
    else s) s

/-- One sample of the power controller (R429). L is compared in 0.1 W; the 1.2 L test is 12 L against the 1 ms average. -/
def powerSampleOp (s : State) (r : PowerReading) : State :=
  let L := powerLimit s
  let t := s.clk.aon
  let dt := t - s.pw.sampleAon
  let s := modPower s (fun p => { p with sample := r, sampleAon := t, energy := p.energy + r.p * dt * 2 })
  let excess := decide (12 * L < r.avg1ms) || decide (10 * L < r.avg100ms)
  let low := decide (r.avg1s < 9 * L)
  let s := modPower s (fun p => { p with lowSince := if low then (p.lowSince.or (some t)) else none })
  let s :=
    if excess && since s s.pw.powerAt 1 then
      if s.pw.powerCeil < 7 then
        modPower s (fun p => { p with powerCeil := slower p.powerCeil, slowedAt := some t, powerAt := some t, powerSteps := satAdd 16 p.powerSteps 1 })
      else s
    else if low && since s s.pw.lowSince 100 && since s s.pw.slowedAt 100 && since s s.pw.fasterAt 100 && decide (0 < s.pw.powerCeil) then
      modPower s (fun p => { p with powerCeil := p.powerCeil - 1, fasterAt := some t })
    else s
  let s := clampRelease s
  let allP7 := [0, 1, 2, 3].all (fun k => effLevel s k == 7)
  let unmet := allP7 && decide (10 * L < r.avg100ms)
  let s := if unmet && !s.pw.unmet then logEvent s 0x0052 7 7 0 noLink 0 else s
  refreshPowerAlert (modPower s (fun p => { p with unmet := unmet }))

/-- The sections that a sensor throttles (Table 15-8): sensors 0 to 3 sections, 4 hub, 5 to 16 stacks, 17 NAND, 18 lid. -/
def sensorSections (n : Nat) : List Nat :=
  if n < 4 then [n] else if n = 4 then [0, 1, 2, 3] else if n < 17 then [(n - 5) / 3] else []

/-- Warn, throttle and critical thresholds in °C (Table 15-8); the lid has none. -/
def thresholds (n : Nat) : Option (Int × Int × Int) :=
  if n < 5 then some (95, 100, 110) else if n < 17 then some (85, 90, 100) else if n = 17 then some (70, 80, 90) else none

/-- Does every sensor that throttles section k lie 5 °C below its throttle threshold (R430)? -/
def coolSection (s : State) (k : Nat) : Bool :=
  (List.range 17).all (fun m => !((sensorSections m).contains k) ||
    (thresholds m).any (fun t => decide (spGet 0 s.pw.temps m ≤ (t.2.1 - 5) * 256)))

/-- Has `n` ms passed since the last move of section k's thermal ceiling, if there was one? -/
def thermalDue (s : State) (n k : Nat) : Bool := decide (spGet 0 s.pw.thermAt k = 0) || decide (spGet 0 s.pw.thermAt k + msAon n ≤ s.clk.aon + 1)

/-- Section k's thermal ceiling moves to l. -/
def setThermal (s : State) (k l : Nat) : State :=
  let t := s.clk.aon
  modPower s (fun p => { p with therm := spSet 0 p.therm k l, thermAt := spSet 0 p.thermAt k (t + 1) })

/-- One step of the thermal ceilings that a sensor moves (R430): one level slower every 1 ms while it is above its throttle threshold, released one
level per 100 ms once it, and with it every sensor of the section, lies 5 °C below. The NAND sensor halves the store's CKPT budget (Table 15-8). -/
def thermalStep (s : State) (n : Nat) : State :=
  match thresholds n with
  | none => s
  | some (_, thr, _) =>
    let x := spGet 0 s.pw.temps n
    let t := s.clk.aon
    if n = 17 then
      if thr * 256 < x then { s with tt := { s.tt with nandHalf := true } }
      else if x ≤ (thr - 5) * 256 then { s with tt := { s.tt with nandHalf := false } } else s
    else if thr * 256 < x then
      refreshPowerAlert (((sensorSections n).filter (thermalDue s 1)).foldl (fun s k =>
        modPower (setThermal s k (slower (spGet 0 s.pw.therm k))) (fun p => { p with slowedAt := some t, thermSteps := satAdd 16 p.thermSteps 1 })) s)
    else if x ≤ (thr - 5) * 256 then
      ((sensorSections n).filter (fun k => coolSection s k && thermalDue s 100 k && decide (spGet 0 s.pw.therm k ≠ 0))).foldl (fun s k =>
        setThermal s k (spGet 0 s.pw.therm k - 1)) s
    else s

end Sys2Proof.Machine
end

