-- ==== Sys2Proof/Machine/Recovery.lean ====
section
/-! DEFINITION. Siding moves (R370 to R372), pace monitors (R373), monitor trips (R367), stationmaster restarts (R392), units with one layer of
defence (R393), the safe state (R394), temperatures and power samples (R429, R430), sample sets (R417). -/

namespace Sys2Proof.Machine

/-! The safe state -/

/-- Causes in the detail of SAFE_STATE, an encoding of the model (log 13). -/
def sfLockstep : Nat := 1
def sfMonitor : Nat := 2
def sfRestart : Nat := 3
def sfTemp : Nat := 4
def sfInput : Nat := 5
def sfStart : Nat := 6

/-- Enter the safe state (R394) from any powered state: FAULT#, STAT 0b11, ARITH stopped, stacks in self-refresh, HALTED, SAFE_STATE logged. An entry to
sleep or a wake in progress ends. -/
def enterSafe (s : State) (unit cause : Nat) : State :=
  if !(powered s) || s.boot.phase == .safe then s
  else
    let s := (List.range 12).foldl (fun s k => modStk s k (fun x => { x with refresh := true })) s
    let s := logEvent (setAlert s aFAULT) 0x0069 6 7 0 noLink (packFields [(unit, 8), (cause, 8)])
    let slp := { s.slp with entering := none, ponr := false, waking := false, pend := false, cut := none }
    refusePause (setOp { s with faultPin := true, boot := { s.boot with phase := .safe }, slp := slp } .halted)

/-- Lockstep and duplicated-engine mismatches (R393): unit 0 signal box, 1 root of trust, 2 always-on domain. The root of trust destroys the
tenant keys. -/
def execLockstepMismatch (unit : Nat) (s : State) : Res :=
  if !(powered s) || s.boot.phase == .safe || decide (2 < unit) then .next s
  else
    let s := if unit = 1 then { s with su := { s.su with wkeys := [], fkeys := [], ckey := none } } else s
    .next (enterSafe s unit sfLockstep)

/-- An input above 62 V for 50 µs (R485). -/
def execInputOvervoltage (s : State) : Res := .next (enterSafe s uModule sfInput)

/-! Siding moves -/

/-- Physical clusters of a section that no logical number uses and that are neither fenced nor failing. -/
def freeSidings (s : State) (k : Nat) : List Nat :=
  (List.range 68).filter (fun p =>
    !(setHas s.map.fenced (68 * k + p)) && !(setHas s.map.failing (68 * k + p)) &&
    !((List.range 64).any (fun i => (lcEntry s (64 * k + i)).mapped && (lcEntry s (64 * k + i)).phys == p)))

/-- Is a move of this stopped cluster due (R370, Table 13-6)? After a second POISON_CONSUMED it is when the recovery test has found a fault. -/
def moveDueNow (c : Cluster) : Bool :=
  match c.seq.stop with
  | some .checksum => repeats c 1 == 2
  | some .poison => repeats c 2 == 2
  | some .ctrlParity => repeats c 3 == 2
  | some .seqMemory => repeats c 4 == 2
  | some .march => true
  | some .pace => true
  | _ => false

/-- The memories of the siding (R371): banks cleared, commands loaded, inbound regions copied through ECC, whose
reads count (R234), with tags and poison, side memory poisoned. -/
def sidingMem (c : Cluster) : ClMem :=
  let kept (w : Nat) : Bool := setHas c.log.inbound (w / 16)
  let read := setAddAll [] ((c.mem.spEcc.map (fun e => e.1 / 4)).filter kept)
  let m := read.foldl (fun m w => (eccRead m 0 w allGran).1) c.mem
  { ClMem.reset with
    sp := spKeep (fun a => kept (a / 64)) m.sp
    wmeta := (spKeep kept m.wmeta).map (fun e => (e.1, { e.2 with poison := e.2.poison || wordUe m 0 e.1 }))
    seqm := m.seqm, tab := m.tab, retain := m.retain, armMask := m.armMask, sideRet := m.sideRet, seqRet := m.seqRet, arm := m.arm,
    overdue := m.overdue, armedAt := m.armedAt, lastAlg := m.lastAlg, lastFail := m.lastFail, fail := m.fail, denied := m.denied,
    marches := m.marches, ceN := m.ceN, ueN := m.ueN, ue := m.ue }

/-- Change a cluster map entry (R31). -/
def setLc (s : State) (lc : Nat) (f : LcEntry → LcEntry) : State := { s with map := { s.map with lcmap := listMod f s.map.lcmap lc } }

/-- The function-table memory as the image holds it (R185), read by the stationmaster for the section of lc. -/
def loadFtab (s : State) (lc : Nat) : Memory × State :=
  if s.prog.ftab = 0 then ([], s)
  else
    let r := devRead (chargeDev s (secOf lc) 7 s.prog.ftab 131072 false) s.prog.ftab 131072
    (memWrite [] 0 r.1.data, r.2)

/-- Move a stopped cluster to the lowest free siding (R371, R372), then replay it. With none free the step is faulted, and the number is without a
physical cluster from then on, so that LOAD_CONSIST refuses every later consist that names it (R32, R370). `marchFail` is the first failing word that
the tests of Table 9-7 and R372 find on the memories it leaves: after a POISON_CONSUMED they run before the move, else on the fenced cluster, and
SP_MSTAT stays with the logical cluster (log 38). -/
def moveCluster (s : State) (lc cyc : Nat) (marchFail : Option (Nat × Nat × Nat)) : State :=
  let k := secOf lc
  let c := cluster s lc
  let old := (lcEntry s lc).phys
  match freeSidings s k with
  | [] =>
    let s := { s with map := { s.map with fenced := setAdd s.map.fenced (68 * k + old) } }
    stepFaulted (setLc s lc (fun e => { e with mapped := false })) c.log.faultIdx
  | p :: _ =>
    match reloadPart s lc with
    | (none, s) => stepFaulted s c.log.faultIdx
    | (some s, _) =>
      let ft := loadFtab s lc
      let s := modCluster ft.2 lc (fun c => if c.seq.stop = some .poison then { c with mem := runTests c.mem (2 ^ 64 - 1) true marchFail } else c)
      let s := modCluster s lc (fun c => { c with mem := sidingMem c, vr := { c.vr with ftab := ft.1 } })
      let s := modMem s lc (fun m =>
        if c.seq.stop = some .checksum ∨ c.seq.stop = some .seqMemory then
          { noteMarch (noteMarch m 0 (marchFail.filter (fun x => x.1 == 0))) 2 marchFail with lastFail := marchFail.isSome }
        else if c.seq.stop = some .ctrlParity then noteMarch m 0 marchFail else m)
      let s := setLc s lc (fun e => { e with phys := p, moves := min 15 (e.moves + 1) })
      let s := { s with map := { s.map with fenced := setAdd s.map.fenced (68 * k + old) } }
      let s := logEvent s 0x0009 2 0 lc c.log.faultIdx (packFields [(lc, 8), (old, 7), (p, 7)])
      let s := if c.seq.stop = some .checksum ∨ c.seq.stop = some .ctrlParity then
          logOnly s 0x0009 7 0 lc (lastEntry s) (packFields [(lc, 8), (old, 7), (b2n marchFail.isSome, 1)]) else s
      let s := modCluster s lc (fun c => { c with log := { c.log with moveDue := false } })
      replayCluster s lc cyc c.log.conservative c.log.gForce

/-- SIDING_MOVE (R370 to R372), when the SM budgets admit its reload (R421). -/
def execSidingMove (lc cyc : Nat) (marchFail : Option (Nat × Nat × Nat)) (s : State) : Res :=
  let c := cluster s lc
  if s.op = .running && c.inConsist && moveDueNow c && (c.seq.stop ≠ some .poison || marchFail.isSome) then
    gate s 7 (devCells (secOf lc) (spGet 0 s.prog.parts lc) false) (.next (moveCluster s lc cyc marchFail))
  else .next s

/-- PACE_LAG (R373): more than 26,215 lost cycles in the last 64 periods, at most once a step. -/
def execPaceLag (lc : Nat) (s : State) : Res :=
  let c := cluster s lc
  let lost := c.log.lost.foldl (· + ·) 0
  if c.inConsist ∧ s.op = .running ∧ 26215 < lost ∧ !c.log.lagPosted then
    let s := logEvent s 0x0062 7 0 lc noLink (packFields [(lc, 8), (lost, 32)])
    .next (modCluster s lc (fun c => { c with log := { c.log with lagPosted := true, moveDue := c.log.moveDue || s.ckpt.policy.paceMove } }))
  else .next s

/-! Monitors -/

/-- Trips of a section within the last second. -/
def recentTrips (s : State) (sec : Nat) : List Nat := (sectionOf s sec).trips.filter (fun t => decide (s.clk.aon < t + 50000000))

/-- The ports of a section form their pieces again that have not left (R360): every piece not yet sent counts as formed after the last clean
sample. -/
def reformPieces (s : State) (sec : Nat) : State :=
  [2 * sec, 2 * sec + 1].foldl (fun s p => modPort s p (fun q =>
    { q with formed := q.formed.map (fun x => { x with formedAt := s.clk.aon, differed := false }) })) s

/-- MONITOR_TRIP (R367, R360): every cluster of the section stops; the third trip within 1 s enters the safe state. -/
def execMonitorTrip (sec : Nat) (kind : Bool) (value : BitVec 32) (s : State) : Res :=
  if 4 ≤ sec ∨ !(arithRuns s) then .next s
  else
    let trips := recentTrips s sec ++ [s.clk.aon]
    let third := decide (3 ≤ trips.length)
    let s := reformPieces (modSection s sec (fun k => { k with trips := trips, tripped := true })) sec
    let s := logEvent s 0x0061 (if third then 6 else 1) 1 sec noLink (packFields [(sec, 2), (b2n kind, 8), (value.toNat, 32)])
    if third then .next (enterSafe s uSection sfMonitor)
    else .next (((consistLcs s).filter (fun lc => secOf lc == sec)).foldl (fun s lc => stopWith s lc .monitor) s)

/-- MONITOR_RECOVERED (R367): good for 100 µs; the clusters may replay. -/
def execMonitorRecovered (sec : Nat) (s : State) : Res :=
  if (sectionOf s sec).tripped then .next (modSection s sec (fun k => { k with tripped := false })) else .next s

/-! Stationmaster restart -/

/-- Abandon the checkpoint in progress (R392, R450): its holds go, its copy stays incomplete, CKPT_FAILED is posted. -/
def abandonCkpt (s : State) : State :=
  match s.ckpt.cur with
  | none => s
  | some c =>
    let st := { s.store with copies := s.store.copies.map (fun k => if isCopy true 0 c.number k && !k.end_ then { k with broken := true } else k) }
    postCkptFailed (modCkpt { s with store := st } (fun k => { k with cur := none, sealJob := none })) c.number 0 cfABANDON

/-- Ask the leader for the decision of every open round (R390). -/
def askDecisions (s : State) : State :=
  (s.train.groups.filter (fun g => g.2.valid && g.2.await)).foldl (fun s g => askRound s g.1) s

/-- STATIONMASTER_RESTART (R392, R352, R382, R390): hub SRAM is tested by TRANSPARENT and loaded again, which ends its stored errors. A second one within
60 s ends in the safe state. Firmware that does not verify is not run: the mailbox stays down (log 46). -/
def execSmRestart (cause ms : Nat) (image : ImageCopy) (s : State) : Res :=
  if !(hubRuns s) || s.boot.phase != .up then .next s
  else
    let again := match s.mb.restartAt with
      | some t => decide (s.clk.aon < t + 3000000000)
      | none => false
    let now := s.clk.aon
    if again then .next (enterSafe s uHub sfRestart)
    else if !image.good then .next { s with mb := { s.mb with restartAt := some now, serviceUp := false } }
    else
      let s := { s with mb := { s.mb with restartAt := some now, serviceUp := true } }
      let s := [0, 1, 2, 3].foldl (fun s r => modRing s r (fun x => { x with first := true })) s
      let s := { s with hub := { s.hub with err := [], wb := [] } }
      let s := logEvent (noteInterruption s) 0x0068 7 4 0 noLink (packFields [(cause, 8), (ms, 32)])
      let s := faultLong (abandonCkpt s) (fun _ => false)
      .next (askDecisions { s with ckpt := { s.ckpt with nowSeqs := [], waitSeqs := [], verify := none } })

/-! Temperatures and power -/

/-- A sensor reaches a temperature (R430): warn sets TEMP_WARN, critical enters the safe state. -/
def execThermalThreshold (sensor : Nat) (temp : Int) (s : State) : Res :=
  if !(powered s) || decide (18 < sensor) then .next s
  else
    let s := modPower s (fun p => { p with temps := spSet 0 p.temps sensor temp })
    match thresholds sensor with
    | none => .next s
    | some (warn, thr, crit) =>
      let put (b : Bool) (x : NatSet) : NatSet := if b then setAdd x sensor else setDel x sensor
      let s := modPower s (fun p => { p with hot := put (decide (thr * 256 < temp)) p.hot, warm := put (decide (warn * 256 ≤ temp)) p.warm })
      let s := if warn * 256 ≤ temp then setAlert s aTEMP else s
      .next (if crit * 256 ≤ temp then enterSafe s uModule sfTemp else s)

/-- One step of a thermal ceiling (R430). -/
def execThermalCeilingStep (sensor : Nat) (s : State) : Res :=
  if powered s && decide (sensor ≤ 18) then .next (sampleOnChange s (thermalStep s sensor)) else .next s

/-- One sample of the power controller (R429). -/
def execPowerSample (r : PowerReading) (s : State) : Res := if powered s then .next (sampleOnChange s (powerSampleOp s r)) else .next s

/-! Sample sets -/

/-- TIME_SAMPLE_SET (R417): taken by the stationmaster. -/
def execTimeSampleSet (s : State) : Res := if s.boot.phase = .up ∧ hubRuns s then .next (sampleSet s) else .next s

end Sys2Proof.Machine
end

