-- ==== Sys2Proof/Machine/Banks.lean ====
section
/-! DEFINITION. Banks and their tests: power states and tablets (R236 to R240), ECC write-back (R234), MARCH-P (R247, R248), the armed march
(R250), BANK_HANDOVER and RUN_MARCH (R252), patrol scrub (R256). -/

namespace Sys2Proof.Machine

/-- Clear the words of a memory that satisfy `p`: data 0 with valid check bits, tag 0, poison where the memory has it (R236). -/
def clearWords (m : ClMem) (mem : Nat) (p : Nat → Bool) : ClMem :=
  let keepB (a : Nat) : Bool := !(p (a / 64))
  let keepG (g : Nat) : Bool := !(p (g / 4))
  let m := { m with wb := m.wb.filter (fun k => !(k / 65536 == mem && p (k % 65536))) }
  if mem = 0 then { m with sp := spKeep keepB m.sp, wmeta := spKeep (fun w => !(p w)) m.wmeta, spEcc := spKeep keepG m.spEcc }
  else if mem = 1 then { m with side := spKeep keepB m.side, sideClean := m.sideClean.filter (fun w => !(p w)), sideEcc := spKeep keepG m.sideEcc }
  else { m with seqm := spKeep keepB m.seqm, seqEcc := spKeep keepG m.seqEcc }

/-- Clear one bank. -/
def clearBank (m : ClMem) (mem bank : Nat) : ClMem := clearWords m mem (fun w => w % bankCount mem == bank)

/-- Memory and bank of a tablet number. -/
def tabBank (i : Nat) : Nat × Nat := if i < 64 then (0, i) else if i < 68 then (1, i - 64) else (2, i - 68)

/-- The tablet table with every bank at one value. -/
def allTabs (v : Nat) : Sparse Nat := (List.range 76).map (fun i => (i, v))

/-- Memories whose banks were all powered up from OFF. -/
def ClMem.powered : ClMem := { ClMem.reset with tab := allTabs 0 }

/-- Set one tablet. -/
def setTab (m : ClMem) (mem bank v : Nat) : ClMem := { m with tab := spPut m.tab (tabIdx mem bank) v }

/-- A bank reaches the tablet value requested; from OFF it clears (R236). -/
def settleTab (m : ClMem) (mem bank v : Nat) : ClMem :=
  let m := if tablet m mem bank = 3 ∧ v ≠ 3 then clearBank m mem bank else m
  { (setTab m mem bank v) with moving := spDel m.moving (tabIdx mem bank) }

/-- Power up every bank that is not ON, and drop the transitions requested (R237). -/
def powerUpBanks (m : ClMem) : ClMem :=
  (List.range 76).foldl (fun m i => if 2 ≤ spGet 3 m.tab i then settleTab m (tabBank i).1 (tabBank i).2 0 else m) { m with moving := [] }

/-- The bank and test registers of a logical cluster stay with it when other memories carry it (Table 9-4; log 38). -/
def keepRegs (old new : ClMem) : ClMem :=
  { new with
    retain := old.retain, armMask := old.armMask, sideRet := old.sideRet, seqRet := old.seqRet, arm := old.arm, overdue := old.overdue,
    armedAt := old.armedAt, lastAlg := old.lastAlg, lastFail := old.lastFail, fail := old.fail, denied := old.denied, marches := old.marches,
    ceN := old.ceN, ueN := old.ueN, ue := old.ue }

/-- May the stationmaster give a tablet this value now (R237, R240)? Away from ENGINES only in IDLE or LOADED or while the cluster is stopped
for recovery; a bank is ON but in IDLE, where scratchpad and side-memory banks may be OFF. -/
def tabletMay (s : State) (lc mem bank v : Nat) : Bool :=
  let c := cluster s lc
  decide (mem < 3) && decide (bank < bankCount mem) && decide (v < 4) && (lcEntry s lc).mapped && s.boot.phase == .up && hubRuns s &&
  (tablet c.mem mem bank ≠ 0 || v == 0 || s.op == .idle || s.op == .loaded || c.seq.stop.isSome) &&
  (decide (v < 2) || (s.op == .idle && mem ≠ 2))

/-- Write one tablet: MARCH and ENGINES are both ON, so they change hands at once; another value requests a power transition, and the newest
request stands. -/
def putTablet (m : ClMem) (mem bank v : Nat) : ClMem :=
  if tablet m mem bank < 2 ∧ v < 2 then { (setTab m mem bank v) with moving := spDel m.moving (tabIdx mem bank) }
  else if tablet m mem bank = v then { m with moving := spDel m.moving (tabIdx mem bank) }
  else { m with moving := spPut m.moving (tabIdx mem bank) v }

/-- A tablet write by firmware (R240). -/
def writeTablet (s : State) (lc mem bank v : Nat) : State :=
  if tabletMay s lc mem bank v then modMem s lc (fun m => putTablet m mem bank v) else s

/-- A write of SP_TABLET0 to SP_TABLET2 (R7, Table 9-4): every tablet of the register takes its two bits. -/
def writeTablets (s : State) (lc k v : Nat) : State :=
  let banks : List (Nat × Nat × Nat) :=
    if k < 2 then (List.range 32).map (fun b => (0, 32 * k + b, 2 * b))
    else (List.range 4).map (fun b => (1, b, 2 * b)) ++ (List.range 8).map (fun b => (2, b, 2 * b + 8))
  banks.foldl (fun s x => writeTablet s lc x.1 x.2.1 (natBits v x.2.2 2)) s

/-- BANK_POWER_DONE (R236, R240). -/
def execBankPowerDone (lc mem bank : Nat) (s : State) : Res :=
  match (if s.boot.phase = .safe then none else (cluster s lc).mem.moving.find? (fun e => e.1 == tabIdx mem bank && decide (mem < 3) && decide (bank < bankCount mem))) with
  | none => .next s
  | some e => .next (modMem s lc (fun m => settleTab m mem bank e.2))

/-- ECC_WRITEBACK (R234): a corrected word is stored correct, an uncorrectable one with its data as read and poison. An uncorrectable granule of
sequencer memory (2) or hub SRAM (3) stays until its contents are loaded again. -/
def execEccWriteback (lc mem word : Nat) (s : State) : Res :=
  let m := (cluster s lc).mem
  if mem = 3 then
    if !(setHas s.hub.wb word) then .next s
    else
      .next { s with hub := { s.hub with
        wb := setDel s.hub.wb word, err := (correctable s.hub.err word).foldl (fun t g => spDel t (4 * word + g)) s.hub.err } }
  else if mem = 2 then
    if !(setHas m.wb (mem * 65536 + word)) then .next s
    else .next (modMem s lc (fun m => eccClear { m with wb := setDel m.wb (mem * 65536 + word) } mem word (correctable m.seqEcc word)))
  else if !(setHas m.wb (mem * 65536 + word)) || decide (2 < mem) then .next s
  else
    let ue := wordUe m mem word
    let m := eccClear { m with wb := setDel m.wb (mem * 65536 + word) } mem word allGran
    let m :=
      if !ue then m
      else if mem = 0 then { m with wmeta := spMod WordMeta.clear m.wmeta word (fun k => { k with poison := true }) }
      else { m with sideClean := setDel m.sideClean word }
    .next (modMem s lc (fun _ => m))

/-! Hard failures -/

/-- A test has found a fault in a cluster that no consist runs on (R251): its logical number goes to the lowest free siding, with the consist's
commands and function tables (R185) when one is loaded, or becomes unmapped when none is free (R32, R370, R371). R35 and R371 speak of a cluster stopped at a datum for
replay, which a cluster in IDLE or LOADED is not: its entry changes at once, a DESIGN CHOICE (log 38). -/
def moveIdle (s : State) (lc : Nat) : State :=
  let k := secOf lc
  let c := cluster s lc
  let old := (lcEntry s lc).phys
  let fence (s : State) : State := { s with map := { s.map with fenced := setAdd s.map.fenced (68 * k + old), failing := setAdd s.map.failing (68 * k + old) } }
  match freeSidings s k with
  | [] => setLc (fence s) lc (fun e => { e with mapped := false })
  | p :: _ =>
    let r : Option ClMem × State :=
      if !c.inConsist then (some (keepRegs c.mem ClMem.powered), s)
      else match reloadPart s lc with
        | (some t, _) => (some { (keepRegs c.mem ClMem.powered) with seqm := (cluster t lc).mem.seqm }, t)
        | (none, t) => (none, t)
    match r with
    | (none, s) => setLc (fence s) lc (fun e => { e with mapped := false })
    | (some m, s) =>
      let ft := if c.inConsist then loadFtab s lc else (c.vr.ftab, s)
      let s := modCluster ft.2 lc (fun c => { c with mem := m, vr := { c.vr with ftab := ft.1 } })
      let s := setLc (fence s) lc (fun e => { e with phys := p, moves := min 15 (e.moves + 1) })
      logEvent s 0x0009 2 0 lc noLink (packFields [(lc, 8), (old, 7), (p, 7)])

/-- A cluster's memory has failed a test: a running cluster stops for its move, another is moved at once. -/
def hardFailure (s : State) (lc : Nat) : State :=
  if (cluster s lc).inConsist && (s.op == .running || s.op == .paused) then stopWith s lc .march else moveIdle s lc

/-- The first fault of each cluster in a list: SP_MSTAT keeps the first failing word (R251). -/
def firstFaults : List (Nat × Nat × Nat × Nat) → List (Nat × Nat × Nat × Nat) → List (Nat × Nat × Nat × Nat)
  | acc, [] => acc.reverse
  | acc, f :: r => firstFaults (if acc.any (fun x => x.1 == f.1) then acc else f :: acc) r

/-- A test of a wake or of a scrub finds a fault (R249, R251): LAST_FAIL and the first failing word, poison where TRANSPARENT restored the region,
and the move to a siding. -/
def testFailed (s : State) (alg : Nat) (f : Nat × Nat × Nat × Nat) : State :=
  if !(lcEntry s f.1).mapped || decide (2 < f.2.1) || decide (bankCount f.2.1 ≤ f.2.2.1) then s
  else
    hardFailure (modMem s f.1 (fun m =>
      { (if alg = 2 then poisonFailed m 2 (some f.2) else m) with lastAlg := alg, lastFail := true, fail := f.2 })) f.1

/-- One word of hub SRAM by MARCH-P (R248, R249): its first read checks the code (R234). -/
def hubMarch (s : State) (word : Nat) : State :=
  let s := hubTouch s word
  { s with hub := { s.hub with pos := (word + 1) % 65536 } }

/-- One word of the preserving march (R248): its read's ECC effect, and the word of a side memory that failed keeps no cleanliness mark. -/
def sweepWord (m : ClMem) (mem word : Nat) (ue : Bool) (bad : Option (Nat × Nat × Nat)) : ClMem :=
  let m := if ue then (eccRead m mem word allGran).1 else m
  if bad.isSome && mem == 1 then { m with sideClean := setDel m.sideClean word } else m

/-- The position of a sweep past one word of `n` (R248, R251): the first failing word stays recorded to the sweep's end, where the march is
noted and the pass counts. -/
def sweepPos (m : ClMem) (mem n pos : Nat) (bad : Option (Nat × Nat × Nat)) : ClMem :=
  let first := (if mem = 1 then m.sweepSide else m.sweepSeq).or bad
  let ended := pos + 1 == n
  let keep := if ended then none else first
  let m := if bad.isSome then { m with lastFail := true, fail := first.getD m.fail } else m
  let m := if mem = 1 then { m with posSide := (pos + 1) % n, sweepSide := keep, passSide := m.passSide || ended }
    else { m with posSeq := (pos + 1) % n, sweepSeq := keep, passSeq := m.passSeq || ended }
  if pos + 1 = n then noteMarch m 1 first else m

/-- PRESERVING_MARCH (R247 to R249, R251): one word of side memory, sequencer memory or hub SRAM (3), in ascending order. A failing word is
written back with poison where the memory has it; the first one of a sweep is recorded. A first read that is uncorrectable leaves the word as
it is. -/
def execPreservingMarch (lc mem word : Nat) (fault : Bool) (s : State) : Res :=
  let c := cluster s lc
  let n := if mem = 1 then 4096 else 8192
  let pos := if mem = 1 then c.mem.posSide else c.mem.posSeq
  if mem = 3 then (if word = s.hub.pos && hubRuns s then .next (hubMarch s word) else .next s)
  else if mem = 0 ∨ 2 < mem ∨ word ≠ pos ∨ n ≤ word ∨ !(arithRuns s) ∨ !(lcEntry s lc).mapped ∨ tablet c.mem mem (word % bankCount mem) ≠ 0 then .next s
  else
    let ue := wordUe c.mem mem word
    let bad : Option (Nat × Nat × Nat) := if fault && !ue then some (mem, word % bankCount mem, word / bankCount mem) else none
    let s := modMem s lc (fun m => sweepPos (sweepWord m mem word ue bad) mem n word bad)
    let s := if ue && mem == 2 && (cluster s lc).inConsist then stopCluster s lc .seqMemory else s
    .next (if fault && !ue then hardFailure s lc else s)

/-! The armed march -/

/-- MARCH_ARM (R250, R423): every 4 h, every cluster, every scratchpad bank. A march that is still armed keeps the time of its arming. A memory that
the preserving march has not passed since the last arming falls due for TRANSPARENT. -/
def execMarchArm (s : State) : Res :=
  if s.boot.phase ≠ .up ∨ !(hubRuns s) then .next s
  else
    let t := s.clk.aon
    .next (((List.range 256).filter (fun lc => (lcEntry s lc).mapped)).foldl (fun s lc => modMem s lc (fun m =>
      { m with armMask := 2 ^ 64 - 1, armedAt := if m.arm then m.armedAt else t, arm := true, dueSide := m.dueSide || !m.passSide,
               dueSeq := m.dueSeq || !m.passSeq, passSide := false, passSeq := false })) s)

/-- 16 h in AON cycles of 20 ns (R250). -/
def overdueCycles : Nat := 2880000000000

/-- MARCH_OVERDUE (R250): the armed march has waited 16 h. The stationmaster runs it when the module is IDLE or LOADED; `march` is the bank
and word within it that fail, if any. -/
def execMarchOverdue (lc : Nat) (march : Option (Nat × Nat)) (s : State) : Res :=
  let m := (cluster s lc).mem
  if !m.arm ∨ s.clk.aon < m.armedAt + overdueCycles ∨ !(lcEntry s lc).mapped ∨ s.boot.phase ≠ .up ∨ !(hubRuns s) then .next s
  else
    let s := if m.overdue then s
      else logEvent (modMem s lc (fun m => { m with overdue := true })) 0x0030 7 0 lc noLink (packFields [(lc, 8)])
    if s.op = .idle ∨ s.op = .loaded then
      let fail := march.map (fun x => (0, x.1, x.2))
      let s := modMem s lc (fun m => { (noteMarch (marchScratch m m.armMask) 0 fail) with arm := false, overdue := false })
      .next (if fail.isSome then hardFailure s lc else s)
    else .next s

/-! Tests on host request -/

/-- Banks of a mask. -/
def maskBanks (mask mem : Nat) : List Nat := (List.range (bankCount mem)).filter (fun b => tbit mask b)

/-- Body fields of BANK_HANDOVER and RUN_MARCH (Table 12-10): LC, bank mask, memory (2 bits) and algorithm (2 bits) (log 15). -/
def bankFields : List (Nat × Nat) := [(0, 8), (8, 64), (72, 4)]

/-- The first body bit of a bank message in error: an unmapped cluster, no memory of that code, a bank that the memory has not. -/
def bankBad (s : State) (m : Msg) : Option Nat :=
  let mem := mb m 72 2
  if !(lcEntry s (mb m 0 8)).mapped then some 0
  else if mem = 3 then some 72
  else if mb m 8 64 = 0 ∨ 2 ^ bankCount mem ≤ mb m 8 64 then some 8
  else none

/-- Does an outstanding RUN_MARCH hold one of these banks (R339)? -/
def marchHolds (s : State) (lc mem : Nat) (bs : List Nat) : Bool :=
  ((outstanding s).map (fun x => x.1)).any (fun x => mOpcode x == 0x41 && mb x 0 8 == lc && mb x 72 2 == mem &&
    (maskBanks (mb x 8 64) mem).any (fun b => bs.contains b))

/-- BANK_HANDOVER (R252): each named tablet passes from ENGINES to MARCH or from MARCH to ENGINES (log 15). -/
def execBankHandover (m : Msg) (s : State) : Res :=
  .next (takeArgs s m 0x0040 [(0, 8), (8, 64), (72, 2)] (fun s =>
    let lc := mb m 0 8
    let mem := mb m 72 2
    let bs := maskBanks (mb m 8 64) mem
    match bankBad s m with
    | some b => badArg s m (inBody b)
    | none =>
      if bs.any (fun b => decide (1 < tablet (cluster s lc).mem mem b)) then badArg s m (inBody 8)
      else if marchHolds s lc mem bs then busy s m 1
      else ok (modMem s lc (fun c => bs.foldl (fun c b => setTab c mem b (1 - tablet c mem b)) c)) m 0 0))

/-- RUN_MARCH (R252), up to ACCEPTED. -/
def execRunMarch (m : Msg) (s : State) : Res :=
  .next (takeArgs s m 0x0041 bankFields (fun s =>
    let lc := mb m 0 8
    let mem := mb m 72 2
    match bankBad s m with
    | some b => badArg s m (inBody b)
    | none =>
      if mb m 74 2 = 3 then badArg s m (inBody 74)
      else if (maskBanks (mb m 8 64) mem).any (fun b => tablet (cluster s lc).mem mem b ≠ 1) then badArg s m (inBody 8)
      else if s.op = .loaded ∧ mem = 2 ∧ mb m 74 2 = 0 then stateRefused s m
      else if marchHolds s lc mem (maskBanks (mb m 8 64) mem) then busy s m 1
      else accept s m 0 (fun s => noteRunning s lc)))

/-- The words of some banks whose stored error no code corrects, in ascending order. -/
def ueWords (m : ClMem) (mem : Nat) (banks : List Nat) : List Nat :=
  ((eccTab m mem).filterMap (fun e => if 2 ≤ e.2 ∧ banks.contains (e.1 / 4 % bankCount mem) then some (e.1 / 4) else none)).eraseDups

/-- The end of RUN_MARCH (R247, R248, R251, R252): MARCH-D leaves the banks clear; the others keep every word that passes. The first read of
MARCH-P counts and records an uncorrectable error and leaves the word (R234). -/
def finishMarch (s : State) (m : Msg) (w : WorkResult) : State :=
  let lc := mb m 0 8
  let mem := mb m 72 2
  let alg := mb m 74 2
  let fail := w.fail.map (fun x => (mem, x.2.1, x.2.2))
  let bs := maskBanks (mb m 8 64) mem
  let ue := if alg = 1 then ueWords (cluster s lc).mem mem bs else []
  let s := modMem s lc (fun c =>
    let c := noteMarch (ue.foldl (fun c y => (eccRead c mem y allGran).1) c) alg fail
    if alg = 0 then bs.foldl (fun c b => clearBank c mem b) c else poisonFailed c alg fail)
  let s := if !ue.isEmpty && mem == 2 && (cluster s lc).inConsist then stopCluster s lc .seqMemory else s
  let st := spMstat { (cluster s lc).mem with marchRun := marchRuns (dropLong s m) lc }
  let s := noteRunning (finish s m stOK 8 st) lc
  if fail.isSome then hardFailure s lc else s

/-! Patrol -/

/-- PATROL_SCRUB_READ (R256): the next granule, when the timetable admits it. -/
def execPatrolScrubRead (stk : Nat) (s : State) : Res :=
  let k := stkOf s stk
  if 12 ≤ stk ∨ k.refresh ∨ k.off ∨ !(memRuns s) ∨ !(setHas s.boot.done 6) then .next s
  else if !(ttAdmits s 0 stk 5) then .next (ttWait s 0 stk 5)
  else
    let s := ttCharge (dramTouch s stk (64 * k.pos) true) 0 stk 5 1
    let now := s.clk.mem
    .next (modStk s stk (fun k =>
      if k.pos + 1 < 2 ^ 31 then { k with pos := k.pos + 1 }
      else { k with pos := 0, passes := satAdd 16 k.passes 1, lastPass := min (2 ^ 17 - 1) ((now - k.passStart) / 1000000000), passStart := now }))

end Sys2Proof.Machine
end

