-- ==== Sys2Proof/Machine/Wake.lean ====
section
/-! DEFINITION. Wake events (R433, R435, R344): what a source does during sleep, during entry to it, and while a wake is in progress. -/

namespace Sys2Proof.Machine

/-- Change the sleep registers. -/
def modSlp (s : State) (f : Sleep → Sleep) : State := { s with slp := f s.slp }

/-- Is the module in one of the sleep states? -/
def asleep (s : State) : Bool := decide (8 ≤ s.op.code)

/-- The sleep state in force or being entered, as 1 to 3. -/
def sleepTarget (s : State) : Option Nat :=
  match s.slp.entering with
  | some e => some e.1
  | none => if asleep s then some (s.op.code - 7) else none

/-- A wake event with its cause and port. During entry it is latched once the point of no return has passed (`early`: also before it, R344);
asleep it starts the wake; a wake in progress ignores it. -/
def wakeEvent (s : State) (cause port : Nat) (early : Bool) : State :=
  if s.slp.entering.isSome then
    if !(s.slp.ponr || early) then s
    else if s.slp.pend then modSlp s (fun p => { p with latchedN := satAdd 16 p.latchedN 1 })
    else modSlp s (fun p => { p with pend := true, cause := cause, port := port, latched := true })
  else if asleep s && !s.slp.waking then modSlp s (fun p => { p with waking := true, cause := cause, port := port, latched := false })
  else s

/-- Bit n of WAKE_CFG. -/
def wakeCfg (s : State) (n : Nat) : Bool := tbit s.slp.cfg n

/-- Turaist activity (R344, R435): wakes from SL1 and SL2 when HOST_EN = 1. -/
def hostActivity (s : State) (early : Bool) : State :=
  if wakeCfg s 6 && (sleepTarget s == some 1 || sleepTarget s == some 2) then wakeEvent s 3 0 early else s

/-- A frame received on a port (R323, R435): wakes from SL1 and SL2 when FAB_EN has the port's bit. -/
def frameActivity (s : State) (p : Nat) : State :=
  if wakeCfg s (7 + p) && (sleepTarget s == some 1 || sleepTarget s == some 2) then wakeEvent s 4 p false else s

/-- The level of a WAKE pin from now on. -/
def setPin (s : State) (pin : Nat) (high : Bool) : State :=
  modSlp s (fun p => { p with pins := p.pins % 2 ^ pin + 2 ^ pin * b2n high + 2 ^ (pin + 1) * (p.pins / 2 ^ (pin + 1)) })

/-- Is a level-mode pin at the level that wakes (R433, R435)? -/
def pinHeld (s : State) (pin : Nat) : Bool := wakeCfg s (3 * pin) && wakeCfg s (3 * pin + 2) && wakeCfg s (3 * pin + 1) == tbit s.slp.pins pin

/-- At the point of no return, an asserted level-mode pin counts as an event that arrives then (R433). -/
def latchPins (s : State) : State := [0, 1].foldl (fun t k => if pinHeld s k then wakeEvent t (k + 1) 0 false else t) s

/-- Does a pin's edge or level wake (R435)? Either mode takes the polarity of POL. -/
def pinWakes (s : State) (pin : Nat) (rising : Bool) : Bool := wakeCfg s (3 * pin) && wakeCfg s (3 * pin + 1) == rising

/-- The AON count at which a pin left its level. -/
def pinEdge (s : State) (pin : Nat) : Option Nat := if pin = 0 then s.slp.edge0 else s.slp.edge1

/-- Set it. -/
def setEdge (s : State) (pin : Nat) (e : Option Nat) : State := modSlp s (fun p => if pin = 0 then { p with edge0 := e } else { p with edge1 := e })

/-- A pin changes: it leaves its level, or comes back to it, which ends a pulse that is too short (R435). -/
def noteEdge (s : State) (pin : Nat) (high : Bool) : State :=
  if tbit s.slp.pins pin = high then setEdge s pin none
  else if (pinEdge s pin).isSome then s else setEdge s pin (some s.clk.aon)

/-- A pin that has stood at its new level for 50 AON cycles has changed (R435). -/
def settlePin (s : State) (pin : Nat) : State :=
  match pinEdge s pin with
  | none => s
  | some t =>
    if s.clk.aon < t + 50 then s
    else
      let high := !(tbit s.slp.pins pin)
      setEdge (setPin (if pinWakes s pin high then wakeEvent s (pin + 1) 0 false else s) pin high) pin none

/-- One AON cycle passes (log 2): the counters advance, the clocks of sections in transition switch, the WAKE pins settle. -/
def tick (s : State) : State :=
  if s.boot.phase = .off then s else settlePin (settlePin (switchClocks { s with clk := countCycle s }) 0) 1

end Sys2Proof.Machine
end

