-- ==== Sys2Proof/Machine/Receive.lean ====
section
/-! DEFINITION. Taking an acknowledged frame of a job at a port (R290, R291): the checks, the duplicate rule, the effect, the ACK. -/

namespace Sys2Proof.Machine

/-! ACK statuses (Table 11-3) -/
def ackACCEPTED : Nat := 0
def ackSTALE : Nat := 1
def ackBUSY : Nat := 2

/-- No answer yet: the effect answers the frame itself once its bytes are stored (R401). -/
def ackLATER : Nat := 4

/-- Do the ports take and send frames of jobs now: the module is up, and not in SL2, where the ports only receive, or SL3 (Table 15-10), or in
the scrub (R322)? -/
def portsServe (s : State) : Bool := s.boot.phase == .up && s.op != .boot && s.op != .sl2 && s.op != .sl3 && s.op != .scrubbing

/-- A received frame, of whatever kind, reaches a sleeping module (R323): with the port's FAB_EN it wakes the module and is taken as the ports
serve; without it it is discarded. -/
def frameMay (s : State) (p : Nat) : Bool := !(asleep s) || wakeCfg s (7 + p)

/-- Receive a frame of one type of a job. `act` gives the ACK status and the state after its effect; a frame answered BUSY is not taken, as
is one of no job of this module (R291, log 18). A frame of another type is another row's. -/
def receiveJob (s : State) (p : Nat) (f : Frame) (type : Nat) (act : Nat → Hdr → List Byte → State → Nat × State) : State :=
  let h := hdrOf f
  if 8 ≤ p ∨ (h.type ≠ type ∧ !(foreign s p f)) then s
  else
    let s := frameActivity s p
    if !(portsServe s) || !(frameMay s p) then s
    else match acceptFrame s p f with
      | (none, s) => s
      | (some pl, s) => match jobSlot s h.job with
        | none => sendAck s p f ackBUSY
        | some j =>
          let k := rxSpace p j h
          match takenStatus s k h.seq with
          | some st => flushEvents (sendAck s p f st)
          | none =>
            let r := act j h pl s
            if r.1 = ackLATER then flushEvents r.2
            else flushEvents (sendAck (if r.1 = ackBUSY then r.2 else noteTaken r.2 k h.seq r.1) p f r.1)

end Sys2Proof.Machine
end

