-- ==== Sys2Proof/Machine/CheckValues.lean ====
section
/-! DEFINITION. The check-value units of the hub (R410 to R412): a write of each register takes effect at once, in arrival order, so no write is
queued between steps. -/

namespace Sys2Proof.Machine

/-- Change a unit. -/
def modCv (s : State) (u : Nat) (f : CvUnit → CvUnit) : State := { s with cv := spMod .reset s.cv u f }

/-- A write of CV_CFG (Table 14-6): ignored with WIDTH_M1 below 7; START copies CV_INIT into CV_VALUE and clears BYTES. -/
def cvSetCfg (x : Nat) (k : CvUnit) : CvUnit :=
  if natBits x 0 6 < 7 then k
  else
    let k := { k with widthM1 := natBits x 0 6, refin := natBits x 6 1 == 1, refout := natBits x 7 1 == 1, finv := natBits x 8 1 == 1 }
    if natBits x 9 1 = 1 then { k with value := k.init, fed := 0 } else k

/-- A write of CV_POLY: ignored with a bit at or above w. -/
def cvSetPoly (x : Nat) (k : CvUnit) : CvUnit := if 2 ^ (k.widthM1 + 1) ≤ x then k else { k with poly := x }

/-- Bytes enter a unit (R410, R411): a feed of 1, 2, 4 or 8 bytes, low byte first. -/
def cvFeedBytes (l : List Byte) (k : CvUnit) : CvUnit :=
  if l.length = 1 ∨ l.length = 2 ∨ l.length = 4 ∨ l.length = 8 then
    { k with value := crcFeed (cvCfg k) k.value l, fed := (k.fed + l.length) % 2 ^ 48 }
  else k

/-- May firmware write a unit now? -/
def cvMay (s : State) (u : Nat) : Bool := decide (u < 8) && hubRuns s

/-- CV_START (R411). -/
def execCvStart (u : Nat) (cfg : Word64) (s : State) : Res :=
  if cvMay s u then .next (modCv s u (cvSetCfg cfg.toNat)) else .next s

/-- CV_FEED (R410, R412). -/
def execCvFeed (u : Nat) (bytes : List Byte) (s : State) : Res :=
  if cvMay s u then .next (modCv s u (cvFeedBytes bytes)) else .next s

/-- CV_VALUE_WRITE (R412). -/
def execCvValueWrite (u : Nat) (value : Word64) (s : State) : Res :=
  if cvMay s u then .next (modCv s u (fun k => { k with value := value.toNat })) else .next s

end Sys2Proof.Machine
end

