-- ==== Sys2Proof/Machine/Adder.lean ====
section
/-! DEFINITION. Port adder sums (R301, R306 to R311): the unit of a chunk as bytes in the sum format, the contribution of this member, the
sum of two units, and the unit in the result format. -/

namespace Sys2Proof.Machine

/-! Geometry of a flow (11, "The order of every sum") -/

/-- Is the flow sparse? -/
def Flow.sparse (f : Flow) : Bool := f.kind == 1

/-- Elements of a unit. -/
def Flow.unit (f : Flow) : Nat := if f.sparse then 4096 else if f.sfmt = FP32 then 2048 else if f.sfmt = BF16 then 4096 else 8192

/-- Elements of a full chunk. -/
def Flow.chunkLen (f : Flow) : Nat := f.unit * (f.cpiecesM1 + 1)

/-- Chunks of the flow. -/
def Flow.chunkCount (f : Flow) : Nat := ceilDiv f.n f.chunkLen

/-- First element of chunk c. -/
def Flow.chunkLo (f : Flow) (c : Nat) : Nat := c * f.chunkLen

/-- Elements of chunk c. -/
def Flow.chunkN (f : Flow) (c : Nat) : Nat := min f.chunkLen (f.n - f.chunkLo c)

/-- Units of chunk c. -/
def Flow.units (f : Flow) (c : Nat) : Nat := ceilDiv (f.chunkN c) f.unit

/-- Elements of unit u of chunk c. -/
def Flow.unitN (f : Flow) (c u : Nat) : Nat := min f.unit (f.chunkN c - u * f.unit)

/-- Stride of a top-k result (Table 11-8). -/
def Flow.q (f : Flow) : Nat := roundUp (8 + 8 * f.ksel) 64

/-- Bytes of n elements of a format, element bytes only. -/
def fmtBytes (fmt n : Nat) : Nat := n * fmtBits fmt / 8

/-- Size of one parity of RESULT, and its stride (Table 11-8). -/
def Flow.resultSize (f : Flow) : Nat := fmtBytes f.rfmt f.n + (if isBs8 f.rfmt then f.n / 32 else 0)
def Flow.resultStride (f : Flow) : Nat := roundUp f.resultSize 4096

/-- Parity of the current round. -/
def Flow.parity (f : Flow) : Nat := f.round % 2

/-! Codes -/

/-- Element i of plain little-endian elements of a format. -/
def codeAt (fmt : Nat) (l : List Byte) (i : Nat) : Nat := byteField l (i * (fmtBits fmt / 8)) (fmtBits fmt / 8)

/-- A value rounded RNE into a plain float format, as bytes. -/
def plainBytes (fmt : Nat) (v : FVal) : List Byte := leBytes (fmtBits fmt / 8) (encodeElem fmt .rne false v).code

/-! BS8 units: element bytes, scale bytes, bump bitmap (R301) -/

/-- A block of a BS8 unit: scale, bump bit, 32 element bytes. -/
structure BsBlock where
  scale : Nat
  bump : Bool
  els : List Nat
  deriving DecidableEq, Repr

/-- Block b of a unit of n elements. -/
def bsBlock (n : Nat) (l : List Byte) (b : Nat) : BsBlock :=
  ⟨byteField l (n + b) 1, natBits (byteField l (n + n / 32) (n / 256)) b 1 == 1, (List.range 32).map (fun i => byteField l (32 * b + i) 1)⟩

/-- The blocks of a unit. -/
def bsBlocks (n : Nat) (l : List Byte) : List BsBlock := (List.range (n / 32)).map (bsBlock n l)

/-- A unit from its blocks. -/
def bsUnit (bs : List BsBlock) : List Byte :=
  bs.flatMap (fun b => b.els.map (BitVec.ofNat 8)) ++ bs.map (fun b => BitVec.ofNat 8 b.scale) ++
  leBytes (bs.length / 8) (packFields (bs.map (fun b => (b2n b.bump, 1))))

/-- The values of a block. -/
def bsValues (fmt : Nat) (b : BsBlock) : List FVal := b.els.map (decodeBs8 fmt b.scale)

/-- Does a value lie outside the element's range at shared exponent X, once rounded (R307)? 464 and 61,440 are the first values that round
past the largest finite magnitudes of E4M3 and E5M2: a tie goes to the even significand. -/
def bsOverflows (fmt : Nat) (X : Nat) (v : FVal) : Bool :=
  match v with
  | .fin n m e =>
    let e := e + 127 - (X : Int)
    if fmt = BS8I then
      let r := fvToInt .rne n m (e + 6)
      decide (r < -128) || decide (127 < r)
    else if fmt = BS8E4 then fvLt (fvInt 464) (.fin false m e)
    else !(fvLt (.fin false m e) (fvInt 61440))
  | _ => false

/-- The exponent under which a block's sums are encoded (R307): the partial's, else the smallest above it at which none overflows, at most 254. -/
def bsExponent (fmt X : Nat) (vs : List FVal) : Nat :=
  if vs.any (bsOverflows fmt X) then
    ((rangeFrom (X + 1) (254 - X)).find? (fun x => !(vs.any (bsOverflows fmt x)))).getD 254
  else X

/-- One block of the sum (R307): the partial `a`, the addend `b`. A NaN block stays NaN. -/
def bsAdd (fmt : Nat) (a b : BsBlock) : BsBlock :=
  let vs := List.zipWith (fvAdd .rne) (bsValues fmt a) (bsValues fmt b)
  if vs.any (fun v => !(fvFinite v)) then ⟨255, a.bump || b.bump, a.els.map (fun _ => 0)⟩
  else
    let X := bsExponent fmt a.scale vs
    ⟨X, a.bump || b.bump || decide (a.scale < X), vs.map (bsElem fmt .rne X)⟩

/-! Sparse blocks (Table 11-8b) -/

/-- A block: its index, and its values dense, or its entries (index, BF16 value) by index. -/
structure SpBlock where
  block : Nat
  dense : Bool
  ents : List (Nat × Nat)
  deriving DecidableEq, Repr

/-- The bytes of a block. A dense block lists all 4,096 values. -/
def SpBlock.bytes (b : SpBlock) : List Byte :=
  let hdr (n : Nat) (d : Bool) : List Byte := leBytes 4 (packFields [(n, 13), (b2n d, 1), (b.block, 12)])
  if b.dense then hdr 0 true ++ b.ents.flatMap (fun e => leBytes 2 e.2)
  else hdr b.ents.length false ++ b.ents.flatMap (fun e => leBytes 4 (packFields [(e.2, 16), (e.1, 12)]))

/-- Bytes of the block that begins a list. -/
def spBlockLen (l : List Byte) : Nat :=
  let h := byteField l 0 4
  if natBits h 13 1 = 1 then 4 + 8192 else 4 + 4 * natBits h 0 13

/-- The block that begins a list. -/
def spBlockOf (l : List Byte) : SpBlock :=
  let h := byteField l 0 4
  if natBits h 13 1 = 1 then ⟨natBits h 14 12, true, (List.range 4096).map (fun i => (i, byteField l (4 + 2 * i) 2))⟩
  else ⟨natBits h 14 12, false, (List.range (natBits h 0 13)).map (fun i =>
    let e := byteField l (4 + 4 * i) 4
    (natBits e 16 12, natBits e 0 16))⟩

/-- BF16 sum, rounded once RNE (R310). -/
def bf16Add (a b : Nat) : Nat := (fround fmtBF16 .rne false (fvAdd .rne (fdecode fmtBF16 a) (fdecode fmtBF16 b))).code

/-- Entries merged by index (R310); `n` bounds the recursion. -/
def mergeEnts : Nat → List (Nat × Nat) → List (Nat × Nat) → List (Nat × Nat)
  | 0, a, b => a ++ b
  | _, [], b => b
  | _, a, [] => a
  | n + 1, x :: a, y :: b =>
    if x.1 < y.1 then x :: mergeEnts n a (y :: b)
    else if y.1 < x.1 then y :: mergeEnts n (x :: a) b
    else (x.1, bf16Add x.2 y.2) :: mergeEnts n a b

/-- All 4,096 entries of a block: +0 where it names none. -/
def SpBlock.full (b : SpBlock) : List (Nat × Nat) :=
  (List.range 4096).map (fun i => (i, ((b.ents.find? (fun e => e.1 == i)).map (fun e => e.2)).getD 0))

/-- The sum of a partial block and a local block (R310). -/
def spAdd (denseAt : Nat) (a b : SpBlock) : SpBlock :=
  let m := mergeEnts (a.ents.length + b.ents.length) a.ents b.ents
  let c : SpBlock := ⟨a.block, a.dense || b.dense, m⟩
  if c.dense || decide (denseAt < m.length) then ⟨a.block, true, c.full⟩ else c

/-- Sort by index, stable. -/
def insertEnt (x : Nat × Nat) : List (Nat × Nat) → List (Nat × Nat)
  | [] => [x]
  | y :: r => if x.1 < y.1 then x :: y :: r else y :: insertEnt x r

/-- The block of a top-k result (R309, Tables 4-3 and 4-4): valid entries, VALUE rounded RNE to BF16, sorted by index. -/
def topkBlock (k : Nat) (l : List Byte) (block : Nat) : SpBlock :=
  let es := (List.range k).filterMap (fun j =>
    let x := byteField l (8 + 8 * j) 8
    if natBits x 63 1 = 1 then some (natBits x 32 12, (fround fmtBF16 .rne false (fdecode fmtFP32 (natBits x 0 32))).code) else none)
  ⟨block, false, es.foldr insertEnt []⟩

/-! Units -/

/-- Bytes of a dense unit of n elements on the wire. -/
def Flow.unitBytes (f : Flow) (n : Nat) : Nat := if isBs8 f.sfmt then n + n / 32 + n / 256 else fmtBytes f.sfmt n

/-- The value of element e of a chunk's contribution, from its bytes of SRC and SRC2 (R306). -/
def contribVal (f : Flow) (src src2 : List Byte) (e : Nat) : FVal :=
  if isBs8 f.cfmt then decodeBs8 f.cfmt (byteField src2 (e / 32) 1) (byteField src e 1) else decodeElem f.cfmt (codeAt f.cfmt src e)

/-- Unit u of this member's contribution, in the sum format (R300, R307, R309). -/
def ownUnit (f : Flow) (src src2 : List Byte) (c u : Nat) : List Byte :=
  let lo := u * f.unit
  let n := f.unitN c u
  if f.sparse then (topkBlock f.ksel (src.drop (u * f.q)) u).bytes
  else if isBs8 f.sfmt then (src.drop lo).take n ++ (src2.drop (lo / 32)).take (n / 32) ++ List.replicate (n / 256) 0
  else if f.cfmt = f.sfmt then (src.drop (fmtBytes f.cfmt lo)).take (fmtBytes f.cfmt n)
  else (rangeFrom lo n).flatMap (fun e => plainBytes f.sfmt (contribVal f src src2 e))

/-- A unit that holds no contribution (R312 at the starter): every element +0. A BS8 block whose values are all zero has the shared exponent
0x00 (R46). -/
def zeroUnit (f : Flow) (c u : Nat) : List Byte :=
  let n := f.unitN c u
  if f.sparse then (⟨u, false, []⟩ : SpBlock).bytes
  else if isBs8 f.sfmt then zeros (n + n / 32 + n / 256)
  else zeros (fmtBytes f.sfmt n)

/-- The sum of a partial unit and an addend, both in the sum format (R306, R307, R310). -/
def addUnit (f : Flow) (n : Nat) (a b : List Byte) : List Byte :=
  if f.sparse then (spAdd f.denseAt (spBlockOf a) (spBlockOf b)).bytes
  else if isBs8 f.sfmt then bsUnit (List.zipWith (bsAdd f.sfmt) (bsBlocks n a) (bsBlocks n b))
  else (List.range n).flatMap (fun i => plainBytes f.sfmt (fvAdd .rne (decodeElem f.sfmt (codeAt f.sfmt a i)) (decodeElem f.sfmt (codeAt f.sfmt b i))))

/-- Block exponent rises that a sum made (R307). -/
def risesIn (f : Flow) (n : Nat) (a b : List Byte) : Nat :=
  if f.sparse ∨ !(isBs8 f.sfmt) then 0
  else (List.zipWith (fun x y => (x, bsAdd f.sfmt x y)) (bsBlocks n a) (bsBlocks n b)).countP (fun p =>
    p.2.scale ≠ 255 && decide (p.1.scale < p.2.scale))

/-- δ of R308 for a block written at exponent X, in units of 2^-134. -/
def bsDelta (fmt X : Nat) : Nat := 2 ^ (X + (if fmt = BS8I then 0 else if fmt = BS8E4 then 11 else 19))

/-- Does a sum of two units saturate a block: it still overflows at 254 (R307)? -/
def satIn (f : Flow) (n : Nat) (a b : List Byte) : Bool :=
  !f.sparse && isBs8 f.sfmt && (List.zipWith (fun x y => (x, y)) (bsBlocks n a) (bsBlocks n b)).any (fun p =>
    let vs := List.zipWith (fvAdd .rne) (bsValues f.sfmt p.1) (bsValues f.sfmt p.2)
    vs.all fvFinite && vs.any (bsOverflows f.sfmt 254))

/-- The sum of a partial unit and an addend with its accounts (R308): each block's account grows by δ at the exponent written. A block that
stays NaN writes no exponent and adds nothing (log 19). -/
def addUnitSt (f : Flow) (n : Nat) (a b : UnitSt) : UnitSt :=
  let l := addUnit f n a.data b.data
  let acct := if f.sparse ∨ !(isBs8 f.sfmt) then [] else
    (List.range (n / 32)).map (fun i =>
      let X := (bsBlock n l i).scale
      listGet 0 a.acct i + listGet 0 b.acct i + (if X = 255 then 0 else bsDelta f.sfmt X))
  ⟨l, acct, a.sat || b.sat || satIn f n a.data b.data⟩

/-- The final unit in the result format (R306, R311): element bytes, and scale bytes of a result kept as BS8. -/
def resultUnit (f : Flow) (n : Nat) (l : List Byte) : List Byte × List Byte :=
  if f.sparse then ((spBlockOf l).full.flatMap (fun e => plainBytes f.rfmt (fdecode fmtBF16 e.2)), [])
  else if isBs8 f.sfmt then
    if isBs8 f.rfmt then (l.take n, (l.drop n).take (n / 32))
    else ((bsBlocks n l).flatMap (fun b => (bsValues f.sfmt b).flatMap (plainBytes f.rfmt)), [])
  else if f.sfmt = f.rfmt then (l, [])
  else ((List.range n).flatMap (fun i => plainBytes f.rfmt (decodeElem f.sfmt (codeAt f.sfmt l i))), [])

/-- Does a final unit hold a non-finite element or a NaN block (Table 11-8a)? -/
def unitNonfinite (f : Flow) (n : Nat) (l : List Byte) : Bool :=
  if f.sparse then (spBlockOf l).ents.any (fun e => !(fvFinite (fdecode fmtBF16 e.2)))
  else if isBs8 f.sfmt then (bsBlocks n l).any (fun b => b.scale == 255 || (bsValues f.sfmt b).any (fun v => !(fvFinite v)))
  else (List.range n).any (fun i => !(fvFinite (decodeElem f.sfmt (codeAt f.sfmt l i))))

end Sys2Proof.Machine
end

