-- ==== Sys2Proof/Machine/Reduce.lean ====
section
/-! DEFINITION. Gradient reduction (R297 to R317, R360): the order of every sum, chains of pieces, contributions, results, headers, residuals. -/

namespace Sys2Proof.Machine

/-! The parts of State that a flow uses -/

/-- Flow context ctx of port p. -/
def flowOf (s : State) (p ctx : Nat) : Flow := spGet .reset s.fab.flows (p * 32768 + ctx)

/-- Change a flow context. -/
def modFlow (s : State) (p ctx : Nat) (f : Flow → Flow) : State :=
  { s with fab := { s.fab with flows := spMod .reset s.fab.flows (p * 32768 + ctx) f } }

/-- Status fields of a flow context. -/
def fstatOf (s : State) (p ctx : Nat) : FlowStat := spGet .reset s.fab.fstat (p * 32768 + ctx)

/-- Change status fields. -/
def modFstat (s : State) (p ctx : Nat) (f : FlowStat → FlowStat) : State :=
  { s with fab := { s.fab with fstat := spMod .reset s.fab.fstat (p * 32768 + ctx) f } }

/-- Does a chunk-stage belong to (p, ctx, c, st)? -/
def stageAt (p ctx c st : Nat) (x : StageSt) : Bool := x.port == p && x.ctx == ctx && x.chunk == c && x.stage == st

/-- A chunk-stage; one that nothing has reached yet is empty. -/
def stageOf (s : State) (p ctx c st : Nat) : StageSt :=
  (s.fab.stages.find? (stageAt p ctx c st)).getD ⟨p, ctx, c, st, none, [], 0, 0, 0, 0, 0, 0, [], [], 0, 0, [], 0, false⟩

/-- Change a chunk-stage. -/
def modStage (s : State) (p ctx c st : Nat) (f : StageSt → StageSt) : State :=
  { s with fab := { s.fab with stages := s.fab.stages.filter (fun x => !(stageAt p ctx c st x)) ++ [f (stageOf s p ctx c st)] } }

/-- This member's contribution to a chunk, once it has been read. -/
def ownOf (s : State) (p ctx c : Nat) : Option OwnSt := s.fab.owns.find? (fun o => o.port == p && o.ctx == ctx && o.chunk == c)

/-- Keep a contribution. -/
def putOwn (s : State) (o : OwnSt) : State :=
  { s with fab := { s.fab with
      owns := s.fab.owns.filter (fun x => !(x.port == o.port && x.ctx == o.ctx && x.chunk == o.chunk)) ++ [o] } }

/-- The result of a chunk. -/
def resultOf (s : State) (p ctx c : Nat) : ResSt :=
  (s.fab.results.find? (fun r => r.port == p && r.ctx == ctx && r.chunk == c)).getD
    ⟨p, ctx, c, 0, 0, 0, 0, 0, false, false, false, 0, 0, false⟩

/-- Keep a result. -/
def putResult (s : State) (r : ResSt) : State :=
  { s with fab := { s.fab with
      results := s.fab.results.filter (fun x => !(x.port == r.port && x.ctx == r.ctx && x.chunk == r.chunk)) ++ [r] } }

/-- Forget everything of the current round of a context. -/
def clearRound (s : State) (p ctx : Nat) : State :=
  { s with fab := { s.fab with
      stages := s.fab.stages.filter (fun x => !(x.port == p && x.ctx == ctx))
      owns := s.fab.owns.filter (fun x => !(x.port == p && x.ctx == ctx))
      results := s.fab.results.filter (fun x => !(x.port == p && x.ctx == ctx)) } }

/-! Order (R300 to R304). A position in the order of a stage is counted from 1. -/

/-- Is the member at a position of this module's ring group absent? -/
def posAbsent (s : State) (k pos : Nat) : Bool := memberAbsent s k ((jobOf s k).gidx * (jobOf s k).p + pos)

/-- This member's place in the ring-reduce order of chunk c (R300). -/
def ringNum (j : Job) (c : Nat) : Nat := (j.pos + (j.p - 1 - c % j.p)) % j.p + 1

/-- The position at place n of that order. -/
def ringPos (j : Job) (c n : Nat) : Nat := (c % j.p + n) % j.p

/-- The next place after n whose member is not absent (R302). -/
def nextRing (s : State) (k c n : Nat) : Option Nat :=
  let j := jobOf s k
  (rangeFrom (n + 1) (j.p - n)).find? (fun m => !(posAbsent s k (ringPos j c m)))

/-- Are all members before this one absent, so that it starts the chunk (R300, R313)? -/
def ringFirst (s : State) (k c : Nat) : Bool :=
  let j := jobOf s k
  (rangeFrom 1 (ringNum j c - 1)).all (fun m => posAbsent s k (ringPos j c m))

/-- Group k of chunk c (R303). -/
def crossBase (j : Job) (c : Nat) : Nat := c / j.p % j.g

/-- This group's place in the cross-reduce order. -/
def crossNum (j : Job) (c : Nat) : Nat := (j.gidx + (j.g - 1 - crossBase j c)) % j.g + 1

/-- The group at place n of that order. -/
def crossGroup (j : Job) (c n : Nat) : Nat := (crossBase j c + n) % j.g

/-- The member that takes a frame for a group (R303): MAC_P, else MAC_PM1, else none. -/
def crossAgent (s : State) (k g : Nat) : Option Nat :=
  let j := jobOf s k
  let x := crossEnt s k g
  let at_ (d : Nat) : Nat := g * j.p + (j.pos + j.p - d % j.p) % j.p
  [at_ x.dP, at_ x.dPM1].find? (fun m => !(memberAbsent s k m))

/-- The next place after n whose group has an agent. -/
def nextCross (s : State) (k c n : Nat) : Option Nat :=
  let j := jobOf s k
  (rangeFrom (n + 1) (j.g - n)).find? (fun m => (crossAgent s k (crossGroup j c m)).isSome)

/-- Has every group before this one no agent, so that this one starts the cross-reduce stage? -/
def crossFirst (s : State) (k c : Nat) : Bool :=
  let j := jobOf s k
  (rangeFrom 1 (crossNum j c - 1)).all (fun m => (crossAgent s k (crossGroup j c m)).isNone)

/-- The member after place n of a stage at distance: the place and the member that the next frame goes to. In the gather stages places
are counted from the origin, and `from_` is the position or group that stands at place n. -/
def nextHop (s : State) (k stage c n from_ : Nat) : Option (Nat × Nat) :=
  let j := jobOf s k
  match stage with
  | 0 => (nextRing s k c n).map (fun m => (m, j.gidx * j.p + ringPos j c m))
  | 1 => (nextCross s k c n).bind (fun m => (crossAgent s k (crossGroup j c m)).map (fun x => (m, x)))
  | 2 => (rangeFrom (n + 1) (j.g - n)).findSome? (fun m => (crossAgent s k ((from_ + (m - n)) % j.g)).map (fun x => (m, x)))
  | _ => (rangeFrom (n + 1) (j.p - n)).findSome? (fun m =>
      let pos := (from_ + (m - n)) % j.p
      if posAbsent s k pos then none else some (m, j.gidx * j.p + pos))

/-! Chains of pieces (R301, R309, R360) -/

/-- The chain record (R301). -/
def chainRecord (members groups : Nat) : List Byte := leBytes 64 members ++ leBytes 8 groups

/-- The most bytes that a frame's payload holds. -/
def pieceCap : Nat := 8552

/-- A piece that the adders have formed waits to leave the port (R360). -/
def formPiece (s : State) (p : Nat) (x : Piece) : State :=
  modPort s p (fun q => { q with formed := q.formed ++ [⟨x, s.clk.aon, false⟩] })

/-- Where a chain of this member goes and what its headers, record and notes say. -/
structure Chain where
  stage : Nat
  midx : Nat
  hops : Nat
  contrib : Nat
  members : Nat
  groups : Nat
  holder : Nat
  incl : Sparse Nat
  deriving DecidableEq, Repr

/-- The member bitmap of a chain's record: of the ring group that the frame goes to, all zeros while that group's bit is 0 (R301, R315). -/
def Chain.bitmap (t : Chain) (j : Job) : Nat :=
  if t.stage = 1 ∨ t.stage = 2 then
    let g := t.midx / j.p
    if tbit t.groups g then spGet 0 t.incl g else 0
  else t.members

/-- Form the next piece of a chain. -/
def formNext (s : State) (p ctx c : Nat) (t : Chain) (u : UnitSt) : State :=
  let x := stageOf s p ctx c t.stage
  let f := flowOf s p ctx
  let body := if x.outN = 0 then chainRecord (t.bitmap (jobOf s f.jslot)) t.groups ++ u.data else u.data
  let s := formPiece s p ⟨f.jslot, t.midx, ctx, f.round, t.stage, c, x.outN, t.hops, t.contrib, body, ⟨u.acct, u.sat, t.holder, t.incl⟩⟩
  modStage s p ctx c t.stage (fun x => { x with out := [], outN := x.outN + 1 })

/-- Send unit u of a chunk along a chain: a dense unit is a piece; blocks fill a frame as far as they fit (R309). -/
def emitUnit (s : State) (p ctx c : Nat) (t : Chain) (last : Bool) (unit : UnitSt) : State :=
  let x := stageOf s p ctx c t.stage
  if x.dropped then s
  else if !(flowOf s p ctx).sparse then formNext s p ctx c t unit
  else
    let room := pieceCap - (if x.outN = 0 then 72 else 0)
    let s := if !x.out.isEmpty && decide (room < x.out.length + unit.data.length) then formNext s p ctx c t ⟨x.out, [], false⟩ else s
    let s := modStage s p ctx c t.stage (fun x => { x with out := x.out ++ unit.data })
    if last then formNext s p ctx c t ⟨(stageOf s p ctx c t.stage).out, [], false⟩ else s

/-- The units in a piece's body. `n` bounds the blocks of a sparse one. -/
def blocksN : Nat → List Byte → List (List Byte)
  | 0, _ => []
  | n + 1, l => if l.length < 4 then [] else l.take (spBlockLen l) :: blocksN n (l.drop (spBlockLen l))

/-- The units in a piece's body, with what the chain knows of them. -/
def pieceUnits (f : Flow) (n : PieceNote) (l : List Byte) : List UnitSt :=
  if f.sparse then (blocksN (l.length / 4) l).map (fun b => ⟨b, [], false⟩) else [⟨l, n.acct, n.sat⟩]

/-- Take up the staged pieces of a chunk-stage that come next, in order. The chain record stands before PIECE 0. `n` bounds the recursion. -/
def takeUpN (f : Flow) : Nat → StageSt → StageSt
  | 0, x => x
  | n + 1, x =>
    match x.staged.find? (fun e => e.1 == x.nextIn) with
    | none => x
    | some e =>
      let l := e.2.1
      let x := { x with staged := spDel x.staged x.nextIn, nextIn := x.nextIn + 1, holder := e.2.2.holder, incl := e.2.2.incl }
      if e.1 = 0 then
        takeUpN f n { x with members := byteField l 0 64, groups := byteField l 64 8, queue := x.queue ++ pieceUnits f e.2.2 (l.drop 72) }
      else takeUpN f n { x with queue := x.queue ++ pieceUnits f e.2.2 l }

/-- Take up the staged pieces of every stage of a chunk. -/
def takeUp (s : State) (p ctx c : Nat) : State :=
  { s with fab := { s.fab with stages := s.fab.stages.map (fun x =>
      if x.port == p && x.ctx == ctx && x.chunk == c then takeUpN (flowOf s p ctx) x.staged.length x else x) } }

/-! Contributions (R312, R314) -/

/-- Where a chunk's contribution lies: address and length in SRC, and in SRC2 where the flow reads one (Table 11-8). -/
def srcRange (f : Flow) (c : Nat) : Nat × Nat :=
  if f.sparse then (f.src + f.chunkLo c / 4096 * f.q, f.units c * f.q) else (f.src + fmtBytes f.cfmt (f.chunkLo c), fmtBytes f.cfmt (f.chunkN c))
def src2Range (f : Flow) (c : Nat) : Nat × Nat :=
  if f.sparse then (f.src2 + 4 * f.chunkLo c, 4 * f.chunkN c)
  else if isBs8 f.cfmt then (f.src2 + f.chunkLo c / 32, f.chunkN c / 32)
  else (f.src2, 0)

/-- Read a range granule by granule: the bytes, and the granules that read poisoned. -/
def readGranules (s : State) (p a n : Nat) : (List Byte × List Nat) × State :=
  (pieces a n).foldl (fun r g =>
    let x := unitRead r.2 g.1 g.2
    ((r.1.1 ++ x.1.data, if x.1.poison then r.1.2 ++ [g.1 / 64 * 64] else r.1.2), x.2)) (([], []), chargeDev s (p / 2) 3 a n false)

/-- Read a chunk's contribution (R297, R312). -/
def readOwn (s : State) (p ctx c : Nat) : State :=
  let f := flowOf s p ctx
  let a := readGranules s p (srcRange f c).1 (srcRange f c).2
  let b := readGranules a.2 p (src2Range f c).1 (src2Range f c).2
  putOwn b.2 ⟨p, ctx, c, a.1.1, b.1.1, a.1.2 ++ b.1.2, false, false⟩

/-- Put bytes into a list at an offset. -/
def patchBytes (l : List Byte) (off : Nat) (new : List Byte) : List Byte := l.take off ++ new ++ l.drop (off + new.length)

/-- Read the poisoned granules of a range again: the bytes with the clean ones put in, and the granules still poisoned. -/
def rereadRange (s : State) (p a n : Nat) (l : List Byte) (bad : List Nat) : (List Byte × List Nat) × State :=
  ((pieces a n).filter (fun g => bad.contains (g.1 / 64 * 64))).foldl (fun r g =>
    let x := unitRead (chargeDev r.2 (p / 2) 3 g.1 g.2 false) g.1 g.2
    (if x.1.poison then (r.1.1, r.1.2 ++ [g.1 / 64 * 64]) else (patchBytes r.1.1 (g.1 - a) x.1.data, r.1.2), x.2)) ((l, []), s)

/-- Is a contribution ready (R312)? -/
def ownReady (s : State) (p ctx c : Nat) : Bool :=
  (flowOf s p ctx).fopen && (ownOf s p ctx c).any (fun o => o.bad.isEmpty && !o.skipped)

/-- Does a poisoned granule hold a source of element e of the chunk (R314)? A top-k result is a source of every element of its block. -/
def elemBad (f : Flow) (c : Nat) (bad : List Nat) (e : Nat) : Bool :=
  let hit (a n : Nat) : Bool := (unitsOf 64 a n).any (fun u => bad.contains (64 * u))
  if f.sparse then hit ((src2Range f c).1 + 4 * e) 4 || hit ((srcRange f c).1 + e / 4096 * f.q) f.q
  else hit ((srcRange f c).1 + fmtBytes f.cfmt e) (fmtBits f.cfmt / 8) || (isBs8 f.cfmt && hit ((src2Range f c).1 + e / 32) 1)

/-! Residuals (R317) -/

/-- Entries sent for the block of element e. -/
def sentValue (f : Flow) (o : OwnSt) (e : Nat) : Option Nat :=
  ((topkBlock f.ksel (o.src.drop (e / 4096 * f.q)) 0).ents.find? (fun x => x.1 == e % 4096)).map (fun x => x.2)

/-- The residual of element e of a chunk. -/
def residual (f : Flow) (o : OwnSt) (included : Bool) (e : Nat) : FVal :=
  if !included && o.skipped && elemBad f o.chunk o.bad e then fvZero
  else if !f.sparse then (if included then fvZero else contribVal f o.src o.src2 e)
  else
    let v := fdecode fmtFP32 (byteField o.src2 (4 * e) 4)
    match included, sentValue f o e with
    | true, some x => fvSub .rne v (fdecode fmtBF16 x)
    | _, _ => v

/-- Write the residual of a chunk once its result is written and its source is known. -/
def tryResid (s : State) (p ctx c : Nat) : State :=
  let f := flowOf s p ctx
  let r := resultOf s p ctx c
  match ownOf s p ctx c with
  | none => s
  | some o =>
    if !(r.written && f.valid && f.fopen && f.residEn && !o.resid && (o.bad.isEmpty || o.skipped)) then s
    else
      let j := jobOf s f.jslot
      let included := tbit r.groups j.gidx && tbit r.members j.pos
      let a := f.resid + f.parity * residSize f.n + 4 * f.chunkLo c
      let l := (List.range (f.chunkN c)).flatMap (fun e => plainBytes FP32 (residual f o included e))
      putOwn (devWrite (chargeDev s (p / 2) 3 a l.length true) a l false 0) { o with resid := true }

/-! Results (R311, R315, R316) -/

/-- ERR_BOUND (R308): the largest account of any block, as FP32 rounded toward +∞. -/
def errBound (r : ResSt) : Nat := if r.err = 0 then 0 else (toF32 .rup (.fin false r.err (-134))).toNat

/-- The 64 bytes of a result header (Table 11-8a). -/
def resultHeader (f : Flow) (j : Job) (c : Nat) (r : ResSt) : List Byte :=
  let self := tbit r.groups j.gidx && tbit r.members j.pos
  let l := leBytes 60 (packFields [(1, 1), (b2n f.sparse, 1), (b2n r.densified, 1), (b2n r.nonfinite, 1), (b2n r.sat, 1), (b2n self, 1), (0, 10),
    (r.contrib, 16), (f.round, 32), (c, 24), (min 65535 r.bumps, 16), (0, 24), (errBound r, 32), (f.chunkN c, 26), (0, 6), (r.holder, 16), (j.job, 16)])
  l ++ leBytes 4 (crc32c l)

/-- Write the header of a chunk whose data are written; the chunk is complete locally (R298, R315, R316). -/
def closeChunk (s : State) (p ctx c : Nat) : State :=
  let f := flowOf s p ctx
  let j := jobOf s f.jslot
  let r := resultOf s p ctx c
  let a := f.hdr + 64 * (2 * c + f.parity)
  let l := resultHeader f j c r
  let s := devWrite (chargeDev s (p / 2) 3 a 64 true) a l false 0
  let s := putResult s { r with written := true }
  let s := modFstat s p ctx (fun x => { x with chDone := x.chDone + 1 })
  let s := if tbit r.groups j.gidx && tbit r.members j.pos then s
    else modJob (modFstat s p ctx (fun x => { x with lateN := satAdd 16 x.lateN 1 })) f.jslot (fun j => { j with dlMissed := satAdd 32 j.dlMissed 1 })
  tryResid s p ctx c

/-- Write the result of unit u and note what its header needs. -/
def finalUnit (s : State) (p ctx c : Nat) (members groups contrib holder : Nat) (unit : UnitSt) : State :=
  let f := flowOf s p ctx
  let r := resultOf s p ctx c
  let u := r.units
  let n := f.unitN c u
  let lo := f.chunkLo c + u * f.unit
  let base := f.result + f.parity * f.resultStride
  let d := resultUnit f n unit.data
  let a := base + fmtBytes f.rfmt lo
  let s := devWrite (chargeDev s (p / 2) 3 a d.1.length true) a d.1 false 0
  let b := base + f.n + lo / 32
  let s := if d.2.isEmpty then s else devWrite (chargeDev s (p / 2) 3 b d.2.length true) b d.2 false 0
  let bs := if isBs8 f.sfmt && !f.sparse then bsBlocks n unit.data else []
  let r := { r with
    units := u + 1, members := members, groups := groups, contrib := contrib, holder := holder
    densified := r.densified || (f.sparse && (spBlockOf unit.data).dense)
    nonfinite := r.nonfinite || unitNonfinite f n unit.data
    sat := r.sat || unit.sat
    bumps := r.bumps + bs.countP (fun b => b.bump)
    err := unit.acct.foldl max r.err }
  let s := putResult s r
  if r.units = f.units c then closeChunk s p ctx c else s

/-! The stages -/

/-- A unit of the ring-reduce stage leaves this member: to the next member, or, at the holder, into the ring-group sum (R300, R302). -/
def ringOut (s : State) (p ctx c u members contrib : Nat) (unit : UnitSt) : State :=
  let f := flowOf s p ctx
  let j := jobOf s f.jslot
  match nextHop s f.jslot 0 c (ringNum j c) 0 with
  | some (n, m) => emitUnit s p ctx c ⟨0, m, n - 1, contrib, members, 0, 0, []⟩ (u + 1 == f.units c) unit
  | none => modStage s p ctx c 4 (fun x => { x with queue := x.queue ++ [unit], members := members, contrib := contrib })

/-- Count the exponent rises of a sum (R307). -/
def countRises (s : State) (p ctx n : Nat) : State :=
  if n = 0 then s
  else modJob (modFstat s p ctx (fun x => { x with bumpsR := satAdd 16 x.bumpsR n })) (flowOf s p ctx).jslot
    (fun j => { j with bumps := satAdd 32 j.bumps n })

/-- Units of the ring-reduce stage: this member adds its contribution or passes them on (R300, R312). -/
def runRing (s : State) (p ctx c : Nat) : State :=
  let x := stageOf s p ctx c 0
  if x.act = 0 then s
  else
    let f := flowOf s p ctx
    let j := jobOf s f.jslot
    let s := modStage s p ctx c 0 (fun x => { x with queue := [] })
    x.queue.foldl (fun s unit =>
      let u := (stageOf s p ctx c 0).doneN
      let s := modStage s p ctx c 0 (fun x => { x with doneN := u + 1 })
      match x.act, ownOf s p ctx c with
      | 1, some o =>
        let own := ownUnit f o.src o.src2 c u
        let n := f.unitN c u
        ringOut (countRises s p ctx (risesIn f n unit.data own)) p ctx c u (x.members ||| 2 ^ j.pos) (x.contrib + 1)
          (addUnitSt f n unit ⟨own, [], false⟩)
      | _, _ => ringOut s p ctx c u x.members x.contrib unit) s

/-- Start a chunk (R300, R313): with this member's contribution, or with none and CONTRIB = 0 (R312). -/
def startChain (s : State) (p ctx c : Nat) (withOwn : Bool) : State :=
  let f := flowOf s p ctx
  let j := jobOf s f.jslot
  let q : List (List Byte) :=
    match withOwn, ownOf s p ctx c with
    | true, some o => (List.range (f.units c)).map (ownUnit f o.src o.src2 c)
    | _, _ => (List.range (f.units c)).map (zeroUnit f c)
  modStage s p ctx c 0 (fun x =>
    { x with bound := some j.midx, staged := [], queue := q.map (fun l => ⟨l, [], false⟩), act := 2, members := if withOwn then 2 ^ j.pos else 0, contrib := b2n withOwn })

/-- A unit of the cross-reduce stage leaves this group: to the next group, or, at the final agent, into the pod sum (R303). -/
def crossOut (s : State) (p ctx c u groups contrib : Nat) (incl : Sparse Nat) (unit : UnitSt) : State :=
  let f := flowOf s p ctx
  let j := jobOf s f.jslot
  match nextHop s f.jslot 1 c (crossNum j c) 0 with
  | some (n, m) => emitUnit s p ctx c ⟨1, m, n - 1, contrib, 0, groups, 0, incl⟩ (u + 1 == f.units c) unit
  | none => modStage s p ctx c 5 (fun x => { x with queue := x.queue ++ [unit], groups := groups, contrib := contrib, incl := incl })

/-- The ring-group sum: final when there is one group; the first of the cross-reduce stage when this group starts it (R303). -/
def runSum (s : State) (p ctx c : Nat) : State :=
  let f := flowOf s p ctx
  let j := jobOf s f.jslot
  let x := stageOf s p ctx c 4
  if 1 < j.g ∧ !(crossFirst s f.jslot c) then s
  else
    let s := modStage s p ctx c 4 (fun x => { x with queue := [] })
    x.queue.foldl (fun s unit =>
      let u := (stageOf s p ctx c 4).doneN
      let s := modStage s p ctx c 4 (fun x => { x with doneN := u + 1 })
      crossOut s p ctx c u (2 ^ j.gidx) x.contrib (spSet 0 [] j.gidx x.members) unit) s

/-- The cross-reduce stage at a member that other groups' sums reach: its group's holder adds the ring-group sum, another passes the units on at
once (R303). -/
def runCross (s : State) (p ctx c : Nat) : State :=
  let f := flowOf s p ctx
  let j := jobOf s f.jslot
  let x := stageOf s p ctx c 1
  let y := stageOf s p ctx c 4
  let holder := (nextRing s f.jslot c (ringNum j c)).isNone
  let k := if holder then min x.queue.length y.queue.length else x.queue.length
  let s := modStage s p ctx c 1 (fun x => { x with queue := x.queue.drop k })
  let s := if holder then modStage s p ctx c 4 (fun y => { y with queue := y.queue.drop k, doneN := y.doneN + k }) else s
  (List.range k).foldl (fun s i =>
    let u := (stageOf s p ctx c 1).doneN
    let s := modStage s p ctx c 1 (fun x => { x with doneN := u + 1 })
    let a := listGet ⟨[], [], false⟩ x.queue i
    if holder then
      let b := listGet ⟨[], [], false⟩ y.queue i
      let n := f.unitN c u
      crossOut (countRises s p ctx (risesIn f n a.data b.data)) p ctx c u (x.groups ||| 2 ^ j.gidx) (x.contrib + y.contrib)
        (spSet 0 x.incl j.gidx y.members) (addUnitSt f n a b)
    else crossOut s p ctx c u x.groups x.contrib x.incl a) s

/-- Pass a final unit on along a gather stage, from place n of its order. -/
def gatherOut (s : State) (p ctx c stage n members groups contrib holder : Nat) (incl : Sparse Nat) (u : Nat) (unit : UnitSt) : State :=
  let f := flowOf s p ctx
  let j := jobOf s f.jslot
  match nextHop s f.jslot stage c n (if stage = 2 then j.gidx else j.pos) with
  | some (t, m) => emitUnit s p ctx c ⟨stage, m, t - 1, contrib, members, groups, holder, incl⟩ (u + 1 == f.units c) unit
  | none => s

/-- This member originates a stage: no other sender is taken for it (R304). -/
def originate (s : State) (p ctx c stage : Nat) : State :=
  let j := jobOf s (flowOf s p ctx).jslot
  modStage s p ctx c stage (fun x => { x with bound := some (x.bound.getD j.midx) })

/-- The instances that the writes of a chunk's result draw on (R420). -/
def resultCells (s : State) (p ctx c : Nat) : List (Nat × Nat) :=
  let f := flowOf s p ctx
  devCells (p / 2) (f.result + f.parity * f.resultStride + fmtBytes f.rfmt (f.chunkLo c)) true

/-- The final sum at its origin: written, when the RED budgets admit it (R421), and sent along both gather stages (R303, R304). -/
def runFinal (s : State) (p ctx c : Nat) : State :=
  let f := flowOf s p ctx
  let j := jobOf s f.jslot
  let x := stageOf s p ctx c 5
  if x.queue.isEmpty then s
  else if !(admits s 3 (resultCells s p ctx c)) then waitCells s 3 (resultCells s p ctx c)
  else
    let s := modStage (originate (originate s p ctx c 3) p ctx c 2) p ctx c 5 (fun x => { x with queue := [] })
    let mem := if tbit x.groups j.gidx then spGet 0 x.incl j.gidx else 0
    x.queue.foldl (fun s unit =>
      let u := (stageOf s p ctx c 5).doneN
      let s := modStage s p ctx c 5 (fun x => { x with doneN := u + 1 })
      let s := finalUnit s p ctx c mem x.groups x.contrib j.midx unit
      let s := if 1 < j.g then gatherOut s p ctx c 2 1 0 x.groups x.contrib j.midx x.incl u unit else s
      gatherOut s p ctx c 3 1 mem x.groups x.contrib j.midx [] u unit) s

/-- Units that arrive in a gather stage: written, when the RED budgets admit it, and passed on, with the member bitmap that arrived (R315); the agent of a group also starts its ring-gather stage (R303, R304). -/
def runGather (s : State) (p ctx c stage : Nat) : State :=
  let f := flowOf s p ctx
  let j := jobOf s f.jslot
  let x := stageOf s p ctx c stage
  if x.queue.isEmpty then s
  else if !(admits s 3 (resultCells s p ctx c)) then waitCells s 3 (resultCells s p ctx c)
  else
    let n := x.hops + 1
    let s := if stage = 2 then originate s p ctx c 3 else s
    let s := modStage s p ctx c stage (fun x => { x with queue := [] })
    let h := if j.g = 1 then (j.pos + j.p - x.hops % j.p) % j.p else x.holder
    x.queue.foldl (fun s unit =>
      let u := (stageOf s p ctx c stage).doneN
      let s := modStage s p ctx c stage (fun x => { x with doneN := u + 1 })
      let s := finalUnit s p ctx c x.members x.groups x.contrib h unit
      let s := gatherOut s p ctx c stage n (if stage = 2 then 0 else x.members) x.groups x.contrib h x.incl u unit
      if stage = 2 then gatherOut s p ctx c 3 1 x.members x.groups x.contrib h [] u unit else s) s

/-- What this member does with the ring-reduce stage now: it starts the chunk, or it adds its contribution to the pieces that wait (R312, R313). -/
def decideRing (s : State) (p ctx c : Nat) : State :=
  let x := stageOf s p ctx c 0
  if x.act ≠ 0 ∨ !(ownReady s p ctx c) then s
  else if x.bound.isSome then modStage s p ctx c 0 (fun x => { x with act := 1 })
  else if ringFirst s (flowOf s p ctx).jslot c then startChain s p ctx c true
  else s

/-- Carry a chunk on as far as its pieces and its contribution allow. -/
def advanceChunk (s : State) (p ctx c : Nat) : State :=
  let s := runRing (decideRing (takeUp s p ctx c) p ctx c) p ctx c
  let s := runFinal (runCross (runSum s p ctx c) p ctx c) p ctx c
  tryResid (runGather (runGather s p ctx c 2) p ctx c 3) p ctx c

/-! Members that go absent (R292, R302) -/

/-- A piece for a member that is absent goes to the next one instead, or into the sum that this member now holds. A piece of a cross stage
may go to the other agent of the same group. -/
def reroute (s : State) (p : Nat) (x : Piece) : State :=
  let j := jobOf s x.jslot
  let n := if x.stage = 1 ∨ x.stage = 2 then x.hops else x.hops + 1
  match nextHop s x.jslot x.stage x.chunk n (if x.stage = 2 then (x.midx / j.p + j.g - 1) % j.g else x.midx % j.p) with
  | some (t, m) => formPiece s p { x with midx := m, hops := t - 1 }
  | none =>
    if x.stage < 2 ∧ (flowOf s p x.ctx).valid ∧ (flowOf s p x.ctx).round = x.round then
      modStage s p x.ctx x.chunk (4 + x.stage) (fun y => { y with staged := spPut y.staged x.piece (x.payload, x.note), contrib := x.contrib })
    else s

/-- The chunks of a job's flows that hold anything. -/
def jobChunks (s : State) (k : Nat) : List (Nat × Nat × Nat) :=
  let ks := s.fab.stages.map (fun x => (x.port, x.ctx, x.chunk)) ++ s.fab.owns.map (fun x => (x.port, x.ctx, x.chunk))
  (ks.filter (fun x => (flowOf s x.1 x.2.1).valid && (flowOf s x.1 x.2.1).jslot == k)).eraseDups

/-- The chunks whose units wait for a budget go on as far as it admits them (R421). -/
def advanceAll (s : State) : State :=
  (s.fab.jobs.filter (fun e => e.2.valid)).foldl (fun s e => (jobChunks s e.1).foldl (fun s x => advanceChunk s x.1 x.2.1 x.2.2) s) s

/-- Every port skips an absent member at once (R292): its pieces go on to the next member. READY and DECISION frames wait on (R318); others no
longer do. -/
def skipMember (s : State) (k midx : Nat) : State :=
  let s := [0, 1, 2, 3, 4, 5, 6, 7].foldl (fun s p =>
    let q := portOf s p
    let mine (u : Unacked) : Bool := u.jslot == k && u.midx == midx
    let stays (u : Unacked) : Bool := !(mine u) || (hdrOf u.frame).type == tREADY || (hdrOf u.frame).type == tDECISION
    let ps := (q.unacked.filter (fun u => !(stays u))).filterMap (fun u => u.piece) ++
      (q.formed.filter (fun x => x.piece.jslot == k && x.piece.midx == midx)).map (fun x => x.piece)
    let s := modPort s p (fun q =>
      { q with unacked := q.unacked.filter stays, formed := q.formed.filter (fun x => !(x.piece.jslot == k && x.piece.midx == midx)) })
    ps.foldl (fun s x => reroute s p x) s) s
  (jobChunks s k).foldl (fun s x => advanceChunk s x.1 x.2.1 x.2.2) s

/-- A member becomes absent (R292). -/
def memberGone (s : State) (p k midx : Nat) : State :=
  if memberAbsent s k midx then s else skipMember (markAbsent s p k midx) k midx

end Sys2Proof.Machine
end

