-- ==== Sys2Proof/Machine/CommandCheck.lean ====
section
/-! DEFINITION. What LOAD_CONSIST checks of one command (R8, R43, R44, R58, R59, R145 to R175, Tables 6-1 to 6-16) and of a traverse descriptor
(R261 to R275). A rule is the number of a bit of the command, 256 and up in the descriptor slots, and whether that bit's field breaks it. -/

namespace Sys2Proof.Machine

/-- Rules: (bit of the field, broken). -/
abbrev Rules := List (Nat × Bool)

/-- The lowest bit whose field is broken. -/
def firstBroken (l : Rules) : Option Nat :=
  l.foldl (fun m r => if r.2 then (match m with
    | none => some r.1
    | some x => some (min x r.1)) else m) none

/-- The lowest bit of an n-bit number that is set outside the fields (bit, width). -/
def strayIn (x n : Nat) (fs : List (Nat × Nat)) : Option Nat :=
  (List.range n).find? (fun b => tbit x b && !(fs.any (fun f => decide (f.1 ≤ b) && decide (b < f.1 + f.2))))

/-- No bit outside the fields may be set (R147, R261). -/
def strayRule (x n lo : Nat) (fs : List (Nat × Nat)) : Rules :=
  match strayIn x n fs with
  | some b => [(lo + b, true)]
  | none => []

/-- Is the command a VEC command, and is it a ROW command? -/
def isVec (o : Nat) : Bool := decide (0x20 ≤ o) && decide (o ≤ 0x25)
def isRow (o : Nat) : Bool := decide (0x30 ≤ o) && decide (o ≤ 0x34)
def isOpx (o : Nat) : Bool := decide (0x10 ≤ o) && decide (o ≤ 0x14)
def isTrv (o : Nat) : Bool := o == oTRVGO || o == oTRVWAIT
def isFlag (o : Nat) : Bool := decide (oFSET ≤ o) && decide (o ≤ oFCLR)

/-- R146: the places of an opcode. -/
def queueOk (o q : Nat) : Bool :=
  if isOpx o then q == 0 else if isVec o then q == 1 else if isRow o then q == 2
  else if isTrv o then decide (3 ≤ q) && decide (q ≤ 6) else if isSeqOp o then q == 7 else decide (q ≤ 6)

/-- The bits of CX that a command uses (Tables 6-9, 6-12, 6-13). -/
def cxWidth (o : Nat) : Nat :=
  if o = oFN then 5 else if o = oDFN then 4 else if o = oRED then 2
  else if o = oNORMF ∨ o = oNORMB then 1 else if isRow o ∨ o = oTRVGO then 3 else 0

/-- Body fields that a command uses (Tables 6-6 to 6-16). -/
def bodyFields (c : Nat) : List (Nat × Nat) :=
  let o := cOp c
  let ph1 := tbit (cCx c) 2
  if o = oPASS then [(64, 123), (192, 32)]
  else if o = oDRAIN then [(64, 115)]
  else if o = oLOAD then [(64, 48), (160, 2)]
  else if o = oSAVE then [(64, 48), (160, 1)]
  else if o = oSURVEY then [(160, 1)]
  else if o = oFN then (if tbit (cCx c) 4 then [(64, 192)] else [(64, 96), (208, 48)])
  else if o = oDFN then [(64, 96), (208, 48)]
  else if o = oCVT then
    [(64, 48), (208, 48)] ++ (if isBs8 (sref c 0).fmt && (sref c 0).mode == 0 then [(112, 48)] else []) ++
      (if isBs8 (sref c 3).fmt then [(160, 48)] else [])
  else if isVec o ∨ o = oNORMF ∨ o = oNORMB then [(64, 192)]
  else if o = oSMAXF then (64, 48) :: (if ph1 then [(208, 48)] else [])
  else if o = oSMAXB then (64, 96) :: (if ph1 then [(208, 48)] else [])
  else if o = oTOPK then [(64, 48), (208, 48)] ++ (if isBs8 (sref c 0).fmt then [(112, 48)] else [])
  else if o = oTRVGO then [(64, 48), (160, 8)]
  else if o = oTRVWAIT then [(64, 6)]
  else if o = oFSET then [(64, 11), (80, 8)]
  else if o = oFWAIT then [(64, 11), (96, 16)]
  else if o = oFCLR then [(64, 11)]
  else if o = oCSET ∨ o = oCADD then [(64, 6), (72, 8), (128, 48)]
  else if o = oCLOOP then [(64, 4), (80, 14), (128, 32)]
  else if o = oCMP then [(64, 3), (68, 3), (72, 10), (88, 8), (128, 64)]
  else if o = oPMOV then [(64, 10), (80, 8), (128, 64)]
  else if o = oPADD then [(64, 18), (88, 8), (128, 64)]
  else if o = oDATUM then [(64, 1)]
  else if o = oLOSS then [(64, 48), (160, 4)]
  else if o = oHOLD then [(64, 19)]
  else if o = oDROP then [(80, 3)]
  else if o = oREADY then [(64, 18)]
  else []

/-- Header rules (R145 to R148) and the bits that no field covers. -/
def headerRules (two : Bool) (c : Nat) : Rules :=
  let o := cOp c
  let s := isSeqOp o
  [(0, !(isOpcode o)), (8, !(queueOk o (cQueue c))), (11, cStream c ≠ 0 && (s || !two)),
    (12, cPred c == 3 || ((o == oDATUM || o == oSYNC) && cPred c ≠ 0)), (14, cPred c == 0 && cPcmp c ≠ 0),
    (17, cAnchor c && o ≠ oFWAIT), (18, cPbase c ≠ 0 && !(isVec o || isRow o)), (26, decide (2 ^ cxWidth o ≤ cCx c)),
    (32, s && cOffset c ≠ 0)] ++ strayRule c 256 0 ((0, 64) :: bodyFields c)

/-- First bit of slot k, and places of its fields. -/
def slotBit (k : Nat) : Nat := 64 + 48 * k
def slotFmt (k : Nat) : Nat := slotBit k + 21
def slotMode (k : Nat) : Nat := slotBit k + 44
def slotChk (k : Nat) : Nat := slotBit k + 16
def slotStride (k : Nat) : Nat := slotBit k + 34

/-- A source slot (R151, Table 6-4) that accepts these modes. A scalar keeps PRMX only, an absent source nothing; of a drain-buffer source
ADDR, TAG and the PRM fields name the status word, and no other field is used (R147). -/
def srcRules (c k : Nat) (modes : List Nat) : Rules :=
  let r := sref c k
  let x := srefBits c k
  [(slotFmt k, decide (0xB < r.fmt)), (slotMode k, !(modes.contains r.mode)), (slotChk k, r.mode == 4 && r.chk),
    (slotFmt k, r.mode == 4 && r.fmt ≠ 0), (slotStride k, r.mode == 4 && r.lstride ≠ 0)] ++
    (if r.mode = 3 then strayRule x 48 (slotBit k) [(26, 8), (44, 4)]
     else if r.mode = 0xF then strayRule x 48 (slotBit k) [(44, 4)] else [])

/-- A slot that is written in place: SAT and RMODE (R151). -/
def inPlaceRules (c k : Nat) : Rules := [(slotFmt k, decide (0xB < (sref c k).fmt)), (slotMode k, decide (4 < (sref c k).rmode))]

/-- A destination slot: TAGCHK 0 (Table 6-3), a rounding mode of Table 2-4. -/
def dstRules (c k : Nat) : Rules := (slotChk k, (sref c k).chk) :: inPlaceRules c k

/-- The scale array of a BS8 source: a tensor read of a listed format code (R8, R38). -/
def scaleSrcRules (c k : Nat) : Rules := [(slotFmt k, decide (0xB < (sref c k).fmt)), (slotMode k, (sref c k).mode ≠ 0)]

/-- The format of slot k is one of these. -/
def fmtRule (c k : Nat) (ok : Nat → Bool) : Rules := [(slotFmt k, !(ok (sref c k).fmt))]

/-- A format that a command other than VEC.CVT may write (R58, R159). -/
def floatOut (f : Nat) : Bool := decide (f < 7)

/-- A format that is no BS8 subtype (R159). -/
def plainFmt (f : Nat) : Bool := !(isBs8 f)

/-- Stash formats of Table 8-4: pre-activation, normalisation input, softmax output. -/
def stashZ (f : Nat) : Bool := f == W8 || f == BF16 || f == FP16 || f == FP32
def stashX (f : Nat) : Bool := f == BF16 || f == FP16 || f == FP32

/-- An OPX operand (R150, R153, R155): MODE 0, pre-skewed, its immediate address on 1 KiB. -/
def streamRules (c k : Nat) (dst : Bool) (ok : Nat → Bool) : Rules :=
  let r := sref c k
  (if dst then [(slotChk k, r.chk)] else []) ++
    ([(slotMode k, r.mode ≠ 0), (slotStride k, r.lstride == 0), (slotBit k, r.addr % 16 ≠ 0)] : Rules) ++ fmtRule c k ok

/-- A bank image (R156, R157): linear, FMT 0, MODE 0, on 4 KiB. -/
def imageRules (c : Nat) (dst : Bool) : Rules :=
  let r := sref c 0
  [(slotChk 0, dst && r.chk), (slotStride 0, r.lstride ≠ 0), (slotFmt 0, r.fmt ≠ 0), (slotMode 0, r.mode ≠ 0), (slotBit 0, r.addr % 64 ≠ 0)]

/-- An engine operand of OPX.PASS. -/
def engineFmt (f : Nat) : Bool := decide (f < 11)

/-- A drained or loaded row. -/
def rowFmt (f : Nat) : Bool := f == FP32 || f == INT32

/-- The scale array of a BS8 operand (R69, Table 6-6): 0 without BS8, in the operand's bank group with it. -/
def scaleRule (c k v : Nat) : Bool := if isBs8 (sref c k).fmt then natBits v 4 2 != natBits (sref c k).addr 4 2 else v != 0

/-- OPX rules (R153 to R158); with two streams a command names its own stream's bank (R117, R138). -/
def opxRules (two : Bool) (c : Nat) : Rules :=
  let o := cOp c
  let own (bit : Nat) (bank : Bool) : Rules := [(bit, two && b2n bank ≠ cStream c)]
  if o = oPASS then
    let a := (sref c 0).fmt
    let b := (sref c 1).fmt
    streamRules c 0 false engineFmt ++ streamRules c 1 false engineFmt ++ own 184 (passBank c) ++
      ([(slotFmt 0, (a == INT8) != (b == INT8)), (160, passK c == 0 || ((isBs8 a || isBs8 b) && decide (256 < passK c))),
        (192, scaleRule c 0 (passAscale c)), (208, scaleRule c 1 (passBscale c))] : Rules)
  else if o = oDRAIN then
    (if drainToVec c then ([(64, srefBits c 0 ≠ 0), (160, drainStatus c ≠ 0)] : Rules) else streamRules c 0 true rowFmt) ++
      (if drainLoadEn c then streamRules c 1 false rowFmt else ([(112, srefBits c 1 ≠ 0)] : Rules)) ++ own 176 (drainBank c)
  else if o = oLOAD then (if loadImage c then imageRules c false else streamRules c 0 false rowFmt) ++ own 160 (convBank c)
  else if o = oSAVE then imageRules c true ++ own 160 (convBank c)
  else own 160 (convBank c)

/-- Words of the parameter block that a command uses (R152). -/
def blockWords (c : Nat) : Nat :=
  let o := cOp c
  if o = oOPT then 12 else if o = oRED then (if cCx c = 0 then 5 else 4) else if isVec o then 4 else if o = oTOPK then 9 else 8

/-- VEC rules (R159 to R164, Table 6-9). DESIGN CHOICE (log 43): with KIND = 0b00 the result has the partials' format; a slot that names a status
word or a scale array may carry any format code that is not reserved and that the command may use. -/
def vecRules (c : Nat) : Rules :=
  let o := cOp c
  let src := [0, 1, 2, 3, 0xF]
  let plain (k : Nat) : Rules := fmtRule c k plainFmt
  [(18, decide (240 < cPbase c + blockWords c))] ++
  (if o = oFMA then
    srcRules c 0 [0, 1, 2, 3, 4] ++ srcRules c 1 src ++ srcRules c 2 src ++ dstRules c 3 ++ plain 0 ++ plain 1 ++ plain 2 ++ fmtRule c 3 floatOut
  else if o = oFN then
    srcRules c 0 [0, 4] ++ srcRules c 1 src ++ dstRules c 3 ++ plain 0 ++ plain 1 ++ fmtRule c 3 floatOut ++
      (if tbit (cCx c) 4 then dstRules c 2 ++ fmtRule c 2 stashZ else [])
  else if o = oDFN then
    srcRules c 0 [0, 4] ++ srcRules c 1 [0, 1, 2] ++ dstRules c 3 ++ plain 1 ++ fmtRule c 3 floatOut ++
      (if (sref c 0).mode = 0 then fmtRule c 0 stashZ else plain 0)
  else if o = oCVT then
    srcRules c 0 [0, 4] ++ dstRules c 3 ++ fmtRule c 3 (fun f => decide (f < 11)) ++
      (if isBs8 (sref c 0).fmt && (sref c 0).mode == 0 then scaleSrcRules c 1 else []) ++
      (if isBs8 (sref c 3).fmt then dstRules c 2 else [])
  else if o = oOPT then
    let ws (f : Nat) : Bool := f == FP32 || f == BF16
    inPlaceRules c 0 ++ inPlaceRules c 2 ++ inPlaceRules c 3 ++ srcRules c 1 [0] ++ fmtRule c 0 ws ++ plain 1 ++ fmtRule c 2 ws ++
      fmtRule c 3 ws
  else
    [(26, decide (1 < cCx c))] ++ srcRules c 0 [0] ++ dstRules c 2 ++ dstRules c 3 ++ plain 0 ++ plain 2 ++
      (if cCx c = 0 then srcRules c 1 [0, 0xF] ++ plain 1 ++ fmtRule c 0 rowFmt ++ fmtRule c 3 (fun f => f == (sref c 0).fmt)
       else srcRules c 1 [0xF] ++ fmtRule c 3 (fun f => f == FP32)))

/-- ROW rules (R165 to R167, Table 6-12). -/
def rowRules (c : Nat) : Rules :=
  let o := cOp c
  let ph1 := tbit (cCx c) 2
  [(18, decide (240 < cPbase c + blockWords c))] ++
  (if o = oNORMF then
    srcRules c 0 [0] ++ srcRules c 1 [1, 0xF] ++ srcRules c 2 [1, 0xF] ++ dstRules c 3 ++ fmtRule c 0 plainFmt ++ fmtRule c 1 plainFmt ++
      fmtRule c 2 plainFmt ++ fmtRule c 3 floatOut
  else if o = oNORMB then
    srcRules c 0 [0] ++ srcRules c 1 [0] ++ srcRules c 2 [1, 0xF] ++ dstRules c 3 ++ fmtRule c 0 plainFmt ++ fmtRule c 1 stashX ++
      fmtRule c 2 plainFmt ++ fmtRule c 3 floatOut
  else if o = oSMAXF then
    ([(26, tbit (cCx c) 0)] : Rules) ++ srcRules c 0 [0] ++ fmtRule c 0 plainFmt ++ (if ph1 then dstRules c 3 ++ fmtRule c 3 stashZ else [])
  else if o = oSMAXB then
    ([(26, tbit (cCx c) 0)] : Rules) ++ srcRules c 0 [0] ++ srcRules c 1 [0] ++ fmtRule c 0 plainFmt ++ fmtRule c 1 stashZ ++ (if ph1 then dstRules c 3 ++ fmtRule c 3 floatOut else [])
  else
    ([(26, cCx c % 4 == 3), (slotFmt 3, (sref c 3).fmt ≠ FP32)] : Rules) ++ srcRules c 0 [0] ++ dstRules c 3 ++
      fmtRule c 0 (fun f => f ≠ INT8 && f ≠ INT32) ++ (if isBs8 (sref c 0).fmt then scaleSrcRules c 1 else []))

/-- Flag, scalar and control rules (R170 to R175). `tensorOk` and `groupOk` say whether a tensor or group is VALID, `newOk` whether NEWSLOT
lies within every tensor of the group (R212). -/
def controlRules (tensorOk groupOk : Nat → Bool) (newOk : Nat → Nat → Bool) (c : Nat) : Rules :=
  let o := cOp c
  if isFlag o then
    [(64, !(flSect c) && decide (63 < flFlag c)), (80, o == oFSET && flInc c == 0), (96, o == oFWAIT && flThresh c == 0),
      (17, o == oFWAIT && cQueue c == 0 && !(cAnchor c))]
  else if o = oCSET ∨ o = oCADD then [(68, natBits c 68 2 == 3)]
  else if o = oCMP then [(80, natBits c 80 2 == 3)]
  else if o = oPMOV then [(64, decide (239 < natBits c 64 8)), (72, natBits c 72 2 == 3)]
  else if o = oPADD then [(64, decide (239 < natBits c 64 8)), (80, natBits c 80 2 == 3)]
  else if o = oLOSS then srcRules c 0 [0, 3] ++ fmtRule c 0 (fun f => f == FP32)
  else if o = oHOLD then [(64, !(tensorOk (holdTensor c)))]
  else if o = oREADY then [(64, !(groupOk (readyGroup c))), (80, groupOk (readyGroup c) && !(newOk (readyGroup c) (readyNew c)))]
  else []

/-! Traverses -/

/-- The conversions that Table 2-5 gives to traverses. -/
def trvPath (a b : Nat) : Bool :=
  a == b ||
  (a == FP32 && (b == BF16 || b == FP16 || b == E4M3 || b == E5M2 || b == W8 || isBs8 b)) ||
  ((a == BF16 || a == FP16) && (b == E4M3 || b == E5M2 || b == W8 || b == FP32)) ||
  ((a == E4M3 || a == E5M2 || a == W8 || a == E2M1 || isBs8 a) && (b == BF16 || b == FP32))

/-- Fields of an option slot (Table 10-6); a KIND that the table does not name has none. -/
def optionFields (kind : Nat) : List (Nat × Nat) :=
  match kind with
  | 1 => [(0, 4), (8, 136)]
  | 2 => [(0, 4), (8, 138)]
  | 3 => [(0, 4), (8, 149)]
  | 4 => [(0, 4), (8, 52)]
  | 5 => [(0, 4), (8, 64)]
  | _ => []

/-- May an option of a KIND stand in a descriptor of this DIR? -/
def optionDir (kind dir : Nat) : Bool :=
  match kind with
  | 1 => dir < 2
  | 2 => dir == 2
  | 3 => dir == 2
  | 4 => true
  | 5 => dir < 2
  | _ => false

/-- The elements of a pattern (R262). -/
def descCount (ds : List Nat) : Nat :=
  (descDims ds).foldl (fun n d => n * d.1) 1 * (if (desc0 (listGet 0 ds 0)).mfmt = E2M1 then 2 else 1)

/-- Rules of the option slots, the first of which has number `i` in the descriptor. -/
def optionRules (dir i : Nat) : List Nat → List Nat → Rules
  | _, [] => []
  | seen, x :: r =>
    let k := natBits x 0 4
    let lo := 256 * (i + 1)
    [(lo, !(optionDir k dir) || seen.contains k)] ++ strayRule x 256 lo (optionFields k) ++
      [(lo + 10, k == 4 && natBits x 10 2 ≠ 1 && natBits x 10 2 ≠ 2),
        (lo + 65, k == 2 && (natBits x 65 2 == 1 || natBits x 65 2 == 2))] ++ optionRules dir (i + 1) (k :: seen) r

/-- The memory side of a BS8 traverse (R273): runs of 32 elements at multiples of 32 bytes from BASE. -/
def bs8Runs (dims : List (Nat × Int)) : Bool :=
  match dims with
  | [] => false
  | (n, st) :: r => decide (st = 1) && decide (n % 32 = 0) && r.all (fun d => d.1 == 1 || (decide (0 ≤ d.2) && decide (d.2 % 32 = 0)))

/-- Descriptor rules (R261 to R275) of a TRV.GO with its slots. -/
def descRules (tensorOk : Nat → Bool) (c : Nat) (ds : List Nat) : Rules :=
  let dir := trvDir c
  let x := listGet 0 ds 0
  let d := desc0 x
  let lo := 256
  let opts := descOptions ds
  let first := if 3 ≤ d.ndim then 2 else 1
  let has (k : Nat) : Bool := (descOpt ds k).isSome
  let E := descCount ds
  let sf := (sref c 0).fmt
  let bs := isBs8 d.mfmt || (decide (dir < 2) && isBs8 sf)
  let n0 := (listGet (1, 0) (descDims ds) 0)
  let unused : Rules := (rangeFrom 1 5).map (fun k =>
    if k < d.ndim ∨ (2 ≤ k ∧ d.ndim < 3) then (0, false)
    else if k = 1 then (lo + 192, natBits x 192 64 ≠ 0) else (2 * lo + 64 * (k - 2), natBits (listGet 0 ds 1) (64 * (k - 2)) 64 ≠ 0))
  let dest := (descOpt ds 2).getD 0
  let destAt := lo * (first + 1 + (opts.findIdx (fun y => natBits y 0 4 == 2)))
  [(lo + 48, decide (0xB < d.mfmt)), (lo + 52, d.ndim == 0 || decide (6 < d.ndim)), (lo + 92, natBits x 92 36 ≠ 0),
    (lo + 64, (d.vsel == 1 && dir == 1) || (d.vsel == 2 && dir == 1) || (d.vsel == 3 && dir ≠ 1)),
    (lo + 66, if d.vsel = 0 then d.tensor ≠ 0 else !(tensorOk d.tensor)), (lo + 79, decide (d.vsel < 2) && d.varg ≠ 0),
    (lo + 83, decide (4 < d.rmode) || (dir == 2 && d.rmode ≠ 0) || (d.rmode == 4 && !(has 1))), (lo + 86, dir == 2 && d.sat),
    (lo + 82, d.tt && (E % 16384 ≠ 0 || d.mfmt == E2M1 || isBs8 d.mfmt)),
    (lo + 128, decide (2 ^ 40 < E) || (d.mfmt == E2M1 && n0.2 ≠ 1) || (decide (dir < 2) && (sref c 0).lstride ≠ 0 && E % 128 ≠ 0) ||
      (bs && E % 32 ≠ 0) || (decide (dir < 2) && isBs8 d.mfmt && !(bs8Runs (descDims ds)))),
    (lo + 48, decide (dir < 2) && ((bs && !(has 5)) || !(if dir = 0 then trvPath d.mfmt sf else trvPath sf d.mfmt))),
    (lo, dir == 2 && !(has 2)),
    (destAt + 67, has 2 && (if natBits dest 65 2 = 0 then natBits dest 67 13 ≠ 0 else !(tensorOk (natBits dest 67 13)))),
    (destAt + 80, has 2 && natBits dest 65 2 == 0 && natBits dest 80 2 ≠ 0),
    (destAt + 82, has 2 && natBits dest 82 24 ≠ 0 && E % natBits dest 82 24 ≠ 0),
    (destAt + 8, has 2 && has 3 && natBits dest 65 2 == 0 && isComp (natBits dest 8 48)),
    (lo + 128, has 3 && decide (2 ^ 36 - 32 < ceilDiv (E * fmtBits d.mfmt) 8))] ++ unused ++ optionRules dir first [] opts

/-- TRV rules (R168): S0 takes no conversion fields, which the descriptor holds. -/
def trvRules (tensorOk : Nat → Bool) (c : Nat) (ds : List Nat) : Rules :=
  let dir := trvDir c
  if cOp c = oTRVWAIT then []
  else
    [(160, dir == 3)] ++
      (if dir = 2 then ([(64, srefBits c 0 ≠ 0)] : Rules)
       else [(slotMode 0, (sref c 0).mode ≠ 0), (slotFmt 0, decide (0xB < (sref c 0).fmt)), (slotChk 0, dir == 0 && (sref c 0).chk)]) ++
      descRules tensorOk c ds

/-- Every rule of one command. -/
def commandRules (two : Bool) (tensorOk groupOk : Nat → Bool) (newOk : Nat → Nat → Bool) (c : Nat) (ds : List Nat) : Rules :=
  let o := cOp c
  if !(isOpcode o) then [(0, true)]
  else headerRules two c ++
    (if isOpx o then opxRules two c else if isVec o then vecRules c else if isRow o then rowRules c else if isTrv o then trvRules tensorOk c ds
     else controlRules tensorOk groupOk newOk c)

end Sys2Proof.Machine
end

