-- ==== Sys2Proof/Machine/LoadCheck.lean ====
section
/-! DEFINITION. What LOAD_CONSIST checks of a whole image (R32, R103, R113, R116, R117, R169, R180, R185, R211, R223, R224, R348, R364): the part
of each cluster, the directory with its monitor block, the function tables, the version-table image. Errors are places as Table 12-4 names
them. -/

namespace Sys2Proof.Machine

/-- A command of a part: its index, its 256 bits, its descriptor slots (R168). -/
structure PCmd where
  idx : Nat
  raw : Nat
  desc : List Nat
  deriving DecidableEq, Repr

/-- The commands of a part from its 32-byte slots; `skip` slots belong to the descriptor of an earlier TRV.GO. -/
def splitCmds : Nat → Nat → List Nat → List PCmd
  | _, _, [] => []
  | i, 0, c :: r =>
    let n := if cOp c = oTRVGO then trvDslots c else 0
    ⟨i, c, r.take n⟩ :: splitCmds (i + 1) n r
  | i, k + 1, _ :: r => splitCmds (i + 1) k r

/-- What the commands of a part are checked against: two streams, the parameter block, the tensors and groups of the version-table image. -/
structure PartCtx where
  two : Bool
  prm : Nat → Nat
  tensors : List VtEntry
  groups : List Group

/-- A tensor of the image that is VALID. -/
def PartCtx.tensorOk (x : PartCtx) (t : Nat) : Bool := ((x.tensors[t]?).map (fun v => v.valid)).getD false

/-- A group of the image that is VALID. -/
def PartCtx.groupOk (x : PartCtx) (g : Nat) : Bool := ((x.groups[g]?).map (fun v => v.valid)).getD false

/-- NEWSLOT lies in 1 … n − 1 for every tensor of the group (R212). -/
def PartCtx.newOk (x : PartCtx) (g d : Nat) : Bool :=
  d ≠ 0 && x.tensors.all (fun v => !v.valid || v.group ≠ g || decide (d ≤ v.slotsM1))

/-- R168: DSLOTS is 1 to 6, all its slots are present, and a third dimension has its slot. -/
def slotsRule (c : PCmd) : Rules :=
  if cOp c.raw ≠ oTRVGO then []
  else [(26, trvDslots c.raw == 0 || decide (6 < trvDslots c.raw) || c.desc.length ≠ trvDslots c.raw ||
    (decide (3 ≤ (desc0 (listGet 0 c.desc 0)).ndim) && decide (c.desc.length < 2)))]

/-- Errors of single commands: (command index, bit). -/
def singleErrs (x : PartCtx) (cs : List PCmd) : List (Nat × Nat) :=
  cs.filterMap (fun c =>
    let s := slotsRule c
    let rs := if s.any (fun r => r.2) then s else commandRules x.two x.tensorOk x.groupOk x.newOk c.raw c.desc
    (firstBroken rs).map (fun b => (c.idx, b)))

/-! Rules over the datum intervals of a part, in program order -/

/-- What one interval has shown so far: the last OFFSET of either OPX stream in its frame, banks begun, section-flag commands, readies, tickets
(queue, ticket), drains to the buffer and the VEC commands that take them. -/
structure Walk where
  last0 : Nat
  last1 : Nat
  initA : Bool
  initB : Bool
  sf : Nat
  ready : Nat
  tickets : List (Nat × Nat)
  drains : List PCmd
  takers : List PCmd
  errs : List (Nat × Nat)

/-- A fresh interval. -/
def Walk.fresh (errs : List (Nat × Nat)) : Walk := ⟨0, 0, false, false, 0, 0, [], [], [], errs⟩

/-- The predicate of a command. -/
def predOf (c : PCmd) : Nat × Nat := (cPred c.raw, cPcmp c.raw)

/-- R180: as many drains to the drain buffer as VEC commands that take a tile, pair by pair under one predicate. -/
def pairErrs : List PCmd → List PCmd → List (Nat × Nat)
  | [], [] => []
  | d :: _, [] => [(d.idx, 0)]
  | [], t :: _ => [(t.idx, 0)]
  | d :: ds, t :: ts => if predOf d = predOf t then pairErrs ds ts else [(t.idx, 12)]

/-- An OPX.DRAIN with TO_VEC = 1. -/
def isDrain (c : PCmd) : Bool := cOp c.raw == oDRAIN && drainToVec c.raw

/-- A VEC command whose S0 has MODE 0x4; the S0 of VEC.OPT holds RMODE and SAT there (R151). -/
def isTaker (c : PCmd) : Bool := isVec (cOp c.raw) && cOp c.raw ≠ oOPT && (sref c.raw 0).mode == 4

/-- Banks that a command begins: a clear, a load, a drain, a save (Table 3-4, R154). -/
def begins (c : PCmd) : Option Bool :=
  let o := cOp c.raw
  if o = oPASS then (if passClear c.raw then some (passBank c.raw) else none)
  else if o = oDRAIN then some (drainBank c.raw)
  else if o = oLOAD ∨ o = oSAVE then some (convBank c.raw)
  else none

/-- One command of the walk (R117, R169, R180, R364). Offset order is judged in program order; only a DATUM, a SYNC or an anchoring wait ends a frame
in it, since the first pass through a loop body, and what follows a loop, stay in their frames. -/
def walkOne (w : Walk) (c : PCmd) : Walk :=
  let o := cOp c.raw
  let k := cStream c.raw
  let err (b : Bool) (bit : Nat) (w : Walk) : Walk := if b then { w with errs := w.errs ++ [(c.idx, bit)] } else w
  if o = oDATUM then Walk.fresh (w.errs ++ pairErrs w.drains w.takers)
  else if o = oSYNC then { w with last0 := 0, last1 := 0 }
  else
    let bankIs (b : Bool) : Bool := if b then w.initB else w.initA
    let w := if cQueue c.raw = 0 then
        let w := err (decide (cOffset c.raw < (if k = 0 then w.last0 else w.last1))) 32 w
        if k = 0 then { w with last0 := cOffset c.raw } else { w with last1 := cOffset c.raw }
      else w
    let w := err (o == oPASS && !(passClear c.raw) && !(bankIs (passBank c.raw))) 186 w
    let w := err (o == oDRAIN && !(bankIs (drainBank c.raw))) 176 w
    let w := match begins c with
      | some true => { w with initB := true }
      | some false => { w with initA := true }
      | none => w
    let w := if o = oFWAIT ∧ cAnchor c.raw then (if k = 0 then { w with last0 := 0 } else { w with last1 := 0 }) else w
    let sfN : Nat := w.sf
    let rdN : Nat := w.ready
    let w := if isFlag o && flSect c.raw then err (decide (64 ≤ sfN)) 74 { w with sf := sfN + 1 } else w
    let w := if o = oREADY then err (decide (16 ≤ rdN)) 0 { w with ready := rdN + 1 } else w
    let w := if o = oTRVGO then { w with tickets := (cQueue c.raw, trvTicket c.raw) :: w.tickets } else w
    let w := err (o == oTRVWAIT && !(w.tickets.contains (cQueue c.raw, waitTicket c.raw))) 64 w
    { w with drains := if isDrain c then w.drains ++ [c] else w.drains, takers := if isTaker c then w.takers ++ [c] else w.takers }

/-- Errors of the intervals. -/
def intervalErrs (cs : List PCmd) : List (Nat × Nat) :=
  let w := cs.foldl walkOne (Walk.fresh [])
  w.errs ++ pairErrs w.drains w.takers

/-- TARGET of a CNT.LOOP. -/
def loopTarget (c : PCmd) : Nat := natBits c.raw 80 14

/-- Errors of loops (R117, R126, R168, R180): the target is a command, at most the loop itself; nesting at most 4; no anchoring command in a
body but an inner loop; drains and takers pair up within each body. -/
def loopErrs (cs : List PCmd) : List (Nat × Nat) :=
  let ls := cs.filter (fun c => cOp c.raw == oCLOOP)
  ls.flatMap (fun l =>
    let body := cs.filter (fun c => decide (loopTarget l ≤ c.idx) && decide (c.idx < l.idx))
    let badT := decide (l.idx < loopTarget l) || !(cs.any (fun c => c.idx == loopTarget l))
    let deep := decide (4 < (ls.filter (fun x => decide (loopTarget x ≤ loopTarget l) && decide (l.idx ≤ x.idx))).length)
    (if badT || deep then [(l.idx, 80)] else []) ++
      body.filterMap (fun c =>
        let o := cOp c.raw
        if o = oDATUM ∨ o = oSYNC then some (c.idx, 0) else if o = oFWAIT ∧ cAnchor c.raw then some (c.idx, 17) else none) ++
      pairErrs (body.filter isDrain) (body.filter isTaker))

/-- A parameter register that a PRM command of the part writes. -/
def prmWritten (cs : List PCmd) (r : Nat) : Bool :=
  cs.any (fun c => (cOp c.raw == oPMOV || cOp c.raw == oPADD) && natBits c.raw 64 8 == r)

/-- R103: the row length of a ROW command, when `v r` gives the value of its parameter register. L = 0, which R113 leaves out of its range for ROW.TOPK
without an answer, runs as it stands (DESIGN CHOICE, log 43). -/
def rowLenBad (raw : Nat) (v : Nat → Option Nat) : Option Nat :=
  let p := cPbase raw
  if !(isRow (cOp raw)) then none
  else match v (p + 4) with
    | some x => if 2 ^ 26 < natBits x 0 27 then some (p + 4) else none
    | none => none

/-- R113: k of a ROW.TOPK. -/
def topkBad (raw : Nat) (v : Nat → Option Nat) : Option Nat :=
  let p := cPbase raw
  if cOp raw ≠ oTOPK then none
  else match v (p + 7) with
    | some x => if natBits x 32 9 = 0 ∨ 256 < natBits x 32 9 then some (p + 7) else none
    | none => none

/-- R44, R162: the element count of a VEC.CVT with a BS8 side, or of a row of ROW.TOPK from a BS8 source, is a multiple of 32. -/
def countBad (raw : Nat) (v : Nat → Option Nat) : Option Nat :=
  let p := cPbase raw
  let bs (k : Nat) : Bool := isBs8 (sref raw k).fmt
  let width := if cOp raw = oCVT ∧ (((sref raw 0).mode = 0 ∧ bs 0) ∨ bs 3) then 32 else if cOp raw = oTOPK ∧ !(tbit (cCx raw) 2) ∧ bs 0 then 27 else 0
  match v p with
  | some x => if width ≠ 0 ∧ natBits x 0 width % 32 ≠ 0 then some p else none
  | none => none

/-- The parameter register that holds a value which R44, R103 or R113 refuses for a command. -/
def prmBad (raw : Nat) (v : Nat → Option Nat) : Option Nat := ((rowLenBad raw v).or (topkBad raw v)).or (countBad raw v)

/-- What a run of a part knows of its scalar state as it reaches a command (R119, R126, R172): parameter registers, counters and comparators, none where
a value cannot be told; the patches that the next DATUM applies (R125); the values that R44, R103 or R113 refuses so far: (command index, register). -/
structure Sim where
  pc : Nat
  prm : Sparse (Option Nat)
  cnt : Sparse (Option Nat)
  cmp : Sparse (Option Bool)
  stage : List (Nat × Nat)
  errs : List (Nat × Nat)

/-- The parameter registers of cluster lc that a run begins with: PRM0 to PRM239 from `f`, PRM249, and no other system register. -/
def simPrm (lc : Nat) (f : Nat → Nat) : Sparse (Option Nat) :=
  (List.range 256).filterMap (fun r =>
    let v : Option Nat := if r < 240 then some (f r) else if r = 249 then some lc else none
    if v = some 0 then none else some (r, v))

/-- A source of Table 6-15. -/
def simSrc (s : Sim) (kind ix imm : Nat) : Option Nat :=
  if kind = 0 then some imm else if kind = 1 then spGet (some 0) s.prm (ix % 256) else spGet (some 0) s.cnt (ix % 16)

/-- Does a command's predicate hold (R123)? -/
def simPred (s : Sim) (raw : Nat) : Option Bool :=
  let v := spGet (some false) s.cmp (cPcmp raw)
  if cPred raw = 0 then some true else if cPred raw = 1 then v else v.map not

/-- A value as a command leaves it that may not execute: as it was, as written, or unknown. -/
def simKeep {α : Type} (p : Option Bool) (old new : Option α) : Option α :=
  match p with
  | some true => new
  | some false => old
  | none => none

/-- A scalar command of R126 and R172. -/
def simScalar (s : Sim) (c : PCmd) : Sim :=
  let o := cOp c.raw
  let b (k w : Nat) : Nat := natBits c.raw k w
  let p := simPred s c.raw
  let prm (v : Option Nat) : Sim := { s with prm := spSet (some 0) s.prm (b 64 8) (simKeep p (spGet (some 0) s.prm (b 64 8)) v) }
  let cnt (v : Option Nat) : Sim := { s with cnt := spSet (some 0) s.cnt (b 64 4) (simKeep p (spGet (some 0) s.cnt (b 64 4)) v) }
  let add (m : Nat) (x y : Option Nat) : Option Nat := x.bind (fun i => y.map (fun j => (i + j) % m))
  if o = oPMOV then prm (simSrc s (b 72 2) (b 80 8) (b 128 64))
  else if o = oPADD then prm (add (2 ^ 64) (spGet (some 0) s.prm (b 72 8)) (simSrc s (b 80 2) (b 88 8) (b 128 64)))
  else if o = oCSET then cnt ((simSrc s (b 68 2) (b 72 8) (b 128 48)).map (fun v => v % 2 ^ 48))
  else if o = oCADD then cnt (add (2 ^ 48) (spGet (some 0) s.cnt (b 64 4)) (simSrc s (b 68 2) (b 72 8) (b 128 48)))
  else if o = oCMP then
    let v : Option Bool := (simSrc s (if b 70 1 = 1 then 1 else 2) (b 72 8) 0).bind (fun l =>
      (simSrc s (b 80 2) (b 88 8) (b 128 64)).map (fun r =>
        match b 68 2 with
        | 0 => l == r
        | 1 => l != r
        | 2 => decide (l < r)
        | _ => decide (r ≤ l)))
    { s with cmp := spSet (some false) s.cmp (b 64 3) (simKeep p (spGet (some false) s.cmp (b 64 3)) v) }
  else s

/-- One command of a run: it is judged unless its predicate is known to fail or a patch is still to come, then takes its scalar effect. `none` where
the run can no longer be followed: its loop count or its predicate is not known. -/
def simStep (s : Sim) (c : PCmd) : Option Sim :=
  let o := cOp c.raw
  let p := simPred s c.raw
  let next := c.idx + 1 + c.desc.length
  let s := match (if s.stage.isEmpty ∧ p ≠ some false then prmBad c.raw (fun r => spGet (some 0) s.prm r) else none) with
    | some r => { s with errs := s.errs ++ [(c.idx, r)] }
    | none => s
  if o = oCLOOP then
    match p, spGet (some 0) s.cnt (natBits c.raw 64 4) with
    | some true, some n =>
      let v := (n + (2 ^ 48 - 1)) % 2 ^ 48
      some { s with cnt := spSet (some 0) s.cnt (natBits c.raw 64 4) (some v), pc := if v = 0 then next else loopTarget c }
    | some false, _ => some { s with pc := next }
    | _, _ => none
  else if o = oDATUM then
    some { s with pc := next, stage := [], prm := s.stage.foldl (fun t x => if x.1 < 240 then spSet (some 0) t x.1 (some x.2) else t) s.prm }
  else some { simScalar s c with pc := next }

/-- Follow a run of a part to its end, or to where it can no longer be followed. -/
def simRun (cs : List PCmd) : Nat → Sim → Sim
  | 0, s => s
  | n + 1, s => match (cs.find? (fun c => c.idx == s.pc)).bind (simStep s) with
    | some t => simRun cs n t
    | none => s

/-- More commands than any part of 12,288 commands with loops of 48-bit counters dispatches in a step. -/
def simFuel : Nat := 2 ^ 256

/-- Parameter values that R44, R103 or R113 refuses in the commands of cluster lc: (command index, register). A register that no PRM command of the part
writes is judged wherever a command reads it. Any other is judged by the run from ENTRY, with its counters, comparators and loops, as far as a value or
a branch does not depend on a system register; past that it is read as it is (log 43). -/
def prmErrs (lc entry : Nat) (block : Nat → Nat) (cs : List PCmd) : List (Nat × Nat) :=
  let still (r : Nat) : Option Nat := if prmWritten cs r ∨ 240 ≤ r then none else some (block r)
  cs.filterMap (fun c => (prmBad c.raw still).map (fun r => (c.idx, r))) ++
    (simRun cs simFuel ⟨entry, simPrm lc block, [], [], [], []⟩).errs

/-- The least pair by command index, then bit. -/
def leastErr (l : List (Nat × Nat)) : Option (Nat × Nat) :=
  l.foldl (fun m e => match m with
    | none => some e
    | some x => if e.1 < x.1 ∨ (e.1 = x.1 ∧ e.2 < x.2) then some e else some x) none

/-! Parts -/

/-- The header (Table 5-1). -/
def headerOf (h : Nat) : ClHeader :=
  { cmdN := natBits h 16 14, entry := natBits h 32 14, twoStream := tbit h 48, guard := natBits h 53 4, bgroup := natBits h 57 6,
    datumBase := natBits h 80 48, syncLimit := natBits h 128 32 }

/-- RAMP and SAVE_BASE of a header. -/
def headerRamp (h : Nat) : Nat := natBits h 49 3
def headerSave (h : Nat) : Nat := natBits h 64 10

/-- The first field of a header that breaks Table 5-1, R117 or R259, as a bit; the commands are those of the part. -/
def headerErr (s : State) (h : Nat) (cs : List PCmd) : Option Nat :=
  let x := headerOf h
  let entryOk := cs.any (fun c => c.idx == x.entry && cOp c.raw == oDATUM)
  firstBroken (([(0, natBits h 0 16 ≠ 1), (16, x.cmdN == 0 || decide (12288 < x.cmdN)), (30, natBits h 30 2 ≠ 0), (32, !entryOk),
    (46, natBits h 46 2 ≠ 0), (49, decide (4 < headerRamp h)), (52, tbit h 52), (53, x.guard == 0), (63, tbit h 63),
    (64, decide (0x3BC < headerSave h)), (74, natBits h 74 6 ≠ 0),
    (80, x.datumBase % 8192 ≠ 0 || !(boundOk s x.datumBase (x.datumBase + 8191) true)), (128, x.syncLimit == 0)] : Rules) ++
    strayRule h 512 0 [(0, 160)])

/-- A part as it was read: its cluster, its offset in the image, its header, its bytes. -/
structure Part where
  lc : Nat
  off : Nat
  hdr : Nat
  bytes : List Byte
  deriving DecidableEq, Repr

/-- The commands of a part. -/
def Part.cmds (p : Part) : List PCmd :=
  splitCmds 0 0 ((List.range (headerOf p.hdr).cmdN).map (fun i => byteField p.bytes (2112 + 32 * i) 32))

/-- The first error of a part, as Table 12-4 names it (R348). -/
def partErr (s : State) (tensors : List VtEntry) (groups : List Group) (p : Part) : Option BadAt :=
  let cs := p.cmds
  match headerErr s p.hdr cs with
  | some b => some ⟨2, some p.lc, none, p.off + b / 8⟩
  | none =>
    let x : PartCtx := ⟨(headerOf p.hdr).twoStream, fun r => byteField p.bytes (64 + 8 * r) 8, tensors, groups⟩
    match leastErr (prmErrs p.lc (headerOf p.hdr).entry x.prm cs) with
    | some (i, r) => some ⟨2, some p.lc, some i, p.off + 64 + 8 * r⟩
    | none => (leastErr (singleErrs x cs ++ intervalErrs cs ++ loopErrs cs)).map (fun e =>
        ⟨2, some p.lc, some e.1, p.off + 2112 + 32 * e.1 + e.2 / 8⟩)

/-- The first command of a part that names a function table which is not VALID (R185); word 0 of the command. -/
def tableErr (valid : Nat → Bool) (p : Part) : Option BadAt :=
  (p.cmds.find? (fun c => (cOp c.raw == oFN || cOp c.raw == oDFN) && !(valid (cCx c.raw % 16)))).map (fun c =>
    ⟨2, some p.lc, some c.idx, p.off + 2112 + 32 * c.idx⟩)

/-! Tables -/

/-- The first byte of a list that is not 0 among offsets lo … lo + n − 1. -/
def firstNonZero (l : List Byte) (lo n : Nat) : Option Nat :=
  (List.range n).findSome? (fun i => if l.getD (lo + i) 0 = 0 then none else some (lo + i))

/-- Is a number a positive normal FP32 value? -/
def posNormal (x : Nat) : Bool := decide (0x00800000 ≤ x) && decide (x < 0x7F800000)

/-- Is it finite? -/
def finiteBits (x : Nat) : Bool := decide (x % 2 ^ 31 < 0x7F800000)

/-- VALID of function table n of an image. -/
def tableValid (img : List Byte) (n : Nat) : Bool := tbit (byteField img (8192 * n) 1) 0

/-- The first offending byte of a function table (R185, Tables 7-1 and 7-2). -/
def ftErr (t : List Byte) : Option Nat :=
  if !(tableValid t 0) then none
  else
    let h := byteField t 0 64
    let deg := natBits h 1 3
    let high : Option Nat := (List.range 256).findSome? (fun sg => firstNonZero t (0x40 + 20 * sg + 4 * (deg + 1)) (4 * (4 - deg)))
    if 4 < deg ∨ natBits h 4 2 = 3 ∨ natBits h 6 2 = 3 then some 0
    else (firstNonZero t 1 3).or (
      if !(finiteBits (natBits h 32 32)) then some 4
      else if !(posNormal (natBits h 64 32)) then some 8
      else (firstNonZero t 28 36).or (high.or (firstNonZero t 0x1440 (0x2000 - 0x1440))))

/-- The first offending byte of a function-table image. -/
def ftabErr (img : List Byte) : Option BadAt :=
  (List.range 16).findSome? (fun n => (ftErr ((img.drop (8192 * n)).take 8192)).map (fun b => ⟨3, none, none, 8192 * n + b⟩))

/-- The first field of a version-table image in error. -/
def vtabErr (l : List Byte) (nt ng : Nat) : Option BadAt :=
  (List.range (nt + ng)).findSome? (fun i =>
    let x := byteField l (64 * i) 64
    (if i < nt then vtBad x else groupBad x).map (fun b => ⟨4, none, none, 64 * i + b / 8⟩))

/-- The directory of a consist image, whose bytes are `dir` (R348): reserved bits, alignment, place; the monitor block; zeros. -/
def directoryErr (dir : List Byte) (len : Nat) : Option BadAt :=
  let ent (lc : Nat) : Nat := byteField dir (8 * lc) 8
  let cmdN (lc : Nat) : Nat := natBits (byteField dir (ent lc) 4) 16 14
  let bad := (List.range 256).find? (fun lc =>
    decide (2 ^ 40 ≤ ent lc) || (ent lc ≠ 0 && (ent lc % 64 ≠ 0 || decide (ent lc < 0x1000) || decide (len < ent lc + 2112 + 32 * cmdN lc))))
  match bad with
  | some lc => some ⟨2, none, none, 8 * lc⟩
  | none =>
    match (List.range 16).findSome? (fun k => (monBad (byteField dir (0x800 + 64 * k) 64)).map (fun b => 0x800 + 64 * k + b / 8)) with
    | some o => some ⟨2, none, none, o⟩
    | none => (firstNonZero dir 0xC00 0x400).map (fun o => ⟨2, none, none, o⟩)

end Sys2Proof.Machine
end

