-- ==== Sys2Proof/Machine/Program.lean ====
section
/-! DEFINITION. Program control: LOAD_CONSIST (R116, R348), PATCH_PRM (R125, R349), START, PAUSE, RESUME and STOP (R345, R90 to R92),
CONSIST_END. -/

namespace Sys2Proof.Machine

/-- A long command ends without effect because the module's state has changed (R341). -/
def finishState (s : State) (m : Msg) : State := finish s m stSTATE 1 (stateBits s)

/-- A long command ends with BAD_ARGUMENT. -/
def finishBad (s : State) (m : Msg) (b : BadAt) : State := finish s m stBADARG 13 (badBody b)

/-! LOAD_CONSIST -/

/-- Body fields of Table 12-9. -/
def loadFields : List (Nat × Nat) := [(0, 48), (64, 32), (96, 48), (160, 48), (208, 14), (224, 11)]

def ldImage (m : Msg) : Nat := mb m 0 48
def ldLen (m : Msg) : Nat := mb m 64 32
def ldFtab (m : Msg) : Nat := mb m 96 48
def ldVtab (m : Msg) : Nat := mb m 160 48
def ldNt (m : Msg) : Nat := mb m 208 14
def ldNg (m : Msg) : Nat := mb m 224 11

/-- R348: an image of n bytes lies in one view of DRAM, on 4 KiB, inside a bound window that permits reads. -/
def placed (s : State) (a n : Nat) : Bool :=
  n ≠ 0 && a % 4096 == 0 && isDram a && isDram (a + n - 1) && rangeMapped (a / 4096) ((a + n - 1) / 4096) && boundOk s a (a + n - 1) false

/-- Commit-group entries of the version-table image. -/
def ldGroups (m : Msg) : Nat := if ldNt m = 0 then 0 else ldNg m

/-- Bytes of the version-table image. VTAB is 0 when NT = 0 (Table 12-9): then there is no image, and no commit-group entry is read whatever NG
is (log 16). -/
def ldVbytes (m : Msg) : Nat := if ldNt m = 0 then 0 else 64 * (ldNt m + ldNg m)

/-- The body bit of the first argument in error. -/
def loadArgBad (s : State) (m : Msg) : Option Nat :=
  let vn := ldVbytes m
  firstBroken [(64, decide (ldLen m < 4096)), (0, !(placed s (ldImage m) (ldLen m))), (96, ldFtab m ≠ 0 && !(placed s (ldFtab m) 131072)),
    (160, if vn = 0 then ldVtab m ≠ 0 else !(placed s (ldVtab m) vn)), (208, decide (8192 < ldNt m)), (224, decide (1024 < ldNg m))]

/-- LOAD_CONSIST, up to ACCEPTED: the program resource is held until its final completion (R339, R341). -/
def execLoadConsist (m : Msg) (s : State) : Res :=
  .next (takeArgs s m 0x0020 loadFields (fun s =>
    match loadArgBad s m with
    | some b => badArg s m (inBody b)
    | none => if longOf s 0x0020 then busy s m 1 else accept s m 0 (fun s => s)))

/-- Read an image, an access of the stationmaster (R420): its bytes, and the offset of its first poisoned granule. -/
def imageRead (s : State) (a n : Nat) : (List Byte × Option Nat) × State :=
  let r := devReadPieces (pieces a n) (chargeDev s 4 7 a n false)
  let k := r.1.findIdx (fun x => x.poison)
  ((r.1.flatMap (fun x => x.data), if k < r.1.length then some (64 * k) else none), r.2)

/-- Everything that LOAD_CONSIST reads. -/
structure Images where
  img : List Byte
  imgPz : Option Nat
  ft : List Byte
  ftPz : Option Nat
  vt : List Byte
  vtPz : Option Nat
  deriving DecidableEq, Repr

/-- Read the images. -/
def readImages (s : State) (m : Msg) : Images × State :=
  let a := imageRead s (ldImage m) (ldLen m)
  let b := if ldFtab m = 0 then (([], none), a.2) else imageRead a.2 (ldFtab m) 131072
  let vn := ldVbytes m
  let c := if vn = 0 then (([], none), b.2) else imageRead b.2 (ldVtab m) vn
  (⟨a.1.1, a.1.2, b.1.1, b.1.2, c.1.1, c.1.2⟩, c.2)

/-- The parts of an image, by cluster. -/
def partsOf (img : List Byte) : List Part :=
  (List.range 256).filterMap (fun lc =>
    let o := byteField img (8 * lc) 8
    if o = 0 then none
    else
      let h := byteField img o 64
      some ⟨lc, o, h, (img.drop o).take (partLen (headerOf h).cmdN)⟩)

/-- The tensors and groups of a version-table image. -/
def imageTensors (m : Msg) (x : Images) : List VtEntry := (List.range (ldNt m)).map (fun i => vtConfig (byteField x.vt (64 * i) 64))
def imageGroups (m : Msg) (x : Images) : List Group :=
  (List.range (ldGroups m)).map (fun i => groupConfig (byteField x.vt (64 * (ldNt m + i)) 64))

/-- The first error of the images, object by object: consist image, function tables, version table. -/
def imagesErr (s : State) (m : Msg) (x : Images) : Option BadAt :=
  let ps := partsOf x.img
  (x.imgPz.map (fun o => (⟨2, none, none, o⟩ : BadAt))).or <|
  (directoryErr x.img (ldLen m)).or <|
  (ps.findSome? (partErr s (imageTensors m x) (imageGroups m x))).or <|
  (ps.findSome? (tableErr (tableValid x.ft))).or <|
  (x.ftPz.map (fun o => (⟨3, none, none, o⟩ : BadAt))).or <|
  (ftabErr x.ft).or <|
  (x.vtPz.map (fun o => (⟨4, none, none, o⟩ : BadAt))).or <|
  vtabErr x.vt (ldNt m) (ldGroups m)

/-- A cluster as LOAD_CONSIST leaves it (R94, R116, R125, R185, R237): its OFF banks powered up, its commands at offset 0 of the sequencer
memory, its parameters from the block, its event counters at 0. -/
def loadCluster (p : Part) (ft : Memory) (c : Cluster) : Cluster :=
  let h := headerOf p.hdr
  let prm := (List.range 240 ++ [248]).filterMap (fun r =>
    let v := byteField p.bytes (64 + 8 * r) 8
    if v = 0 then none else some (r, v))
  let mem := powerUpBanks c.mem
  { Cluster.reset with
    opx := { Opx.reset with ramp := headerRamp p.hdr, saveBase := headerSave p.hdr }
    seq := { Seq.reset with hdr := h, prm := prm }
    log := { SeqLog.reset with gForce := h.guard }
    mem := { mem with seqm := memWrite mem.seqm 0 (p.bytes.drop 2112), seqEcc := spKeep (fun g => decide (2 * h.cmdN ≤ g)) mem.seqEcc }
    vr := { VecRow.reset with ftab := ft }
    inConsist := true }

/-- Number the non-default entries of a list. -/
def sparseOf {α : Type} [DecidableEq α] (d : α) (l : List α) : Sparse α :=
  (List.range l.length).filterMap (fun i => let x := l.getD i d; if x = d then none else some (i, x))

/-- The whole effect of a LOAD_CONSIST that passes (R116, R185, R211, R223, R224). -/
def loadImages (s : State) (m : Msg) (x : Images) : State :=
  let ps := partsOf x.img
  let ft := memWrite [] 0 x.ft
  let s := ps.foldl (fun s p => modCluster s p.lc (loadCluster p ft)) s
  let mons := (List.range 16).map (fun k => monConfig (byteField x.img (0x800 + 64 * k) 64))
  { s with
    prog :=
      { Prog.reset with
        loaded := true, parts := ps.map (fun p => (p.lc, ldImage m + p.off)), ftab := ldFtab m, vtab := ldVtab m, mons := ldImage m + 0x800
        digests := ps.map (fun p => (p.lc, sha512 p.bytes)), ftabDigest := if ldFtab m = 0 then 0 else sha512 x.ft }
    train := { s.train with vt := sparseOf .reset (imageTensors m x), groups := sparseOf .reset (imageGroups m x), mons := sparseOf .reset mons,
                            sent := [], stopOwed := [] }
    su := { s.su with vtDigest := if x.vt.isEmpty then none else some (sha512 x.vt) }
    ckpt := { s.ckpt with restored := none, verify := none } }

/-- The end of LOAD_CONSIST (R32, R341, R348). -/
def finishLoad (s : State) (m : Msg) : State :=
  if s.op ≠ .idle then finishState s m
  else
    let r := readImages s m
    match imagesErr r.2 m r.1 with
    | some b => finishBad r.2 m b
    | none =>
      if (partsOf r.1.img).any (fun p => !(lcEntry s p.lc).mapped) then finish r.2 m stEXHAUST 1 0
      else finish (setOp (loadImages r.2 m r.1) .loaded) m stOK 0 0

/-! PATCH_PRM -/

/-- One entry of a PATCH_PRM (R349): cluster, ALL, register, value. -/
structure Patch where
  lc : Nat
  all : Bool
  reg : Nat
  value : Nat
  deriving DecidableEq, Repr

/-- Entry i. -/
def patchAt (m : Msg) (i : Nat) : Patch :=
  let o := 64 + 128 * i
  ⟨mb m o 8, mb m (o + 8) 1 == 1, mb m (o + 16) 8, mb m (o + 64) 64⟩

/-- Clusters that a patch names. -/
def patchLcs (s : State) (p : Patch) : List Nat := if p.all then consistLcs s else (consistLcs s).filter (fun lc => lc == p.lc)

/-- The commands of a loaded cluster. -/
def loadedCmds (s : State) (lc : Nat) : List PCmd :=
  let c := cluster s lc
  splitCmds 0 0 ((List.range c.seq.hdr.cmdN).map (fetchCmd c))

/-- Does a patch give cluster lc a value that R44, R103 or R113 refuses (R125)? Its register is judged wherever a command reads it when no PRM command of
the part writes it. The values that the run forms from the patches `ps`, staged and of this message, are judged from ENTRY before START, and from the next
DATUM on a run in progress. -/
def patchedErr (s : State) (lc : Nat) (p : Patch) (ps : List (Nat × Nat)) : Bool :=
  let c := cluster s lc
  let cs := loadedCmds s lc
  let still (r : Nat) : Option Nat := if r = p.reg ∧ !(prmWritten cs r) then some p.value else none
  let at_ (f : Nat → Nat) (pc : Nat) (stage : List (Nat × Nat)) : Sim :=
    { pc := pc, prm := simPrm lc f, cnt := c.seq.cnt.map (fun x => (x.1, some x.2))
      cmp := (List.range 8).filterMap (fun k => if natBits c.seq.cmp k 1 = 1 then some (k, some true) else none), stage := stage, errs := [] }
  let sim := if s.op = .loaded then
      { at_ (fun r => (ps.reverse.find? (fun x => x.1 == r)).elim (spGet 0 c.seq.prm r) (fun x => x.2)) c.seq.hdr.entry [] with cnt := [], cmp := [] }
    else at_ (spGet 0 c.seq.prm) (if c.seq.wait = .record then c.seq.pc + 1 else c.seq.pc) ps
  cs.any (fun c => (prmBad c.raw still).isSome) || !(simRun cs simFuel sim).errs.isEmpty

/-- The body bit of the first field in error of entry i, `all` the entries of the message (R44, R103, R113, R125). -/
def patchBad (s : State) (all : List Patch) (i : Nat) (p : Patch) : Option Nat :=
  let o := 64 + 128 * i
  let staged (lc : Nat) : List (Nat × Nat) :=
    (cluster s lc).seq.staged.map (fun x => (x.1, x.2 - 1)) ++
      ((all.take (i + 1)).filter (fun q => (patchLcs s q).contains lc)).map (fun q => (q.reg, q.value))
  firstBroken [(o, (patchLcs s p).isEmpty), (o + 16, decide (239 < p.reg) && p.reg ≠ 251),
    (o + 64, (patchLcs s p).any (fun lc => patchedErr s lc p (staged lc)))]

/-- PATCH_PRM (R349): every entry is checked before any is staged; a later patch of a register replaces an earlier one (R125). -/
def execPatchPrm (m : Msg) (s : State) : Res :=
  let n := mb m 0 8
  let ps := (List.range n).map (patchAt m)
  let fs := (0, 8) :: (List.range n).flatMap (fun i => let o := 64 + 128 * i; [(o, 9), (o + 16, 8), (o + 64, 64)])
  .next (takeCommand s m 0x0021 (fun s =>
    if n = 0 ∨ 6 < n then badArg s m (inBody 0)
    else checkBody s m fs (fun s =>
      match (List.range n).findSome? (fun i => patchBad s ps i (patchAt m i)) with
      | some b => badArg s m (inBody b)
      | none =>
        let s := ps.foldl (fun s p => (patchLcs s p).foldl (fun s lc => modCluster s lc (fun c =>
          { c with seq := { c.seq with staged := spPut c.seq.staged p.reg (p.value + 1) } })) s) s
        ok s m 0 0)))

/-! START -/

/-- Is some tablet of a cluster of the consist MARCH (R242)? -/
def anyMarch (s : State) : Bool := (consistLcs s).any (fun lc => (cluster s lc).mem.tab.any (fun e => e.2 == 1))

/-- Clear what halted groups and outstanding SYNCs an earlier run left. -/
def freshRun (s : State) : State :=
  let s := [0, 1, 2, 3].foldl (fun s k => modSection s k (fun x => { x with haltedGroups := [] })) s
  { s with prog := { s.prog with sync := [], syncDone := 0, replayN := 0 }, train := { s.train with stopOwed := [] },
           ckpt := { s.ckpt with mute := false } }

/-- START (R345): every cluster begins at ENTRY. -/
def execStart (m : Msg) (s : State) : Res :=
  .next (takeArgs s m 0x0022 [] (fun s =>
    if anyMarch s then stateRefused s m
    else
      let s := setOp (freshRun { s with ckpt := s.ckpt.beginStep s.clk.aon }) .running
      ok ((consistLcs s).foldl (fun s lc => startCluster s lc) s) m 0 0))

/-! PAUSE -/

/-- Ask every cluster to pause (R90): it stops issue at the next rank-one boundary, whose issue-cycle count it keeps. -/
def requestPause (s : State) : State :=
  (consistLcs s).foldl (fun s lc => modCluster s lc (fun c =>
    setHold { c with pausing := true, pausedOk := false, opx := { c.opx with issueAt := issueCount c } })) s

/-- PAUSE: the completion is owed until every cluster is paused (R345). A second PAUSE finds the resource held. -/
def execPause (m : Msg) (s : State) : Res :=
  .next (takeArgs s m 0x0023 [] (fun s =>
    if s.mb.pauseOf.isSome then busy s m 1
    else
      let s := requestPause s
      reserve { s with mb := { s.mb with pauseOf := some m } } m))

/-- The completion that a PAUSE owes: OK, or STATE_REFUSED when the module has left RUNNING otherwise (R341). -/
def answerPause (s : State) : State :=
  match s.mb.pauseOf with
  | none => s
  | some m =>
    let s := { s with mb := { s.mb with pauseOf := none } }
    if s.op = .paused then fulfil s m stOK 0 0 else fulfil (countRefusal s stSTATE) m stSTATE 1 (stateBits s)

/-- Address of a bank's save area (R91). -/
def saveArea (c : Cluster) (bank : Bool) : Nat := c.opx.saveBase * 4096 + (if bank then 0x22000 else 0)

/-- What the header of a bank's save says (R90 step 1, Table 3-11): the open pass into it that has done an update, and the issue-cycle count. -/
def saveInfo (o : Opx) (bank : Bool) : SaveInfo :=
  let hit (x : OpenPass) : Option (Nat × Nat × Nat) :=
    if passBank x.e.raw == bank && decide (0 < x.done) then some (x.done - 1, x.e.idx, cStream x.e.raw) else none
  ⟨o.issueAt, (o.open0.bind hit).or (o.open1.bind hit)⟩

/-- Save one bank (R90 step 4): tag 0xF, poison clear; the bank is cleared and its parity flips (Table 3-4). The cleared bank keeps its
count of updates and the time of the first since its last drain or survey, so that a survey that is due stays due (R84, R496). -/
def saveBank (lc : Nat) (bank : Bool) (c : Cluster) : Cluster :=
  let b := bankOfB c.opx bank
  let ps := (imageParts b bank lc (saveInfo c.opx bank)).flatMap (fun p => runPieces (saveArea c bank + p.1) p.2 false)
  let c := spWriteAll c ps 0xF
  { c with opx := setBank c.opx bank (keepCounts b (Bank.clear (!b.parity))) }

/-- May the cluster save (R90 step 4, R496)? Its conveyor has completed what has issued, and no clamp or survey goes first; a stopped cluster owes nothing. -/
def mayPause (c : Cluster) : Bool :=
  c.pausing && c.opx.hold == 3 && (c.seq.stop.isSome || (c.opx.conv.isEmpty && c.opx.convWait.isEmpty))

/-- CLUSTER_PAUSED (R90): both banks are saved, A before B; the module is PAUSED once every cluster is. -/
def execClusterPaused (lc : Nat) (s : State) : Res :=
  let c := cluster s lc
  if s.op ≠ .running ∨ !c.inConsist ∨ !(mayPause c) then .next s
  else
    let s := modCluster s lc (fun c =>
      let c := saveBank lc true (saveBank lc false c)
      { c with pausing := false, pausedOk := true, opx := { c.opx with paused := true } })
    if (consistLcs s).all (fun lc => (cluster s lc).pausedOk) then .next (flushEvents (answerPause (setOp s .paused))) else .next s

/-! RESUME -/

/-- Restore one bank (R92); none when its header does not check. -/
def restoreBank (lc : Nat) (bank : Bool) (c : Cluster) : Option Cluster :=
  let base := saveArea c bank
  let live := natBits (memLe c.mem.sp (base + 0x21000) 64) 8 1 == 1
  let ws := if live then imageWords base else unitsOf 64 (base + 0x21000) 64
  (readImage c.mem.sp base lc).map (fun b =>
    let pz := !(poisonedOf c.mem ws).isEmpty
    let old := bankOfB c.opx bank
    let b := normInt (if b.live then { b with firstAon := old.firstAon } else keepCounts old b)
    let b := if b.live then { b with status := orBit (orBit b.status tsRESUMED true) tsPOISON pz } else b
    { c with opx := setBank c.opx bank b, mem := spTouchAll c.mem (chunks 8 ws) })

/-- An open pass goes on at the update after the one that its bank's header names (R92). One that had done none when the cluster paused is in no header. -/
def restorePass (i : SaveInfo) (x : Option OpenPass) : Option OpenPass :=
  match x with
  | none => none
  | some x =>
    if x.done = 0 then some x
    else match i.pass with
      | some (k, idx, st) => if idx = x.e.idx ∧ st = cStream x.e.raw then some { x with done := k + 1 } else none
      | none => none

/-- The passes and the issue-cycle count that the headers restore (R92): the array has ramped, so its rows are enabled at that count. -/
def restoreIssue (c : Cluster) : Cluster :=
  let a := readSaveInfo c.mem.sp (saveArea c false)
  let b := readSaveInfo c.mem.sp (saveArea c true)
  let of (x : Option OpenPass) : Option OpenPass := x.bind (fun y => restorePass (if passBank y.e.raw then b else a) (some y))
  { c with
    opx := { c.opx with open0 := of c.opx.open0, open1 := of c.opx.open1, rowsOn := some a.issue, idle := false }
    seq := { c.seq with icyc := a.issue } }

/-- RESUME lets a cluster past the DATUM before whose record it stopped (R345). -/
def letStep (c : Cluster) : Cluster := if c.seq.wait = .step then { c with seq := { c.seq with wait := .run } } else c

/-- One cluster resumes (R345): restored after a PAUSE, or set to replay when a header does not check; let past the DATUM at which it
stopped; or replayed after a faulted step, in normal timing (R368). A clamp in progress goes first (R79). A number that lost its physical
cluster (R32, R370) has nothing to resume. -/
def resumeCluster (s : State) (lc : Nat) : State :=
  let c := cluster s lc
  if s.op ≠ .running ∨ !(lcEntry s lc).mapped then s
  else if c.pausedOk then
    if c.opx.hold = 1 then s
    else
      let s := modCluster s lc (fun c => setHold { c with pausedOk := false, pausing := false, opx := { c.opx with paused := false } })
      match (restoreBank lc false (cluster s lc)).bind (restoreBank lc true) with
      | some c => dispatch (setCluster s lc (letStep (restoreIssue c))) lc
      | none => stopWith s lc .resumeFail
  else if c.seq.stop = some .faulted then replayCluster s lc c.seq.icyc false c.log.gForce
  else modCluster s lc letStep

/-- RESUME: PAUSED to RUNNING. A cluster that has still to stop for an abort does so at its next DATUM with STEP = 1 (R229). -/
def execResume (m : Msg) (s : State) : Res :=
  .next (takeArgs s m 0x0024 [] (fun s =>
    let s := setOp s .running
    ok ((consistLcs s).foldl resumeCluster s) m 0 0))

/-! STOP and the end of a consist -/

/-- The words of both save areas take tag 0 and poison. -/
def dropSaves (c : Cluster) : Cluster :=
  { c with mem := { c.mem with wmeta := spKeep (fun w => !(inSaveArea c.opx.saveBase (64 * w))) c.mem.wmeta } }

/-- A cluster back before ENTRY (R345): queues, banks and save areas discarded. -/
def stopOne (c : Cluster) : Cluster :=
  let c := dropSaves (discardWork c)
  setHold { c with seq := { c.seq with pc := 0, wait := .start, stop := none, loops := [], st0 := .reset, st1 := .reset } }

/-- The consist is released (R345): its clusters, function tables, version table, commit groups, monitors and flow contexts. DRAM stays. -/
def releaseConsist (s : State) : State :=
  let off (c : Cluster) : Cluster :=
    { c with seq := Seq.reset, log := SeqLog.reset, vr := { c.vr with ftab := [], drain := [], busy := [], ctxs := [] }, handles := [], inConsist := false,
             pausing := false, pausedOk := false }
  { s with
    cl := s.cl.map (fun e => if e.2.inConsist then (e.1, off (stopOne e.2)) else e)
    prog := .reset
    train := { s.train with vt := [], groups := [], mons := [], sent := [], stopOwed := [] }
    fab := { s.fab with flows := s.fab.flows.map (fun e => (e.1, { e.2 with valid := false, fopen := false })), stages := [], owns := [], results := [] }
    su := { s.su with vtDigest := none }
    ckpt := { s.ckpt with restored := none, verify := none, mute := false, fetch := [] } }

/-- STOP (R345). A PAUSE that had not completed has no effect (R341). -/
def execStop (m : Msg) (s : State) : Res :=
  .next (takeArgs s m 0x0025 [] (fun s =>
    if s.op = .loaded then ok (setOp (releaseConsist s) .idle) m 0 0
    else
      let s := (consistLcs s).foldl (fun s lc => modCluster s lc stopOne) s
      ok (answerPause (setOp s .loaded)) m 0 0))

/-- CONSIST_END (R345): every cluster has retired its last command. -/
def execConsistEnd (s : State) : Res :=
  let lcs := consistLcs s
  if s.op = .running ∧ s.prog.loaded ∧
      lcs.all (fun lc => (cluster s lc).seq.wait == .done && quiet (cluster s lc) && (cluster s lc).seq.stop.isNone) then
    let s := lcs.foldl (fun s lc => modCluster s lc (fun c => setHold { c with seq := { c.seq with wait := .start }, pausing := false })) s
    let s := logEvent (setOp s .loaded) 0x000C 7 7 0 noLink 0
    .next (flushEvents (answerPause s))
  else .next s

end Sys2Proof.Machine
end

