-- ==== Sys2Proof/Machine/Tap.lean ====
section
/-! DEFINITION. The test access port (R459, R460, Table 16-10). -/

namespace Sys2Proof.Machine

/-- Change the port. -/
def modTap (s : State) (f : Tap → Tap) : State := { s with tap := f s.tap }

/-- An instruction comes into force; the pins return to function (Table 16-10). -/
def tapSelect (s : State) (op : Nat) (dr : Nat) : State := modTap s (fun t => { t with ir := op, dr := BitVec.ofNat 128 dr, drive := false })

/-- An instruction that the state does not permit acts as BYPASS; DBG_STATUS shows STATE_REFUSED (R459). -/
def tapRefuse (s : State) : State := modTap (tapSelect s 0xFF 0) (fun t => { t with status := stSTATE })

/-- Does AON run, which holds the port? -/
def tapRuns (s : State) : Bool := s.boot.phase != .off

/-- Do instructions other than IDCODE, BYPASS and DBG_STATUS act (R459)? -/
def tapFull (s : State) : Bool := s.op != .boot && s.op != .scrubbing && s.op != .sl2 && s.op != .sl3

/-- Run an instruction when it is permitted. -/
def tapWhen (s : State) (b : Bool) (f : State → State) : Res :=
  if !(tapRuns s) then .next s else if b then .next (f s) else .next (tapRefuse s)

/-- EXTEST: OPEN and IDLE only; the preloaded values drive the pins. -/
def execExtest (s : State) : Res :=
  tapWhen s (tapFull s && s.sec == .sopen && s.op == .idle) (fun s => modTap (tapSelect s 0x00 0) (fun t => { t with drive := true }))

/-- IDCODE. -/
def execIdcode (s : State) : Res := tapWhen s true (fun s => tapSelect s 0x01 0x101536B7)

/-- SAMPLE/PRELOAD: OPEN only. It captures the pins; the spec gives the boundary register no layout, so what its bits hold is a free value (log 6). -/
def execSamplePreload (preload : List Bool) (s : State) : Res :=
  tapWhen s (tapFull s && s.sec == .sopen) (fun s =>
    let d := drawFree 0 (2 ^ 128 - 1) s
    modTap (tapSelect d.2 0x02 d.1) (fun t => { t with preload := preload }))

/-- DBG_STATUS (Table 16-10). -/
def execDbgStatus (s : State) : Res :=
  tapWhen s true (fun s => tapSelect s 0x10 (packFields [(s.op.code, 4), (s.sec.code, 2), (s.dbg, 2), (s.tap.status, 8)]))

/-- STATUS and DATA of an access stand for the next Capture-DR (R460), as long as DBG_ACCESS is the instruction. -/
def dbgAnswer (s : State) (dr : BitVec 128) (status data : Nat) : State :=
  modTap s (fun t => { t with
    status := status
    dr := if t.ir = 0x11 then BitVec.ofNat 128 (packFields [(bits dr 0 48, 48), (b2n (bitAt dr 48), 1), (0, 7), (status, 8), (data, 64)]) else t.dr })

/-- An access that ends at once. -/
def dbgEnd (s : State) (dr : BitVec 128) (status data : Nat) : State := dbgAnswer (tapSelect s 0x11 0) dr status data

/-- Does the debug level reach a register class (Table 16-10)? At DBG0 no debug access exists (R453). -/
def dbgReaches (s : State) (k : Nat) : Bool := decide ((if k ≤ 1 then 1 else 2) ≤ s.dbg)

/-- DBG_HALT: acts as PAUSE in RUNNING at DBG2 (R345); no completion is owed. -/
def execDbgHalt (s : State) : Res :=
  tapWhen s (s.op == .running && s.dbg == 2) (fun s => requestPause (modTap (tapSelect s 0x12 0) (fun t => { t with status := stOK })))

/-- Vendor analysis, at DBG3 only: the spec gives its data register no content, so it is a free value. Another opcode is BYPASS or another row's. -/
def execVendorAnalysis (op : BitVec 8) (s : State) : Res :=
  if op.toNat < 0x20 ∨ 0x3F < op.toNat then .next s
  else tapWhen s (tapFull s && s.dbg == 3) (fun s =>
    let d := drawFree 0 (2 ^ 128 - 1) s
    tapSelect d.2 op.toNat d.1)

/-- TRST# low (R459, Table 18-3): the test reset of IEEE 1149.1, after which IDCODE is the instruction; the opcode table has no row for the pin. -/
def testReset (s : State) : State := modTap (tapSelect s 0x01 0x101536B7) (fun t => { t with preload := [] })

/-- The opcodes of Table 16-10 other than BYPASS. -/
def tapListed (op : Nat) : Bool :=
  op == 0 || op == 1 || op == 2 || op == 0x10 || op == 0x11 || op == 0x12 || (decide (0x20 ≤ op) && decide (op ≤ 0x3F))

/-- BYPASS, and every opcode that is not listed. -/
def execBypass (op : BitVec 8) (s : State) : Res :=
  if tapListed op.toNat then .next s else tapWhen s true (fun s => tapSelect s 0xFF 0)

end Sys2Proof.Machine
end

