-- ==== Sys2Proof/Machine/HostAccess.lean ====
section
/-! DEFINITION. The aperture (R329 to R331): the mailbox page (R332, R333), the hub register view (R330), host windows, and register writes by
access code (R7). -/

namespace Sys2Proof.Machine

/-- Change the mailbox. -/
def modMb (s : State) (f : Mailbox → Mailbox) : State := { s with mb := f s.mb }

/-! Mailbox page registers (Table 12-2) -/

/-- Host window n. -/
def hwinOf (s : State) (n : Nat) : HWin := spGet .reset s.mb.hwin n

/-- Change a host window. -/
def modHwin (s : State) (n : Nat) (f : HWin → HWin) : State := modMb s (fun m => { m with hwin := spMod .reset m.hwin n f })

/-- The refusal counter of a status code. -/
def refuseN (s : State) (st : Nat) : Nat := spGet 0 s.mb.refuse st

/-- The registers of ring r. -/
def ringReg (s : State) (r k : Nat) : Nat :=
  let g := ringOf s r
  match k with
  | 0 => g.base * 2 ^ 15
  | 1 => g.prod
  | 2 => g.cons
  | _ => if 4 ≤ r then packFields [(b2n g.irqEn, 1), (0, 1), (g.irqAddr, 45)] else 0

/-- The registers of host window n. -/
def hwinReg (s : State) (n k : Nat) : Nat :=
  let w := hwinOf s n
  match k with
  | 0 => w.base * 4096
  | 1 => w.size
  | 2 => packFields [(b2n w.en, 1), (b2n w.rd, 1), (b2n w.wr, 1), (b2n w.refused, 1)]
  | _ => 0

/-- MB_STAT. -/
def mbStat (s : State) : Nat :=
  packFields [(s.op.code, 4), (s.sec.code, 2), (s.dbg, 2), (b2n s.mb.serviceUp, 1), (b2n s.faultPin, 1), (longN s, 5)]

/-- The register at an aligned offset of the mailbox page; other offsets read 0. -/
def mbReg (s : State) (o : Nat) : Nat :=
  if o = 0 then b2n s.mb.en
  else if o = 8 then mbStat s
  else if o = 0x10 then
    packFields [(refuseN s stSTATE, 16), (refuseN s stBADARG, 16), (refuseN s stNOTAUTH, 16), (refuseN s stUNSUPP, 16)]
  else if o = 0x18 then packFields [(refuseN s stBUSY, 16), (refuseN s stEXHAUST, 16), (refuseN s stSEQ, 16), (refuseN s stCHECK, 16)]
  else if o = 0x20 then packFields [(s.mb.repeatN, 16), (s.mb.evtLost, 16), (s.mb.apertureN, 16), (s.mb.idxBad, 16)]
  else if inReg o 0x100 0xC0 then ringReg s ((o - 0x100) / 0x20) (o % 0x20 / 8)
  else if inReg o 0x400 0x200 then hwinReg s ((o - 0x400) / 0x20) (o % 0x20 / 8)
  else 0

/-! Writes of the mailbox page -/

/-- The rings as a rise of EN or RST leaves their first-message rule (R336). -/
def armFirst (s : State) : State := [0, 1, 2, 3, 4, 5].foldl (fun s r => modRing s r (fun g => { g with first := true })) s

/-- A write of MB_CTL.EN (R332, R336). -/
def setEn (s : State) (en : Bool) : State :=
  let s := if en && !s.mb.en then armFirst s else s
  flushEvents (modMb s (fun m => { m with en := en }))

/-- A write of 1 to MB_CTL.RST, which acts while EN = 0. -/
def ringsReset (s : State) : State :=
  if s.mb.en then s
  else armFirst ([0, 1, 2, 3, 4, 5].foldl (fun s r => modRing s r (fun g => { g with prod := 0, cons := 0, sigd := 0 })) s)

/-- An index write that would make PROD − CONS exceed 256 is ignored and counted (R333). -/
def badIndex (s : State) : State := modMb s (fun m => { m with idxBad := satAdd 16 m.idxBad 1 })

/-- A write of RING_PROD of a command ring: the doorbell. -/
def writeProd (s : State) (r v : Nat) : State :=
  if 256 < (v + 512 - (ringOf s r).cons) % 512 then badIndex s else modRing s r (fun g => { g with prod := v })

/-- A write of RING_CONS of ring 4 or 5; freed entries let queued events be posted. -/
def writeCons (s : State) (r v : Nat) : State :=
  if 256 < ((ringOf s r).prod + 512 - v) % 512 then badIndex s else flushEvents (modRing s r (fun g => { g with cons := v }))

/-- May the window open in the present security state (R331)? -/
def hwinMay (s : State) (w : HWin) : Bool :=
  let lo := w.base * 4096
  let hi := lo + w.size * 4096 - 1
  decide (1 ≤ w.size) && decide (w.size ≤ 2 ^ 24) &&
  ((decide (hi < 0x060000000000) && rangeMapped w.base (w.base + w.size - 1)) ||
    (decide (0x700000000000 ≤ lo) && decide (hi < 0x700100000000))) &&
  s.op != .scrubbing && (s.sec != .sealed || inExchange s lo hi)

/-- A write of HWIN_CTL.EN = 1 to a closed window. -/
def openHwin (s : State) (n : Nat) (rd wr : Bool) : State :=
  if (hwinOf s n).en then s
  else
    let may := hwinMay s (hwinOf s n)
    modHwin s n (fun w => { w with en := may, rd := rd, wr := wr, refused := !may })

/-- A write of HWIN_CTL: an open window can only be closed (Table 12-2). -/
def writeHwinCtl (s : State) (n v : Nat) : State :=
  if tbit v 0 then openHwin s n (tbit v 1) (tbit v 2)
  else if (hwinOf s n).en then modHwin s n (fun w => { w with en := false })
  else modHwin s n (fun w => { w with rd := tbit v 1, wr := tbit v 2 })

/-- Close the open windows that satisfy `p` (R331, R449, Table 16-6). -/
def closeHwins (s : State) (p : HWin → Bool) : State :=
  (List.range 16).foldl (fun s n => if (hwinOf s n).en && p (hwinOf s n) then modHwin s n (fun w => { w with en := false, refused := true }) else s) s

/-- An aligned 8-byte write of the mailbox page. -/
def mbWrite (s : State) (o v : Nat) : State :=
  if o % 8 ≠ 0 then s
  else if o = 0 then
    let t := if tbit v 1 then ringsReset s else s
    if tbit v 0 = s.mb.en then t else setEn t (tbit v 0)
  else if inReg o 0x100 0xC0 then
    let r := (o - 0x100) / 0x20
    match o % 0x20 / 8 with
    | 0 => if s.mb.en then s else modRing s r (fun g => { g with base := natBits v 15 32 })
    | 1 => if r < 4 then hostActivity (writeProd s r (natBits v 0 9)) true else s
    | 2 => if r < 4 then s else writeCons s r (natBits v 0 9)
    | _ => if r < 4 then s else modRing s r (fun g => { g with irqEn := tbit v 0, irqAddr := natBits v 2 45 })
  else if inReg o 0x400 0x200 then
    let n := (o - 0x400) / 0x20
    match o % 0x20 / 8 with
    | 0 => if (hwinOf s n).en then s else modHwin s n (fun w => { w with base := natBits v 12 36 })
    | 1 => if (hwinOf s n).en then s else modHwin s n (fun w => { w with size := natBits v 0 25 })
    | 2 => writeHwinCtl s n v
    | _ => s
  else s

/-- Does the companion reach the aperture? -/
def apertureUp (s : State) : Bool := s.link.up && powered s

/-- MB_CTL_EN (R332). -/
def execMbCtlEn (en : Bool) (s : State) : Res :=
  if apertureUp s && en != s.mb.en then .next (setEn s en) else .next s

/-- MB_CTL_RST (R332). -/
def execMbCtlRst (s : State) : Res := if apertureUp s then .next (ringsReset s) else .next s

/-- DOORBELL (R333, R344). -/
def execDoorbell (ring : Nat) (prod : BitVec 9) (s : State) : Res :=
  if apertureUp s && decide (ring < 4) then .next (hostActivity (writeProd s ring prod.toNat) true) else .next s

/-- RING_CONS_WRITE (R333). -/
def execRingConsWrite (ring : Nat) (cons : BitVec 9) (s : State) : Res :=
  if apertureUp s && (ring == 4 || ring == 5) then .next (writeCons s ring cons.toNat) else .next s

/-- RING_IRQ_WRITE (R333): PROD | (r << 16) to IRQ_ADDR, at most once in 4 µs (200 AON cycles). -/
def execRingIrqWrite (ring : Nat) (s : State) : Res :=
  let g := ringOf s ring
  let due := match g.irqAt with
    | none => true
    | some t => decide (t + 200 ≤ s.clk.aon)
  if apertureUp s && (ring == 4 || ring == 5) && g.irqEn && g.prod != g.sigd && due then
    let now := s.clk.aon
    let s := { s with comp := compWrite s.comp (g.irqAddr * 4) (leBytes 4 (g.prod + 65536 * ring)) false }
    .next (modRing s ring (fun g => { g with sigd := g.prod, irqAt := some now }))
  else .next s

/-- HWIN_OPEN (R331). -/
def execHwinOpen (n : Nat) (rd wr : Bool) (s : State) : Res :=
  if apertureUp s && decide (n < 16) then .next (openHwin s n rd wr) else .next s

/-! Register writes by firmware -/

/-- May firmware write OPX_CTL of a cluster (R94)? -/
def opxMay (s : State) (lc : Nat) : Bool := (s.op != .running && s.op != .paused) || (cluster s lc).seq.stop.isSome

/-- A write of OPX_CTL; a reserved RAMP, or a SAVE_BASE above 0x3BC, changes nothing (log 31). -/
def writeOpxCtl (s : State) (lc v : Nat) : State :=
  if !(opxMay s lc) || decide (4 < natBits v 0 3) || decide (0x3BC < natBits v 4 10) then s
  else modCluster s lc (fun c => { c with opx := { c.opx with ramp := natBits v 0 3, saveBase := natBits v 4 10 } })

/-- A write of a bank register (Table 9-4). -/
def writeSp (s : State) (lc k v : Nat) : State :=
  let now := s.clk.aon
  if k < 3 then writeTablets s lc k v
  else modMem s lc (fun m =>
    match k with
    | 3 => { m with retain := v }
    | 4 => { m with armMask := v }
    | 5 =>
      { m with sideRet := natBits v 0 4, seqRet := natBits v 4 8, armedAt := if tbit v 12 && !m.arm then now else m.armedAt, arm := tbit v 12 }
    | _ => m)

/-- A write of PORT_CFG or PORT_MAC (Table 11-11). -/
def writePort (s : State) (p k v : Nat) : State :=
  modPort s p (fun q =>
    match k with
    | 0 => { q with etype := natBits v 0 16, en := tbit v 16, vlanEn := tbit v 17, pcp := natBits v 18 3, vid := natBits v 21 12 }
    | 1 => { q with mac := natBits v 0 48 }
    | _ => q)

/-- A write of a check-value unit's register. -/
def writeCv (s : State) (u k v : Nat) : State :=
  modCv s u (fun c =>
    match k with
    | 0 => cvSetCfg v c
    | 1 => cvSetPoly v c
    | 2 => { c with init := v }
    | 3 => { c with value := v }
    | 5 => cvFeedBytes (leBytes 8 v) c
    | _ => c)

/-- A write of the hub register at an aligned offset by stationmaster firmware: fields of access code RW or WO take it, others ignore it (R7). -/
def hubWrite (s : State) (o v : Nat) : State :=
  if o % 8 ≠ 0 then s
  else if inReg o 0x200000 0x4000 then (if o % 0x40 = 0 then writeOpxCtl s ((o - 0x200000) / 0x40) v else s)
  else if inReg o 0x600000 0x4000 then writeSp s ((o - 0x600000) / 0x40) (o % 0x40 / 8) v
  else if inReg o 0xA00000 0x800 then writePort s ((o - 0xA00000) / 0x100) (o % 0x100 / 8) v
  else if inReg o 0xD00000 0x200 then writeCv s ((o - 0xD00000) / 0x40) (o % 0x40 / 8) v
  else if o = 0xF10010 then { s with slp := { s.slp with cfg := natBits v 0 23 } }
  else s

/-- REGISTER_WRITE (R7): by the host driver at a mailbox page offset, by firmware at a hub register address. -/
def execRegisterWrite (host : Bool) (addr : Nat) (value : Word64) (s : State) : Res :=
  if host then (if apertureUp s then .next (mbWrite s addr value.toNat) else .next s)
  else if hubRuns s && s.boot.phase == .up && decide (0x7F0000000000 ≤ addr) then .next (hubWrite s (addr - 0x7F0000000000) value.toNat)
  else .next s

/-! Companion accesses -/

/-- Keep what a read delivered. -/
def deliver (s : State) (l : List Byte) (poison : Bool) : State := { s with out := ⟨l, poison⟩ }

/-- An access that no row of the aperture map covers (R329). -/
def uncovered (s : State) (acc : Access) : State :=
  let s := countAperture s
  match acc.data with
  | none => deliver s (zeros acc.len) true
  | some _ => s

/-- The 8-byte words of registers that an access of n bytes at o touches, through a register reader. -/
def wordsOf (rd : State → Nat → Nat × State) : List Nat → State → List Byte × State
  | [], s => ([], s)
  | w :: r, s =>
    let x := rd s (8 * w)
    let y := wordsOf rd r x.2
    (leBytes 8 x.1 ++ y.1, y.2)

/-- Read n register bytes at o. -/
def regBytes (rd : State → Nat → Nat × State) (s : State) (o n : Nat) : State :=
  let r := wordsOf rd (unitsOf 8 o n) s
  deliver r.2 ((r.1.drop (o % 8)).take n) false

/-- The device address that an access of n bytes at an aperture offset reaches through an open host window. -/
def hwinTarget (s : State) (off n : Nat) (write : Bool) : Option Nat :=
  if off < 0x10000000000 then none
  else
    let k := (off - 0x10000000000) / 0x1000000000
    let o := (off - 0x10000000000) % 0x1000000000
    let w := hwinOf s k
    if k < 16 ∧ w.en ∧ (if write then w.wr else w.rd) ∧ o + n ≤ w.size * 4096 then some (w.base * 4096 + o) else none

/-- Does a device address name the window of an unmapped logical cluster (R33)? -/
def unmappedAt (s : State) (a : Nat) : Bool :=
  match locate a with
  | .window lc _ => !(lcEntry s lc).mapped
  | _ => false

/-- Bytes that an access moves. -/
def accLen (acc : Access) : Nat :=
  match acc.data with
  | none => acc.len
  | some l => l.length

/-- Serve a request that the timetable admits. An access through a host window is charged to the HOST activity, and its write into a scratchpad
takes tag 0xE (R331); one that names an unmapped cluster is a defect of the driver (R33). A read of the register view is charged one unit of the bridge
from its section. A window access is charged to the scratchpad's background. A debug read leaves its data for the next Capture-DR, FAULTED with data 0
when it is poisoned (R460). -/
def serveReq (s : State) (r : TtReq) : State :=
  match r with
  | .host a acc =>
    let s := if unmappedAt s a then countAperture s else s
    let s := chargeDev s 4 8 a (accLen acc) acc.data.isSome
    match acc.data with
    | none =>
      let r := devRead s a acc.len
      deliver r.2 r.1.data r.1.poison
    | some l => devWrite s a l false 0xE
  | .view off acc => regBytes hubRead (chargeCells s 8 (TtReq.view off acc).cells 1) off acc.len
  | .window lc a tag acc =>
    let s := ttCharge s 3 lc (TtReq.window lc a tag acc).act (unitsOf 64 a (accLen acc)).length
    match acc.data with
    | none =>
      let r := devRead s a acc.len
      deliver r.2 r.1.data r.1.poison
    | some l => devWrite s a l false (tag.elim 0xE BitVec.toNat)
  | .debug a dr =>
    let r := devRead (chargeDev s 4 8 a 8 false) a 8
    if r.1.poison then dbgAnswer r.2 dr stFAULTED 0 else dbgAnswer r.2 dr stOK (ofLe r.1.data)

/-- Keep a request over budget, behind those that came before it: it is never dropped (R421). A debug read that waits shows BUSY (R460). -/
def keepReq (s : State) (r : TtReq) : State :=
  let s := waitCells s r.act r.cells
  let s := { s with tt := { s.tt with waiting := s.tt.waiting ++ [r] } }
  match r with
  | .debug _ dr => dbgAnswer s dr stBUSY 0
  | _ => s

/-- Does a bank at a recovery test hold the request (R241)? -/
def heldReq (s : State) (r : TtReq) : Bool :=
  match r with
  | .host a acc => heldRange s a (accLen acc)
  | .view _ _ => false
  | .window _ a _ acc => heldRange s a (accLen acc)
  | .debug a _ => heldRange s a 8

/-- A request comes: it is served now, or waits for the next period or for the bank that holds it. -/
def takeReq (s : State) (r : TtReq) : State := if admits s r.act r.cells && !(heldReq s r) then serveReq s r else keepReq s r

/-- Serve what waits, in arrival order, as far as the budgets admit it. -/
def serveWaiting (s : State) : State := s.tt.waiting.foldl takeReq { s with tt := { s.tt with waiting := [] } }

/-- The start of a period of an instance (R419, R421), once for each number that counter[63:12] takes: the clock has stood still where the number
has. The requests that wait are served again. The period of a cluster's scratchpad also moves its pace monitor on (R373): the newest of the last 64
periods begins at 0. -/
def execTimetablePeriod (kind inst : Nat) (s : State) : Res :=
  if ttInstances kind ≤ inst ∨ !(powered s) ∨ ttPeriod s kind inst = spGet 0 s.tt.periods (256 * kind + inst) then .next s
  else
    let last := spGet 0 s.tt.periods (256 * kind + inst)
    let s := { s with tt := { s.tt with periods := spSet 0 s.tt.periods (256 * kind + inst) (if last < ttPeriod s kind inst then last + 1 else ttPeriod s kind inst) } }
    let s := [0, 1, 2, 3, 4, 5, 7, 8].foldl (fun s a => if (ttPermille kind a).isSome then ttRefill s kind inst a else s) s
    let s := serveWaiting (if kind = 2 then flushPort s inst else if kind < 2 ∧ portsServe s then advanceAll s else s)
    .next (if kind = 3 ∧ (cluster s inst).inConsist then
      modCluster s inst (fun c => { c with log := { c.log with lost := (0 :: c.log.lost).take 64 } }) else s)

/-- The access itself, while the hub runs or for the mailbox page. -/
def apertureAccess (s : State) (off : Nat) (acc : Access) : State :=
  let n := accLen acc
  if off + n ≤ 0x10000 then
    match acc.data with
    | none => regBytes (fun s o => (mbReg s o, s)) s off n
    | some l => if n = 8 then mbWrite s off (ofLe l) else s
  else if !(hubRuns s) && s.op != .sl2 then s
  else if 0x100000000 ≤ off ∧ off + n ≤ 0x200000000 then
    match acc.data with
    | none => takeReq s (.view (off - 0x100000000) acc)
    | some _ => countAperture s
  else if !(hubRuns s) then s
  else match hwinTarget s off n acc.data.isSome with
    | some a => takeReq s (.host a acc)
    | none => uncovered s acc

/-- HOST_WINDOW_ACCESS (R329 to R331, R344): Turaist activity, then the access. At SL2 the mailbox page and the
hub register view answer before the wake (R34: the map can be read in every operating state). -/
def execHostWindowAccess (off : Nat) (acc : Access) (s : State) : Res :=
  if !(apertureUp s) || accLen acc == 0 || decide (64 < accLen acc) then .next s
  else .next (apertureAccess (hostActivity s false) off acc)

/-- TABLET_WRITE (R240). The window accesses that a bank held are released when it is back at ENGINES (R241). -/
def execTabletWrite (lc mem bank : Nat) (value : BitVec 2) (s : State) : Res := .next (serveWaiting (writeTablet s lc mem bank value.toNat))

/-- WINDOW_ACCESS (R27, R33, R235, R241, R245): an access at an offset of a cluster's window, cut at 64-byte units. A write carries the tag of the
traverse that makes it, and 0xE when the host driver or the stationmaster does. It draws on the scratchpad background budget (activity TRV for a
traverse, else HOST), and one that is over budget waits for the next period. -/
def execWindowAccess (lc off : Nat) (tag : Option (BitVec 4)) (acc : Access) (s : State) : Res :=
  if !(arithRuns s) || decide (255 < lc) || decide (0x1000000 < off + accLen acc) then .next s
  else .next (takeReq s (.window lc (0x700000000000 + lc * 0x1000000 + off) tag acc))

/-- DBG_ACCESS (R460): 8 bytes of a hub register, or of device memory inside a bound window that grants reads. A register read that Table 16-8 bars is
counted (R456). -/
def execDbgAccess (dr : BitVec 128) (s : State) : Res :=
  let a := bits dr 0 48
  if !(tapRuns s) then .next s
  else if !(tapFull s) || s.dbg == 0 then .next (tapRefuse s)
  else if a % 8 ≠ 0 ∨ bits dr 49 7 ≠ 0 then .next (dbgEnd s dr stBADARG 0)
  else if bitAt dr 48 then
    if s.dbg < 2 ∨ !(boundOk s a (a + 7) false) then .next (tapRefuse s) else .next (takeReq (tapSelect s 0x11 0) (.debug a dr))
  else match locate a with
    | .hub o =>
      if !(dbgReaches s (hubClass o)) then .next (tapRefuse (if classReadable s (hubClass o) then s else countAperture s))
      else
        let r := hubRead s o
        .next (dbgEnd r.2 dr stOK r.1)
    | _ => .next (dbgEnd s dr stBADARG 0)

end Sys2Proof.Machine
end

