-- ==== Sys2Proof/Machine/InfoCommands.lean ====
section
/-! DEFINITION. The mailbox commands that report or set levels and budgets: GET_INFO, GET_STATE, GET_FAULT_LOG (R346, R347, R350, R361), SET_PERF,
SET_WAKE, GET_POWER_STATS (R427, R435, R437), BUDGET_SET and BUDGET_GET (R424). -/

namespace Sys2Proof.Machine

/-- Mapped logical clusters of a section (R32). -/
def mappedN (s : State) (k : Nat) : Nat := ((List.range 64).filter (fun i => (lcEntry s (64 * k + i)).mapped)).length

/-- Free sidings of a section, at most 4. -/
def sidingsN (s : State) (k : Nat) : Nat := min 4 (freeSidings s k).length

/-- The body of GET_INFO (Table 12-7). -/
def infoBody (s : State) : Nat :=
  let b := s.boot
  packFields [(b.conf.orderCode.toNat, 128), (hwIssue b.conf, 8), (if b.conf.n24 then 8 else 4, 8), (b.version, 32), (s.flash.counter, 32),
    (mappedN s 0, 8), (mappedN s 1, 8), (mappedN s 2, 8), (mappedN s 3, 8),
    (sidingsN s 0, 4), (sidingsN s 1, 4), (sidingsN s 2, 4), (sidingsN s 3, 4),
    (b.cool, 3), (b2n b.coolUnknown, 1), (b.feed, 4), (b2n b.feedUnknown, 1), (b.slot, 6), (b2n (s.link.lanes = 16), 2),
    (b2n (s.link.gts = 32), 1), (0, 14), (idPrint, 256)]

/-- GET_INFO (R346). -/
def execGetInfo (m : Msg) (s : State) : Res := .next (takeArgs s m 0x0001 [] (fun s => ok s m 68 (infoBody s)))

/-- Entries of the fault log since cold boot: in SL3 and a warm restart, part of it is in the superblock (R361). -/
def wholeNext (s : State) : Nat := s.flog.next + (s.store.flogCopy.map (fun l => l.next)).getD 0

/-- The body of GET_STATE (Table 12-8). -/
def stateBody (s : State) : Nat :=
  packFields [(mbOp s, 4), (s.sec.code, 2), (s.dbg, 2), (perfBits s, 12), (longN s, 8), (0, 4), (s.su.tenant, 32),
    (stateStep s, 64), (wholeNext s, 32), (s.prog.replayN, 32), (s.mb.evtLost, 16)]

/-- GET_STATE (R347). -/
def execGetState (m : Msg) (s : State) : Res := .next (takeArgs s m 0x0002 [] (fun s => ok s m 26 (stateBody s)))

/-- The entries of the log from index `first` on, at most `n`, oldest first; a FIRST before the oldest retained one starts there (R361). -/
def logSlice (l : FaultLog) (first n : Nat) : List FaultEntry :=
  let oldest := l.next - l.entries.length
  let a := max first oldest
  (l.entries.reverse.drop (a - oldest)).take n

/-- GET_FAULT_LOG (R350, R361). -/
def execGetFaultLog (m : Msg) (s : State) : Res :=
  .next (takeArgs s m 0x0003 [(0, 48), (64, 48)] (fun s =>
    let first := mb m 0 32
    let n := mb m 32 16
    let a := mb m 64 48
    if n = 0 ∨ 4096 < n then badArg s m (inBody 32)
    else if 2 ^ 47 < a + 64 * n then badArg s m (inBody 64)
    else
      let es := logSlice s.flog first n
      let start := max first (s.flog.next - s.flog.entries.length)
      let s := (rangeFrom start es.length).foldl (fun s i => hubTouch s (32768 + i % 16384)) s
      let s := { chargeCore s (64 * es.length) with comp := compWrite s.comp a (es.flatMap entryBytes) false }
      ok s m 8 (packFields [(es.length, 32), (if es.isEmpty then s.flog.next else start + es.length, 32)])))

/-- SET_PERF (R427): requested levels and COUPLE; the reply carries the effective levels. -/
def execSetPerf (m : Msg) (s : State) : Res :=
  .next (takeArgs s m 0x0030 [(0, 13)] (fun s =>
    let s0 := s
    let s := modPower s (fun p => { p with req0 := mb m 0 3, req1 := mb m 3 3, req2 := mb m 6 3, req3 := mb m 9 3, couple := mb m 12 1 == 1 })
    let s := sampleOnChange s0 (refreshPowerAlert s)
    ok s m 2 (packFields [(perfBits s, 12), (b2n s.pw.couple, 1)])))

/-- SET_WAKE (R435). -/
def execSetWake (m : Msg) (s : State) : Res :=
  .next (takeArgs s m 0x0032 [(0, 64)] (fun s => ok { s with slp := { s.slp with cfg := mb m 0 23 } } m 0 0))

/-- GET_POWER_STATS (R437). -/
def execGetPowerStats (m : Msg) (s : State) : Res :=
  .next (takeArgs s m 0x0033 [] (fun s =>
    let p := s.pw
    ok s m 32 (packFields [(p.sample.p, 16), (p.sample.avg1s, 16), (powerLimit s, 16), (perfBits s, 12), (b2n p.couple, 1), (0, 3),
      (p.energy / 1000000, 64), (p.powerSteps, 16), (p.clampSteps, 16), (p.thermSteps, 16), (s.slp.refusedN, 16), (p.sampleAon, 64)])))

/-- The activities of Table 15-5. -/
def activities : List Nat := [0, 1, 2, 3, 4, 5, 6, 7, 8]

/-- The budgets of a kind as they would sum with activity `a` at `b`. -/
def budgetSum (s : State) (k a b : Nat) : Nat := activities.foldl (fun n x => n + (if x = a then b else ttBudget s k x)) 0

/-- BUDGET_SET (R424): each instance applies the value at its next period start. -/
def execBudgetSet (m : Msg) (s : State) : Res :=
  .next (takeArgs s m 0x0070 [(0, 8), (32, 32)] (fun s =>
    let k := mb m 0 4
    let a := mb m 4 4
    let b := mb m 32 32
    let cap := ttCapacity k * 256
    if 5 < k ∨ 8 < a ∨ (ttPermille k a).isNone then badArg s m (inBody 0)
    else if b < ttMin k a ∨ cap < budgetSum s k a b then badArg s m (inBody 32)
    else
      let s := { s with tt := { s.tt with budgets := spPut s.tt.budgets (16 * k + a) b } }
      ok s m 4 (packFields [(cap - budgetSum s k a b, 32)])))

/-- BUDGET_GET (R424). -/
def execBudgetGet (m : Msg) (s : State) : Res :=
  .next (takeArgs s m 0x0071 [(0, 13)] (fun s =>
    let k := mb m 0 4
    let i := mb m 4 9
    if 5 < k ∨ ttInstances k ≤ i then badArg s m (inBody 0)
    else
      ok s m 54 (packFields (activities.map (fun a => (ttBudget s k a, 32)) ++ activities.map (fun a => ((ttCell s k i a).waitN, 16))))))

end Sys2Proof.Machine
end

