-- ==== Sys2Proof/Machine/Security.lean ====
section
/-! DEFINITION. Tenancy and debug (16): ASSIGN_TENANT (R448), SEAL (R449), RELEASE_TENANT and the scrub (R450, R451, Table 16-6), ATTEST (R440 to
R442), KEY_IMPORT (R445, R446), DEBUG_OPEN and DEBUG_CLOSE (R454 to R458), FW_UPDATE (R467). -/

namespace Sys2Proof.Machine

/-- Change the security part. -/
def modSu (s : State) (f : Security → Security) : State := { s with su := f s.su }

/-- The lowest byte of l, counted from `lo`, that is not 0 in [a, a + n). -/
def strayByte (l : List Byte) (a n : Nat) : Option Nat := (rangeFrom a n).find? (fun i => byteField l i 1 ≠ 0)

/-- Take a command with a block of exactly `n` bytes; another length is a CHECK_ERROR of the block (R337, R350). -/
def blockExact (s : State) (m : Msg) (n : Nat) (f : List Byte → State → State) : State :=
  match readBlock s m with
  | .inl t => t
  | .inr (l, t) => if l.length ≠ n then checkError t m 4 else f l t

/-! ASSIGN_TENANT -/

/-- Does a region lie in DRAM or in cluster windows (R448)? -/
def regionPlaced (w : Window) : Bool :=
  let lo := w.base * 4096
  let hi := (w.limit + 1) * 4096 - 1
  (decide (hi < 0x060000000000) && rangeMapped w.base w.limit) || (decide (0x700000000000 ≤ lo) && decide (hi < 0x700100000000))

/-- R448 step 3: the byte of the argument block that holds the first field in error. -/
def assignBad (l : List Byte) : Option Nat :=
  let win (k : Nat) : Rules :=
    let o := 4 + 16 * k
    let x := byteField l o 16
    let w := winParse x
    [(o, !(winRsvd x) || (w.v && (decide (w.limit < w.base) || !(rangeMapped w.base w.limit))))]
  let p := 1028
  let head := byteField l p 8
  let nxr := natBits head 20 4
  let reg (k : Nat) : Rules :=
    let o := p + 0xC0 + 16 * k
    let x := byteField l o 16
    let w := winParse x
    [(o, if k < nxr then !(winRsvd x) || (w.v && (decide (w.limit < w.base) || !(regionPlaced w))) else x ≠ 0)]
  let polRules : Rules :=
    [(p, natBits head 0 16 ≠ 1), (p + 2, natBits head 16 2 == 3 || natBits head 18 2 ≠ 0 || decide (8 < nxr)), (p + 3, natBits head 24 40 ≠ 0),
      (p + 0x8D, (strayByte l (p + 0x8D) 0x33).isSome)]
  firstBroken (([(0, byteField l 0 4 == 0)] : Rules) ++ (List.range 64).flatMap win ++ polRules ++ (List.range 8).flatMap reg ++
    ([(p + 0x1C4, (strayByte l (p + 0x1C4) 0x3C).isSome)] : Rules))

/-- The policy is signed by its own TENANT_KEY (Table 16-5). -/
def policySigned (p : List Byte) : Bool :=
  ecdsaOk ((p.drop 8).take 133) (p.take 0x140) ((p.drop 0x140).take 132)

/-- ASSIGN_TENANT (R448): DBG3, the signature, the fields, then DBG against DBG_MAX. -/
def execAssignTenant (m : Msg) (s : State) : Res :=
  .next (takeCommand s m 0x0010 (fun s =>
    if s.dbg = 3 then stateRefused s m
    else blockExact s m 1540 (fun l s =>
      let pol := l.drop 1028
      if !(policySigned pol) then notAuth s m
      else checkBody s m blockFields (fun s =>
        match assignBad l with
        | some b => badArg s m (inBlock b)
        | none =>
          if natBits (byteField pol 0 4) 16 2 < s.dbg then stateRefused s m
          else
            let wins := (List.range 64).map (fun k => winParse (byteField l (4 + 16 * k) 16))
            let s := modSu s (fun u =>
              { u with tenant := byteField l 0 4, policy := pol, wdigFull := false, wkeys := [], fkeys := [], ckey := none, wdig := [], entries := [],
                       reports := [] })
            ok (changeState { s with win := sparseOf .reset wins } s.op .assigned) m 0 0))))

/-! SEAL -/

/-- SEAL (R449). -/
def execSeal (m : Msg) (s : State) : Res :=
  .next (takeArgs s m 0x0011 [] (fun s =>
    if dbgMax s < s.dbg then stateRefused s m
    else
      let s := changeState s s.op .sealed
      ok (closeHwins s (fun w => !(hwinMay s w))) m 0 0))

/-! The scrub -/

/-- Stage 1 for the ports (R322, Table 16-6): no tenant frames, OOS, no flow contexts or job entries. -/
def fabricScrub (s : State) : State :=
  { s with fab := { Fabric.reset with
      ports := s.fab.ports.map (fun e => (e.1, { e.2 with unacked := [], formed := [] })), gens := s.fab.gens, registered := s.fab.registered, tx := s.fab.tx } }

/-- Every port sends OOS from now on. -/
def startOos (s : State) : State := [0, 1, 2, 3, 4, 5, 6, 7].foldl (fun s p => modPort s p (fun q => { q with oos := true, oosSent := 0 })) s

/-- The end of OOS. -/
def endOos (s : State) : State := [0, 1, 2, 3, 4, 5, 6, 7].foldl (fun s p => modPort s p (fun q => { q with oos := false })) s

/-- The scrub begins (R450, R451): the mark is written, SCRUBBING, every other outstanding long command ends FAULTED, the checkpoint in progress
is abandoned, the consist is released, and stage 1 runs. `toDbg` is the level at which the scrub ends. In the safe state, whose clusters are frozen, only the mark is written. -/
def beginScrub (s : State) (m : Msg) (toDbg : Nat) : State :=
  let s := { s with flash := { s.flash with scrubMark := true } }
  if s.boot.phase = .safe then s
  else
  let s := modSu s (fun u => { u with stage := 1, toDbg := toDbg, began := s.clk.aon })
  let s := answerPause (setOp (setAlert s aSCRUB0) .scrubbing)
  let s := faultLong (abandonCkpt s) (fun k => mSeq k.m == mSeq m && mOpcode k.m == mOpcode m)
  closeHwins (startOos (fabricScrub (releaseConsist s))) (fun _ => true)

/-- Stage 2: the keys, the digest entries, the reports and the binding are gone (R444). -/
def eraseTenant (u : Security) : Security :=
  { u with tenant := 0, policy := [], wkeys := [], fkeys := [], ckey := none, wdig := [], entries := [], reports := [], vtDigest := none }

/-- A traverse engine after stage 3: its error counters stay. -/
def scrubTrv (t : TrvEngine) : TrvEngine := { TrvEngine.reset with refusedN := t.refusedN, chkMismatch := t.chkMismatch, probes := t.probes, shortSeg := t.shortSeg }

/-- A cluster after stage 3: its registers reset, its banks cleared and marched; the error counters stay (R451). -/
def scrubCluster (c : Cluster) : Cluster :=
  let m := noteMarch ClMem.powered 0 none
  { Cluster.reset with
    opx := { Opx.reset with evMismatches := c.opx.evMismatches }
    vr := { VecRow.reset with ctxRefused := c.vr.ctxRefused, poisonRows := c.vr.poisonRows, drainFull := c.vr.drainFull }
    t0 := scrubTrv c.t0, t1 := scrubTrv c.t1, t2 := scrubTrv c.t2, t3 := scrubTrv c.t3
    mem := { m with
      ceN := c.mem.ceN, ueN := c.mem.ueN, ue := c.mem.ue, denied := c.mem.denied, marches := satAdd 16 c.mem.marches 1 } }

/-- Stages 3 to 5 but for the failing granule: sections, DRAM, tables, store records (R403, R451). -/
def scrubMemories (s : State) : State :=
  { s with
    cl := sparseOf .reset ((List.range 256).map (fun lc => scrubCluster (cluster s lc)))
    sect := []
    dram := { s.dram with bytes := [], poison := [], err := [] }
    win := []
    train := .reset
    ckpt := { Ckpt.reset with counter := s.ckpt.counter, interruptions := s.ckpt.interruptions }
    prog := .reset
    store := { (dropCopies s.store (fun _ => true)) with laid := none } }

/-- The granules that twice read back wrong stay poisoned, are counted and post MEMORY_UE (R451): stack and granule number. -/
def stubbornGranules (s : State) (l : List (Nat × Nat)) : State :=
  l.foldl (fun s g =>
    let s := { s with dram := { s.dram with poison := setAdd s.dram.poison (granKey g.1 (64 * g.2)) } }
    logEvent (modSu s (fun u => { u with stubborn := satAdd 16 u.stubborn 1 })) 0x0031 7 2 g.1 noLink (packFields [(64 * g.2, 48)]))
    (modSu s (fun u => { u with stubborn := 0 }))

/-- Of two copies, the accepted one with the higher version, 0 or 1; with `other`, the other copy if it is accepted (R467, R468, R473). -/
def pickCopy (a b : ImageCopy) (accept : ImageCopy → Bool) (other : Bool) : Option Nat :=
  let n := match accept a, accept b with
    | false, false => none
    | true, false => some 0
    | false, true => some 1
    | true, true => some (if a.version < b.version then 1 else 0)
  n.map (fun k => if other && accept (if k = 0 then b else a) then 1 - k else k)

/-- The copy of a number. -/
def copyOf (a b : ImageCopy) (n : Nat) : ImageCopy := if n = 0 then a else b

/-- Layer 2 as measured (R439): its digests, and CDI2 = HMAC(CDI1, the three digests). -/
def measureLayer2 (s : State) (fw sb cfg : ImageCopy) : State :=
  let ds := [fw.digest, sb.digest, cfg.digest]
  { s with boot := { s.boot with
      fw := s.boot.fw.take 2 ++ ds, cdi2 := hmac512 s.boot.cdi1 (ds.flatMap (fun d => leBytes 64 d.toNat)), version := fw.version } }

/-- Stage 6: the stationmaster firmware is loaded again under signature check, and layer 2 is measured again; none when no copy verifies (log 46). -/
def reloadFw (s : State) : Option State :=
  let f := s.flash
  (pickCopy f.fwA f.fwB (fun i => i.good) false).map (fun n =>
    measureLayer2 { s with boot := { s.boot with fwCopy := n } } (copyOf f.fwA f.fwB n) (copyOf f.sbA f.sbB s.boot.sbCopy) (copyOf f.cfgA f.cfgB s.boot.cfgCopy))

/-- Stage 4 is traffic of the SM activity of each stack (R451): 128 GiB written and read back, spread over the periods that it takes (log 45). -/
def chargeFill (s : State) : State :=
  (List.range 12).foldl (fun s k =>
    let c := ttCell s 0 k 7
    setTtCell s 0 k 7 { c with served := (c.served + 2 ^ 32) % 2 ^ 48 }) s

/-- A change of the debug level posts STATE_CHANGE (R454). -/
def setDbg (s : State) (l : Nat) : State :=
  if s.dbg = l then s
  else
    let s := { s with dbg := l }
    logEvent s 0x0001 7 7 0 noLink (packFields [(s.op.code, 4), (s.sec.code, 2), (l, 2)])

/-- The scrub's end: stages 2 to 7. A scrub that the safe state has cut short leaves its mark set (R451); one whose firmware does not verify stays in
stage 6 (log 46). -/
def finishScrub (s : State) (m : Msg) (w : WorkResult) (body : Nat × Nat) : State :=
  if s.boot.phase = .safe then finish (modSu s (fun u => { u with stage := 0 })) m stFAULTED 4 (lastEntry s)
  else
    let lvl := s.su.toDbg
    let s := stubbornGranules (chargeFill (scrubMemories (modSu s eraseTenant))) w.stubborn
    match reloadFw s with
    | none => modSu s (fun u => { u with stage := 6 })
    | some s =>
      let s := endOos { s with flash := { s.flash with scrubMark := false } }
      let s := modSu s (fun u => { u with stage := 0, toDbg := 0, scrubN := satAdd 16 u.scrubN 1, lastMs := min 65535 w.ms })
      let s := changeState (setAlert s aSCRUB1) .idle .sopen
      finish (setDbg ((firstFaults [] w.hard).foldl (fun s f => testFailed s 0 f) s) lvl) m stOK body.1 body.2

/-- RELEASE_TENANT (R450), up to ACCEPTED and stage 1 of the scrub. -/
def execReleaseTenant (m : Msg) (s : State) : Res :=
  .next (takeArgs s m 0x0012 [] (fun s =>
    if longOf s 0x0013 || longOf s 0x0014 then busy s m 1 else accept s m 0 (fun s => beginScrub s m 0)))

/-! ATTEST -/

/-- The digests that firmware was measured to: loader, stationmaster, signal box, configuration record follow the boot ROM. -/
def layerDigest (s : State) (k : Nat) : List Byte := leBytes 64 ((s.boot.fw[k]?).getD 0).toNat

/-- Length bound of one DER certificate, a choice of the model: the spec states no length (log 7). -/
def certMax : Nat := 65536

/-- The alias certificate and the device identity certificate, in that order (R440). -/
def certificates (s : State) : List Byte :=
  s.boot.aliasCert.take certMax ++ Config.deviceCert.take certMax

/-- The weight-image digest of a slot (R443): zero without a key. -/
def slotDigest (s : State) (k : Nat) : List Byte :=
  if !(s.su.wkeys.any (fun e => e.1 == k)) then zeros 64
  else
    let le (a b : Nat × Nat × BitVec 512) : Bool := decide (a.2.1 < b.2.1) || (a.2.1 == b.2.1 && decide (a.2.2.toNat ≤ b.2.2.toNat))
    let es := (s.su.wdig.filter (fun e => e.1 == k)).mergeSort le
    leBytes 64 (sha512 (es.flatMap (fun e => leBytes 8 e.2.1 ++ leBytes 64 e.2.2.toNat))).toNat

/-- The header of the report (Table 16-2). -/
def reportHeader (s : State) (n : Nat) : List Byte :=
  leBytes 64 (packFields [(1, 16), (s.op.code, 4), (s.sec.code, 2), (s.dbg, 2), (dbgMax s, 2), (b2n s.flash.scrubMark, 1), (b2n s.su.wdigFull, 1), (0, 4),
    (s.su.tenant, 32), (s.flash.counter, 32), (n, 32), (s.boot.version, 32)])

/-- Offsets 0x0000 to 0x07FF of the report. -/
def reportBody (s : State) (nonce : Nat) (n : Nat) : List Byte :=
  let part (lc : Nat) : List Byte := leBytes 64 ((s.prog.digests.find? (fun e => e.1 == lc)).elim 0 (fun e => e.2.toNat))
  let pol := if s.su.policy.isEmpty then zeros 64 else leBytes 64 (sha512 s.su.policy).toNat
  let consist := if s.prog.loaded then leBytes 64 (sha512 ((List.range 256).flatMap part)).toNat else zeros 64
  let slotWord (k : Nat) : List Byte := leBytes 4 (packFields [(spGet 0 s.su.entries k, 11), (0, 20), (b2n (s.su.wkeys.any (fun e => e.1 == k)), 1)])
  reportHeader s n ++ leBytes 64 nonce ++ (List.range 5).flatMap (layerDigest s) ++ pol ++ consist ++ leBytes 64 s.prog.ftabDigest.toNat ++
    leBytes 64 (s.su.vtDigest.getD 0).toNat ++ (List.range 16).flatMap (slotDigest s) ++ (List.range 16).flatMap slotWord ++
    leBytes 4 (slotMask s.su.fkeys + 65536 * b2n s.su.ckey.isSome) ++ zeros 252

/-- `n` bytes of a list, zeros beyond its end. -/
def padTo (n : Nat) (l : List Byte) : List Byte := (l ++ zeros n).take n

/-- The report: its body and the signature of the alias key (R441). -/
def reportBytes (s : State) (nonce n : Nat) : List Byte :=
  let b := reportBody s nonce n
  b ++ padTo 132 (signWith (aliasKey s) b)

/-- Bytes of the whole output. -/
def attestLen (s : State) : Nat := 0x900 + (certificates s).length

/-- ATTEST (R440), up to ACCEPTED. -/
def execAttest (m : Msg) (s : State) : Res :=
  .next (takeArgs s m 0x0013 [(0, 560), (576, 32)] (fun s =>
    if mb m 512 48 % 64 ≠ 0 ∨ 2 ^ 47 < mb m 512 48 + attestLen s then badArg s m (inBody 512)
    else if mb m 576 32 < attestLen s then badArg s m (inBody 576)
    else accept s m 0 (fun s => s)))

/-- The end of ATTEST: the report and the certificates stand in the buffer; the digest of the report joins the last eight (R442). -/
def finishAttest (s : State) (m : Msg) : State :=
  let n := (s.su.reportN + 1) % 2 ^ 32
  let r := reportBytes s (mb m 0 512) n
  let a := mb m 512 48
  let len := attestLen s
  let s := { s with comp := compWrite (compWrite s.comp a r false) (a + 0x900) (certificates s) false }
  let s := modSu s (fun u => { u with reportN := n, reports := (sha512 r :: u.reports).take 8 })
  finish s m stOK 8 (packFields [(len, 32), (n, 32)])

/-! KEY_IMPORT -/

def kiKind (l : List Byte) : Nat := natBits (byteField l 0 4) 0 4
def kiSlot (l : List Byte) : Nat := natBits (byteField l 0 4) 8 4
def kiClear (l : List Byte) : Bool := natBits (byteField l 0 4) 16 1 == 1

/-- The byte of the first field in error (R446 step 1, Table 16-3). -/
def keyBad (s : State) (l : List Byte) : Option Nat :=
  let h := byteField l 0 4
  firstBroken ([(0, kiKind l == 0 || decide (3 < kiKind l) || natBits h 4 4 ≠ 0), (1, natBits h 12 4 ≠ 0 || (kiKind l == 3 && kiSlot l ≠ 0)),
    (2, natBits h 17 15 ≠ 0), (4, byteField l 4 4 ≠ s.su.tenant), (8, kiClear l && (strayByte l 8 0x128).isSome),
    (0xCD, (strayByte l 0xCD 3).isSome), (0xDC, (strayByte l 0xDC 0x24).isSome)] : Rules)

/-- Is the report that a block names on the list of R442? -/
def reportListed (s : State) (l : List Byte) : Bool := s.su.reports.contains (BitVec.ofNat 512 (byteField l 8 64))

/-- The key that a block carries (R445): none when the ephemeral key is not a point of the curve or the tag fails. -/
def unwrapKey (s : State) (l : List Byte) : Option (BitVec 256) :=
  let part (o n : Nat) : List Byte := (l.drop o).take n
  match ecdhX (aliasKey s) (part 0x48 133) with
  | none => none
  | some z =>
    let k := hkdf512 (part 8 64) z (part 0 8)
    let iv := BitVec.ofNat 96 (ofLe (part 0xD0 12))
    if leBytes 16 (gcmTag k iv (part 0 0x100) (part 0x100 32)).toNat == part 0x120 16 then
      some (BitVec.ofNat 256 (ofLe (gcmPlain k iv (part 0x100 32))))
    else none

/-- Does a traverse in flight decrypt with this slot? -/
def slotInFlight (s : State) (slot : Nat) : Bool :=
  s.cl.any (fun e => [e.2.t0, e.2.t1, e.2.t2, e.2.t3].any (fun t => t.flight.any (fun f =>
    match descOpt f.e.desc 3 with
    | some k => natBits k 8 4 == slot
    | none => false)))

/-- Does the job of an open flow round name this slot? -/
def slotInRound (s : State) (slot : Nat) : Bool :=
  s.fab.flows.any (fun e => e.2.valid && e.2.fopen && (jobOf s e.2.jslot).valid && (jobOf s e.2.jslot).enc && (jobOf s e.2.jslot).fkey == slot)

/-- Does an outstanding KEY_IMPORT hold the slot of a block (R339)? -/
def keyHeld (s : State) (l : List Byte) : Bool :=
  (outstanding s).any (fun x => mOpcode x.1 == 0x14 && kiKind (leBytes 304 x.2) == kiKind l && kiSlot (leBytes 304 x.2) == kiSlot l)

/-- Is the slot in use (R446 step 3)? -/
def keyInUse (s : State) (l : List Byte) : Bool :=
  keyHeld s l ||
  (kiKind l == 1 && slotInFlight s (kiSlot l)) || (kiKind l == 2 && slotInRound s (kiSlot l))

/-- KEY_IMPORT (R446), up to ACCEPTED; the block that was read stays with the command. -/
def execKeyImport (m : Msg) (s : State) : Res :=
  .next (takeCommand s m 0x0014 (fun s => blockExact s m 304 (fun l s => checkBody s m blockFields (fun s =>
    match keyBad s l with
    | some b => badArg s m (inBlock b)
    | none =>
      if !(kiClear l) && (!(reportListed s l) || (unwrapKey s l).isNone) then notAuth s m
      else if keyInUse s l then busy s m 1
      else accept s m (ofLe l) (fun s => s)))))

/-- Put a key into a slot table, or take it out. -/
def putKey (t : Sparse (BitVec 256)) (slot : Nat) (k : Option (BitVec 256)) : Sparse (BitVec 256) :=
  match k with
  | some x => spPut t slot x
  | none => spDel t slot

/-- The slot of a block takes the key (R443, R446, R321). -/
def applyKey (s : State) (l : List Byte) (k : Option (BitVec 256)) : State :=
  let slot := kiSlot l
  match kiKind l with
  | 1 => modSu s (fun u =>
      { u with wkeys := putKey u.wkeys slot k, wdig := u.wdig.filter (fun e => e.1 != slot), entries := spDel u.entries slot })
  | 2 =>
    let s := modSu s (fun u => { u with fkeys := putKey u.fkeys slot k })
    { s with fab := { s.fab with gens := spSet 0 s.fab.gens slot ((spGet 0 s.fab.gens slot + 1) % 2 ^ 32),
                                 registered := s.fab.registered.filter (fun r => r.1 != slot) } }
  | _ => modSu s (fun u => { u with ckey := k })

/-- The end of KEY_IMPORT: the report was judged when the command was accepted (R446). -/
def finishKeyImport (s : State) (m : Msg) (aux : Nat) : State :=
  let l := leBytes 304 aux
  if kiClear l then finish (applyKey s l none) m stOK 0 0
  else match unwrapKey s l with
    | none => finish s m stNOTAUTH 0 0
    | some k => finish (applyKey s l (some k)) m stOK 0 0

/-! Debug -/

/-- LEVEL and SCRUB_OK of DEBUG_OPEN (R454). -/
def dbLevel (m : Msg) : Nat := mb m 0 2
def dbScrubOk (m : Msg) : Bool := mb m 2 1 == 1

/-- The message with LEVEL and SCRUB_OK taken out of the body bits that an argument block's address shares with them (log 15). -/
def dbBlockMsg (m : Msg) : Msg := { m with raw := m.raw &&& ~~~(7#1024 <<< 128) }

/-- The DBG3 unlock verifies under the key whose digest the configuration record holds, and names this module, its counter and its newest report
(R454, R468). -/
def unlockOk (s : State) (l : List Byte) : Bool :=
  let key := Config.unlockKey s.boot.conf.unlock
  sha512 key == s.boot.conf.unlock && ecdsaOk key (l.take 40) ((l.drop 40).take 132) && byteField l 0 32 == idPrint % 2 ^ 256 &&
    byteField l 32 4 == s.flash.counter % 2 ^ 32 && byteField l 36 4 == s.su.reportN && !s.su.reports.isEmpty

/-- What a request comes to (Table 16-9): none refused, some false granted, some true granted after a scrub. -/
def debugOutcome (s : State) (level : Nat) (scrubOk : Bool) : Option Bool :=
  let scrub : Option Bool := if s.boot.phase = .safe then none else some true
  if level = 3 then scrub
  else if s.sec ≠ .sealed ∨ level ≤ dbgMax s then some false
  else if level = 2 ∧ scrubOk then scrub
  else none

/-- The outcome, once LEVEL and the unlock have passed; while RELEASE_TENANT is outstanding the command is BUSY (R458). -/
def openDebug (s : State) (m : Msg) : State :=
  if longOf s 0x0012 then busy s m 1
  else match debugOutcome s (dbLevel m) (dbScrubOk m) with
  | none => stateRefused s m
  | some false => ok (setDbg s (dbLevel m)) m 1 (dbLevel m)
  | some true => accept s m 0 (fun s => beginScrub s m (dbLevel m))

/-- DEBUG_OPEN (R454, R457). -/
def execDebugOpen (m : Msg) (s : State) : Res :=
  .next (takeCommand s m 0x0080 (fun s =>
    if dbLevel m ≠ 3 then
      checkBody s m [(0, 3)] (fun s => if dbLevel m = 0 ∨ dbLevel m < s.dbg then badArg s m (inBody 0) else openDebug s m)
    else blockExact s (dbBlockMsg m) 172 (fun l s =>
      if !(unlockOk s l) then notAuth s m else checkBody s m blockFields (fun s => openDebug s m))))

/-- DEBUG_CLOSE (R454). -/
def execDebugClose (m : Msg) (s : State) : Res :=
  .next (takeArgs s m 0x0081 [] (fun s => if s.dbg = 3 then stateRefused s m else ok (setDbg s 0) m 0 0))

/-! FW_UPDATE -/

/-- FW_UPDATE, up to ACCEPTED: its argument block carries the image, whose signature must verify (R337 step 7, R350, log 15). -/
def execFwUpdate (m : Msg) (s : State) : Res :=
  .next (takeCommand s m 0x0090 (fun s => match readBlock s m with
    | .inl t => t
    | .inr (l, t) =>
      if !(Config.fwImage (ofLe l)).2.good then notAuth t m
      else checkBody t m blockFields (fun s => if longOf s 0x0090 then busy s m 1 else accept s m (ofLe l) (fun s => s))))

/-- Write the copy that is not in use of an image (R467). -/
def writeImage (b : Boot) (f : Flash) (kind : Nat) (i : ImageCopy) : Flash :=
  match kind with
  | 0 => if b.loaderCopy = 0 then { f with loaderB := i } else { f with loaderA := i }
  | 1 => if b.fwCopy = 0 then { f with fwB := i } else { f with fwA := i }
  | 2 => if b.sbCopy = 0 then { f with sbB := i } else { f with sbA := i }
  | _ => if b.cfgCopy = 0 then { f with cfgB := i } else { f with cfgA := i }

/-- The end of FW_UPDATE (R467). -/
def finishFwUpdate (s : State) (m : Msg) (aux : Nat) : State :=
  let x := Config.fwImage aux
  finish { s with flash := writeImage s.boot s.flash x.1 x.2 } m stOK 0 0

end Sys2Proof.Machine
end

