-- ==== Sys2Proof/Machine/StoreCommands.lean ====
section
/-! DEFINITION. What the checkpoint store does of its own: patrol and refresh (R405, R407), wear moves (R404), grown-bad blocks (R406), lost dies
and their rebuild (R397, R398). -/

namespace Sys2Proof.Machine

/-- Change the store. -/
def modStore (s : State) (f : Store → Store) : State := { s with store := f s.store }

/-- AON cycles in 90 days (R405). -/
def refreshAge : Nat := 90 * 86400 * 50000000

/-- Is a block due to be refreshed: scheduled, or programmed 90 days ago? -/
def refreshDue (s : State) (b : Nat) : Bool :=
  let k := blockOf s.store b
  k.due || (setHas (holding s.store) b && decide (k.at_ + refreshAge ≤ (s.clk.aon : Int)))

/-- The copies with records in a block that are being read (R407). -/
def readersOf (s : State) (b : Nat) : List (Bool × Nat × Nat) :=
  (s.store.copies.filter (fun c => (c.reader || copyServed s c) && c.recs.any (fun r => r.block == b))).map (fun c => (c.own, c.peer, c.ckpt))

/-- Does the erase of a moved block still wait for a read that met the move (R407)? -/
def moveWaits (s : State) (b : Nat) : Bool :=
  s.store.moving.any (fun m => m.1 == b && m.2.any (fun x =>
    s.store.copies.any (fun c => isCopy x.1 x.2.1 x.2.2 c && (c.reader || copyServed s c))))

/-- The records that a block holds. -/
def recsOf (st : Store) (b : Nat) : List Rec := st.copies.flatMap (fun c => c.recs.filter (fun r => r.block == b))

/-- Codewords of a record (R395). -/
def codewords (r : Rec) : Nat := ceilDiv r.bytes.length 4096

/-- n codewords of a record are unreadable (R397): each is counted and posted, and the record is unreadable. -/
def loseRec (s : State) (r : Rec) (n : Nat) : State :=
  if n = 0 then s
  else
    let s := modStore s (fun st =>
      { st with unreadN := satAdd 16 st.unreadN n
                copies := st.copies.map (fun c => { c with recs := c.recs.map (fun x => if x = r then { x with unreadable := true } else x) }) })
    match recHdr r.bytes with
    | none => s
    | some h => (List.range n).foldl (fun s _ => logEvent s 0x0073 7 6 0 noLink (packFields [(h.ckpt, 32), (h.index, 32), (h.src, 32)])) s

/-- A codeword of one of the block's records is unreadable (R397): which record is a free value. -/
def loseRecord (s : State) (b : Nat) : State :=
  let rs := recsOf s.store b
  let d := drawFree 0 (rs.length - 1) s
  match rs[d.1]? with
  | none => d.2
  | some r => loseRec d.2 r 1

/-- Read a record for a restore or a READ_REQ (R397): how many of its codewords need a soft decode, their stripe, or stay unreadable, and whether a hard
decode corrects more than half of its bits (R405), are free values. -/
def readRec (s : State) (r : Rec) : State :=
  if r.unreadable then s
  else
    let k := codewords r
    let soft := drawFree 0 k s
    let stripe := drawFree 0 (k - soft.1) soft.2
    let lost := drawFree 0 (k - soft.1 - stripe.1) stripe.2
    let half := drawFree 0 1 lost.2
    let s := modStore half.2 (fun st =>
      modBlock { st with softN := satAdd 16 st.softN soft.1, stripeN := satAdd 16 st.stripeN stripe.1 } r.block
        (fun b => { b with due := b.due || decide (0 < soft.1 + stripe.1 + half.1) }))
    loseRec s r lost.1

/-- Read every record of a copy, as checkpoint traffic. -/
def readRecs (s : State) (rs : List Rec) : State :=
  rs.foldl readRec (chargeNand s 4 (rs.foldl (fun n r => n + r.bytes.length) 0))

/-- May the patrol read a block now (R405)? After a start it begins with the oldest ones. -/
def patrolNext (st : Store) (b : Nat) : Bool :=
  let h := holding st
  let left := st.patrolLeft.filter (setHas h)
  setHas h b && (left.isEmpty || (left.contains b && left.all (fun x => decide ((blockOf st b).at_ ≤ (blockOf st x).at_))))

/-- STORE_PATROL (R397, R405): one block that holds a live record is read, as soon as the NAND budgets of patrol admit it (R421). -/
def execStorePatrol (block step : Nat) (overHalf : Bool) (s : State) : Res :=
  if !s.store.ready ∨ !(hubRuns s) ∨ !(patrolNext s.store block) then .next s
  else
    let t := chargeNand s 5 (blockUsed s.store block)
    let soft := decide (step = 1)
    let stripe := decide (step = 2)
    let t := modStore t (fun st =>
      modBlock { st with softN := satAdd 16 st.softN (b2n soft), stripeN := satAdd 16 st.stripeN (b2n stripe), patrolLeft := setDel st.patrolLeft block } block
        (fun k => { k with seen := (s.clk.aon : Int), due := k.due || soft || stripe || overHalf }))
    gate s 5 nandCells (.next (if 3 ≤ step then loseRecord t block else t))

/-- Erase a block: charged, and its wear judged. -/
def eraseOne (s : State) (b : Nat) : State := storeWear (modStore (chargeErases s 1) (fun st => eraseBlock st b))

/-- Move a block's records (R405): the old block is erased, or owed its erase while a reader uses it (R407). -/
def moveBlock (s : State) (b t : Nat) : State :=
  let rs := readersOf s b
  let n := blockUsed s.store b
  let s := modStore (chargeNand (chargeNand s 5 n) 5 n) (fun st => moveRecords st s.clk.aon b t)
  if rs.isEmpty then eraseOne s b
  else modStore s (fun st => { modBlock st b (fun k => { k with due := true }) with moving := st.moving ++ [(b, rs)] })

/-- BLOCK_REFRESH (R404, R405, R407), under the NAND budgets of refresh. On a block whose records have moved away or are invalid, the erase that is
owed. -/
def execBlockRefresh (block target : Nat) (s : State) : Res :=
  if !s.store.ready ∨ !(hubRuns s) ∨ (blockOf s.store block).bad ∨ !(refreshDue s block) then .next s
  else if !(setHas (holding s.store) block) then
    if moveWaits s block then .next s else gate s 5 nandCells (.next (eraseOne s block))
  else if lowestFree s.store target ∧ target ≠ block then gate s 5 nandCells (.next (moveBlock s block target))
  else .next s

/-- Lowest and highest erase counts of the blocks that hold records. -/
def wearSpread (st : Store) : Nat × Nat :=
  match (holding st).map (fun b => (blockOf st b).erases) with
  | [] => (0, 0)
  | x :: r => (r.foldl min x, r.foldl max x)

/-- WEAR_LEVEL_MOVE (R404): the least-erased holding block moves into a more worn free block. -/
def execWearLevelMove (block target : Nat) (s : State) : Res :=
  let w := wearSpread s.store
  if s.store.ready && hubRuns s && setHas (holding s.store) block && decide ((blockOf s.store block).erases = w.1) && decide (w.1 + 1000 < w.2) &&
      blockFree s.store target && decide ((blockOf s.store block).erases < (blockOf s.store target).erases) then
    gate s 5 nandCells (.next (moveBlock s block target))
  else .next s

/-- GROWN_BAD (R404, R406): the block is retired at once and its data is rewritten into the good block with the lowest count, a spare block if
need be; no record is lost. -/
def execGrownBad (block target : Nat) (s : State) : Res :=
  let holds := setHas (holding s.store) block
  let bad (st : Store) : Store := modBlock { st with grownBad := satAdd 16 st.grownBad 1 } block (fun k => { k with bad := true, due := false })
  if !s.store.ready ∨ !(hubRuns s) ∨ inService s.store ≤ block ∨ (blockOf s.store block).bad ∨ (holds ∧ !(lowestFree (bad s.store) target)) then .next s
  else if holds then
    let n := blockUsed s.store block
    gate s 5 nandCells (.next (storeWear (modStore (chargeNand (chargeNand s 5 n) 5 n) (fun st => moveRecords (bad st) s.clk.aon block target))))
  else .next (storeWear (modStore s bad))

/-- Dies of a channel (Table 14-1). -/
def channelDies (st : Store) : Nat := if st.n24 then 12 else 6

/-- Every codeword whose stripe spans both lost dies is unreadable (R398): how many of a record's are is a free value, as the spec places no codeword on
a die. -/
def secondDie (s : State) : State :=
  (s.store.copies.flatMap (fun c => c.recs.filter (fun r => !r.unreadable))).foldl (fun s r =>
    let d := drawFree 0 (codewords r) s
    loseRec d.2 r d.1) s

/-- STORE_DIE_LOST (R398): its codewords are rebuilt from their stripes. A second die on another channel, lost before the rebuild ends,
makes unreadable what spans both. -/
def execStoreDieLost (channel die : Nat) (s : State) : Res :=
  let n := channel * 16 + die
  if !s.store.ready ∨ !(hubRuns s) ∨ 16 ≤ channel ∨ channelDies s.store ≤ die ∨ setHas s.store.dies n then .next s
  else
    let span := s.store.degraded && s.store.dies.any (fun d => decide (d / 16 ≠ channel))
    let s := if span then secondDie s else s
    let s := modStore s (fun st => { st with degraded := true, dies := setAdd st.dies n })
    .next (logEvent s 0x0071 7 6 0 noLink (packFields [(channel, 32), (die, 32)]))

/-- REBUILD_END (R398): every live codeword of the lost dies stands on other dies. How many they held is a free value; each is read from its stripe and
written again, 4 KiB on each channel, under the refresh budget. -/
def execRebuildEnd (s : State) : Res :=
  if !s.store.ready ∨ !(hubRuns s) ∨ !s.store.degraded then .next s
  else
    let live := s.store.copies.foldl (fun n c => c.recs.foldl (fun n r => n + codewords r) n) 0
    let d := drawFree 0 live s
    gate s 5 nandCells (.next (modStore (chargeCells d.2 5 nandCells (64 * d.1)) (fun st => { st with degraded := false, dies := [] })))

end Sys2Proof.Machine
end

