-- ==== Sys2Proof/Machine/Ckpt.lean ====
section
/-! DEFINITION. Checkpoint commands (R383, R384, R387 to R390), the store's mount (R471, R473), holds (R381), verification (R389). -/

namespace Sys2Proof.Machine

/-! Mounting the store -/

/-- Put the fault log saved at SL3 entry under the entries raised since (R361, R471): their indices, links and OCCUR follow the saved ones. -/
def mergeLog (old new : FaultLog) : FaultLog :=
  let up (e : FaultEntry) : FaultEntry :=
    { e with link := if e.link = noLink then noLink else e.link + old.next
             occur := satAdd 32 e.occur (spGet 0 old.occurs (e.code * 65536 + e.unit * 256 + e.unitId)) }
  { entries := (new.entries.map up ++ old.entries).take 16384, next := old.next + new.next
    occurs := new.occurs.foldl (fun t e => spSet 0 t e.1 (satAdd 32 (spGet 0 old.occurs e.1) e.2)) old.occurs }

/-- The log that a mount restores, and the events of its own: the copy, or, when it fails its CRC, an empty log from the saved next index whose first
entry is BOOT_DEGRADED with UNIT 4 (R471). -/
def savedLog (s : State) (l : FaultLog) (bad : Bool) : FaultLog × List Event :=
  if bad then
    let t := logRaw { s with flog := ⟨[], l.next, []⟩, mb := { s.mb with evq := [] } } 0x00A1 7 4 0 noLink (packFields [(4, 4)]) true
    (t.flog, t.mb.evq)
  else (l, [])

/-- The store is mounted (R466 stage 8): patrol begins with the oldest blocks, and after SL3 the fault log is restored. -/
def mountStore (s : State) (logBad : Bool) : State :=
  let s := { s with store := { s.store with ready := true, patrolLeft := holding s.store } }
  match s.store.flogCopy with
  | some l =>
    let x := savedLog s l logBad
    let n := x.1.next
    let lost := x.2.length + s.mb.evq.length - 1024
    let evq := (x.2 ++ s.mb.evq.map (fun (e : Event) => { e with idx := e.idx + n })).take 1024
    flushEvents { s with flog := mergeLog x.1 s.flog, store := { s.store with flogCopy := none },
                         mb := { s.mb with evq := evq, evtLost := satAdd 16 s.mb.evtLost lost, lostSince := s.mb.lostSince + lost } }
  | none => s

/-- A store that did not mount is tried once more at the next CKPT command (R473); whether it then mounts, and whether its fault-log copy then passes
its CRC, are free values. -/
def retryMount (s : State) : State :=
  if setHas s.boot.retry 9 then
    let d := drawFree 0 1 { s with boot := { s.boot with retry := setDel s.boot.retry 9 } }
    let e := drawFree 0 1 d.2
    if d.1 = 1 then mountStore e.2 (e.1 == 1) else e.2
  else s

/-! CKPT_WRITE -/

/-- CKPT_WRITE (R384, R400): it waits for a cut, the next one when NOW = 1. -/
def execCkptWrite (m : Msg) (s : State) : Res :=
  .next (takeArgs s m 0x0050 [(0, 1)] (fun s =>
    if s.su.ckey.isNone then exhausted s m 3
    else if s.ckpt.cur.isSome then busy s m 1
    else
      let s := retryMount s
      if !s.store.ready then exhausted s m 4 else
      let q := BitVec.ofNat 32 (mSeq m)
      accept s m 0 (fun s => modCkpt s (fun c =>
        if mb m 0 1 = 1 then { c with nowSeqs := c.nowSeqs ++ [q] } else { c with waitSeqs := c.waitSeqs ++ [q] }))))

/-- Copy the hold with this number, and before a residual every residual that the manifest lists earlier. -/
def copyHold (s : State) (n : Nat) : State :=
  match s.ckpt.cur with
  | none => s
  | some c => match c.holds.find? (fun h => h.id == n) with
    | none => s
    | some h =>
      let hs := if h.resid then c.holds.filter (fun x => x.resid && decide (x.id ≤ n)) else [h]
      (hs.filter (fun x => !x.loc)).foldl writeHold s

/-- CKPT_HOLD_RELEASE (R381): the hold is copied, when the CKPT budgets admit it (R421); it ends when the buddy, if a buddy copy is made, has acknowledged its records. -/
def execCkptHoldRelease (n : Nat) (s : State) : Res := gate s 4 nandCells (.next (advanceCkpt (copyHold s n)))

/-- BUDDY_ACK_TIMEOUT (R381): holds now end on local durability alone; the buddy copy has failed. -/
def execBuddyAckTimeout (s : State) : Res :=
  match s.ckpt.cur with
  | none => .next s
  | some c =>
    if c.budOn && c.out ≠ [] then
      .next (advanceCkpt (postCkptFailed (modCut s (fun c => { c with budOn := false, out := [] })) c.number 1 cfTIMEOUT))
    else .next s

/-- The buddy has acknowledged a frame of the checkpoint in progress. -/
def ckptAcked (s : State) (p jslot midx seq : Nat) : State :=
  match s.ckpt.buddy with
  | none => s
  | some b =>
    if b.port = p ∧ b.jslot = jslot ∧ b.midx = midx then advanceCkpt (modCut s (fun c => { c with out := c.out.filter (fun o => o.1 != seq) })) else s

/-- The end of a CKPT_WRITE's local work: every hold is copied. -/
def finishCkptWrite (s : State) (m : Msg) : State :=
  match s.ckpt.cur with
  | none => s
  | some c =>
    if c.seqs.contains (BitVec.ofNat 32 (mSeq m)) then advanceCkpt ((c.holds.filter (fun h => !h.loc)).foldl writeHold s) else s

/-! CKPT_POLICY -/

/-- A policy from its block (Table 13-8). -/
def policyParse (l : List Byte) : Policy :=
  let x := byteField l 0 32
  { auto := flagBit x 0, paceMove := flagBit x 1, slowN := natBits x 8 8, slowM := natBits x 16 8, group := natBits x 24 10,
    lossPort := natBits x 34 3, lossCtx := natBits x 37 15, lossV := flagBit x 52, imin := natBits x 64 32, imax := natBits x 96 32,
    window := natBits x 128 32, tol := BitVec.ofNat 32 (natBits x 160 32),
    regions := (entriesAt l 32 16 (natBits x 192 7)).map (fun r => (natBits r 0 48, natBits r 64 48)) }

/-- The byte of the first field of a policy block in error (R383). -/
def policyBad (s : State) (l : List Byte) : Option Nat :=
  let x := byteField l 0 32
  let reg (k : Nat) : Rules :=
    let o := 32 + 16 * k
    let r := byteField l o 16
    let a := natBits r 0 48
    let n := natBits r 64 48
    [(o, a % 4096 ≠ 0 || (n ≠ 0 && !(boundOk s a (a + n - 1) false))), (o + 6, natBits r 48 16 ≠ 0), (o + 8, n % 4096 ≠ 0), (o + 14, natBits r 112 16 ≠ 0)]
  firstBroken (([(0, natBits x 2 6 ≠ 0), (2, decide (natBits x 16 8 < natBits x 8 8)), (6, natBits x 53 11 ≠ 0), (24, decide (64 < natBits x 192 7)),
    (24, natBits x 199 57 ≠ 0)] : Rules) ++ (List.range (min 64 (natBits x 192 7))).flatMap reg)

/-- CKPT_POLICY (R383). -/
def execCkptPolicy (m : Msg) (s : State) : Res :=
  .next (takeCommand s m 0x0053 (fun s => match readBlock s m with
    | .inl t => t
    | .inr (l, s) =>
      if l.length < 32 ∨ l.length ≠ 32 + 16 * natBits (byteField l 0 32) 192 7 then checkError s m 4
      else checkBody s m blockFields (fun s => match policyBad s l with
        | some b => badArg s m (inBlock b)
        | none => ok (modCkpt (retryMount s) (fun c => { c with policy := policyParse l })) m 0 0)))

/-! BUDDY_PAIR -/

/-- The member of a job, other than this module, with this BASE_MAC. -/
def memberOfMac (s : State) (jslot mac : Nat) : Option Nat :=
  let j := jobOf s jslot
  (members j).find? (fun x => x != j.midx && memberMac s jslot x == some mac)

/-- BUDDY_PAIR (R385), up to ACCEPTED: a PAIR frame goes out. -/
def execBuddyPair (m : Msg) (s : State) : Res :=
  .next (takeArgs s m 0x0054 [(0, 48), (48, 3), (52, 12)] (fun s =>
    let k := mb m 52 12
    match (if (jobOf s k).valid then memberOfMac s k (mb m 0 48) else none) with
      | none => badArg s m (inBody (if (jobOf s k).valid then 0 else 52))
      | some x => if longOf s 0x0054 then busy s m 1 else accept s m x (fun s => (sendBuddy s (mb m 48 3) k x bPAIR 0 0 0 []).2)))

/-- The end of a BUDDY_PAIR that no PAIR frame has answered: refused. -/
def finishBuddyPair (s : State) (m : Msg) : State := finish s m stEXHAUST 1 4

/-! CKPT_RESTORE -/

def rsSource (m : Msg) : Nat := mb m 0 2
def rsCkpt (m : Msg) : Nat := mb m 32 32
def rsData (m : Msg) : Nat := mb m 64 64

/-- This module's complete copy that a restore names; 0xFFFF_FFFF names the newest. -/
def localCopy (s : State) (n : Nat) : Option Copy :=
  match (if n = 0xFFFFFFFF then newestOwn s.store else some n) with
  | none => none
  | some k => s.store.copies.find? (fun c => isCopy true 0 k c && copyComplete c)

/-- Its plaintext records, when it reads back without error and holds this module's state. -/
def openCopy (s : State) (recs : List Rec) (n : Nat) : Option (List (RecHdr × List Byte)) :=
  match s.su.ckey with
  | none => none
  | some k => (readCopy k recs).bind (fun ps =>
      match ps with
      | [] => none
      | p :: _ => if p.1.src = srcId ∧ (n = 0xFFFFFFFF ∨ p.1.ckpt = n) then some ps else none)

/-- Read the local copy (R397); its records, if it is readable. Without a mounted store there is none. -/
def readLocal (s : State) (n : Nat) : Option (List (RecHdr × List Byte)) × State :=
  match (if s.store.ready then localCopy s n else none) with
  | none => (none, s)
  | some c =>
    let s := readRecs s c.recs
    ((s.store.copies.find? (isCopy true 0 c.ckpt)).bind (fun d => openCopy s d.recs n), s)

/-- Bytes that READ_DATA frames have brought, from offset 0 without a gap; `f` bounds the recursion. -/
def gatherN : Nat → Nat → Sparse (List Byte) → List Byte
  | 0, _, _ => []
  | f + 1, a, t => match t.find? (fun e => e.1 == a && !e.2.isEmpty) with
    | none => []
    | some e => e.2 ++ gatherN f (a + e.2.length) t

/-- The buddy copy's records, if it has arrived whole and is readable. -/
def openBuddy (s : State) (n : Nat) : Option (List (RecHdr × List Byte)) :=
  openCopy s (splitRecs (gatherN (s.ckpt.read.length + 1) 0 s.ckpt.read)) n

/-- A restore reads the local copy that it names (R403). -/
def setReader (s : State) (n : Nat) : State :=
  { s with store := { s.store with copies := s.store.copies.map (fun c =>
      if c.own && (localCopy s n).any (fun k => k.ckpt == c.ckpt) then { c with reader := true } else c) } }

/-- No restore reads a local copy any more. -/
def clearReader (s : State) : State :=
  { s with store := { s.store with copies := s.store.copies.map (fun c => if c.own then { c with reader := false } else c) } }

/-- Ask the buddy for its copy (R387). -/
def askBuddy (s : State) (n : Nat) : State :=
  match s.ckpt.buddy with
  | some b => (sendBuddy s b.port b.jslot b.midx bREADREQ n 0 0 []).2
  | none => s

/-- CKPT_RESTORE (R387), up to ACCEPTED: an interruption (R382); the buddy is asked for its copy when no other is tried first. A refused command mounts
no store (R337, R473). -/
def execCkptRestore (m : Msg) (s : State) : Res :=
  .next (takeArgs s m 0x0051 [(0, 2), (32, 32), (64, 64)] (fun s =>
    let src := rsSource m
    let t := retryMount s
    if src = 3 ∨ (src = 1 ∧ s.ckpt.buddy.isNone) then badArg s m (inBody 0)
    else if src = 0 ∧ !t.store.ready then badArg t m (inBody 32)
    else if src = 0 ∧ (localCopy t (rsCkpt m)).isNone then badArg s m (inBody 32)
    else if s.ckpt.cur.isSome ∨ longOf s 0x0051 then busy s m 1
    else accept t m 0 (fun s =>
      let s := modCkpt (noteInterruption s) (fun c => { c with read := [] })
      if src = 1 then askBuddy s (rsCkpt m) else if s.store.ready then setReader s (rsCkpt m) else s)))

/-- Write bytes back to device memory, as checkpoint traffic. -/
def restoreBytes (s : State) (a : Nat) (l : List Byte) : State := devWrite (chargeDev s 4 4 a l.length true) a l false 0

/-- Give the residuals, or the regions, their bytes in turn. -/
def restoreRanges (s : State) : List (Nat × Nat) → List Byte → State
  | [], _ => s
  | r :: rest, l => restoreRanges (restoreBytes s r.1 (l.take r.2)) rest (l.drop r.2)

/-- Ask the leader for the decision of every group's open round, and after it of each later one (R390). -/
def askRounds (s : State) : State :=
  let gs := (s.train.groups.filter (fun g => g.2.valid)).map (fun g => g.1)
  gs.foldl askRound { s with train := { s.train with asking := setAddAll [] gs } }

/-- Everything that a restore writes (R387, R388): slots into CUR, residuals, regions, tables, records, monitor states, PRM248. No slot is held
afterwards. A group that awaited its decision at the cut awaits it again, with its pending slots and its verdict (R230, R390); what other groups had
counted or written pending is void. -/
def applyRestore (s : State) (ps : List (RecHdr × List Byte)) (dataStep : Nat) : Bool × State :=
  let man := manifestParse (payloadOf ps kMANIFEST)
  let d := metaParse (payloadOf ps kMETA)
  let waits (g : Nat) : Bool := (spGet .reset d.groups g).await
  let vt := d.vt.map (fun e => (e.1, { e.2 with hold0 := 0, hold1 := 0, hold2 := 0, hold3 := 0, pendV := e.2.pendV && waits e.2.group }))
  let groups := d.groups.map (fun e => (e.1, if e.2.await then e.2 else { e.2 with readyN := 0, withheld := false, wcause := 0 }))
  let sent := (d.groups.filter (fun e => e.2.await)).map (fun e => (⟨e.1, e.2.round, e.2.withheld, e.2.wcause, none, false, none⟩ : SentReady))
  let mons := (List.range 16).foldl (fun t k => spSet .reset t k (monState (spGet .reset s.train.mons k) (spGet .reset d.mons k))) s.train.mons
  let s := { s with train := { s.train with vt := vt, groups := groups, recs := d.recs, mons := mons, sent := sent } }
  let s := man.slots.foldl (fun s x =>
    let v := vtOf s x.1
    restoreBytes s (slotBase v v.cur) ((ps.filter (fun p => p.1.kind == kSLOT && p.1.tensor == x.1)).flatMap (fun p => p.2))) s
  let s := restoreRanges s man.resids (payloadOf ps kRESID)
  let s := restoreRanges s man.regions (payloadOf ps kREGION)
  let next := (d.step + 1) % 2 ^ 64
  let mis := dataStep ≠ next
  let s := (consistLcs s).foldl (fun s lc => modCluster s lc (fun c => { c with seq := { c.seq with prm := spSet 0 c.seq.prm 248 dataStep } })) s
  (mis, askRounds (if mis then logEvent s 0x0040 7 7 0 noLink (packFields [(dataStep, 64), (next, 64)]) else s))

/-- Restore the records of a readable copy, 0 the local one, 1 the buddy's, and report it (R387). -/
def restoreFrom (s : State) (m : Msg) (copy : Nat) (ps : List (RecHdr × List Byte)) : State :=
  let r := applyRestore s ps (rsData m)
  let num := (ps.head?).elim 0 (fun p => p.1.ckpt)
  let step := (metaParse (payloadOf ps kMETA)).step
  let sealed := (ps.find? (fun p => p.1.kind == kSEAL)).map (fun p => p.2)
  let s := modCkpt r.2 (fun c => { c with restored := some ⟨num, sealed⟩ })
  finish s m stOK 9 (packFields [(num, 32), (step, 32), (b2n r.1, 1), (copy, 1)])

/-- The end of CKPT_RESTORE (R387, R402): the local copy is read first unless SOURCE names the buddy's alone. When it is not readable and SOURCE is 0b10,
the buddy is asked, and the command goes on (`aux` 1) until its copy has come. No readable copy: CKPT is in error. -/
def finishCkptRestore (s : State) (m : Msg) (aux : Nat) : State :=
  let src := rsSource m
  let x := if src = 1 ∨ aux = 1 then (none, s) else readLocal s (rsCkpt m)
  let s := clearReader x.2
  match x.1 with
  | some ps => restoreFrom s m 0 ps
  | none =>
    if src = 2 ∧ aux ≠ 1 ∧ s.ckpt.buddy.isSome then setAux (askBuddy s (rsCkpt m)) m 1
    else
      let b := if src = 0 then none else openBuddy s (rsCkpt m)
      let s := modCkpt s (fun c => { c with read := [] })
      match b with
      | some ps => restoreFrom s m 1 ps
      | none => finish s m stBADARG 13 (badBody (inBody 32))

/-! CKPT_VERIFY -/

/-- CKPT_VERIFY (R389), up to ACCEPTED: it waits for the loss flow's first round after the next START. -/
def execCkptVerify (m : Msg) (s : State) : Res :=
  .next (takeArgs s m 0x0052 [] (fun s =>
    match s.ckpt.restored with
    | none => stateRefused s m
    | some r =>
      if r.sealed.isNone ∨ !s.ckpt.policy.lossV then badArg s m (inBody 0)
      else if s.ckpt.cur.isSome ∨ s.ckpt.verify.isSome ∨ longOf s 0x0051 then busy s m 1
      else accept (retryMount s) m 0 (fun s => modCkpt s (fun c => { c with verify := some (BitVec.ofNat 32 (mSeq m)) }))))

/-- Does a replayed value pass (R389)? Equal membership and bitmaps ask for the same bits; otherwise |difference| ≤ TOL × |V|. -/
def verifyPass (s : State) (sealed : List Byte) (v : F32) (mem grp : Nat) : Bool :=
  let v0 : F32 := BitVec.ofNat 32 (byteField sealed 0 4)
  if sealed.drop 4 = (sealPayloadBytes v (sha512 (memberSets s)) mem grp).drop 4 then v == v0
  else
    let diff := fvAbs (fvSub .rne (fv v) (fv v0))
    let lim := fvMul (fv s.ckpt.policy.tol) (fvAbs (fv v0))
    diff ≠ .nan && lim ≠ .nan && !(fvLt lim diff)

/-- The long command that a verification answers. -/
def verifyCmd (s : State) (q : BitVec 32) : Option LongCmd := s.mb.long.find? (fun l => mOpcode l.m == 0x52 && BitVec.ofNat 32 (mSeq l.m) == q)

/-- Judge the verification that waits (R389). A failure stops every cluster at its next DATUM with STEP = 1 and keeps the ready back. -/
def verifyRound (s : State) (v : F32) (mem grp : Nat) : State :=
  match s.ckpt.verify, s.ckpt.restored.bind (fun r => r.sealed) with
  | some q, some sealed =>
    let pass := verifyPass s sealed v mem grp
    let s := modCkpt s (fun c => { c with verify := none, mute := !pass })
    let s := logEvent s 0x0067 (if pass then 7 else 5) 7 0 noLink (packFields [(b2n (!pass), 8), (byteField sealed 0 4, 32), (v.toNat, 32)])
    let at_ := lastEntry s
    let s := if pass then s else oweStop s
    match verifyCmd s q with
    | none => s
    | some l => if pass then finish s l.m stOK 0 0 else finish s l.m stFAULTED 4 at_
  | _, _ => s

/-- The loss flow has completed a round: element 0 of its result and the bitmaps of its chunk are sealed, and compared when a verification
waits and the module has started since (R389). -/
def lossRound (s : State) (v : F32) (mem grp : Nat) : State :=
  let s := modCkpt s (fun c => { c with sealJob := c.sealJob.map (fun j =>
    if j.payload.isNone then { j with payload := some (sealPayloadBytes v j.digest mem grp) } else j) })
  let s := advanceCkpt s
  if s.op = .loaded then s else verifyRound s v mem grp

/-- The end of a CKPT_VERIFY whose wait STOP has ended: the consist it waited on is gone. -/
def finishCkptVerify (s : State) (m : Msg) : State := if s.ckpt.verify = some (BitVec.ofNat 32 (mSeq m)) then s else finishState s m

end Sys2Proof.Machine
end

