-- ==== Sys2Proof/Machine/BuddyCommands.lean ====
section
/-! DEFINITION. BUDDY frames as the module receives them: pairing (R385), a peer's checkpoint (R386, R401, R403), READ_REQ service (R387), and
slot fetches (R391). -/

namespace Sys2Proof.Machine

/-- A BUDDY sub-header (Table 13-9) and its data. -/
structure BuddyHdr where
  kind : Nat
  feed : Nat
  feedUnknown : Bool
  ckpt : Nat
  tensor : Nat
  off : Nat
  data : List Byte
  deriving DecidableEq, Repr

/-- Read a BUDDY payload. -/
def buddyHdr (pl : List Byte) : BuddyHdr :=
  let x := byteField pl 0 32
  ⟨natBits x 0 4, natBits x 4 4, natBits x 8 1 == 1, natBits x 16 32, natBits x 48 13, natBits x 64 48, (pl.drop 32).take (natBits x 128 14)⟩

/-- The payload of a received BUDDY frame, in clear. -/
def buddyPayload (s : State) (p : Nat) (f : Frame) : Option (List Byte) :=
  if (hdrOf f).type = tBUDDY then (acceptFrame s p f).1 else none

/-- Receive a BUDDY frame of the given kinds; one of another kind is another row's. -/
def buddyRx (s : State) (p : Nat) (f : Frame) (kinds : List Nat) (act : Nat → Nat → BuddyHdr → State → Nat × State) : State :=
  match buddyPayload s p f with
  | some pl =>
    if kinds.contains (buddyHdr pl).kind then receiveJob s p f tBUDDY (fun j h pl s => act j h.src (buddyHdr pl) s) else s
  | none => receiveJob s p f tBUDDY (fun j h pl s => act j h.src (buddyHdr pl) s)

/-! Pairing -/

/-- Are both FEED_ID values known and equal (R385)? -/
def feedsEqual (s : State) (b : BuddyHdr) : Bool := !b.feedUnknown && !s.boot.feedUnknown && b.feed == s.boot.feed

/-- The BUDDY_PAIR that waits for this member's answer. -/
def pairCmd (s : State) (p jslot midx : Nat) : Option LongCmd :=
  s.mb.long.find? (fun l => mOpcode l.m == 0x54 && mb l.m 48 3 == p && mb l.m 52 12 == jslot && l.aux == midx)

/-- A PAIR frame: the answer that a BUDDY_PAIR waits for, or a request, which is answered unless two other modules are already served. -/
def takePair (p jslot midx : Nat) (b : BuddyHdr) (s : State) : State :=
  let mac := (memberMac s jslot midx).getD 0
  match pairCmd s p jslot midx with
  | some l =>
    if feedsEqual s b then finish s l.m stBADARG 13 (badBody (inBody 0))
    else
      let s := modCkpt s (fun c => { c with buddy := some ⟨mac, p, jslot, midx, b.feed, b.feedUnknown⟩ })
      finish s l.m stOK 1 (packFields [(b.feed, 4), (b2n b.feedUnknown, 1)])
  | none =>
    let answer (s : State) : State := (sendBuddy s p jslot midx bPAIR 0 0 0 []).2
    if feedsEqual s b ∨ s.ckpt.peers.contains mac then answer s
    else if s.ckpt.peers.length < 2 then answer (modCkpt s (fun c => { c with peers := c.peers ++ [mac] }))
    else s

/-- BUDDY_PAIR_RX (R385). -/
def execBuddyPairRx (port : Nat) (f : Frame) (s : State) : Res :=
  .next (buddyRx s port f [bPAIR] (fun j m b s => (ackACCEPTED, takePair port j m b s)))

/-! A peer's checkpoint -/

/-- The buffer of a peer's checkpoint; one that follows a copy whose END is stored goes on where the copy stands. -/
def inboundOf (s : State) (peer jslot midx ckpt : Nat) : Inbound :=
  match s.ckpt.inb.find? (fun i => i.peer == peer && i.ckpt == ckpt) with
  | some i => i
  | none => match s.store.copies.find? (isCopy false peer ckpt) with
    | some c => ⟨peer, jslot, midx, ckpt, c.recs.foldl (fun n r => n + r.bytes.length) 0, [],
        (c.recs.getLast?.bind (fun r => recHdr r.bytes)).map (fun h => (h.alive, h.index)), [], c.broken⟩
    | none => ⟨peer, jslot, midx, ckpt, 0, [], none, [], false⟩

/-- Store one record of a peer, freeing space for it when it must (R403). -/
def storePeer (s : State) (peer ckpt : Nat) (bytes : List Byte) (last : Bool) : Option State :=
  match storeRecord s.store s.clk.aon false peer ckpt bytes last with
  | some st => some (storeWear (chargeNand { s with store := st } 4 bytes.length))
  | none => match (makeSpace s.store eraseBytes (copyBusy s)).bind (fun st => storeRecord st s.clk.aon false peer ckpt bytes last) with
    | some st => some (storeWear (chargeNand (takeSpace s st) 4 bytes.length))
    | none => none

/-- Take complete records in order (R401): a stale one is dropped, a good one is stored, any other loses the copy from there. None when the
store has no space. -/
def takeRecs (peer ckpt : Nat) : List Rec → Inbound → State → Option (Inbound × State)
  | [], i, s => some (i, s)
  | r :: rest, i, s =>
    let i' := { i with got := i.got + r.bytes.length }
    match recHdr r.bytes with
    | none => some ({ i with lost := true }, s)
    | some h =>
      match judgeRec i.last h with
      | .stale => takeRecs peer ckpt rest i' s
      | .lost => some ({ i with lost := true }, s)
      | .accepted => match storePeer s peer ckpt r.bytes (h.kind == kEND) with
        | none => none
        | some s => takeRecs peer ckpt rest { i' with last := some (h.alive, h.index) } s

/-- Does the store's space, the module's sleep or its mount keep buddy service away now (R433)? -/
def buddyOff (s : State) : Bool := s.slp.entering.isSome || !s.store.ready

/-- A buddy request that comes during an entry is a refuser at the point of no return (R433): it is not served, and it is noted. -/
def noteAsked (s : State) (midx : Nat) : State :=
  if s.slp.entering.isSome ∧ !s.slp.ponr then modSlp s (fun p => { p with asked := some (p.asked.getD midx) }) else s

/-- The peers whose copies this module holds, with this one (R385): known, or its own buddy, whose request crossed this module's, as a third
module is none (log 26). -/
def withPeer (s : State) (peer : Nat) : Option State :=
  if s.ckpt.peers.contains peer then some s
  else if s.ckpt.buddy.any (fun b => b.mac == peer) ∧ s.ckpt.peers.length < 2 then some (modCkpt s (fun c => { c with peers := c.peers ++ [peer] }))
  else none

/-- Take and answer the frames whose bytes are stored, or belong to a lost copy (R401, log 26). -/
def settleOwed (s : State) (i : Inbound) : Inbound × State :=
  let due := i.owed.filter (fun o => i.lost || decide (o.2.2 ≤ i.got))
  ({ i with owed := i.owed.filter (fun o => !(i.lost || decide (o.2.2 ≤ i.got))) },
    due.foldl (fun s o => sendAck (noteTaken s (rxSpace o.1 i.jslot (hdrOf o.2.1)) (hdrOf o.2.1).seq ackACCEPTED) o.1 o.2.1 ackACCEPTED) s)

/-- The bytes of a frame join those of the checkpoint, and the records that are complete are judged and stored; the frames that are then stored
are answered. -/
def joinCkptData (p : Nat) (f : Frame) (b : BuddyHdr) (i : Inbound) (s : State) : Nat × State :=
  let parts := spPut i.parts (max b.off i.got) (b.data.drop (i.got - b.off))
  let whole := gatherN (parts.length + 1) i.got parts
  let owed := if i.owed.any (fun o => o.1 == p && o.2.1 == f) then i.owed else i.owed ++ [(p, f, b.off + b.data.length)]
  match takeRecs i.peer i.ckpt (splitRecs whole) { i with parts := parts, owed := owed } s with
  | none => (ackBUSY, s)
  | some (k, s) =>
    let rest := whole.drop (k.got - i.got)
    let lost := k.lost || (decide (64 ≤ rest.length) && (recHdr rest).isNone)
    let beyond := parts.filter (fun e => decide (k.got + rest.length < e.1))
    let k := { k with lost := lost, parts := if lost then [] else if rest.isEmpty then beyond else spPut beyond k.got rest }
    let mine (c : Copy) : Bool := isCopy false i.peer i.ckpt c
    let s := if lost then { s with store := { s.store with copies := s.store.copies.map (fun c =>
        if mine c && !c.end_ then { c with broken := true } else c) } } else s
    let x := settleOwed s k
    let ended := x.2.store.copies.any (fun c => mine c && c.end_)
    -- of this peer's earlier checkpoints nothing more is awaited
    let others := x.2.ckpt.inb.filter (fun y => y.peer != i.peer || decide (i.ckpt < y.ckpt))
    (ackLATER, modCkpt x.2 (fun c => { c with inb := if ended && x.1.parts.isEmpty && !lost then others else others ++ [x.1] }))

/-- DATA or END: the bytes are stored before the ACK (R401). A frame whose bytes are stored, one of a lost copy, and one of a module whose copies this one
does not hold are answered at once. -/
def takeCkptData (p : Nat) (f : Frame) (jslot midx : Nat) (b : BuddyHdr) (s : State) : Nat × State :=
  match memberMac s jslot midx with
  | none => (ackACCEPTED, s)
  | some peer =>
    if buddyOff s then (ackBUSY, noteAsked s midx)
    else if !(admits s 4 nandCells) then (ackBUSY, waitCells s 4 nandCells)
    else match withPeer s peer with
      | none => (ackACCEPTED, s)
      | some s =>
        let i := inboundOf s peer jslot midx b.ckpt
        if i.lost ∨ b.data.isEmpty ∨ b.off + b.data.length ≤ i.got then (ackACCEPTED, s) else joinCkptData p f b i s

/-- BUDDY_DATA_RX (R401). -/
def execBuddyDataRx (port : Nat) (f : Frame) (s : State) : Res :=
  .next (buddyRx s port f [bDATA, bEND] (fun j m b s => takeCkptData port f j m b s))

/-! READ_REQ -/

/-- The complete copy of a peer that READ_REQ names; 0xFFFF_FFFF names the newest. -/
def peerCopy (s : State) (peer n : Nat) : Option Copy :=
  let cs := s.store.copies.filter (fun c => !c.own && c.peer == peer && copyComplete c)
  if n = 0xFFFFFFFF then cs.foldl (fun m c => match m with
    | none => some c
    | some d => if d.ckpt < c.ckpt then some c else some d) none
  else cs.find? (fun c => c.ckpt == n)

/-- Send a peer its copy (R387), read from the store (R397). A copy of which a record proves unreadable is not complete, and is not sent. -/
def serveRead (p jslot midx : Nat) (b : BuddyHdr) (s : State) : Nat × State :=
  if buddyOff s then (ackBUSY, noteAsked s midx)
  else if !(admits s 4 nandCells) then (ackBUSY, waitCells s 4 nandCells)
  else match (memberMac s jslot midx).bind (fun peer => peerCopy s peer b.ckpt) with
    | none => (ackACCEPTED, s)
    | some c =>
      let s := readRecs s c.recs
      if !(s.store.copies.any (fun d => isCopy false c.peer c.ckpt d && copyComplete d)) then (ackACCEPTED, s) else
      let bytes := c.recs.flatMap (fun r => r.bytes)
      let r := sendBuddyAll s p jslot midx bREADDATA bREADDATA c.ckpt 0 0 bytes
      (ackACCEPTED, modCkpt r.2 (fun k =>
        { k with serving := k.serving.filter (fun v => framesOpen s v.port v.jslot v.midx v.seqs) ++ [⟨p, jslot, midx, c.peer, c.ckpt, r.1⟩] }))

/-- BUDDY_READ_REQ_RX (R387). -/
def execBuddyReadReqRx (port : Nat) (f : Frame) (s : State) : Res :=
  .next (buddyRx s port f [bREADREQ] (fun j m b s => serveRead port j m b s))

/-- READ_DATA of the buddy, while a restore waits for it. -/
def takeReadData (p jslot midx : Nat) (b : BuddyHdr) (s : State) : State :=
  if s.ckpt.buddy.any (fun y => y.port == p && y.jslot == jslot && y.midx == midx) && longOf s 0x0051 && !b.data.isEmpty then
    modCkpt s (fun c => { c with read := spPut c.read b.off b.data })
  else s

/-- BUDDY_READ_DATA_RX (R387). -/
def execBuddyReadDataRx (port : Nat) (f : Frame) (s : State) : Res :=
  .next (buddyRx s port f [bREADDATA] (fun j m b s => (ackACCEPTED, takeReadData port j m b s)))

/-! Slot fetches -/

/-- SLOT_REQ: the member sends its CUR slot, and holds it until its frames are acknowledged (R381, R391). -/
def serveSlot (p jslot midx : Nat) (b : BuddyHdr) (s : State) : Nat × State :=
  let v := vtOf s b.tensor
  if s.slp.entering.isSome then (ackBUSY, noteAsked s midx)
  else if !v.valid then (ackACCEPTED, s)
  else if !(admits s 4 (devCells 4 (slotBase v v.cur) false)) then (ackBUSY, waitCells s 4 (devCells 4 (slotBase v v.cur) false))
  else
    let a := slotBase v v.cur
    let d := devRead (chargeDev s 4 4 a v.size false) a v.size
    let r := sendBuddyAll d.2 p jslot midx bSLOTDATA bSLOTDATA v.ver b.tensor 0 d.1.data
    (ackACCEPTED, modCkpt r.2 (fun k =>
      { k with slotServe := k.slotServe.filter (fun x => framesOpen s x.port x.jslot x.midx x.seqs) ++ [⟨b.tensor, v.cur, p, jslot, midx, r.1⟩] }))

/-- BUDDY_SLOT_REQ_RX (R391). -/
def execBuddySlotReqRx (port : Nat) (f : Frame) (s : State) : Res :=
  .next (buddyRx s port f [bSLOTREQ] (fun j m b s => serveSlot port j m b s))

/-- Write a tensor that has arrived whole into its CUR slot and set its VER (R391). -/
def placeSlot (s : State) (t ver : Nat) (parts : Sparse (List Byte)) : State :=
  let v := vtOf s t
  modVt (restoreBytes s (slotBase v v.cur) ((gatherN (parts.length + 1) 0 parts).take v.size)) t (fun v => { v with ver := ver })

/-- SLOT_DATA joins its fetch; a tensor that is whole is placed, and a group without owed tensors takes its ROUND (R391). -/
def takeSlotData (b : BuddyHdr) (s : State) : State :=
  match s.ckpt.fetch.find? (fun g => g.tensors.any (fun t => t.1 == b.tensor)) with
  | none => s
  | some g =>
    let parts := spPut ((g.tensors.find? (fun t => t.1 == b.tensor)).elim [] (fun t => t.2)) b.off b.data
    let others := s.ckpt.fetch.filter (fun x => x.group != g.group)
    if (gatherN (parts.length + 1) 0 parts).length < (vtOf s b.tensor).size then
      modCkpt s (fun c => { c with fetch := others ++ [{ g with tensors := g.tensors.map (fun t => if t.1 = b.tensor then (t.1, parts) else t) }] })
    else
      let s := placeSlot s b.tensor b.ckpt parts
      let left := g.tensors.filter (fun t => t.1 != b.tensor)
      if left.isEmpty then modGroup (modCkpt s (fun c => { c with fetch := others })) g.group (fun x => { x with round := g.round })
      else modCkpt s (fun c => { c with fetch := others ++ [{ g with tensors := left }] })

/-- BUDDY_SLOT_DATA_RX (R391). -/
def execBuddySlotDataRx (port : Nat) (f : Frame) (s : State) : Res :=
  .next (buddyRx s port f [bSLOTDATA] (fun _ _ b s => (ackACCEPTED, takeSlotData b s)))

/-- Fetch the current slots of every tensor of a group whose ROUND lies behind the leader's from a present member of the ring group (R391).
The VER asked for counts one commit for each round between (log 26). -/
def startFetch (s : State) (jslot g round : Nat) : State :=
  let j := jobOf s jslot
  let own := groupOf s g
  let ts := (s.train.vt.filter (fun e => e.2.valid && e.2.group == g)).map (fun e => e.1)
  match ((List.range j.p).map (fun pos => j.gidx * j.p + pos)).find? (fun m => m != j.midx && !(memberAbsent s jslot m)) with
  | none => s
  | some m =>
    if s.ckpt.fetch.any (fun x => x.group == g) ∨ round ≤ own.round then s
    else if ts.isEmpty then modGroup s g (fun x => { x with round := round })
    else
      let s := modCkpt s (fun c => { c with fetch := c.fetch ++ [⟨g, round, ts.map (fun t => (t, []))⟩] })
      ts.foldl (fun s t => (sendBuddy s j.cport jslot m bSLOTREQ ((vtOf s t).ver + (round - own.round)) t 0 []).2) s

end Sys2Proof.Machine
end

