-- ==== Sys2Proof/Machine/FabricCommands.lean ====
section
/-! DEFINITION. Frames of jobs and the timers of the ports (R286, R291, R292, R295 to R299, R304, R312 to R315, R318, R322, R323, R360, R374, R376). -/

namespace Sys2Proof.Machine

/-! DATA -/

/-- Bytes of a port's staging memory (R299). -/
def stagingCap : Nat := 16 * 2 ^ 20

/-- A DATA frame of the flow's own configuration and current round (R299, R301, R304): bound, staged, and acted on. -/
def takePiece (s : State) (p : Nat) (h : Hdr) (pl : List Byte) (note : PieceNote) : Nat × State :=
  let x := stageOf s p h.flow h.chunk h.stage
  if x.bound.any (fun m => m != h.src) then (ackSTALE, s)
  else if decide (stagingCap < stageBytes s p + pl.length) then (ackBUSY, s)
  else
    let s := modStage s p h.flow h.chunk h.stage (fun x =>
      { x with bound := some h.src, hops := h.hops, contrib := h.contrib
               staged := if h.piece < x.nextIn then x.staged else spPut x.staged h.piece (pl, note) })
    (ackACCEPTED, advanceChunk s p h.flow h.chunk)

/-- A DATA frame of a flow (R295, R299). A frame whose ROUND is more than one ahead is answered BUSY like one that is one ahead, and so is
one that is not taken for another reason: no context of the job, no chunk of the flow, another CFGCHK, stopped reductions (log 18). -/
def takeData (note : PieceNote) (p : Nat) (j : Nat) (h : Hdr) (pl : List Byte) (s : State) : Nat × State :=
  let f := flowOf s p h.flow
  if !f.valid ∨ f.jslot ≠ j ∨ (jobOf s j).stopped then (ackBUSY, s)
  else if h.cfgchk ≠ (fstatOf s p h.flow).cfgchk then
    let s := modPort s p (fun q => { q with cfgMis := satAdd 32 q.cfgMis 1 })
    if (fstatOf s p h.flow).flagged then (ackBUSY, s)
    else (ackBUSY, logEvent (modFstat s p h.flow (fun x => { x with flagged := true })) 0x0022 7 3 p noLink
      (packFields [((jobOf s j).job, 16), (h.flow, 15)]))
  else if h.round < f.round then (ackSTALE, s)
  else if f.round < h.round then (ackBUSY, s)
  else if f.chunkCount ≤ h.chunk then (ackBUSY, s)
  else takePiece s p h pl note

/-- DATA_RX (R306). -/
def execDataRx (port : Nat) (f : NotedFrame) (s : State) : Res := .next (receiveJob s port f.frame tDATA (takeData f.note port))

/-! ACK -/

/-- Does an ACK answer this frame? It copies every header field but TYPE and LEN (R291). -/
def ackFits (h : Hdr) (u : Unacked) : Bool :=
  let x := hdrOf u.frame
  decide ({ x with type := h.type, len := h.len } = h)

/-- STALE: the chain of the chunk-stage is dropped (Table 11-3). -/
def dropChain (s : State) (p : Nat) (x : Piece) : State :=
  let same (y : Piece) : Bool := y.ctx == x.ctx && y.round == x.round && y.chunk == x.chunk && y.stage == x.stage
  let s := modPort s p (fun q =>
    { q with unacked := q.unacked.filter (fun u => !(u.piece.any same)), formed := q.formed.filter (fun y => !(same y.piece)) })
  if (flowOf s p x.ctx).valid ∧ (flowOf s p x.ctx).round = x.round then modStage s p x.ctx x.chunk x.stage (fun y => { y with dropped := true }) else s

/-- What the answer to a frame does at its sender (R226, R291, R381). -/
def ackTaken (s : State) (p : Nat) (u : Unacked) (stale : Bool) : State :=
  let h := hdrOf u.frame
  if h.type = tREADY then
    let now := s.clk.aon
    { s with train := { s.train with sent := s.train.sent.map (fun r =>
        if r.seq = some h.seq ∧ r.ackedAt.isNone ∧ (jobSlot s (groupOf s r.group).job) = some u.jslot then { r with ackedAt := some now } else r) } }
  else if h.type = tBUDDY then ckptAcked s p u.jslot u.midx h.seq
  else match u.piece with
    | some x => if stale then dropChain s p x else s
    | none => s

/-- One ACK that passed R290. -/
def takeAck (s : State) (p : Nat) (h : Hdr) (status : Nat) : State :=
  match (portOf s p).unacked.find? (ackFits h) with
  | none => s
  | some u =>
    if status = ackBUSY then
      modPort s p (fun q => { q with unacked := q.unacked.map (fun x => if ackFits h x then { x with busy := true } else x) })
    else if status = 3 then s
    else ackTaken (modPort s p (fun q => { q with unacked := q.unacked.filter (fun x => !(ackFits h x)) })) p u (status == ackSTALE)

/-- A frame of one type that needs no ACK: `act` runs on one that R286 and R290 accept. -/
def receivePlain (s : State) (p : Nat) (f : Frame) (type : Nat) (act : List Byte → State → State) : State :=
  if 8 ≤ p ∨ ((hdrOf f).type ≠ type ∧ !(foreign s p f)) then s
  else
    let s := frameActivity s p
    if !(portsServe s) || !(frameMay s p) then s
    else match acceptFrame s p f with
      | (none, s) => flushEvents s
      | (some pl, s) => flushEvents (act pl s)

/-- ACK_RX (R291). -/
def execAckRx (port : Nat) (f : Frame) (s : State) : Res :=
  .next (receivePlain s port f tACK (fun pl s => takeAck s port (hdrOf f) (natBits (byteField pl 0 1) 0 2)))

/-! READY, DECISION, DEC_REQ -/

/-- READY at the leader (R227, R318). A module that is not the job's leader answers BUSY: a removal may still make it so (R377, log 21). -/
def takeReadyFrame (p : Nat) (k : Nat) (h : Hdr) (pl : List Byte) (s : State) : Nat × State :=
  let j := jobOf s k
  let x := byteField pl 0 16
  let g := natBits x 0 10
  if p ≠ j.cport then (ackBUSY, s)
  else if j.leader ≠ j.midx then (ackBUSY, s)
  else if (decided s j.job g h.round).isSome then (ackACCEPTED, s)
  else (ackACCEPTED, takeReady s k ⟨j.job, g, h.round, h.src, natBits x 10 1 == 1, natBits x 16 8⟩)

/-- READY_RX (R227, R318). -/
def execReadyRx (port : Nat) (f : Frame) (s : State) : Res := .next (receiveJob s port f tREADY (takeReadyFrame port))

/-- The decision of a DECISION frame (Table 11-10). -/
def decisionParse (job round leader : Nat) (pl : List Byte) : Decision :=
  let x := byteField pl 0 40
  let n := natBits x 32 16
  ⟨job, natBits x 0 10, round, natBits x 10 2 == 1, natBits x 16 8, leader, n,
    (List.range (min n 8)).map (fun i => (natBits x (64 + 32 * i) 16, natBits x (80 + 32 * i) 8))⟩

/-- A member applies a decision once (R227 to R229, R318); a round ahead of the group's starts a fetch (R391), and after a
restore the next round is asked for (R390). A leader that learns a decision from
a member adopts it and sends it to all (R377). -/
def takeDecision (p : Nat) (k : Nat) (h : Hdr) (pl : List Byte) (s : State) : Nat × State :=
  let j := jobOf s k
  let d := decisionParse j.job h.round j.leader pl
  let g := groupOf s d.group
  if p ≠ j.cport then (ackBUSY, s)
  else if !g.valid ∨ g.job ≠ j.job then (ackACCEPTED, s)
  else if j.leader = j.midx then
    if (decided s j.job d.group d.round).isSome then (ackACCEPTED, s)
    else (ackACCEPTED, applyDecision (sendDecision (if g.round = d.round then writeRec (keepDecision s d) d else keepDecision s d) k d) d)
  else if g.round < d.round then (ackACCEPTED, startFetch s k d.group (d.round + 1))
  else
    let t := applyDecision s d
    (ackACCEPTED, if (groupOf t d.group).round ≠ g.round ∧ setHas t.train.asking d.group then askRound t d.group else t)

/-- DECISION_RX (R318). -/
def execDecisionRx (port : Nat) (f : Frame) (s : State) : Res := .next (receiveJob s port f tDECISION (takeDecision port))

/-- The decision that this module's commit record holds for a round (R377). -/
def recordDecision (s : State) (k g round : Nat) : Option Decision :=
  let r := spGet .reset s.train.recs g
  if r.decision ≠ 0 ∧ r.round = round ∧ r.job = (jobOf s k).job then
    some ⟨r.job, g, round, r.decision == 1, r.wcause, r.leader, 0, []⟩
  else none

/-- DEC_REQ: the leader answers from its last 16 decisions, a member asked by its leader from its commit record (R227, R318, R377). One asked by
another member than its leader answers BUSY, as for READY (log 21). -/
def takeDecReq (p : Nat) (k : Nat) (h : Hdr) (pl : List Byte) (s : State) : Nat × State :=
  let j := jobOf s k
  let g := natBits (byteField pl 0 2) 0 10
  if p ≠ j.cport then (ackBUSY, s)
  else if j.leader ≠ j.midx ∧ j.leader ≠ h.src then (ackBUSY, s)
  else match (if j.leader = j.midx then decided s j.job g h.round else recordDecision s k g h.round) with
    | some d => (ackACCEPTED, sendControl s k h.src tDECISION h.round (decisionPayload d))
    | none => (ackACCEPTED, s)

/-- DEC_REQ_RX (R318, R377). -/
def execDecReqRx (port : Nat) (f : Frame) (s : State) : Res := .next (receiveJob s port f tDECREQ (takeDecReq port))

/-! OOS, WAKE, foreign frames -/

/-- The members of all jobs whose BASE_MAC is this. -/
def membersWith (s : State) (mac : Nat) : List (Nat × Nat) :=
  (s.fab.jobs.filter (fun e => e.2.valid)).flatMap (fun e =>
    ((members e.2).filter (fun m => m != e.2.midx && memberMac s e.1 m == some mac)).map (fun m => (e.1, m)))

/-- OOS: every member-table entry of its BASE_MAC becomes absent, and the member is skipped (R322). -/
def takeOos (p : Nat) (pl : List Byte) (s : State) : State :=
  let s := modPort s p (fun q => { q with oosRx := satAdd 32 q.oosRx 1 })
  (membersWith s (byteField pl 0 6)).foldl (fun s x => memberGone s p x.1 x.2) s

/-- OOS_RX (R322). -/
def execOosRx (port : Nat) (f : Frame) (s : State) : Res := .next (receivePlain s port f tOOS (takeOos port))

/-- WAKE_RX (R323): awake it does nothing; at SL1 and SL2 it wakes under WAKE_CFG. The scrub takes it too (R322). -/
def execWakeRx (port : Nat) (f : Frame) (s : State) : Res :=
  .next (if s.op = .scrubbing ∧ port < 8 ∧ (hdrOf f).type = tWAKE then (acceptFrame s port f).2 else receivePlain s port f tWAKE (fun _ s => s))

/-- FOREIGN_FRAME_RX (R286): discarded and counted, whatever EN. A sleeping module wakes by it under FAB_EN, and counts nothing otherwise (R323). -/
def execForeignFrameRx (port : Nat) (f : Frame) (s : State) : Res :=
  .next (if port < 8 ∧ foreign s port f ∧ fabRuns s ∧ s.boot.phase = .up then
    let s := frameActivity s port
    if s.op ≠ .sl2 ∧ frameMay s port then (acceptFrame s port f).2 else s
  else s)

/-! Timers of frames -/

/-- Send a frame again, with the same SEQ and bytes (R291, R292). -/
def resend (s : State) (p n : Nat) (busy : Bool) : State :=
  match (portOf s p).unacked[n]? with
  | none => s
  | some u =>
    if u.busy ≠ busy ∨ !(portsServe s) ∨ !(portSends s p) then s
    else
      let s := putFrame s p u.frame
      modPort s p (fun q => { q with retx := satAdd 32 q.retx 1, unacked := listMod (fun u => { u with busy := false }) q.unacked n })

/-- RETRANSMIT_TIMEOUT (R292). -/
def execRetransmitTimeout (port n : Nat) (s : State) : Res := .next (resend s port n false)

/-- BUSY_RETRY (R291). -/
def execBusyRetry (port n : Nat) (s : State) : Res := .next (resend s port n true)

/-- PEER_ABSENT (R292): a member that frames of this port wait for has answered none for 50 µs. -/
def execPeerAbsent (port jslot midx : Nat) (s : State) : Res :=
  .next (if portsServe s && (jobOf s jslot).valid && (portOf s port).unacked.any (fun u => u.jslot == jslot && u.midx == midx) then
    memberGone s port jslot midx else s)

/-! Rounds -/

/-- Do the reductions of the flow's job run (R321)? -/
def flowRuns (s : State) (p ctx : Nat) : Bool := (flowOf s p ctx).valid && !(jobOf s (flowOf s p ctx).jslot).stopped

/-- FLOW_ROUND_OPEN (R297). It waits while a checkpoint holds the residuals that the round would overwrite (R381), and during sleep entry. -/
def execFlowRoundOpen (port ctx : Nat) (s : State) : Res :=
  let f := flowOf s port ctx
  let sec := port / 2
  if port < 8 ∧ flowRuns s port ctx ∧ !f.fopen ∧ f.trigThresh ≤ sfGet s sec f.trig ∧ portsServe s ∧ s.slp.entering.isNone ∧
      !(f.residEn && ckptHoldsResid s (port * 32768 + ctx) f.parity) then
    .next (modFlow (sfClear s sec f.trig) port ctx (fun f => { f with fopen := true }))
  else .next s

/-- CONTRIBUTION_READY (R297, R312): the port has read a chunk's source. Poisoned granules keep it from being ready (R314). -/
def execContributionReady (port ctx chunk : Nat) (s : State) : Res :=
  let f := flowOf s port ctx
  if flowRuns s port ctx ∧ f.fopen ∧ chunk < f.chunkCount ∧ (ownOf s port ctx chunk).isNone ∧ portsServe s then
    gate s 3 (devCells (port / 2) (srcRange f chunk).1 false) (.next (flushEvents (advanceChunk (readOwn s port ctx chunk) port ctx chunk)))
  else .next s

/-- SOURCE_REREAD (R314). -/
def execSourceReread (port ctx chunk : Nat) (s : State) : Res :=
  match ownOf s port ctx chunk with
  | none => .next s
  | some o =>
    let f := flowOf s port ctx
    if o.bad.isEmpty ∨ o.skipped ∨ !(flowRuns s port ctx) ∨ !f.fopen ∨ !(portsServe s) then .next s
    else if !(admits s 3 (devCells (port / 2) (srcRange f chunk).1 false)) then .next (waitCells s 3 (devCells (port / 2) (srcRange f chunk).1 false))
    else
      let a := rereadRange s port (srcRange f chunk).1 (srcRange f chunk).2 o.src o.bad
      let b := rereadRange a.2 port (src2Range f chunk).1 (src2Range f chunk).2 o.src2 o.bad
      .next (flushEvents (advanceChunk (putOwn b.2 { o with src := a.1.1, src2 := b.1.1, bad := a.1.2 ++ b.1.2 }) port ctx chunk))

/-- A chunk goes on without a contribution whose source is poisoned: POISON_SKIPPED with the element count (R314). -/
def skipPoisoned (s : State) (p ctx c : Nat) : State :=
  match ownOf s p ctx c with
  | none => s
  | some o =>
    if o.bad.isEmpty then s
    else
      let f := flowOf s p ctx
      let n := (List.range (f.chunkN c)).countP (elemBad f c o.bad)
      logEvent (putOwn s { o with skipped := true }) 0x0023 7 3 p noLink (packFields [(n, 32)])

/-- CONTRIB_DEADLINE (R312): the waiting pieces go on unchanged. A starter that is not ready sends the chunk on with CONTRIB = 0. -/
def execContribDeadline (port ctx chunk : Nat) (s : State) : Res :=
  let f := flowOf s port ctx
  let x := stageOf s port ctx chunk 0
  if !(flowRuns s port ctx) ∨ f.chunkCount ≤ chunk ∨ x.act ≠ 0 ∨ !(portsServe s) ∨ ownReady s port ctx chunk then .next s
  else if x.bound.isSome then
    .next (flushEvents (advanceChunk (modStage (skipPoisoned s port ctx chunk) port ctx chunk 0 (fun x => { x with act := 2 })) port ctx chunk))
  else if f.fopen ∧ ringFirst s f.jslot chunk then
    .next (flushEvents (advanceChunk (startChain (skipPoisoned s port ctx chunk) port ctx chunk false) port ctx chunk))
  else .next s

/-- Is this the member after the starter, which is present (R313)? -/
def afterStarter (s : State) (k c : Nat) : Bool :=
  let j := jobOf s k
  ((rangeFrom 1 (ringNum j c - 1)).filter (fun m => !(posAbsent s k (ringPos j c m)))).length == 1

/-- STARTER_TIMEOUT (R313): the member after the starter starts the chunk itself. -/
def execStarterTimeout (port ctx chunk : Nat) (s : State) : Res :=
  let f := flowOf s port ctx
  let x := stageOf s port ctx chunk 0
  if flowRuns s port ctx ∧ chunk < f.chunkCount ∧ x.act = 0 ∧ x.bound.isNone ∧ portsServe s ∧ ownReady s port ctx chunk ∧ afterStarter s f.jslot chunk then
    .next (flushEvents (advanceChunk (startChain s port ctx chunk true) port ctx chunk))
  else .next s

/-- Bits of a list of flags that are set. -/
def countTrue (l : List Bool) : Nat := l.countP (fun b => b)

/-- A round of a job ends with or without DEADLINE_MISSED (R374). -/
def noteSlow (s : State) (k : Nat) (missed : Bool) : State :=
  let w := (missed :: spGet [] s.fab.slow k).take s.ckpt.policy.slowM
  let n := countTrue w
  if missed && decide (0 < s.ckpt.policy.slowN) && decide (s.ckpt.policy.slowN ≤ n) then
    logEvent { s with fab := { s.fab with slow := spSet [] s.fab.slow k [] } } 0x0063 7 7 0 noLink (packFields [((jobOf s k).job, 16), (n, 32)])
  else { s with fab := { s.fab with slow := spSet [] s.fab.slow k w } }

/-- Element 0 of a completed result, in FP32 (R389), as the controllers deliver it. -/
def resultElem0 (s : State) (f : Flow) : F32 × State :=
  let a := f.result + f.parity * f.resultStride
  let x := devRead (chargeDev s (s.ckpt.policy.lossPort / 2) 3 a 1 false) a (max 1 (fmtBits f.rfmt / 8))
  if isBs8 f.rfmt then
    let sc := devRead (chargeDev x.2 (s.ckpt.policy.lossPort / 2) 3 (a + f.n) 1 false) (a + f.n) 1
    (rne (decodeBs8 f.rfmt (ofLe sc.1.data) (ofLe x.1.data)), sc.2)
  else (rne (decodeElem f.rfmt (ofLe x.1.data)), x.2)

/-- Is every chunk of the round written, and every residual (R298)? -/
def roundDone (s : State) (p ctx : Nat) : Bool :=
  let f := flowOf s p ctx
  (List.range f.chunkCount).all (fun c => (resultOf s p ctx c).written && (!f.residEn || (ownOf s p ctx c).any (fun o => o.resid)))

/-- FLOW_ROUND_COMPLETE (R298, R315, R374, R389). -/
def execFlowRoundComplete (port ctx : Nat) (s : State) : Res :=
  let f := flowOf s port ctx
  if !(flowRuns s port ctx && f.fopen && portsServe s && roundDone s port ctx) then .next s
  else
    let x := fstatOf s port ctx
    let loss := s.ckpt.policy.lossV && s.ckpt.policy.lossPort == port && s.ckpt.policy.lossCtx == ctx
    let r0 := resultOf s port ctx 0
    let v := if loss then resultElem0 s f else (0, s)
    let s := v.2
    let s := if x.lateN = 0 then s else
      logEvent s 0x0021 7 3 port noLink (packFields [((jobOf s f.jslot).job, 16), (ctx, 15), (x.lateN, 16)])
    let s := noteSlow s f.jslot (x.lateN ≠ 0)
    let s := modFlow s port ctx (fun f => { f with round := (f.round + 1) % 2 ^ 32, fopen := false })
    let s := modFstat (clearRound s port ctx) port ctx (fun x =>
      { x with chDone := 0, lateN := 0, bumpsR := 0, limit := false, flagged := false })
    let s := sfAdd s (port / 2) f.done 1
    .next (flushEvents (if loss then lossRound s v.1 r0.members r0.groups else s))

/-- A chunk without a result is written as lost (R376): every element +0, CONTRIB = 0; no module holds its sum, and HOLDER is a free value
(log 19). -/
def loseChunk (s : State) (p ctx c : Nat) : State :=
  let f := flowOf s p ctx
  if (resultOf s p ctx c).written then s
  else
    let d := drawFree 0 65535 s
    let base := f.result + f.parity * f.resultStride
    let n := fmtBytes f.rfmt (f.chunkN c)
    let s := devWrite (chargeDev d.2 (p / 2) 3 (base + fmtBytes f.rfmt (f.chunkLo c)) n true) (base + fmtBytes f.rfmt (f.chunkLo c)) (zeros n) false 0
    let s := if isBs8 f.rfmt then devWrite s (base + f.n + f.chunkLo c / 32) (zeros (f.chunkN c / 32)) false 0 else s
    let s := [0, 1, 2, 3, 4, 5].foldl (fun s st => modStage s p ctx c st (fun x =>
      { x with bound := some (x.bound.getD (jobOf s f.jslot).midx), staged := [], queue := [], act := 2, dropped := true })) s
    closeChunk (putResult s ⟨p, ctx, c, f.units c, 0, 0, 0, d.1, false, false, false, 0, 0, false⟩) p ctx c

/-- ROUND_COMPLETION_LIMIT (R376). -/
def execRoundCompletionLimit (port ctx : Nat) (s : State) : Res :=
  let f := flowOf s port ctx
  if flowRuns s port ctx && f.fopen && (fstatOf s port ctx).limit && portsServe s then
    let t := modFstat s port ctx (fun x => { x with limit := false })
    gate s 3 (resultCells s port ctx 0) (.next (flushEvents ((List.range f.chunkCount).foldl (fun s c => loseChunk s port ctx c) t)))
  else .next s

/-! Pieces and OOS frames leave -/

/-- A DATA frame of a formed piece (R301, R321). -/
def sendPiece (s : State) (p : Nat) (x : Piece) : State :=
  sendKept s p x.jslot x.midx tDATA x.ctx x.round x.stage x.chunk x.piece x.hops x.contrib (fstatOf s p x.ctx).cfgchk x.payload (some x)

/-- PIECE_TRANSMIT (R360): the piece leaves, no earlier than 6 µs after it was formed; when the two adders differed it is formed again, and the second difference fences the port. -/
def execPieceTransmit (port n : Nat) (differs : Bool) (s : State) : Res :=
  let q := portOf s port
  match q.formed[n]? with
  | none => .next s
  | some x =>
    if q.fenced || !(portsServe s) || (jobOf s x.piece.jslot).stopped || decide (s.clk.aon < x.formedAt + 300) then .next s
    else if differs && x.differed then
      .next (logEvent (modPort s port (fun q => { q with fenced := true })) 0x006A 7 3 port noLink (packFields [(port, 3)]))
    else if differs then
      .next (modPort s port (fun q => { q with formed := listMod (fun x => { x with formedAt := s.clk.aon, differed := true }) q.formed n }))
    else .next (flushEvents (sendPiece (modPort s port (fun q => { q with formed := q.formed.eraseIdx n })) port x.piece))

/-- The OOS payload (R322). -/
def oosPayload (mac sent : Nat) : List Byte := leBytes 16 (packFields [(mac, 48), (6, 4), (0, 12), (sent, 32)])

/-- OOS_SEND (R322). -/
def execOosSend (port : Nat) (s : State) : Res :=
  let q := portOf s port
  if port < 8 ∧ q.oos ∧ s.op = .scrubbing then
    let n := q.oosSent + 1
    let h : Hdr :=
      { ver := 1, type := tOOS, enc := false, stage := 0, job := 0, flow := 0, src := 0xFFFF, dst := 0xFFFF, hops := 0, seq := 0, round := 0,
        chunk := 0, contrib := 0, piece := 0, len := 16, cfgchk := 0 }
    let s := modPort s port (fun q => { q with oosSent := n })
    .next (putFrame s port { (mkFrame s port 0 h (oosPayload q.mac n) []) with dst := BitVec.ofNat 48 (2 ^ 48 - 1) })
  else .next s

/-- Has the group's ready waited TIMEOUT µs since it was acknowledged, without COMMIT_STALLED (R230)? -/
def stalledReady (s : State) (group : Nat) : Bool :=
  let g := groupOf s group
  s.train.sent.any (fun r => r.group == group && r.round == g.round && !r.stalled && r.ackedAt.any (fun t => decide (t + 50 * g.timeout ≤ s.clk.aon)))

/-- COMMIT_STALLED (R230): no decision TIMEOUT µs after the ready was acknowledged. -/
def execCommitStalled (group : Nat) (s : State) : Res :=
  let g := groupOf s group
  if g.valid ∧ g.await ∧ stalledReady s group then
    let s := { s with train := { s.train with sent := s.train.sent.map (fun r => if r.group = group then { r with stalled := true } else r) } }
    .next (logEvent s 0x0011 7 7 0 noLink (packFields [(group, 10), (g.round, 32)]))
  else .next s

end Sys2Proof.Machine
end

