-- ==== Sys2Proof/Machine/RingCommands.lean ====
section
/-! DEFINITION. FABRIC_CONFIG (R288, R324), RING_JOIN (R293, R321), RING_LEAVE (R375 to R379), FLOW_OPEN (R295, R296, R321). -/

namespace Sys2Proof.Machine

/-! FABRIC_CONFIG -/

/-- The eight ports. -/
def allPorts : List Nat := [0, 1, 2, 3, 4, 5, 6, 7]

/-- FABRIC_CONFIG: body bits [63:0] are PORT_CFG and [127:64] PORT_MAC, written to every port; no rule gives the body (log 15). -/
def execFabricConfig (m : Msg) (s : State) : Res :=
  .next (takeArgs s m 0x0060 [(0, 33), (64, 48)] (fun s =>
    if mb m 64 3 ≠ 0 then badArg s m (inBody 64)
    else
      let s := allPorts.foldl (fun s p => modPort s p (fun q =>
        { q with etype := mb m 0 16, en := mb m 16 1 == 1, vlanEn := mb m 17 1 == 1, pcp := mb m 18 3, vid := mb m 21 12, mac := mb m 64 48 })) s
      ok s m 0 0))

/-! RING_JOIN -/

/-- Slots that outstanding RING_JOINs hold. -/
def joining (s : State) : List Nat := ((outstanding s).filter (fun x => mOpcode x.1 == 0x61)).map (fun x => x.2)

/-- Slots in use or held. -/
def slotsUsed (s : State) : List Nat := (s.fab.jobs.filter (fun e => e.2.valid)).map (fun e => e.1) ++ joining s

/-- The lowest free job-table slot (R293, log 22). -/
def freeSlot (s : State) : Option Nat :=
  let u := slotsUsed s
  ((List.range (u.length + 1)).find? (fun k => !(u.contains k))).filter (fun k => decide (k < 4096))

/-- The byte of the first field of the block in error (R293, Tables 11-4 and 11-5). -/
def joinBad (s : State) (l : List Byte) : Option Nat :=
  let x := byteField l 0 64
  let j := jobConfig x
  let ent (o n : Nat) : Nat := byteField l o n
  match firstBroken ([(0, natBits x 2 6 ≠ 0), (1, natBits x 12 4 ≠ 0),
      (2, (slotsUsed s).any (fun k => (jobOf s k).job == j.job)),
      (4, decide (32768 < j.p * j.g)), (5, decide (j.p ≤ j.pos)), (7, decide (j.g ≤ j.gidx) || natBits x 62 2 ≠ 0),
      (8, decide (j.p * j.g ≤ j.leader)), (10, natBits x 83 13 ≠ 0), (13, natBits x 111 1 ≠ 0),
      (14, j.g == 1 && j.xtab != 0), (15, natBits x 127 1 ≠ 0), (16, natBits x 128 384 ≠ 0)] : Rules) with
  | some b => some b
  | none =>
    match (List.range j.p).find? (fun k => natBits (ent (64 + 8 * k) 8) 49 15 ≠ 0) with
    | some k => some (64 + 8 * k + 6)
    | none => ((List.range j.g).find? (fun g => natBits (ent (64 + 8 * j.p + 16 * g) 16) 98 30 ≠ 0)).map (fun g => 64 + 8 * j.p + 16 * g + 12)

/-- The lengths that a block may have: with one ring group the cross table may be left out. -/
def joinLen (l : List Byte) : Bool :=
  let j := jobConfig (byteField l 0 64)
  decide (64 ≤ l.length) && (l.length == 64 + 8 * j.p + 16 * j.g || (j.g == 1 && l.length == 64 + 8 * j.p))

/-- The tables of a slot, written before the entry becomes VALID. -/
def writeTables (s : State) (k : Nat) (l : List Byte) : State :=
  let j := jobConfig (byteField l 0 64)
  let ring := (List.range j.p).foldl (fun t i => spSet .reset t (k * 512 + i) (ringEntParse (byteField l (64 + 8 * i) 8)))
    (spKeep (fun a => a / 512 != k) s.fab.ring)
  let cross := (List.range j.g).foldl (fun t g => spSet .reset t (k * 64 + g) (crossEntParse (byteField l (64 + 8 * j.p + 16 * g) 16)))
    (spKeep (fun a => a / 64 != k) s.fab.cross)
  modJob { s with fab := { s.fab with ring := ring, cross := cross } } k (fun _ => { j with valid := false })

/-- Was this job registered with ENC = 1 under the current generation of its key slot (R321)? -/
def joinSpent (s : State) (j : Job) : Bool := j.enc && s.fab.registered.contains (j.fkey, j.job)

/-- RING_JOIN, up to ACCEPTED: the mailbox core writes the tables (R352). Firmware busy with a membership change answers BUSY (R352, log 21). -/
def execRingJoin (m : Msg) (s : State) : Res :=
  .next (takeCommand s m 0x0061 (fun s => match readBlock s m with
    | .inl t => t
    | .inr (l, t) => if !(joinLen l) then checkError t m 4 else checkBody t m blockFields (fun s =>
      match joinBad s l, freeSlot s with
        | some b, _ => badArg s m (inBlock b)
        | none, none => exhausted s m 1
        | none, some k =>
          if joinSpent s (jobConfig (byteField l 0 64)) then exhausted s m 3
          else if longOf s 0x0062 then busy s m 4
          else accept (chargeCore s l.length) m k (fun s => writeTables s k l))))

/-- The space of a key of a sequence space: 0 flows, 1 control; its port and its flow index or job slot. -/
def spaceCtl (key : Nat) : Bool := key / 65536 / 32768 % 2 == 1
def spacePort (key : Nat) : Nat := key / 65536 / 65536
def spaceIx (key : Nat) : Nat := key / 65536 % 32768

/-- Restart sequence spaces at 0 (R291). -/
def restartSpaces (s : State) (p : Nat → Bool) : State :=
  { s with fab := { s.fab with seqTx := spKeep (fun k => !(p k)) s.fab.seqTx, taken := spKeep (fun k => !(p k)) s.fab.taken } }

/-- The end of RING_JOIN: the slot is in use, its control spaces start at 0. -/
def finishRingJoin (s : State) (m : Msg) (k : Nat) : State :=
  let s := modJob s k (fun j => { j with valid := true })
  let s := restartSpaces s (fun key => spaceCtl key && spaceIx key == k)
  let j := jobOf s k
  let s := { s with fab := { s.fab with
    registered := if j.enc then s.fab.registered ++ [(j.fkey, j.job)] else s.fab.registered, slow := spDel s.fab.slow k } }
  finish s m stOK 2 k

/-! RING_LEAVE (Table 13-7) -/

def rlSlot (m : Msg) : Nat := mb m 0 12
def rlOp (m : Msg) : Nat := mb m 12 2
def rlMidx (m : Msg) : Nat := mb m 16 16

/-- The arguments common to the three operations, up to ACCEPTED; one membership change at a time (R352, log 21). A message of another operation is another row's; OP = 0b11 is judged with
removal. -/
def takeLeave (s : State) (m : Msg) (op : Nat) (bad : Job → Option BadAt) (may : State → Bool) : State :=
  if mOpcode m = 0x62 ∧ rlOp m ≠ op ∧ !(op = 0 ∧ rlOp m = 3) then s
  else takeArgs s m 0x0062 [(0, 12), (12, 2), (16, 16)] (fun s =>
    let j := jobOf s (rlSlot m)
    if !j.valid then badArg s m (inBody 0)
    else if rlOp m = 3 then badArg s m (inBody 12)
    else match bad j with
      | some b => badArg s m b
      | none =>
        if !(may s) then stateRefused s m
        else if longOf s 0x0062 then busy s m 4
        else accept s m 0 (fun s => s))

/-- A MIDX that names another member of the job. -/
def otherMember (m : Msg) (j : Job) : Option BadAt := if rlMidx m < j.p * j.g ∧ rlMidx m ≠ j.midx then none else some (inBody 16)

/-- RING_LEAVE, OP = 0b00 (R375). -/
def execRingLeaveRemove (m : Msg) (s : State) : Res := .next (takeLeave s m 0 (otherMember m) (fun _ => true))

/-- RING_LEAVE, OP = 0b01 (R379): only while PAUSED, and only of a removed member. -/
def execRingLeaveReadmit (m : Msg) (s : State) : Res :=
  .next (takeLeave s m 1 (fun j => if setHas j.removed (rlMidx m) then none else some (inBody 16)) (fun s => s.op == .paused))

/-- RING_LEAVE, OP = 0b10 (R375). -/
def execRingLeaveLeave (m : Msg) (s : State) : Res :=
  .next (takeLeave s m 2 (fun _ => if rlMidx m = 0 then none else some (inBody 16)) (fun _ => true))

/-- MEMBERSHIP (Table 13-3). -/
def postMembership (s : State) (m : Msg) (job leader : Nat) : State :=
  logEvent s 0x0064 7 7 0 noLink (packFields [(job, 16), (rlMidx m, 16), (rlOp m, 8), (leader, 16)])

/-- One group's cross-table entry as R376 rewrites it: MAC_P and MAC_PM1 become the first two members at or below POS that are neither removed
nor absent. The MAC of a member that no table names is a free value (log 21). -/
def rewriteCross (s : State) (k g : Nat) : State :=
  let j := jobOf s k
  let at_ (d : Nat) : Nat := g * j.p + (j.pos + j.p - d) % j.p
  let ds := ((List.range j.p).filter (fun d => !(memberAbsent s k (at_ d)))).take 2
  let know (s : State) (d : Nat) : State :=
    if g = j.gidx ∨ (crossEnt s k g).macs.any (fun e => e.1 == d) then s
    else
      let x := drawFree 0 (2 ^ 48 - 1) s
      modCrossEnt x.2 k g (fun e => { e with macs := spPut e.macs d x.1 })
  match ds with
  | [] => s
  | [a] => modCrossEnt (know s a) k g (fun e => { e with dP := a, dPM1 := a })
  | a :: b :: _ => modCrossEnt (know (know s a) b) k g (fun e => { e with dP := a, dPM1 := b })

/-- Rewrite the cross table of a job of several groups. -/
def rewriteAll (s : State) (k : Nat) : State :=
  if (jobOf s k).g = 1 then s else (List.range (jobOf s k).g).foldl (fun s g => rewriteCross s k g) s

/-- The groups of a job. -/
def jobGroups (s : State) (k : Nat) : List Nat :=
  (s.train.groups.filter (fun e => e.2.valid && e.2.job == (jobOf s k).job)).map (fun e => e.1)

/-- The readies of open rounds that this module has sent for a job. -/
def openReadies (s : State) (k : Nat) : List SentReady :=
  s.train.sent.filter (fun r => (jobGroups s k).contains r.group && (groupOf s r.group).round == r.round)

/-- The leader tries every round of the job again (R376). -/
def retryRounds (s : State) (k : Nat) : State :=
  let j := jobOf s k
  ((s.train.readies.filter (fun r => r.job == j.job)).map (fun r => (r.group, r.round))).eraseDups.foldl (fun s x => leaderDecide s k x.1 x.2) s

/-- A change of leader (R377): the new leader asks every present member for its decision of the round of each group and takes its own readies;
a member sends its readies to the new leader. A decision that the new leader's own commit record holds is adopted and sent. It cannot see which members are in AWAIT and asks for every group (log 21). -/
def changeLeader (s : State) (k : Nat) : State :=
  let j := jobOf s k
  if j.leader = j.midx then
    let asked := ((members j).filter (fun x => x != j.midx && !(memberAbsent s k x))).flatMap (fun x => (jobGroups s k).map (fun g => (x, g)))
    let s := (jobGroups s k).foldl (fun s g =>
      match recordDecision s k g (spGet .reset s.train.recs g).round with
      | some d => sendDecision (keepDecision s d) k d
      | none => s) s
    let s := asked.foldl (fun s x => sendControl s k x.1 tDECREQ (groupOf s x.2).round (leBytes 8 x.2)) s
    (openReadies s k).foldl (fun s r => takeReady s k ⟨j.job, r.group, r.round, j.midx, r.withheld, r.wcause⟩) s
  else
    (openReadies s k).foldl (fun s r => sendReadyFrame s k r) s

/-- Frames to a member no longer wait. -/
def dropFramesTo (s : State) (k midx : Nat) : State :=
  allPorts.foldl (fun s p => modPort s p (fun q => { q with unacked := q.unacked.filter (fun u => !(u.jslot == k && u.midx == midx)) })) s

/-- Every open round of the job's flows gets a completion limit (R376). -/
def limitRounds (s : State) (k : Nat) : State :=
  (s.fab.flows.filter (fun e => e.2.valid && e.2.fopen && e.2.jslot == k)).foldl (fun s e =>
    modFstat s (e.1 / 32768) (e.1 % 32768) (fun x => { x with limit := true })) s

/-- The lowest member that is neither removed nor absent (R377). -/
def nextLeader (s : State) (k : Nat) : Nat :=
  let j := jobOf s k
  ((members j).find? (fun x => x == j.midx || !(memberAbsent s k x))).getD j.midx

/-- The end of a removal (R375 to R377, R382). -/
def finishRemove (s : State) (m : Msg) : State :=
  let k := rlSlot m
  let x := rlMidx m
  let s := modJob (noteInterruption s) k (fun j => { j with removed := setAdd j.removed x })
  let s := rewriteAll (setAbsent s k x true) k
  let s := limitRounds (dropFramesTo (skipMember s k x) k x) k
  let j := jobOf s k
  let s := if j.leader = x then
      let l := nextLeader s k
      changeLeader (modJob s k (fun j => { j with leader := l })) k
    else s
  let s := if (jobOf s k).leader = j.midx then retryRounds s k else s
  finish (postMembership s m j.job (jobOf s k).leader) m stOK 0 0

/-- The end of a readmission (R379); one that finds the module no longer PAUSED has no effect (R341). -/
def finishReadmit (s : State) (m : Msg) : State :=
  let k := rlSlot m
  let x := rlMidx m
  if s.op ≠ .paused then finishState s m
  else
    let s := modJob s k (fun j => { j with removed := setDel j.removed x })
    let s := rewriteAll (setAbsent s k x false) k
    finish (postMembership s m (jobOf s k).job (jobOf s k).leader) m stOK 0 0

/-- The flow contexts of a job are released (R295). -/
def releaseFlowsOf (s : State) (k : Nat) : State :=
  (s.fab.flows.filter (fun e => e.2.valid && e.2.jslot == k)).foldl (fun s e =>
    clearRound (modFlow s (e.1 / 32768) (e.1 % 32768) (fun f => { f with valid := false, fopen := false })) (e.1 / 32768) (e.1 % 32768)) s

/-- The end of this module's leaving (R295, R375): the slot is free, nothing of the job waits to be sent, and a buddy of the job is none. -/
def finishLeave (s : State) (m : Msg) : State :=
  let k := rlSlot m
  let j := jobOf s k
  let s := releaseFlowsOf s k
  let s := allPorts.foldl (fun s p => modPort s p (fun q =>
    { q with unacked := q.unacked.filter (fun u => u.jslot != k), formed := q.formed.filter (fun x => x.piece.jslot != k) })) s
  let s := { s with
    fab := { s.fab with jobs := spDel s.fab.jobs k, ring := spKeep (fun a => a / 512 != k) s.fab.ring
                        cross := spKeep (fun a => a / 64 != k) s.fab.cross, slow := spDel s.fab.slow k }
    ckpt := { s.ckpt with buddy := s.ckpt.buddy.filter (fun b => b.jslot != k) } }
  finish (postMembership s m j.job j.leader) m stOK 0 0

/-- The end of RING_LEAVE; a slot that has been freed since leaves it without effect. -/
def finishRingLeave (s : State) (m : Msg) : State :=
  if !(jobOf s (rlSlot m)).valid then finish s m stBADARG 13 (badBody (inBody 0))
  else match rlOp m with
    | 0 => finishRemove s m
    | 1 => finishReadmit s m
    | _ => finishLeave s m

/-! FLOW_OPEN -/

/-- PORT and CONTEXT share body bits with the low bits of the block's address, which are 0 there (log 15). -/
def foPort (m : Msg) : Nat := mb m 0 3
def foCtx (m : Msg) : Nat := mb m 3 15
def foBlockMsg (m : Msg) : Msg := { m with raw := m.raw &&& ~~~(BitVec.ofNat 1024 (2 ^ 18 - 1) <<< 128) }

/-- Is a range DRAM in one view (R296)? -/
def dramRange (lo hi : Nat) : Bool := isDram lo && isDram hi && (decide (hi < 0x018000000000) || (decide (0x040000000000 ≤ lo) && lo / 0x008000000000 == hi / 0x008000000000))

/-- May a flow use a region (R259, R296)? An empty region asks for nothing. -/
def regionOk (s : State) (a n : Nat) (write : Bool) : Bool := n == 0 || (dramRange a (a + n - 1) && boundOk s a (a + n - 1) write)

/-- Is the format combination one of Table 11-7? -/
def formatsOk (f : Flow) : Bool :=
  if f.sparse then f.cfmt == 0 && f.sfmt == BF16 && (f.rfmt == FP32 || f.rfmt == BF16)
  else if f.cfmt = FP32 then f.sfmt == FP32 && (f.rfmt == FP32 || f.rfmt == BF16)
  else if f.cfmt = BF16 then (f.sfmt == BF16 || f.sfmt == FP32) && (f.rfmt == FP32 || f.rfmt == BF16)
  else isBs8 f.cfmt && f.sfmt == f.cfmt && (f.rfmt == f.cfmt || f.rfmt == FP32 || f.rfmt == BF16)

/-- The byte of the first field of the context image in error (R296, Tables 11-6 to 11-8). Reserved bits and status fields are 0. -/
def flowBad (s : State) (x : Nat) : Option Nat :=
  let f := flowConfig x
  let src := if f.sparse then f.n / 4096 * f.q else fmtBytes f.cfmt f.n
  let src2 := if f.sparse then 4 * f.n else if isBs8 f.cfmt then f.n / 32 else 0
  firstBroken ([(0, natBits x 1 1 ≠ 0 || decide (1 < f.kind) || !(formatsOk f)), (2, natBits x 17 1 ≠ 0), (4, f.trigThresh == 0), (6, natBits x 54 10 ≠ 0),
    (8, !(jobOf s f.jslot).valid), (9, natBits x 76 4 ≠ 0),
    (10, f.sparse && (f.ksel == 0 || decide (256 < f.ksel))), (11, natBits x 89 1 ≠ 0 || (f.sparse && (decide (f.denseAt < 256) || decide (2048 < f.denseAt)))),
    (12, decide (2 ^ 24 < f.chunkCount)), (14, natBits x 114 14 ≠ 0),
    (16, !(regionOk s f.src src false)), (22, natBits x 176 16 ≠ 0), (24, !(regionOk s f.src2 src2 false)), (30, natBits x 240 16 ≠ 0),
    (32, !(regionOk s f.result (2 * f.resultStride) true)), (38, natBits x 304 16 ≠ 0),
    (40, !(regionOk s f.hdr (128 * f.chunkCount) true)), (46, natBits x 368 16 ≠ 0),
    (48, f.residEn && !(regionOk s f.resid (2 * residSize f.n) true)), (54, natBits x 432 16 ≠ 0),
    (56, f.n % 4096 ≠ 0 || decide (2 ^ 36 < f.n)), (61, f.deadline == 0), (64, natBits x 512 512 ≠ 0)] : Rules)

/-- CFGCHK (R295): bits [15:0] of the CRC-32C over the shared fields in the order of Table 11-6, packed without gaps (log 23). -/
def cfgchkOf (f : Flow) : Nat :=
  crc32c (leBytes 14 (packFields [(f.kind, 2), (f.cfmt, 4), (f.sfmt, 4), (f.ksel, 9), (f.denseAt, 12), (f.cpiecesM1, 12), (f.n, 40), (f.deadline, 24)])) % 65536

/-- Would a job with ENC = 1 run the context's sequence spaces again under one key (R321)? -/
def flowSpent (s : State) (p ctx : Nat) (j : Job) : Bool :=
  let x := fstatOf s p ctx
  j.enc && x.spent && x.spentJob == j.job && x.spentGen == spGet 0 s.fab.gens j.fkey

/-- Write a context (R295, R321). -/
def openFlow (s : State) (p ctx : Nat) (f : Flow) : State :=
  let j := jobOf s f.jslot
  let s := modFlow (clearRound s p ctx) p ctx (fun _ => f)
  let s := modFstat s p ctx (fun x =>
    { FlowStat.reset with
      cfgchk := cfgchkOf f, spent := x.spent || j.enc, spentGen := if j.enc then spGet 0 s.fab.gens j.fkey else x.spentGen
      spentJob := if j.enc then j.job else x.spentJob })
  restartSpaces s (fun key => !(spaceCtl key) && spacePort key == p && spaceIx key == ctx)

/-- FLOW_OPEN (R296, R321). -/
def execFlowOpen (m : Msg) (s : State) : Res :=
  .next (takeCommand s m 0x0063 (fun s => blockExact s (foBlockMsg m) 128 (fun l s => checkBody s m blockFields (fun s =>
    let x := byteField l 0 128
    let f := flowConfig x
    if (flowOf s (foPort m) (foCtx m)).valid then badArg s m (inBody 0)
    else match flowBad s x with
      | some b => badArg s m (inBlock b)
      | none =>
        if flowSpent s (foPort m) (foCtx m) (jobOf s f.jslot) then exhausted s m 3
        else ok (openFlow s (foPort m) (foCtx m) f) m 2 (cfgchkOf f)))))

end Sys2Proof.Machine
end

