-- ==== Sys2Proof/Machine/LongFinal.lean ====
section
/-! DEFINITION. LONG_COMMAND_FINAL (R339, R340): the work of an outstanding long command ends. -/

namespace Sys2Proof.Machine

/-- The end of a long command's work, by its opcode. A CKPT_WRITE that waits for its cut, a CKPT_VERIFY that waits for its round and a buddy copy
end where their rules say. -/
def finishLong (s : State) (l : LongCmd) (w : WorkResult) : State :=
  match mOpcode l.m with
  | 0x0012 => finishScrub s l.m w (0, 0)
  | 0x0013 => finishAttest s l.m
  | 0x0014 => finishKeyImport s l.m l.aux
  | 0x0020 => finishLoad s l.m
  | 0x0041 => finishMarch s l.m w
  | 0x0050 => finishCkptWrite s l.m
  | 0x0051 => finishCkptRestore s l.m l.aux
  | 0x0052 => finishCkptVerify s l.m
  | 0x0054 => finishBuddyPair s l.m
  | 0x0061 => finishRingJoin s l.m l.aux
  | 0x0062 => finishRingLeave s l.m
  | 0x0080 => finishScrub s l.m w (1, s.su.toDbg)
  | 0x0090 => finishFwUpdate s l.m l.aux
  | _ => s

/-- The module has halted since a command was accepted that is not legal then: it has no effect and is refused with the new state (R341). A CKPT_WRITE
whose cut is made has had its effect. -/
def haltedOut (s : State) (l : LongCmd) : Bool :=
  s.op == .halted && natBits (legalOp (mOpcode l.m)) 5 1 == 0 &&
    !(mOpcode l.m == 0x50 && s.ckpt.cur.any (fun c => c.seqs.contains (BitVec.ofNat 32 (mSeq l.m))))

/-- Refuse it, and let go of what it held. -/
def refuseHalted (s : State) (l : LongCmd) : State :=
  let q := BitVec.ofNat 32 (mSeq l.m)
  let s := finishState s l.m
  match mOpcode l.m with
  | 0x0041 => noteRunning s (mb l.m 0 8)
  | 0x0050 => modCkpt s (fun c => { c with nowSeqs := c.nowSeqs.filter (· != q), waitSeqs := c.waitSeqs.filter (· != q) })
  | 0x0051 => modCkpt (clearReader s) (fun c => { c with read := [] })
  | 0x0052 => modCkpt s (fun c => { c with verify := none })
  | _ => s

/-- What the first accesses of a long command's work draw on (R420): the activity and the instances. -/
def longCells (l : LongCmd) : Nat × List (Nat × Nat) :=
  match mOpcode l.m with
  | 0x0020 => (7, devCells 4 (ldImage l.m) false)
  | 0x0050 => (4, nandCells)
  | 0x0051 => (4, nandCells)
  | 0x0090 => (7, nandCells)
  | _ => (8, [])

/-- LONG_COMMAND_FINAL (R339). No work goes on while the stationmaster's cores are halted, or before the timetable admits
its first accesses (R421). -/
def execLongCommandFinal (seq : BitVec 32) (w : WorkResult) (s : State) : Res :=
  match s.mb.long.find? (fun l => BitVec.ofNat 32 (mSeq l.m) == seq) with
  | none => .next s
  | some l => if hubRuns s then 
      if haltedOut s l then .next (flushEvents (refuseHalted s l)) else gate s (longCells l).1 (longCells l).2 (.next (flushEvents (finishLong s l w)))
    else .next s

end Sys2Proof.Machine
end

