-- ==== Sys2Proof/Machine/OpxCommands.lean ====
section
/-! DEFINITION. The meanings of the outer-product engine's commands and events (03, R153 to R158). -/

namespace Sys2Proof.Machine

/-- OPX.PASS (R153). -/
def execOpxPass (lc : Nat) (p : PassIssue) (s : State) : Res := .next (opxPass s lc p.cyc p.upto)

/-- OPX.DRAIN (R155). -/
def execOpxDrain (lc cyc : Nat) (s : State) : Res := .next (opxConv s lc cyc .drain)

/-- OPX.LOAD with IMAGE = 0 (R156). -/
def execOpxLoad (lc cyc : Nat) (s : State) : Res := .next (opxConv s lc cyc .load)

/-- OPX.LOAD with IMAGE = 1 (R156). -/
def execOpxLoadImage (lc cyc : Nat) (s : State) : Res := .next (opxConv s lc cyc .image)

/-- OPX.SAVE (R157). -/
def execOpxSave (lc cyc : Nat) (s : State) : Res := .next (opxConv s lc cyc .save)

/-- OPX.SURVEY (R158). -/
def execOpxSurvey (lc cyc : Nat) (s : State) : Res := .next (opxConv s lc cyc .survey)

/-- A waiting conveyor operation starts (R73). -/
def execConveyorDeferredStart (lc : Nat) (s : State) : Res := .next (conveyorDeferred s lc)

/-- The oldest conveyor operation ends (R73). -/
def execConveyorComplete (lc : Nat) (s : State) : Res := .next (conveyorDone s lc)

/-- A due automatic survey (R84). -/
def execAutoSurvey (lc : Nat) (bank : Bool) (s : State) : Res := .next (autoSurveyOp s lc bank)

/-- The array becomes idle (R77). -/
def execArrayIdle (x : IdleAt) (s : State) : Res := .next (arrayIdleOp s x.lc x.cyc)

/-- A current excursion (R79). -/
def execCurrentClamp (x : ClampAt) (s : State) : Res := .next (clampOp s x.lc x.cyc x.ramped)

/-- A clamp's disabled cycles end, all 64 of them when the excursion outlasts them, and it slows the section (R429); or its ramp ends, and what it held
goes on: issue, or the restore of a RESUME that it met (R79). -/
def execClampEnd (lc : Nat) (x : ClampOver) (s : State) : Res :=
  let o := (cluster s lc).opx
  if o.clampRows then
    let s' := clampRampOp s lc (if x.persists then 64 else x.cycles)
    .next (if x.persists then sampleOnChange s' (clampSlower s' (secOf lc)) else s')
  else if o.clampRamp then
    let s' := clampDoneOp s lc
    .next (if s'.op = .running ∧ (cluster s' lc).pausedOk then resumeCluster s' lc else s')
  else .next s

end Sys2Proof.Machine
end

