-- ==== Sys2Proof/Machine/VecOps.lean ====
section
/-! DEFINITION. What the vector engine's commands share (R151, R177 to R184, R203): sources, tag checks, destinations, tile status words;
function tables (R185 to R188); the combine of R106. -/

namespace Sys2Proof.Machine

/-! Function tables -/

/-- Byte address of table k. -/
def ftBase (k : Nat) : Nat := 8192 * k

/-- A 32-bit word of the function-table memory. -/
def ftWord (ft : Memory) (k off : Nat) : F32 := BitVec.ofNat 32 (memLe ft (ftBase k + off) 4)

/-- DEGREE, LTAIL, RTAIL (Table 7-1). -/
def ftDeg (ft : Memory) (k : Nat) : Nat := natBits (memLe ft (ftBase k) 4) 1 3
def ftLtail (ft : Memory) (k : Nat) : Nat := natBits (memLe ft (ftBase k) 4) 4 2
def ftRtail (ft : Memory) (k : Nat) : Nat := natBits (memLe ft (ftBase k) 4) 6 2

/-- Coefficient c[s][j] (Table 7-2). -/
def ftCoef (ft : Memory) (k s j : Nat) : F32 := ftWord ft k (0x40 + 20 * s + 4 * j)

/-- e_j = rne(j × c_j) (R187). -/
def ftDeriv (ft : Memory) (k s j : Nat) : F32 := rne (fvMul (fvInt j) (fv (ftCoef ft k s j)))

/-- Horner steps f · x + c[k] for k = n − 1 down to 0, from f. -/
def horner (c : Nat → F32) (x : F32) : Nat → F32 → F32
  | 0, f => f
  | n + 1, f => horner c x n (f32Fma f x (c n))

/-- Position in segment units of a value as it stands (R186, R187): the difference from LO is rounded once. -/
def ftPos (ft : Memory) (k : Nat) (z : FVal) : F32 := f32Mul (rne (fvSub .rne z (fv (ftWord ft k 4)))) (ftWord ft k 8)

/-- f of segment s at x. -/
def segF (ft : Memory) (k s : Nat) (x : F32) : F32 := horner (ftCoef ft k s) x (ftDeg ft k) (ftCoef ft k s (ftDeg ft k))

/-- f′ of segment s at x (R187): 0 at degree 0. -/
def segD (ft : Memory) (k s : Nat) (x : F32) : F32 :=
  let d := ftDeg ft k
  let dp := if d = 0 then 0 else horner (fun j => ftDeriv ft k s (j + 1)) x (d - 1) (ftDeriv ft k s d)
  f32Mul dp (ftWord ft k 8)

/-- The canonical NaN. -/
def f32NaN : F32 := 0x7FC00000#32

/-- Is z infinite? -/
def fvInf (z : FVal) : Bool := match z with
  | .inf _ => true
  | _ => false

/-- A tail (R188): mode, its constant, its slope, its segment and the x at which an extended tail is evaluated. -/
def tailF (ft : Memory) (k mode s : Nat) (a b z x : F32) : F32 :=
  if mode = 1 then b
  else if mode = 2 then f32Fma a z b
  else if fvInf (fv z) then f32NaN else segF ft k s x

/-- The derivative in a tail. -/
def tailD (ft : Memory) (k mode s : Nat) (a : F32) (z : FVal) (x : F32) : F32 :=
  if mode = 1 then 0
  else if mode = 2 then a
  else if fvInf z then f32NaN else segD ft k s x

/-- Segment and x of a position inside the domain. -/
def segOf (t : F32) : Nat × F32 :=
  match fv t with
  | .fin n m e =>
    let s := (fvFloor n m e).toNat
    (s, rne (fvSub .rne (fv t) (fvInt s)))
  | _ => (0, 0)

/-- Which part of a table a position selects: 0 left tail, 1 domain, 2 right tail. -/
def ftPart (t : F32) : Nat := if fvLt (fv t) fvZero then 0 else if fvLt (fv t) (fvInt 256) then 1 else 2

/-- f(z) (R186, R188). -/
def ftEval (ft : Memory) (k : Nat) (z : F32) : F32 :=
  let t := ftPos ft k (fv z)
  if fv z = .nan then f32NaN
  else match ftPart t with
    | 0 => tailF ft k (ftLtail ft k) 0 (ftWord ft k 12) (ftWord ft k 16) z t
    | 1 => segF ft k (segOf t).1 (segOf t).2
    | _ => tailF ft k (ftRtail ft k) 255 (ftWord ft k 20) (ftWord ft k 24) z (rne (fvSub .rne (fv t) (fvInt 255)))

/-- f′(z) of Z as read (R187, R188). -/
def ftEvalD (ft : Memory) (k : Nat) (z : FVal) : F32 :=
  let t := ftPos ft k z
  if z = .nan then f32NaN
  else match ftPart t with
    | 0 => tailD ft k (ftLtail ft k) 0 (ftWord ft k 12) z t
    | 1 => segD ft k (segOf t).1 (segOf t).2
    | _ => tailD ft k (ftRtail ft k) 255 (ftWord ft k 20) z (rne (fvSub .rne (fv t) (fvInt 255)))

/-! Sources -/

/-- A source as a command reads it: the value of element i, the scratchpad words that it comes from, its own poison (a drained tile). -/
structure VSrc where
  val : Nat → FVal
  words : Nat → List Nat
  pz : Bool

/-- Address of the scale byte of 32-element block b in a scale array (R44): dense, or in the layout of R69. -/
def scaleAt (base lstride b : Nat) : Nat :=
  if lstride = 0 then base + b else base + b / 4 / 256 * (lstride * 4096) + b / 4 % 256 * 4 + b % 4

/-- A tensor operand at a base address: element i, with the scale array at `sc` when its format is BS8. -/
def tensorAt (m : ClMem) (r : SRef) (base sc scStride : Nat) : VSrc :=
  let sa (i : Nat) : Nat := scaleAt sc scStride (i / 32)
  { val := fun i =>
      decodeAny r.fmt (if isBs8 r.fmt then (memByte m.sp (sa i)).toNat else 0) (operandCode m.sp r.fmt base r.lstride i)
    words := fun i =>
      elemAddr r.fmt base r.lstride i / 64 :: (if isBs8 r.fmt then [sa i / 64] else [])
    pz := false }

/-- The source of slot k for the modes of Table 6-4; `inPlace` reads it as a tensor whatever its MODE, an absent one reads as `absent`.
Column broadcast takes element i / 128 (R151). -/
def vsrc (m : ClMem) (tile : Option DrainTile) (e : QEntry) (k : Nat) (inPlace : Bool) (absent : FVal) : VSrc :=
  let r := sref e.raw k
  let t := tensorAt m r (formed e r) 0 0
  if inPlace ∨ r.mode = 0 then t
  else if r.mode = 1 then { t with val := fun i => t.val (i % 128), words := fun i => t.words (i % 128) }
  else if r.mode = 2 then { t with val := fun i => t.val (i / 128), words := fun i => t.words (i / 128) }
  else if r.mode = 3 then { val := fun _ => fv (BitVec.ofNat 32 (ePrm e r.prmx)), words := fun _ => [], pz := false }
  else if r.mode = 4 then
    match tile with
    | some d => { val := fun i => if d.isInt then fvInt (spGet 0 d.vals i).toInt else fv (spGet 0 d.vals i), words := fun _ => [], pz := d.poison }
    | none => { val := fun _ => fvZero, words := fun _ => [], pz := false }
  else { val := fun _ => absent, words := fun _ => [], pz := false }

/-- Is slot k absent? -/
def isAbsent (e : QEntry) (k : Nat) : Bool := (sref e.raw k).mode == 0xF

/-- Keys of the destination in slot k (R203). -/
def slotKey (e : QEntry) (k : Nat) : SrKey :=
  let p := cPbase e.raw
  ⟨ePrm e (p + 1), (natBits (ePrm e (p + 2)) 0 32 + k) % 2 ^ 32, ePrm e 248, natBits (ePrm e (p + 3)) 0 40⟩

/-- Word j of the parameter block (R152). -/
def pWord (e : QEntry) (j : Nat) : Nat := ePrm e (cPbase e.raw + j)

/-- N of a VEC command (R159). DESIGN CHOICE (log 43): the command runs with N as it stands, where R159 names a range, or one value for MODE 0x4, and no
response. -/
def vecN (e : QEntry) : Nat := natBits (pWord e 0) 0 32

/-- The operands of a command with the words they read: (slot, checks, words). A word of a slot is checked against the slot's ETAG. -/
abbrev ReadSet := List (SRef × List Nat)

/-- Slot k's reads for elements 0 … n − 1. -/
def readsOf (e : QEntry) (k n : Nat) (v : VSrc) : SRef × List Nat := (sref e.raw k, setAddAll [] ((List.range n).flatMap v.words))

/-- The first tag mismatch of the words read: address, tag found, tag expected. -/
def readSlip (m : ClMem) (rs : ReadSet) : Option (Nat × Nat × Nat) :=
  rs.findSome? (fun r => (firstBad m r.1.chk r.1.tag r.2).map (fun x => (x.1, x.2, r.1.tag)))

/-- The words read, each once. -/
def readWords (rs : ReadSet) : List Nat := setAddAll [] (rs.flatMap (fun r => r.2))

/-- Width W of a VEC command (R159): 512 elements a cycle when the formats of the slots that it has are all at most 16 bits wide, else 256. -/
def vecWidth (e : QEntry) (ks : List Nat) : Nat :=
  if ks.all (fun k => isAbsent e k || decide (fmtBits (sref e.raw k).fmt ≤ 16)) then 512 else 256

/-- The words that a command reads in each cycle (R177): in cycle ⌊i / w⌋ those from which element i of its sources comes. -/
def elemCycles (w n : Nat) (vs : List VSrc) : List (List Nat) :=
  (List.range (ceilDiv n w)).map (fun g =>
    setAddAll [] ((rangeFrom (g * w) (min w (n - g * w))).flatMap (fun i => vs.flatMap (fun v => v.words i))))

/-- Two readings in the same cycles. -/
def joinCycles : List (List Nat) → List (List Nat) → List (List Nat)
  | a :: r, b :: t => (a ++ b) :: joinCycles r t
  | [], l => l
  | l, [] => l

/-- One destination of a command: its pieces and its tag. -/
abbrev Dest := List SpPiece × Nat

/-- Tag of an in-place destination (R151). -/
def inPlaceTag (r : SRef) : Nat := (r.tag + 1) % 16

/-- An operand or destination that extends above 0x3F_FFFF (R150): the box to report. -/
def opndBound (r : SRef) (base n : Nat) : Option (Nat × Nat) :=
  let fin := elemsEnd r.fmt base r.lstride n
  if spTop + 1 < fin then some (base, fin - 1) else none

/-- Elements that slot k reads for N elements, by its mode. -/
def modeCount (r : SRef) (n : Nat) : Nat :=
  if r.mode = 0 then n else if r.mode = 1 then min n 128 else if r.mode = 2 then ceilDiv n 128 else 0

/-- A converted element list for slot k: code, poison of the element or of its conversion. -/
def convAll (e : QEntry) (k : Nat) (vs : List FVal) (pz : Nat → Bool) : List WElem :=
  let r := sref e.raw k
  (List.range vs.length).map (fun i =>
    let c := convElem r.fmt r.rmode r.sat (slotKey e k) i (listGet fvZero vs i)
    ⟨c.code, c.poison || pz i⟩)

/-- Did a conversion write a non-finite element (R183)? -/
def anyNonFin (fmt : Nat) (l : List WElem) : Bool := l.any (fun x => !(fvFinite (decodeElem fmt x.code)))

/-- Finish a VEC or ROW command in cycle cyc (R122, R134, R143, R178): its pieces are written unless one lands in an inbound region, its
words are read in the cycles that `cycles` lists, poison is counted, `after` does what else it leaves once it has written, a tag mismatch raises a slip. DESIGN CHOICE (log 43): a command that
meets both a tag mismatch and an inbound region reports INBOUND_MIX, since it then writes nothing. -/
def finishCmd (s : State) (lc q cyc : Nat) (e : QEntry) (rs : ReadSet) (cycles : List (List Nat)) (ds : List Dest) (extra : Nat) (after : State → State := id) : State :=
  let c := cluster s lc
  let ws := readWords rs
  let pz := (poisonedOf c.mem ws).length
  let slip := readSlip c.mem rs
  match inboundHit c (ds.flatMap (fun d => d.1)) with
  | some p => raiseSlip (modCluster s lc (fun c => dropEntry (atCycle c cyc) q e)) lc q e ⟨9, cyc, 0, 0, p.addr, 0⟩
  | none =>
    let c := consumePoison { c with mem := spTouchAll c.mem cycles } (pz + extra)
    let c := ds.foldl (fun c d => spWriteAll c d.1 d.2) c
    let s := retireAt (after (setCluster s lc c)) lc q cyc e
    match slip with
    | none => s
    | some (a, found, exp) => raiseSlip s lc q e ⟨slipTag found exp, cyc, exp, found, a, 0⟩

/-- Does the element read a poisoned word? -/
def elemPz (m : ClMem) (srcs : List VSrc) (i : Nat) : Bool := srcs.any (fun v => v.pz || (v.words i).any (spPoison m))

/-- The tile status word that an epilogue writes (R183); one whose command slips has POISON and SLIP set (R135). Every destination word carries poison
when the tile as it was drained has POISON set; a poisoned word of another source poisons the words computed from it (R178) and sets POISON here (DESIGN
CHOICE, log 43: R183 does not say whether the POISON that such a word sets reaches every destination word). -/
def epiStatus (t : DrainTile) (pz slip nonfin : Bool) : Nat :=
  orBit (orBit (orBit t.status.toNat tsPOISON (pz || slip)) tsSLIP slip) tsNONFINITE nonfin

/-- The cycle in which the slot of a tile becomes free (R179, R181): the cycle after its status word is written, which is the later of the consumer's
last write, L cycles after it reads row 127, and D + 133. -/
def slotFree (t : DrainTile) (cyc L : Nat) : Nat := max (max (t.start + 129) (cyc + 63) + L) (t.start + 133) + 1

/-- Take the first tile out of the drain buffer for a command of latency L that issues in cycle cyc, and write its status word (R181, R183, R184): what
that leaves once the command has written, and the status word's place. -/
def epilogue (lc cyc L : Nat) (e : QEntry) (t : Option DrainTile) (pz slip nonfin : Bool) : (State → State) × List Dest :=
  match t with
  | none => (id, [])
  | some t =>
    let st := epiStatus t pz slip nonfin
    let r := sref e.raw 0
    (fun s => modCluster s lc (fun c =>
       let c := carry c st
       { c with vr := { c.vr with drain := c.vr.drain.drop 1, busy := c.vr.busy.filter (fun f => decide (cyc < f)) ++ [slotFree t cyc L] } }),
     [(runPieces (formed e r) (leBytes 64 st) slip, r.tag)])

/-- One join of R106. -/
def joinCell (a b : Cell) : Cell :=
  let t := fvAdd .rne (fv a.s) (fv b.s)
  let s := rne t
  if f32Finite s then ⟨s, rne (fvAdd .rne (fvAdd .rne (fv a.c) (fv b.c)) (fvSub .rne t (fv s)))⟩ else ⟨s, 0⟩

/-- One level of the tree. -/
def joinLevel : List Cell → List Cell
  | a :: b :: r => joinCell a b :: joinLevel r
  | l => l

/-- The tree, `n` levels at most. -/
def joinTree : Nat → List Cell → Cell
  | 0, l => listGet Cell.zero l 0
  | n + 1, l => if l.length ≤ 1 then listGet Cell.zero l 0 else joinTree n (joinLevel l)

/-- The combine of P float partials (R106). -/
def combineFloat (xs : List F32) : F32 := foldCell (joinTree 17 (xs.map (fun x => ⟨x, 0⟩)))

/-- The combine of INT32 partials (R108): the value and whether it left the range. -/
def combineInt (xs : List F32) : F32 × Bool :=
  let t := xs.foldl (fun a x => a + x.toInt) 0
  if t < -(2 ^ 31) then (0x80000000#32, true) else if 2 ^ 31 ≤ t then (0x7FFFFFFF#32, true) else (BitVec.ofInt 32 t, false)

end Sys2Proof.Machine
end

