-- ==== Sys2Proof/Machine/RowCommands.lean ====
section
/-! DEFINITION. The row engine's commands (R165 to R167, R189 to R198) and ranked selection (R111 to R115). -/

namespace Sys2Proof.Machine

/-- Parameter words of a ROW command (Table 6-11). -/
structure RowPar where
  C : Nat
  rows : Nat
  L : Nat
  start : Nat
  stride : Nat
  side : Nat
  spill : Nat
  k32 : F32
  topk : Nat
  pos : Nat
  deriving DecidableEq, Repr

/-- Read the parameter block. -/
def rowPar (e : QEntry) : RowPar :=
  let p0 := pWord e 0
  let p4 := pWord e 4
  let p6 := pWord e 6
  let p7 := pWord e 7
  { C := natBits p0 0 27, rows := natBits p0 32 16, L := natBits p4 0 27, start := natBits p4 32 27, stride := natBits (pWord e 5) 0 22
    side := natBits p6 0 15, spill := natBits p6 16 48, k32 := BitVec.ofNat 32 p7, topk := natBits p7 32 9, pos := natBits (pWord e 8) 0 26 }

/-- Slot k of row i as a source: modes 0 and 1 (Table 6-12), which both move by RSTRIDE from row to row (R165); an absent one reads as `absent`. The
scale array of a BS8 source lies at S1 (R44,
R113). -/
def rowSrc (m : ClMem) (e : QEntry) (p : RowPar) (k i : Nat) (absent : FVal) : VSrc :=
  let r := sref e.raw k
  let r1 := sref e.raw 1
  if r.mode = 0xF then { val := fun _ => absent, words := fun _ => [], pz := false }
  else if r.mode = 1 then
    let t := tensorAt m r (formed e r + i * p.stride) 0 0
    { t with val := fun x => t.val (x % 128), words := fun x => t.words (x % 128) }
  else tensorAt m r (formed e r + i * p.stride) (formed e r1 + i * p.stride / 32) r1.lstride

/-- Words that a source reads for C elements. -/
def rowReads (r : SRef) (n : Nat) (v : VSrc) : SRef × List Nat := (r, setAddAll [] ((List.range n).flatMap v.words))

/-! Statistics rows (R165, R190) -/

/-- Where a statistics row lies: side memory byte, or device address; its key for a context. -/
def statPlace (p : RowPar) (i : Nat) : Sum Nat Nat :=
  let s := p.side + i
  if s < 32768 then .inl (8 * s) else .inr (p.spill + 8 * (s - 32768))

/-- Context key of a statistics row. -/
def statKey (p : RowPar) (i : Nat) : Nat := match statPlace p i with
  | .inl a => a
  | .inr a => 2 ^ 48 + a

/-- STAT0, STAT1 and poison of row i as a command reads them. -/
structure StatRow where
  s0 : F32
  s1 : F32
  pz : Bool
  deriving DecidableEq, Repr

/-- Is row i the first of the command whose spilled statistics lie in their 64-byte word (R192)? -/
def fetchesWord (p : RowPar) (i : Nat) : Bool :=
  i == 0 || (match statPlace p (i - 1), statPlace p i with
    | .inr a, .inr b => a / 64 != b / 64
    | _, _ => true)

/-- Read a statistics row. Spilled ones are fetched as 64-byte words, each charged once (R192). -/
def readStat (s : State) (lc : Nat) (p : RowPar) (i : Nat) : StatRow × State :=
  match statPlace p i with
  | .inl a =>
    let m := (cluster s lc).mem
    let r := sideReadWord m (a / 64)
    (⟨BitVec.ofNat 32 (memLe m.side a 4), BitVec.ofNat 32 (memLe m.side (a + 4) 4), r.1⟩, modMem s lc (fun _ => r.2))
  | .inr a =>
    let r := devRead s a 8
    (⟨BitVec.ofNat 32 (byteField r.1.data 0 4), BitVec.ofNat 32 (byteField r.1.data 4 4), r.1.poison⟩,
      if fetchesWord p i then chargeDev r.2 (secOf lc) 1 (a / 64 * 64) 64 false else r.2)

/-- Read the statistics of rows 0 … n − 1. -/
def readStats (s : State) (lc : Nat) (p : RowPar) : Nat → List StatRow × State
  | 0 => ([], s)
  | n + 1 =>
    let r := readStats s lc p n
    let x := readStat r.2 lc p n
    (r.1 ++ [x.1], x.2)

/-- A run of statistics that lie in one 64-byte word: place, bytes, poison. -/
structure StatRun where
  place : Sum Nat Nat
  data : List Byte
  pz : Bool
  deriving DecidableEq, Repr

/-- Does a statistics row follow a run in its word? -/
def runFollows (r : StatRun) (x : Sum Nat Nat) : Bool :=
  match r.place, x with
  | .inl a, .inl b => a + r.data.length == b && a / 64 == b / 64
  | .inr a, .inr b => a + r.data.length == b && a / 64 == b / 64
  | _, _ => false

/-- Join the rows of a command into words: rows of one word are written together, with the OR of their poison (R189, R192). -/
def statRuns : List StatRun → List (Sum Nat Nat × StatRow) → List StatRun
  | acc, [] => acc.reverse
  | [], (p, x) :: r => statRuns [⟨p, leBytes 4 x.s0.toNat ++ leBytes 4 x.s1.toNat, x.pz⟩] r
  | a :: acc, (p, x) :: r =>
    let b := leBytes 4 x.s0.toNat ++ leBytes 4 x.s1.toNat
    if runFollows a p then statRuns ({ a with data := a.data ++ b, pz := a.pz || x.pz } :: acc) r
    else statRuns (⟨p, b, x.pz⟩ :: a :: acc) r

/-- Write the statistics of the command's rows, in row order. -/
def writeStats (s : State) (lc : Nat) (p : RowPar) (l : List (Nat × StatRow)) : State :=
  (statRuns [] (l.map (fun x => (statPlace p x.1, x.2)))).foldl (fun s r =>
    match r.place with
    | .inl a => modMem s lc (fun m => sideWriteUnit m a r.data r.pz)
    | .inr a => chargeDev (devWrite s a r.data r.pz 0) (secOf lc) 1 a r.data.length true) s

/-- The spilled range of a command's statistics: lowest and highest byte. -/
def spillRange (p : RowPar) : Option (Nat × Nat) :=
  if p.side + p.rows ≤ 32768 then none
  else some (p.spill + 8 * (p.side - 32768), p.spill + 8 * (p.side + p.rows - 32768) - 1)

/-! Row sums (R189) -/

/-- A running sum: its cell and how many terms it has taken. -/
def addTerm (x : Cell) (n : Nat) (v : F32) : Cell := accFloat n x (fv v)

/-- rne(a / n) for a natural n. -/
def f32DivNat (a : F32) (n : Nat) : F32 :=
  match fv a with
  | .nan => f32NaN
  | .inf _ => a
  | .fin s m e => if n = 0 then f32NaN else BitVec.ofNat 32 (roundFrac fmtFP32 .rne false s m n e)

/-- max(0, x) of R193; a NaN stays NaN. -/
def f32Max0 (x : F32) : F32 := if fv x = .nan then f32NaN else if fvLt (fv x) fvZero then 0 else x

/-- Sum of a row's terms in position order, folded. -/
def rowSum (l : List F32) : F32 := foldCell (l.foldl (fun (t : Cell × Nat) v => (addTerm t.1 (t.2 + 1) v, t.2 + 1)) (Cell.zero, 0)).1

/-! Running a row command -/

/-- What one row produced: its outputs (element values), statistics to write, poison, context change. -/
structure RowOut where
  out : List FVal
  stat : Option StatRow
  pz : Bool

/-- The head of the ROW queue that a row of opcode `op` takes in cycle cyc. -/
def rowPick (s : State) (lc cyc op : Nat) : Option QEntry := pickOp s lc 2 cyc op

/-- The first range of a ROW command that breaks R150, or its spill range outside the windows that grant what the command does with its statistics,
reads and writes in `stats` (R165, R259): the box to report. -/
def rowBound (s : State) (e : QEntry) (p : RowPar) (slots : List (Nat × Bool)) (stats : Bool × Bool) : Option (Nat × Nat × Bool) :=
  let one (x : Nat × Bool) : Option (Nat × Nat × Bool) :=
    let r := sref e.raw x.1
    if r.mode = 0xF ∧ !x.2 then none
    else
      let base := formed e r + (p.rows - 1) * p.stride
      (opndBound r base (if r.mode = 1 ∧ !x.2 then min p.C 128 else p.C)).map (fun b => (b.1, b.2, x.2))
  (slots.findSome? one).or
    (match spillRange p with
     | some (lo, hi) =>
       if stats.1 && !(boundOk s lo hi false) then some (lo, hi, false)
       else if stats.2 && !(boundOk s lo hi true) then some (lo, hi, true)
       else none
     | none => none)

/-- The instances that a command's spilled statistics draw on (R420): for reads and for writes. -/
def spillCells (lc : Nat) (p : RowPar) (stats : Bool × Bool) : List (Nat × Nat) :=
  match spillRange p with
  | none => []
  | some (lo, _) => (if stats.1 then devCells (secOf lc) lo false else []) ++ (if stats.2 then devCells (secOf lc) lo true else [])

/-- Run a ROW command. One whose statistics spill waits while the SPILL budgets are spent (R421). -/
def runRow (s : State) (lc cyc op : Nat) (slots : QEntry → List (Nat × Bool))
    (stats : Cluster → QEntry → RowPar → Bool × Bool) (f : State → QEntry → RowPar → State) : State :=
  match rowPick s lc cyc op with
  | none => s
  | some e =>
    if !e.live then retireAt s lc 2 cyc e
    else
      let st := stats (cluster s lc) e (rowPar e)
      match rowBound s e (rowPar e) (slots e) st with
      | some (lo, hi, w) => boundFault s lc e.idx lo hi w
      | none =>
        if (st.1 || st.2) && (spillRange (rowPar e)).any (fun x => heldRange s x.1 (x.2 + 1 - x.1)) then s
        else if !(admits s 1 (spillCells lc (rowPar e) st)) then waitCells s 1 (spillCells lc (rowPar e) st) else
        f (if st.1 || st.2 then noteUnmapped s lc e.idx ((spillRange (rowPar e)).elim [] (fun x => [x.1])) else s) e (rowPar e)

/-- Destination of the rows: element e of row i has ordinal i·L + START + e (R203). -/
def rowDest (m : ClMem) (e : QEntry) (p : RowPar) (outs : List RowOut) : Dest :=
  let r := sref e.raw 3
  ((List.range outs.length).flatMap (fun i =>
    let o := listGet ⟨[], none, false⟩ outs i
    let els := (List.range o.out.length).map (fun x =>
      let c := convElem r.fmt r.rmode r.sat (slotKey e 3) (i * p.L + p.start + x) (listGet fvZero o.out x)
      (⟨c.code, c.poison || o.pz⟩ : WElem))
    destPieces m.sp r.fmt (formed e r + i * p.stride) r.lstride els), r.tag)

/-- Finish a ROW command: POISON_ROWS, statistics, destinations, poison, slips. `st` says how many poisoned statistics words were read. DESIGN CHOICE
(log 43): a poisoned row counts in POISON_ROWS for each command that processes it, phase 0 of a chunk included, whose output is its statistics word. -/
def finishRow (s : State) (lc cyc : Nat) (e : QEntry) (p : RowPar) (rs : ReadSet) (cycles : List (List Nat)) (outs : List RowOut) (st : Nat) : State :=
  let bad := (outs.filter (fun o => o.pz)).length
  let stats := (List.range outs.length).filterMap (fun i => ((listGet ⟨[], none, false⟩ outs i).stat).map (fun x => (i, x)))
  let d := rowDest (cluster s lc).mem e p outs
  finishCmd s lc 2 cyc e rs cycles [d] st (fun s =>
    let s := modCluster s lc (fun c => { c with vr := { c.vr with poisonRows := satAdd 16 c.vr.poisonRows bad } })
    if stats.isEmpty then s else writeStats s lc p stats)

/-- Poison of the row's source words; a tag mismatch poisons too (R134). -/
def rowPz (m : ClMem) (slip : Bool) (n : Nat) (l : List VSrc) : Bool := slip || (List.range n).any (elemPz m l)

/-! Normalisation -/

/-- RMS norm? -/
def isRms (e : QEntry) : Bool := natBits (cCx e.raw) 0 1 == 1

/-- μ and ρ of a row (R193). -/
def normStats (rms : Bool) (eps : F32) (xs : List FVal) : F32 × F32 :=
  let n := xs.length
  if rms then
    let s2 := rowSum (xs.map (fun x => rne (fvMul x x)))
    (0, f32Rsqrt (f32Add (f32DivNat s2 n) eps))
  else
    let x0 := listGet fvZero xs 0
    let d := xs.map (fun x => rne (fvSub .rne x x0))
    let s1 := rowSum d
    let s2 := rowSum (d.map (fun v => f32Mul v v))
    let mu := rne (fvAdd .rne x0 (fv (f32DivNat s1 n)))
    let var := f32Max0 (f32DivNat (f32Sub s2 (f32Mul s1 (f32DivNat s1 n))) n)
    (mu, f32Rsqrt (f32Add var eps))

/-- x̂ of an element (R193). -/
def xhat (rms : Bool) (mu rho : F32) (x : FVal) : F32 :=
  if rms then rne (fvMul x (fv rho)) else f32Mul (rne (fvSub .rne x (fv mu))) rho

/-- ROW.NORM.F on its entry. -/
def rowNormFRun (lc cyc : Nat) (s : State) (e : QEntry) (p : RowPar) : State :=
  let m := (cluster s lc).mem
  let src (i : Nat) : VSrc × VSrc × VSrc := (rowSrc m e p 0 i fvZero, rowSrc m e p 1 i (fvInt 1), rowSrc m e p 2 i fvZero)
  let all := (List.range p.rows).map src
  let rs : ReadSet := all.flatMap (fun t =>
    [rowReads (sref e.raw 0) p.C t.1, rowReads (sref e.raw 1) p.C t.2.1, rowReads (sref e.raw 2) p.C t.2.2])
  let slip := (readSlip m rs).isSome
  let r3 := sref e.raw 3
  let outs := (List.range p.rows).map (fun i =>
    let t := src i
    let xs := (List.range p.C).map t.1.val
    let st := normStats (isRms e) p.k32 xs
    let pz := rowPz m slip p.C [t.1, t.2.1, t.2.2]
    let ys := (List.range p.C).map (fun x =>
      let h := fvMul (fv (xhat (isRms e) st.1 st.2 (listGet fvZero xs x))) (t.2.1.val x)
      if isAbsent e 2 then h else fvAdd (modeOf r3.rmode (slotKey e 3) (i * p.L + p.start + x)) h (t.2.2.val x))
    (⟨ys, some ⟨st.1, st.2, pz⟩, pz⟩ : RowOut))
  finishRow s lc cyc e p rs (all.flatMap (fun t => elemCycles 64 p.C [t.1] ++ elemCycles 64 p.C [t.1, t.2.1, t.2.2])) outs 0

/-- ROW.NORM.F (R193). -/
def execRowNormF (lc cyc : Nat) (s : State) : Res :=
  .next (runRow s lc cyc oNORMF (fun _ => [(0, false), (1, false), (2, false), (3, true)]) (fun _ _ _ => (false, true)) (rowNormFRun lc cyc))

/-- dx of one row (R194). x̂ takes the μ of the statistics row whatever the norm; only A and a differ for RMS norm. -/
def normBack (rms : Bool) (mu rho : F32) (dy g x : Nat → FVal) (absent : Bool) (n : Nat) : List FVal :=
  let rng := List.range n
  let xh := rng.map (fun i => xhat false mu rho (x i))
  let gs := rng.map (fun i => if absent then rne (dy i) else rne (fvMul (dy i) (g i)))
  let a := if rms then 0 else f32DivNat (rowSum gs) n
  let b := f32DivNat (rowSum (rng.map (fun i => f32Mul (listGet 0 gs i) (listGet 0 xh i)))) n
  rng.map (fun i =>
    let gi := listGet 0 gs i
    fvMul (fv rho) (fv (f32Sub (f32Sub gi a) (f32Mul (listGet 0 xh i) b))))

/-- ROW.NORM.B on its entry. It writes dX only (R194): a poisoned source leaves the statistics word, which R189 poisons, as it is (DESIGN CHOICE, log 43). -/
def rowNormBRun (lc cyc : Nat) (s : State) (e : QEntry) (p : RowPar) : State :=
  let rd := readStats s lc p p.rows
  let s := rd.2
  let m := (cluster s lc).mem
  let src (i : Nat) : VSrc × VSrc × VSrc := (rowSrc m e p 0 i fvZero, rowSrc m e p 1 i fvZero, rowSrc m e p 2 i (fvInt 1))
  let rs : ReadSet := (List.range p.rows).flatMap (fun i =>
    let t := src i
    [rowReads (sref e.raw 0) p.C t.1, rowReads (sref e.raw 1) p.C t.2.1, rowReads (sref e.raw 2) p.C t.2.2])
  let slip := (readSlip m rs).isSome
  let outs := (List.range p.rows).map (fun i =>
    let t := src i
    let st := listGet ⟨0, 0, true⟩ rd.1 i
    let pz := st.pz || rowPz m slip p.C [t.1, t.2.1, t.2.2]
    (⟨normBack (isRms e) st.s0 st.s1 t.1.val t.2.2.val t.2.1.val (isAbsent e 2) p.C, none, pz⟩ : RowOut))
  finishRow s lc cyc e p rs ((List.range p.rows).flatMap (fun i =>
    let t := src i
    elemCycles 64 p.C [t.1, t.2.1, t.2.2] ++ elemCycles 64 p.C [t.1, t.2.1, t.2.2])) outs (rd.1.filter (fun x => x.pz)).length

/-- ROW.NORM.B (R194). -/
def execRowNormB (lc cyc : Nat) (s : State) : Res :=
  .next (runRow s lc cyc oNORMB (fun _ => [(0, false), (1, false), (2, false), (3, true)]) (fun _ _ _ => (true, false)) (rowNormBRun lc cyc))

/-! Row contexts (R191) -/

/-- FIRST and phase 1. -/
def isFirst (e : QEntry) : Bool := natBits (cCx e.raw) 1 1 == 1
def isPhase1 (e : QEntry) : Bool := natBits (cCx e.raw) 2 1 == 1

/-- The open context of a key. -/
def ctxOf (v : VecRow) (k : Nat) : Option RowCtx := v.ctxs.find? (fun c => c.key == k)

/-- Close the context of a key. -/
def closeCtx (v : VecRow) (k : Nat) : VecRow := { v with ctxs := v.ctxs.filter (fun c => c.key != k) }

/-- Open or replace a context. -/
def putCtx (v : VecRow) (c : RowCtx) : VecRow := { v with ctxs := (closeCtx v c.key).ctxs ++ [c] }

/-- Enter a phase-0 chunk of a row: the compensation register to go on from, and whether the row is refused (R191). -/
def enterCtx (v : VecRow) (first : Bool) (k : Nat) : F32 × Bool :=
  match first, ctxOf v k with
  | true, some _ => (0, false)
  | true, none => (0, decide (256 ≤ v.ctxs.length))
  | false, some c => (c.comp, false)
  | false, none => (0, true)

/-- Phase 0 of the rows of a chunk: `f` gives a row's new statistics, compensation and source poison from its old ones. -/
def phase0 (s : State) (lc : Nat) (e : QEntry) (p : RowPar) (old : List StatRow) (init : F32 × F32)
    (f : Nat → F32 × F32 × F32 → F32 × F32 × F32) (pz : Nat → Bool) : List RowOut × State :=
  (List.range p.rows).foldl (fun (t : List RowOut × State) i =>
    let v := (cluster t.2 lc).vr
    let k := statKey p i
    let x := enterCtx v (isFirst e) k
    let o := listGet ⟨0, 0, true⟩ old i
    let st := if isFirst e then init else (o.s0, o.s1)
    let r := f i (st.1, st.2, x.1)
    let bad := x.2 || pz i || (!(isFirst e) && o.pz)
    let s := modCluster t.2 lc (fun c =>
      { c with vr := if x.2 then { c.vr with ctxRefused := satAdd 16 c.vr.ctxRefused 1 } else putCtx c.vr ⟨k, r.2.2, p.start + p.C⟩ })
    (t.1 ++ [⟨[], some ⟨r.1, r.2.1, bad⟩, bad⟩], s)) ([], s)

/-- Phase 1 of the rows: an open context is folded into the statistics and closed; `f` gives the outputs from the final ones. -/
def phase1 (s : State) (lc : Nat) (p : RowPar) (old : List StatRow) (fold : F32 × F32 → F32 → F32 × F32)
    (f : Nat → F32 × F32 → List FVal) (pz : Nat → Bool) : List RowOut × State :=
  (List.range p.rows).foldl (fun (t : List RowOut × State) i =>
    let v := (cluster t.2 lc).vr
    let k := statKey p i
    let o := listGet ⟨0, 0, true⟩ old i
    let bad := o.pz || pz i
    match ctxOf v k with
    | some c =>
      let st := fold (o.s0, o.s1) c.comp
      (t.1 ++ [⟨f i st, some ⟨st.1, st.2, bad⟩, bad⟩], modCluster t.2 lc (fun c => { c with vr := closeCtx c.vr k }))
    | none =>
      -- the row is folded already; a poisoned source still poisons its word of side memory (R189)
      let side := match statPlace p i with
        | .inl _ => true
        | .inr _ => false
      (t.1 ++ [⟨f i (o.s0, o.s1), if bad && side then some ⟨o.s0, o.s1, bad⟩ else none, bad⟩], t.2)) ([], s)

/-- What ROW.SMAX does with its statistics (R191): phase 0 writes them, after reading them unless it begins the row; phase 1 reads them, and writes those
of rows that it folds. -/
def smaxStats (c : Cluster) (e : QEntry) (p : RowPar) : Bool × Bool :=
  if isPhase1 e then (true, (List.range p.rows).any (fun i => (ctxOf c.vr (statKey p i)).isSome)) else (!(isFirst e), true)

/-! Softmax -/

/-- −∞ and the multiplier log₂e of R195. -/
def f32NegInf : F32 := 0xFF800000#32
def log2e : F32 := 0x3FB8AA3B#32

/-- ⌊y⌋ and the fraction y − ⌊y⌋ of a finite value. -/
def floorFrac (y : F32) : Option (Int × FVal) :=
  match fv y with
  | .fin n m e =>
    let k := fvFloor n m e
    some (k, fvSub .rne (fv y) (fvInt k))
  | _ => none

/-- t = exp2(fr) × 2^(ny − K) (R195). -/
def smaxTerm (ny : Int) (fr : FVal) (k : Int) : F32 :=
  match fr with
  | .fin _ m e => rne (fvScale (ny - k) (fv (exp2F32 m e)))
  | _ => f32NaN

/-- The integer reference that STAT0 holds; none at −∞. -/
def refOf (k : F32) : Option Int := match fv k with
  | .fin n m e => some (fvFloor n m e)
  | _ => none

/-- What a logit is to R195 and R196: −∞, a number with its floor and fraction, or a value that makes the row NaN. -/
inductive Logit where
  | minus
  | num (ny : Int) (fr : FVal)
  | bad
  deriving DecidableEq, Repr

/-- Classify a logit under the scale s2. A product that overflows is treated as the infinity that it rounds to. -/
def logitOf (s2 : F32) (x : FVal) : Logit :=
  match x with
  | .nan => .bad
  | .inf n => if n then .minus else .bad
  | .fin _ _ _ =>
    let y := rne (fvMul x (fv s2))
    match floorFrac y with
    | some (k, f) => .num k f
    | none => if y = f32NegInf then .minus else .bad

/-- One element of phase 0: (K, Σ, c) and the term count n of the element. -/
def smaxAdd (s2 : F32) (t : F32 × Cell) (n : Nat) (x : FVal) : F32 × Cell :=
  match logitOf s2 x with
  | .bad => (t.1, ⟨f32NaN, 0⟩)
  | .minus => (t.1, accFloat n t.2 fvZero)
  | .num ny fr =>
    match refOf t.1 with
    | none => (rne (fvInt ny), accFloat n t.2 (fv (smaxTerm ny fr ny)))
    | some k =>
      if k < ny then
        let sc (v : F32) : F32 := rne (fvScale (k - ny) (fv v))
        (rne (fvInt ny), accFloat n ⟨sc t.2.s, sc t.2.c⟩ (fv (smaxTerm ny fr ny)))
      else (t.1, accFloat n t.2 (fv (smaxTerm ny fr k)))

/-- A chunk of phase 0 from position `start`. -/
def smaxChunk (s2 : F32) : Nat → List FVal → F32 × Cell → F32 × Cell
  | _, [], t => t
  | n, x :: r, t => smaxChunk s2 (n + 1) r (smaxAdd s2 t (n + 1) x)

/-- p of an element in phase 1 (R195, R196). -/
def smaxOut (s2 k sum : F32) (x : FVal) : FVal :=
  if fv sum = .nan then .nan
  else match refOf k with
    | none => fvZero
    | some kk =>
      let r := f32Div 0x3F800000#32 sum
      match logitOf s2 x with
      | .bad => .nan
      | .minus => fvZero
      | .num ny fr => fvMul (fv (smaxTerm ny fr kk)) (fv r)

/-- ROW.SMAX.F on its entry. -/
def rowSmaxFRun (lc cyc : Nat) (s : State) (e : QEntry) (p : RowPar) : State :=
  let rd := if !(isPhase1 e) && isFirst e then ([], s) else readStats s lc p p.rows
  let s := rd.2
  let m := (cluster s lc).mem
  let src (i : Nat) : VSrc := rowSrc m e p 0 i fvZero
  let rs : ReadSet := (List.range p.rows).map (fun i => rowReads (sref e.raw 0) p.C (src i))
  let slip := (readSlip m rs).isSome
  let s2 := f32Mul p.k32 log2e
  let pz (i : Nat) : Bool := rowPz m slip p.C [src i]
  let xs (i : Nat) : List FVal := (List.range p.C).map (src i).val
  let r := if isPhase1 e then
      phase1 s lc p rd.1 (fun st c => (st.1, foldCell ⟨st.2, c⟩)) (fun i st => (xs i).map (smaxOut s2 st.1 st.2)) pz
    else
      phase0 s lc e p rd.1 (f32NegInf, 0) (fun i st =>
        let t := smaxChunk s2 p.start (xs i) (st.1, ⟨st.2.1, st.2.2⟩)
        (t.1, t.2.s, t.2.c)) pz
  finishRow r.2 lc cyc e p rs ((List.range p.rows).flatMap (fun i => elemCycles 64 p.C [src i])) r.1 (rd.1.filter (fun x => x.pz)).length

/-- ROW.SMAX.F (R195, R196). -/
def execRowSmaxF (lc cyc : Nat) (s : State) : Res :=
  .next (runRow s lc cyc oSMAXF (fun e => if isPhase1 e then [(0, false), (3, true)] else [(0, false)]) smaxStats (rowSmaxFRun lc cyc))

/-- A chunk of D (R197). -/
def smaxBChunk : Nat → List F32 → Cell → Cell
  | _, [], t => t
  | n, x :: r, t => smaxBChunk (n + 1) r (accFloat (n + 1) t (fv x))

/-- ROW.SMAX.B on its entry: S0 is dP, S1 is P. -/
def rowSmaxBRun (lc cyc : Nat) (s : State) (e : QEntry) (p : RowPar) : State :=
  let rd := if !(isPhase1 e) && isFirst e then ([], s) else readStats s lc p p.rows
  let s := rd.2
  let m := (cluster s lc).mem
  let dp (i : Nat) : VSrc := rowSrc m e p 0 i fvZero
  let pp (i : Nat) : VSrc := rowSrc m e p 1 i fvZero
  let rs : ReadSet := (List.range p.rows).flatMap (fun i => [rowReads (sref e.raw 0) p.C (dp i), rowReads (sref e.raw 1) p.C (pp i)])
  let slip := (readSlip m rs).isSome
  let pz (i : Nat) : Bool := rowPz m slip p.C [dp i, pp i]
  let r := if isPhase1 e then
      phase1 s lc p rd.1 (fun st c => (foldCell ⟨st.1, c⟩, st.2)) (fun i st =>
        (List.range p.C).map (fun x =>
          fvMul (fv p.k32) (fv (rne (fvMul ((pp i).val x) (fv (rne (fvSub .rne ((dp i).val x) (fv st.1))))))))) pz
    else
      phase0 s lc e p rd.1 (0, 0) (fun i st =>
        let t := smaxBChunk p.start ((List.range p.C).map (fun x => rne (fvMul ((pp i).val x) ((dp i).val x)))) ⟨st.1, st.2.2⟩
        (t.s, 0, t.c)) pz
  finishRow r.2 lc cyc e p rs ((List.range p.rows).flatMap (fun i => elemCycles 64 p.C [dp i, pp i])) r.1 (rd.1.filter (fun x => x.pz)).length

/-- ROW.SMAX.B (R197). -/
def execRowSmaxB (lc cyc : Nat) (s : State) : Res :=
  .next (runRow s lc cyc oSMAXB (fun e => if isPhase1 e then [(0, false), (1, false), (3, true)] else [(0, false), (1, false)]) smaxStats
    (rowSmaxBRun lc cyc))

/-! Ranked selection -/

/-- A ranked element: value, position, whether its position is one that can be written (R114). -/
structure Cand where
  v : FVal
  pos : Nat
  ok : Bool
  deriving DecidableEq, Repr

/-- Does a rank above b (R111)? Equal keys rank by position. -/
def ranksAbove (order : Nat) (a b : Cand) : Bool :=
  let k (x : FVal) : FVal := if order = 2 then fvAbs x else x
  let c := fvCmp (k a.v) (k b.v)
  let c := if order = 1 then -c else c
  decide (0 < c) || (c == 0 && decide (a.pos < b.pos))

/-- Insert in rank order, behind every entry that the new one does not rank above. -/
def rankInsert (order : Nat) (x : Cand) : List Cand → List Cand
  | [] => [x]
  | y :: r => if ranksAbove order x y then x :: y :: r else y :: rankInsert order x r

/-- The first k of the candidates by rank. -/
def rankTop (order k : Nat) (l : List Cand) : List Cand := l.foldl (fun acc x => (rankInsert order x acc).take k) []

/-- Bytes of a result of k entries, rounded to words (R167). -/
def topkQ (k : Nat) : Nat := roundUp (8 + 8 * k) 64

/-- One entry (Table 4-4). An element at a position of 2^26 or more keeps its VALUE, since R114 gives only POS and VALID (DESIGN CHOICE, log 43). -/
def topkEntry (c : Cand) : Nat :=
  if c.ok then packFields [((rne c.v).toNat, 32), (c.pos, 26), (0, 5), (1, 1)] else packFields [((rne c.v).toNat, 32), (0, 32)]

/-- The result of a row (R115): header and k entries. -/
def topkBytes (k nanN : Nat) (pz : Bool) (top : List Cand) : List Byte :=
  let valid := (top.filter (fun c => c.ok)).length
  leBytes 8 (packFields [(valid, 9), (0, 7), (nanN, 27), (b2n pz, 1)]) ++ top.flatMap (fun c => leBytes 8 (topkEntry c)) ++
  (List.range (k - top.length)).flatMap (fun _ => leBytes 8 0x7FC00000)

/-- The entries of part j of a row, an earlier result at a scratchpad address (R114), up to the first that R112 filled, whose value is NaN. An entry
with VALID = 0 and a number is an element whose position was 2^26 or more; it ranks behind the equal keys of earlier parts. -/
def topkRead (m : Memory) (a k j : Nat) : List Cand :=
  ((List.range k).map (fun i =>
    let x := memLe m (a + 8 + 8 * i) 8
    let ok := natBits x 63 1 == 1
    (⟨fv (BitVec.ofNat 32 x), if ok then natBits x 32 26 else 2 ^ 26 + j, ok⟩ : Cand))).takeWhile (fun c => c.ok || c.v != .nan)

/-- The best of the parts' head entries: its part and the entry. -/
def bestHead (order : Nat) : Nat → List (List Cand) → Option (Nat × Cand)
  | _, [] => none
  | j, [] :: r => bestHead order (j + 1) r
  | j, (c :: _) :: r => match bestHead order (j + 1) r with
    | some x => if ranksAbove order x.2 c then some x else some (j, c)
    | none => some (j, c)

/-- The first n entries of the parts by rank, each with its part and its place there; `at_` counts what each part has given (R114, R198). -/
def mergeHeads (order : Nat) : Nat → List (List Cand) → Sparse Nat → List (Nat × Nat × Cand)
  | 0, _, _ => []
  | n + 1, ls, at_ => match bestHead order 0 ls with
    | none => []
    | some (j, c) =>
      let i := spGet 0 at_ j
      (j, i, c) :: mergeHeads order n (ls.set j ((listGet [] ls j).drop 1)) (spSet 0 at_ j (i + 1))

/-- ROW.TOPK on its entry. -/
def rowTopkRun (lc cyc : Nat) (s : State) (e : QEntry) (p : RowPar) : State :=
  let m := (cluster s lc).mem
  let k := p.topk
  let q := topkQ k
  let order := natBits (cCx e.raw) 0 2
  let merge := natBits (cCx e.raw) 2 1 == 1
  let r0 := sref e.raw 0
  let src (i : Nat) : VSrc := rowSrc m e p 0 i fvZero
  let partAt (i j : Nat) : Nat := formed e r0 + (i * p.C + j) * q
  -- merge mode reads the header and the head entry of every part, then an entry as it selects it (R198)
  let picks (i : Nat) : List (Nat × Nat × Cand) := mergeHeads order k ((List.range p.C).map (fun j => topkRead m.sp (partAt i j) k j)) []
  let heads (i : Nat) : List Nat := (List.range p.C).map (fun j => partAt i j / 64)
  let later (i : Nat) : List Nat := (picks i).map (fun x => (partAt i x.1 + 8 + 8 * x.2.1) / 64)
  let words (i : Nat) : List Nat := if merge then setAddAll [] (heads i ++ later i) else (rowReads r0 p.C (src i)).2
  let cycles (i : Nat) : List (List Nat) := if merge then chunks 64 (heads i) ++ chunks 8 (later i) else elemCycles 64 p.C [src i]
  let rs : ReadSet := (List.range p.rows).map (fun i => (r0, words i))
  let slip := (readSlip m rs).isSome
  let r3 := sref e.raw 3
  let rows := (List.range p.rows).map (fun i =>
    let hdr (j : Nat) : Nat := memLe m.sp (partAt i j) 8
    let pz := slip || (words i).any (spPoison m) || (merge && (List.range p.C).any (fun j => natBits (hdr j) 43 1 == 1))
    let vals := (List.range p.C).map (fun x => ((src i).val x, p.pos + i * p.L + p.start + x))
    let top := if merge then (picks i).map (fun x => x.2.2)
      else rankTop order k ((vals.filter (fun x => x.1 != FVal.nan)).map (fun x => (⟨x.1, x.2, decide (x.2 < 2 ^ 26)⟩ : Cand)))
    let nanN := if merge then (List.range p.C).foldl (fun a j => a + natBits (hdr j) 16 27) 0
      else (vals.filter (fun x => x.1 == FVal.nan)).length
    (topkBytes k nanN pz top, pz))
  let ps := (List.range p.rows).flatMap (fun i =>
    let x := listGet ([], false) rows i
    runPieces (formed e r3 + i * q) x.1 x.2)
  let bad := (rows.filter (fun x => x.2)).length
  finishCmd s lc 2 cyc e rs ((List.range p.rows).flatMap cycles) [(ps, r3.tag)] 0
    (fun s => modCluster s lc (fun c => { c with vr := { c.vr with poisonRows := satAdd 16 c.vr.poisonRows bad } }))

/-- The scale array of a BS8 source's last row (R44, R113, R150). -/
def rowScaleBound (e : QEntry) (p : RowPar) : Option (Nat × Nat) :=
  let r1 := sref e.raw 1
  let a := formed e r1 + (p.rows - 1) * p.stride / 32
  let top := scaleAt a r1.lstride (ceilDiv p.C 32 - 1)
  if spTop < top then some (a, top) else none

/-- Range of ROW.TOPK's source and results. -/
def topkBound (e : QEntry) (p : RowPar) : Option (Nat × Nat × Bool) :=
  let q := topkQ p.topk
  let r0 := sref e.raw 0
  let a := formed e r0
  let b := formed e (sref e.raw 3)
  let src := if natBits (cCx e.raw) 2 1 = 1 then
      (if spTop + 1 < a + p.rows * p.C * q then some (a, a + p.rows * p.C * q - 1) else none)
    else (opndBound r0 (a + (p.rows - 1) * p.stride) p.C).or (if isBs8 r0.fmt then rowScaleBound e p else none)
  (src.map (fun x => (x.1, x.2, false))).or
    (if spTop + 1 < b + (p.rows - 1) * q + 8 + 8 * p.topk then some (b, b + (p.rows - 1) * q + 7 + 8 * p.topk, true) else none)

/-- ROW.TOPK (R111 to R115, R167). -/
def execRowTopk (lc cyc : Nat) (s : State) : Res :=
  .next (runRow s lc cyc oTOPK (fun _ => []) (fun _ _ _ => (false, false)) (fun s e p =>
    match topkBound e p with
    | some (lo, hi, w) => boundFault s lc e.idx lo hi w
    | none => rowTopkRun lc cyc s e p))

end Sys2Proof.Machine
end

