-- ==== Sys2Proof/Machine/Traverse.lean ====
section
/-! DEFINITION. Traverses (10): patterns, version slots, scratchpad side, turntable, conversion, check values, poison. -/

namespace Sys2Proof.Machine

/-- The dimensions of a command's descriptor. -/
def trvDims (e : QEntry) : List (Nat × Int) := descDims e.desc

/-- Slot 0 of a command's descriptor. -/
def trvD0 (e : QEntry) : Desc0 := desc0 (listGet 0 e.desc 0)

/-- The coordinate of a pattern position (R262): i0 the fastest. -/
def coordOf : List (Nat × Int) → Nat → List Nat
  | [], _ => []
  | (n, _) :: r, k => k % n :: coordOf r (k / n)

/-- Byte offset of a pattern position. -/
def offsetOf : List (Nat × Int) → Nat → Int
  | [], _ => 0
  | (n, st) :: r, k => (k % n : Nat) * st + offsetOf r (k / n)

/-- Positions of a pattern. -/
def posCount (ds : List (Nat × Int)) : Nat := ds.foldl (fun a d => a * d.1) 1

/-- Bytes at one position: an E2M1 pattern addresses bytes (R262). -/
def posBytes (fmt : Nat) : Nat := if fmtBits fmt = 4 then 1 else fmtBits fmt / 8

/-- Lowest offset and highest byte offset of a pattern (R259). -/
def boxOf (fmt : Nat) (ds : List (Nat × Int)) : Int × Int :=
  ds.foldl (fun b d =>
    let x := ((d.1 - 1 : Nat) : Int) * d.2
    if x < 0 then (b.1 + x, b.2) else (b.1, b.2 + x)) (0, (posBytes fmt : Int) - 1)

/-- Element count E (R262). -/
def elemCount (fmt : Nat) (ds : List (Nat × Int)) : Nat := if fmtBits fmt = 4 then 2 * posCount ds else posCount ds

/-- The device addresses of the positions, in generation order. -/
def posAddrs (base : Nat) (ds : List (Nat × Int)) : List Nat :=
  (List.range (posCount ds)).map (fun k => ((base : Int) + offsetOf ds k).toNat)

/-- Join runs of consecutive bytes that lie in one aligned unit of `cut` bytes; with `cut` 0, wherever they lie. -/
def coalesce (cut : Nat) : List (Nat × Nat) → List (Nat × Nat)
  | [] => []
  | (a, n) :: r =>
    match coalesce cut r with
    | (b, m) :: t => if b = a + n ∧ b / cut = a / cut then (a, n + m) :: t else (a, n) :: (b, m) :: t
    | [] => [(a, n)]

/-- The accesses of a pattern: pieces of at most one 64-byte unit, in order. -/
def accesses (addrs : List Nat) (n : Nat) : List (Nat × Nat) := coalesce 64 (addrs.flatMap (fun a => pieces a n))

/-- A byte of a stream with the poison of its source unit. -/
abbrev PByte := Byte × Bool

/-- Read a pattern: its bytes with poison, and the poisoned units read. -/
def readStream (s : State) (ps : List (Nat × Nat)) : List PByte × Nat × State :=
  let r := devReadPieces ps s
  (r.1.flatMap (fun x => x.data.map (fun b => (b, x.poison))), (r.1.filter (fun x => x.poison)).length, r.2)

/-- A stream element: its code, its poison, its ordinal in generation order, and the 32-element run of its source whose scale it takes. -/
structure SElem where
  code : Nat
  poison : Bool
  ord : Nat
  run : Nat
  deriving DecidableEq, Repr

/-- No element. -/
def SElem.none : SElem := ⟨0, false, 0, 0⟩

/-- Cut a byte stream into elements of a format. -/
def toElems (fmt : Nat) (l : List PByte) : List SElem :=
  if fmtBits fmt = 4 then
    (List.range (2 * l.length)).map (fun k =>
      let b := listGet (0, false) l (k / 2)
      ⟨if k % 2 = 0 then b.1.toNat % 16 else b.1.toNat / 16, b.2, k, k / 32⟩)
  else
    let n := fmtBits fmt / 8
    (List.range (l.length / n)).map (fun k =>
      let bs := (l.drop (k * n)).take n
      ⟨ofLe (bs.map (fun b => b.1)), bs.any (fun b => b.2), k, k / 32⟩)

/-- The bytes of elements of a format. -/
def ofElems (fmt : Nat) (l : List SElem) : List PByte :=
  if fmtBits fmt = 4 then
    (List.range ((l.length + 1) / 2)).map (fun k =>
      let x := listGet .none l (2 * k)
      let y := listGet .none l (2 * k + 1)
      (BitVec.ofNat 8 (x.code % 16 + y.code % 16 * 16), x.poison || y.poison))
  else l.flatMap (fun x => (leBytes (fmtBits fmt / 8) x.code).map (fun b => (b, x.poison)))

/-- Input position of output position k of the turntable (R267). -/
def ttPos (k : Nat) : Nat := k / 16384 * 16384 + k % 128 * 128 + k / 128 % 128

/-- The turntable. -/
def turn {α : Type} (d : α) (tt : Bool) (l : List α) : List α :=
  if tt then (List.range l.length).map (fun k => listGet d l (ttPos k)) else l

/-- Keys of a traverse's stochastic rounding (R272). -/
def trvKey (e : QEntry) : SrKey :=
  let k := (descOpt e.desc 1).getD 0
  ⟨natBits k 8 64, natBits k 72 32, ePrm e 248, natBits k 104 40⟩

/-- MSCALE and SSCALE of the SCALES slot. -/
def trvScales (e : QEntry) : Nat × Nat :=
  let k := (descOpt e.desc 5).getD 0
  (natBits k 8 48, natBits k 56 16)

/-- Convert a stream between formats (R272): equal formats copy; `sc` gives the scale byte of a 32-element run of a BS8 source. -/
def convStream (src dst rmode : Nat) (sat : Bool) (key : SrKey) (sc : Nat → Nat) (l : List SElem) : List SElem × List Nat :=
  if src = dst then (l, [])
  else
    let v (x : SElem) : FVal := decodeAny src (sc x.run) x.code
    if isBs8 dst then
      let runs := (List.range (l.length / 32)).map (fun k =>
        let r := (l.drop (32 * k)).take 32
        (r, encodeBs8 dst (r.map (fun x => modeOf rmode key x.ord)) (r.map v)))
      (runs.flatMap (fun r => (List.range 32).map (fun i =>
        { (listGet .none r.1 i) with code := listGet 0 r.2.2 i })), runs.map (fun r => r.2.1))
    else (l.map (fun x =>
      let c := convElem dst rmode sat key x.ord (v x)
      { x with code := c.code, poison := x.poison || c.poison }), [])

/-- Address of the scratchpad scale byte of 32-element run b (R273). -/
def spScaleAddr (sscale lstride b : Nat) : Nat :=
  let q := b / 4
  if lstride = 0 then sscale * 64 + b else sscale * 64 + q / 256 * (lstride * 4096) + q % 256 * 4 + b % 4

/-! Version slots -/

/-- The slot at distance d from CUR (R212). -/
def slotAt (v : VtEntry) (d : Nat) : Nat := (v.cur + d) % (v.slotsM1 + 1)

/-- Why a write into a slot is refused (Table 8-6), 0 when it is not. -/
def heldCause (s : State) (t slot : Nat) : Nat :=
  let v := vtOf s t
  if holdCount v slot ≠ 0 then 1
  else if slot = v.cur then 2
  else if v.frozen then 3
  else if (groupOf s v.group).await || (v.pendV && v.pend != slot) then 4
  else 0

/-- Post VERSION_HELD (R217): tensor, slot, cause, and for HELD the first eight holding pairs. -/
def postHeld (s : State) (lc t slot cause : Nat) : State :=
  let holders := if cause = 1 then
      s.cl.flatMap (fun c => c.2.handles.filterMap (fun h =>
        if h.2.held && h.2.tensor == t && h.2.slot == slot then some (c.1, h.1) else none))
    else []
  logEvent s 0x000A 7 0 lc noLink (packFields ([(t, 13), (slot, 2), (cause, 8)] ++
    (holders.take 8).flatMap (fun h => [(h.1, 8), (h.2, 3)])))

/-- How a memory side resolves: an address, an empty handle (R215), or a refused write (R217); the slot written, its lowest and highest
permitted byte. -/
inductive Side where
  | at_ (base : Nat) (slotW : Option (Nat × Nat)) (size : Option (Nat × Nat))
  | empty
  | held (tensor slot cause : Nat)
  | wait
  deriving DecidableEq, Repr

/-- Resolve a memory side (R269): kind 0 address, 1 current, 2 handle, 3 new slot. -/
def resolve (s : State) (lc vsel tensor varg off : Nat) : Side :=
  let v := vtOf s tensor
  match vsel with
  | 0 => .at_ off none none
  | 1 => .at_ (slotBase v v.cur + off) none (some (slotBase v v.cur, v.size))
  | 2 =>
    let h := handleOf s lc varg
    if h.held then .at_ (slotBase (vtOf s h.tensor) h.slot + off) none (some (slotBase (vtOf s h.tensor) h.slot, (vtOf s h.tensor).size))
    else .empty
  | _ =>
    let k := slotAt v varg
    let c := heldCause s tensor k
    if c ≠ 0 then .held tensor k c
    else if ckptHolds s tensor k then .wait
    else .at_ (slotBase v k + off) (some (tensor, k)) (some (slotBase v k, v.size))

/-- Offset of the memory side (R263): BASE with PRM(PRMX). -/
def srcOff (e : QEntry) : Nat := let d := trvD0 e; d.base + (if d.prmEn then ePrm e d.prmx else 0)

/-- The DEST slot. -/
def destSlot (e : QEntry) : Nat := (descOpt e.desc 2).getD 0

/-- Offset of a DIR 0b10 destination. -/
def dstOff (e : QEntry) : Nat :=
  let d := destSlot e
  natBits d 8 48 + (if natBits d 56 1 = 1 then ePrm e (natBits d 57 8) else 0)

/-- DROW: elements of a destination row, 0 for a dense stream. -/
def destRow (e : QEntry) : Nat := natBits (destSlot e) 82 24

/-- First byte of destination row r (R274). -/
def rowStart (e : QEntry) (dbase r : Nat) : Nat :=
  if destRow e = 0 then dbase else ((dbase : Int) + (r : Nat) * signed 40 (natBits (destSlot e) 106 40)).toNat

/-- Elements of one destination row, all E of them in a dense stream. -/
def rowElems (e : QEntry) : Nat := if destRow e = 0 then elemCount (trvD0 e).mfmt (trvDims e) else destRow e

/-- Bytes that n elements of the memory format touch from the start of a byte (R42). -/
def bytesOf (e : QEntry) (n : Nat) : Nat := (n * fmtBits (trvD0 e).mfmt + 7) / 8

/-- Destination rows. -/
def destRows (e : QEntry) : Nat := elemCount (trvD0 e).mfmt (trvDims e) / max 1 (rowElems e)

/-- Addresses of the destination bytes of a DIR 0b10 stream, row by row (R274). -/
def destAddrs (e : QEntry) (dbase : Nat) : List Nat :=
  (List.range (destRows e)).flatMap (fun r => rangeFrom (rowStart e dbase r) (bytesOf e (rowElems e)))

/-- Address of the first destination byte of the element at stream position k. -/
def destElem (e : QEntry) (dbase k : Nat) : Nat :=
  rowStart e dbase (k / max 1 (rowElems e)) + k % max 1 (rowElems e) * fmtBits (trvD0 e).mfmt / 8

/-- A box that R259 or R271 does not permit: whether the side's box lies in one window and inside its slot. -/
def boxOk (s : State) (lo hi : Int) (write : Bool) (size : Option (Nat × Nat)) : Bool :=
  decide (0 ≤ lo) && boundOk s lo.toNat hi.toNat write &&
  (match size with
   | some (b, n) => decide ((b : Int) ≤ lo) && decide (hi < (b + n : Nat))
   | none => true)

/-- The segments of an access list (R281): runs of consecutive bytes, cut at each aligned 4 KiB boundary in DRAM, at each aligned 256-byte
boundary in companion memory. -/
def segments (acc : List (Nat × Nat)) : List (Nat × Nat) :=
  (coalesce 0 acc).flatMap (fun g =>
    let k := match locate g.1 with
      | .dram _ _ => 4096
      | .comp _ => 256
      | _ => 64
    (unitsOf k g.1 g.2).map (fun u => (max g.1 (k * u), min (g.1 + g.2) (k * u + k) - max g.1 (k * u))))

/-- Charge one segment (R281): 4 KiB of its stack in DRAM, 256 bytes on Turaist, an access to a window as it is; a segment charged beyond its
length counts. -/
def chargeSeg (lc e : Nat) (write : Bool) (s : State) (g : Nat × Nat) : State :=
  let short (n : Nat) (s : State) : State :=
    if g.2 < n then modCluster s lc (fun c => modTrv c e (fun t => { t with shortSeg := satAdd 16 t.shortSeg 1 })) else s
  let charged (u : Nat) : State := chargeCells s 0 (devCells (secOf lc) g.1 write) u
  match locate g.1 with
  | .dram _ _ => short 4096 (charged 64)
  | .comp _ => short 256 (charged 4)
  | .window _ _ => charged 1
  | _ => s

/-- Charge the segments of an access list. -/
def chargeSegs (s : State) (lc e : Nat) (acc : List (Nat × Nat)) (write : Bool) : State :=
  (segments acc).foldl (chargeSeg lc e write) s

/-- The tag of words written through a cluster window (R265). -/
def windowTag (e : QEntry) : Nat := if natBits (listGet 0 e.desc 0) 87 1 = 1 then (trvD0 e).rtag else 0xE

/-- Write a byte stream at addresses: byte k at the k-th address, joined into accesses; a unit carries the poison of its bytes. -/
def writeStream (s : State) (addrs : List Nat) (l : List PByte) (tag : Nat) : State :=
  let go := fun (t : State × List PByte) (p : Nat × Nat) =>
    let x := t.2.take p.2
    (unitWrite t.1 p.1 (x.map (fun b => b.1)) (x.any (fun b => b.2)) tag, t.2.drop p.2)
  ((coalesce 64 (addrs.map (fun a => (a, 1)))).foldl go (s, l)).1

/-- Byte addresses of a pattern whose positions hold n bytes each. -/
def byteAddrs (addrs : List Nat) (n : Nat) : List Nat := addrs.flatMap (fun a => rangeFrom a n)

/-- The scratchpad side's blocks for E elements: the words of element k (R264). -/
def spElemWord (e : QEntry) (k : Nat) : Nat :=
  let r := sref e.raw 0
  elemAddr r.fmt (formed e r) r.lstride k / 64

/-- Does the scratchpad range break R150? Gives the box. -/
def spRange (e : QEntry) (n : Nat) : Option (Nat × Nat) :=
  let r := sref e.raw 0
  let a := formed e r
  let fin := elemsEnd r.fmt a r.lstride n
  if spTop + 1 < fin then some (a, fin - 1) else none

end Sys2Proof.Machine
end

