-- ==== Sys2Proof/Machine/TrvRun.lean ====
section
/-! DEFINITION. What a traverse does at its issue (R263 to R279): resolving its sides, its checks, and its data in each direction. -/

namespace Sys2Proof.Machine

/-- Addresses of the memory-side scale bytes, one for each run of 32 elements (R273). -/
def memScales (e : QEntry) (base : Nat) : List Nat :=
  if isBs8 (trvD0 e).mfmt then
    let ds := trvDims e
    (List.range (elemCount (trvD0 e).mfmt ds / 32)).map (fun k =>
      (trvScales e).1 + (((base : Int) + offsetOf ds (32 * k)).toNat - base) / 32)
  else []

/-- Bytes of a list of PBytes. -/
def pbytes (l : List PByte) : List Byte := l.map (fun b => b.1)

/-- The memory side's addresses, byte by byte, in generation order. -/
def memByteAddrs (e : QEntry) (base : Nat) : List Nat :=
  let f := (trvD0 e).mfmt
  byteAddrs (posAddrs base (trvDims e)) (posBytes f)

/-- The CHECK slot. -/
def chkSlot (e : QEntry) : Option Nat := descOpt e.desc 4

/-- The DECRYPT slot. -/
def decryptSlot (e : QEntry) : Option Nat := descOpt e.desc 3

/-- CHKADDR and TAGADDR. -/
def chkAddr (k : Nat) : Nat := natBits k 12 48
def tagAddr (k : Nat) : Nat := natBits k 108 48

/-- Put an addressed byte into a list that ascends by address, after those of the same address. -/
def insertByAddr (x : Nat × Byte) : List (Nat × Byte) → List (Nat × Byte)
  | [] => [x]
  | y :: r => if x.1 < y.1 then x :: y :: r else y :: insertByAddr x r

/-- Bytes in ascending order of their addresses. -/
def byAddr (l : List (Nat × Byte)) : List Byte := (l.foldl (fun a x => insertByAddr x a) []).map (fun x => x.2)

/-- The stream check value (R277): the element bytes in generation order, then the scale bytes in ascending address order. -/
def streamCheck (e : QEntry) (els : List Byte) (scales : List (Nat × Byte)) : Nat :=
  match chkSlot e with
  | some k => crcOf (streamCfg (natBits k 8 2)) (els ++ byAddr scales)
  | none => 0

/-- Element poison joined with the poison of its run's scale byte. -/
def withScales (sc : List PByte) (l : List SElem) : List SElem :=
  l.map (fun x => { x with poison := x.poison || (listGet ((0 : Byte), false) sc x.run).2 })

/-- What a direction did: the state, the check value, the plaintext for a DIGEST entry, whether the key was absent, the tag of the ciphertext. -/
structure TrvDone where
  s : State
  ck : Nat
  plain : List Byte
  keyAbsent : Bool
  gtag : List Byte

/-- Ingress, DIR 0b00 (R264, R265, R272, R273). A word that it writes whole takes the poison of R279 alone, its scale words as its element words. -/
def trvIngress (s : State) (lc q : Nat) (e : QEntry) (base : Nat) : TrvDone :=
  let d := trvD0 e
  let r := sref e.raw 0
  let rd := readStream s (coalesce 64 ((memByteAddrs e base).map (fun a => (a, 1))))
  let sc := readStream rd.2.2 ((memScales e base).map (fun a => (a, 1)))
  let scByte (b : Nat) : Nat := (listGet ((0 : Byte), false) sc.1 b).1.toNat
  let els := turn .none d.tt (withScales sc.1 (toElems d.mfmt rd.1))
  let cv := convStream d.mfmt r.fmt d.rmode d.sat (trvKey e) scByte els
  let s := modCluster sc.2.2 lc (fun c => consumePoison c (rd.2.1 + sc.2.1))
  let c := cluster s lc
  let scs := if isBs8 d.mfmt && d.mfmt == r.fmt then sc.1.map (fun b => b.1.toNat) else cv.2
  let ps := destPieces c.mem.sp r.fmt (formed e r) r.lstride (cv.1.map (fun x => ⟨x.code, x.poison⟩)) ++
    (if isBs8 r.fmt then
      joinPieces ((List.range scs.length).flatMap (fun b =>
        runPieces (spScaleAddr (trvScales e).2 r.lstride b) [BitVec.ofNat 8 (listGet 0 scs b)]
          (((cv.1.drop (32 * b)).take 32).any (fun x => x.poison))))
     else [])
  let ck := streamCheck e (pbytes rd.1) ((memScales e base).zip (pbytes sc.1))
  match inboundHit c ps with
  | some p =>
    ⟨raiseSlip s lc q e ⟨9, c.seq.icyc, 0, 0, p.addr, 0⟩, ck, [], false, []⟩
  | none => ⟨setCluster s lc (spWriteAll c ps r.tag), ck, [], false, []⟩

/-- The scratchpad words of element k, with its scale byte (R264, R273). -/
def egressWords (e : QEntry) (k : Nat) : List Nat :=
  let r := sref e.raw 0
  let a := elemAddr r.fmt (formed e r) r.lstride k / 64
  if isBs8 r.fmt then [a, spScaleAddr (trvScales e).2 r.lstride (k / 32) / 64] else [a]

/-- Egress, DIR 0b01 (R265, R272). -/
def trvEgress (s : State) (lc q : Nat) (e : QEntry) (base : Nat) : TrvDone :=
  let d := trvD0 e
  let r := sref e.raw 0
  let c := cluster s lc
  let n := elemCount d.mfmt (trvDims e)
  let ws := setAddAll [] ((List.range n).flatMap (egressWords e))
  let badAt := (List.range n).findSome? (fun k => (firstBad c.mem r.chk r.tag (egressWords e k)).map (fun x => (k, x)))
  let from_ := match badAt with
    | some (k, _) => if d.tt then k / 16384 * 16384 else k
    | none => n
  let els := (List.range n).map (fun k =>
    (⟨operandCode c.mem.sp r.fmt (formed e r) r.lstride k,
      decide (from_ ≤ k) || (egressWords e k).any (fun w => spPoison c.mem w), k, k / 32⟩ : SElem))
  let scByte (b : Nat) : Nat := (memByte c.mem.sp (spScaleAddr (trvScales e).2 r.lstride b)).toNat
  let els := els.map (fun x => if d.tt then { x with ord := x.ord / 16384 * 16384 + x.ord % 128 * 128 + x.ord / 128 % 128 } else x)
  let cv := convStream r.fmt d.mfmt d.rmode d.sat (trvKey e) scByte els
  let scs := if isBs8 d.mfmt && d.mfmt == r.fmt then (List.range (n / 32)).map scByte else cv.2
  let out := ofElems d.mfmt (turn .none d.tt cv.1)
  let scOut : List PByte := (List.range scs.length).map (fun b =>
    (BitVec.ofNat 8 (listGet 0 scs b), ((cv.1.drop (32 * b)).take 32).any (fun x => x.poison)))
  let pz := (poisonedOf c.mem ws).length
  let s := setCluster s lc (consumePoison { c with mem := spTouchAll c.mem (chunks (2048 / fmtBits r.fmt) ((List.range n).map (egressWords e)) |>.map List.flatten) } pz)
  let s := writeStream s (memByteAddrs e base) out (windowTag e)
  let s := writeStream s ((memScales e base).take scOut.length) scOut (windowTag e)
  let ck := streamCheck e (pbytes out) ((memScales e base).zip (pbytes scOut))
  match badAt with
  | some (_, (a, found)) => ⟨raiseSlip s lc q e ⟨slipTag found r.tag, (cluster s lc).seq.icyc, r.tag, found, a, 0⟩, ck, [], false, []⟩
  | none => ⟨s, ck, [], false, []⟩

/-- Write a DIR 0b10 stream to its destination (R274). Rows that end after an even E2M1 element keep the other nibble of their last byte (R42):
they are written one by one, each last byte merged with what stands there. -/
def writeMove (s : State) (e : QEntry) (dbase : Nat) (l : List PByte) : State :=
  let f := (trvD0 e).mfmt
  let n := rowElems e
  if fmtBits f = 4 ∧ n % 2 = 1 then
    let els := toElems f l
    (List.range (destRows e)).foldl (fun s r =>
      let a := rowStart e dbase r
      let m := a + n / 2
      let high := ((unitRead s m 1).1.data.headD 0).toNat / 16
      let row := ofElems f (((els.drop (r * n)).take n) ++ [{ SElem.none with code := high }])
      writeStream s (rangeFrom a (n / 2 + 1)) row (windowTag e)) s
  else writeStream s (destAddrs e dbase) l (windowTag e)

/-- Memory to memory, DIR 0b10 (R274, R275): the ciphertext, in generation order, is decrypted before the turntable. Without a key nothing can
be decrypted: the bytes stand poisoned (R276). -/
def trvMove (s : State) (lc : Nat) (e : QEntry) (base dbase : Nat) : TrvDone :=
  let d := trvD0 e
  let rd := readStream s (coalesce 64 ((memByteAddrs e base).map (fun a => (a, 1))))
  let out (l : List PByte) : List PByte := if d.tt then ofElems d.mfmt (turn .none true (toElems d.mfmt l)) else l
  let s := modCluster rd.2.2 lc (fun c => consumePoison c rd.2.1)
  let ck := streamCheck e (pbytes rd.1) []
  match decryptSlot e with
  | none => ⟨writeMove s e dbase (out rd.1), ck, [], false, []⟩
  | some k =>
    match s.su.wkeys.find? (fun x => x.1 == natBits k 8 4) with
    | none => ⟨writeMove s e dbase (out (rd.1.map (fun b => (b.1, true)))), ck, [], true, []⟩
    | some (_, key) =>
      let iv := BitVec.ofNat 96 (natBits k 12 96)
      let pt := gcmPlain key iv (pbytes rd.1)
      let plain := (List.range rd.1.length).map (fun i => (listGet (0 : Byte) pt i, (listGet ((0 : Byte), false) rd.1 i).2))
      ⟨writeMove s e dbase (out plain), ck, if natBits k 156 1 = 1 then pbytes plain else [], false,
        leBytes 16 (gcmTag key iv [] (pbytes rd.1)).toNat⟩

/-! Checks at the issue -/

/-- Lowest and highest byte of a DIR 0b10 destination. -/
def destBox (e : QEntry) (dbase : Nat) : Int × Int :=
  let last := if destRow e = 0 then 0 else ((destRows e : Int) - 1) * signed 40 (natBits (destSlot e) 106 40)
  ((dbase : Int) + min 0 last, (dbase : Int) + max 0 last + bytesOf e (rowElems e) - 1)

/-- Box of the memory-side pattern at a base. -/
def memBox (e : QEntry) (base : Nat) : Int × Int :=
  let b := boxOf (trvD0 e).mfmt (trvDims e)
  ((base : Int) + b.1, (base : Int) + b.2)

/-- The boxes that the traverse touches: (lowest, highest, write, slot bounds), in the order of its checks. -/
def trvBoxes (e : QEntry) (base : Nat) (size : Option (Nat × Nat)) (dbase : Nat) (dsize : Option (Nat × Nat)) :
    List (Int × Int × Bool × Option (Nat × Nat)) :=
  let dir := trvDir e.raw
  let b := memBox e base
  let sc := memScales e base
  [(b.1, b.2, dir == 1, size)] ++
  (if dir = 2 then
    let x := destBox e dbase
    [(x.1, x.2, true, dsize)] else []) ++
  (match sc with
   | [] => []
   | a :: r => [(((r.foldl min a : Nat) : Int), ((r.foldl max a : Nat) : Int), dir == 1, none)]) ++
  (match chkSlot e with
   | some k => [((chkAddr k : Int), (chkAddr k : Int) + 7, natBits k 10 2 == 1, none)]
   | none => []) ++
  (match decryptSlot e with
   | some k => [((tagAddr k : Int), (tagAddr k : Int) + 15, false, none)]
   | none => [])

/-- The first box that R259, R271 or R275 does not permit; a decrypting traverse's destination, box 1, must be DRAM. -/
def badBox (s : State) (e : QEntry) (boxes : List (Int × Int × Bool × Option (Nat × Nat))) : Option (Int × Int × Bool) :=
  (((List.range boxes.length).zip boxes).find? (fun x =>
    !(boxOk s x.2.1 x.2.2.1 x.2.2.2.1 x.2.2.2.2) ||
      ((decryptSlot e).isSome && x.1 == 1 && x.2.1 ≥ 0 && !(isDram x.2.1.toNat)))).map (fun x => (x.2.1, x.2.2.1, x.2.2.2.1))

/-- The scratchpad range of a DIR 0b00 or 0b01 traverse that breaks R150. -/
def badScratch (e : QEntry) : Option (Nat × Nat) :=
  if trvDir e.raw = 2 then none
  else
    let n := elemCount (trvD0 e).mfmt (trvDims e)
    let r := sref e.raw 0
    match spRange e n with
    | some x => some x
    | none =>
      if isBs8 r.fmt ∧ n ≠ 0 then
        let hi := (List.range (n / 32)).foldl (fun m b => max m (spScaleAddr (trvScales e).2 r.lstride b)) 0
        if spTop < hi then some ((trvScales e).2 * 64, hi) else none
      else none

/-- Poison the whole scratchpad destination of a traverse that transfers nothing (R215). As a write of a command it is held to R143. -/
def poisonDest (s : State) (lc q : Nat) (e : QEntry) : State :=
  if trvDir e.raw ≠ 0 then s
  else
    let r := sref e.raw 0
    let n := elemCount (trvD0 e).mfmt (trvDims e)
    let c := cluster s lc
    let sc := if isBs8 r.fmt then (List.range (n / 32)).map (fun b => spScaleAddr (trvScales e).2 r.lstride b / 64) else []
    let ps := (setAddAll [] (operandWords r.fmt (formed e r) r.lstride n ++ sc)).map (fun w =>
      (⟨64 * w, memRead c.mem.sp (64 * w) 64, true⟩ : SpPiece))
    match inboundHit c ps with
    | some p => raiseSlip s lc q e ⟨9, c.seq.icyc, 0, 0, p.addr, 0⟩
    | none => setCluster s lc (spWriteAll c ps r.tag)

/-- The traverse is in flight. -/
def putFlight (s : State) (lc q : Nat) (t : Trv) : State :=
  modCluster s lc (fun c => modTrv c (q - 3) (fun x => { x with flight := x.flight ++ [t] }))

/-- A traverse that moves nothing and only completes its ticket (R215, R217). -/
def idleTrv (e : QEntry) : Trv := ⟨e, 0, 0, false, 0, false, [], [], .reset, .asked, .asked⟩

/-- Note a version write at its issue (R216). -/
def noteVersionWrite (s : State) (w : Option (Nat × Nat)) : State :=
  match w with
  | some (t, k) => modVt s t (fun v => { v with pend := k, pendV := true })
  | none => s

/-- The instances that the first accesses of a traverse draw on: of its source, and of its destination when both are outside the scratchpad. -/
def trvCells (lc : Nat) (e : QEntry) (base dbase : Nat) : List (Nat × Nat) :=
  devCells (secOf lc) base (trvDir e.raw == 1) ++ (if trvDir e.raw = 2 then devCells (secOf lc) dbase true else [])

/-- Does a traverse touch a bank that holds window accesses (R241)? -/
def trvHeld (s : State) (e : QEntry) (base dbase : Nat) : Bool :=
  (posAddrs base (trvDims e) ++ memScales e base ++ (if trvDir e.raw = 2 then destAddrs e dbase else [])).any (heldAddr s)

/-- Issue a traverse whose sides are resolved; `w` is the version slot that it writes. It waits (`inl`) while a bank holds one of its accesses (R241) and while the
timetable does not admit its first ones (R421); its later ones run with it, and what they overdraw the next periods repay (DESIGN CHOICE, log 45). -/
def issueTrv (s : State) (lc q : Nat) (e : QEntry) (base : Nat) (size : Option (Nat × Nat)) (dbase : Nat)
    (dsize : Option (Nat × Nat)) (w : Option (Nat × Nat)) : Sum State State :=
  match badBox s e (trvBoxes e base size dbase dsize) with
  | some (lo, hi, w) => .inr (boundFault s lc e.idx (wrapInt 48 lo) (wrapInt 48 hi) w)
  | none =>
    match badScratch e with
    | some (lo, hi) => .inr (boundFault s lc e.idx lo hi (trvDir e.raw == 0))
    | none =>
      if trvHeld s e base dbase then .inl s
      else if !(admits s 0 (trvCells lc e base dbase)) then .inl (waitCells s 0 (trvCells lc e base dbase)) else
      let s := noteVersionWrite s w
      let s := noteUnmapped s lc e.idx ((trvBoxes e base size dbase dsize).map (fun b => b.1.toNat))
      let before := s.comp
      let dir := trvDir e.raw
      let s := chargeSegs s lc (q - 3) ((posAddrs base (trvDims e)).map (fun a => (a, posBytes (trvD0 e).mfmt))) (dir == 1)
      let s := chargeSegs s lc (q - 3) ((memScales e base).map (fun a => (a, 1))) (dir == 1)
      let s := if dir = 2 then chargeSegs s lc (q - 3) ((destAddrs e dbase).map (fun a => (a, 1))) true else s
      let s := if (trvD0 e).tt then modSection s (secOf lc) (fun k => { k with ttRank := 4 * (lc % 64) + (q - 3) }) else s
      let r := if dir = 0 then trvIngress s lc q e base else if dir = 1 then trvEgress s lc q e base else trvMove s lc e base dbase
      .inr (putFlight r.s lc q ⟨e, base, dbase, true, r.ck, r.keyAbsent, r.gtag, r.plain, before, .asked, .asked⟩)

/-- A version write that is refused (R217): posted, recorded in the verdict for the tensor's group, ticket completed. -/
def heldTrv (s : State) (lc q : Nat) (e : QEntry) (t slot cause : Nat) : State :=
  let g := (vtOf s t).group
  let s := modCluster (postHeld s lc t slot cause) lc (fun c => { c with log := { c.log with verdict := c.log.verdict ++ [(g, wHELD)] } })
  putFlight s lc q (idleTrv e)

/-- A traverse through an empty handle (R215): nothing is transferred, the scratchpad destination, whose range R150 still checks (R263 step 4),
is poisoned, a defect is logged. -/
def emptyTrv (s : State) (lc q : Nat) (e : QEntry) (handle : Nat) : State :=
  match badScratch e with
  | some (lo, hi) => boundFault s lc e.idx lo hi true
  | none => putFlight (logDefect (poisonDest s lc q e) lc [(lc, 8), (e.idx, 14), (handle, 3)]) lc q (idleTrv e)

/-- Start a traverse (R263): resolve its sides and issue it. `inl` when it waits. -/
def startTrv (s : State) (lc q : Nat) (e : QEntry) : Sum State State :=
  let d := trvD0 e
  let ds := destSlot e
  let dvsel := if trvDir e.raw = 2 then natBits ds 65 2 else 0
  match resolve s lc d.vsel d.tensor d.varg (srcOff e) with
  | .wait => .inl s
  | .held t k c => .inr (heldTrv s lc q e t k c)
  | .empty => .inr (emptyTrv s lc q e d.varg)
  | .at_ base w size =>
    match resolve s lc dvsel (natBits ds 67 13) (natBits ds 80 2) (dstOff e) with
    | .wait => .inl s
    | .held t k c => .inr (heldTrv s lc q e t k c)
    | .empty => .inr s
    | .at_ dbase dw dsize => issueTrv s lc q e base size dbase dsize (w.or dw)

end Sys2Proof.Machine
end

