-- ==== Sys2Proof/Machine/Start.lean ====
section
/-! DEFINITION. Reset, start-up and its failures (17): what a reset clears, the stages of Table 17-2, the settling of tenant state (R474). -/

namespace Sys2Proof.Machine

/-! Reset -/

/-- The cluster map as a reset leaves it (Table 1-6): fences and MOVES stand until the next cold boot (R31, R372). -/
def mapReset (m : ClMap) (cold : Bool) : ClMap :=
  if cold then .reset
  else { lcmap := (List.range 256).map (fun n => { LcEntry.reset n with moves := (listGet (LcEntry.reset n) m.lcmap n).moves }), fenced := m.fenced, failing := [] }

/-- The clusters as a reset leaves them: the count of completed tests stands until the next cold boot (Table 9-4). -/
def clReset (cl : Sparse Cluster) (cold : Bool) : Sparse Cluster :=
  if cold then []
  else cl.filterMap (fun e =>
    if e.2.mem.marches = 0 then none else some (e.1, { Cluster.reset with mem := { ClMem.reset with marches := e.2.mem.marches } }))

/-- The stack registers as a reset leaves them: PASSES stands until the next cold boot (Table 10-2). -/
def stkReset (t : Sparse Stk) (cold : Bool) : Sparse Stk :=
  if cold then [] else t.filterMap (fun e => if e.2.passes = 0 then none else some (e.1, { Stk.reset with passes := e.2.passes }))

/-- The timetables as a reset leaves them: SERVED stands until the next cold boot (Table 15-7a). -/
def ttReset (t : Timetable) (cold : Bool) : Timetable :=
  ⟨[], if cold then [] else t.cells.map (fun e =>
    let k := e.1 / 4096
    let b := (ttPermille k (e.1 % 16)).elim 0 (ttValue k)
    (e.1, ⟨b, b, 0, e.2.served, false⟩)), false, [], []⟩

/-- Power control as a reset leaves it: energy, step counters and temperatures stand until the next cold boot (R437). -/
def pwReset (p : Power) (cold : Bool) : Power :=
  if cold then .reset
  else { Power.reset with
    temps := p.temps, hot := p.hot, warm := p.warm, sample := p.sample, sampleAon := p.sampleAon, energy := p.energy, powerSteps := p.powerSteps,
    clampSteps := p.clampSteps, thermSteps := p.thermSteps }

/-- The store as a loss of power or a reset leaves it: not mounted, no reader; its counters stand until the next cold boot (R408). -/
def storeReset (st : Store) (cold : Bool) : Store :=
  let st := { st with ready := false, copies := st.copies.map (fun c => { c with reader := false, broken := c.broken || !c.end_ }) }
  if cold then { st with softN := 0, stripeN := 0, unreadN := 0, grownBad := 0, flogCopy := none } else st

/-- Every domain but AON is reset (R465): the tenant, its keys and every table are gone; the boot flash, the store's records, companion memory
and the sleep registers of AON stay. What counts since cold boot stays unless the boot is cold. ALERT_STATUS, which AON keeps, notes a change of state (R354). -/
def coreReset (s : State) (cold : Bool) : State :=
  { s with
    op := .boot, sec := .sopen, dbg := 0, faultPin := false, cl := clReset s.cl cold, map := mapReset s.map cold, sect := [], prog := .reset,
    dram := { Dram.reset with stk := stkReset s.dram.stk cold }, out := .reset, win := [], train := .reset,
    flog := if cold then .reset else s.flog, mb := .reset, link := .reset, fab := { Fabric.reset with tx := s.fab.tx },
    su := if cold then .reset else { Security.reset with reportN := s.su.reportN, scrubN := s.su.scrubN, lastMs := s.su.lastMs, stubborn := s.su.stubborn },
    ckpt := { Ckpt.reset with counter := s.ckpt.counter }, store := storeReset s.store cold, cv := [], tt := ttReset s.tt cold,
    pw := pwReset s.pw cold, time := .reset, smb := if s.op = .boot ∧ s.sec = .sopen then s.smb else (setAlert s aSTATE).smb,
    slp := if cold then .reset else { s.slp with entering := none, ponr := false, waking := false, pend := false, cut := none, due := false } }

/-- Held by MOD_RESET# or by the AON supervisor (R465): the safe state ends and FAULT# is released. -/
def holdModule (s : State) : State :=
  let s := coreReset s false
  { s with boot := { Boot.reset with
      phase := .held, slot := s.boot.slot, cool := s.boot.cool, coolUnknown := s.boot.coolUnknown, feed := s.boot.feed, feedUnknown := s.boot.feedUnknown,
      totalMs := s.boot.totalMs, conf := s.boot.conf, inputLow := s.boot.inputLow, pinLow := s.boot.pinLow } }

/-- Latch the straps (R469, R4, R354); a profile ceiling that sets the effective level sets POWER_LIMIT (R429). -/
def latchStraps (s : State) (x : Straps) : State :=
  let cool := x.cool.toNat
  let feed := x.feed.toNat
  let b := { s.boot with
    slot := x.slot.toNat, cool := cool, coolUnknown := decide (2 < cool), coolNoted := false, feed := feed, feedUnknown := decide (feed = 15) }
  let s := { s with boot := b }
  refreshPowerAlert (if b.coolUnknown || b.feedUnknown then setAlert s aSTRAP else s)

/-- A start of a kind begins (R464, R466): stage 0, or stage 1 in a warm restart. -/
def beginStart (s : State) (kind : Nat) : State :=
  { s with boot := { s.boot with
      phase := .starting, kind := kind, running := if kind = 2 then [1] else [0], done := [], overrun := false, attempt := false, failed := false, cause := 0,
      rerun := false, mapRestored := false, portUp := 0, repaired := 0, retry := [], began := s.clk.aon, idLocked := false } }

/-- COLD_BOOT (R464): the input has stayed above 40 V for 10 ms. A board may hold MOD_RESET# low while the feed rises: every domain but AON is then
held (R465, R486). -/
def execColdBoot (straps : Straps) (s : State) : Res :=
  if s.boot.phase ≠ .off then .next s
  else
    let t := latchStraps s straps
    .next (if s.boot.pinLow then { t with boot := { t.boot with phase := .held } } else beginStart t 0)

/-- MOD_RESET_ASSERT (R465): the pin has been low for 10 µs. -/
def execModResetAssert (s : State) : Res :=
  if s.boot.pinLow then .next s
  else
    let t := { s with boot := { s.boot with pinLow := true } }
    .next (if s.boot.phase = .off then t else holdModule t)

/-- MOD_RESET_DEASSERT (R465, R469): the straps are sampled and a start of kind reset begins, unless the input still holds the module; a pulse shorter
than 500 AON cycles was ignored. -/
def execModResetDeassert (lowCycles : Nat) (straps : Straps) (s : State) : Res :=
  if !s.boot.pinLow ∨ lowCycles < 500 then .next s
  else
    let s := { s with boot := { s.boot with pinLow := false } }
    if s.boot.phase ≠ .held then .next s
    else
      let s := latchStraps s straps
      .next (if s.boot.inputLow then s else beginStart s 1)

/-- INPUT_UNDERVOLTAGE (R465): the AON supervisor holds the module. -/
def execInputUndervoltage (s : State) : Res :=
  if s.boot.phase = .off ∨ s.boot.inputLow then .next s else .next (holdModule { s with boot := { s.boot with inputLow := true } })

/-- INPUT_RESTORED (R465): the hold ends while the AON rail stayed up. -/
def execInputRestored (straps : Straps) (s : State) : Res :=
  if s.boot.phase ≠ .held ∨ !s.boot.inputLow then .next s
  else
    let s := { s with boot := { s.boot with inputLow := false } }
    if s.boot.pinLow then .next s else .next (beginStart (latchStraps s straps) 1)

/-- AON_POWER_LOSS (R464, R465): the next start is a cold boot. -/
def execAonPowerLoss (s : State) : Res :=
  if s.boot.phase = .off then .next s
  else
    let now := s.clk.aon
    let s := coreReset s true
    let s := { s with store := ageBlocks s.store now }
    .next { s with clk := .reset, smb := .reset, tap := .reset, boot := { Boot.reset with pinLow := s.boot.pinLow } }

/-! Stages -/

/-- Change the boot part. -/
def modBoot (s : State) (f : Boot → Boot) : State := { s with boot := f s.boot }

/-- A stage ends, and others begin. -/
def passStage (s : State) (stage : Nat) (next : List Nat) : State :=
  modBoot s (fun b => { b with done := setAdd b.done stage, running := setAddAll (setDel b.running stage) next })

/-- An unknown cooling profile is recorded in the fault log once a start (R4), when stage 1 has made hub SRAM ready, and at the latest when the
start fails. -/
def noteCool (s : State) : State :=
  if s.boot.coolUnknown && !s.boot.coolNoted then
    modBoot (logOnly s 0x00A1 7 7 0 noLink (packFields [(7, 4)])) (fun b => { b with coolNoted := true })
  else s

/-- The start fails (R473): BOOT_FAILED, then the safe state. A stationmaster that stage 3 has started still trains Turaist in stage 4, so that the
mailbox takes the opcodes of HALTED (Table 17-3). -/
def bootFail (s : State) (stage cause : Nat) : State :=
  let s := noteCool s
  let s := modBoot s (fun b => { b with failed := true, cause := cause, done := setAddAll b.done b.running, running := if stage = 4 then [] else b.running.filter (fun k => k == 4) })
  enterSafe (logEvent s 0x00A0 6 7 0 noLink (packFields [(stage, 8), (cause, 4), (b2n s.boot.attempt, 1)])) uModule sfStart

/-- Stage 2: the boot ROM takes and measures a loader (R467), and derives CDI1 (R439). -/
def stage2 (s : State) : State :=
  let f := s.flash
  match pickCopy f.loaderA f.loaderB (fun i => i.good) s.boot.attempt with
  | none => bootFail s 2 1
  | some n =>
    let d := (copyOf f.loaderA f.loaderB n).digest
    passStage (modBoot s (fun b =>
      { b with fw := [sha512 Config.bootRom, d], loaderCopy := n, cdi1 := hmac512 (leBytes 64 Config.uds.toNat) (leBytes 64 d.toNat) })) 2 [3]

/-- The alias certificate, for which the identity key signs once; the root of trust then refuses it until the next power-up or reset (R439). -/
def certifyAlias (s : State) : State :=
  if s.boot.idLocked then s
  else
    let body := Config.certBody (publicKey (aliasKey s))
    modBoot s (fun b => { b with aliasCert := derCert body (signWith identityKey body), idLocked := true })

/-- Stage 3: the loader takes the firmware images and the configuration record with its values, raises the counter (R467, R468), measures layer 2
and has the alias certificate made (R439). -/
def stage3 (s : State) : State :=
  let f := s.flash
  let o := s.boot.attempt
  let good (i : ImageCopy) : Bool := i.good
  match pickCopy f.fwA f.fwB good o, pickCopy f.sbA f.sbB good o, pickCopy f.cfgA f.cfgB (fun i => i.good && decide (f.counter ≤ i.version)) o with
  | some n, some k, some c =>
    let fw := copyOf f.fwA f.fwB n
    let cfg := copyOf f.cfgA f.cfgB c
    let s := { s with flash := { f with counter := max f.counter cfg.version },
                      store := { s.store with n24 := cfg.conf.n24, spares := cfg.conf.spares } }
    let s := modBoot (measureLayer2 s fw (copyOf f.sbA f.sbB k) cfg) (fun b => { b with fwCopy := n, sbCopy := k, cfgCopy := c, conf := cfg.conf })
    passStage (certifyAlias s) 3 [4, 5, 6, 7, 8]
  | some _, some _, none => bootFail s 3 3
  | _, _, _ => bootFail s 3 2

/-- Mark a unit down (R473): number in the retry set, UNIT and UNIT_ID. -/
def degraded (s : State) (n unit id : Nat) : State :=
  logEvent (modBoot s (fun b => { b with retry := setAdd b.retry n })) 0x00A1 7 unit id noLink (packFields [(unit, 4), (id, 8)])

/-- Stage 4: Turaist (R325); the mailbox serves the information opcodes. -/
def stage4 (s : State) (r : StageResult) : State :=
  let s := { s with mb := { s.mb with serviceUp := true } }
  let s := if r.linkDown then degraded { s with link := { s.link with up := false, down := true } } 8 uTuraist 0
    else { s with link := { s.link with up := true, down := false } }
  passStage s 4 []

/-- Physical clusters of a section that pass and are not fenced, in ascending order. -/
def passing (s : State) (failing : List Nat) (k : Nat) : List Nat :=
  (List.range 68).filter (fun p => !(failing.contains (68 * k + p)) && !(setHas s.map.fenced (68 * k + p)))

/-- The map of R30, with MOVES as they stand. -/
def coldMap (s : State) (failing : List Nat) : List LcEntry :=
  (List.range 256).map (fun n =>
    let e := listGet (LcEntry.reset n) s.map.lcmap n
    match (passing s failing (n / 64))[n % 64]? with
    | some p => { phys := p, mapped := true, moves := e.moves }
    | none => { e with mapped := false })

/-- Warm restart (R471): a mapped cluster that fails goes to the lowest free siding, or becomes unmapped; what it left is fenced (R370, R372). -/
def warmMove (s : State) (n : Nat) : State :=
  let e := lcEntry s n
  let k := n / 64
  if !e.mapped || !(setHas s.map.failing (68 * k + e.phys)) then s
  else
    let s' := { s with map := { s.map with fenced := setAdd s.map.fenced (68 * k + e.phys) } }
    match freeSidings s k with
    | [] => setLc s' n (fun e => { e with mapped := false })
    | p :: _ => logEvent (setLc s' n (fun e => { e with phys := p, moves := min 15 (e.moves + 1) })) 0x0009 2 0 n noLink
        (packFields [(n, 8), (e.phys, 7), (p, 7)])

/-- The map after stage 5 (R30, R470, R471); a map record that fails its CRC is not used. R31 keeps every other entry until the next cold boot while R30 and R470 assign all numbers at every
start-up: a start after MOD_RESET# assigns them all again and keeps MOVES and the fences, a DESIGN CHOICE (log 28). -/
def stageMap (s : State) (failing : List Nat) (bad : Bool) : State :=
  let fs := setAddAll [] failing
  match (if s.boot.kind = 2 ∧ !bad then s.store.mapRec else none) with
  | some m =>
    let s := modBoot { s with map := { m with failing := fs } } (fun b => { b with mapRestored := true })
    (List.range 256).foldl warmMove s
  | none => { s with map := { s.map with lcmap := coldMap s failing, failing := fs } }

/-- A tested cluster: banks clear after MARCH-D (R249). -/
def bootCluster (old : Cluster) : Cluster :=
  { Cluster.reset with mem := { (noteMarch ClMem.powered 0 none) with marches := satAdd 16 old.mem.marches 1 } }

/-- Stage 5 (R470, R471). -/
def stage5 (s : State) (r : StageResult) : State :=
  let s := modBoot s (fun b => { b with s5s := min 65535 (r.ms / 1000) })
  if r.sharedFail then bootFail s 5 4
  else
    let s := stageMap s r.failing r.mapBad
    let cl := sparseOf .reset ((List.range 256).map (fun lc => if (lcEntry s lc).mapped then bootCluster (cluster s lc) else cluster s lc))
    passStage { s with cl := cl } 5 []

/-- Granules of one stack that still fail. -/
def leftOf (r : StageResult) (k : Nat) : Nat := (r.leftPoisoned.filter (fun g => g.1 == k)).length

/-- Stage 6 (R472): zero fill; granules that cannot be repaired stay poisoned and post MEMORY_UE, and the start fails when they are too many. -/
def stage6 (s : State) (r : StageResult) : State :=
  let s := modBoot { s with dram := { s.dram with bytes := [], err := [], poison := setAddAll [] (r.leftPoisoned.map (fun g => granKey g.1 (64 * g.2))) } }
    (fun b => { b with repaired := min 65535 r.repaired })
  let s := r.leftPoisoned.foldl (fun s g => logEvent s 0x0031 7 2 g.1 noLink (packFields [(64 * g.2, 48)])) s
  if r.stackFail || (List.range 12).any (fun k => decide (64 < leftOf r k)) then bootFail s 6 5
  else
    let now := s.clk.mem
    passStage ((List.range 12).foldl (fun s k => modStk s k (fun x => { x with pos := 0, passStart := now })) s) 6 []

/-- Stage 7: the ports train and hold idle (R288). -/
def stage7 (s : State) (r : StageResult) : State :=
  passStage ((List.range 8).foldl (fun s p =>
    if r.portsDown.contains p then degraded s p uPort p
    else modBoot (modPort s p (fun q => { q with linkUp := true })) (fun b => { b with portUp := b.portUp ||| 2 ^ p })) s) 7 []

/-- Stage 8: the store mounts (R471, R473). -/
def stage8 (s : State) (r : StageResult) : State :=
  passStage (if r.storeDown then degraded s 9 uStore 0 else mountStore s r.logBad) 8 []

/-! Stage 9 -/

/-- Every store record is made invalid (R403, R474). -/
def invalidateStore (s : State) : State := { s with store := dropCopies s.store (fun _ => true), flash := { s.flash with scrubMark := false } }

/-- A scrub that stage 9 completes counts as one (Table 16-11): the stages of the start have done the rest of its work (R474). -/
def noteScrub (s : State) (ms : Nat) : State :=
  modSu s (fun u => { u with scrubN := satAdd 16 u.scrubN 1, lastMs := min 65535 ms, stubborn := min 65535 s.dram.poison.length })

/-- The laid-up record fails (R462, R474): 0 tag, 1 counter. -/
def unsealFailed (s : State) (cause ms : Nat) : State :=
  noteScrub (invalidateStore (logEvent s 0x0090 7 7 0 noLink (packFields [(cause, 8)]))) ms

/-- Open the laid-up record of a warm restart (R462), under the key that follows from CDI2. -/
def openLaidUp (s : State) (ms : Nat) : State :=
  match s.store.laid with
  | none => s
  | some x =>
    let s := { s with store := { s.store with laid := none } }
    match (if s.store.ready then openSealed s.boot.cdi2 x else none) with
    | none => unsealFailed s 0 ms
    | some l =>
      if l.counter ≠ s.flash.laidUp then unsealFailed s 1 ms
      else
      { s with
        sec := if l.isSealed then .sealed else .assigned
        win := l.windows
        su := { s.su with tenant := l.tenant, policy := l.policy, wkeys := l.wkeys, fkeys := l.fkeys, ckey := l.ckey, wdig := l.wdig, entries := l.entries,
                          wdigFull := l.wdigFull } }

/-- Stage 9 (R474): tenant state is settled; the module is IDLE. -/
def stage9 (s : State) (r : StageResult) : State :=
  let s := if s.boot.kind = 2 then openLaidUp s r.ms else { s with store := { s.store with laid := none } }
  let s :=
    if s.flash.scrubMark then
      let s := modBoot (logEvent s 0x0091 7 7 0 noLink (packFields [(0, 8)])) (fun b => { b with rerun := true })
      noteScrub (invalidateStore s) r.ms
    else s
  let ms := (s.clk.aon - s.boot.began) / 50000
  setOp (modBoot (passStage s 9 []) (fun b => { b with phase := .up, totalMs := ms % 2 ^ 32 })) .idle

/-- The test of hub SRAM in stage 1 (R249): MARCH-D at a cold boot and after SL3; TRANSPARENT after a reset keeps what it finds. -/
def hubTested (s : State) : State := if s.boot.kind = 1 then s else { s with hub := .reset }

/-- A stage's work ends (R466). -/
def endStage (s : State) (stage : Nat) (r : StageResult) : State :=
  let s := match stage with
    | 0 => passStage s 0 [1]
    | 1 => passStage (noteCool (hubTested s)) 1 [2]
    | 2 => stage2 s
    | 3 => stage3 s
    | 4 => stage4 s r
    | 5 => stage5 s r
    | 6 => stage6 s r
    | 7 => stage7 s r
    | 8 => stage8 s r
    | _ => stage9 s r
  if stage < 9 ∧ s.boot.phase = .starting ∧ [4, 5, 6, 7, 8].all (setHas s.boot.done) then
    modBoot s (fun b => { b with running := setAdd b.running 9 }) else s

/-- Does the work of stages go on? After a failed start only that of stage 4 does. -/
def stagesRun (s : State) : Bool := s.boot.phase == .starting || (s.boot.phase == .safe && s.boot.failed)

/-- START_UP_STAGE_END. -/
def execStartUpStageEnd (stage : Nat) (r : StageResult) (s : State) : Res :=
  if stagesRun s ∧ setHas s.boot.running stage then .next (endStage s stage r) else .next s

/-- The result of a stage that has waited only for units. -/
def unitResult (units : List Nat) : StageResult :=
  { failing := [], sharedFail := false, stackFail := false, repaired := 0, leftPoisoned := [], portsDown := units.filter (fun u => decide (u < 8)),
    linkDown := units.contains 8, storeDown := units.contains 9, mapBad := false, logBad := false, ms := 0 }

/-- May a stage end at its bound for these units? -/
def unitsFit (stage : Nat) (units : List Nat) : Bool :=
  !units.isEmpty && ((stage == 4 && units.all (fun u => u == 8)) || (stage == 7 && units.all (fun u => decide (u < 8))) || (stage == 8 && units.all (fun u => u == 9)))

/-- STAGE_BOUND_OVERRUN (R473): a stage that waits only for units ends; otherwise the first overrun restarts at stage 1 with the other copies and
the second fails the start. -/
def execStageBoundOverrun (stage : Nat) (unitsOnly : List Nat) (s : State) : Res :=
  if !(stagesRun s) ∨ !(setHas s.boot.running stage) then .next s
  else if unitsFit stage unitsOnly then .next (endStage s stage (unitResult unitsOnly))
  else if s.boot.failed then .next s
  else if s.boot.overrun then .next (bootFail s stage 6)
  else
    let b := s.boot
    let s := { (coreReset s false) with slp := s.slp }
    .next { s with boot := { b with
      running := [1], done := [], overrun := true, attempt := true, idLocked := false, mapRestored := false, portUp := 0, repaired := 0, retry := [] } }

/-- UNIT_RETRY (R473): a port or the link is tried again every 1 s. -/
def execUnitRetry (unit : Nat) (trained : Bool) (s : State) : Res :=
  if !trained ∨ !(setHas s.boot.retry unit) ∨ 8 < unit ∨ !(powered s) then .next s
  else
    let s := modBoot s (fun b => { b with retry := setDel b.retry unit })
    .next (if unit = 8 then { s with link := { s.link with up := true, down := false } }
      else modBoot (modPort s unit (fun q => { q with linkUp := true })) (fun b => { b with portUp := b.portUp ||| 2 ^ unit }))

end Sys2Proof.Machine
end

