-- ==== Sys2Proof/Machine/Sleep.lean ====
section
/-! DEFINITION. Sleep (R431 to R435, R461, R471): ENTER_SLEEP and its refusers, the point of no return, the end of entry, wakes and warm restart. -/

namespace Sys2Proof.Machine

/-! Refusers (Table 15-11) -/

/-- A refuser's kind and identity as LAST_KIND and LAST_ID carry them. -/
abbrev Refuser := Nat × Nat

/-- LAST_ID: [7:0], [23:8], [27:24]. -/
def refId (lo mid mem : Nat) : Nat := packFields [(lo, 8), (mid, 16), (mem, 4)]

/-- The first traverse in flight. -/
def refTraverse (s : State) : Option Refuser :=
  s.cl.findSome? (fun e =>
    let es := [e.2.t0, e.2.t1, e.2.t2, e.2.t3]
    (List.range 4).findSome? (fun k => if ((es[k]?).map (fun t => !t.flight.isEmpty)).getD false then some (1, refId e.1 k 0) else none))

/-- The first flow with an open round. -/
def refFlow (s : State) : Option Refuser :=
  (s.fab.flows.find? (fun e => e.2.valid && e.2.fopen)).map (fun e => (2, refId (e.1 / 32768) (e.1 % 32768) 0))

/-- The first long command outstanding. -/
def refLong (s : State) : Option Refuser := (outstanding s).head?.map (fun x => (3, refId 0 (mOpcode x.1) 0))

/-- A checkpoint of the module (other than the entry's own), a buddy service in progress, or one asked for during the entry (R433). -/
def refCkpt (s : State) : Option Refuser :=
  if s.slp.entering.isSome ∧ s.slp.asked.isSome then some (4, refId 0 (s.slp.asked.getD 0) 0)
  else if s.ckpt.cur.any (fun c => !c.entry) then some (4, refId 0 0xFFFF 0)
  else match s.ckpt.serving.find? (fun v => framesOpen s v.port v.jslot v.midx v.seqs) with
    | some v => some (4, refId 0 v.midx 0)
    | none => match s.ckpt.slotServe.find? (fun v => framesOpen s v.port v.jslot v.midx v.seqs) with
      | some v => some (4, refId 0 v.midx 0)
      | none => (s.ckpt.inb.find? (fun i => !i.lost && !(memberAbsent s i.jslot i.midx))).map (fun i => (4, refId 0 i.midx 0))

/-- The retention mask of a memory. -/
def retMask (m : ClMem) (mem : Nat) : Nat := if mem = 0 then m.retain else if mem = 1 then m.sideRet else m.seqRet

/-- Must SL2 retain the banks of this memory of a cluster (R238)? -/
def mustRetain (s : State) (c : Cluster) (mem : Nat) : Bool :=
  c.inConsist && (s.op == .paused || (s.op == .loaded && mem == 2))

/-- The first bank that the masks would lose. -/
def refBank (s : State) : Option Refuser :=
  s.cl.findSome? (fun e => [2, 0, 1].findSome? (fun mem =>
    if mustRetain s e.2 mem then
      ((List.range (bankCount mem)).find? (fun b => !(tbit (retMask e.2.mem mem) b))).map (fun b => (5, refId e.1 b mem))
    else none))

/-- A siding move that is due. A stationmaster recovery is one step of the model. -/
def refMove (s : State) : Option Refuser :=
  (s.cl.find? (fun e => e.2.inConsist && moveDueNow e.2)).map (fun e => (7, refId e.1 0 0))

/-- The first refuser, in the order of Table 15-11, of an entry to state `t` with RETAIN `r`. -/
def refuser (s : State) (t r : Nat) : Option Refuser :=
  [refTraverse s, refFlow s, refLong s, refCkpt s, if t = 2 ∧ r = 0 then refBank s else none,
    if t = 3 ∧ s.sec ≠ .sopen ∧ s.su.ckey.isNone then some (6, 0) else none, refMove s].findSome? id

/-- Record a refusal or an abort and post SLEEP_REFUSED (R432, R433): kind, identity, ABORTED. -/
def noteSleepRefusal (s : State) (r : Refuser) (aborted : Bool) : State :=
  let s := modSlp s (fun p =>
    { p with refusedN := if aborted then p.refusedN else satAdd 16 p.refusedN 1, abortedN := if aborted then satAdd 16 p.abortedN 1 else p.abortedN,
             lastKind := r.1, aborted := aborted, lastId := r.2 })
  logEvent s 0x0051 7 7 0 noLink (packFields [(r.1, 8), (r.2, 28), (b2n aborted, 1)])

/-- The reply that Table 15-11 gives for a kind. -/
def refuseSleep (s : State) (m : Msg) (k : Nat) : State :=
  if k = 5 then badArg s m (inBody 2) else if k = 6 then exhausted s m 3 else if k = 7 then busy s m 4 else busy s m 1

/-- Is an automatic checkpoint due (R382)? -/
def autoDue (s : State) : Bool := s.prog.loaded && s.ckpt.policy.auto && s.su.ckey.isSome && ckptDue s

/-- Entry begins: an SL3 entry from a tenancy cuts its checkpoint now (R434). -/
def beginEntry (s : State) (t r : Nat) : State :=
  let due := autoDue s
  let back := s.op.code
  let n := s.ckpt.counter
  let s := if t = 3 ∧ s.sec ≠ .sopen then makeCut s true else s
  let cut := if s.ckpt.counter = n then none else some n
  modSlp s (fun p => { p with entering := some (t, r), ponr := false, pend := false, back := back, cut := cut, due := due, asked := none })

/-- ENTER_SLEEP (R431, R432, R455). -/
def execEnterSleep (m : Msg) (s : State) : Res :=
  .next (takeArgs s m 0x0031 [(0, 4)] (fun s =>
    let t := mb m 0 2
    let r := mb m 2 2
    if t = 0 then badArg s m (inBody 0)
    else if r = 3 ∨ (t ≠ 2 ∧ r ≠ 0) then badArg s m (inBody 2)
    else if t = 3 ∧ (s.op = .paused ∨ s.dbg = 3) then stateRefused s m
    else match refuser s t r with
      | some x => refuseSleep (noteSleepRefusal s x false) m x.1
      | none => beginEntry (ok s m 0 0) t r))

/-! The point of no return -/

/-- Is the local copy of the entry's checkpoint complete (R402)? -/
def entryCopyDone (s : State) : Bool :=
  match s.slp.cut with
  | none => false
  | some n => s.store.copies.any (fun c => isCopy true 0 n c && copyComplete c)

/-- Abort the entry (R433). -/
def abortEntry (s : State) (r : Refuser) : State :=
  noteSleepRefusal (modSlp s (fun p => { p with entering := none, ponr := false, pend := false, cut := none })) r true

/-- Write the laid-up record (R461) of a tenancy, sealed under the key from CDI2, and the map record (R471). -/
def writeLaidUp (s : State) : State :=
  let s :=
    if s.sec = .sopen then { s with store := { s.store with laid := none } }
    else
      let n := s.flash.laidUp + 1
      let u := s.su
      let l : LaidUp :=
        { tenant := u.tenant, policy := u.policy, windows := s.win, isSealed := s.sec == .sealed, wkeys := u.wkeys, fkeys := u.fkeys, ckey := u.ckey,
          wdig := u.wdig, wdigFull := u.wdigFull, entries := u.entries, counter := n }
      { s with flash := { s.flash with laidUp := n }, store := { s.store with laid := some (sealLaidUp s.boot.cdi2 l) } }
  { s with store := { s.store with mapRec := some s.map } }

/-- SLEEP_POINT_OF_NO_RETURN (R433, R434): an SL3 entry reaches it with its local copy complete. -/
def execSleepPointOfNoReturn (s : State) : Res :=
  match s.slp.entering with
  | none => .next s
  | some (t, r) =>
    if s.slp.ponr then .next s
    else match refuser s t r with
      | some x => .next (abortEntry s x)
      | none =>
        if autoDue s && !s.slp.due then .next (abortEntry s (4, refId 0 0xFFFF 0))
        else if t ≠ 3 then .next (latchPins (modSlp s (fun p => { p with ponr := true })))
        else
          let s := match s.ckpt.cur with
            | some c => advanceCkpt ((c.holds.filter (fun h => !h.loc)).foldl writeHold s)
            | none => s
          if s.sec ≠ .sopen ∧ !(entryCopyDone s) then .next (abortEntry s (4, refId 0 0xFFFF 0))
          else .next (latchPins (modSlp (writeLaidUp s) (fun p => { p with ponr := true })))

/-! The end of entry -/

/-- Does SL2 retain this bank? -/
def retains (s : State) (c : Cluster) (r mem b : Nat) : Bool :=
  if r = 1 then true else if r = 2 then mustRetain s c mem else tbit (retMask c.mem mem) b

/-- The banks of a cluster in SL2: RETAINED or OFF (R237); a bank that is OFF stays so. -/
def stableBanks (s : State) (c : Cluster) (r : Nat) : ClMem :=
  (List.range 76).foldl (fun m i =>
    let x := tabBank i
    if tablet m x.1 x.2 = 3 then m else setTab m x.1 x.2 (if retains s c r x.1 x.2 then 2 else 3)) { c.mem with moving := [] }

/-- Everything but AON goes off, and the clocks with it (Table 15-10); the fault log stands in the superblock (R471). -/
def layUp (s : State) : State :=
  let s := setDbg s 0
  let s := setOp s .sl3
  let log := s.flog
  let c := s.clk
  let t := coreReset s false
  { t with
    op := .sl3, slp := s.slp, sec := s.sec, flog := .reset, store := { t.store with flogCopy := if s.store.ready then some log else none }
    clk := { Clocks.reset with aon := c.aon } }

/-- SLEEP_ENTRY_COMPLETE (R433, Table 15-10). A wake that was latched begins at once. -/
def execSleepEntryComplete (s : State) : Res :=
  match s.slp.entering with
  | none => .next s
  | some (t, r) =>
    if !s.slp.ponr then .next s
    else
      let s' :=
        if t = 1 then setOp s .sl1
        else if t = 2 then
          let lcs := (List.range 256).filter (fun lc => (lcEntry s lc).mapped)
          let s' := lcs.foldl (fun x lc => modMem x lc (fun _ => stableBanks s (cluster s lc) r)) s
          setOp ((List.range 12).foldl (fun x k => modStk x k (fun y => { y with refresh := true })) s') .sl2
        else layUp s
      .next (modSlp s' (fun p =>
        { p with last := 7 + t, entering := none, ponr := false, cut := none, pend := false, waking := p.pend, latched := p.latched && p.pend }))

/-! Waking -/

/-- WAKE (R435): 1 WAKE0, 2 WAKE1 (an edge, which counts once the new level has stood for 50 AON cycles), 3 Turaist, 4 a fabric frame on a port. -/
def execWake (source port : Nat) (rising : Bool) (s : State) : Res :=
  if source = 1 ∨ source = 2 then .next (if s.boot.phase = .off then s else noteEdge s (source - 1) rising)
  else if source = 3 then .next (hostActivity s false)
  else if source = 4 ∧ port < 8 then .next (frameActivity s port)
  else .next s

/-- WHISTLE (R323, R435): only SL3 hears it. -/
def execWhistle (port : Nat) (s : State) : Res :=
  .next (if sleepTarget s = some 3 ∧ port < 8 ∧ wakeCfg s (15 + port) then wakeEvent s 5 port false else s)

/-- The banks of a cluster on a wake from SL2: RETAINED ones come back after TRANSPARENT, those that were OFF are cleared, after MARCH-D (R236,
R249). Each algorithm that ran is one test. -/
def wakeBanks (m : ClMem) : ClMem :=
  let tabs := (List.range 76).map (fun i => spGet 3 m.tab i)
  let w := (List.range 76).foldl (fun m i => settleTab m (tabBank i).1 (tabBank i).2 0) m
  let w := if tabs.contains 3 then noteMarch w 0 none else w
  if tabs.contains 2 then noteMarch w 2 none else w

/-- WOKE (R431): the module is back in the state it slept in, or in IDLE after a warm restart; the correlation pairs are taken anew, WOKE is
posted. -/
def execWoke (w : WakeEnd) (s : State) : Res :=
  let finishWake (s : State) : State :=
    logEvent (sampleSet (modSlp s (fun p => { p with waking := false, wakeUs := w.us % 2 ^ 36 }))) 0x0050 7 7 0 noLink
      (packFields [(s.slp.cause, 8), (s.slp.port, 3)])
  if !s.slp.waking then .next s
  else
    let back : OpState := match s.slp.back with
      | 1 => .idle
      | 2 => .loaded
      | _ => .paused
    if s.op = .sl1 then .next (flushEvents (finishWake (setOp s back)))
    else if s.op = .sl2 then
      let lcs := (List.range 256).filter (fun lc => (lcEntry s lc).mapped)
      let s := lcs.foldl (fun x lc => modMem x lc wakeBanks) s
      let s := (List.range 12).foldl (fun x k => modStk x k (fun y => { y with refresh := false })) s
      let s := { s with clk := { s.clk with arith0 := 0, arith1 := 0, arith2 := 0, arith3 := 0 } }
      .next (flushEvents (finishWake ((firstFaults [] w.fails).foldl (fun s f => testFailed s 2 f) (setOp s back))))
    else if s.op = .idle ∧ s.boot.phase = .up then .next (flushEvents (finishWake s))
    else .next s

/-- WARM_RESTART (R464): the wake at SL3 begins a start. -/
def execWarmRestart (s : State) : Res :=
  if s.op = .sl3 ∧ s.slp.waking then .next (beginStart { setAlert s aSTATE with op := .boot, sec := .sopen } 2) else .next s

end Sys2Proof.Machine
end

