-- ==== Sys2Proof/Machine/Smbus.lean ====
section
/-! DEFINITION. SMBus commands (R353, Table 12-12), ALERT# (R354) and the power cap (R429). The target is in AON: it answers whenever AON runs. -/

namespace Sys2Proof.Machine

/-- Change the SMBus target. -/
def modSmb (s : State) (f : Smb → Smb) : State := { s with smb := f s.smb }

/-- Does the always-on rail run? -/
def aonRuns (s : State) : Bool := s.boot.phase != .off

/-- The packet error code of SMBus 3.2, CRC-8 with x⁸ + x² + x + 1 over the bytes of the transaction. PRESUMED (log 30): R353 names the standard. -/
def pecOf (l : List Byte) : Nat := crcOf ⟨8, 0x07, 0, false, false, false⟩ l

/-- The target address with a read or write bit. -/
def smbAddr (read : Bool) : Byte := if read then 0xB5 else 0xB4

/-- Command codes of Table 12-12. -/
def smbCodes : List Nat := [0x01, 0x02, 0x03, 0x04, 0x05, 0x06, 0x07, 0x08, 0x10]

/-- The target does not acknowledge. -/
def smbNack (s : State) : Res := .next (modSmb s (fun b => { b with nack := true, reply := [], pec := 0 }))

/-- A transaction with a command code (R353): one outside Table 12-12 is NACKed. -/
def smbTake (s : State) (code : Nat) (f : State → Res) : Res :=
  if !(aonRuns s) then .next s else if smbCodes.contains code then f s else smbNack s

/-- Answer a read: its data, after a byte count in a block read, and the PEC of the whole transaction. -/
def smbReply (s : State) (code : Nat) (block : Bool) (l : List Byte) : Res :=
  smbTake s code (fun s =>
    let sent := [smbAddr false, BitVec.ofNat 8 code, smbAddr true] ++ (if block then [BitVec.ofNat 8 l.length] else []) ++ l
    .next (modSmb s (fun b => { b with reply := l, pec := pecOf sent, nack := false })))

/-- A write whose PEC is missing or wrong is discarded (R353); a value that the command does not take is NACKed. -/
def smbWrite (s : State) (code : Nat) (pec okay : Bool) (f : State → State) : Res :=
  smbTake s code (fun s =>
    if !pec then .next s
    else if okay then .next (modSmb (f s) (fun b => { b with nack := false, reply := [], pec := 0 }))
    else smbNack s)

/-- INFO. -/
def smbInfo (s : State) : List Byte :=
  let b := s.boot
  leBytes 16 b.conf.orderCode.toNat ++ leBytes 1 (hwIssue b.conf) ++ leBytes 4 b.version ++ leBytes 1 b.slot ++ leBytes 1 b.cool ++
    leBytes 1 (packFields [(b.feed, 4), (b2n b.coolUnknown, 1), (b2n b.feedUnknown, 1)]) ++ leBytes 8 idPrint

/-- INFO (Table 12-12). -/
def execInfo (s : State) : Res := smbReply s 0x01 true (smbInfo s)

/-- STATE (Table 12-12), sleep codes included. -/
def execState (s : State) : Res :=
  smbReply s 0x02 true (leBytes 1 s.op.code ++ leBytes 1 s.sec.code ++ leBytes 1 s.dbg ++
    leBytes 1 (packFields [(b2n s.faultPin, 1), (b2n s.mb.serviceUp, 1), ((statPins s).getD 0, 2)]))

/-- Is a sensor powered: section sensors are off in SL2 (power-gated), and all but the lid's in SL3 (Table 15-10)? -/
def sensorOn (s : State) (n : Nat) : Bool :=
  n == 18 || (powered s && s.op != .sl3 && (decide (4 ≤ n) || s.op != .sl2))

/-- A temperature as the block carries it: 0x8000 for a sensor that is not powered. -/
def tempBytes (s : State) (n : Nat) : List Byte := leBytes 2 (if sensorOn s n then wrapInt 16 (spGet 0 s.pw.temps n) else 0x8000)

/-- The hottest stack's sensor. -/
def hottestStack (s : State) : Nat :=
  (rangeFrom 5 12).foldl (fun b n => if spGet 0 s.pw.temps b < spGet 0 s.pw.temps n then n else b) 5

/-- TEMPS (Table 12-12). -/
def execTemps (s : State) : Res := smbReply s 0x03 true ([0, 1, 2, 3, 4, hottestStack s, 17, 18].flatMap (tempBytes s))

/-- POWER (Table 12-12). -/
def execPower (s : State) : Res :=
  let p := s.pw.sample
  smbReply s 0x04 true (leBytes 2 p.mV ++ leBytes 2 p.mA ++ leBytes 2 p.p ++ leBytes 2 (powerLimit s) ++ [0, 1, 2, 3].flatMap (fun k => leBytes 1 (effLevel s k)))

/-- Faulted steps since cold boot: the occurrences of STEP_FAULTED. -/
def stepFaults (s : State) : Nat :=
  let key := 0x0008 * 65536 + uModule * 256
  spGet 0 s.flog.occurs key + (s.store.flogCopy.map (fun l => spGet 0 l.occurs key)).getD 0

/-- Code of the newest posted entry, 0 when there is none; after a failed start BOOT_FAILED (Table 17-3), although SAFE_STATE follows it (log 30). -/
def lastEventCode (s : State) : Nat :=
  if s.boot.failed then 0x00A0
  else match (s.flog.entries ++ (s.store.flogCopy.map (fun l => l.entries)).getD []).find? (fun e => e.posted) with
  | some e => e.code
  | none => 0

/-- FAULTS (Table 12-12); with no entry the last index reads 0xFFFF_FFFF (log 30). -/
def execFaults (s : State) : Res :=
  smbReply s 0x05 true (leBytes 4 (wholeNext s) ++ leBytes 4 (stepFaults s) ++
    leBytes 2 (packFields [(sidingsN s 0, 4), (sidingsN s 1, 4), (sidingsN s 2, 4), (sidingsN s 3, 4)]) ++ leBytes 2 (lastEventCode s) ++
    leBytes 4 (if wholeNext s = 0 then noLink else wholeNext s - 1))

/-- ALERT_STATUS (Table 12-13). -/
def execAlertStatus (s : State) : Res := smbReply s 0x06 false (leBytes 2 s.smb.alert)

/-- The level causes that still stand set their bits again (R354, R429). -/
def standingAlerts (s : State) : State :=
  let s := if s.faultPin then setAlert s aFAULT else s
  let s := if s.pw.warm.isEmpty then s else setAlert s aTEMP
  refreshPowerAlert s

/-- ALERT_CLEAR (Table 12-12): W1C. -/
def execAlertClear (pec : Bool) (w : BitVec 16) (s : State) : Res :=
  smbWrite s 0x07 pec true (fun s => standingAlerts (modSmb s (fun b => { b with alert := b.alert &&& (0x7F - natBits w.toNat 0 7) })))

/-- ALERT_MASK (Table 12-12). -/
def execAlertMask (pec : Bool) (w : Option (BitVec 16)) (s : State) : Res :=
  match w with
  | none => smbReply s 0x08 false (leBytes 2 s.smb.mask)
  | some x => smbWrite s 0x08 pec true (fun s => modSmb s (fun b => { b with mask := natBits x.toNat 0 7 }))

/-- POWER_CAP (Table 12-12): 400 W up to the profile limit, or 0; other values are NACKed. -/
def execPowerCap (pec : Bool) (w : Option (BitVec 16)) (s : State) : Res :=
  match w with
  | none => smbReply s 0x10 false (leBytes 2 s.smb.cap)
  | some x =>
    let v := x.toNat
    smbWrite s 0x10 pec (v == 0 || (decide (400 ≤ v) && decide (v ≤ profileLimit s.boot.cool))) (fun s => modSmb s (fun b => { b with cap := v }))

/-- ALERT_RESPONSE (R354): the address in the upper seven bits of the byte, while a level cause asserts ALERT#. -/
def execAlertResponse (s : State) : Res :=
  if !(aonRuns s) then .next s
  else if alertLevel s then .next (modSmb s (fun b => { b with reply := [smbAddr false], pec := pecOf [0x19, smbAddr false], nack := false }))
  else smbNack s

/-- ALERT_PULSE_END (R354): the 1 ms of a scrub edge are over. -/
def execAlertPulseEnd (s : State) : Res := .next (modSmb s (fun b => { b with pulse := false }))

end Sys2Proof.Machine
end

