-- ==== Sys2Proof/Machine/TrvCommands.lean ====
section
/-! DEFINITION. The commands and events of the traverse engines: TRV.GO and TRV.WAIT (R168, R169), completion with its checks (R276, R277,
R278), refusals, Turaist timeouts (R282, R283, R325, R327), link training. -/

namespace Sys2Proof.Machine

/-- TRV.GO (R168): four traverses in flight make it wait (R169), so do a slot that a checkpoint holds (R381) and a budget that is spent (R421). -/
def execTrvGo (lc q cyc : Nat) (s : State) : Res :=
  match pickOp s lc q cyc oTRVGO with
  | none => .next s
  | some e =>
    if !e.live then .next (retireAt s lc q cyc e)
    else if 4 ≤ (trvOf (cluster s lc) (q - 3)).flight.length then .next s
    else
      match startTrv (modCluster s lc (fun c => atCycle c cyc)) lc q e with
      | .inl t => .next { s with tt := t.tt }
      | .inr t => .next (retireAt t lc q cyc e)

/-- TRV.WAIT (R169): the most recent earlier traverse of its queue with the ticket has completed. -/
def execTrvWait (lc q cyc : Nat) (s : State) : Res :=
  match pickOp s lc q cyc oTRVWAIT with
  | none => .next s
  | some e =>
    if e.live && (trvOf (cluster s lc) (q - 3)).flight.any (fun t => trvTicket t.e.raw == waitTicket e.raw) then .next s
    else .next (retireAt s lc q cyc e)

/-! Completion -/

/-- Poison every destination granule that a traverse wrote (R276). -/
def poisonGranules (s : State) (t : Trv) : State :=
  (setAddAll [] ((destAddrs t.e t.dbase).map (fun a => a / 64))).foldl (fun s u =>
    match locate (64 * u) with
    | .dram stk loc => dramWriteUnit s stk loc (memRead s.dram.bytes (dramKey stk loc) 64) true
    | _ => s) s

/-- Causes of R276 in the detail of a PROGRAM_DEFECT entry, an encoding of the model (log 13). -/
def cDecryptTag : Nat := 2
def cKeyAbsent : Nat := 3
def cCompare : Nat := 4

/-- The tag check of a decrypting traverse (R276), with the tag's read charged (R281): none when it holds, else the cause. An empty key slot is one
whatever came of the source or the tag. A tag whose read the
companion refused is not judged; one delivered with poison, or lost, does not hold (log 35). -/
def decryptFail (s : State) (lc e : Nat) (t : Trv) : Option Nat × State :=
  match decryptSlot t.e with
  | none => (none, s)
  | some k =>
    if !t.moved then (none, s)
    else if t.keyAbsent then (some cKeyAbsent, s)
    else if t.tag == .refused then (none, s)
    else
      let r := devRead (chargeSegs s lc e [(tagAddr k, 16)] false) (tagAddr k) 16
      (if r.1.data == t.gtag && !r.1.poison && t.tag != .lost then none else some cDecryptTag, r.2)

/-- The digest entry of a decrypting traverse with DIGEST = 1, which its tag check adds to its key slot (R443). -/
def noteDigest (s : State) (t : Trv) : State :=
  match decryptSlot t.e with
  | none => s
  | some k =>
    if natBits k 156 1 = 0 || t.tag == .refused then s
    else
      let slot := natBits k 8 4
      let x := (slot, t.dbase, sha512 t.plain)
      if s.su.wdig.length < 1024 then
        { s with su := { s.su with wdig := s.su.wdig ++ [x], entries := spSet 0 s.su.entries slot (spGet 0 s.su.entries slot + 1) } }
      else { s with su := { s.su with wdigFull := true } }

/-- The addresses that a traverse in flight has written. -/
def trvWrites (t : Trv) : List Nat :=
  if !t.moved then []
  else if trvDir t.e.raw = 1 then memByteAddrs t.e t.base ++ memScales t.e t.base
  else if trvDir t.e.raw = 2 then destAddrs t.e t.dbase else []

/-- Write the bytes at a … that no later traverse of the engine has written: the writes of an engine are serial (R280). -/
def writeBehind (s : State) (later : List Trv) (a : Nat) (l : List Byte) (tag : Nat) : State :=
  let newer := later.flatMap trvWrites
  let mine := ((List.range l.length).filter (fun i => !(newer.contains (a + i)))).map (fun i => (a + i, 1))
  (coalesce 64 mine).foldl (fun s p => unitWrite s p.1 ((l.drop (p.1 - a)).take p.2) false tag) s

/-- The CHECK slot at completion (R277): write the value or compare it, charged under R281. A read that delivers poison, or whose response is
lost (R327), fails. `none` when a compare failed. -/
def checkAtEnd (s : State) (lc e : Nat) (t : Trv) (later : List Trv) : Option State × State :=
  match chkSlot t.e with
  | none => (some s, s)
  | some k =>
    let a := chkAddr k
    let wr := natBits k 10 2 == 1
    if t.chk = .refused ∨ !t.moved then (some s, s)
    else
      let s := chargeSegs s lc e [(a, 8)] wr
      if wr then let s := writeBehind s later a (leBytes 8 t.ck) (windowTag t.e); (some s, s)
      else
        let r := devRead s a 8
        let w := (streamCfg (natBits k 8 2)).w
        if !r.1.poison && t.chk != .lost && ofLe r.1.data % 2 ^ w == t.ck % 2 ^ w then (some r.2, r.2) else (none, r.2)

/-! Refusals -/

/-- Position in the stream of the element with an ordinal (R267). -/
def streamPos (e : QEntry) (ord : Nat) : Nat := if (trvD0 e).tt then ttPos ord else ord

/-- Device addresses of one access of a traverse: of the element with an ordinal, of its place in a DIR 0b10 destination, of its scale byte, or
of the check value or tag at its end; nothing when it makes no such access. -/
def sideBytes (e : QEntry) (base dbase : Nat) (side : TrvSide) (o : Nat) : List Nat :=
  let f := (trvD0 e).mfmt
  if elemCount f (trvDims e) ≤ o then []
  else match side with
    | .element => rangeFrom ((base : Int) + offsetOf (trvDims e) (if fmtBits f = 4 then o / 2 else o)).toNat (posBytes f)
    | .dest => if trvDir e.raw = 2 then rangeFrom (destElem e dbase (streamPos e o)) (posBytes f) else []
    | .scale => ((memScales e base)[o / 32]?).toList
    | .check => match chkSlot e with
      | some k => rangeFrom (chkAddr k) 8
      | none => []
    | .tag => match decryptSlot e with
      | some k => rangeFrom (tagAddr k) 16
      | none => []

/-- Is an access of a traverse a write? -/
def sideWrites (e : QEntry) (side : TrvSide) : Bool :=
  match side with
  | .element | .scale => trvDir e.raw == 1
  | .dest => true
  | .check => match chkSlot e with
    | some k => natBits k 10 2 == 1
    | none => false
  | .tag => false

/-- The ordinal that a request's refusal records (R277, R282): the element's, the last element's for an access at the end. -/
def reqOrd (e : QEntry) (r : TrvAcc) : Nat :=
  match r.side with
  | .check | .tag => elemCount (trvD0 e).mfmt (trvDims e) - 1
  | _ => r.ord

/-- The device address that a request names. -/
def reqAddr (e : QEntry) (base dbase : Nat) (r : TrvAcc) : Option Nat := (sideBytes e base dbase r.side (reqOrd e r))[r.byte]?

/-- The ordinals of the elements that an access reads or writes in an aligned 128-byte granule. -/
def granOrds (t : Trv) (side : TrvSide) (g : Nat) : List Nat :=
  (List.range (elemCount (trvD0 t.e).mfmt (trvDims t.e))).filter (fun o =>
    (sideBytes t.e t.base t.dbase side o).any (fun a => a / 128 == g))

/-- The coordinate of an element (R282): six indices, unused dimensions 0. -/
def ordCoord (e : QEntry) (o : Nat) : List Nat :=
  let c := coordOf (trvDims e) (if fmtBits (trvD0 e).mfmt = 4 then o / 2 else o)
  (List.range 6).map (fun i => listGet 0 c i)

/-- Record a refusal (R282): the first one of the interval with its coordinate, granule and command, every one in REFUSED_N. -/
def noteRefusal (s : State) (lc e : Nat) (t : Trv) (ord addr : Nat) (write : Bool) : State :=
  modCluster s lc (fun c => modTrv c e (fun x =>
    let x := { x with refusedN := satAdd 16 x.refusedN 1 }
    if x.refV then x
    else { x with refV := true, refCmd := t.e.idx, coord := ordCoord t.e ord, refAddr := addr / 128 * 128, refWrite := write,
                  refOrd := ord, refEntry := some (t.e, t.base, t.dbase) }))

/-- A failed compare (R278): CHK_FAIL, CHK_MISMATCH, and a refusal under R282, recorded as one at CHKADDR (R277, log 36); the second one of the
same traverse in the step ends the step. -/
def compareFailed (s : State) (lc e : Nat) (t : Trv) : State :=
  let n := spGet 0 (cluster s lc).log.trvFail t.e.idx + 1
  let r : TrvAcc := ⟨.check, 0, 0⟩
  let s := noteRefusal s lc e t (reqOrd t.e r) ((reqAddr t.e t.base t.dbase r).getD 0) false
  let s := modCluster s lc (fun c =>
    let c := modTrv c e (fun x => { x with chkFail := true, chkMismatch := satAdd 16 x.chkMismatch 1 })
    { c with log := { c.log with trvFail := spSet 0 c.log.trvFail t.e.idx n } })
  if 2 ≤ n then faultNoReplay s 0x000B lc (packFields [(lc, 8), (t.e.idx, 14), (cCompare, 8)]) else s

/-- A traverse leaves flight and its ticket completes. -/
def popFlight (s : State) (lc e : Nat) (t : Trv) : State :=
  advance s lc (fun c => modTrv c e (fun x => { x with flight := x.flight.drop 1, done := setAdd x.done (trvTicket t.e.raw) }))

/-- The oldest traverse of an engine ends: its tag check, its check value, its digest, its ticket (R169, R276 to R278, R280, R443). -/
def endTrv (s : State) (lc e : Nat) : State :=
  match (trvOf (cluster s lc) e).flight with
  | [] => s
  | t :: later =>
    match decryptFail s lc e t with
    | (some cause, s) => faultNoReplay (poisonGranules s t) 0x000B lc (packFields [(lc, 8), (t.e.idx, 14), (cause, 8)])
    | (none, s) =>
      match checkAtEnd (if t.moved then noteDigest s t else s) lc e t later with
      | (some s, _) => popFlight s lc e t
      | (none, s) =>
        let s := compareFailed s lc e t
        if (cluster s lc).seq.stop = some .faulted then s else popFlight s lc e t

/-- TRAVERSE_COMPLETE: the last write of the engine's oldest traverse is acknowledged. -/
def execTraverseComplete (lc e : Nat) (s : State) : Res := .next (if 4 ≤ e then s else endTrv s lc e)

/-- Every traverse that has issued runs to its end (R135 step 3), four to an engine at most, unless one ends the step. -/
def endFlights (s : State) (lc : Nat) : State :=
  (List.range 16).foldl (fun s k => if (cluster s lc).seq.stop = some .faulted then s else endTrv s lc (k / 4)) s

/-- The words of the scratchpad that elements of an ingress feed (R282): their own, and those of the scale bytes of their blocks. -/
def fedWords (t : Trv) (os : List Nat) : List Nat :=
  let r := sref t.e.raw 0
  setAddAll [] (os.flatMap (fun o =>
    let p := streamPos t.e o
    let a := elemAddr r.fmt (formed t.e r) r.lstride p / 64
    if isBs8 r.fmt then [a, spScaleAddr (trvScales t.e).2 r.lstride (p / 32) / 64] else [a]))

/-- The memory units that elements of a DIR 0b10 traverse feed. -/
def fedUnits (t : Trv) (os : List Nat) : List Nat :=
  setAddAll [] (os.flatMap (fun o => (sideBytes t.e t.base t.dbase .dest o).map (fun a => a / 64)))

/-- The scratchpad bytes that an ingress in flight has written. -/
def trvSpBytes (t : Trv) : List Nat :=
  if !t.moved ∨ trvDir t.e.raw ≠ 0 then []
  else
    let r := sref t.e.raw 0
    let n := elemCount (trvD0 t.e).mfmt (trvDims t.e)
    (List.range n).flatMap (fun k => rangeFrom (elemAddr r.fmt (formed t.e r) r.lstride k) (posBytes r.fmt)) ++
      (if isBs8 r.fmt then (List.range (n / 32)).map (spScaleAddr (trvScales t.e).2 r.lstride) else [])

/-- The 64 bytes of a unit after a write over which later writes of the engine stand: `old` as it is now, zero elsewhere when `zero`. -/
def underNewer (newer : List Nat) (a : Nat) (old : List Byte) (zero : Bool) : List Byte :=
  (List.range 64).map (fun i => if zero && !(newer.contains (a + i)) then 0 else listGet 0 old i)

/-- Write every destination unit that the elements feed with poison (R282, R327), its data 0 after a refusal. The writes of an engine are serial (R280):
what later traverses have written since stands, and a unit that they have written whole keeps its poison and tag. -/
def poisonFed (s : State) (lc : Nat) (t : Trv) (later : List Trv) (os : List Nat) (zero : Bool) : State :=
  if trvDir t.e.raw = 0 then
    let newer := later.flatMap trvSpBytes
    let ws := (fedWords t os).filter (fun w => !((rangeFrom (64 * w) 64).all newer.contains))
    modCluster s lc (fun c => ws.foldl (fun c w =>
      let tag := (later.reverse.find? (fun x => (trvSpBytes x).any (fun a => a / 64 == w))).elim (sref t.e.raw 0).tag (fun x => (sref x.e.raw 0).tag)
      spWriteAll c [⟨64 * w, underNewer newer (64 * w) (memRead c.mem.sp (64 * w) 64) zero, true⟩] tag) c)
  else
    let newer := later.flatMap trvWrites
    ((fedUnits t os).filter (fun u => !((rangeFrom (64 * u) 64).all newer.contains))).foldl (fun s u =>
      let r := devRead s (64 * u) 64
      unitWrite r.2 (64 * u) (underNewer newer (64 * u) r.1.data zero) true (windowTag t.e)) s

/-- A refused write leaves its granule unwritten (R282): each byte that the traverse wrote, and no later one of the engine did, is as before. -/
def unwrite (s : State) (t : Trv) (later : List Trv) (addr pa : Nat) : State :=
  let dev := addr / 128 * 128
  let p0 := pa / 128 * 128
  let newer := later.flatMap trvWrites
  let mine := (trvWrites t).filter (fun a => a / 128 == addr / 128 && !(newer.contains a))
  let free (u : Nat) : Bool := !(newer.any (fun a => a / 64 == dev / 64 + u))
  { s with comp := { s.comp with
      bytes := mine.foldl (fun m a => memWrite m (p0 + a % 128) (memRead t.before.bytes (p0 + a % 128) 1)) s.comp.bytes
      poison := [0, 1].foldl (fun p u =>
        if !(free u) then p else if setHas t.before.poison (p0 / 64 + u) then setAdd p (p0 / 64 + u) else setDel p (p0 / 64 + u)) s.comp.poison } }

/-- The traverses of an engine in flight from the n-th on, 0 the oldest. -/
def flightFrom (s : State) (lc e n : Nat) : List Trv := (trvOf (cluster s lc) e).flight.drop n

/-- Change the n-th traverse of an engine in flight. -/
def modFlight (s : State) (lc e n : Nat) (f : Trv → Trv) : State :=
  modCluster s lc (fun c => modTrv c e (fun x => { x with flight := listMod f x.flight n }))

/-- The stream check value over a read that was refused or lost is not stated: it becomes a free value of the configuration's width. So does no tag hold over such a source
(log 35): the tag is not judged. -/
def freeCheck (s : State) (lc e n : Nat) : State :=
  let w := match (flightFrom s lc e n).head?.bind (fun t => chkSlot t.e) with
    | some k => (streamCfg (natBits k 8 2)).w
    | none => 64
  let d := drawFree 0 (2 ^ w - 1) s
  modFlight d.2 lc e n (fun t => { t with ck := d.1, tag := if (decryptSlot t.e).isSome then .refused else t.tag })

/-- The companion refuses one request of the n-th traverse of an engine in flight (R277, R282). Nothing happens when the request does not go to
the companion. A refused tag releases no plaintext: every destination granule is poisoned (log 35). -/
def refuseReq (s : State) (lc e n : Nat) (r : TrvAcc) : State :=
  match flightFrom s lc e n with
  | [] => s
  | t :: later =>
    match reqAddr t.e t.base t.dbase r with
    | none => s
    | some a =>
      match locate a with
      | .comp pa =>
        let w := sideWrites t.e r.side
        if !t.moved then s
        else
          let s := match r.side with
            | .check => modFlight s lc e n (fun t => { t with chk := .refused })
            | .tag => modFlight (poisonGranules s t) lc e n (fun t => { t with tag := .refused })
            | _ => if w then unwrite s t later a pa else freeCheck (poisonFed s lc t later (granOrds t r.side (a / 128)) true) lc e n
          noteRefusal s lc e t (reqOrd t.e r) a w
      | _ => s

/-- TRANSLATION_REFUSED (R282). -/
def execTranslationRefused (lc e : Nat) (req : TrvReq) (s : State) : Res := .next (if 4 ≤ e then s else refuseReq s lc e req.n req.acc)

/-- Training of the Turaist link (R325): x32 at 64 GT/s, then x16, then 32 GT/s; each fallback posts LINK_DEGRADED with the width and rate it
falls back to. A link that no attempt trains is down. -/
def trainLink (s : State) (r : TrainResult) : State :=
  let up (s : State) (lanes gts : Nat) : State := { s with link := { up := true, lanes := lanes, gts := gts, down := false } }
  let fell (s : State) (lanes gts : Nat) : State := logEvent s 0x000D 7 5 0 noLink (packFields [(lanes, 8), (gts, 8)])
  if r.x32full then up s 32 64
  else if r.x16full then up (fell s 16 64) 16 64
  else if r.x16half then up (fell (fell s 16 64) 16 32) 16 32
  else { s with link := { s.link with up := false, down := true } }

/-- LINK_TRAIN. -/
def execLinkTrain (train : TrainResult) (s : State) : Res :=
  if powered s && s.op ≠ .sl3 then .next (trainLink s train) else .next s

/-- The response to one request of the n-th traverse in flight is lost (R327): a read delivers poison, a write counts as refused. `none` when the
engine makes no such request to the companion. -/
def loseReq (s : State) (lc e n : Nat) (r : TrvAcc) : Option (State × Nat × Bool) :=
  match (flightFrom s lc e n).head? with
  | none => none
  | some t =>
    match reqAddr t.e t.base t.dbase r with
    | none => none
    | some a =>
      if !t.moved || !(isComp a) then none
      else if sideWrites t.e r.side then some (refuseReq s lc e n r, a, true)
      else
        let s := modCluster s lc (fun c => consumePoison c 1)
        some (match r.side with
          | .check => modFlight s lc e n (fun t => { t with chk := .lost })
          | .tag => modFlight s lc e n (fun t => { t with tag := .lost })
          | _ => freeCheck (poisonFed s lc t (flightFrom s lc e (n + 1)) (granOrds t r.side (a / 128)) false) lc e n, a, false)

/-- TURAIST_TIMEOUT (R327): no response within 4 ms; LINK_TIMEOUT is posted and the link retrains. Of an access that is no traverse's, the next read of
the granule delivers poison, or the next write leaves it as it is (DESIGN CHOICE, log 35). -/
def execTuraistTimeout (lc e : Nat) (req : TrvReq) (train : TrainResult) (s : State) : Res :=
  match req.other with
  | some a =>
    match locate a with
    | .comp pa =>
      .next (trainLink (logEvent { s with comp := { s.comp with lost := setAdd (setAdd s.comp.lost (pa / 128 * 2)) (pa / 128 * 2 + 1) } } 0x000E 7 5 0 noLink
        (packFields [(a, 48), (0, 2)])) train)
    | _ => .next s
  | none =>
  if 4 ≤ e then .next s
  else match loseReq s lc e req.n req.acc with
    | none => .next s
    | some (t, a, w) => .next (trainLink (logEvent t 0x000E 7 5 0 noLink (packFields [(a, 48), (b2n w, 2)])) train)

/-! Probes -/

/-- Drop an access that repeats the one before it: two E2M1 elements lie in one byte (R42). -/
def onceEach : List (Nat × Nat) → List (Nat × Nat)
  | a :: b :: r => if a = b then onceEach (b :: r) else a :: onceEach (b :: r)
  | l => l

/-- The accesses that a probe reads from the recorded element up to another (R283): the target granules of a refused DIR 0b10 destination,
else the pattern. -/
def probeReads (x : TrvEngine) (q : QEntry × Nat × Nat) (upto : Nat) : List (Nat × Nat) :=
  let side := if x.refWrite && trvDir q.1.raw == 2 then TrvSide.dest else .element
  onceEach (((List.range upto).drop x.refOrd).flatMap (fun o =>
    ((sideBytes q.1 q.2.1 q.2.2 side o).take 1).map (fun a => (a, posBytes (trvD0 q.1).mfmt))))

/-- REFUSAL_PROBE (R283): the granule is read again; once it is accepted, which a granule outside companion memory always is, the rest of the
pattern is read from the coordinate, and a refusal there records the new coordinate and granule. When no engine probes any more the cluster
replays in normal timing. Each read is charged to the traverse budget. -/
def execRefusalProbe (lc e : Nat) (accepted : Bool) (refusedAt : Option TrvAcc) (s : State) : Res :=
  let x := trvOf (cluster s lc) e
  if 4 ≤ e ∨ (cluster s lc).seq.wait ≠ .probe ∨ !x.probe ∨ s.op ≠ .running then .next s
  else match x.refEntry with
    | none => .next s
    | some q =>
      if !(admits s 0 (devCells (secOf lc) x.refAddr false)) then .next (waitCells s 0 (devCells (secOf lc) x.refAddr false)) else
      let s := chargeSegs s lc e [(x.refAddr, 128)] false
      if !(accepted || !(isComp x.refAddr)) then .next s
      else
        let again : Option (Nat × Nat) := refusedAt.bind (fun r =>
          (reqAddr q.1 q.2.1 q.2.2 r).bind (fun a => if isComp a ∧ x.refOrd ≤ reqOrd q.1 r then some (reqOrd q.1 r, a) else none))
        match again with
        | some (o, a) =>
          .next (modCluster (chargeSegs s lc e (probeReads x q (o + 1)) false) lc (fun c => modTrv c e (fun x => { x with
            refOrd := o, coord := ordCoord q.1 o, refAddr := a / 128 * 128 })))
        | none =>
          let s := chargeSegs s lc e (probeReads x q (elemCount (trvD0 q.1).mfmt (trvDims q.1))) false
          let s := modCluster s lc (fun c => modTrv c e (fun x => { x with probe := false, refV := false }))
          let c := cluster s lc
          if c.t0.probe || c.t1.probe || c.t2.probe || c.t3.probe then .next s
          else .next (replayCluster s lc (c.seq.icyc + 1) false c.log.gForce)

/-- PROBE_TIMEOUT (R283): 10 ms pass: the step is faulted; the log receives the coordinate and the granule address. -/
def execProbeTimeout (lc e : Nat) (s : State) : Res :=
  let x := trvOf (cluster s lc) e
  if 4 ≤ e ∨ (cluster s lc).seq.wait ≠ .probe ∨ !x.probe then .next s
  else .next (faultNoReplay s 0x0005 lc (packFields (x.coord.map (fun i => (i, 24)) ++ [(x.refAddr, 48)])))

/-! Replays -/

/-- Raise CTRL_PARITY (Table 13-1, Table 13-6): the parity or duplicated-decode check of the sequencer, a queue or command decode fails at a
command. The third report of one interval faults the step. -/
def raiseParity (s : State) (lc q idx : Nat) : State :=
  let n := repeats (cluster s lc) 3
  let s := logEvent s 0x0060 (if n = 0 then 1 else if n = 1 then 2 else 3) 0 lc (repeatLink (cluster s lc) n) (packFields [(lc, 8), (q, 3), (idx, 14)])
  let s := modCluster s lc (fun c => { c with log := { c.log with reports := c.log.reports ++ [(3, n)] } })
  if 2 ≤ n then stepFaulted s (lastEntry s) else stopWith s lc .ctrlParity

/-- The recovery test of Table 9-7 finds a fault: the cluster is a hard failure and waits for its move (R251, R370). -/
def recoveryFailed (s : State) (lc : Nat) (fail : Option (Nat × Nat × Nat)) : State :=
  modCluster s lc (fun c => { c with mem := runTests c.mem (2 ^ 64 - 1) true fail, seq := { c.seq with stop := some .march } })

/-- CLUSTER_REPLAY (R135 to R137, Table 13-6): the response to the fault that stopped the cluster, when that response is a replay. A
second CHECKSUM_MISMATCH and the like wait for SIDING_MOVE. Traverses that have issued run to their ends first (R135 step 3). A second
POISON_CONSUMED whose recovery test found nothing enters poison-through (R369) at the DATUM where it stands. With `parity` a running cluster first reports CTRL_PARITY, whose detection and first response
Table 13-1 puts within one cycle; the table has no row of its own for it. -/
def execClusterReplay (lc : Nat) (r : ReplayAt) (s : State) : Res :=
  let s := match r.parity with
    | some (q, idx) =>
      if s.op = .running && (cluster s lc).inConsist && !(cluster s lc).pausedOk && (cluster s lc).seq.stop.isNone then raiseParity s lc q idx else s
    | none => s
  if s.op ≠ .running ∨ !(cluster s lc).inConsist ∨ (cluster s lc).pausedOk ∨ (cluster s lc).seq.stop = none then .next s
  else
  let s := endFlights s lc
  let c := cluster s lc
  match c.seq.stop with
  | none => .next s
  | some .slip =>
    if 3 ≤ c.log.slips then .next (stepFaulted s c.log.faultIdx)
    else
      let g := if c.log.conservative && decide (2 ≤ c.log.slips) then min 64 (2 * c.log.gForce) else c.log.gForce
      .next (replayCluster s lc r.cyc true g)
  | some .checksum => if repeats c 1 ≤ 1 then .next (replayCluster s lc r.cyc false c.log.gForce) else .next s
  | some .poison =>
    if repeats c 2 ≤ 1 then .next (replayCluster s lc r.cyc false c.log.gForce)
    else if r.fail.isSome then .next (recoveryFailed s lc r.fail)
    else
      .next (modCluster s lc (fun c => { c with
        seq := { c.seq with stop := none, wait := .run }
        log := { c.log with through := true }
        mem := runTests c.mem (2 ^ 64 - 1) true none }))
  | some .ctrlParity => if repeats c 3 ≤ 1 then .next (replayCluster s lc r.cyc c.log.conservative c.log.gForce) else .next s
  | some .seqMemory =>
    if repeats c 4 = 2 then .next s
    else if 3 ≤ repeats c 4 then .next (stepFaulted s c.log.faultIdx)
    else if r.fail.isSome then .next (recoveryFailed s lc r.fail)
    else match reloadPart (modMem s lc (fun m => runTests m (2 ^ 64 - 1) true none)) lc with
      | (some s, _) => .next (replayCluster s lc r.cyc c.log.conservative c.log.gForce)
      | (none, s) => .next (stepFaulted s c.log.faultIdx)
  | some .monitor =>
    if (sectionOf s (secOf lc)).tripped then .next s else .next (replayCluster s lc r.cyc c.log.conservative c.log.gForce)
  | some .resumeFail => .next (replayCluster s lc r.cyc c.log.conservative c.log.gForce)
  | some .faulted => .next s
  | some .march => .next s
  | some .pace => .next s

end Sys2Proof.Machine
end

