-- ==== Sys2Proof/Machine/VecCommands.lean ====
section
/-! DEFINITION. The vector engine's commands (R159 to R164, R177 to R188, R219). A command takes its effect in its issue cycle; one that
consumes a drained tile waits until the drain buffer holds one (R179, R181). -/

namespace Sys2Proof.Machine

/-- The head of the VEC queue that a row of opcode `op` (and body test `p`) takes in cycle cyc. -/
def vecPick (s : State) (lc cyc op : Nat) (p : QEntry → Bool) : Option QEntry :=
  let c := cluster s lc
  pick s lc 1 cyc (fun e => cOp e.raw == op && p e && readyAt c e cyc && !(e.live && (sref e.raw 0).mode == 4 && op != oOPT && c.vr.drain.isEmpty))

/-- The tile that a command consumes. -/
def vecTile (c : Cluster) (e : QEntry) : Option DrainTile := if (sref e.raw 0).mode = 4 ∧ cOp e.raw ≠ oOPT then c.vr.drain.head? else none

/-- The first operand of a command that breaks R150: slots with the elements that each reads or writes. -/
def vecBound (e : QEntry) (l : List (Nat × Nat × Bool)) : Option (Nat × Nat × Bool) :=
  l.findSome? (fun x => (opndBound (sref e.raw x.1) (formed e (sref e.raw x.1)) x.2.1).map (fun b => (b.1, b.2, x.2.2)))

/-- The status word that a command which consumes a tile writes (R150, Table 6-4). -/
def tileBound (e : QEntry) : Option (Nat × Nat × Bool) :=
  let a := formed e (sref e.raw 0)
  if (sref e.raw 0).mode = 4 ∧ cOp e.raw ≠ oOPT ∧ spTop < a + 63 then some (a, a + 63, true) else none

/-- Run a VEC command: a predicate that fails retires it, a broken operand range raises BOUND_FAULT (R150). -/
def runVec (s : State) (lc cyc : Nat) (pk : Option QEntry) (bounds : QEntry → List (Nat × Nat × Bool))
    (f : State → QEntry → State) : State :=
  match pk with
  | none => s
  | some e =>
    if !e.live then retireAt s lc 1 cyc e
    else match (tileBound e).or (vecBound e (bounds e)) with
      | some (lo, hi, w) => boundFault s lc e.idx lo hi w
      | none => f s e

/-- Slot k as a source: its elements in the range check. -/
def srcBound (e : QEntry) (k n : Nat) : Nat × Nat × Bool := (k, modeCount (sref e.raw k) n, false)

/-- VEC.FMA's value of element i (R160): C absent leaves the product alone. -/
def fmaVal (rm : RMode) (a b c : FVal) (hasC : Bool) : FVal := if hasC then fvAdd rm (fvMul a b) c else fvMul a b

/-- VEC.FMA on its queue entry. -/
def vecFmaRun (lc cyc : Nat) (s : State) (e : QEntry) : State :=
  let c := cluster s lc
  let m := c.mem
  let n := vecN e
  let t := vecTile c e
  let a := vsrc m t e 0 false fvZero
  let b := vsrc m t e 1 false (fvInt 1)
  let d := vsrc m t e 2 false fvZero
  let rs : ReadSet := [readsOf e 0 n a, readsOf e 1 n b, readsOf e 2 n d]
  let r := sref e.raw 3
  let slip := (readSlip m rs).isSome
  let out := (List.range n).map (fun i =>
    let x := convElem r.fmt r.rmode r.sat (slotKey e 3) i
      (fmaVal (modeOf r.rmode (slotKey e 3) i) (a.val i) (b.val i) (d.val i) (!(isAbsent e 2)))
    (⟨x.code, x.poison || slip || elemPz m [a, b, d] i⟩ : WElem))
  let pz := a.pz || (readWords rs).any (spPoison m)
  let ep := epilogue lc cyc 4 e t pz slip (anyNonFin r.fmt out)
  finishCmd s lc 1 cyc e rs (elemCycles (vecWidth e [0, 1, 2, 3]) n [a, b, d])
    ([(destPieces m.sp r.fmt (formed e r) r.lstride out, r.tag)] ++ ep.2) (b2n a.pz) ep.1

/-- VEC.FMA (R160). -/
def execVecFma (lc cyc : Nat) (s : State) : Res :=
  .next (runVec s lc cyc (vecPick s lc cyc oFMA (fun _ => true))
    (fun e => [srcBound e 0 (vecN e), srcBound e 1 (vecN e), srcBound e 2 (vecN e), (3, vecN e, true)]) (vecFmaRun lc cyc))

/-- VEC.FN on its queue entry (R161, R186): z to the stash when CX[4] = 1, f(z) to S3. -/
def vecFnRun (lc cyc : Nat) (s : State) (e : QEntry) : State :=
  let c := cluster s lc
  let m := c.mem
  let n := vecN e
  let t := vecTile c e
  let a := vsrc m t e 0 false fvZero
  let b := vsrc m t e 1 false fvZero
  let rs : ReadSet := [readsOf e 0 n a, readsOf e 1 n b]
  let slip := (readSlip m rs).isSome
  let pz (i : Nat) : Bool := slip || elemPz m [a, b] i
  let z := (List.range n).map (fun i => rne (if isAbsent e 1 then a.val i else fvAdd .rne (a.val i) (b.val i)))
  let k := natBits (cCx e.raw) 0 4
  let out := convAll e 3 (z.map (fun x => fv (ftEval c.vr.ftab k x))) pz
  let st := if natBits (cCx e.raw) 4 1 = 1 then convAll e 2 (z.map fv) pz else []
  let r3 := sref e.raw 3
  let r2 := sref e.raw 2
  let nonfin := anyNonFin r3.fmt out || anyNonFin r2.fmt st
  let ep := epilogue lc cyc 8 e t (a.pz || (readWords rs).any (spPoison m)) slip nonfin
  finishCmd s lc 1 cyc e rs (elemCycles (vecWidth e ([0, 1, 3] ++ (if natBits (cCx e.raw) 4 1 = 1 then [2] else []))) n [a, b])
    ([(destPieces m.sp r2.fmt (formed e r2) r2.lstride st, r2.tag), (destPieces m.sp r3.fmt (formed e r3) r3.lstride out, r3.tag)] ++ ep.2)
    (b2n a.pz) ep.1

/-- VEC.FN. -/
def execVecFn (lc cyc : Nat) (s : State) : Res :=
  .next (runVec s lc cyc (vecPick s lc cyc oFN (fun _ => true))
    (fun e => [srcBound e 0 (vecN e), srcBound e 1 (vecN e), (2, if natBits (cCx e.raw) 4 1 = 1 then vecN e else 0, true), (3, vecN e, true)])
    (vecFnRun lc cyc))

/-- VEC.DFN on its queue entry (R161, R187): G × f′(Z), rounded once. -/
def vecDfnRun (lc cyc : Nat) (s : State) (e : QEntry) : State :=
  let c := cluster s lc
  let m := c.mem
  let n := vecN e
  let t := vecTile c e
  let z := vsrc m t e 0 false fvZero
  let g := vsrc m t e 1 false (fvInt 1)
  let rs : ReadSet := [readsOf e 0 n z, readsOf e 1 n g]
  let slip := (readSlip m rs).isSome
  let k := natBits (cCx e.raw) 0 4
  let out := convAll e 3 ((List.range n).map (fun i => fvMul (g.val i) (fv (ftEvalD c.vr.ftab k (z.val i)))))
    (fun i => slip || elemPz m [z, g] i)
  let r := sref e.raw 3
  let ep := epilogue lc cyc 8 e t (z.pz || (readWords rs).any (spPoison m)) slip (anyNonFin r.fmt out)
  finishCmd s lc 1 cyc e rs (elemCycles (vecWidth e [0, 1, 3]) n [z, g])
    ([(destPieces m.sp r.fmt (formed e r) r.lstride out, r.tag)] ++ ep.2) (b2n z.pz) ep.1

/-- VEC.DFN. -/
def execVecDfn (lc cyc : Nat) (s : State) : Res :=
  .next (runVec s lc cyc (vecPick s lc cyc oDFN (fun _ => true))
    (fun e => [srcBound e 0 (vecN e), srcBound e 1 (vecN e), (3, vecN e, true)]) (vecDfnRun lc cyc))

/-- The scale bytes and element codes of a BS8 destination (R46), one scale for each 32 elements. -/
def bs8Blocks (e : QEntry) (k : Nat) (vs : List FVal) : List (Nat × List Nat) :=
  let r := sref e.raw k
  (List.range (ceilDiv vs.length 32)).map (fun b =>
    let v := (vs.drop (32 * b)).take 32
    encodeBs8 r.fmt ((List.range v.length).map (fun i => modeOf r.rmode (slotKey e k) (32 * b + i))) v)

/-- The pieces of a scale array (R44, R178): dense, or runs of 1,024 bytes in the layout of R69. A word takes poison from any of its bytes. -/
def scalePieces (base lstride : Nat) (l : List Byte) (pz : List Bool) : List SpPiece :=
  if lstride = 0 then spPieces base l (fun i => listGet false pz i)
  else (List.range (ceilDiv l.length 1024)).flatMap (fun k =>
    spPieces (scaleAt base lstride (1024 * k)) ((l.drop (1024 * k)).take 1024) (fun i => listGet false pz (1024 * k + i)))

/-- VEC.CVT on its queue entry (R162). -/
def vecCvtRun (lc cyc : Nat) (s : State) (e : QEntry) : State :=
  let c := cluster s lc
  let m := c.mem
  let n := vecN e
  let t := vecTile c e
  let r0 := sref e.raw 0
  let r1 := sref e.raw 1
  let r2 := sref e.raw 2
  let r3 := sref e.raw 3
  let a := if isBs8 r0.fmt && r0.mode == 0 then tensorAt m r0 (formed e r0) (formed e r1) r1.lstride else vsrc m t e 0 false fvZero
  let elw := setAddAll [] ((List.range n).flatMap (fun i => (a.words i).take 1))
  let scw := setAddAll [] ((List.range n).flatMap (fun i => (a.words i).drop 1))
  let rs : ReadSet := [(r0, elw), (r1, scw)]
  let slip := (readSlip m rs).isSome
  let pz (i : Nat) : Bool := slip || elemPz m [a] i
  let vs := (List.range n).map a.val
  let blocks := if isBs8 r3.fmt then bs8Blocks e 3 vs else []
  let codes := blocks.flatMap (fun b => b.2)
  -- an element of a block is computed from all 32 sources, which set its exponent (R46, R178)
  let bpz := (List.range blocks.length).map (fun b => (List.range 32).any (fun i => decide (32 * b + i < n) && pz (32 * b + i)))
  let out : List WElem :=
    if isBs8 r3.fmt then (List.range n).map (fun i => ⟨listGet 0 codes i, listGet false bpz (i / 32)⟩) else convAll e 3 vs pz
  let scales := scalePieces (formed e r2) r2.lstride (blocks.map (fun b => BitVec.ofNat 8 b.1)) bpz
  let nonfin := if isBs8 r3.fmt then blocks.any (fun b => b.1 == 255) else anyNonFin r3.fmt out
  let ep := epilogue lc cyc (if isBs8 r3.fmt then 10 else 4) e t (a.pz || (readWords rs).any (spPoison m)) slip nonfin
  finishCmd s lc 1 cyc e rs (elemCycles (if isBs8 r3.fmt then 256 else vecWidth e [0, 3]) n [a])
    ([(scales, r2.tag), (destPieces m.sp r3.fmt (formed e r3) r3.lstride out, r3.tag)] ++ ep.2) (b2n a.pz) ep.1

/-- Range of a scale array of n elements. -/
def scaleBound (e : QEntry) (k n : Nat) : Option (Nat × Nat) :=
  let r := sref e.raw k
  let hi := (List.range (ceilDiv n 32)).foldl (fun h b => max h (scaleAt (formed e r) r.lstride b)) 0
  if spTop < hi then some (formed e r, hi) else none

/-- VEC.CVT. -/
def execVecCvt (lc cyc : Nat) (s : State) : Res :=
  .next (runVec s lc cyc (vecPick s lc cyc oCVT (fun _ => true)) (fun e => [srcBound e 0 (vecN e), (3, vecN e, true)]) (fun s e =>
    match (if isBs8 (sref e.raw 0).fmt then scaleBound e 1 (vecN e) else none) with
    | some (lo, hi) => boundFault s lc e.idx lo hi false
    | none =>
      match (if isBs8 (sref e.raw 3).fmt then scaleBound e 2 (vecN e) else none) with
      | some (lo, hi) => boundFault s lc e.idx lo hi true
      | none => vecCvtRun lc cyc s e))

/-! VEC.OPT -/

/-- Parameter word j as FP32 (Table 6-10). -/
def optPar (e : QEntry) (j : Nat) : F32 := BitVec.ofNat 32 (pWord e j)

/-- HDRDIV and HDRADDR of P+11 (Table 8-7). -/
def optHdrDiv (e : QEntry) : Bool := natBits (pWord e 11) 63 1 == 1
def optHdrAddr (e : QEntry) : Nat := natBits (pWord e 11) 32 16 * 64

/-- One fused update (R163): W, M, V and g from W, G, M, V. -/
def optStep (e : QEntry) (gscale w : F32) (g : FVal) (m v : F32) : F32 × F32 × F32 × F32 :=
  let one : F32 := 0x3F800000#32
  let b1 := optPar e 5
  let b2 := optPar e 6
  let g := rne (fvMul g (fv gscale))
  let m := f32Add (f32Mul b1 m) (f32Mul (f32Sub one b1) g)
  let v := f32Add (f32Mul b2 v) (f32Mul (f32Mul (f32Sub one b2) g) g)
  let u := f32Div (f32Mul m (optPar e 9)) (f32Add (f32Sqrt (f32Mul v (optPar e 10))) (optPar e 7))
  let w := f32Sub w (f32Mul (optPar e 4) (f32Add u (f32Mul (optPar e 8) w)))
  (w, m, v, g)

/-- Does the command's header read CONTRIB = 0 (R219)? -/
def optLost (m : ClMem) (e : QEntry) : Bool := optHdrDiv e && memLe m.sp (optHdrAddr e + 2) 2 == 0

/-- The source of slot k: W, G, M, V. -/
def optSrc (m : ClMem) (e : QEntry) (k : Nat) : VSrc := vsrc m none e k (k != 1) fvZero

/-- Element i as the command leaves it: W, M, V and g. With CONTRIB = 0 no g is formed. -/
def optNew (m : ClMem) (e : QEntry) (i : Nat) : F32 × F32 × F32 × F32 :=
  let w := rne ((optSrc m e 0).val i)
  let u := rne ((optSrc m e 2).val i)
  let v := rne ((optSrc m e 3).val i)
  if optLost m e then (w, u, v, 0)
  else optStep e (if optHdrDiv e then f32Div (optPar e 11) (f32Nat (memLe m.sp (optHdrAddr e + 2) 2)) else optPar e 11) w ((optSrc m e 1).val i) u v

/-- The elements that slot k is rewritten with: W, M or V of the new ones, or its own codes when CONTRIB = 0. -/
def optElems (m : ClMem) (e : QEntry) (k : Nat) (vs : List F32) (pz : Nat → Bool) : List WElem :=
  if optLost m e then (List.range (vecN e)).map (fun i =>
    ⟨operandCode m.sp (sref e.raw k).fmt (formed e (sref e.raw k)) (sref e.raw k).lstride i, true⟩)
  else convAll e k (vs.map fv) pz

/-- Slot k, rewritten in place. -/
def optDest (m : ClMem) (e : QEntry) (k : Nat) (l : List WElem) : Dest :=
  let r := sref e.raw k
  (destPieces m.sp r.fmt (formed e r) r.lstride l, inPlaceTag r)

/-- VEC.OPT on its queue entry (R163, R219, R222). With CONTRIB = 0 the poisoned words read and the non-finite values rewritten count as ever
(log 14). -/
def vecOptRun (lc cyc : Nat) (s : State) (e : QEntry) : State :=
  let m := (cluster s lc).mem
  let n := vecN e
  let src := optSrc m e
  let hw := if optHdrDiv e then unitsOf 64 (optHdrAddr e) 4 else []
  let rs : ReadSet := [(sref e.raw 1, hw), readsOf e 0 n (src 0), readsOf e 1 n (src 1), readsOf e 2 n (src 2), readsOf e 3 n (src 3)]
  let st := (List.range n).map (optNew m e)
  let pz (i : Nat) : Bool :=
    (readSlip m rs).isSome || hw.any (spPoison m) || optLost m e || elemPz m [src 0, src 1, src 2, src 3] i
  let ow := optElems m e 0 (st.map (fun x => x.1)) pz
  let om := optElems m e 2 (st.map (fun x => x.2.1)) pz
  let ov := optElems m e 3 (st.map (fun x => x.2.2.1)) pz
  let badN (l : List WElem) (k : Nat) : Nat := (l.filter (fun x => !(fvFinite (decodeElem (sref e.raw k).fmt x.code)))).length
  let nf := (st.filter (fun x => !(f32Finite x.2.2.2))).length + (poisonedOf m (readWords rs)).length + badN ow 0 + badN om 2 + badN ov 3
  finishCmd s lc 1 cyc e rs (joinCycles [hw] (elemCycles 256 n [src 0, src 1, src 2, src 3])) [optDest m e 0 ow, optDest m e 2 om, optDest m e 3 ov] 0
    (fun s => modCluster s lc (fun c => { c with log := { c.log with nf := c.log.nf + nf, noContrib := c.log.noContrib || optLost m e } }))

/-- VEC.OPT. -/
def execVecOpt (lc cyc : Nat) (s : State) : Res :=
  .next (runVec s lc cyc (vecPick s lc cyc oOPT (fun _ => true))
    (fun e => [(0, vecN e, true), (1, vecN e, false), (2, vecN e, true), (3, vecN e, true)]) (vecOptRun lc cyc))

/-! VEC.RED -/

/-- P and the partial stride (R164). DESIGN CHOICE (log 43): R106 and R164 name a range for P and a multiple for the stride and no answer outside them;
the command combines with both as they stand. -/
def redP (e : QEntry) : Nat := natBits (pWord e 0) 32 17
def redStride (e : QEntry) : Nat := natBits (pWord e 4) 0 22

/-- Status word of partial m. -/
def redStatus (m : ClMem) (e : QEntry) (k : Nat) : Nat := memLe m.sp (formed e (sref e.raw 1) + 64 * k) 64

/-- The status word that VEC.RED writes (R107, R108, R164): VALID, INT, the OR of flags, CHAIN_N. -/
def redWord (isInt : Bool) (chainN flags : Nat) : Nat :=
  let st := orBit (orBit flags tsVALID true) tsINT isInt
  packFields [(st, 16), (0, 16), (min chainN (2 ^ 48 - 1), 48), (0, 432)]

/-- VEC.RED with KIND = 0b00 on its queue entry (R106 to R108, R164). DESIGN CHOICE (log 43): NONFINITE is set from the elements written with S1 present
too, where R107 only takes the partials' flags and R164 speaks of an absent S1. -/
def vecRedRun (lc cyc : Nat) (s : State) (e : QEntry) : State :=
  let c := cluster s lc
  let m := c.mem
  let n := vecN e
  let p := redP e
  let r0 := sref e.raw 0
  let r2 := sref e.raw 2
  let r3 := sref e.raw 3
  let isInt := r0.fmt == INT32
  let part (k : Nat) : VSrc := tensorAt m r0 (formed e r0 + k * redStride e) 0 0
  let parts := (List.range p).map part
  let hasSt := !(isAbsent e 1)
  let stw := if hasSt then (List.range p).map (fun k => formed e (sref e.raw 1) / 64 + k) else []
  let rs : ReadSet := [(r0, setAddAll [] (parts.flatMap (fun v => (List.range n).flatMap v.words))), (sref e.raw 1, stw)]
  let slip := (readSlip m rs).isSome
  let code (k i : Nat) : F32 := BitVec.ofNat 32 (operandCode m.sp FP32 (formed e r0 + k * redStride e) r0.lstride i)
  let sums := (List.range n).map (fun i =>
    let xs := (List.range p).map (fun k => code k i)
    if isInt then combineInt xs else (combineFloat xs, false))
  let pz (i : Nat) : Bool := slip || elemPz m parts i
  let out := if isInt then (List.range n).map (fun i => (⟨(listGet (0, false) sums i).1.toNat, pz i⟩ : WElem))
    else convAll e 3 (sums.map (fun x => fv x.1)) pz
  let sts := if hasSt then (List.range p).map (redStatus m e) else []
  let chainN := sts.foldl (fun a x => a + natBits x 32 48) 0
  let anySt (b : Nat) : Bool := sts.any (fun x => tbit x b)
  let rd := (readWords rs).any (spPoison m)
  let fl := orBit (orBit (orBit (orBit (orBit 0 tsUNB (anySt tsUNB || decide (2 ^ 32 < chainN))) tsPOISON (rd || slip || anySt tsPOISON))
    tsNONFINITE (anySt tsNONFINITE || (!isInt && anyNonFin r3.fmt out))) tsSLIP (anySt tsSLIP || slip)) tsINTRANGE (sums.any (fun x => x.2))
  let w := redWord isInt chainN fl
  let after (s : State) : State :=
    let s := modCluster s lc (fun c => (sts ++ [w]).foldl carry c)
    if tbit w tsUNB then noteUnbounded s lc e.idx (chain chainN) else s
  -- R164: partials 0 and 1 together, then each of the others, 256 elements a cycle; a partial's status word comes with its first elements (log 43)
  let cyc1 (k : Nat) : List (List Nat) := joinCycles [(stw.drop k).take 1] (elemCycles 256 n [part k])
  let cycles := joinCycles (cyc1 0) (if 2 ≤ p then cyc1 1 else []) ++ (rangeFrom 2 (p - 2)).flatMap cyc1
  finishCmd s lc 1 cyc e rs cycles
    [(destPieces m.sp r3.fmt (formed e r3) r3.lstride out, r3.tag), (runPieces (formed e r2) (leBytes 64 w) slip, r2.tag)] 0 after

/-- Range checks of a combine: every partial, every status word, the destinations. -/
def redBound (e : QEntry) : Option (Nat × Nat × Bool) :=
  let n := vecN e
  let r0 := sref e.raw 0
  let last := formed e r0 + (redP e - 1) * redStride e
  let st := formed e (sref e.raw 1)
  let r2 := formed e (sref e.raw 2)
  ((opndBound r0 last n).map (fun b => (b.1, b.2, false))).or
    (if !(isAbsent e 1) ∧ spTop + 1 < st + 64 * redP e then some (st, st + 64 * redP e - 1, false)
     else if spTop + 1 < r2 + 64 then some (r2, r2 + 63, true)
     else (opndBound (sref e.raw 3) (formed e (sref e.raw 3)) n).map (fun b => (b.1, b.2, true)))

/-- VEC.RED, KIND = 0b00. -/
def execVecRedCombine (lc cyc : Nat) (s : State) : Res :=
  .next (runVec s lc cyc (vecPick s lc cyc oRED (fun e => natBits (cCx e.raw) 0 2 == 0)) (fun _ => []) (fun s e =>
    match redBound e with
    | some (lo, hi, w) => boundFault s lc e.idx lo hi w
    | none => vecRedRun lc cyc s e))

/-- The standard-mode sum of the terms of one block (R96, R164): n counts from 1. -/
def blockSum : Nat → List FVal → Cell → Cell
  | _, [], x => x
  | n, v :: r, x => blockSum (n + 1) r (accFloat (n + 1) x v)

/-- VEC.RED with KIND = 0b01 on its queue entry (R164). -/
def vecRedBlockRun (lc cyc : Nat) (s : State) (e : QEntry) : State :=
  let c := cluster s lc
  let m := c.mem
  let n := vecN e
  let r2 := sref e.raw 2
  let r3 := sref e.raw 3
  let a := vsrc m none e 0 true fvZero
  let rs : ReadSet := [readsOf e 0 n a]
  let slip := (readSlip m rs).isSome
  let nb := ceilDiv n 128
  let blockIx (b : Nat) : List Nat := (rangeFrom (128 * b) 128).filter (fun i => decide (i < n))
  let sums := (List.range nb).map (fun b => fv (foldCell (blockSum 0 ((blockIx b).map a.val) Cell.zero)))
  let out := convAll e 3 sums (fun b => slip || (blockIx b).any (elemPz m [a]))
  let rd := (readWords rs).any (spPoison m)
  let fl := orBit (orBit (orBit 0 tsPOISON (rd || slip)) tsSLIP slip) tsNONFINITE (anyNonFin r3.fmt out)
  let w := redWord false 128 fl
  finishCmd s lc 1 cyc e rs (elemCycles 256 n [a])
    [(destPieces m.sp r3.fmt (formed e r3) r3.lstride out, r3.tag), (runPieces (formed e r2) (leBytes 64 w) slip, r2.tag)] 0
    (fun s => modCluster s lc (fun c => carry c w))

/-- VEC.RED, KIND = 0b01. -/
def execVecRedBlock (lc cyc : Nat) (s : State) : Res :=
  .next (runVec s lc cyc (vecPick s lc cyc oRED (fun e => natBits (cCx e.raw) 0 2 == 1))
    (fun e => [(0, vecN e, false), (3, ceilDiv (vecN e) 128, true)]) (fun s e =>
    let a := formed e (sref e.raw 2)
    if spTop + 1 < a + 64 then boundFault s lc e.idx a (a + 63) true else vecRedBlockRun lc cyc s e))

end Sys2Proof.Machine
end

