-- ==== Sys2Proof/Machine/Dispatch.lean ====
section
/-! DEFINITION. exec: one arm per command, each a direct call of its meaning. -/

namespace Sys2Proof.Machine

/-- The effect of a command on everything but the queue. -/
def exec (i : Instr) (s : State) : Host.Outcome State Fault Refusal :=
  match i with
  | .getInfo m => Sys2Proof.Machine.execGetInfo m s
  | .getState m => Sys2Proof.Machine.execGetState m s
  | .getFaultLog m => Sys2Proof.Machine.execGetFaultLog m s
  | .assignTenant m => Sys2Proof.Machine.execAssignTenant m s
  | .seal m => Sys2Proof.Machine.execSeal m s
  | .releaseTenant m => Sys2Proof.Machine.execReleaseTenant m s
  | .attest m => Sys2Proof.Machine.execAttest m s
  | .keyImport m => Sys2Proof.Machine.execKeyImport m s
  | .loadConsist m => Sys2Proof.Machine.execLoadConsist m s
  | .patchPrm m => Sys2Proof.Machine.execPatchPrm m s
  | .start m => Sys2Proof.Machine.execStart m s
  | .pause m => Sys2Proof.Machine.execPause m s
  | .clusterPaused lc => Sys2Proof.Machine.execClusterPaused lc s
  | .resume m => Sys2Proof.Machine.execResume m s
  | .stop m => Sys2Proof.Machine.execStop m s
  | .consistEnd => Sys2Proof.Machine.execConsistEnd s
  | .setPerf m => Sys2Proof.Machine.execSetPerf m s
  | .setWake m => Sys2Proof.Machine.execSetWake m s
  | .enterSleep m => Sys2Proof.Machine.execEnterSleep m s
  | .sleepPointOfNoReturn => Sys2Proof.Machine.execSleepPointOfNoReturn s
  | .sleepEntryComplete => Sys2Proof.Machine.execSleepEntryComplete s
  | .getPowerStats m => Sys2Proof.Machine.execGetPowerStats m s
  | .budgetSet m => Sys2Proof.Machine.execBudgetSet m s
  | .budgetGet m => Sys2Proof.Machine.execBudgetGet m s
  | .bankHandover m => Sys2Proof.Machine.execBankHandover m s
  | .runMarch m => Sys2Proof.Machine.execRunMarch m s
  | .ckptWrite m => Sys2Proof.Machine.execCkptWrite m s
  | .ckptRestore m => Sys2Proof.Machine.execCkptRestore m s
  | .ckptVerify m => Sys2Proof.Machine.execCkptVerify m s
  | .ckptPolicy m => Sys2Proof.Machine.execCkptPolicy m s
  | .buddyPair m => Sys2Proof.Machine.execBuddyPair m s
  | .fabricConfig m => Sys2Proof.Machine.execFabricConfig m s
  | .ringJoin m => Sys2Proof.Machine.execRingJoin m s
  | .ringLeaveRemove m => Sys2Proof.Machine.execRingLeaveRemove m s
  | .ringLeaveReadmit m => Sys2Proof.Machine.execRingLeaveReadmit m s
  | .ringLeaveLeave m => Sys2Proof.Machine.execRingLeaveLeave m s
  | .flowOpen m => Sys2Proof.Machine.execFlowOpen m s
  | .debugOpen m => Sys2Proof.Machine.execDebugOpen m s
  | .debugClose m => Sys2Proof.Machine.execDebugClose m s
  | .fwUpdate m => Sys2Proof.Machine.execFwUpdate m s
  | .longCommandFinal seq w => Sys2Proof.Machine.execLongCommandFinal seq w s
  | .mbCtlEn en => Sys2Proof.Machine.execMbCtlEn en s
  | .mbCtlRst => Sys2Proof.Machine.execMbCtlRst s
  | .doorbell ring prod => Sys2Proof.Machine.execDoorbell ring prod s
  | .ringConsWrite ring cons => Sys2Proof.Machine.execRingConsWrite ring cons s
  | .ringIrqWrite ring => Sys2Proof.Machine.execRingIrqWrite ring s
  | .hwinOpen n rd wr => Sys2Proof.Machine.execHwinOpen n rd wr s
  | .registerWrite host addr value => Sys2Proof.Machine.execRegisterWrite host addr value s
  | .hostWindowAccess off acc => Sys2Proof.Machine.execHostWindowAccess off acc s
  | .windowAccess lc off tag acc => Sys2Proof.Machine.execWindowAccess lc off tag acc s
  | .info => Sys2Proof.Machine.execInfo s
  | .state => Sys2Proof.Machine.execState s
  | .temps => Sys2Proof.Machine.execTemps s
  | .power => Sys2Proof.Machine.execPower s
  | .faults => Sys2Proof.Machine.execFaults s
  | .alertStatus => Sys2Proof.Machine.execAlertStatus s
  | .alertClear pec w => Sys2Proof.Machine.execAlertClear pec w s
  | .alertMask pec w => Sys2Proof.Machine.execAlertMask pec w s
  | .powerCap pec w => Sys2Proof.Machine.execPowerCap pec w s
  | .alertResponse => Sys2Proof.Machine.execAlertResponse s
  | .alertPulseEnd => Sys2Proof.Machine.execAlertPulseEnd s
  | .extest => Sys2Proof.Machine.execExtest s
  | .idcode => Sys2Proof.Machine.execIdcode s
  | .samplePreload preload => Sys2Proof.Machine.execSamplePreload preload s
  | .dbgStatus => Sys2Proof.Machine.execDbgStatus s
  | .dbgAccess dr => Sys2Proof.Machine.execDbgAccess dr s
  | .dbgHalt => Sys2Proof.Machine.execDbgHalt s
  | .vendorAnalysis op => Sys2Proof.Machine.execVendorAnalysis op s
  | .bypass op => Sys2Proof.Machine.execBypass op s
  | .coldBoot straps => Sys2Proof.Machine.execColdBoot straps s
  | .modResetAssert => Sys2Proof.Machine.execModResetAssert s
  | .modResetDeassert lowCycles straps => Sys2Proof.Machine.execModResetDeassert lowCycles straps s
  | .inputUndervoltage => Sys2Proof.Machine.execInputUndervoltage s
  | .inputOvervoltage => Sys2Proof.Machine.execInputOvervoltage s
  | .aonPowerLoss => Sys2Proof.Machine.execAonPowerLoss s
  | .wake source port rising => Sys2Proof.Machine.execWake source port rising s
  | .whistle port => Sys2Proof.Machine.execWhistle port s
  | .warmRestart => Sys2Proof.Machine.execWarmRestart s
  | .woke w => Sys2Proof.Machine.execWoke w s
  | .stageBoundOverrun stage unitsOnly => Sys2Proof.Machine.execStageBoundOverrun stage unitsOnly s
  | .unitRetry unit trained => Sys2Proof.Machine.execUnitRetry unit trained s
  | .opxPass lc p => Sys2Proof.Machine.execOpxPass lc p s
  | .opxDrain lc cyc => Sys2Proof.Machine.execOpxDrain lc cyc s
  | .opxLoad lc cyc => Sys2Proof.Machine.execOpxLoad lc cyc s
  | .opxLoadImage lc cyc => Sys2Proof.Machine.execOpxLoadImage lc cyc s
  | .opxSave lc cyc => Sys2Proof.Machine.execOpxSave lc cyc s
  | .opxSurvey lc cyc => Sys2Proof.Machine.execOpxSurvey lc cyc s
  | .vecFma lc cyc => Sys2Proof.Machine.execVecFma lc cyc s
  | .vecFn lc cyc => Sys2Proof.Machine.execVecFn lc cyc s
  | .vecDfn lc cyc => Sys2Proof.Machine.execVecDfn lc cyc s
  | .vecCvt lc cyc => Sys2Proof.Machine.execVecCvt lc cyc s
  | .vecOpt lc cyc => Sys2Proof.Machine.execVecOpt lc cyc s
  | .vecRedCombine lc cyc => Sys2Proof.Machine.execVecRedCombine lc cyc s
  | .vecRedBlock lc cyc => Sys2Proof.Machine.execVecRedBlock lc cyc s
  | .rowNormF lc cyc => Sys2Proof.Machine.execRowNormF lc cyc s
  | .rowNormB lc cyc => Sys2Proof.Machine.execRowNormB lc cyc s
  | .rowSmaxF lc cyc => Sys2Proof.Machine.execRowSmaxF lc cyc s
  | .rowSmaxB lc cyc => Sys2Proof.Machine.execRowSmaxB lc cyc s
  | .rowTopk lc cyc => Sys2Proof.Machine.execRowTopk lc cyc s
  | .trvGo lc q cyc => Sys2Proof.Machine.execTrvGo lc q cyc s
  | .trvWait lc q cyc => Sys2Proof.Machine.execTrvWait lc q cyc s
  | .flgSet lc q cyc => Sys2Proof.Machine.execFlgSet lc q cyc s
  | .flgWait lc q cyc => Sys2Proof.Machine.execFlgWait lc q cyc s
  | .flgClr lc q cyc => Sys2Proof.Machine.execFlgClr lc q cyc s
  | .flagWaiterRelease lc q cyc => Sys2Proof.Machine.execFlagWaiterRelease lc q cyc s
  | .cntSet lc => Sys2Proof.Machine.execCntSet lc s
  | .cntAdd lc => Sys2Proof.Machine.execCntAdd lc s
  | .cntLoop lc => Sys2Proof.Machine.execCntLoop lc s
  | .cmpSet lc => Sys2Proof.Machine.execCmpSet lc s
  | .prmMov lc => Sys2Proof.Machine.execPrmMov lc s
  | .prmAdd lc => Sys2Proof.Machine.execPrmAdd lc s
  | .datum lc => Sys2Proof.Machine.execDatum lc s
  | .datumRecordAck lc cyc march => Sys2Proof.Machine.execDatumRecordAck lc cyc march s
  | .lossPost lc q cyc => Sys2Proof.Machine.execLossPost lc q cyc s
  | .verHold lc q cyc => Sys2Proof.Machine.execVerHold lc q cyc s
  | .verDrop lc q cyc => Sys2Proof.Machine.execVerDrop lc q cyc s
  | .commitReady lc q cyc => Sys2Proof.Machine.execCommitReady lc q cyc s
  | .sync lc => Sys2Proof.Machine.execSync lc s
  | .syncComplete ordinal cycs => Sys2Proof.Machine.execSyncComplete ordinal cycs s
  | .syncTimeout ordinal => Sys2Proof.Machine.execSyncTimeout ordinal s
  | .flagDeadlock sec group => Sys2Proof.Machine.execFlagDeadlock sec group s
  | .clusterReplay lc r => Sys2Proof.Machine.execClusterReplay lc r s
  | .conveyorDeferredStart lc => Sys2Proof.Machine.execConveyorDeferredStart lc s
  | .conveyorComplete lc => Sys2Proof.Machine.execConveyorComplete lc s
  | .autoSurvey lc bank => Sys2Proof.Machine.execAutoSurvey lc bank s
  | .arrayIdle x => Sys2Proof.Machine.execArrayIdle x s
  | .currentClamp x => Sys2Proof.Machine.execCurrentClamp x s
  | .clampEnd lc x => Sys2Proof.Machine.execClampEnd lc x s
  | .traverseComplete lc e => Sys2Proof.Machine.execTraverseComplete lc e s
  | .translationRefused lc e req => Sys2Proof.Machine.execTranslationRefused lc e req s
  | .turaistTimeout lc e req train => Sys2Proof.Machine.execTuraistTimeout lc e req train s
  | .linkTrain train => Sys2Proof.Machine.execLinkTrain train s
  | .refusalProbe lc e accepted refusedAt => Sys2Proof.Machine.execRefusalProbe lc e accepted refusedAt s
  | .probeTimeout lc e => Sys2Proof.Machine.execProbeTimeout lc e s
  | .sidingMove lc cyc marchFail => Sys2Proof.Machine.execSidingMove lc cyc marchFail s
  | .paceLag lc => Sys2Proof.Machine.execPaceLag lc s
  | .monitorTrip sec kind value => Sys2Proof.Machine.execMonitorTrip sec kind value s
  | .monitorRecovered sec => Sys2Proof.Machine.execMonitorRecovered sec s
  | .smRestart cause ms image => Sys2Proof.Machine.execSmRestart cause ms image s
  | .thermalThreshold sensor temp => Sys2Proof.Machine.execThermalThreshold sensor temp s
  | .thermalCeilingStep sensor => Sys2Proof.Machine.execThermalCeilingStep sensor s
  | .powerSample r => Sys2Proof.Machine.execPowerSample r s
  | .timeSampleSet => Sys2Proof.Machine.execTimeSampleSet s
  | .timetablePeriod kind inst => Sys2Proof.Machine.execTimetablePeriod kind inst s
  | .patrolScrubRead stk => Sys2Proof.Machine.execPatrolScrubRead stk s
  | .eccWriteback lc mem word => Sys2Proof.Machine.execEccWriteback lc mem word s
  | .preservingMarch lc mem word fault => Sys2Proof.Machine.execPreservingMarch lc mem word fault s
  | .marchArm => Sys2Proof.Machine.execMarchArm s
  | .marchOverdue lc march => Sys2Proof.Machine.execMarchOverdue lc march s
  | .tabletWrite lc mem bank value => Sys2Proof.Machine.execTabletWrite lc mem bank value s
  | .bankPowerDone lc mem bank => Sys2Proof.Machine.execBankPowerDone lc mem bank s
  | .dataRx port f => Sys2Proof.Machine.execDataRx port f s
  | .ackRx port f => Sys2Proof.Machine.execAckRx port f s
  | .readyRx port f => Sys2Proof.Machine.execReadyRx port f s
  | .decisionRx port f => Sys2Proof.Machine.execDecisionRx port f s
  | .decReqRx port f => Sys2Proof.Machine.execDecReqRx port f s
  | .oosRx port f => Sys2Proof.Machine.execOosRx port f s
  | .wakeRx port f => Sys2Proof.Machine.execWakeRx port f s
  | .foreignFrameRx port f => Sys2Proof.Machine.execForeignFrameRx port f s
  | .buddyPairRx port f => Sys2Proof.Machine.execBuddyPairRx port f s
  | .buddyDataRx port f => Sys2Proof.Machine.execBuddyDataRx port f s
  | .buddyReadReqRx port f => Sys2Proof.Machine.execBuddyReadReqRx port f s
  | .buddyReadDataRx port f => Sys2Proof.Machine.execBuddyReadDataRx port f s
  | .buddySlotReqRx port f => Sys2Proof.Machine.execBuddySlotReqRx port f s
  | .buddySlotDataRx port f => Sys2Proof.Machine.execBuddySlotDataRx port f s
  | .retransmitTimeout port n => Sys2Proof.Machine.execRetransmitTimeout port n s
  | .busyRetry port n => Sys2Proof.Machine.execBusyRetry port n s
  | .peerAbsent port jslot midx => Sys2Proof.Machine.execPeerAbsent port jslot midx s
  | .flowRoundOpen port ctx => Sys2Proof.Machine.execFlowRoundOpen port ctx s
  | .flowRoundComplete port ctx => Sys2Proof.Machine.execFlowRoundComplete port ctx s
  | .contribDeadline port ctx chunk => Sys2Proof.Machine.execContribDeadline port ctx chunk s
  | .starterTimeout port ctx chunk => Sys2Proof.Machine.execStarterTimeout port ctx chunk s
  | .sourceReread port ctx chunk => Sys2Proof.Machine.execSourceReread port ctx chunk s
  | .pieceTransmit port n differs => Sys2Proof.Machine.execPieceTransmit port n differs s
  | .oosSend port => Sys2Proof.Machine.execOosSend port s
  | .commitStalled group => Sys2Proof.Machine.execCommitStalled group s
  | .roundCompletionLimit port ctx => Sys2Proof.Machine.execRoundCompletionLimit port ctx s
  | .ckptHoldRelease n => Sys2Proof.Machine.execCkptHoldRelease n s
  | .buddyAckTimeout => Sys2Proof.Machine.execBuddyAckTimeout s
  | .storePatrol block step overHalf => Sys2Proof.Machine.execStorePatrol block step overHalf s
  | .blockRefresh block target => Sys2Proof.Machine.execBlockRefresh block target s
  | .wearLevelMove block target => Sys2Proof.Machine.execWearLevelMove block target s
  | .grownBad block target => Sys2Proof.Machine.execGrownBad block target s
  | .storeDieLost channel die => Sys2Proof.Machine.execStoreDieLost channel die s
  | .cvStart u cfg => Sys2Proof.Machine.execCvStart u cfg s
  | .cvFeed u bytes => Sys2Proof.Machine.execCvFeed u bytes s
  | .cvValueWrite u value => Sys2Proof.Machine.execCvValueWrite u value s
  | .lockstepMismatch unit => Sys2Proof.Machine.execLockstepMismatch unit s
  | .inputRestored straps => Sys2Proof.Machine.execInputRestored straps s
  | .startUpStageEnd stage r => Sys2Proof.Machine.execStartUpStageEnd stage r s
  | .contributionReady port ctx chunk => Sys2Proof.Machine.execContributionReady port ctx chunk s
  | .rebuildEnd => Sys2Proof.Machine.execRebuildEnd s

end Sys2Proof.Machine
end

