-- ==== Sys2Proof/Safety.lean ====
section
/-! DEFINITION. What a safe run is: every step answers a next state, and the plain tables of the state stay in their canonical form. -/

namespace Sys2Proof.Machine

/-- Does a step answer a next state? -/
def State.steps (s : State) : Prop := ∃ t, step s = .next t

/-- The canonical form of the byte memories that the spec gives the block (09, 10, R326). -/
def State.memWf (s : State) : Bool :=
  Memory.wf s.dram.bytes && Memory.wf s.comp.bytes &&
    s.cl.all (fun e => Memory.wf e.2.mem.sp && Memory.wf e.2.mem.side && Memory.wf e.2.mem.seqm && Memory.wf e.2.vr.ftab)

/-- What every step keeps: the byte memories in canonical form, at most 16,384 entries in the fault log (R361), at most 1,024 queued events
(R351), at most 16 long commands outstanding (R339). -/
def State.inv (s : State) : Prop :=
  s.memWf = true ∧ s.flog.entries.length ≤ 16384 ∧ s.mb.evq.length ≤ 1024 ∧ s.mb.long.length ≤ 16

/-- Message m stands at the head of its ring as the command `op`, may be taken, and passes steps 1 to 5 of R337, which leave t. -/
def Taken (s : State) (m : Msg) (op : Nat) (t : State) : Prop := canTake s m = true ∧ mOpcode m = op ∧ judge s m = .inr t

/-- It is taken, and no body bit outside the fields `fs` is set. -/
def TakenArgs (s : State) (m : Msg) (op : Nat) (fs : List (Nat × Nat)) (t : State) : Prop := Taken s m op t ∧ strayBit m fs = none

/-- It is taken, no body bit outside its block's fields is set, and its argument block reads as l, which leaves t (R350). `m'` is the
message with the bits that share the address of the block taken out. -/
def TakenBlock (s : State) (m m' : Msg) (op : Nat) (l : List Byte) (t : State) : Prop :=
  ∃ t0, Taken s m op t0 ∧ readBlock t0 m' = .inr (l, t) ∧ strayBit m blockFields = none

/-- t is s but for what posting on the completion and event rings changes: companion memory, rings 4 and 5, the queue of events with its
number and its count of losses, the completions that wait, and the free counter. -/
def SameButPostings (s t : State) : Prop :=
  t = { s with free := t.free, comp := t.comp,
               mb := { s.mb with rings := t.mb.rings, evq := t.mb.evq, evNo := t.mb.evNo, lostSince := t.mb.lostSince, shorts := t.mb.shorts, owed := t.mb.owed } } ∧
    ∀ r, r ≠ 4 → r ≠ 5 → ringOf t r = ringOf s r

/-- A conveyor command of kind k heads the OPX queue as e and may start in cycle i with no other operation shifting or waiting: its predicate
held, no open pass of its stream goes first, it is in time, its addresses and its start checks pass, and no command that begins its accesses later
collides with it (R68, R73, R121, R150, R495). -/
def ConvHead (s : State) (lc cyc : Nat) (k : ConvKind) (e : QEntry) (i : Nat) : Prop :=
  opxPick s lc cyc (fun e => (cOp e.raw == oDRAIN || cOp e.raw == oLOAD || cOp e.raw == oSAVE || cOp e.raw == oSURVEY) && convKindOf e.raw == k &&
        (cStream e.raw == 0 || !e.live || !(convBusy (cluster s lc).opx cyc)))
      (fun c e i => (i + convLen c.opx e.raw - 1, convStreams c.opx e i)) = some (e, i) ∧
    convKindOf e.raw = k ∧ passFirst (cluster s lc) e i = false ∧ e.live = true ∧ isLate e cyc i = false ∧ convBound (cluster s lc) e = none ∧
    (cluster s lc).opx.conv = [] ∧ (cluster s lc).opx.convWait = [] ∧
    let u := cluster (modCluster s lc (fun c => dropEntry (atCycle c i) 0 e)) lc
    convChecks u e i = none ∧ (cStream e.raw = 0 → laterCollision (convStreams u.opx e i) (actFor u e) = none)

/-- Frame f of type `type` arrives at port p, which takes frames, and passes R286, R288, R290 and R319 with payload pl and state t. -/
def ReceivedPlain (s : State) (p : Nat) (f : Frame) (type : Nat) (pl : List Byte) (t : State) : Prop :=
  p < 8 ∧ (hdrOf f).type = type ∧ portsServe (frameActivity s p) = true ∧ frameMay (frameActivity s p) p = true ∧
    acceptFrame (frameActivity s p) p f = (some pl, t)

/-- Frame f so arrives, names job slot j, and its SEQ was not taken before (R291). -/
def Received (s : State) (p : Nat) (f : Frame) (type : Nat) (pl : List Byte) (j : Nat) (t : State) : Prop :=
  ReceivedPlain s p f type pl t ∧ jobSlot t (hdrOf f).job = some j ∧ takenStatus t (rxSpace p j (hdrOf f)) (hdrOf f).seq = none

/-- Frame f so arrives and names a job that is not this module's (R295, R318). -/
def UnknownJob (s : State) (p : Nat) (f : Frame) (type : Nat) (pl : List Byte) (t : State) : Prop :=
  ReceivedPlain s p f type pl t ∧ jobSlot t (hdrOf f).job = none

/-- The frame f of job slot j is taken at port p with effect t: it is remembered as taken and acknowledged ACCEPTED (R291). -/
def accepted (t : State) (p : Nat) (f : Frame) (j : Nat) : State :=
  flushEvents (sendAck (noteTaken t (rxSpace p j (hdrOf f)) (hdrOf f).seq ackACCEPTED) p f ackACCEPTED)

/-- A BUDDY frame of one of `kinds` arrives at port p, is accepted and carries b. -/
def ReceivedBuddy (s : State) (p : Nat) (f : Frame) (kinds : List Nat) (b : BuddyHdr) (j : Nat) (t : State) : Prop :=
  ∃ pl, Received s p f tBUDDY pl j t ∧ buddyPayload s p f = some pl ∧ buddyHdr pl = b ∧ kinds.contains b.kind = true

end Sys2Proof.Machine
end

