-- ==== Sys2Proof/Certificates/Slice0/Obligations.lean ====
section
/-! DEFINITION. The statements for the provers, in the order of OBLIGATIONS.json. -/

open Sys2Proof Sys2Proof.Machine

/-- A step runs the command at the front of the queue. Rests on R333, R337. -/
def Obligations.StepRunsFrontCommand : Prop :=
  ∀ (c : Instr) (r : List Instr) (s : State), step { s with pending := c :: r } = exec c { s with pending := r }

/-- A step on an empty queue lets one AON cycle pass. Rests on R415, Table 15-1, Table 15-7, R428, R435. That an empty queue stands for a cycle
is the model's choice (log 2). -/
def Obligations.EmptyQueueLetsOneCyclePass : Prop :=
  ∀ s : State, s.pending = [] →
    ∃ t, step s = .next t ∧
      (s.boot.phase = .off → t = s) ∧
      (s.boot.phase ≠ .off → (∀ p k, p < 2 → pinEdge s p = some k → s.clk.aon + 1 < k + 50) →
        t = { s with clk := t.clk, pw := { s.pw with clockLv := t.pw.clockLv, riseAt := t.pw.riseAt } } ∧
        t.clk.aon = s.clk.aon + 1 ∧
        t.clk.hub = s.clk.hub + (if hubClock s then 40 else 0) ∧ t.clk.nand = s.clk.nand + (if nandClock s then 36 else 0) ∧
        t.clk.mem = s.clk.mem + (if memClock s then 20 else 0) ∧ t.clk.host = s.clk.host + (if hostClock s then 20 else 0) ∧
        t.clk.fabQ = s.clk.fabQ + (if fabClock s then 125 else 0) ∧
        (∀ x k, (x, k) ∈ [(t.clk.arith0, 0), (t.clk.arith1, 1), (t.clk.arith2, 2), (t.clk.arith3, 3)] →
          ∀ y, (y, k) ∈ [(s.clk.arith0, 0), (s.clk.arith1, 1), (s.clk.arith2, 2), (s.clk.arith3, 3)] →
            x = y + (if arithClock s then 24 - 3 * min (clockLevel s k) 7 else 0)))

/-- Every step keeps the canonical memories and the bounded queues. Rests on R361, R351, R339, R232, R253. -/
def Obligations.StepKeepsInvariant : Prop :=
  ∀ s t : State, s.inv → step s = .next t → t.inv

/-- The invariant holds at reset. Rests on R361, R351, R339. -/
def Obligations.ResetMeetsInvariant : Prop :=
  State.reset.inv

/-- Every command answers a next state and leaves the rest of the queue alone. Rests on R333, R337, opcode_table.json. That a command whose
conditions the state does not meet answers next, mostly with the state unchanged, is the model's choice (log 1). -/
def Obligations.EveryCommandCompletesAndLeavesQueue : Prop :=
  ∀ (c : Instr) (s : State), s.inv → ∃ t, exec c s = .next t ∧ t.pending = s.pending ∧ t.inv

/-- Reset values of the state, the map, the rings, WAKE_CFG, the monitors, the ports, the commit groups and the checkpoint policy. Rests on
Table 1-6, Table 8-8, Table 11-11, Table 12-2, Table 13-8, Table 15-12. -/
def Obligations.ResetValues : Prop :=
  State.reset.op = .boot ∧ State.reset.sec = .sopen ∧ State.reset.dbg = 0 ∧ State.reset.pending = [] ∧
    (∀ lc, lc < 256 → lcEntry State.reset lc = ⟨lc % 64, true, 0⟩) ∧ State.reset.map.fenced = [] ∧
    State.reset.mb.en = false ∧ (∀ r, ringOf State.reset r = ⟨0, 0, 0, false, 0, 0, true, none, 0, none⟩) ∧
    State.reset.slp.cfg = 0x7FFFC1 ∧
    (∀ m, monitorOf State.reset m = ⟨false, 8, 256, 0x40C00000#32, 0x3A800000#32, 0, 0, 0, 0, 0, false, 0, 0⟩) ∧
    (∀ p, (portOf State.reset p).etype = 0x88B5 ∧ (portOf State.reset p).en = false) ∧
    (∀ g, (groupOf State.reset g).timeout = 100000) ∧
    State.reset.ckpt.policy = ⟨true, false, 4, 16, 0, 0, 0, false, 300, 21600, 604800, 0x3A800000#32, []⟩

/-- A message that passes steps 1 to 5 consumes one entry and moves the expected ALIVE. Rests on R336, R337, R338, R343, Table 12-3, Table 12-6.
A message whose CRC-32C and RING are right, whose ALIVE is the expected one (or the first after the ring was armed), that is not stale,
whose opcode is of the table with a body within its length, with reserved header bits 0, in a legal state, is judged further: its ring's
CONS moves by 1 modulo 512, the next expected ALIVE is ALIVE + 1 modulo 256, its OPCODE and SEQ are kept, the take is counted against the
other rings that wait (noteTake, R338), one unit is charged to the core that serves the mailbox (R420; one unit for a command's service is
the model's choice, log 45), takeAt keeps the place of the log at the take (log 3: an event logged before the take is posted before the
answer, R340), and nothing else changes. -/
def Obligations.MessageStepsAccept : Prop :=
  ∀ (s : State) (m : Msg) (n : Nat),
    bits m.raw 992 32 = crc32c (leBytes 124 m.raw.toNat) → mRing m = m.ring →
    ((ringOf s m.ring).first = true ∨ mAlive m = (ringOf s m.ring).e) →
    (m.ring = 0 ∨ isInfoOp (mOpcode m) = true ∨ m.ageUs ≤ 1000) →
    bodyMax (mOpcode m) = some n → mLen m ≤ n → bits m.raw 28 4 = 0 → bits m.raw 72 8 = 0 → legal s (mOpcode m) = true →
    let x := modRing (noteTake (chargeCore s 64) m.ring) m.ring (fun r => { r with cons := (r.cons + 1) % 512 })
    judge s m = .inr (modRing { x with mb := { x.mb with takeAt := s.flog.next } } m.ring
      (fun r => { r with e := (mAlive m + 1) % 256, first := false, last := some (mOpcode m, mSeq m) }))

/-- The first failing check of steps 1 to 5 decides the refusal. Rests on R336, R337, R338, R343, Table 12-4. -/
def Obligations.MessageStepsRefuse : Prop :=
  ∀ (s : State) (m : Msg),
    let bad := bits m.raw 992 32 != crc32c (leBytes 124 m.raw.toNat)
    let wrong := mRing m != m.ring
    let g := ringOf s m.ring
    let seqBad := !g.first && mAlive m != g.e
    let again := seqBad && mAlive m == (g.e + 255) % 256 && g.last == some (mOpcode m, mSeq m)
    let stale := m.ring != 0 && !(isInfoOp (mOpcode m)) && decide (1000 < m.ageUs)
    let x := modRing (noteTake (chargeCore s 64) m.ring) m.ring (fun r => { r with cons := (r.cons + 1) % 512 })
    let s1 := { x with mb := { x.mb with takeAt := s.flog.next } }
    let s2 := modRing s1 m.ring (fun r => { r with e := (mAlive m + 1) % 256, first := false, last := some (mOpcode m, mSeq m) })
    ((bad || wrong) = true → judge s m = .inl (checkError s1 m (b2n bad + 2 * b2n wrong))) ∧
    ((bad || wrong) = false → again = true → judge s m = .inl { s1 with mb := { s1.mb with repeatN := satAdd 16 s1.mb.repeatN 1 } }) ∧
    ((bad || wrong) = false → again = false → seqBad = true →
      judge s m = .inl (refuse s1 m stSEQ 2 (packFields [(g.e, 8), (mAlive m, 8)]))) ∧
    ((bad || wrong) = false → seqBad = false → stale = true → judge s m = .inl (busy s2 m 0)) ∧
    ((bad || wrong) = false → seqBad = false → stale = false → bodyMax (mOpcode m) = none → judge s m = .inl (refuse s2 m stUNSUPP 0 0)) ∧
    (∀ n, (bad || wrong) = false → seqBad = false → stale = false → bodyMax (mOpcode m) = some n →
      (bits m.raw 28 4 ≠ 0 ∨ bits m.raw 72 8 ≠ 0 ∨ n < mLen m) → judge s m = .inl (badArg s2 m (inBody 0))) ∧
    (∀ n, (bad || wrong) = false → seqBad = false → stale = false → bodyMax (mOpcode m) = some n →
      bits m.raw 28 4 = 0 → bits m.raw 72 8 = 0 → mLen m ≤ n → legal s (mOpcode m) = false → judge s m = .inl (stateRefused s2 m))

/-- Posting on a ring writes 128 bytes at BASE + 128 x (PROD mod 256) and moves PROD. Rests on R333, R335, R336, Table 12-3. -/
def Obligations.PostingWritesOneSlot : Prop :=
  ∀ (s : State) (r op fin seq st len body : Nat), s.inv →
    ∃ (alive : Nat) (t : State), t = postRing s r op fin seq st len body ∧ alive < 256 ∧
      t = { s with free := t.free, comp := t.comp, mb := { s.mb with rings := t.mb.rings } } ∧
      ((ringOf s r).first = false → alive = ((ringOf s r).e + 1) % 256 ∧ t.free = s.free) ∧
      ringOf t r = { ringOf s r with prod := ((ringOf s r).prod + 1) % 512, e := alive, first := false } ∧
      (∀ q, q ≠ r → ringOf t q = ringOf s q) ∧
      (messageBytes op alive r fin seq st len s.clk.hub body).length = 128 ∧
      (messageBytes op alive r fin seq st len s.clk.hub body).drop 124 =
        leBytes 4 (crc32c ((messageBytes op alive r fin seq st len s.clk.hub body).take 124)) ∧
      memRead t.comp.bytes ((ringOf s r).base * 32768 + 128 * ((ringOf s r).prod % 256)) 128 =
        messageBytes op alive r fin seq st len s.clk.hub body ∧
      ∀ a, (a < (ringOf s r).base * 32768 + 128 * ((ringOf s r).prod % 256) ∨
          (ringOf s r).base * 32768 + 128 * ((ringOf s r).prod % 256) + 128 ≤ a) → memByte t.comp.bytes a = memByte s.comp.bytes a

/-- Completions and events change nothing but companion memory, rings 4 and 5, what waits for them, and the free counter. Rests on R333, R334,
R351. -/
def Obligations.PostingsChangeNothingElse : Prop :=
  ∀ (s : State) (m : Msg) (fin : Bool) (st len body : Nat),
    SameButPostings s (complete s m fin st len body) ∧ SameButPostings s (ok s m len body) ∧ SameButPostings s (flushEvents s)

/-- Accepting a long command posts ACCEPTED and keeps the message among the outstanding ones. Rests on R339, R342. -/
def Obligations.LongCommandAccepted : Prop :=
  ∀ (s : State) (m : Msg) (aux : Nat),
    (longN s < 16 → ∃ x est, est < 2 ^ 32 ∧ x = complete { s with free := s.free + 1 } m false stACCEPTED 4 est ∧
      accept s m aux (fun s => s) = { x with mb := { x.mb with long := s.mb.long ++ [⟨m, aux, s.flog.next⟩] } }) ∧
    (16 ≤ longN s → ∀ f, accept s m aux f = busy s m 2)

/-- GET_INFO, GET_STATE, GET_FAULT_LOG, GET_POWER_STATS and BUDGET_GET complete OK with their report. Rests on R346, R347, R361, R424, R437,
R350. GET_FAULT_LOG also writes the retained entries from FIRST, at most MAX, oldest first, at 64 bytes each into the buffer in companion
memory, charged to the mailbox core, after a read of each entry's word of hub SRAM under its codes (R233; which words of hub SRAM hold the
entries is the model's choice, log 9). -/
def Obligations.ReportCommandsComplete : Prop :=
  (∀ s m t, TakenArgs s m 0x0001 [] t → exec (.getInfo m) s = .next (flushEvents (ok t m 68 (infoBody t)))) ∧
  (∀ s m t, TakenArgs s m 0x0002 [] t → exec (.getState m) s = .next (flushEvents (ok t m 26 (stateBody t)))) ∧
  (∀ s m t, TakenArgs s m 0x0003 [(0, 48), (64, 48)] t → 1 ≤ mb m 32 16 → mb m 32 16 ≤ 4096 → mb m 64 48 + 64 * mb m 32 16 ≤ 2 ^ 47 →
    let es := logSlice t.flog (mb m 0 32) (mb m 32 16)
    let first := max (mb m 0 32) (t.flog.next - t.flog.entries.length)
    let u := (rangeFrom first es.length).foldl (fun u i => hubTouch u (32768 + i % 16384)) t
    exec (.getFaultLog m) s = .next (flushEvents (ok { chargeCore u (64 * es.length) with comp := compWrite u.comp (mb m 64 48) (es.flatMap entryBytes) false } m 8
      (packFields [(es.length, 32), (if es.isEmpty then t.flog.next else first + es.length, 32)])))) ∧
  (∀ s m t, TakenArgs s m 0x0033 [] t →
    exec (.getPowerStats m) s = .next (flushEvents (ok t m 32 (packFields [(t.pw.sample.p, 16), (t.pw.sample.avg1s, 16), (powerLimit t, 16),
      (perfBits t, 12), (b2n t.pw.couple, 1), (0, 3), (t.pw.energy / 1000000, 64), (t.pw.powerSteps, 16), (t.pw.clampSteps, 16),
      (t.pw.thermSteps, 16), (t.slp.refusedN, 16), (t.pw.sampleAon, 64)])))) ∧
  (∀ s m t, TakenArgs s m 0x0071 [(0, 13)] t → mb m 0 4 ≤ 5 → mb m 4 9 < ttInstances (mb m 0 4) →
    exec (.budgetGet m) s = .next (flushEvents (ok t m 54 (packFields ([0, 1, 2, 3, 4, 5, 6, 7, 8].map (fun a => (ttBudget t (mb m 0 4) a, 32)) ++
      [0, 1, 2, 3, 4, 5, 6, 7, 8].map (fun a => ((ttCell t (mb m 0 4) (mb m 4 9) a).waitN, 16)))))))

/-- The body of GET_STATE carries the state in the fields of Table 12-8. Rests on R347, Table 12-8. -/
def Obligations.GetStateBodyFields : Prop :=
  ∀ s : State,
    natBits (stateBody s) 0 4 = mbOp s % 16 ∧ natBits (stateBody s) 4 2 = s.sec.code ∧ natBits (stateBody s) 6 2 = s.dbg % 4 ∧
    natBits (stateBody s) 8 12 = perfBits s % 4096 ∧ natBits (stateBody s) 20 8 = longN s % 256 ∧ natBits (stateBody s) 28 4 = 0 ∧
    natBits (stateBody s) 32 32 = s.su.tenant % 2 ^ 32 ∧ natBits (stateBody s) 64 64 = stateStep s % 2 ^ 64 ∧
    natBits (stateBody s) 128 32 = wholeNext s % 2 ^ 32 ∧ natBits (stateBody s) 160 32 = s.prog.replayN % 2 ^ 32 ∧
    natBits (stateBody s) 192 16 = s.mb.evtLost % 65536

/-- SET_PERF, SET_WAKE, BUDGET_SET and FABRIC_CONFIG set what their bodies say. Rests on R427, R435, R424, R288, R324. FABRIC_CONFIG writes
PORT_CFG and PORT_MAC of all eight ports (the body layout is the model's, log 15). -/
def Obligations.LevelAndBudgetCommandsComplete : Prop :=
  (∀ s m t, TakenArgs s m 0x0030 [(0, 13)] t →
    let u := { t with pw := { t.pw with req0 := mb m 0 3, req1 := mb m 3 3, req2 := mb m 6 3, req3 := mb m 9 3, couple := mb m 12 1 == 1 } }
    let v := sampleOnChange t (refreshPowerAlert u)
    exec (.setPerf m) s = .next (flushEvents (ok v m 2 (packFields [(perfBits v, 12), (b2n v.pw.couple, 1)])))) ∧
  (∀ s m t, TakenArgs s m 0x0032 [(0, 64)] t →
    exec (.setWake m) s = .next (flushEvents (ok { t with slp := { t.slp with cfg := mb m 0 23 } } m 0 0))) ∧
  (∀ s m t, TakenArgs s m 0x0070 [(0, 8), (32, 32)] t → mb m 0 4 ≤ 5 → mb m 4 4 ≤ 8 → (ttPermille (mb m 0 4) (mb m 4 4)).isSome = true →
    ttMin (mb m 0 4) (mb m 4 4) ≤ mb m 32 32 → budgetSum t (mb m 0 4) (mb m 4 4) (mb m 32 32) ≤ ttCapacity (mb m 0 4) * 256 →
    exec (.budgetSet m) s = .next (flushEvents (ok { t with tt := { t.tt with budgets := spPut t.tt.budgets (16 * mb m 0 4 + mb m 4 4) (mb m 32 32) } } m 4
      (packFields [(ttCapacity (mb m 0 4) * 256 - budgetSum t (mb m 0 4) (mb m 4 4) (mb m 32 32), 32)])))) ∧
  (∀ s m t, TakenArgs s m 0x0060 [(0, 33), (64, 48)] t → mb m 64 3 = 0 →
    exec (.fabricConfig m) s = .next (flushEvents (ok ([0, 1, 2, 3, 4, 5, 6, 7].foldl (fun u p => modPort u p (fun q =>
      { q with etype := mb m 0 16, en := mb m 16 1 == 1, vlanEn := mb m 17 1 == 1, pcp := mb m 18 3, vid := mb m 21 12, mac := mb m 64 48 })) t) m 0 0)))

/-- ASSIGN_TENANT, SEAL, DEBUG_OPEN of levels 1 and 2, and DEBUG_CLOSE complete. Rests on R448, R449, R454, Table 16-5, Table 16-9. -/
def Obligations.TenancyCommandsComplete : Prop :=
  (∀ s m l t, TakenBlock s m m 0x0010 l t → l.length = 1540 → (∀ t0, judge s m = .inr t0 → t0.dbg ≠ 3) → assignBad l = none →
      t.dbg ≤ natBits (byteField (l.drop 1028) 0 4) 16 2 →
    exec (.assignTenant m) s = .next (flushEvents (if policySigned (l.drop 1028) then
        ok (changeState { t with win := sparseOf .reset ((List.range 64).map (fun k => winParse (byteField l (4 + 16 * k) 16))), su := { t.su with tenant := byteField l 0 4, policy := l.drop 1028, wdigFull := false, wkeys := [], fkeys := [], ckey := none, wdig := [], entries := [], reports := [] } } t.op .assigned) m 0 0
      else notAuth t m))) ∧
  (∀ s m t, TakenArgs s m 0x0011 [] t → t.dbg ≤ dbgMax t →
    exec (.seal m) s = .next (flushEvents (ok (closeHwins (changeState t t.op .sealed) (fun w => !(hwinMay (changeState t t.op .sealed) w))) m 0 0))) ∧
  (∀ s m t, TakenArgs s m 0x0080 [(0, 3)] t → (dbLevel m = 1 ∨ dbLevel m = 2) → t.dbg ≤ dbLevel m → longOf t 0x0012 = false →
      debugOutcome t (dbLevel m) (dbScrubOk m) = some false →
    exec (.debugOpen m) s = .next (flushEvents (ok (setDbg t (dbLevel m)) m 1 (dbLevel m)))) ∧
  (∀ s m t, TakenArgs s m 0x0081 [] t → t.dbg ≠ 3 → exec (.debugClose m) s = .next (flushEvents (ok (setDbg t 0) m 0 0)))

/-- The start of a scrub ends flows, jobs and windows, and its end leaves nothing of the tenant in module, memories and clusters. Rests on R450,
R451, R444, R403, Table 16-6. -/
def Obligations.ScrubErasesTenant : Prop :=
  (∀ (s : State) (m : Msg) (k : Nat), s.boot.phase ≠ .safe →
    let t := beginScrub s m k
    (∀ p c, flowOf t p c = .reset) ∧ (∀ j, jobOf t j = .reset) ∧ t.fab.stages = [] ∧ (∀ n, n < 16 → (hwinOf t n).en = false) ∧
      t.flash.scrubMark = true ∧ t.op = .scrubbing ∧ t.su.stage = 1) ∧
  (∀ (s : State) (l : LongCmd) (w : WorkResult),
    mOpcode l.m = 0x0012 → s.boot.phase ≠ .safe → (pickCopy s.flash.fwA s.flash.fwB (fun i => i.good) false).isSome = true →
    ∃ t, finishLong s l w = t ∧ t.op = .idle ∧ t.sec = .sopen ∧ t.dbg = s.su.toDbg ∧
      t.su.tenant = 0 ∧ t.su.policy = [] ∧ t.su.wkeys = [] ∧ t.su.fkeys = [] ∧ t.su.ckey = none ∧ t.su.wdig = [] ∧ t.su.entries = [] ∧
      t.su.reports = [] ∧ t.su.vtDigest = none ∧ t.su.stage = 0 ∧ t.win = [] ∧ t.train = .reset ∧ t.sect = [] ∧ t.prog = .reset ∧
      t.dram.bytes = [] ∧ t.dram.err = [] ∧ t.dram.poison = w.stubborn.foldl (fun p g => setAdd p (granKey g.1 (64 * g.2))) [] ∧
      t.flash.scrubMark = false ∧ t.store.laid = none ∧ t.store.copies = [] ∧
      (∀ lc, lc < 256 →
        let c := cluster t lc
        let o := cluster s lc
        c.mem.sp = [] ∧ c.mem.side = [] ∧ c.mem.seqm = [] ∧ c.seq = .reset ∧ c.log = .reset ∧ c.handles = [] ∧
        c.inConsist = false ∧ c.pausing = false ∧ c.pausedOk = false ∧ c.opx = { Opx.reset with evMismatches := o.opx.evMismatches } ∧
        c.vr = { VecRow.reset with ctxRefused := o.vr.ctxRefused, poisonRows := o.vr.poisonRows, drainFull := o.vr.drainFull } ∧
        c.t0 = scrubTrv o.t0 ∧ c.t1 = scrubTrv o.t1 ∧ c.t2 = scrubTrv o.t2 ∧ c.t3 = scrubTrv o.t3))

/-- The long commands are accepted when their arguments are right. Rests on R339, R348, R440, R252, R384, R387, R389, R385, R450, R446, R467,
R293. That a FW_UPDATE's image is found in its block by an opaque function (log 15), and that the bodies of RUN_MARCH have the model's
layout (log 15), are the model's choices. -/
def Obligations.LongCommandsBegin : Prop :=
  (∀ s m t, TakenArgs s m 0x0020 loadFields t → loadArgBad t m = none → longOf t 0x0020 = false → longN t < 16 →
    exec (.loadConsist m) s = .next (flushEvents (accept t m 0 (fun u => u)))) ∧
  (∀ s m t, TakenArgs s m 0x0013 [(0, 560), (576, 32)] t → mb m 512 48 % 64 = 0 → mb m 512 48 + attestLen t ≤ 2 ^ 47 → attestLen t ≤ mb m 576 32 →
    longN t < 16 → exec (.attest m) s = .next (flushEvents (accept t m 0 (fun u => u)))) ∧
  (∀ s m t, TakenArgs s m 0x0041 bankFields t → bankBad t m = none → mb m 74 2 ≠ 3 →
    (∀ b, b ∈ maskBanks (mb m 8 64) (mb m 72 2) → tablet (cluster t (mb m 0 8)).mem (mb m 72 2) b = 1) →
    marchHolds t (mb m 0 8) (mb m 72 2) (maskBanks (mb m 8 64) (mb m 72 2)) = false → ¬(t.op = .loaded ∧ mb m 72 2 = 2 ∧ mb m 74 2 = 0) → longN t < 16 →
    exec (.runMarch m) s = .next (flushEvents (accept t m 0 (fun u => noteRunning u (mb m 0 8))))) ∧
  (∀ s m t, TakenArgs s m 0x0050 [(0, 1)] t → t.su.ckey.isSome = true → t.ckpt.cur = none → (retryMount t).store.ready = true → longN (retryMount t) < 16 →
    exec (.ckptWrite m) s = .next (flushEvents (accept (retryMount t) m 0 (fun u => { u with ckpt := (if mb m 0 1 = 1 then { u.ckpt with nowSeqs := u.ckpt.nowSeqs ++ [BitVec.ofNat 32 (mSeq m)] } else { u.ckpt with waitSeqs := u.ckpt.waitSeqs ++ [BitVec.ofNat 32 (mSeq m)] }) })))) ∧
  (∀ s m t, TakenArgs s m 0x0051 [(0, 2), (32, 32), (64, 64)] t → rsSource m ≠ 3 → (rsSource m = 1 → t.ckpt.buddy.isSome = true) →
    (rsSource m = 0 → (retryMount t).store.ready = true ∧ (localCopy (retryMount t) (rsCkpt m)).isSome = true) →
    t.ckpt.cur = none → longOf t 0x0051 = false → longN (retryMount t) < 16 →
    exec (.ckptRestore m) s = .next (flushEvents (accept (retryMount t) m 0 (fun u =>
      let v := { (noteInterruption u) with ckpt := { (noteInterruption u).ckpt with read := [] } }
      if rsSource m = 1 then
        match v.ckpt.buddy with
        | some b => (sendBuddy v b.port b.jslot b.midx bREADREQ (rsCkpt m) 0 0 []).2
        | none => v
      else if v.store.ready then setReader v (rsCkpt m) else v)))) ∧
  (∀ s m t r, TakenArgs s m 0x0052 [] t → t.ckpt.restored = some r → r.sealed.isSome = true →
    t.ckpt.policy.lossV = true → t.ckpt.cur = none → t.ckpt.verify = none → longOf t 0x0051 = false → longN (retryMount t) < 16 →
    exec (.ckptVerify m) s = .next (flushEvents (accept (retryMount t) m 0 (fun u => { u with ckpt := { u.ckpt with verify := some (BitVec.ofNat 32 (mSeq m)) } })))) ∧
  (∀ s m t x, TakenArgs s m 0x0054 [(0, 48), (48, 3), (52, 12)] t → longOf t 0x0054 = false →
    (jobOf t (mb m 52 12)).valid = true → memberOfMac t (mb m 52 12) (mb m 0 48) = some x → longN t < 16 →
    exec (.buddyPair m) s = .next (flushEvents (accept t m x (fun u => (sendBuddy u (mb m 48 3) (mb m 52 12) x bPAIR 0 0 0 []).2)))) ∧
  (∀ s m t, TakenArgs s m 0x0012 [] t → longOf t 0x0013 = false → longOf t 0x0014 = false → longN t < 16 →
    exec (.releaseTenant m) s = .next (flushEvents (accept t m 0 (fun u => beginScrub u m 0)))) ∧
  (∀ s m l t, TakenBlock s m m 0x0014 l t → l.length = 304 → keyBad t l = none → (kiClear l = true ∨ (reportListed t l = true ∧ (unwrapKey t l).isSome = true)) → keyInUse t l = false → longN t < 16 →
    exec (.keyImport m) s = .next (flushEvents (accept t m (ofLe l) (fun u => u)))) ∧
  (∀ s m l t, TakenBlock s m m 0x0090 l t → longOf t 0x0090 = false → longN t < 16 →
    exec (.fwUpdate m) s = .next (flushEvents (if (Config.fwImage (ofLe l)).2.good = true then accept t m (ofLe l) (fun u => u) else notAuth t m))) ∧
  (∀ s m l t k, TakenBlock s m m 0x0061 l t → joinLen l = true → joinBad t l = none → freeSlot t = some k →
    joinSpent t (jobConfig (byteField l 0 64)) = false → longOf t 0x0062 = false → longN t < 16 →
    exec (.ringJoin m) s = .next (flushEvents (accept (chargeCore t l.length) m k (fun u => writeTables u k l)))) ∧
  (∀ s m t, TakenArgs s m 0x0062 [(0, 12), (12, 2), (16, 16)] t → (jobOf t (rlSlot m)).valid = true → longOf t 0x0062 = false →
    longN t < 16 →
    (rlOp m = 0 → rlMidx m < (jobOf t (rlSlot m)).p * (jobOf t (rlSlot m)).g → rlMidx m ≠ (jobOf t (rlSlot m)).midx →
      exec (.ringLeaveRemove m) s = .next (flushEvents (accept t m 0 (fun u => u)))) ∧
    (rlOp m = 1 → setHas (jobOf t (rlSlot m)).removed (rlMidx m) = true → t.op = .paused →
      exec (.ringLeaveReadmit m) s = .next (flushEvents (accept t m 0 (fun u => u)))) ∧
    (rlOp m = 2 → rlMidx m = 0 → exec (.ringLeaveLeave m) s = .next (flushEvents (accept t m 0 (fun u => u)))))

/-- LONG_COMMAND_FINAL ends the command that its SEQ names: the ends of ATTEST, FW_UPDATE and KEY_IMPORT, and the final completion. Rests on
R339, R340, R341, R440, R442, R445, R446, R467. That the image of FW_UPDATE is found in its block by an opaque function is the model's
choice (log 15), as are the estimates of the work's charges (log 45). -/
def Obligations.LongCommandFinalCompletes : Prop :=
  (∀ s seq w l, s.mb.long.find? (fun l => BitVec.ofNat 32 (mSeq l.m) == seq) = some l → hubRuns s = true →
    (haltedOut s l = true → exec (.longCommandFinal seq w) s = .next (flushEvents (refuseHalted s l))) ∧
    (haltedOut s l = false → admits s (longCells l).1 (longCells l).2 = true →
      exec (.longCommandFinal seq w) s = .next (flushEvents (finishLong s l w)) ∧
      (mOpcode l.m = 0x0013 →
        let n := (s.su.reportN + 1) % 2 ^ 32
        let r := reportBytes s (mb l.m 0 512) n
        let u := { s with comp := compWrite (compWrite s.comp (mb l.m 512 48) r false) (mb l.m 512 48 + 0x900) (certificates s) false, su := { s.su with reportN := n, reports := (sha512 r :: s.su.reports).take 8 } }
        exec (.longCommandFinal seq w) s = .next (flushEvents (finish u l.m stOK 8 (packFields [(attestLen s, 32), (n, 32)])))) ∧
      (mOpcode l.m = 0x0090 →
        let i := (Config.fwImage l.aux).2
        let b := s.boot
        let f := s.flash
        let k := (Config.fwImage l.aux).1
        exec (.longCommandFinal seq w) s = .next (flushEvents (finish { s with flash := (if k = 0 then (if b.loaderCopy = 0 then { f with loaderB := i } else { f with loaderA := i }) else if k = 1 then (if b.fwCopy = 0 then { f with fwB := i } else { f with fwA := i }) else if k = 2 then (if b.sbCopy = 0 then { f with sbB := i } else { f with sbA := i }) else if b.cfgCopy = 0 then { f with cfgB := i } else { f with cfgA := i }) } l.m stOK 0 0))) ∧
      (mOpcode l.m = 0x0014 →
        (kiClear (leBytes 304 l.aux) = true → exec (.longCommandFinal seq w) s =
          .next (flushEvents (finish (applyKey s (leBytes 304 l.aux) none) l.m stOK 0 0))) ∧
        (kiClear (leBytes 304 l.aux) = false → exec (.longCommandFinal seq w) s =
          .next (flushEvents (match unwrapKey s (leBytes 304 l.aux) with
            | some k => finish (applyKey s (leBytes 304 l.aux) (some k)) l.m stOK 0 0
            | none => finish s l.m stNOTAUTH 0 0)))))) ∧
  (∀ s seq w, (s.mb.long.find? (fun l => BitVec.ofNat 32 (mSeq l.m) == seq) = none ∨ hubRuns s = false) →
    exec (.longCommandFinal seq w) s = .next s) ∧
  (∀ s m len body, let u := { s with mb := { s.mb with long := s.mb.long.eraseP (isCmd m) } }
    let since := ((s.mb.long.find? (isCmd m)).map (fun l => l.since)).getD s.flog.next
    let aux := ((s.mb.long.find? (isCmd m)).map (fun l => l.aux)).getD 0
    (finalWaits u m since = false → finish s m stOK len body = postFinal u ⟨m, aux, since, stOK, len, body⟩) ∧
    (finalWaits u m since = true →
      finish s m stOK len body = { u with mb := { u.mb with owed := s.mb.owed ++ [⟨m, aux, since, stOK, len, body⟩] } }))

/-- START, PAUSE, RESUME and STOP of a legal state begin their change of state, and PATCH_PRM stages its values. Rests on R345, R90, R349, R125. -/
def Obligations.ProgramControlCompletes : Prop :=
  (∀ s m t, TakenArgs s m 0x0022 [] t → anyMarch t = false →
    let u := setOp (freshRun { t with ckpt := t.ckpt.beginStep t.clk.aon }) .running
    exec (.start m) s = .next (flushEvents (ok ((consistLcs u).foldl startCluster u) m 0 0))) ∧
  (∀ s m t, TakenArgs s m 0x0023 [] t → t.mb.pauseOf = none →
    exec (.pause m) s = .next (flushEvents (reserve { (requestPause t) with mb := { (requestPause t).mb with pauseOf := some m } } m))) ∧
  (∀ s m t, TakenArgs s m 0x0024 [] t →
    let u := setOp t .running
    exec (.resume m) s = .next (flushEvents (ok ((consistLcs u).foldl resumeCluster u) m 0 0))) ∧
  (∀ s m t, TakenArgs s m 0x0025 [] t →
    (t.op = .loaded → exec (.stop m) s = .next (flushEvents (ok (setOp (releaseConsist t) .idle) m 0 0))) ∧
    (t.op ≠ .loaded → exec (.stop m) s = .next (flushEvents (ok (answerPause (setOp ((consistLcs t).foldl (fun u lc => modCluster u lc stopOne) t) .loaded)) m 0 0)))) ∧
  (∀ s m t, Taken s m 0x0021 t → 1 ≤ mb m 0 8 → mb m 0 8 ≤ 6 →
    strayBit m ((0, 8) :: (List.range (mb m 0 8)).flatMap (fun i => [(64 + 128 * i, 9), (64 + 128 * i + 16, 8), (64 + 128 * i + 64, 64)])) = none →
    (∀ i, i < mb m 0 8 → patchBad t ((List.range (mb m 0 8)).map (patchAt m)) i (patchAt m i) = none) →
    exec (.patchPrm m) s = .next (flushEvents (ok (((List.range (mb m 0 8)).map (patchAt m)).foldl (fun u p => (patchLcs u p).foldl (fun u lc =>
      modCluster u lc (fun c => { c with seq := { c.seq with staged := spPut c.seq.staged p.reg (p.value + 1) } })) u) t) m 0 0)))

/-- A cluster reports itself paused, and the consist ends. Rests on R90, R345, R91. -/
def Obligations.PauseAndEndOfConsist : Prop :=
  (∀ s lc, s.op = .running → (cluster s lc).inConsist = true → (cluster s lc).pausing = true → (cluster s lc).opx.hold = 3 →
      ((cluster s lc).seq.stop.isSome = true ∨ (cluster s lc).opx.conv = [] ∧ (cluster s lc).opx.convWait = []) →
    let t := modCluster s lc (fun c =>
      { (saveBank lc true (saveBank lc false c)) with pausing := false, pausedOk := true, opx := { (saveBank lc true (saveBank lc false c)).opx with paused := true } })
    exec (.clusterPaused lc) s = (if (consistLcs t).all (fun k => (cluster t k).pausedOk) then .next (flushEvents (answerPause (setOp t .paused)))
      else .next t)) ∧
  (∀ s, s.op = .running → s.prog.loaded = true →
      (∀ lc, lc ∈ consistLcs s → (cluster s lc).seq.wait = .done ∧ quiet (cluster s lc) = true ∧ (cluster s lc).seq.stop = none) →
    let t := (consistLcs s).foldl (fun u lc => modCluster u lc (fun c => setHold { c with seq := { c.seq with wait := .start }, pausing := false })) s
    let v := logEvent (setOp t .loaded) 0x000C 7 7 0 noLink 0
    exec .consistEnd s = .next (flushEvents (answerPause v)))

/-- BANK_HANDOVER, CKPT_POLICY and FLOW_OPEN complete. Rests on R252, R240, R383, R295, R296, R321. BANK_HANDOVER moves every named tablet
between ENGINES and MARCH, by a layout of its body and a direction that are the model's choice (log 15). -/
def Obligations.HandoverPolicyAndFlowCommandsComplete : Prop :=
  (∀ s m t, TakenArgs s m 0x0040 [(0, 8), (8, 64), (72, 2)] t → bankBad t m = none →
      (∀ b, b ∈ maskBanks (mb m 8 64) (mb m 72 2) → tablet (cluster t (mb m 0 8)).mem (mb m 72 2) b ≤ 1) →
      marchHolds t (mb m 0 8) (mb m 72 2) (maskBanks (mb m 8 64) (mb m 72 2)) = false →
    exec (.bankHandover m) s = .next (flushEvents (ok (modMem t (mb m 0 8) (fun c =>
      (maskBanks (mb m 8 64) (mb m 72 2)).foldl (fun c b => setTab c (mb m 72 2) b (1 - tablet c (mb m 72 2) b)) c)) m 0 0))) ∧
  (∀ s m l t, TakenBlock s m m 0x0053 l t → 32 ≤ l.length →
      l.length = 32 + 16 * natBits (byteField l 0 32) 192 7 → policyBad t l = none →
    exec (.ckptPolicy m) s = .next (flushEvents (ok { (retryMount t) with ckpt := { (retryMount t).ckpt with policy := policyParse l } } m 0 0))) ∧
  (∀ s m l t, TakenBlock s m (foBlockMsg m) 0x0063 l t → l.length = 128 → (flowOf t (foPort m) (foCtx m)).valid = false →
      flowBad t (byteField l 0 128) = none →
      flowSpent t (foPort m) (foCtx m) (jobOf t (flowConfig (byteField l 0 128)).jslot) = false →
    exec (.flowOpen m) s = .next (flushEvents (ok (openFlow t (foPort m) (foCtx m) (flowConfig (byteField l 0 128))) m 2
      (cfgchkOf (flowConfig (byteField l 0 128))))))

/-- Writes of MB_CTL, the ring indices and the host windows do what Table 12-2 says. Rests on R332, R333, R336, R331, Table 12-2. -/
def Obligations.MailboxPageCommandsComplete : Prop :=
  (∀ s, apertureUp s = true → s.mb.en = false →
    let u := [0, 1, 2, 3, 4, 5].foldl (fun u r => modRing u r (fun g => { g with first := true })) s
    exec (.mbCtlEn true) s = .next (flushEvents { u with mb := { u.mb with en := true } })) ∧
  (∀ s, apertureUp s = true → s.mb.en = true → exec (.mbCtlEn false) s = .next (flushEvents { s with mb := { s.mb with en := false } })) ∧
  (∀ s, apertureUp s = true → s.mb.en = false →
    let u := [0, 1, 2, 3, 4, 5].foldl (fun u r => modRing u r (fun g => { g with prod := 0, cons := 0, sigd := 0 })) s
    exec .mbCtlRst s = .next ([0, 1, 2, 3, 4, 5].foldl (fun u r => modRing u r (fun g => { g with first := true })) u)) ∧
  (∀ s, apertureUp s = true → s.mb.en = true → exec .mbCtlRst s = .next s) ∧
  (∀ s r v, apertureUp s = true → r < 4 → sleepTarget s = none →
    ((v.toNat + 512 - (ringOf s r).cons) % 512 ≤ 256 → exec (.doorbell r v) s = .next (modRing s r (fun g => { g with prod := v.toNat }))) ∧
    (256 < (v.toNat + 512 - (ringOf s r).cons) % 512 →
      exec (.doorbell r v) s = .next { s with mb := { s.mb with idxBad := satAdd 16 s.mb.idxBad 1 } })) ∧
  (∀ s r v, apertureUp s = true → (r = 4 ∨ r = 5) →
    (((ringOf s r).prod + 512 - v.toNat) % 512 ≤ 256 →
      exec (.ringConsWrite r v) s = .next (flushEvents (modRing s r (fun g => { g with cons := v.toNat })))) ∧
    (256 < ((ringOf s r).prod + 512 - v.toNat) % 512 →
      exec (.ringConsWrite r v) s = .next { s with mb := { s.mb with idxBad := satAdd 16 s.mb.idxBad 1 } })) ∧
  (∀ s r, apertureUp s = true → (r = 4 ∨ r = 5) → (ringOf s r).irqEn = true → (ringOf s r).prod ≠ (ringOf s r).sigd →
      (∀ x, (ringOf s r).irqAt = some x → x + 200 ≤ s.clk.aon) →
    exec (.ringIrqWrite r) s = .next (modRing { s with comp := compWrite s.comp ((ringOf s r).irqAddr * 4) (leBytes 4 ((ringOf s r).prod + 65536 * r)) false } r
      (fun g => { g with sigd := g.prod, irqAt := some s.clk.aon }))) ∧
  (∀ s r x, (ringOf s r).irqAt = some x → s.clk.aon < x + 200 → exec (.ringIrqWrite r) s = .next s) ∧
  (∀ s n rd wr, apertureUp s = true → n < 16 → (hwinOf s n).en = false →
    exec (.hwinOpen n rd wr) s = .next { s with mb := { s.mb with hwin := spMod .reset s.mb.hwin n (fun w => { w with en := hwinMay s (hwinOf s n), rd := rd, wr := wr, refused := !(hwinMay s (hwinOf s n)) }) } })

/-- A register write takes effect in RW fields only. Rests on R7, R333, R94, R435, Table 12-2, Table 3-12, Table 1-6. That a reserved RAMP or
SAVE_BASE is ignored is the model's choice (log 31). That no write reaches the cluster map is the model's reading (log 31): Table 1-6 gives
LCMAP the access code RO, and R34 says that the stationmaster writes it, which the rows of siding moves, start-up and MARCH failures do
here. -/
def Obligations.RegisterWriteFollowsAccessCode : Prop :=
  (∀ s r v, apertureUp s = true → r < 6 → s.mb.en = false →
    exec (.registerWrite true (0x100 + 0x20 * r) v) s = .next (modRing s r (fun g => { g with base := bits v 15 32 }))) ∧
  (∀ s o v, apertureUp s = true → (o = 8 ∨ o = 0x10 ∨ o = 0x18 ∨ o = 0x20) → exec (.registerWrite true o v) s = .next s) ∧
  (∀ s lc v, hubRuns s = true → s.boot.phase = .up → lc < 256 → s.op ≠ .running → s.op ≠ .paused → bits v 0 3 ≤ 4 → bits v 4 10 ≤ 0x3BC →
    exec (.registerWrite false (0x7F0000200000 + 0x40 * lc) v) s =
      .next (modCluster s lc (fun c => { c with opx := { c.opx with ramp := bits v 0 3, saveBase := bits v 4 10 } }))) ∧
  (∀ s v, hubRuns s = true → s.boot.phase = .up →
    exec (.registerWrite false 0x7F0000F10010 v) s = .next { s with slp := { s.slp with cfg := bits v 0 23 } }) ∧
  (∀ s o v, hubRuns s = true → s.boot.phase = .up → o % 8 = 0 →
    (0x10000 ≤ o ∧ o < 0x10400 ∨ 0xF20000 ≤ o ∧ o < 0xF20018 ∨ o = 0xF10000 ∨ o = 0xF10008 ∨ 0xF30000 ≤ o ∧ o < 0xF30010) →
    exec (.registerWrite false (0x7F0000000000 + o) v) s = .next s)

/-- A companion access reaches the page, the hub registers, a host window or nothing; a window access reaches the cluster or waits. Rests on
R329, R330, R331, R27, R456. That a read of the register view draws one unit from the bridge of the register's section, and that a served
access may overdraw its credit, are the model's choices (log 45), as are the cluster map and the owners of banks that an access sees (log
38). -/
def Obligations.ApertureAndWindowAccessesComplete : Prop :=
  (∀ s o, apertureUp s = true → sleepTarget s = none → o % 8 = 0 → o + 8 ≤ 0x10000 →
    exec (.hostWindowAccess o ⟨8, none⟩) s = .next { s with out := ⟨leBytes 8 (mbReg s o), false⟩ }) ∧
  (∀ s o, apertureUp s = true → sleepTarget s = none → hubRuns s = true → o % 8 = 0 → o + 8 ≤ 0x100000000 → classReadable s (hubClass o) = true →
      admits s 8 (bridgeCell (regPlace o) 4) = true →
    let u := chargeCells s 8 (bridgeCell (regPlace o) 4) 1
    exec (.hostWindowAccess (0x100000000 + o) ⟨8, none⟩) s = .next { u with out := ⟨leBytes 8 (hubReg u o), false⟩ }) ∧
  (∀ s k o n l, apertureUp s = true → sleepTarget s = none → hubRuns s = true → k < 16 → 1 ≤ n → n ≤ 64 → (hwinOf s k).en = true →
      o + n ≤ (hwinOf s k).size * 4096 → o < 0x1000000000 → unmappedAt s ((hwinOf s k).base * 4096 + o) = false →
      heldRange s ((hwinOf s k).base * 4096 + o) n = false →
    ((hwinOf s k).rd = true → admits s 8 (devCells 4 ((hwinOf s k).base * 4096 + o) false) = true → let r := devRead (chargeDev s 4 8 ((hwinOf s k).base * 4096 + o) n false) ((hwinOf s k).base * 4096 + o) n;
      exec (.hostWindowAccess (0x10000000000 + k * 0x1000000000 + o) ⟨n, none⟩) s = .next { r.2 with out := ⟨r.1.data, r.1.poison⟩ }) ∧
    ((hwinOf s k).wr = true → l.length = n → admits s 8 (devCells 4 ((hwinOf s k).base * 4096 + o) true) = true → exec (.hostWindowAccess (0x10000000000 + k * 0x1000000000 + o) ⟨n, some l⟩) s =
      .next (devWrite (chargeDev s 4 8 ((hwinOf s k).base * 4096 + o) n true) ((hwinOf s k).base * 4096 + o) l false 0xE))) ∧
  (∀ s o n, apertureUp s = true → sleepTarget s = none → hubRuns s = true → 0x10000 ≤ o → o + n ≤ 0x100000000 → 1 ≤ n → n ≤ 64 →
    exec (.hostWindowAccess o ⟨n, none⟩) s =
      .next { s with mb := { s.mb with apertureN := satAdd 16 s.mb.apertureN 1 }, out := ⟨List.replicate n 0, true⟩ }) ∧
  (∀ s lc o tag acc, arithRuns s = true → lc < 256 → o + accLen acc ≤ 0x1000000 →
    let a := 0x700000000000 + lc * 0x1000000 + o
    let act := if Option.isSome tag then 0 else 8
    let u := ttCharge s 3 lc act (unitsOf 64 a (accLen acc)).length
    (admits s act [(3, lc)] = true → heldRange s a (accLen acc) = false →
      (acc.data = none → exec (.windowAccess lc o tag acc) s =
        .next { (devRead u a acc.len).2 with out := ⟨(devRead u a acc.len).1.data, (devRead u a acc.len).1.poison⟩ }) ∧
      (∀ l, acc.data = some l → exec (.windowAccess lc o tag acc) s = .next (devWrite u a l false (tag.elim 0xE BitVec.toNat)))) ∧
    (admits s act [(3, lc)] = false ∨ heldRange s a (accLen acc) = true → exec (.windowAccess lc o tag acc) s =
      let v := waitCells s act [(3, lc)]
      .next { v with tt := { v.tt with waiting := v.tt.waiting ++ [.window lc a tag acc] } }))

/-- A byte written through the window of an idle cluster reads back, and no other byte of its scratchpad changes. Rests on R27, R33, R235, Table
1-5. -/
def Obligations.ScratchpadWindowWriteReadsBack : Prop :=
  ∀ (s : State) (lc a : Nat) (l : List Byte) (tag : Nat), s.inv → (lcEntry s lc).mapped = true → 1 ≤ l.length → a % 64 + l.length ≤ 64 →
    a + l.length ≤ 0x400000 → tablet (cluster s lc).mem 0 (bankOf 0 a) = 0 →
    ∃ c, winWrite s lc a l false tag = noteInbound (setCluster s lc c) lc a ∧
      memRead c.mem.sp a l.length = l ∧ (∀ b, (b < a ∨ a + l.length ≤ b) → memByte c.mem.sp b = memByte (cluster s lc).mem.sp b) ∧
      c.mem.side = (cluster s lc).mem.side ∧ c.mem.seqm = (cluster s lc).mem.seqm ∧ c.seq = (cluster s lc).seq ∧ c.opx = (cluster s lc).opx

/-- Every SMBus read answers its block and changes nothing but the reply. Rests on R353, R354, R429, Table 12-12, Table 12-13. The address byte
0xB4, the CRC of the PEC, and the last field of FAULTS when the log is empty are the model's (log 30). -/
def Obligations.SmbusReadsReply : Prop :=
  ∀ s : State, s.boot.phase ≠ .off →
    let rep := fun (c : Byte) (n l : List Byte) =>
      (Host.Outcome.next { s with smb := { s.smb with reply := l, nack := false, pec := pecOf ([0xB4, c, 0xB5] ++ n ++ l) } } : Res)
    exec .info s = rep 1 [BitVec.ofNat 8 (smbInfo s).length] (smbInfo s) ∧
    exec .state s = rep 2 [4] (leBytes 1 s.op.code ++ leBytes 1 s.sec.code ++ leBytes 1 s.dbg ++
      leBytes 1 (packFields [(b2n s.faultPin, 1), (b2n s.mb.serviceUp, 1), ((statPins s).getD 0, 2)])) ∧
    exec .temps s = rep 3 [16] ([0, 1, 2, 3, 4, hottestStack s, 17, 18].flatMap (tempBytes s)) ∧
    exec .power s = rep 4 [12] (leBytes 2 s.pw.sample.mV ++ leBytes 2 s.pw.sample.mA ++
      leBytes 2 s.pw.sample.p ++ leBytes 2 (powerLimit s) ++ leBytes 1 (effLevel s 0) ++ leBytes 1 (effLevel s 1) ++ leBytes 1 (effLevel s 2) ++
      leBytes 1 (effLevel s 3)) ∧
    (∃ l, exec .faults s = rep 5 [16] l ∧ l.length = 16 ∧
      ofLe (l.take 4) = wholeNext s % 2 ^ 32 ∧ ofLe ((l.drop 12).take 4) = (if wholeNext s = 0 then 0xFFFFFFFF else wholeNext s - 1) % 2 ^ 32) ∧
    exec .alertStatus s = rep 6 [] (leBytes 2 s.smb.alert) ∧
    (∀ pec, exec (.alertMask pec none) s = rep 8 [] (leBytes 2 s.smb.mask)) ∧
    (∀ pec, exec (.powerCap pec none) s = rep 0x10 [] (leBytes 2 s.smb.cap)) ∧
    (alertLevel s = true → exec .alertResponse s = .next { s with smb := { s.smb with nack := false, reply := [0xB4], pec := pecOf [0x19, 0xB4] } }) ∧
    (alertLevel s = false → exec .alertResponse s = .next { s with smb := { s.smb with nack := true, reply := [], pec := 0 } }) ∧
    exec .alertPulseEnd s = .next { s with smb := { s.smb with pulse := false } }

/-- SMBus writes need their PEC and take only legal values. Rests on R353, R354, R429. That causes which still stand are set again, and that the
row's operand says whether the PEC was right, are the model's choices (log 30). -/
def Obligations.SmbusWritesTakeEffect : Prop :=
  ∀ s : State, s.boot.phase ≠ .off →
    (∀ w, exec (.alertClear false w) s = .next s) ∧ (∀ x, exec (.alertMask false (some x)) s = .next s) ∧ (∀ x, exec (.powerCap false (some x)) s = .next s) ∧
    (∀ w, let u := standingAlerts { s with smb := { s.smb with alert := s.smb.alert &&& (0x7F - bits w 0 7) } };
      exec (.alertClear true w) s = .next { u with smb := { u.smb with nack := false, reply := [], pec := 0 } }) ∧
    (∀ x, exec (.alertMask true (some x)) s = .next { s with smb := { s.smb with mask := bits x 0 7, nack := false, reply := [], pec := 0 } }) ∧
    (∀ x : BitVec 16, x.toNat = 0 ∨ 400 ≤ x.toNat ∧ x.toNat ≤ profileLimit s.boot.cool →
      exec (.powerCap true (some x)) s = .next { s with smb := { s.smb with cap := x.toNat, nack := false, reply := [], pec := 0 } }) ∧
    (∀ x : BitVec 16, x.toNat ≠ 0 → x.toNat < 400 ∨ profileLimit s.boot.cool < x.toNat →
      exec (.powerCap true (some x)) s = .next { s with smb := { s.smb with nack := true, reply := [], pec := 0 } })

/-- The instructions of the test access port act where Table 16-10 permits them and act as BYPASS elsewhere. Rests on R456, R459, R460, Table
16-10. SAMPLE/PRELOAD in OPEN outside BOOT, SCRUBBING and sleep, where it captures the pins, a free value (log 6), and loads what EXTEST
drives. The status codes of a misaligned or unreachable debug access, the free value of vendor analysis (log 6) and the level of DBG_HALT
are the model's choices (log 30). -/
def Obligations.TestPortInstructionsComplete : Prop :=
  ∀ s : State, s.boot.phase ≠ .off →
    let ref := (Host.Outcome.next { s with tap := { s.tap with ir := 0xFF, dr := 0, drive := false, status := stSTATE } } : Res)
    exec .idcode s = .next { s with tap := { s.tap with ir := 0x01, dr := 0x101536B7#128, drive := false } } ∧
    exec .dbgStatus s = .next { s with tap := { s.tap with ir := 0x10, drive := false, dr := BitVec.ofNat 128 (packFields [(s.op.code, 4), (s.sec.code, 2), (s.dbg, 2), (s.tap.status, 8)]) } } ∧
    (∀ op : BitVec 8, tapListed op.toNat = false → exec (.bypass op) s = .next { s with tap := { s.tap with ir := 0xFF, dr := 0, drive := false } }) ∧
    (s.op = .idle → s.sec = .sopen → exec .extest s = .next { s with tap := { s.tap with ir := 0, dr := 0, drive := true } }) ∧
    (s.op ≠ .idle ∨ s.sec ≠ .sopen → exec .extest s = ref) ∧
    (∀ l, tapFull s = true → s.sec = .sopen →
      ∃ d, exec (.samplePreload l) s = .next { s with free := s.free + 1, tap := { s.tap with ir := 0x02, dr := d, drive := false, preload := l } }) ∧
    (∀ l, tapFull s = false ∨ s.sec ≠ .sopen → exec (.samplePreload l) s = ref) ∧
    (s.op = .running → s.dbg = 2 →
      exec .dbgHalt s = .next (requestPause { s with tap := { s.tap with ir := 0x12, dr := 0, drive := false, status := stOK } })) ∧
    (s.op ≠ .running ∨ s.dbg ≠ 2 → exec .dbgHalt s = ref) ∧
    (∀ op : BitVec 8, 0x20 ≤ op.toNat → op.toNat ≤ 0x3F → tapFull s = true → s.dbg = 3 →
      ∃ d, exec (.vendorAnalysis op) s = .next { s with free := s.free + 1, tap := { s.tap with ir := op.toNat, dr := d, drive := false } }) ∧
    (∀ op : BitVec 8, 0x20 ≤ op.toNat → op.toNat ≤ 0x3F → tapFull s = false ∨ s.dbg ≠ 3 → exec (.vendorAnalysis op) s = ref) ∧
    (∀ dr, tapFull s = false ∨ s.dbg = 0 → exec (.dbgAccess dr) s = ref) ∧
    (∀ dr data, tapFull s = true → s.dbg ≠ 0 →
      let a := bits dr 0 48
      let fin := fun (u : State) (st d : Nat) => ({ u with tap := { u.tap with ir := 0x11, drive := false, status := st, dr := BitVec.ofNat 128 (packFields [(a, 48), (b2n (bitAt dr 48), 1), (0, 7), (st, 8), (d, 64)]) } } : State)
      let v := ({ s with tap := { s.tap with ir := 0x11, dr := 0, drive := false } } : State)
      let r := devRead (chargeDev v 4 8 a 8 false) a 8
      (a % 8 ≠ 0 ∨ bits dr 49 7 ≠ 0 → exec (.dbgAccess dr) s = .next (fin s stBADARG 0)) ∧
      (a % 8 = 0 → bits dr 49 7 = 0 → bitAt dr 48 = true → s.dbg < 2 ∨ boundOk s a (a + 7) false = false → exec (.dbgAccess dr) s = ref) ∧
      (a % 8 = 0 → bits dr 49 7 = 0 → bitAt dr 48 = true → 2 ≤ s.dbg → boundOk s a (a + 7) false = true →
        (admits v 8 (devCells 4 a false) = true → heldRange v a 8 = false →
          (r.1.poison = true → exec (.dbgAccess dr) s = .next (dbgAnswer r.2 dr stFAULTED 0)) ∧
          (r.1.poison = false → ofLe r.1.data = data → exec (.dbgAccess dr) s = .next (dbgAnswer r.2 dr stOK data))) ∧
        (admits v 8 (devCells 4 a false) = false ∨ heldRange v a 8 = true → exec (.dbgAccess dr) s = .next (keepReq v (.debug a dr)))) ∧
      (∀ u st d, u.tap.ir = 0x11 → u.tap.drive = false → dbgAnswer u dr st d = fin u st d) ∧
      (∀ o, a = 0x7F0000000000 + o → o % 8 = 0 → o < 0x100000000 → bits dr 49 7 = 0 → bitAt dr 48 = false → dbgReaches s (hubClass o) = true →
        classReadable s (hubClass o) = true → exec (.dbgAccess dr) s = .next (fin s stOK (hubReg s o))) ∧
      (∀ o, a = 0x7F0000000000 + o → o % 8 = 0 → o < 0x100000000 → bits dr 49 7 = 0 → bitAt dr 48 = false → dbgReaches s (hubClass o) = false →
        exec (.dbgAccess dr) s = .next (tapRefuse (if classReadable s (hubClass o) then s else countAperture s))))

/-- Cold boot, MOD_RESET#, the input supervisor and the loss of AON power begin a start, hold the module or leave it without power. Rests on
R464, R465, R466, R469, R486. MOD_RESET_DEASSERT after at least 500 AON cycles latches the straps and, like INPUT_RESTORED, begins a start
of kind 1 once nothing else holds the module; a MOD_RESET# pulse below 500 cycles is ignored (log 28). -/
def Obligations.PowerInputAndResetComplete : Prop :=
  (∀ s st, s.boot.phase = .off →
    (s.boot.pinLow = false → exec (.coldBoot st) s = .next (beginStart (latchStraps s st) 0)) ∧
    (s.boot.pinLow = true → exec (.coldBoot st) s =
      .next { latchStraps s st with boot := { (latchStraps s st).boot with phase := .held } }) ∧
    (s.boot.pinLow = false → exec .modResetAssert s = .next { s with boot := { s.boot with pinLow := true } }) ∧
    (∀ n, s.boot.pinLow = true → 500 ≤ n → exec (.modResetDeassert n st) s = .next { s with boot := { s.boot with pinLow := false } })) ∧
  (∀ s st k, let t := beginStart (latchStraps s st) k
    t.boot.phase = .starting ∧ t.boot.kind = k ∧ t.boot.running = (if k = 2 then [1] else [0]) ∧ t.boot.done = [] ∧ t.boot.slot = st.slot.toNat ∧
    t.boot.cool = st.cool.toNat ∧ t.boot.feed = st.feed.toNat ∧ t.boot.coolUnknown = decide (2 < st.cool.toNat) ∧
    t.boot.feedUnknown = decide (st.feed.toNat = 15)) ∧
  (∀ s, s.boot.phase ≠ .off → s.boot.pinLow = false → ∃ t, exec .modResetAssert s = .next t ∧ t.boot.phase = .held ∧ t.boot.pinLow = true ∧
    t.boot.inputLow = s.boot.inputLow ∧ t.op = .boot ∧ t.sec = .sopen ∧ t.dbg = 0 ∧ t.su.tenant = 0 ∧ t.su.policy = [] ∧ t.su.wkeys = [] ∧
    t.su.fkeys = [] ∧ t.su.ckey = none ∧ t.win = [] ∧ t.prog = .reset ∧ t.mb = .reset ∧ t.flash = s.flash ∧ t.comp = s.comp ∧
    t.smb = (if s.op = .boot ∧ s.sec = .sopen then s.smb else (setAlert s aSTATE).smb)) ∧
  (∀ s st n, s.boot.phase = .held → s.boot.pinLow = true → s.boot.inputLow = false → 500 ≤ n →
    exec (.modResetDeassert n st) s = .next (beginStart (latchStraps { s with boot := { s.boot with pinLow := false } } st) 1)) ∧
  (∀ s st n, s.boot.phase = .held → s.boot.pinLow = true → s.boot.inputLow = true → 500 ≤ n →
    exec (.modResetDeassert n st) s = .next (latchStraps { s with boot := { s.boot with pinLow := false } } st)) ∧
  (∀ s st n, n < 500 → exec (.modResetDeassert n st) s = .next s) ∧
  (∀ s, s.boot.phase ≠ .off → s.boot.inputLow = false → ∃ t, exec .inputUndervoltage s = .next t ∧ t.boot.phase = .held ∧ t.boot.inputLow = true ∧
    t.op = .boot ∧ t.sec = .sopen ∧ t.dbg = 0 ∧ t.su.tenant = 0 ∧ t.su.policy = [] ∧ t.su.wkeys = [] ∧ t.su.fkeys = [] ∧ t.su.ckey = none ∧ t.win = [] ∧
    t.prog = .reset ∧ t.mb = .reset ∧ t.flash = s.flash ∧ t.comp = s.comp ∧
    t.smb = (if s.op = .boot ∧ s.sec = .sopen then s.smb else (setAlert s aSTATE).smb)) ∧
  (∀ s st, s.boot.phase = .held → s.boot.inputLow = true → s.boot.pinLow = false →
    exec (.inputRestored st) s = .next (beginStart (latchStraps { s with boot := { s.boot with inputLow := false } } st) 1)) ∧
  (∀ s, s.boot.phase ≠ .off → ∃ t, exec .aonPowerLoss s = .next t ∧ t.boot = { Boot.reset with pinLow := s.boot.pinLow } ∧ t.clk = .reset ∧ t.tap = .reset ∧ t.slp = .reset ∧
    t.flog = .reset ∧ t.map = .reset ∧ t.cl = [] ∧ t.flash = s.flash ∧ t.comp = s.comp)

/-- Stages end, overrun and retry as R466 and R473 say. Rests on R466, R467, R468, R473, Table 17-2. That the first overrun of a start, whatever
its stage, restarts it, that copies of equal version give copy A, and when BOOT_DEGRADED is logged are the model's choices (log 28). -/
def Obligations.StartUpStagesComplete : Prop :=
  (∀ s st r, s.boot.phase = .starting → setHas s.boot.running st = true → exec (.startUpStageEnd st r) s = .next (endStage s st r)) ∧
  (∀ s r, s.boot.phase = .starting → s.boot.running = [0] → s.boot.done = [] →
    exec (.startUpStageEnd 0 r) s = .next { s with boot := { s.boot with running := [1], done := [0] } }) ∧
  (∀ s r, s.boot.phase = .starting → s.boot.running = [1] → s.boot.done = [0] → s.boot.coolUnknown = false →
    exec (.startUpStageEnd 1 r) s = .next { hubTested s with boot := { s.boot with running := [2], done := [0, 1] } }) ∧
  (∀ s st r, s.boot.phase = .starting → setHas s.boot.running st = false → exec (.startUpStageEnd st r) s = .next s) ∧
  (∀ s st u, s.boot.phase = .starting → setHas s.boot.running st = true → unitsFit st u = true →
    exec (.stageBoundOverrun st u) s = .next (endStage s st (unitResult u))) ∧
  (∀ s st u, s.boot.phase = .starting → setHas s.boot.running st = true → unitsFit st u = false → s.boot.overrun = false → s.boot.failed = false →
    ∃ t, exec (.stageBoundOverrun st u) s = .next t ∧ t.boot.running = [1] ∧ t.boot.done = [] ∧ t.boot.overrun = true ∧ t.boot.attempt = true ∧
      t.boot.phase = .starting ∧ t.boot.kind = s.boot.kind ∧ t.op = .boot ∧ t.flash = s.flash) ∧
  (∀ s st u, s.boot.phase = .starting → setHas s.boot.running st = true → unitsFit st u = false → s.boot.overrun = true → s.boot.failed = false →
    ∃ t, exec (.stageBoundOverrun st u) s = .next t ∧ t.boot.failed = true ∧ t.boot.cause = 6 ∧ t.boot.phase = .safe) ∧
  (∀ s, setHas s.boot.retry 8 = true → powered s = true → exec (.unitRetry 8 true) s =
    .next { s with boot := { s.boot with retry := setDel s.boot.retry 8 }, link := { s.link with up := true, down := false } }) ∧
  (∀ s p, p < 8 → setHas s.boot.retry p = true → powered s = true → ∃ t, exec (.unitRetry p true) s = .next t ∧
    t = modPort { s with boot := { s.boot with retry := setDel s.boot.retry p, portUp := s.boot.portUp ||| 2 ^ p } } p (fun q => { q with linkUp := true }))

/-- Stage 9 of a cold boot or a start after MOD_RESET# ends in IDLE, and in OPEN. Rests on R466, R474. -/
def Obligations.StageNineMakesModuleIdle : Prop :=
  (∀ s r, s.boot.phase = .starting → setHas s.boot.running 9 = true → s.boot.kind ≠ 2 → s.flash.scrubMark = false →
    ∃ t, exec (.startUpStageEnd 9 r) s = .next t ∧ t.boot.phase = .up ∧ t.op = .idle ∧ (s.sec = .sopen → t.sec = .sopen) ∧
      t.sec = s.sec ∧ t.dbg = s.dbg ∧ t.map = s.map ∧ t.dram = s.dram ∧ t.cl = s.cl ∧ t.store.laid = none ∧ setHas t.boot.done 9 = true) ∧
  (∀ s st, s.boot.phase = .held → s.sec = .sopen → s.boot.inputLow = true → s.boot.pinLow = false →
    ∃ t, exec (.inputRestored st) s = .next t ∧ t.sec = .sopen ∧ t.boot.kind = 1)

/-- ENTER_SLEEP begins an entry, the point of no return is passed, and the entry completes. Rests on R431, R432, R433, R434, Table 15-10, Table
15-11. That RETAIN bits of SL1 and SL3 must be 0, and that SECSTATE keeps its value in SL3, are the model's choices (log 29). -/
def Obligations.SleepEntryCompletes : Prop :=
  (∀ s m t, TakenArgs s m 0x0031 [(0, 4)] t → mb m 0 2 ≠ 0 → mb m 2 2 ≠ 3 → (mb m 0 2 = 2 ∨ mb m 2 2 = 0) →
      ¬(mb m 0 2 = 3 ∧ (t.op = .paused ∨ t.dbg = 3)) → refuser t (mb m 0 2) (mb m 2 2) = none →
    exec (.enterSleep m) s = .next (flushEvents (beginEntry (ok t m 0 0) (mb m 0 2) (mb m 2 2)))) ∧
  (∀ s k r, (k = 1 ∨ k = 2) → s.slp.entering = some (k, r) → s.slp.ponr = false → refuser s k r = none → (autoDue s = false ∨ s.slp.due = true) →
    exec .sleepPointOfNoReturn s = .next (latchPins { s with slp := { s.slp with ponr := true } })) ∧
  (∀ s r, s.slp.entering = some (3, r) → s.slp.ponr = false → refuser s 3 r = none → (autoDue s = false ∨ s.slp.due = true) →
      s.sec = .sopen → s.ckpt.cur = none →
    exec .sleepPointOfNoReturn s =
      .next (latchPins { s with store := { s.store with laid := none, mapRec := some s.map }, slp := { s.slp with ponr := true } })) ∧
  (∀ s k r x, s.slp.entering = some (k, r) → s.slp.ponr = false → refuser s k r = some x →
    exec .sleepPointOfNoReturn s = .next (abortEntry s x)) ∧
  (∀ s r, s.slp.entering = some (1, r) → s.slp.ponr = true →
    let u := setOp s .sl1
    exec .sleepEntryComplete s = .next { u with slp := { u.slp with last := 8, entering := none, ponr := false, cut := none, pend := false, waking := u.slp.pend, latched := u.slp.latched && u.slp.pend } }) ∧
  (∀ s r, s.slp.entering = some (2, r) → s.slp.ponr = true →
    let u := ((List.range 256).filter (fun lc => (lcEntry s lc).mapped)).foldl (fun x lc => modMem x lc (fun _ => stableBanks s (cluster s lc) r)) s
    let v := setOp ((List.range 12).foldl (fun x k => modStk x k (fun y => { y with refresh := true })) u) .sl2
    exec .sleepEntryComplete s = .next { v with slp := { v.slp with last := 9, entering := none, ponr := false, cut := none, pend := false, waking := v.slp.pend, latched := v.slp.latched && v.slp.pend } }) ∧
  (∀ s r, s.slp.entering = some (3, r) → s.slp.ponr = true → ∃ t, exec .sleepEntryComplete s = .next t ∧ t.op = .sl3 ∧ t.dbg = 0 ∧ t.sec = s.sec ∧
    t.slp.last = 10 ∧ t.slp.entering = none ∧ t.su.ckey = none ∧ t.su.tenant = 0 ∧ t.dram.bytes = [] ∧ t.clk.aon = s.clk.aon ∧ t.clk.hub = 0 ∧
    t.flash = s.flash)

/-- A wake event starts the wake, and WOKE or WARM_RESTART ends or continues it. Rests on R435, R431, R433, R323, R464, R417. That a wake from
SL2 resets the ARITH counters alone (log 28) and that a restart from SL3 begins in OPEN (log 29) are the model's choices. -/
def Obligations.WakeCompletes : Prop :=
  (∀ s k rising, k < 2 → s.boot.phase ≠ .off →
    (tbit s.slp.pins k = rising → exec (.wake (k + 1) 0 rising) s = .next (setEdge s k none)) ∧
    (tbit s.slp.pins k ≠ rising → pinEdge s k = none → exec (.wake (k + 1) 0 rising) s = .next (setEdge s k (some s.clk.aon))) ∧
    (tbit s.slp.pins k ≠ rising → pinEdge s k ≠ none → exec (.wake (k + 1) 0 rising) s = .next s)) ∧
  (∀ s, s.pending = [] → s.boot.phase ≠ .off →
    step s = .next (settlePin (settlePin (switchClocks { s with clk := countCycle s }) 0) 1)) ∧
  (∀ s k x, k < 2 → pinEdge s k = some x →
    (s.clk.aon < x + 50 → settlePin s k = s) ∧
    (x + 50 ≤ s.clk.aon → s.slp.entering = none → asleep s = true → s.slp.waking = false → pinWakes s k (!(tbit s.slp.pins k)) = true →
      settlePin s k = setEdge (setPin { s with slp := { s.slp with waking := true, cause := k + 1, port := 0, latched := false } } k
        (!(tbit s.slp.pins k))) k none) ∧
    (x + 50 ≤ s.clk.aon → pinWakes s k (!(tbit s.slp.pins k)) = false → settlePin s k = setEdge (setPin s k (!(tbit s.slp.pins k))) k none)) ∧
  (∀ s p rising, s.slp.entering = none → (s.op = .sl1 ∨ s.op = .sl2) → s.slp.waking = false → wakeCfg s 6 = true →
    exec (.wake 3 p rising) s = .next { s with slp := { s.slp with waking := true, cause := 3, port := 0, latched := false } }) ∧
  (∀ s p rising, p < 8 → s.slp.entering = none → (s.op = .sl1 ∨ s.op = .sl2) → s.slp.waking = false → wakeCfg s (7 + p) = true →
    exec (.wake 4 p rising) s = .next { s with slp := { s.slp with waking := true, cause := 4, port := p, latched := false } }) ∧
  (∀ s p rising, s.slp.entering = none → s.op = .sl3 → exec (.wake 4 p rising) s = .next s) ∧
  (∀ s p, p < 8 → s.slp.entering = none → s.op = .sl3 → s.slp.waking = false → wakeCfg s (15 + p) = true →
    exec (.whistle p) s = .next { s with slp := { s.slp with waking := true, cause := 5, port := p, latched := false } }) ∧
  (∀ s p, s.slp.entering = none → s.op ≠ .sl3 → exec (.whistle p) s = .next s) ∧
  (∀ s us fails, s.slp.waking = true → s.op = .sl1 →
    let u := setOp s (match s.slp.back with | 1 => .idle | 2 => .loaded | _ => .paused)
    exec (.woke ⟨us, fails⟩) s = .next (flushEvents (logEvent (sampleSet { u with slp := { u.slp with waking := false, wakeUs := us % 2 ^ 36 } }) 0x0050 7 7 0 noLink
      (packFields [(u.slp.cause, 8), (u.slp.port, 3)])))) ∧
  (∀ s us fails, s.slp.waking = true → s.op = .sl2 →
    let a := ((List.range 256).filter (fun lc => (lcEntry s lc).mapped)).foldl (fun x lc => modMem x lc wakeBanks) s
    let b := (List.range 12).foldl (fun x k => modStk x k (fun y => { y with refresh := false })) a
    let c := setOp { b with clk := { b.clk with arith0 := 0, arith1 := 0, arith2 := 0, arith3 := 0 } } (match s.slp.back with | 1 => .idle | 2 => .loaded | _ => .paused)
    let u := List.foldl (fun x f => testFailed x 2 f) c (firstFaults [] fails)
    exec (.woke ⟨us, fails⟩) s = .next (flushEvents (logEvent (sampleSet { u with slp := { u.slp with waking := false, wakeUs := us % 2 ^ 36 } }) 0x0050 7 7 0 noLink
      (packFields [(u.slp.cause, 8), (u.slp.port, 3)])))) ∧
  (∀ s us fails, s.slp.waking = true → s.op = .idle → s.boot.phase = .up →
    exec (.woke ⟨us, fails⟩) s = .next (flushEvents (logEvent (sampleSet { s with slp := { s.slp with waking := false, wakeUs := us % 2 ^ 36 } }) 0x0050 7 7 0 noLink
      (packFields [(s.slp.cause, 8), (s.slp.port, 3)])))) ∧
  (∀ s, s.op = .sl3 → s.slp.waking = true → exec .warmRestart s = .next (beginStart { setAlert s aSTATE with op := .boot, sec := .sopen } 2))

/-- CNT.SET, CNT.ADD, CNT.LOOP, PRM.MOV and PRM.ADD at the dispatch index take effect and dispatch goes on. Rests on R126, R172, R117, R120,
Table 6-15. -/
def Obligations.ScalarCommandsComplete : Prop :=
  (∀ s lc raw, seqHead s lc oCSET = some raw →
    let c := cluster s lc
    let v := scalarSrc s lc (natBits raw 68 2) (natBits raw 72 8) (natBits raw 128 48)
    exec (.cntSet lc) s = .next (dispatch (setCluster s lc { c with seq := { c.seq with cnt := (if predHolds c raw then spSet 0 c.seq.cnt (natBits raw 64 4) (v % 2 ^ 48) else c.seq.cnt), pc := c.seq.pc + 1 } }) lc)) ∧
  (∀ s lc raw, seqHead s lc oCADD = some raw →
    let c := cluster s lc
    let v := spGet 0 c.seq.cnt (natBits raw 64 4) + scalarSrc s lc (natBits raw 68 2) (natBits raw 72 8) (natBits raw 128 48)
    exec (.cntAdd lc) s = .next (dispatch (setCluster s lc { c with seq := { c.seq with cnt := (if predHolds c raw then spSet 0 c.seq.cnt (natBits raw 64 4) (v % 2 ^ 48) else c.seq.cnt), pc := c.seq.pc + 1 } }) lc)) ∧
  (∀ s lc raw, seqHead s lc oCLOOP = some raw → predHolds (cluster s lc) raw = true →
    let c := cluster s lc
    let v := (spGet 0 c.seq.cnt (natBits raw 64 4) + (2 ^ 48 - 1)) % 2 ^ 48
    let d := { c with seq := { c.seq with cnt := spSet 0 c.seq.cnt (natBits raw 64 4) v } }
    (v ≠ 0 → exec (.cntLoop lc) s = .next (dispatch (setCluster s lc (takeLoop raw d)) lc) ∧ (takeLoop raw d).seq.pc = natBits raw 80 14 ∧
      (takeLoop raw d).seq.st0.adv = c.seq.st0.adv + natBits raw 128 32 ∧ (takeLoop raw d).seq.st1.adv = c.seq.st1.adv + natBits raw 128 32 ∧
      (takeLoop raw d).seq.cnt = d.seq.cnt) ∧
    (v = 0 → exec (.cntLoop lc) s = .next (dispatch (setCluster s lc { (leaveLoop d) with seq := { (leaveLoop d).seq with pc := c.seq.pc + 1 } }) lc))) ∧
  (∀ s lc raw, seqHead s lc oCLOOP = some raw → predHolds (cluster s lc) raw = false →
    let d := leaveLoop (cluster s lc)
    exec (.cntLoop lc) s = .next (dispatch (setCluster s lc { d with seq := { d.seq with pc := d.seq.pc + 1 } }) lc)) ∧
  (∀ s lc raw, seqHead s lc oPMOV = some raw →
    let c := cluster s lc
    let n := natBits raw 64 8
    let v := scalarSrc s lc (natBits raw 72 2) (natBits raw 80 8) (natBits raw 128 64)
    exec (.prmMov lc) s = .next (dispatch (setCluster s lc { c with seq := { c.seq with prm := (if predHolds c raw = true ∧ n < 240 then spSet 0 c.seq.prm n (v % 2 ^ 64) else c.seq.prm), pc := c.seq.pc + 1 } }) lc)) ∧
  (∀ s lc raw, seqHead s lc oPADD = some raw →
    let c := cluster s lc
    let n := natBits raw 64 8
    let v := prmGet s lc (natBits raw 72 8) + scalarSrc s lc (natBits raw 80 2) (natBits raw 88 8) (natBits raw 128 64)
    exec (.prmAdd lc) s = .next (dispatch (setCluster s lc { c with seq := { c.seq with prm := (if predHolds c raw = true ∧ n < 240 then spSet 0 c.seq.prm n (v % 2 ^ 64) else c.seq.prm), pc := c.seq.pc + 1 } }) lc))

/-- CMP.SET writes the comparator it names and no other. Rests on R126, Table 6-15. -/
def Obligations.CompareWritesOneComparator : Prop :=
  ∀ s lc raw, seqHead s lc oCMP = some raw → predHolds (cluster s lc) raw = true →
    let c := cluster s lc
    let l := scalarSrc s lc (if natBits raw 70 1 = 1 then 1 else 2) (natBits raw 72 8) 0
    let r := scalarSrc s lc (natBits raw 80 2) (natBits raw 88 8) (natBits raw 128 64)
    ∃ k, exec (.cmpSet lc) s = .next (dispatch (setCluster s lc { c with seq := { c.seq with cmp := k, pc := c.seq.pc + 1 } }) lc) ∧
      (tbit k (natBits raw 64 3) = true ↔
        (natBits raw 68 2 = 0 ∧ l = r ∨ natBits raw 68 2 = 1 ∧ l ≠ r ∨ natBits raw 68 2 = 2 ∧ l < r ∨ natBits raw 68 2 = 3 ∧ r ≤ l)) ∧
      ∀ b, b ≠ natBits raw 64 3 → tbit k b = tbit c.seq.cmp b

/-- FLG.SET, FLG.CLR, FLG.WAIT and the release of a waiter take effect in the order of their queue. Rests on R127, R128, R129, R170, R171, R120,
R121. That the queue orders the sets of different clusters is the model's choice (log 1). -/
def Obligations.FlagCommandsComplete : Prop :=
  (∀ s lc q cyc e, (q = 0 → flagReady s lc oFSET = none) → pickOp s lc q cyc oFSET = some e →
      (∀ d, missedDue (cluster s lc) q cyc e = some d → exec (.flgSet lc q cyc) s = .next (lateSlip s lc q d e)) ∧
      (missedDue (cluster s lc) q cyc e = none →
      (e.live = false → exec (.flgSet lc q cyc) s = .next (retireAt s lc q cyc e)) ∧
      (e.live = true → queueDone (cluster s lc) q e = true → exec (.flgSet lc q cyc) s = .next (retireAt (flagApply s lc e (fun u => sfSetAt u lc cyc (flFlag e.raw) (flInc e.raw)) (fun u => lfSetAt u lc cyc (flFlag e.raw) (flInc e.raw))) lc q cyc e)) ∧
      (e.live = true → queueDone (cluster s lc) q e = false → q = 0 → exec (.flgSet lc q cyc) s =
        .next (retire (modCluster s lc (fun c => { c with opx := { c.opx with flagWait := c.opx.flagWait ++ [e] } })) lc q e)) ∧
      (e.live = true → queueDone (cluster s lc) q e = false → q ≠ 0 → exec (.flgSet lc q cyc) s = .next s))) ∧
    (∀ s lc cyc e, flagReady s lc oFSET = some e → exec (.flgSet lc 0 cyc) s = .next (dispatch (modCluster (flagApply s lc e (fun u => sfSetAt u lc cyc (flFlag e.raw) (flInc e.raw)) (fun u => lfSetAt u lc cyc (flFlag e.raw) (flInc e.raw))) lc
      (fun c => atCycle { c with opx := { c.opx with flagWait := c.opx.flagWait.erase e } } cyc)) lc)) ∧
  (∀ s lc q cyc e, (q = 0 → flagReady s lc oFCLR = none) → pickOp s lc q cyc oFCLR = some e →
      (∀ d, missedDue (cluster s lc) q cyc e = some d → exec (.flgClr lc q cyc) s = .next (lateSlip s lc q d e)) ∧
      (missedDue (cluster s lc) q cyc e = none →
      (e.live = false → exec (.flgClr lc q cyc) s = .next (retireAt s lc q cyc e)) ∧
      (e.live = true → queueDone (cluster s lc) q e = true → exec (.flgClr lc q cyc) s = .next (retireAt (flagApply s lc e (fun u => sfClearAt u lc cyc (flFlag e.raw)) (fun u => lfClearAt u lc cyc (flFlag e.raw))) lc q cyc e)) ∧
      (e.live = true → queueDone (cluster s lc) q e = false → q = 0 → exec (.flgClr lc q cyc) s =
        .next (retire (modCluster s lc (fun c => { c with opx := { c.opx with flagWait := c.opx.flagWait ++ [e] } })) lc q e)) ∧
      (e.live = true → queueDone (cluster s lc) q e = false → q ≠ 0 → exec (.flgClr lc q cyc) s = .next s))) ∧
    (∀ s lc cyc e, flagReady s lc oFCLR = some e → exec (.flgClr lc 0 cyc) s = .next (dispatch (modCluster (flagApply s lc e (fun u => sfClearAt u lc cyc (flFlag e.raw)) (fun u => lfClearAt u lc cyc (flFlag e.raw))) lc
      (fun c => atCycle { c with opx := { c.opx with flagWait := c.opx.flagWait.erase e } } cyc)) lc)) ∧
  (∀ s lc e (g h : State → State),
    (flSect e.raw = false → flagApply s lc e g h = h s) ∧
    (flSect e.raw = true → spGet 0 (cluster s lc).log.sfRec e.idx < e.occ → flagApply s lc e g h =
      g (modCluster s lc (fun c => { c with log := { c.log with sfRec := spSet 0 c.log.sfRec e.idx e.occ } }))) ∧
    (flSect e.raw = true → e.occ ≤ spGet 0 (cluster s lc).log.sfRec e.idx → flagApply s lc e g h = s)) ∧
  (∀ s lc q cyc e d, pick s lc q cyc (fun e => cOp e.raw == oFWAIT && !(setHas (cluster s lc).log.waiting (headCode q e)) &&
      ((q == 0 && cStream e.raw == 0) || readyAt (cluster s lc) e cyc) && (dueOf (cluster s lc) e).isSome) = some e → dueOf (cluster s lc) e = some d →
    let start := if q = 0 ∧ cStream e.raw = 0 then d else cyc
    (e.live = false → exec (.flgWait lc q cyc) s = .next (retire (modCluster s lc (fun c => openNext (atCycle c start) e (d + 1))) lc q e)) ∧
    (e.live = true → q = 0 ∧ cStream e.raw = 0 → isLate e cyc d = true → exec (.flgWait lc q cyc) s =
      .next (raiseSlip (modCluster s lc (fun c => dropEntry (atCycle c (d - 2)) q e)) lc q e ⟨8, d - 2, 0, 0, 0, 0⟩)) ∧
    (e.live = true → ¬(q = 0 ∧ cStream e.raw = 0 ∧ isLate e cyc d = true) → flThresh e.raw ≤ flagCount s lc e.raw →
      ((setsNow s lc start e.raw).isSome = true → exec (.flgWait lc q cyc) s =
        .next (waitNow (modCluster s lc (fun c => atCycle c start)) lc start (headCode q e) e.raw)) ∧
      (setsNow s lc start e.raw = none → exec (.flgWait lc q cyc) s = .next (retire (modCluster s lc (fun c => openNext (atCycle c start) e (start + 1))) lc q e))) ∧
    (e.live = true → ¬(q = 0 ∧ cStream e.raw = 0 ∧ isLate e cyc d = true) → flagCount s lc e.raw < flThresh e.raw → exec (.flgWait lc q cyc) s =
      .next (modCluster s lc (fun c => { (atCycle c start) with log := { c.log with waiting := setAdd c.log.waiting (headCode q e) } })))) ∧
  (∀ s lc q cyc w e, (headCodes q).find? (fun w => setHas (cluster s lc).log.grant w && setHas (cluster s lc).log.waiting w) = some w →
      headAt (cluster s lc) w = some e →
    let b := spGet (0, 0) (cluster s lc).log.grantAt w
    let x := if b = (0, 0) then cyc else max b.1 (min b.2 cyc)
    issuingAt s lc x = true →
    exec (.flagWaiterRelease lc q cyc) s = .next (retire (modCluster s lc (fun c =>
      let d := openNext (atCycle c x) e (x + 1)
      { d with log := { d.log with waiting := setDel d.log.waiting w, grant := setDel d.log.grant w, grantAt := spDel d.log.grantAt w } })) lc q e))

/-- DATUM writes its record, and the acknowledged record opens the next interval. Rests on R141, R125, R174, R214, R225, R33, R382. What a
handle's charge and a record's place cost the budgets follows log 45. -/
def Obligations.DatumCompletes : Prop :=
  (∀ s lc raw, seqHead s lc oDATUM = some raw → predHolds (cluster s lc) raw = true → quiet (cluster s lc) = true →
      (datumStep raw = false ∨ setHas s.train.stopOwed lc = false) → refused (cluster s lc) = false → (cluster s lc).log.through = false →
      (cluster s lc).log.poisonN = 0 → checkFailed (cluster s lc) = false →
    let c := cluster s lc
    let a := c.seq.hdr.datumBase + 4096 * b2n c.seq.slot
    heldRange s a 4096 = false → admits s 2 (devCells (secOf lc) a true) = true →
    exec (.datum lc) s = .next (modCluster (chargeDev (devWrite (noteUnmapped s lc c.seq.pc [a]) a (recordBytes s lc (c.seq.pc + 1) (datumStep raw)) false 0)
      (secOf lc) 2 a 4096 true) lc (fun c => { (applyStaged c) with seq := { (applyStaged c).seq with wait := .record } }))) ∧
  (∀ s lc raw, seqHead s lc oDATUM = some raw → predHolds (cluster s lc) raw = false →
    exec (.datum lc) s = .next (dispatch (modCluster s lc (fun c => { c with seq := { c.seq with pc := c.seq.pc + 1 } })) lc)) ∧
  (∀ s lc cyc, (cluster s lc).seq.wait = .record → (cluster s lc).seq.stop = none → s.op = .running → (cluster s lc).mem.arm = false →
      (cluster s lc).log.moveDue = false →
    let step := datumStep (fetchCmd (cluster s lc) (cluster s lc).seq.pc)
    let n := nextCounts s lc step
    let v := modCluster (countReadies (releaseMarked s lc) lc) lc (fun c =>
      beginAt (closeInterval { c with seq := { c.seq with slot := !c.seq.slot, pc := c.seq.pc + 1, prm := spSet 0 (spSet 0 (spSet 0 c.seq.prm 248 n.1) 253 n.2.1) 252 n.2.2 } } step) (cyc + 1))
    exec (.datumRecordAck lc cyc none) s =
      .next (dispatch (if stateStep s < stateStep v then { v with ckpt := v.ckpt.endStep v.clk.aon } else v) lc))

/-- A replay restores from the record what the DATUM saved. Rests on R141, R142, R144, R366, Table 5-6, Table 13-5. Restoring the handles of the
record into any later state gives back every handle that it says is held and not released by it, with tensor, slot and version, and empties
the others; of a newest record this is said for handles that are not held at the replay, since the model keeps a hold that the running
interval took, whose VER.HOLD it does not redo (log 36). -/
def Obligations.RecordRestoresWhatDatumSaved : Prop :=
  (∀ (s : State) (lc resume : Nat) (step : Bool) (d : Cluster), lc < 256 → resume < 16384 →
    let c := cluster s lc
    spWf 0 c.seq.cnt = true → (∀ e, e ∈ c.seq.cnt → e.1 < 16 ∧ e.2 < 2 ^ 48) →
    spWf 0 c.seq.lf = true → (∀ e, e ∈ c.seq.lf → e.1 < 64 ∧ e.2 ≤ 65535) → c.seq.cmp < 256 → c.log.syncN < 2 ^ 32 →
    (∀ k, prmGet s lc k < 2 ^ 64) →
    (recordBytes s lc resume step).length = 4096 ∧
    (∀ k, k < 256 → (recordOk k ⟨recordBytes s lc resume step, false⟩ = true ↔ k = lc)) ∧
    (∀ k, recordOk k ⟨recordBytes s lc resume step, true⟩ = false) ∧
    let r := restoreRecord d (recordBytes s lc resume step)
    r.seq.pc = resume ∧ r.seq.cnt = c.seq.cnt ∧ r.seq.cmp = c.seq.cmp ∧ r.seq.lf = c.seq.lf ∧ r.log.syncN = c.log.syncN ∧ r.seq.loops = [] ∧
      (∀ k, k < 248 → spGet 0 r.seq.prm k = prmGet s lc k) ∧ spGet 0 r.seq.prm 248 = (nextCounts s lc step).1 ∧
      spGet 0 r.seq.prm 253 = (nextCounts s lc step).2.1 ∧ spGet 0 r.seq.prm 252 = spGet 0 d.seq.prm 252 ∧
      r.mem = d.mem ∧ r.opx = d.opx ∧ r.vr = d.vr) ∧
  (∀ (s u : State) (lc resume h : Nat) (step latest : Bool), lc < 256 → resume < 16384 → h < 8 →
    (∀ k, k < 8 → (handleOf s lc k).tensor < 2 ^ 13 ∧ (handleOf s lc k).slot < 4 ∧ (handleOf s lc k).ver < 2 ^ 32) →
    (latest = false ∨ (handleOf u lc h).held = false) →
    let x := handleOf s lc h
    let y := handleOf (restoreHandles u lc (recordBytes s lc resume step) latest) lc h
    (x.held = true → x.release = false → y.held = true ∧ y.release = false ∧ y.tensor = x.tensor ∧ y.slot = x.slot ∧ y.ver = x.ver) ∧
    (x.held = false ∨ x.release = true → y.held = false))

/-- VER.HOLD, VER.DROP, COMMIT.READY and LOSS.POST take effect and retire. Rests on R213, R214, R225, R173, R220, R175. LOSS.POST reads its
scalar or its word and adds it to its monitor once for each recorded execution, poison as NaN; that POSTS saturates is the model's choice
(log 14). -/
def Obligations.VersionReadyAndLossComplete : Prop :=
  (∀ s lc q cyc e, pickOp s lc q cyc oHOLD = some e → missedDue (cluster s lc) q cyc e = none → e.live = true →
    (spGet 0 (cluster s lc).log.holdRec e.idx < e.occ →
      let u := modCluster s lc (fun c => { c with log := { c.log with holdRec := spSet 0 c.log.holdRec e.idx e.occ } })
      let v := vtOf s (holdTensor e.raw)
      (handleOf s lc (holdHandle e.raw)).held = false →
      exec (.verHold lc q cyc) s = .next (retireAt (setHandle (modVt u (holdTensor e.raw) (fun v => modHold v v.cur (fun n => n + 1))) lc (holdHandle e.raw)
        ⟨holdTensor e.raw, v.cur, true, false, v.ver, intervalId u lc⟩) lc q cyc e)) ∧
    (e.occ ≤ spGet 0 (cluster s lc).log.holdRec e.idx → (handleOf s lc (holdHandle e.raw)).held = true → exec (.verHold lc q cyc) s = .next (retireAt s lc q cyc e))) ∧
  (∀ s lc q cyc e, pickOp s lc q cyc oDROP = some e → missedDue (cluster s lc) q cyc e = none → e.live = true →
      (handleOf s lc (holdHandle e.raw)).held = true →
    exec (.verDrop lc q cyc) s = .next (retireAt (setHandle s lc (holdHandle e.raw) { (handleOf s lc (holdHandle e.raw)) with release := true }) lc q cyc e)) ∧
  (∀ s lc q cyc e, (q = 0 → flagReady s lc oREADY = none) → pickOp s lc q cyc oREADY = some e → missedDue (cluster s lc) q cyc e = none → queueDone (cluster s lc) q e = true → e.live = true →
    exec (.commitReady lc q cyc) s = .next (retireAt (modCluster s lc (fun c =>
      { c with log := { c.log with readies := c.log.readies ++ [(readyGroup e.raw, readyNew e.raw)] } })) lc q cyc e)) ∧
  (∀ s lc q cyc e, pickOp s lc q cyc oLOSS = some e → missedDue (cluster s lc) q cyc e = none → e.live = true →
    let r := readLoss (cluster s lc).mem e
    let u := modCluster s lc (fun c => consumePoison { c with mem := spTouch c.mem r.ws } (b2n r.poison))
    let x := if r.poison then 0x7FC00000#32 else r.v
    ((sref e.raw 0).mode = 3 ∨ formed e (sref e.raw 0) + 3 ≤ spTop) → r.bad = none →
    (spGet 0 (cluster s lc).log.lossRec e.idx < e.occ → exec (.lossPost lc q cyc) s = .next (retireAt (modMonitor (modCluster u lc
      (fun c => { c with log := { c.log with lossRec := spSet 0 c.log.lossRec e.idx e.occ } })) (lossMon e.raw)
      (fun m => { m with sum := f32Add m.sum x, posts := min 65535 (m.posts + 1) })) lc q cyc e)) ∧
    (e.occ ≤ spGet 0 (cluster s lc).log.lossRec e.idx → exec (.lossPost lc q cyc) s = .next (retireAt u lc q cyc e)))

/-- SYNC reports its ordinal, completes when every cluster has reported, and its limit is raised once. Rests on R130. -/
def Obligations.SyncCompletes : Prop :=
  (∀ s lc raw, seqHead s lc oSYNC = some raw → predHolds (cluster s lc) raw = true → quiet (cluster s lc) = true →
      s.prog.syncDone ≤ (cluster s lc).log.syncN → (∀ r, r ∈ s.prog.sync → r.ordinal ≠ (cluster s lc).log.syncN) →
    let t := modCluster s lc (fun c => { c with seq := { c.seq with wait := .sync } })
    exec (.sync lc) s = .next { t with prog := { t.prog with sync := s.prog.sync ++ [⟨(cluster s lc).log.syncN, s.clk.aon, [lc], false⟩] } }) ∧
  (∀ s n cycs r, s.op = .running → s.prog.syncDone ≤ n → s.prog.sync.find? (fun r => r.ordinal == n) = some r →
      (∀ lc, lc ∈ syncMembers s → setHas r.reported lc = true) →
    exec (.syncComplete n cycs) s =
      .next (openSync { s with prog := { s.prog with syncDone := n + 1, sync := s.prog.sync.filter (fun x => x.ordinal != n) } } n cycs)) ∧
  (∀ s n r, s.op = .running → s.prog.sync.find? (fun r => r.ordinal == n) = some r → r.raised = false →
      r.since + 50 * syncLimitMin s ≤ s.clk.aon →
    let missing := (syncMembers s).filter (fun lc => !(setHas r.reported lc))
    let u := logEvent s 0x0003 5 4 0 noLink (packFields [(n, 32), (missing.length, 32)])
    let v := logEvent u 0x0003 5 4 0 (lastEntry u) (missing.foldl (fun m lc => m ||| 2 ^ lc) 0)
    exec (.syncTimeout n) s = .next { v with prog := { v.prog with sync := v.prog.sync.map (fun x => if x.ordinal = n then { x with raised := true } else x) } }) ∧
  (∀ s n r, s.prog.sync.find? (fun r => r.ordinal == n) = some r → r.raised = true ∨ s.clk.aon < r.since + 50 * syncLimitMin s →
    exec (.syncTimeout n) s = .next s)

/-- A stopped cluster replays from its last datum or takes the response its fault has, and a deadlocked barrier group is halted. Rests on R135,
R136, R137, R132, R131, R369, R93, R234, Table 13-6. With a parity operand a cluster that is not stopped first reports it (log 42).
FLAG_DEADLOCK of a group whose clusters are all stuck and no work outside can set an awaited flag halts the group, discards both banks of
its clusters and logs its waits (log 43). Normal timing read as in log 36. -/
def Obligations.ReplayAndDeadlockComplete : Prop :=
  (∀ s lc cyc f, s.op = .running → (cluster s lc).inConsist = true → (cluster s lc).pausedOk = false → (cluster s lc).seq.stop ≠ none →
    let u := endFlights s lc
    let c := cluster u lc
    let go := exec (.clusterReplay lc ⟨cyc, none, f⟩) s
    (c.seq.stop = some .slip → c.log.slips < 3 → go = .next (replayCluster u lc cyc true
        (if c.log.conservative = true ∧ 2 ≤ c.log.slips then min 64 (2 * c.log.gForce) else c.log.gForce))) ∧
    (c.seq.stop = some .slip → 3 ≤ c.log.slips → go = .next (stepFaulted u c.log.faultIdx)) ∧
    (c.seq.stop = some .checksum ∧ repeats c 1 ≤ 1 ∨ c.seq.stop = some .poison ∧ repeats c 2 ≤ 1 → go = .next (replayCluster u lc cyc false c.log.gForce)) ∧
    (c.seq.stop = some .ctrlParity ∧ repeats c 3 ≤ 1 ∨ c.seq.stop = some .resumeFail ∨
        c.seq.stop = some .monitor ∧ (sectionOf u (secOf lc)).tripped = false →
      go = .next (replayCluster u lc cyc c.log.conservative c.log.gForce)) ∧
    (c.seq.stop = some .poison → 2 ≤ repeats c 2 → f = none → go = .next (modCluster u lc (fun c =>
      { c with seq := { c.seq with stop := none, wait := .run }, log := { c.log with through := true }, mem := runTests c.mem (2 ^ 64 - 1) true none }))) ∧
    (c.seq.stop = some .poison → 2 ≤ repeats c 2 → f.isSome = true → go = .next (recoveryFailed u lc f)) ∧
    (c.seq.stop = some .seqMemory → repeats c 4 = 2 → go = .next u) ∧
    (c.seq.stop = some .seqMemory → 3 ≤ repeats c 4 → go = .next (stepFaulted u c.log.faultIdx)) ∧
    (c.seq.stop = some .seqMemory → repeats c 4 < 2 → f.isSome = true → go = .next (recoveryFailed u lc f)) ∧
    (∀ x y, c.seq.stop = some .seqMemory → repeats c 4 < 2 → f = none →
      reloadPart (modMem u lc (fun m => runTests m (2 ^ 64 - 1) true none)) lc = (some x, y) →
      go = .next (replayCluster x lc cyc c.log.conservative c.log.gForce))) ∧
  (∀ s lc cyc f q idx, s.op = .running → (cluster s lc).inConsist = true → (cluster s lc).pausedOk = false → (cluster s lc).seq.stop = none →
    exec (.clusterReplay lc ⟨cyc, some (q, idx), f⟩) s = exec (.clusterReplay lc ⟨cyc, none, f⟩) (raiseParity s lc q idx)) ∧
  (∀ s sec g, s.op = .running →
      let lcs := groupLcs s sec g
      let ws := lcs.flatMap (waitsOf s)
      ws ≠ [] → setHas (sectionOf s sec).haltedGroups g = false → (∀ lc, lc ∈ lcs → clusterStuck (cluster s lc) = true) →
      (∀ w, w ∈ ws → outsideSetter s sec g w.2.2 = false) →
    exec (.flagDeadlock sec g) s = .next (logWaits (lcs.foldl (fun u lc => modCluster u lc dropBanks)
      (modSection s sec (fun k => { k with haltedGroups := setAdd k.haltedGroups g }))) ws.length 0 ws))

/-- TABLET_WRITE, BANK_POWER_DONE and ECC_WRITEBACK take effect. Rests on R234, R236, R240, R241. The window accesses that wait are then tried
again (R241; that they wait in one list for the module is the model's choice, log 45). -/
def Obligations.TabletAndWriteBackCommandsComplete : Prop :=
  (∀ s lc mem bank (v : BitVec 2), tabletMay s lc mem bank v.toNat = true →
    (tablet (cluster s lc).mem mem bank < 2 → v.toNat < 2 →
      exec (.tabletWrite lc mem bank v) s = .next (serveWaiting (modMem s lc (fun m =>
        { m with tab := spPut m.tab (tabIdx mem bank) v.toNat, moving := spDel m.moving (tabIdx mem bank) })))) ∧
    (2 ≤ v.toNat → tablet (cluster s lc).mem mem bank = v.toNat →
      exec (.tabletWrite lc mem bank v) s = .next (serveWaiting (modMem s lc (fun m => { m with moving := spDel m.moving (tabIdx mem bank) })))) ∧
    (2 ≤ v.toNat ∨ 2 ≤ tablet (cluster s lc).mem mem bank → tablet (cluster s lc).mem mem bank ≠ v.toNat →
      exec (.tabletWrite lc mem bank v) s = .next (serveWaiting (modMem s lc (fun m => { m with moving := spPut m.moving (tabIdx mem bank) v.toNat }))))) ∧
  (∀ s lc mem bank (v : BitVec 2), tabletMay s lc mem bank v.toNat = false → exec (.tabletWrite lc mem bank v) s = .next (serveWaiting s)) ∧
  (∀ s, s.tt.waiting = [] → serveWaiting s = s) ∧
  (∀ s lc mem bank e, s.boot.phase ≠ .safe → mem < 3 → bank < bankCount mem → (cluster s lc).mem.moving.find? (fun e => e.1 == tabIdx mem bank) = some e →
    exec (.bankPowerDone lc mem bank) s = .next (modMem s lc (fun m =>
      let k := if tablet m mem bank = 3 ∧ e.2 ≠ 3 then clearBank m mem bank else m
      { k with tab := spPut k.tab (tabIdx mem bank) e.2, moving := spDel k.moving (tabIdx mem bank) }))) ∧
  (∀ s lc mem word, mem < 2 → setHas (cluster s lc).mem.wb (mem * 65536 + word) = true →
    let m := (cluster s lc).mem
    let k := eccClear { m with wb := setDel m.wb (mem * 65536 + word) } mem word [0, 1, 2, 3]
    (wordUe m mem word = false → exec (.eccWriteback lc mem word) s = .next (modMem s lc (fun _ => k))) ∧
    (wordUe m mem word = true → mem = 0 → exec (.eccWriteback lc mem word) s = .next (modMem s lc (fun _ =>
      { k with wmeta := spMod WordMeta.clear k.wmeta word (fun x => { x with poison := true }) }))) ∧
    (wordUe m mem word = true → mem = 1 → exec (.eccWriteback lc mem word) s = .next (modMem s lc (fun _ =>
      { k with sideClean := setDel k.sideClean word })))) ∧
  (∀ s lc word, setHas (cluster s lc).mem.wb (2 * 65536 + word) = true → exec (.eccWriteback lc 2 word) s = .next (modMem s lc (fun m =>
    eccClear { m with wb := setDel m.wb (2 * 65536 + word) } 2 word (correctable m.seqEcc word)))) ∧
  (∀ s lc word, setHas s.hub.wb word = true → exec (.eccWriteback lc 3 word) s = .next { s with hub := { s.hub with wb := setDel s.hub.wb word, err := (correctable s.hub.err word).foldl (fun t g => spDel t (4 * word + g)) s.hub.err } }) ∧
  (∀ s lc mem word, mem < 3 → setHas (cluster s lc).mem.wb (mem * 65536 + word) = false → exec (.eccWriteback lc mem word) s = .next s)

/-- PRESERVING_MARCH, MARCH_ARM, MARCH_OVERDUE and PATROL_SCRUB_READ take effect. Rests on R247, R248, R250, R251, R256, R421. -/
def Obligations.MarchAndPatrolCommandsComplete : Prop :=
  (∀ s lc mem word n b, (mem = 1 ∧ n = 4096 ∧ b = 4 ∧ word = (cluster s lc).mem.posSide ∨ mem = 2 ∧ n = 8192 ∧ b = 8 ∧ word = (cluster s lc).mem.posSeq) →
      word < n → arithRuns s = true → (lcEntry s lc).mapped = true → tablet (cluster s lc).mem mem (word % b) = 0 →
    let u := modMem s lc (fun m => sweepPos (eccRead m mem word [0, 1, 2, 3]).1 mem n word none)
    (wordUe (cluster s lc).mem mem word = false →
      exec (.preservingMarch lc mem word false) s = .next (modMem s lc (fun m => sweepPos m mem n word none)) ∧
      exec (.preservingMarch lc mem word true) s = .next (hardFailure (modMem s lc (fun m =>
        sweepPos (if mem = 1 then { m with sideClean := setDel m.sideClean word } else m) mem n word (some (mem, word % b, word / b)))) lc)) ∧
    (wordUe (cluster s lc).mem mem word = true → ∀ f, exec (.preservingMarch lc mem word f) s =
      .next (if mem = 2 ∧ (cluster u lc).inConsist = true then stopCluster u lc .seqMemory else u))) ∧
  (∀ s lc word f, word = s.hub.pos → hubRuns s = true → exec (.preservingMarch lc 3 word f) s = .next (hubMarch s word)) ∧
  (∀ m word, (word + 1 < 4096 → sweepPos m 1 4096 word none = { m with posSide := word + 1 } ∧
      ∀ x, sweepPos m 1 4096 word (some x) = { m with posSide := word + 1, sweepSide := some (m.sweepSide.getD x), lastFail := true, fail := m.sweepSide.getD x }) ∧
    (word + 1 < 8192 → sweepPos m 2 8192 word none = { m with posSeq := word + 1 } ∧
      ∀ x, sweepPos m 2 8192 word (some x) = { m with posSeq := word + 1, sweepSeq := some (m.sweepSeq.getD x), lastFail := true, fail := m.sweepSeq.getD x })) ∧
  (∀ s, s.boot.phase = .up → hubRuns s = true →
    exec .marchArm s = .next (((List.range 256).filter (fun lc => (lcEntry s lc).mapped)).foldl (fun u lc => modMem u lc (fun m =>
      { m with armMask := 2 ^ 64 - 1, armedAt := if m.arm then m.armedAt else s.clk.aon, arm := true, dueSide := m.dueSide || !m.passSide, dueSeq := m.dueSeq || !m.passSeq, passSide := false, passSeq := false })) s)) ∧
  (∀ s lc march, (cluster s lc).mem.arm = true → (cluster s lc).mem.armedAt + 2880000000000 ≤ s.clk.aon → (lcEntry s lc).mapped = true →
      s.boot.phase = .up → hubRuns s = true →
    let u := if (cluster s lc).mem.overdue then s
      else logEvent (modMem s lc (fun m => { m with overdue := true })) 0x0030 7 0 lc noLink (packFields [(lc, 8)])
    let w := modMem u lc (fun m => { (noteMarch (marchScratch m m.armMask) 0 (march.map (fun x => (0, x.1, x.2)))) with arm := false, overdue := false })
    (s.op = .idle ∨ s.op = .loaded → march = none → exec (.marchOverdue lc march) s = .next w) ∧
    (s.op = .idle ∨ s.op = .loaded → march ≠ none → exec (.marchOverdue lc march) s = .next (hardFailure w lc)) ∧
    (s.op ≠ .idle → s.op ≠ .loaded → exec (.marchOverdue lc march) s = .next u)) ∧
  (∀ s lc march, s.clk.aon < (cluster s lc).mem.armedAt + 2880000000000 → exec (.marchOverdue lc march) s = .next s) ∧
  (∀ s stk, stk < 12 → (stkOf s stk).refresh = false → (stkOf s stk).off = false → memRuns s = true → setHas s.boot.done 6 = true →
    (ttAdmits s 0 stk 5 = false → exec (.patrolScrubRead stk) s = .next (ttWait s 0 stk 5)) ∧
    (ttAdmits s 0 stk 5 = true → exec (.patrolScrubRead stk) s = .next (
      modStk (ttCharge (dramTouch s stk (64 * (stkOf s stk).pos) true) 0 stk 5 1) stk (fun k =>
        if k.pos + 1 < 2 ^ 31 then { k with pos := k.pos + 1 }
        else { k with pos := 0, passes := satAdd 16 k.passes 1, lastPass := min (2 ^ 17 - 1) ((s.clk.mem - k.passStart) / 1000000000), passStart := s.clk.mem }))))

/-- What the units with one layer of defence, the input, a critical sensor and a second restart lead to. Rests on R367, R392, R393, R394, R430,
R485. The causes that SAFE_STATE carries are the model's numbers (log 13). -/
def Obligations.SafeStateEntryComplete : Prop :=
  (∀ s u c, powered s = true → s.boot.phase ≠ .safe →
    let t := enterSafe s u c
    t.boot.phase = .safe ∧ t.faultPin = true ∧ t.op = .halted ∧ arithRuns t = false ∧ (s.mb.pauseOf = none → t.cl = s.cl) ∧ t.su = s.su ∧
      t.slp.entering = none ∧ t.slp.waking = false ∧ t.store = s.store ∧
      t.link = s.link ∧ t.map = s.map) ∧
  (∀ s u, powered s = true → s.boot.phase ≠ .safe → u < 3 → exec (.lockstepMismatch u) s =
    .next (enterSafe (if u = 1 then { s with su := { s.su with wkeys := [], fkeys := [], ckey := none } } else s) u 1)) ∧
  (∀ s, exec .inputOvervoltage s = .next (enterSafe s 7 5)) ∧
  (∀ s n x w h c, powered s = true → n ≤ 18 → thresholds n = some (w, h, c) → c * 256 ≤ x → w ≤ c → h < c →
    ∃ t, exec (.thermalThreshold n x) s = .next (enterSafe t 7 4) ∧ t.cl = s.cl ∧ t.boot = s.boot) ∧
  (∀ s c ms i, hubRuns s = true → s.boot.phase = .up → (∃ x, s.mb.restartAt = some x ∧ s.clk.aon < x + 3000000000) →
    exec (.smRestart c ms i) s = .next (enterSafe s 4 3)) ∧
  (∀ s sec k (v : BitVec 32), sec < 4 → arithRuns s = true → 2 ≤ (recentTrips s sec).length →
    exec (.monitorTrip sec k v) s = .next (enterSafe (logEvent (reformPieces (modSection s sec (fun x =>
      { x with trips := recentTrips s sec ++ [s.clk.aon], tripped := true })) sec) 0x0061 6 1 sec noLink (packFields [(sec, 2), (b2n k, 8), (v.toNat, 32)])) 1 2))

/-- SIDING_MOVE, PACE_LAG, MONITOR_TRIP, MONITOR_RECOVERED and STATIONMASTER_RESTART take effect. Rests on R367, R370, R373, R390, R392.
Firmware that does not verify is not run, and the mailbox stays down: the model's choice (log 46), as are that the restart is one step (log
36) and that a restart ends the stored errors of hub SRAM (log 9). -/
def Obligations.RecoveryCommandsComplete : Prop :=
  (∀ s lc cyc b, s.op = .running → (cluster s lc).inConsist = true → moveDueNow (cluster s lc) = true →
      ((cluster s lc).seq.stop ≠ some .poison ∨ b.isSome = true) → admits s 7 (devCells (secOf lc) (spGet 0 s.prog.parts lc) false) = true →
    exec (.sidingMove lc cyc b) s = .next (moveCluster s lc cyc b)) ∧
  (∀ s lc cyc b, freeSidings s (secOf lc) = [] → moveCluster s lc cyc b =
    stepFaulted (setLc { s with map := { s.map with fenced := setAdd s.map.fenced (68 * secOf lc + (lcEntry s lc).phys) } } lc
      (fun e => { e with mapped := false })) (cluster s lc).log.faultIdx) ∧
  (∀ s lc, (cluster s lc).inConsist = true → s.op = .running → 26215 < (cluster s lc).log.lost.foldl (· + ·) 0 → (cluster s lc).log.lagPosted = false →
    ∃ t, exec (.paceLag lc) s = .next t ∧
      t = modCluster (logEvent s 0x0062 7 0 lc noLink (packFields [(lc, 8), ((cluster s lc).log.lost.foldl (· + ·) 0, 32)])) lc
        (fun c => { c with log := { c.log with lagPosted := true, moveDue := c.log.moveDue || s.ckpt.policy.paceMove } })) ∧
  (∀ s lc, (cluster s lc).log.lost.foldl (· + ·) 0 ≤ 26215 → exec (.paceLag lc) s = .next s) ∧
  (∀ s sec k (v : BitVec 32), sec < 4 → arithRuns s = true → (recentTrips s sec).length < 2 →
    ∃ t, exec (.monitorTrip sec k v) s = .next t ∧
      let u := logEvent (reformPieces (modSection s sec (fun x => { x with trips := recentTrips s sec ++ [s.clk.aon], tripped := true })) sec)
        0x0061 1 1 sec noLink (packFields [(sec, 2), (b2n k, 8), (v.toNat, 32)])
      t = ((consistLcs u).filter (fun lc => secOf lc == sec)).foldl (fun s lc => stopWith s lc .monitor) u) ∧
  (∀ s sec, (sectionOf s sec).tripped = true →
    exec (.monitorRecovered sec) s = .next (modSection s sec (fun k => { k with tripped := false }))) ∧
  (∀ s c ms i, hubRuns s = true → s.boot.phase = .up → (∀ x, s.mb.restartAt = some x → x + 3000000000 ≤ s.clk.aon) → i.good = true →
    let r := [0, 1, 2, 3].foldl (fun s r => modRing s r (fun x => { x with first := true }))
        { s with mb := { s.mb with restartAt := some s.clk.aon, serviceUp := true } }
    ∃ t u, exec (.smRestart c ms i) s = .next (askDecisions t) ∧
      u = logEvent (noteInterruption { r with hub := { r.hub with err := [], wb := [] } }) 0x0068 7 4 0 noLink (packFields [(c, 8), (ms, 32)]) ∧
      t = { (faultLong (abandonCkpt u) (fun _ => false)) with ckpt := { (faultLong (abandonCkpt u) (fun _ => false)).ckpt with nowSeqs := [], waitSeqs := [], verify := none } }) ∧
  (∀ s c ms i, hubRuns s = true → s.boot.phase = .up → (∀ x, s.mb.restartAt = some x → x + 3000000000 ≤ s.clk.aon) → i.good = false →
    exec (.smRestart c ms i) s = .next { s with mb := { s.mb with restartAt := some s.clk.aon, serviceUp := false } })

/-- THERMAL_THRESHOLD, THERMAL_CEILING_STEP, POWER_SAMPLE, TIME_SAMPLE_SET and TIMETABLE_PERIOD take effect. Rests on R417, R419, R421, R373,
R429, R430, Table 15-8. Which requests wait and in which lists are the model's choices (log 45); operands give the sensors' readings (log
37). -/
def Obligations.PowerAndTimeCommandsComplete : Prop :=
  (∀ s n x w h c, powered s = true → n ≤ 18 → thresholds n = some (w, h, c) → x < c * 256 →
    ∃ t, exec (.thermalThreshold n x) s = .next t ∧ t.pw.temps = spSet 0 s.pw.temps n x ∧ t.boot = s.boot ∧ t.cl = s.cl ∧
      t.pw.hot = (if h * 256 < x then setAdd s.pw.hot n else setDel s.pw.hot n) ∧
      t.pw.warm = (if w * 256 ≤ x then setAdd s.pw.warm n else setDel s.pw.warm n) ∧
      (x < w * 256 → t.smb = s.smb) ∧ (w * 256 ≤ x → ∃ u, t = setAlert u aTEMP)) ∧
  (∀ s n, powered s = true → n ≤ 18 → ∃ t, exec (.thermalCeilingStep n) s = .next t ∧
    t = (if perfBits s = perfBits (thermalStep s n) then thermalStep s n else sampleSet (thermalStep s n))) ∧
  (∀ s r, powered s = true → ∃ t, exec (.powerSample r) s = .next t ∧
    t = (if perfBits s = perfBits (powerSampleOp s r) then powerSampleOp s r else sampleSet (powerSampleOp s r))) ∧
  (∀ s, s.boot.phase = .up → hubRuns s = true → spWf (0, 0) s.time.pairs = true → ∃ t, exec .timeSampleSet s = .next t ∧ t = { s with time := t.time } ∧
    t.time.seq = (s.time.seq + 2) % 2 ^ 32 ∧
    (∀ d, d < 28 → domRuns s d = true → spGet (0, 0) t.time.pairs d = (s.clk.aon, domCount s d) ∧ tbit t.time.run d = true) ∧
    (∀ d, d < 28 → domRuns s d = false → spGet (0, 0) t.time.pairs d = spGet (0, 0) s.time.pairs d ∧ tbit t.time.run d = false)) ∧
  (∀ s k i, i < ttInstances k → powered s = true → ttPeriod s k i = spGet 0 s.tt.periods (256 * k + i) → exec (.timetablePeriod k i) s = .next s) ∧
  (∀ s k i, i < ttInstances k → powered s = true → ttPeriod s k i ≠ spGet 0 s.tt.periods (256 * k + i) →
    let last := spGet 0 s.tt.periods (256 * k + i)
    let u := { s with tt := { s.tt with periods := spSet 0 s.tt.periods (256 * k + i) (if last < ttPeriod s k i then last + 1 else ttPeriod s k i) } }
    let v := [0, 1, 2, 3, 4, 5, 7, 8].foldl (fun x a => if (ttPermille k a).isSome then ttRefill x k i a else x) u
    let w := serveWaiting (if k = 2 then flushPort v i else if k < 2 ∧ portsServe v then advanceAll v else v)
    (¬(k = 3 ∧ (cluster w i).inConsist = true) → exec (.timetablePeriod k i) s = .next w) ∧
    (k = 3 → (cluster w i).inConsist = true → exec (.timetablePeriod k i) s =
      .next (modCluster w i (fun c => { c with log := { c.log with lost := (0 :: c.log.lost).take 64 } }))))

/-- CV_START, CV_FEED and CV_VALUE_WRITE act on one unit as R410 to R412 say. Rests on R410, R411, R412, Table 14-6. -/
def Obligations.CheckUnitCommandsComplete : Prop :=
  (∀ s u (x : Word64), u < 8 → hubRuns s = true → natBits x.toNat 0 6 < 7 → exec (.cvStart u x) s = .next (modCv s u (fun k => k))) ∧
  (∀ s u (x : Word64), u < 8 → hubRuns s = true → 7 ≤ natBits x.toNat 0 6 →
    exec (.cvStart u x) s = .next (modCv s u (fun k =>
      { k with widthM1 := natBits x.toNat 0 6, refin := natBits x.toNat 6 1 == 1, refout := natBits x.toNat 7 1 == 1, finv := natBits x.toNat 8 1 == 1, value := if natBits x.toNat 9 1 = 1 then k.init else k.value, fed := if natBits x.toNat 9 1 = 1 then 0 else k.fed }))) ∧
  (∀ s u (l : List Byte), u < 8 → hubRuns s = true → (l.length = 1 ∨ l.length = 2 ∨ l.length = 4 ∨ l.length = 8) →
    exec (.cvFeed u l) s = .next (modCv s u (fun k =>
      { k with value := l.foldl (crcByte ⟨k.widthM1 + 1, k.poly, k.init, k.refin, k.refout, k.finv⟩) k.value, fed := (k.fed + l.length) % 2 ^ 48 }))) ∧
  (∀ s u (v : Word64), u < 8 → hubRuns s = true → exec (.cvValueWrite u v) s = .next (modCv s u (fun k => { k with value := v.toNat }))) ∧
  (∀ s u (x v : Word64) (l : List Byte), 8 ≤ u ∨ hubRuns s = false →
    exec (.cvStart u x) s = .next s ∧ exec (.cvFeed u l) s = .next s ∧ exec (.cvValueWrite u v) s = .next s) ∧
  (∀ s u f w, spWf .reset s.cv = true → w ≠ u → spGet .reset (modCv s u f).cv w = spGet .reset s.cv w)

/-- Bytes enter a check value, and its result is formed, as R410 writes it. States R410. -/
def Obligations.CheckValueByteRule : Prop :=
  ∀ (c : CrcCfg) (v : Nat) (b : Byte) (l : List Byte), 8 ≤ c.w → c.w ≤ 64 → v < 2 ^ c.w → c.poly < 2 ^ c.w →
    crcByte c v b < 2 ^ c.w ∧
    (c.refin = true → ∃ f : Nat → Nat, f 0 = v ^^^ b.toNat ∧ f 8 = crcByte c v b ∧
      ∀ i, i < 8 → f (i + 1) = (if f i % 2 = 1 then f i / 2 ^^^ reflect c.w c.poly else f i / 2)) ∧
    (c.refin = false → ∃ f : Nat → Nat, f 0 = v ^^^ b.toNat * 2 ^ (c.w - 8) ∧ f 8 = crcByte c v b ∧
      ∀ i, i < 8 → f (i + 1) = (if f i / 2 ^ (c.w - 1) % 2 = 1 then (2 * f i ^^^ c.poly) % 2 ^ c.w else 2 * f i % 2 ^ c.w)) ∧
    crcResult c v = (if c.refin ≠ c.refout then reflect c.w v else v) ^^^ (if c.finv then 2 ^ c.w - 1 else 0) ∧
    (∀ i, i < c.w → (reflect c.w v).testBit i = v.testBit (c.w - 1 - i)) ∧ reflect c.w v < 2 ^ c.w ∧
    crcFeed c v [] = v ∧ crcFeed c v (b :: l) = crcFeed c (crcByte c v b) l ∧
    crcOf c l = crcResult c (crcFeed c c.init l) ∧
    (∀ s u n, u < 8 → hubRuns s = true → (n = 1 ∨ n = 2 ∨ n = 4 ∨ n = 8) → ∀ x : Nat, exec (.cvFeed u (leBytes n x)) s =
      .next (modCv s u (fun k => { k with value := crcFeed (cvCfg k) k.value ((List.range n).map (fun i => BitVec.ofNat 8 (x / 256 ^ i))), fed := (k.fed + n) % 2 ^ 48 }))) ∧
    ∀ k x, 7 ≤ natBits x 0 6 → natBits x 9 1 = 1 → (cvSetCfg x k).value = k.init

/-- Patrol, refresh, wear move, grown-bad retirement, die loss, rebuild, hold release and buddy timeout take effect. Rests on R378, R381, R397,
R398, R404, R405, R406, R407, R421. Which record loses a codeword and how many the lost dies held are free values (log 6). -/
def Obligations.StoreCommandsComplete : Prop :=
  (∀ (s : State) b n h, s.store.ready = true → hubRuns s = true → patrolNext s.store b = true → admits s 5 nandCells = true →
    let u := chargeNand s 5 (blockUsed s.store b)
    let v := { u with store := modBlock { u.store with softN := satAdd 16 u.store.softN (b2n (decide (n = 1))), stripeN := satAdd 16 u.store.stripeN (b2n (decide (n = 2))), patrolLeft := setDel u.store.patrolLeft b } b (fun k => { k with seen := (s.clk.aon : Int), due := k.due || decide (n = 1) || decide (n = 2) || h }) }
    (n < 3 → exec (.storePatrol b n h) s = .next v) ∧ (3 ≤ n → exec (.storePatrol b n h) s = .next (loseRecord v b))) ∧
  (∀ (s : State) b, patrolNext s.store b = true → setHas (holding s.store) b = true) ∧
  (∀ (s : State) b n h, patrolNext s.store b = false → exec (.storePatrol b n h) s = .next s) ∧
  (∀ (s : State) b t, s.store.ready = true → hubRuns s = true → (blockOf s.store b).bad = false → refreshDue s b = true → setHas (holding s.store) b = false →
    (moveWaits s b = true → exec (.blockRefresh b t) s = .next s) ∧
    (moveWaits s b = false → admits s 5 nandCells = true → exec (.blockRefresh b t) s =
      .next (storeWear (modStore (chargeErases s 1) (fun st => eraseBlock st b))))) ∧
  (∀ (s : State) b t, s.store.ready = true → hubRuns s = true → (blockOf s.store b).bad = false → refreshDue s b = true → setHas (holding s.store) b = true →
      lowestFree s.store t = true → t ≠ b → admits s 5 nandCells = true → exec (.blockRefresh b t) s = .next (moveBlock s b t)) ∧
  (∀ (s : State) b t, refreshDue s b = false → exec (.blockRefresh b t) s = .next s) ∧
  (∀ (s : State) b t, s.store.ready = true → hubRuns s = true → setHas (holding s.store) b = true → (blockOf s.store b).erases = (wearSpread s.store).1 →
      (wearSpread s.store).1 + 1000 < (wearSpread s.store).2 → blockFree s.store t = true → (blockOf s.store b).erases < (blockOf s.store t).erases →
      admits s 5 nandCells = true →
    exec (.wearLevelMove b t) s = .next (moveBlock s b t)) ∧
  (∀ (s : State) b t, (wearSpread s.store).2 ≤ (wearSpread s.store).1 + 1000 → exec (.wearLevelMove b t) s = .next s) ∧
  (∀ (s : State) b t, s.store.ready = true → hubRuns s = true → b < inService s.store → (blockOf s.store b).bad = false → 
    let bad := fun (st : Store) => modBlock { st with grownBad := satAdd 16 st.grownBad 1 } b (fun k => { k with bad := true, due := false })
    (setHas (holding s.store) b = false → exec (.grownBad b t) s = .next (storeWear (modStore s bad))) ∧
    (setHas (holding s.store) b = true → lowestFree (bad s.store) t = true → admits s 5 nandCells = true →
      exec (.grownBad b t) s = .next (storeWear (modStore (chargeNand (chargeNand s 5 (blockUsed s.store b)) 5 (blockUsed s.store b))
        (fun st => moveRecords (bad st) s.clk.aon b t))))) ∧
  (∀ (s : State) ch d, s.store.ready = true → hubRuns s = true → ch < 16 → d < channelDies s.store → setHas s.store.dies (ch * 16 + d) = false →
    let u := if s.store.degraded = true ∧ s.store.dies.any (fun x => decide (x / 16 ≠ ch)) = true then secondDie s else s
    exec (.storeDieLost ch d) s = .next (logEvent { u with store := { u.store with degraded := true, dies := setAdd u.store.dies (ch * 16 + d) } }
      0x0071 7 6 0 noLink (packFields [(ch, 32), (d, 32)]))) ∧
  (∀ (s : State), s.store.ready = true → hubRuns s = true → s.store.degraded = true → admits s 5 nandCells = true →
    ∃ n, exec .rebuildEnd s = .next (modStore (chargeCells { s with free := s.free + 1 } 5 nandCells (64 * n))
      (fun st => { st with degraded := false, dies := [] }))) ∧
  (∀ (s : State), s.store.degraded = false → exec .rebuildEnd s = .next s) ∧
  (∀ (s : State) n, admits s 4 nandCells = true → exec (.ckptHoldRelease n) s = .next (advanceCkpt (copyHold s n))) ∧
  (∀ (s : State) c, s.ckpt.cur = some c → c.budOn = true → c.out ≠ [] →
    exec .buddyAckTimeout s = .next (advanceCkpt (postCkptFailed
      { s with ckpt := { s.ckpt with cur := some { c with budOn := false, out := [] } } } c.number 1 2)))

/-- OPX.PASS and the conveyor commands at the head of their queue take effect; the rows that a drain delivers. Rests on R73, R84, R90, R121,
R140, R153, R155, R156, R157, R158, R495. That a stream-1 operation waits in its queue while the conveyor is taken is the model's choice
(log 44). -/
def Obligations.OpxCommandsComplete : Prop :=
  (∀ s lc cyc upto e i, (cluster s lc).opx.open0 = none → (cluster s lc).opx.open1 = none →
      opxPick s lc cyc (fun e => cOp e.raw == oPASS && (openOf (cluster s lc).opx (cStream e.raw)).isNone)
        (fun c e i => let p := planPass c e i; (p.last, passStreams e p 0 p.k)) = some (e, i) →
    let p := planPass (cluster s lc) e i
    let u := modCluster s lc (fun c => let c := dropEntry (atCycle c i) 0 e; { c with opx := setOpen c.opx (cStream e.raw) (some ⟨e, p.t0, 0⟩) })
    (e.live = false → exec (.opxPass lc ⟨cyc, upto⟩) s = .next (retire (modCluster s lc (fun c => atCycle c i)) lc 0 e)) ∧
    (e.live = true → isLate e cyc i = false → passBound e p = none → waveBusy (cluster s lc) e p = false → waveFree (cluster s lc) e p = true →
      (p.t0 = i → exec (.opxPass lc ⟨cyc, upto⟩) s = .next (passGo u lc ⟨e, p.t0, 0⟩ upto)) ∧
      (p.t0 ≠ i → exec (.opxPass lc ⟨cyc, upto⟩) s = .next (dispatch u lc)))) ∧
  (∀ s lc cyc upto x, issuing s lc = true → surveyNow s lc = false → (cluster s lc).opx.open0 = some x →
    exec (.opxPass lc ⟨cyc, upto⟩) s = .next (passGo s lc x upto)) ∧
  (∀ s lc cyc upto x y, issuing s lc = true → surveyNow s lc = false → (cluster s lc).opx.open0 = none → (cluster s lc).opx.open1 = some x →
      elasticPass (cluster s lc) x cyc upto = some y →
    exec (.opxPass lc ⟨cyc, upto⟩) s = .next (passGo s lc y upto)) ∧
  (∀ s lc x, let p := planAt x.e x.t0
    cStream x.e.raw = 0 → x.done < p.k →
      (x.done ≠ 0 ∨ passChecks (cluster s lc) x.e p = none ∧ laterCollision (passStreams x.e p 0 p.k) (actFor (cluster s lc) x.e) = none) →
      p.k ≤ surveyStop s lc p (bankOfB (cluster s lc).opx (passBank x.e.raw)) x.done →
    passGo s lc x none = runUpdates s lc x.e p x.done p.k) ∧
  (∀ s lc cyc e i, ConvHead s lc cyc .drain e i → exec (.opxDrain lc cyc) s =
    .next (dispatch (drainStart (modCluster s lc (fun c => dropEntry (atCycle c i) 0 e)) lc e i) lc)) ∧
  (∀ s lc cyc e i, ConvHead s lc cyc .load e i → exec (.opxLoad lc cyc) s =
    .next (dispatch (loadStart (modCluster s lc (fun c => dropEntry (atCycle c i) 0 e)) lc e i) lc)) ∧
  (∀ s lc cyc e i, ConvHead s lc cyc .image e i → exec (.opxLoadImage lc cyc) s =
    .next (dispatch (imageStart (modCluster s lc (fun c => dropEntry (atCycle c i) 0 e)) lc e i) lc)) ∧
  (∀ s lc cyc e i, ConvHead s lc cyc .save e i → exec (.opxSave lc cyc) s =
    .next (dispatch (saveStart (modCluster s lc (fun c => dropEntry (atCycle c i) 0 e)) lc e i) lc)) ∧
  (∀ s lc cyc e i, ConvHead s lc cyc .survey e i → exec (.opxSurvey lc cyc) s =
    .next (dispatch (surveyStart (modCluster s lc (fun c => dropEntry (atCycle c i) 0 e)) lc e i) lc)) ∧
  (∀ s lc cyc k e i, opxPick s lc cyc (fun e => (cOp e.raw == oDRAIN || cOp e.raw == oLOAD || cOp e.raw == oSAVE || cOp e.raw == oSURVEY) &&
      convKindOf e.raw == k && (cStream e.raw == 0 || !e.live || !(convBusy (cluster s lc).opx cyc))) (fun c e i => (i + convLen c.opx e.raw - 1, convStreams c.opx e i)) = some (e, i) →
      passFirst (cluster s lc) e i = false →
    (e.live = false → opxConv s lc cyc k = retire (modCluster s lc (fun c => atCycle c i)) lc 0 e) ∧
    (e.live = true → isLate e cyc i = false → convBound (cluster s lc) e = none → convBusy (cluster s lc).opx i = true →
      opxConv s lc cyc k = dispatch (modOpx (modCluster s lc (fun c => dropEntry (atCycle c i) 0 e)) lc (fun o =>
      { o with convWait := o.convWait ++ [e] })) lc)) ∧
  (∀ s lc cyc, exec (.opxDrain lc cyc) s = .next (opxConv s lc cyc .drain) ∧ exec (.opxLoad lc cyc) s = .next (opxConv s lc cyc .load) ∧
    exec (.opxLoadImage lc cyc) s = .next (opxConv s lc cyc .image) ∧ exec (.opxSave lc cyc) s = .next (opxConv s lc cyc .save) ∧
    exec (.opxSurvey lc cyc) s = .next (opxConv s lc cyc .survey)) ∧
  (∀ s lc e d, let c := cluster s lc
    let b := bankOfB c.opx (drainBank e.raw)
    let res := drainResult c e.raw
    let st := statusWord b (drainBank e.raw) res (c.opx.drainSeq + 1) d
    let val (x : Nat) : F32 := if b.kind = some true then (spGet Cell.zero b.cells x).s else foldCell (spGet Cell.zero b.cells x)
    let done (c' : Cluster) : State := if tbit st.toNat tsUNB = true then noteUnbounded (setCluster s lc c') lc e.idx b.n else setCluster s lc c'
    let cleared (c' : Cluster) : Prop := bankOfB c'.opx (drainBank e.raw) = Bank.clear b.parity ∧
      bankOfB c'.opx (!(drainBank e.raw)) = bankOfB c.opx (!(drainBank e.raw)) ∧ c'.opx.drainSeq = c.opx.drainSeq + 1
    loadSlot e.raw = none → res.mismatch = false →
    (drainToVec e.raw = true → drainBufferFull c.vr (d + 1) = false → ∃ c' t, drainStart s lc e d = done c' ∧ cleared c' ∧ c'.mem = c.mem ∧
      c'.vr.drain = c.vr.drain ++ [t] ∧ t.isInt = (b.kind == some true) ∧ t.poison = tbit b.status tsPOISON ∧ t.status = st ∧ t.start = d ∧
      ∀ x, x < 16384 → spGet 0 t.vals x = val x) ∧
    (drainToVec e.raw = false →
      let els := (List.range 16384).map (fun x => (⟨(val x).toNat, tbit b.status tsPOISON⟩ : WElem))
      let ps := destPieces c.mem.sp FP32 (formed e (sref e.raw 0)) (sref e.raw 0).lstride els ++
        runPieces (drainStatus e.raw * 64) (leBytes 64 st.toNat) false
      inboundHit c ps = none → ∃ c', drainStart s lc e d = done c' ∧ cleared c' ∧ c'.mem = (spWriteAll c ps (sref e.raw 0).tag).mem))

/-- Deferred starts, completions, automatic surveys, idle arrays and current clamps take effect. Rests on R73, R77, R79, R84, R85, R496. The
cycles kept of a hold, a ramp and an idle array are the model's choice (log 5) (log 44). -/
def Obligations.ConveyorAndClampEventsComplete : Prop :=
  (∀ s lc e r t, (cluster s lc).opx.convWait = e :: r → convEnd (cluster s lc).opx = some t → shifts s lc = true →
    exec (.conveyorDeferredStart lc) s = .next (convStart (modOpx s lc (fun o => { o with convWait := r })) lc e (t + 1))) ∧
  (∀ s lc k r, (cluster s lc).opx.conv = k :: r → shifts s lc = true → (r ≠ [] ∨ (cluster s lc).opx.convWait = []) →
    exec (.conveyorComplete lc) s = .next (dispatch (modCluster s lc (fun c =>
      let b := bankOfB (cluster s lc).opx k.bank
      let c := { c with opx := { (setBank c.opx k.bank (if k.kind = .survey then b else { b with parity := !b.parity })) with conv := r } }
      if c.pausing then c else atCycle c (k.start + k.len))) lc)) ∧
  (∀ s lc k, running s lc = true → (cluster s lc).opx.survey ≠ some k → (cluster s lc).opx.conv = [] → (cluster s lc).opx.convWait = [] →
      surveyDue s (bankOfB (cluster s lc).opx k) = true →
    exec (.autoSurvey lc k) s = .next (modCluster s lc (fun c =>
      addLost (setHold { c with opx := { c.opx with survey := some k, evSurveys := satAdd 32 c.opx.evSurveys 1 } }) 132))) ∧
  (∀ s lc k, atWork s lc = true → (cluster s lc).opx.survey = some k → (cluster s lc).opx.hold = 2 →
    let b := bankOfB (cluster s lc).opx k
    let u := modCluster s lc (fun c => setHold { c with opx := { (setBank c.opx k (surveyBank b (surveyResult b))) with survey := none } })
    ((surveyResult b).mismatch = false → exec (.autoSurvey lc k) s = .next (dispatch u lc)) ∧
    ((surveyResult b).mismatch = true → exec (.autoSurvey lc k) s =
      .next (raiseChecksum u lc (statusWord b k (surveyResult b) (cluster s lc).opx.drainSeq (cluster s lc).seq.icyc).toNat))) ∧
  (∀ s lc cyc d, disableFrom (maxWave (cluster s lc).opx.wave0 (cluster s lc).opx.wave1) (cluster s lc).opx.rowsOn = some d →
    (d ≤ cyc → (cluster s lc).opx.open0 = none → (cluster s lc).opx.open1 = none → (lcEntry s lc).mapped = true → (cluster s lc).opx.hold = 0 →
      exec (.arrayIdle ⟨lc, cyc⟩) s = .next (modCluster s lc (fun c => atCycle { c with opx := { c.opx with idle := true } } cyc))) ∧
    (cyc < d → exec (.arrayIdle ⟨lc, cyc⟩) s = .next s)) ∧
  (∀ s lc cyc n, (lcEntry s lc).mapped = true → (cluster s lc).opx.clampRows = false →
    exec (.currentClamp ⟨lc, cyc, n⟩) s = .next (modCluster s lc (fun c =>
      addLost (setHold { c with opx := { c.opx with clampRows := true, clampRamp := false, evClamps := satAdd 16 c.opx.evClamps 1, rowsOn := some (if c.pausing || c.pausedOk then c.opx.issueAt else max cyc (issueCount c)) } })
        (if c.opx.clampRamp then min n (rampLen c.opx.ramp) else 0)))) ∧
  (∀ s lc cyc n, (cluster s lc).opx.clampRows = true → exec (.currentClamp ⟨lc, cyc, n⟩) s = .next s) ∧
  (∀ s lc n b, (cluster s lc).opx.clampRows = true →
    let u := modCluster s lc (fun c => addLost (setHold { c with opx := { c.opx with clampRows := false, clampRamp := true } }) (min 64 (if b then 64 else n)))
    exec (.clampEnd lc ⟨n, b⟩) s = .next (if b then sampleOnChange u (clampSlower u (secOf lc)) else u)) ∧
  (∀ s lc n b, (cluster s lc).opx.clampRows = false → (cluster s lc).opx.clampRamp = true →
    let u := dispatch (modCluster s lc (fun c =>
      addLost (setHold { c with opx := { c.opx with clampRamp := false, idle := false } }) (rampLen c.opx.ramp))) lc
    exec (.clampEnd lc ⟨n, b⟩) s = .next (if u.op = .running ∧ (cluster u lc).pausedOk = true then resumeCluster u lc else u)) ∧
  (∀ s lc n b, (cluster s lc).opx.clampRows = false → (cluster s lc).opx.clampRamp = false → exec (.clampEnd lc ⟨n, b⟩) s = .next s)

/-- Each update of a pass adds its outer product to every cell by the mode of its chain count. Rests on R62, R96, R98, R104. -/
def Obligations.PassAccumulatesInOrder : Prop :=
  (∀ (b : Bank) (int p : Bool) (cols : List (Col × Col)) (x y : Col) (t last i j : Nat), i < 128 → j < 128 →
    let u := applyPass b int p cols t last
    let v := applyPass b int p (cols ++ [(x, y)]) t last
    spGet Cell.zero v.cells (128 * i + j) =
      (if int then accInt (spGet Cell.zero u.cells (128 * i + j)) (fvToIntExact (fvMul (x.at i) (y.at j)))
       else accFloat (b.n + cols.length + 1) (spGet Cell.zero u.cells (128 * i + j)) (fvMul (x.at i) (y.at j))) ∧
    v.n = min (b.n + cols.length + 1) (2 ^ 48 - 1) ∧ v.kind = some int ∧ v.live = true) ∧
  (∀ (b : Bank) (int p : Bool) (t last i j : Nat), i < 128 → j < 128 →
    spGet Cell.zero (applyPass b int p [] t last).cells (128 * i + j) = spGet Cell.zero b.cells (128 * i + j)) ∧
  (∀ (n : Nat) (x : Cell) (p : FVal), fvFinite (fv x.s) = true → fvFinite p = true → n ≤ 4096 → f32Finite (rne (fvAdd .rne (fv x.s) p)) = true →
    (accFloat n x p).s = rne (fvAdd .rne (fv x.s) p) ∧
    (accFloat n x p).c = rne (fvAdd .rne (fv x.c) (fvSub .rne (fvAdd .rne (fv x.s) p) (fv (accFloat n x p).s)))) ∧
  (∀ (n : Nat) (x : Cell) (p : FVal), let y := fvAdd .rne p (fv x.c)
    fvFinite (fv x.s) = true → fvFinite y = true → 4096 < n → n ≤ 2 ^ 26 → f32Finite (rne (fvAdd .rne (fv x.s) y)) = true →
    (accFloat n x p).s = rne (fvAdd .rne (fv x.s) y) ∧
    (accFloat n x p).c = rne (fvSub .rne (fvAdd .rne (fv x.s) y) (fv (accFloat n x p).s))) ∧
  (∀ (n : Nat) (x : Cell) (p : FVal), fvFinite (fv x.s) = true → fvFinite p = true → 2 ^ 26 < n → f32Finite (rne (fvAdd .rne (fv x.s) p)) = true →
    accFloat n x p = ⟨rne (fvAdd .rne (fv x.s) p), x.c⟩) ∧
  (∀ (x : Cell) (p : Int), natBits x.c.toNat 0 1 = 0 → -(2 ^ 31) ≤ x.s.toInt + p → x.s.toInt + p < 2 ^ 31 →
    (accInt x p).s.toInt = x.s.toInt + p ∧ (accInt x p).c = 0) ∧
  (∀ (x : Cell) (p : Int), natBits x.c.toNat 0 1 = 1 → accInt x p = x) ∧
  (∀ (x : Cell) (p : Int), natBits x.c.toNat 0 1 = 0 → 2 ^ 31 ≤ x.s.toInt + p → accInt x p = ⟨0x7FFFFFFF#32, 1⟩) ∧
  (∀ (x : Cell) (p : Int), natBits x.c.toNat 0 1 = 0 → x.s.toInt + p < -(2 ^ 31) → accInt x p = ⟨0x80000000#32, 1⟩)

/-- VEC.FMA, FN, DFN, CVT, OPT and RED run at the head of their queue; elements that they write. Rests on R150, R159, R160, R161, R162, R163,
R164, R179. A command takes its whole effect in its issue cycle (log 5); one with N outside its range runs as it stands (log 43): model
choices. -/
def Obligations.VecCommandsComplete : Prop :=
  (∀ s lc cyc e, vecPick s lc cyc oFMA (fun _ => true) = some e →
    (e.live = false → exec (.vecFma lc cyc) s = .next (retireAt s lc 1 cyc e)) ∧
    (e.live = true → tileBound e = none → vecBound e [srcBound e 0 (vecN e), srcBound e 1 (vecN e), srcBound e 2 (vecN e), (3, vecN e, true)] = none → exec (.vecFma lc cyc) s = .next (vecFmaRun lc cyc s e))) ∧
  (∀ s lc cyc e, vecPick s lc cyc oFN (fun _ => true) = some e →
    (e.live = false → exec (.vecFn lc cyc) s = .next (retireAt s lc 1 cyc e)) ∧
    (e.live = true → tileBound e = none → vecBound e [srcBound e 0 (vecN e), srcBound e 1 (vecN e), (2, if natBits (cCx e.raw) 4 1 = 1 then vecN e else 0, true), (3, vecN e, true)] = none → exec (.vecFn lc cyc) s = .next (vecFnRun lc cyc s e))) ∧
  (∀ s lc cyc e, vecPick s lc cyc oDFN (fun _ => true) = some e →
    (e.live = false → exec (.vecDfn lc cyc) s = .next (retireAt s lc 1 cyc e)) ∧
    (e.live = true → tileBound e = none → vecBound e [srcBound e 0 (vecN e), srcBound e 1 (vecN e), (3, vecN e, true)] = none → exec (.vecDfn lc cyc) s = .next (vecDfnRun lc cyc s e))) ∧
  (∀ s lc cyc e, vecPick s lc cyc oCVT (fun _ => true) = some e →
    (e.live = false → exec (.vecCvt lc cyc) s = .next (retireAt s lc 1 cyc e)) ∧
    (e.live = true → tileBound e = none → vecBound e [srcBound e 0 (vecN e), (3, vecN e, true)] = none → (isBs8 (sref e.raw 0).fmt = true → scaleBound e 1 (vecN e) = none) →
      (isBs8 (sref e.raw 3).fmt = true → scaleBound e 2 (vecN e) = none) → exec (.vecCvt lc cyc) s = .next (vecCvtRun lc cyc s e))) ∧
  (∀ s lc cyc e, vecPick s lc cyc oOPT (fun _ => true) = some e →
    (e.live = false → exec (.vecOpt lc cyc) s = .next (retireAt s lc 1 cyc e)) ∧
    (e.live = true → tileBound e = none → vecBound e [(0, vecN e, true), (1, vecN e, false), (2, vecN e, true), (3, vecN e, true)] = none → exec (.vecOpt lc cyc) s = .next (vecOptRun lc cyc s e))) ∧
  (∀ s lc cyc e, vecPick s lc cyc oRED (fun e => natBits (cCx e.raw) 0 2 == 0) = some e →
    (e.live = false → exec (.vecRedCombine lc cyc) s = .next (retireAt s lc 1 cyc e)) ∧
    (e.live = true → tileBound e = none → redBound e = none → exec (.vecRedCombine lc cyc) s = .next (vecRedRun lc cyc s e))) ∧
  (∀ s lc cyc e, vecPick s lc cyc oRED (fun e => natBits (cCx e.raw) 0 2 == 1) = some e →
    (e.live = false → exec (.vecRedBlock lc cyc) s = .next (retireAt s lc 1 cyc e)) ∧
    (e.live = true → tileBound e = none → vecBound e [(0, vecN e, false), (3, ceilDiv (vecN e) 128, true)] = none → formed e (sref e.raw 2) + 64 ≤ spTop + 1 → exec (.vecRedBlock lc cyc) s = .next (vecRedBlockRun lc cyc s e))) ∧
  (∀ s lc q cyc e rs cycles ds n after, let c := cluster s lc
    (∀ p, inboundHit c (ds.flatMap (fun d => d.1)) = some p →
      finishCmd s lc q cyc e rs cycles ds n after = raiseSlip (modCluster s lc (fun c => dropEntry (atCycle c cyc) q e)) lc q e ⟨9, cyc, 0, 0, p.addr, 0⟩) ∧
    (inboundHit c (ds.flatMap (fun d => d.1)) = none → readSlip c.mem rs = none →
      finishCmd s lc q cyc e rs cycles ds n after = retireAt (after (setCluster s lc (ds.foldl (fun c d => spWriteAll c d.1 d.2)
        (consumePoison { c with mem := spTouchAll c.mem cycles } ((poisonedOf c.mem (readWords rs)).length + n))))) lc q cyc e)) ∧
  (∀ lc cyc s e, let c := cluster s lc
    let n := vecN e
    let r := sref e.raw 3
    let a := vsrc c.mem (vecTile c e) e 0 false fvZero
    let b := vsrc c.mem (vecTile c e) e 1 false (fvInt 1)
    let d := vsrc c.mem (vecTile c e) e 2 false fvZero
    ∃ cycles els pre post x after, vecFmaRun lc cyc s e =
        finishCmd s lc 1 cyc e [readsOf e 0 n a, readsOf e 1 n b, readsOf e 2 n d] cycles (pre ++ [(destPieces c.mem.sp r.fmt (formed e r) r.lstride els, r.tag)] ++ post) x after ∧
      els.length = n ∧ ∀ i (h : i < els.length), (els[i]).code = (encodeElem r.fmt (modeOf r.rmode (slotKey e 3) i) r.sat
        (if isAbsent e 2 = true then fvMul (a.val i) (b.val i) else fvAdd (modeOf r.rmode (slotKey e 3) i) (fvMul (a.val i) (b.val i)) (d.val i))).code) ∧
  (∀ lc cyc s e, let c := cluster s lc
    let n := vecN e
    let r := sref e.raw 3
    let a := vsrc c.mem (vecTile c e) e 0 false fvZero
    let b := vsrc c.mem (vecTile c e) e 1 false fvZero
    ∃ cycles els pre post x after, vecFnRun lc cyc s e =
        finishCmd s lc 1 cyc e [readsOf e 0 n a, readsOf e 1 n b] cycles (pre ++ [(destPieces c.mem.sp r.fmt (formed e r) r.lstride els, r.tag)] ++ post) x after ∧
      els.length = n ∧ ∀ i (h : i < els.length), (els[i]).code = (encodeElem r.fmt (modeOf r.rmode (slotKey e 3) i) r.sat
        (fv (ftEval c.vr.ftab (natBits (cCx e.raw) 0 4) (rne (if isAbsent e 1 = true then a.val i else fvAdd .rne (a.val i) (b.val i)))))).code) ∧
  (∀ lc cyc s e, let c := cluster s lc
    let n := vecN e
    let r := sref e.raw 3
    let z := vsrc c.mem (vecTile c e) e 0 false fvZero
    let g := vsrc c.mem (vecTile c e) e 1 false (fvInt 1)
    ∃ cycles els pre post x after, vecDfnRun lc cyc s e =
        finishCmd s lc 1 cyc e [readsOf e 0 n z, readsOf e 1 n g] cycles (pre ++ [(destPieces c.mem.sp r.fmt (formed e r) r.lstride els, r.tag)] ++ post) x after ∧
      els.length = n ∧ ∀ i (h : i < els.length), (els[i]).code = (encodeElem r.fmt (modeOf r.rmode (slotKey e 3) i) r.sat
        (fvMul (g.val i) (fv (ftEvalD c.vr.ftab (natBits (cCx e.raw) 0 4) (z.val i))))).code) ∧
  (∀ lc cyc s e, let c := cluster s lc
    let n := vecN e
    let r := sref e.raw 3
    let a := if (isBs8 (sref e.raw 0).fmt && (sref e.raw 0).mode == 0) = true then tensorAt c.mem (sref e.raw 0) (formed e (sref e.raw 0)) (formed e (sref e.raw 1)) (sref e.raw 1).lstride
      else vsrc c.mem (vecTile c e) e 0 false fvZero
    isBs8 r.fmt = false → ∃ rs, ∃ cycles els pre post x after, vecCvtRun lc cyc s e =
        finishCmd s lc 1 cyc e rs cycles (pre ++ [(destPieces c.mem.sp r.fmt (formed e r) r.lstride els, r.tag)] ++ post) x after ∧
      els.length = n ∧ ∀ i (h : i < els.length), (els[i]).code = (encodeElem r.fmt (modeOf r.rmode (slotKey e 3) i) r.sat
        (a.val i)).code) ∧
  (∀ lc cyc s e, let m := (cluster s lc).mem
    let els (k : Nat) (pz : Nat → Bool) (f : F32 × F32 × F32 × F32 → F32) : List WElem :=
      optElems m e k (((List.range (vecN e)).map (optNew m e)).map f) pz
    ∃ rs cycles pz after, vecOptRun lc cyc s e = finishCmd s lc 1 cyc e rs cycles
      [optDest m e 0 (els 0 pz (fun x => x.1)), optDest m e 2 (els 2 pz (fun x => x.2.1)), optDest m e 3 (els 3 pz (fun x => x.2.2.1))] 0 after) ∧
  (∀ m e k vs pz, optLost m e = false → (optElems m e k vs pz).length = vs.length ∧ ∀ i v, vs[i]? = some v →
    ((optElems m e k vs pz)[i]?).map WElem.code =
      some (encodeElem (sref e.raw k).fmt (modeOf (sref e.raw k).rmode (slotKey e k) i) (sref e.raw k).sat (fv v)).code) ∧
  (∀ m e i, let v (k : Nat) : FVal := (vsrc m none e k (k != 1) fvZero).val i
    let q := memLe m.sp (optHdrAddr e + 2) 2
    (optHdrDiv e = false → optNew m e i = optStep e (optPar e 11) (rne (v 0)) (v 1) (rne (v 2)) (rne (v 3))) ∧
    (optHdrDiv e = true → q ≠ 0 → optNew m e i =
      optStep e (f32Div (optPar e 11) (f32Nat q)) (rne (v 0)) (v 1) (rne (v 2)) (rne (v 3))))

/-- ROW.NORM.F, NORM.B, SMAX.F, SMAX.B and TOPK run at the head of their queue; rows that they write. Rests on R150, R165, R166, R167, R193,
R194, R195, R197. How a poisoned row counts and a poisoned NORM.B leaves its statistics are model choices (log 43). -/
def Obligations.RowCommandsComplete : Prop :=
  (∀ s lc cyc e, rowPick s lc cyc oNORMF = some e →
    let st : Bool × Bool := (false, true)
    (e.live = false → exec (.rowNormF lc cyc) s = .next (retireAt s lc 2 cyc e)) ∧
    (e.live = true → rowBound s e (rowPar e) [(0, false), (1, false), (2, false), (3, true)] st = none →
      ((st.1 || st.2) && (spillRange (rowPar e)).any (fun x => heldRange s x.1 (x.2 + 1 - x.1))) = false → admits s 1 (spillCells lc (rowPar e) st) = true → exec (.rowNormF lc cyc) s =
      .next (rowNormFRun lc cyc (if st.1 || st.2 then noteUnmapped s lc e.idx ((spillRange (rowPar e)).elim [] (fun x => [x.1])) else s) e (rowPar e)))) ∧
  (∀ s lc cyc e, rowPick s lc cyc oNORMB = some e →
    let st : Bool × Bool := (true, false)
    (e.live = false → exec (.rowNormB lc cyc) s = .next (retireAt s lc 2 cyc e)) ∧
    (e.live = true → rowBound s e (rowPar e) [(0, false), (1, false), (2, false), (3, true)] st = none →
      ((st.1 || st.2) && (spillRange (rowPar e)).any (fun x => heldRange s x.1 (x.2 + 1 - x.1))) = false → admits s 1 (spillCells lc (rowPar e) st) = true → exec (.rowNormB lc cyc) s =
      .next (rowNormBRun lc cyc (if st.1 || st.2 then noteUnmapped s lc e.idx ((spillRange (rowPar e)).elim [] (fun x => [x.1])) else s) e (rowPar e)))) ∧
  (∀ s lc cyc e, rowPick s lc cyc oSMAXF = some e →
    let st : Bool × Bool := smaxStats (cluster s lc) e (rowPar e)
    (e.live = false → exec (.rowSmaxF lc cyc) s = .next (retireAt s lc 2 cyc e)) ∧
    (e.live = true → rowBound s e (rowPar e) (if isPhase1 e then [(0, false), (3, true)] else [(0, false)]) st = none →
      ((st.1 || st.2) && (spillRange (rowPar e)).any (fun x => heldRange s x.1 (x.2 + 1 - x.1))) = false → admits s 1 (spillCells lc (rowPar e) st) = true → exec (.rowSmaxF lc cyc) s =
      .next (rowSmaxFRun lc cyc (if st.1 || st.2 then noteUnmapped s lc e.idx ((spillRange (rowPar e)).elim [] (fun x => [x.1])) else s) e (rowPar e)))) ∧
  (∀ s lc cyc e, rowPick s lc cyc oSMAXB = some e →
    let st : Bool × Bool := smaxStats (cluster s lc) e (rowPar e)
    (e.live = false → exec (.rowSmaxB lc cyc) s = .next (retireAt s lc 2 cyc e)) ∧
    (e.live = true → rowBound s e (rowPar e) (if isPhase1 e then [(0, false), (1, false), (3, true)] else [(0, false), (1, false)]) st = none →
      ((st.1 || st.2) && (spillRange (rowPar e)).any (fun x => heldRange s x.1 (x.2 + 1 - x.1))) = false → admits s 1 (spillCells lc (rowPar e) st) = true → exec (.rowSmaxB lc cyc) s =
      .next (rowSmaxBRun lc cyc (if st.1 || st.2 then noteUnmapped s lc e.idx ((spillRange (rowPar e)).elim [] (fun x => [x.1])) else s) e (rowPar e)))) ∧
  (∀ s lc cyc e, rowPick s lc cyc oTOPK = some e →
    let st : Bool × Bool := (false, false)
    (e.live = false → exec (.rowTopk lc cyc) s = .next (retireAt s lc 2 cyc e)) ∧
    (e.live = true → rowBound s e (rowPar e) [] st = none → topkBound e (rowPar e) = none →
      ((st.1 || st.2) && (spillRange (rowPar e)).any (fun x => heldRange s x.1 (x.2 + 1 - x.1))) = false → admits s 1 (spillCells lc (rowPar e) st) = true → exec (.rowTopk lc cyc) s =
      .next (rowTopkRun lc cyc (if st.1 || st.2 then noteUnmapped s lc e.idx ((spillRange (rowPar e)).elim [] (fun x => [x.1])) else s) e (rowPar e)))) ∧
  (∀ s lc cyc e p rs cycles outs st, ∃ after, finishRow s lc cyc e p rs cycles outs st =
      finishCmd s lc 2 cyc e rs cycles [rowDest (cluster s lc).mem e p outs] st after) ∧
  (∀ m e p outs, let r := sref e.raw 3
    ∃ els : Nat → List WElem, rowDest m e p outs =
        ((List.range outs.length).flatMap (fun i => destPieces m.sp r.fmt (formed e r + i * p.stride) r.lstride (els i)), r.tag) ∧
      ∀ i o, outs[i]? = some o → (els i).length = o.out.length ∧ ∀ x v, o.out[x]? = some v →
        ((els i)[x]?).map WElem.code = some (encodeElem r.fmt (modeOf r.rmode (slotKey e 3) (i * p.L + p.start + x)) r.sat v).code) ∧
  (∀ lc cyc s e p, let m := (cluster s lc).mem
    let r := sref e.raw 3
    ∃ rs cycles outs, rowNormFRun lc cyc s e p = finishRow s lc cyc e p rs cycles outs 0 ∧ outs.length = p.rows ∧
      ∀ i o, outs[i]? = some o →
        let xs := (List.range p.C).map (rowSrc m e p 0 i fvZero).val
        let st := normStats (isRms e) p.k32 xs
        o.stat = some ⟨st.1, st.2, o.pz⟩ ∧ o.out.length = p.C ∧ ∀ x v, xs[x]? = some v →
          let h := fvMul (fv (if isRms e = true then rne (fvMul v (fv st.2)) else f32Mul (rne (fvSub .rne v (fv st.1))) st.2))
            ((rowSrc m e p 1 i (fvInt 1)).val x)
          o.out[x]? = some (if isAbsent e 2 = true then h
            else fvAdd (modeOf r.rmode (slotKey e 3) (i * p.L + p.start + x)) h ((rowSrc m e p 2 i fvZero).val x))) ∧
  (∀ lc cyc s e p, let rd := readStats s lc p p.rows
    let m := (cluster rd.2 lc).mem
    ∃ rs cycles outs n, rowNormBRun lc cyc s e p = finishRow rd.2 lc cyc e p rs cycles outs n ∧ outs.length = p.rows ∧
      ∀ i o st, outs[i]? = some o → rd.1[i]? = some st → o.stat = none ∧
        o.out = normBack (isRms e) st.s0 st.s1 (rowSrc m e p 0 i fvZero).val (rowSrc m e p 2 i (fvInt 1)).val (rowSrc m e p 1 i fvZero).val
          (isAbsent e 2) p.C) ∧
  (∀ lc cyc s e p, isPhase1 e = false → isFirst e = true → let m := (cluster s lc).mem
    ∃ u rs cycles outs n, rowSmaxFRun lc cyc s e p = finishRow u lc cyc e p rs cycles outs n ∧ outs.length = p.rows ∧
      ∀ i o, outs[i]? = some o →
        let t := smaxChunk (f32Mul p.k32 log2e) p.start ((List.range p.C).map (rowSrc m e p 0 i fvZero).val) (f32NegInf, ⟨0, 0⟩)
        o.out = [] ∧ o.stat = some ⟨t.1, t.2.s, o.pz⟩) ∧
  (∀ lc cyc s e p, isPhase1 e = true → let rd := readStats s lc p p.rows
    spWf .reset rd.2.cl = true →
    let m := (cluster rd.2 lc).mem
    ∃ u rs cycles outs n, rowSmaxFRun lc cyc s e p = finishRow u lc cyc e p rs cycles outs n ∧ outs.length = p.rows ∧
      ∀ i o st, outs[i]? = some o → rd.1[i]? = some st →
        let sum := match ctxOf (cluster rd.2 lc).vr (statKey p i) with
          | some c => foldCell ⟨st.s1, c.comp⟩
          | none => st.s1
        o.out = (List.range p.C).map (fun x => smaxOut (f32Mul p.k32 log2e) st.s0 sum ((rowSrc m e p 0 i fvZero).val x))) ∧
  (∀ lc cyc s e p, isPhase1 e = true → let rd := readStats s lc p p.rows
    spWf .reset rd.2.cl = true →
    let m := (cluster rd.2 lc).mem
    ∃ u rs cycles outs n, rowSmaxBRun lc cyc s e p = finishRow u lc cyc e p rs cycles outs n ∧ outs.length = p.rows ∧
      ∀ i o st, outs[i]? = some o → rd.1[i]? = some st →
        let d := match ctxOf (cluster rd.2 lc).vr (statKey p i) with
          | some c => foldCell ⟨st.s0, c.comp⟩
          | none => st.s0
        o.out = (List.range p.C).map (fun x => fvMul (fv p.k32) (fv (rne (fvMul ((rowSrc m e p 1 i fvZero).val x)
          (fv (rne (fvSub .rne ((rowSrc m e p 0 i fvZero).val x) (fv d))))))))) ∧
  (∀ lc cyc s e p, natBits (cCx e.raw) 2 1 = 0 → let m := (cluster s lc).mem
    let r3 := sref e.raw 3
    ∃ rs cycles x after, ∃ rows : Nat → List Byte × Bool, rowTopkRun lc cyc s e p = finishCmd s lc 2 cyc e rs cycles
        [((List.range p.rows).flatMap (fun i => runPieces (formed e r3 + i * topkQ p.topk) (rows i).1 (rows i).2), r3.tag)] x after ∧
      ∀ i, i < p.rows →
        let vals := (List.range p.C).map (fun x => ((rowSrc m e p 0 i fvZero).val x, p.pos + i * p.L + p.start + x))
        (rows i).1 = topkBytes p.topk (vals.filter (fun x => x.1 == FVal.nan)).length (rows i).2 (rankTop (natBits (cCx e.raw) 0 2) p.topk
          ((vals.filter (fun x => x.1 != FVal.nan)).map (fun x => (⟨x.1, x.2, decide (x.2 < 2 ^ 26)⟩ : Cand)))))

/-- A ranked selection keeps the best candidates in rank order. Rests on R111, R112. -/
def Obligations.RankedSelectionIsSorted : Prop :=
  ∀ (order k : Nat) (l : List Cand), order ≤ 2 → (∀ c, c ∈ l → c.v ≠ .nan) → l.Pairwise (fun a b => a.pos < b.pos) →
    let r := rankTop order k l
    r.length = min k l.length ∧ (∀ c, c ∈ r → c ∈ l) ∧ r.Pairwise (fun a b => ranksAbove order a b = true) ∧
      ∀ a b, a ∈ r → b ∈ l → b ∉ r → ranksAbove order a b = true

/-- TRV.GO, TRV.WAIT, TRAVERSE_COMPLETE, refusals, Turaist timeouts, link training and probes take effect. Rests on R168, R169, R276, R277,
R278, R282, R283, R325, R327. A refused request of a companion address: a write is undone, a read feeds zero data with poison, one of a
check value or tag is kept as refused; each records its coordinate; which requests a row can name, and that a compare that fails counts as a
refusal, are model choices (log 35) (log 36). A read that times out feeds poison, is logged, and the link trains; so does another companion
access, whose granule then reads as poison (the model's choice, log 35): at x32, else x16 with one LINK_DEGRADED, else x16 at 32 GT/s with
two, else it is down. -/
def Obligations.TraverseCommandsComplete : Prop :=
  (∀ s lc q cyc e, pickOp s lc q cyc oTRVGO = some e →
    (e.live = false → exec (.trvGo lc q cyc) s = .next (retireAt s lc q cyc e)) ∧
    (∀ t, e.live = true → (trvOf (cluster s lc) (q - 3)).flight.length < 4 → startTrv (modCluster s lc (fun c => atCycle c cyc)) lc q e = .inr t →
      exec (.trvGo lc q cyc) s = .next (retireAt t lc q cyc e)) ∧
    (∀ t, e.live = true → (trvOf (cluster s lc) (q - 3)).flight.length < 4 → startTrv (modCluster s lc (fun c => atCycle c cyc)) lc q e = .inl t →
      exec (.trvGo lc q cyc) s = .next { s with tt := t.tt }) ∧
    (e.live = true → 4 ≤ (trvOf (cluster s lc) (q - 3)).flight.length → exec (.trvGo lc q cyc) s = .next s)) ∧
  (∀ s lc q cyc e, pickOp s lc q cyc oTRVWAIT = some e →
    ((e.live = false ∨ ∀ t, t ∈ (trvOf (cluster s lc) (q - 3)).flight → trvTicket t.e.raw ≠ waitTicket e.raw) →
      exec (.trvWait lc q cyc) s = .next (retireAt s lc q cyc e)) ∧
    (∀ t, e.live = true → t ∈ (trvOf (cluster s lc) (q - 3)).flight → trvTicket t.e.raw = waitTicket e.raw → exec (.trvWait lc q cyc) s = .next s)) ∧
  (∀ s lc e t r v, e < 4 → (trvOf (cluster s lc) e).flight = t :: r →
    (∀ cause, decryptFail s lc e t = (some cause, v) → exec (.traverseComplete lc e) s =
      .next (faultNoReplay (poisonGranules v t) 0x000B lc (packFields [(lc, 8), (t.e.idx, 14), (cause, 8)]))) ∧
    (∀ u x, decryptFail s lc e t = (none, v) → checkAtEnd (if t.moved then noteDigest v t else v) lc e t r = (some u, x) → exec (.traverseComplete lc e) s =
      .next (popFlight u lc e t)) ∧
    (∀ x, decryptFail s lc e t = (none, v) → checkAtEnd (if t.moved then noteDigest v t else v) lc e t r = (none, x) → exec (.traverseComplete lc e) s =
      .next (if (cluster (compareFailed x lc e t) lc).seq.stop = some .faulted then compareFailed x lc e t else popFlight (compareFailed x lc e t) lc e t))) ∧
  (∀ s lc e n t later r a pa o, e < 4 → flightFrom s lc e n = t :: later → t.moved = true → reqAddr t.e t.base t.dbase r = some a → locate a = .comp pa →
    (r.side = .check → exec (.translationRefused lc e ⟨n, r, o⟩) s =
      .next (noteRefusal (modFlight s lc e n (fun t => { t with chk := .refused })) lc e t (reqOrd t.e r) a (sideWrites t.e .check))) ∧
    (r.side = .tag → exec (.translationRefused lc e ⟨n, r, o⟩) s =
      .next (noteRefusal (modFlight (poisonGranules s t) lc e n (fun t => { t with tag := .refused })) lc e t (reqOrd t.e r) a false)) ∧
    (r.side ≠ .check → r.side ≠ .tag → sideWrites t.e r.side = true → exec (.translationRefused lc e ⟨n, r, o⟩) s =
      .next (noteRefusal (unwrite s t later a pa) lc e t (reqOrd t.e r) a true)) ∧
    (r.side ≠ .check → r.side ≠ .tag → sideWrites t.e r.side = false → exec (.translationRefused lc e ⟨n, r, o⟩) s =
      .next (noteRefusal (freeCheck (poisonFed s lc t later (granOrds t r.side (a / 128)) true) lc e n) lc e t (reqOrd t.e r) a false))) ∧
  (∀ s lc e n t later r a tr, e < 4 → flightFrom s lc e n = t :: later → t.moved = true → reqAddr t.e t.base t.dbase r = some a → isComp a = true →
    let v := modCluster s lc (fun c => consumePoison c 1)
    let late (w : State) (b : Nat) : State := trainLink (logEvent w 0x000E 7 5 0 noLink (packFields [(a, 48), (b, 2)])) tr
    (sideWrites t.e r.side = true → exec (.turaistTimeout lc e ⟨n, r, none⟩ tr) s = .next (late (refuseReq s lc e n r) 1)) ∧
    (r.side = .check → sideWrites t.e .check = false → exec (.turaistTimeout lc e ⟨n, r, none⟩ tr) s =
      .next (late (modFlight v lc e n (fun t => { t with chk := .lost })) 0)) ∧
    (r.side = .tag → exec (.turaistTimeout lc e ⟨n, r, none⟩ tr) s = .next (late (modFlight v lc e n (fun t => { t with tag := .lost })) 0)) ∧
    (r.side ≠ .check → r.side ≠ .tag → sideWrites t.e r.side = false → exec (.turaistTimeout lc e ⟨n, r, none⟩ tr) s =
      .next (late (freeCheck (poisonFed v lc t (flightFrom v lc e (n + 1)) (granOrds t r.side (a / 128)) false) lc e n) 0))) ∧
  (∀ (s : State) lc e n r a pa tr, locate a = .comp pa → exec (.turaistTimeout lc e ⟨n, r, some a⟩ tr) s =
    .next (trainLink (logEvent { s with comp := { s.comp with lost := setAdd (setAdd s.comp.lost (pa / 128 * 2)) (pa / 128 * 2 + 1) } } 0x000E 7 5 0 noLink
      (packFields [(a, 48), (0, 2)])) tr)) ∧
  (∀ s tr, powered s = true → s.op ≠ .sl3 →
    let fell (s : State) (lanes gts : Nat) : State := logEvent s 0x000D 7 5 0 noLink (packFields [(lanes, 8), (gts, 8)])
    exec (.linkTrain tr) s = .next (trainLink s tr) ∧
    (tr.x32full = true → trainLink s tr = { s with link := ⟨true, 32, 64, false⟩ }) ∧
    (tr.x32full = false → tr.x16full = true → trainLink s tr = { fell s 16 64 with link := ⟨true, 16, 64, false⟩ }) ∧
    (tr.x32full = false → tr.x16full = false → tr.x16half = true → trainLink s tr = { fell (fell s 16 64) 16 32 with link := ⟨true, 16, 32, false⟩ }) ∧
    (tr.x32full = false → tr.x16full = false → tr.x16half = false → trainLink s tr = { s with link := { s.link with up := false, down := true } })) ∧
  (∀ s lc e q, e < 4 → (cluster s lc).seq.wait = .probe → (trvOf (cluster s lc) e).probe = true → (trvOf (cluster s lc) e).refEntry = some q → s.op = .running →
      admits s 0 (devCells (secOf lc) (trvOf (cluster s lc) e).refAddr false) = true →
    let x := trvOf (cluster s lc) e
    let v := chargeSegs s lc e [(x.refAddr, 128)] false
    (isComp x.refAddr = true → ∀ o, exec (.refusalProbe lc e false o) s = .next v) ∧
    (∀ r a, reqAddr q.1 q.2.1 q.2.2 r = some a → isComp a = true → x.refOrd ≤ reqOrd q.1 r → exec (.refusalProbe lc e true (some r)) s =
      .next (modCluster (chargeSegs v lc e (probeReads x q (reqOrd q.1 r + 1)) false) lc (fun c => modTrv c e (fun x =>
        { x with refOrd := reqOrd q.1 r, coord := ordCoord q.1 (reqOrd q.1 r), refAddr := a / 128 * 128 })))) ∧
    (let u := modCluster (chargeSegs v lc e (probeReads x q (elemCount (trvD0 q.1).mfmt (trvDims q.1))) false) lc
        (fun c => modTrv c e (fun x => { x with probe := false, refV := false }))
     let c := cluster u lc
     (c.t0.probe = false → c.t1.probe = false → c.t2.probe = false → c.t3.probe = false → exec (.refusalProbe lc e true none) s =
        .next (replayCluster u lc (c.seq.icyc + 1) false c.log.gForce)) ∧
     ((c.t0.probe || c.t1.probe || c.t2.probe || c.t3.probe) = true → exec (.refusalProbe lc e true none) s = .next u))) ∧
  (∀ s lc e, e < 4 → (cluster s lc).seq.wait = .probe → (trvOf (cluster s lc) e).probe = true →
    exec (.probeTimeout lc e) s = .next (faultNoReplay s 0x0005 lc (packFields ((trvOf (cluster s lc) e).coord.map (fun i => (i, 24)) ++
      [((trvOf (cluster s lc) e).refAddr, 48)]))))

/-- DATA, ACK, READY, DECISION, DEC_REQ, OOS, WAKE and foreign frames take effect at their port. Rests on R286, R290, R291, R295, R299, R304,
R318, R322, R323. The BUSY answers to DATA frames beyond R295 and to unknown jobs, the READY acknowledged only after the decision, the round
whose miss starts the fetch and the DEC_REQ that finds nothing are model choices (log 18). -/
def Obligations.JobFramesTakeEffect : Prop :=
  (∀ s p f note pl j t, Received s p f tDATA pl j t →
    let h := hdrOf f
    let x := flowOf t p h.flow
    x.valid = true → x.jslot = j → (jobOf t j).stopped = false →
    (h.cfgchk = (fstatOf t p h.flow).cfgchk → h.round < x.round →
      exec (.dataRx p ⟨f, note⟩) s = .next (flushEvents (sendAck (noteTaken t (rxSpace p j h) h.seq 1) p f 1))) ∧
    (h.cfgchk = (fstatOf t p h.flow).cfgchk → x.round < h.round → exec (.dataRx p ⟨f, note⟩) s = .next (flushEvents (sendAck t p f 2))) ∧
    (h.cfgchk = (fstatOf t p h.flow).cfgchk → h.round = x.round → x.chunkCount ≤ h.chunk → exec (.dataRx p ⟨f, note⟩) s = .next (flushEvents (sendAck t p f 2))) ∧
    (h.cfgchk = (fstatOf t p h.flow).cfgchk → h.round = x.round → h.chunk < x.chunkCount →
      ((stageOf t p h.flow h.chunk h.stage).bound.any (fun m => m != h.src) = true →
        exec (.dataRx p ⟨f, note⟩) s = .next (flushEvents (sendAck (noteTaken t (rxSpace p j h) h.seq 1) p f 1))) ∧
      ((stageOf t p h.flow h.chunk h.stage).bound.any (fun m => m != h.src) = false → stagingCap < stageBytes t p + pl.length →
        exec (.dataRx p ⟨f, note⟩) s = .next (flushEvents (sendAck t p f 2))) ∧
      ((stageOf t p h.flow h.chunk h.stage).bound.any (fun m => m != h.src) = false → stageBytes t p + pl.length ≤ stagingCap →
        exec (.dataRx p ⟨f, note⟩) s = .next (accepted (advanceChunk (modStage t p h.flow h.chunk h.stage (fun y =>
          { y with bound := some h.src, hops := h.hops, contrib := h.contrib, staged := (if h.piece < y.nextIn then y.staged else spPut y.staged h.piece (pl, note)) }))
          p h.flow h.chunk) p f j))) ∧
    (h.cfgchk ≠ (fstatOf t p h.flow).cfgchk →
      let u := modPort t p (fun q => { q with cfgMis := satAdd 32 q.cfgMis 1 })
      ((fstatOf t p h.flow).flagged = true → exec (.dataRx p ⟨f, note⟩) s = .next (flushEvents (sendAck u p f 2))) ∧
      ((fstatOf t p h.flow).flagged = false → exec (.dataRx p ⟨f, note⟩) s = .next (flushEvents (sendAck
        (logEvent (modFstat u p h.flow (fun y => { y with flagged := true })) 0x0022 7 3 p noLink (packFields [((jobOf t j).job, 16), (h.flow, 15)])) p f 2))))) ∧
  (∀ s p f pl t, UnknownJob s p f tDATA pl t → ∀ note, exec (.dataRx p ⟨f, note⟩) s = .next (sendAck t p f 2)) ∧
  (∀ s p f pl t, UnknownJob s p f tREADY pl t → exec (.readyRx p f) s = .next (sendAck t p f 2)) ∧
  (∀ s p f pl t, UnknownJob s p f tDECISION pl t → exec (.decisionRx p f) s = .next (sendAck t p f 2)) ∧
  (∀ s p f pl t, UnknownJob s p f tDECREQ pl t → exec (.decReqRx p f) s = .next (sendAck t p f 2)) ∧
  (∀ s p f pl t u, ReceivedPlain s p f tACK pl t → (portOf t p).unacked.find? (ackFits (hdrOf f)) = some u →
    let st := natBits (byteField pl 0 1) 0 2
    (st = 2 → exec (.ackRx p f) s = .next (flushEvents (modPort t p (fun q => { q with unacked := q.unacked.map (fun x => if ackFits (hdrOf f) x then { x with busy := true } else x) })))) ∧
    (st < 2 → exec (.ackRx p f) s = .next (flushEvents (ackTaken (modPort t p (fun q =>
      { q with unacked := q.unacked.filter (fun x => !(ackFits (hdrOf f) x)) })) p u (st == 1))))) ∧
  (∀ s p f pl j t, Received s p f tREADY pl j t → p = (jobOf t j).cport → (jobOf t j).leader = (jobOf t j).midx →
    let x := byteField pl 0 16
    (decided t (jobOf t j).job (natBits x 0 10) (hdrOf f).round = none →
      exec (.readyRx p f) s = .next (accepted (takeReady t j
        ⟨(jobOf t j).job, natBits x 0 10, (hdrOf f).round, (hdrOf f).src, natBits x 10 1 == 1, natBits x 16 8⟩) p f j)) ∧
    ((decided t (jobOf t j).job (natBits x 0 10) (hdrOf f).round).isSome = true → exec (.readyRx p f) s = .next (accepted t p f j))) ∧
  (∀ s p f pl j t, Received s p f tDECISION pl j t → p = (jobOf t j).cport → (jobOf t j).leader ≠ (jobOf t j).midx →
    let d := decisionParse (jobOf t j).job (hdrOf f).round (jobOf t j).leader pl
    (groupOf t d.group).valid = true → (groupOf t d.group).job = (jobOf t j).job →
    ((groupOf t d.group).round < d.round → exec (.decisionRx p f) s = .next (accepted (startFetch t j d.group (d.round + 1)) p f j)) ∧
    (d.round ≤ (groupOf t d.group).round → exec (.decisionRx p f) s = .next (accepted
      (if (groupOf (applyDecision t d) d.group).round ≠ (groupOf t d.group).round ∧ setHas (applyDecision t d).train.asking d.group = true then askRound (applyDecision t d) d.group
       else applyDecision t d) p f j))) ∧
  (∀ s p f pl j t, Received s p f tDECISION pl j t → p = (jobOf t j).cport → (jobOf t j).leader = (jobOf t j).midx →
    let d := decisionParse (jobOf t j).job (hdrOf f).round (jobOf t j).leader pl
    (groupOf t d.group).valid = true → (groupOf t d.group).job = (jobOf t j).job →
    ((decided t (jobOf t j).job d.group d.round).isSome = true → exec (.decisionRx p f) s = .next (accepted t p f j)) ∧
    (decided t (jobOf t j).job d.group d.round = none → (groupOf t d.group).round = d.round →
      exec (.decisionRx p f) s = .next (accepted (applyDecision (sendDecision (writeRec (keepDecision t d) d) j d) d) p f j))) ∧
  (∀ s p f pl j t, Received s p f tDECREQ pl j t → p = (jobOf t j).cport → (jobOf t j).leader = (jobOf t j).midx →
    let g := natBits (byteField pl 0 2) 0 10
    (∀ d, decided t (jobOf t j).job g (hdrOf f).round = some d → exec (.decReqRx p f) s =
      .next (accepted (sendControl t j (hdrOf f).src tDECISION (hdrOf f).round (decisionPayload d)) p f j)) ∧
    (decided t (jobOf t j).job g (hdrOf f).round = none → exec (.decReqRx p f) s = .next (accepted t p f j))) ∧
  (∀ s p f pl j t, Received s p f tDECREQ pl j t → p = (jobOf t j).cport → (jobOf t j).leader ≠ (jobOf t j).midx → (jobOf t j).leader = (hdrOf f).src →
    let g := natBits (byteField pl 0 2) 0 10
    let r := spGet .reset t.train.recs g
    (r.decision ≠ 0 ∧ r.round = (hdrOf f).round ∧ r.job = (jobOf t j).job → exec (.decReqRx p f) s = .next (accepted
      (sendControl t j (hdrOf f).src tDECISION (hdrOf f).round (decisionPayload ⟨r.job, g, (hdrOf f).round, r.decision == 1, r.wcause, r.leader, 0, []⟩)) p f j)) ∧
    (¬(r.decision ≠ 0 ∧ r.round = (hdrOf f).round ∧ r.job = (jobOf t j).job) → exec (.decReqRx p f) s = .next (accepted t p f j))) ∧
  (∀ s p f pl t, ReceivedPlain s p f tOOS pl t → exec (.oosRx p f) s = .next (flushEvents ((membersWith t (byteField pl 0 6)).foldl
    (fun s x => memberGone s p x.1 x.2) (modPort t p (fun q => { q with oosRx := satAdd 32 q.oosRx 1 }))))) ∧
  (∀ s p f pl t, ReceivedPlain s p f tWAKE pl t → s.op ≠ .scrubbing → exec (.wakeRx p f) s = .next (flushEvents t)) ∧
  (∀ s p f, p < 8 → s.op = .scrubbing → (hdrOf f).type = tWAKE → exec (.wakeRx p f) s = .next (acceptFrame s p f).2) ∧
  (∀ s p f, p < 8 → foreign s p f = true → fabRuns s = true → s.boot.phase = .up → s.op ≠ .sl2 →
    let u := frameActivity s p
    u.op ≠ .sl2 → frameMay u p = true → (portOf u p).linkUp = true → foreign u p f = true →
    exec (.foreignFrameRx p f) s = .next (modPort u p (fun q => { q with foreignN := satAdd 32 q.foreignN 1 })))

/-- BUDDY frames pair, store, serve and fetch as R385 to R391 and R401 say. Rests on R381, R385, R387, R391, R401, R433, Table 13-9. That an
unwanted PAIR gets no answer and that SLOT_REQ is served from the current slot whatever version it names are model choices (log 26), and so
is the answer to a SLOT_REQ of no valid tensor (log 18). -/
def Obligations.BuddyFramesTakeEffect : Prop :=
  (∀ s p f b j t, ReceivedBuddy s p f [bPAIR] b j t → exec (.buddyPairRx p f) s = .next (accepted (takePair p j (hdrOf f).src b t) p f j)) ∧
  (∀ s p j m b l, pairCmd s p j m = some l → feedsEqual s b = false → takePair p j m b s =
    finish { s with ckpt := { s.ckpt with buddy := some ⟨(memberMac s j m).getD 0, p, j, m, b.feed, b.feedUnknown⟩ } } l.m stOK 1
      (packFields [(b.feed, 4), (b2n b.feedUnknown, 1)])) ∧
  (∀ s p j m b, pairCmd s p j m = none → let mac := (memberMac s j m).getD 0
    let answer (s : State) : State := (sendBuddy s p j m bPAIR 0 0 0 []).2
    ((feedsEqual s b = true ∨ s.ckpt.peers.contains mac = true) → takePair p j m b s = answer s) ∧
    (feedsEqual s b = false → s.ckpt.peers.contains mac = false → s.ckpt.peers.length < 2 →
      takePair p j m b s = answer { s with ckpt := { s.ckpt with peers := s.ckpt.peers ++ [mac] } }) ∧
    (feedsEqual s b = false → s.ckpt.peers.contains mac = false → 2 ≤ s.ckpt.peers.length → takePair p j m b s = s)) ∧
  (∀ s p f b j t, ReceivedBuddy s p f [bDATA, bEND] b j t →
    (buddyOff t = true → (∃ x, memberMac t j (hdrOf f).src = some x) →
      exec (.buddyDataRx p f) s = .next (flushEvents (sendAck (noteAsked t (hdrOf f).src) p f 2))) ∧
    (∀ u, takeCkptData p f j (hdrOf f).src b t = (0, u) → exec (.buddyDataRx p f) s = .next (accepted u p f j)) ∧
    (∀ u, takeCkptData p f j (hdrOf f).src b t = (4, u) → exec (.buddyDataRx p f) s = .next (flushEvents u))) ∧
  (∀ s p f b j t, ReceivedBuddy s p f [bREADREQ] b j t →
    (buddyOff t = true → exec (.buddyReadReqRx p f) s = .next (flushEvents (sendAck (noteAsked t (hdrOf f).src) p f 2))) ∧
    (buddyOff t = false → admits t 4 nandCells = true → exec (.buddyReadReqRx p f) s = .next (accepted (serveRead p j (hdrOf f).src b t).2 p f j))) ∧
  (∀ s p f b j t, ReceivedBuddy s p f [bREADDATA] b j t →
    (t.ckpt.buddy.any (fun y => y.port == p && y.jslot == j && y.midx == (hdrOf f).src) = true → longOf t 0x0051 = true → b.data ≠ [] →
      exec (.buddyReadDataRx p f) s = .next (accepted { t with ckpt := { t.ckpt with read := spPut t.ckpt.read b.off b.data } } p f j)) ∧
    (longOf t 0x0051 = false → exec (.buddyReadDataRx p f) s = .next (accepted t p f j))) ∧
  (∀ s p f b j t, ReceivedBuddy s p f [bSLOTREQ] b j t →
    (t.slp.entering.isSome = true → exec (.buddySlotReqRx p f) s = .next (flushEvents (sendAck (noteAsked t (hdrOf f).src) p f 2))) ∧
    (t.slp.entering = none → (vtOf t b.tensor).valid = false → exec (.buddySlotReqRx p f) s = .next (accepted t p f j)) ∧
    (t.slp.entering = none → (vtOf t b.tensor).valid = true → admits t 4 (devCells 4 (slotBase (vtOf t b.tensor) (vtOf t b.tensor).cur) false) = true →
      let v := vtOf t b.tensor
      let d := devRead (chargeDev t 4 4 (slotBase v v.cur) v.size false) (slotBase v v.cur) v.size
      let r := sendBuddyAll d.2 p j (hdrOf f).src bSLOTDATA bSLOTDATA v.ver b.tensor 0 d.1.data
      exec (.buddySlotReqRx p f) s = .next (accepted { r.2 with ckpt := { r.2.ckpt with slotServe := r.2.ckpt.slotServe.filter (fun x => framesOpen t x.port x.jslot x.midx x.seqs) ++ [⟨b.tensor, v.cur, p, j, (hdrOf f).src, r.1⟩] } } p f j))) ∧
  (∀ s p f b j t, ReceivedBuddy s p f [bSLOTDATA] b j t → exec (.buddySlotDataRx p f) s = .next (accepted (takeSlotData b t) p f j))

/-- Retransmission, rounds, contributions, deadlines, pieces, OOS and stalled commits take effect. Rests on R230, R291, R292, R297, R298, R312,
R313, R314, R315, R322, R360, R376. That a row is the passing of its time (log 1), and that a source is read at CONTRIBUTION_READY and a
deadline that finds none sends a skipped chunk (log 19), are model choices. -/
def Obligations.FlowTimersComplete : Prop :=
  (∀ s p n u b, (portOf s p).unacked[n]? = some u → u.busy = b → portsServe s = true → portSends s p = true → ∃ t, t = modPort (putFrame s p u.frame) p (fun q =>
      { q with retx := satAdd 32 q.retx 1, unacked := listMod (fun u => { u with busy := false }) q.unacked n }) ∧
    (b = false → exec (.retransmitTimeout p n) s = .next t) ∧ (b = true → exec (.busyRetry p n) s = .next t)) ∧
  (∀ s p j m, portsServe s = true → (jobOf s j).valid = true → (portOf s p).unacked.any (fun u => u.jslot == j && u.midx == m) = true →
    exec (.peerAbsent p j m) s = .next (memberGone s p j m)) ∧
  (∀ s p x, p < 8 → flowRuns s p x = true → (flowOf s p x).fopen = false → (flowOf s p x).trigThresh ≤ sfGet s (p / 2) (flowOf s p x).trig →
      portsServe s = true → s.slp.entering = none →
      ((flowOf s p x).residEn = true → ckptHoldsResid s (p * 32768 + x) (flowOf s p x).parity = false) →
    exec (.flowRoundOpen p x) s = .next (modFlow (sfClear s (p / 2) (flowOf s p x).trig) p x (fun f => { f with fopen := true }))) ∧
  (∀ s p x c, flowRuns s p x = true → (flowOf s p x).fopen = true → c < (flowOf s p x).chunkCount → portsServe s = true →
    (ownOf s p x c = none → admits s 3 (devCells (p / 2) (srcRange (flowOf s p x) c).1 false) = true → exec (.contributionReady p x c) s = .next (flushEvents (advanceChunk (readOwn s p x c) p x c))) ∧
    (∀ o, ownOf s p x c = some o → o.bad ≠ [] → o.skipped = false → admits s 3 (devCells (p / 2) (srcRange (flowOf s p x) c).1 false) = true →
      let a := rereadRange s p (srcRange (flowOf s p x) c).1 (srcRange (flowOf s p x) c).2 o.src o.bad
      let b := rereadRange a.2 p (src2Range (flowOf s p x) c).1 (src2Range (flowOf s p x) c).2 o.src2 o.bad
      exec (.sourceReread p x c) s = .next (flushEvents (advanceChunk (putOwn b.2 { o with src := a.1.1, src2 := b.1.1, bad := a.1.2 ++ b.1.2 }) p x c)))) ∧
  (∀ s p x c, flowRuns s p x = true → c < (flowOf s p x).chunkCount → (stageOf s p x c 0).act = 0 → portsServe s = true →
    (ownReady s p x c = false → (stageOf s p x c 0).bound.isSome = true → exec (.contribDeadline p x c) s =
      .next (flushEvents (advanceChunk (modStage (skipPoisoned s p x c) p x c 0 (fun y => { y with act := 2 })) p x c))) ∧
    (ownReady s p x c = false → (stageOf s p x c 0).bound = none → (flowOf s p x).fopen = true → ringFirst s (flowOf s p x).jslot c = true →
      exec (.contribDeadline p x c) s = .next (flushEvents (advanceChunk (startChain (skipPoisoned s p x c) p x c false) p x c))) ∧
    (ownReady s p x c = true → (stageOf s p x c 0).bound = none → afterStarter s (flowOf s p x).jslot c = true →
      exec (.starterTimeout p x c) s = .next (flushEvents (advanceChunk (startChain s p x c true) p x c)))) ∧
  (∀ s p x, flowRuns s p x = true → (flowOf s p x).fopen = true → portsServe s = true → roundDone s p x = true → (fstatOf s p x).lateN = 0 →
      s.ckpt.policy.lossV = false →
    exec (.flowRoundComplete p x) s = .next (flushEvents (sfAdd (modFstat (clearRound (modFlow (noteSlow s (flowOf s p x).jslot false) p x
      (fun f => { f with round := (f.round + 1) % 2 ^ 32, fopen := false })) p x) p x
      (fun y => { y with chDone := 0, lateN := 0, bumpsR := 0, limit := false, flagged := false })) (p / 2) (flowOf s p x).done 1))) ∧
  (∀ s p x, flowRuns s p x = true → (flowOf s p x).fopen = true → (fstatOf s p x).limit = true → portsServe s = true → admits s 3 (resultCells s p x 0) = true →
    exec (.roundCompletionLimit p x) s = .next (flushEvents ((List.range (flowOf s p x).chunkCount).foldl (fun s c => loseChunk s p x c)
      (modFstat s p x (fun y => { y with limit := false }))))) ∧
  (∀ s p n x, (portOf s p).formed[n]? = some x → (portOf s p).fenced = false → portsServe s = true →
      (jobOf s x.piece.jslot).stopped = false → x.formedAt + 300 ≤ s.clk.aon →
    exec (.pieceTransmit p n false) s = .next (flushEvents (sendPiece (modPort s p (fun q => { q with formed := q.formed.eraseIdx n })) p x.piece)) ∧
    (x.differed = false → exec (.pieceTransmit p n true) s = .next (modPort s p (fun q =>
      { q with formed := listMod (fun x => { x with formedAt := s.clk.aon, differed := true }) q.formed n }))) ∧
    (x.differed = true → exec (.pieceTransmit p n true) s =
      .next (logEvent (modPort s p (fun q => { q with fenced := true })) 0x006A 7 3 p noLink (packFields [(p, 3)])))) ∧
  (∀ s p, p < 8 → (portOf s p).oos = true → s.op = .scrubbing → ∃ f : Frame, (hdrOf f).type = tOOS ∧ f.dst.toNat = 2 ^ 48 - 1 ∧
    f.payload = oosPayload (portOf s p).mac ((portOf s p).oosSent + 1) ∧
    exec (.oosSend p) s = .next (putFrame (modPort s p (fun q => { q with oosSent := (portOf s p).oosSent + 1 })) p f)) ∧
  (∀ s g, (groupOf s g).valid = true → (groupOf s g).await = true →
      stalledReady s g = true →
    exec (.commitStalled g) s = .next (logEvent { s with train := { s.train with sent := s.train.sent.map (fun r => if r.group = g then { r with stalled := true } else r) } }
      0x0011 7 7 0 noLink (packFields [(g, 10), ((groupOf s g).round, 32)])))

/-- The interleaved view and the local views of DRAM. States R24, R25. -/
def Obligations.DramViewsReachEachByteOnce : Prop :=
  (∀ a : Nat, a < 12 * 2 ^ 37 →
    let g := a / 2 ^ 12
    let q := g / 12
    let h := ((q % 16) ^^^ (q / 16 % 16) ^^^ (q / 256 % 16) ^^^ (q / 4096 % 16)) % 12
    locate a = .dram ((g % 12 + h) % 12) (q * 4096 + a % 4096)) ∧
  (∀ q k : Nat, q < 2 ^ 25 → k < 12 → ∃! r : Nat, r < 12 ∧ locate ((12 * q + r) * 4096) = .dram k (q * 4096)) ∧
  (∀ k l : Nat, k < 12 → l < 2 ^ 37 → ∃! a : Nat, a < 12 * 2 ^ 37 ∧ locate a = .dram k l) ∧
  (∀ s b : Nat, s < 4 → b < 3 * 2 ^ 37 →
    locate (0x040000000000 + s * 0x008000000000 + b) = .dram (3 * s + b / 4096 % 3) (b / 4096 / 3 * 4096 + b % 4096)) ∧
  (∀ k l : Nat, k < 12 → l < 2 ^ 37 → ∃! b : Nat, b < 3 * 2 ^ 37 ∧ locate (0x040000000000 + k / 3 * 0x008000000000 + b) = .dram k l) ∧
  (∀ s b : Nat, s < 4 → 3 * 2 ^ 37 ≤ b → b < 2 ^ 39 → locate (0x040000000000 + s * 0x008000000000 + b) = .hole)
end

