-- ==== Sys2Proof/Laws/State.lean ====
section
/-! SUPPORT. What each update of State does to each field, so that no proof unfolds a record update. -/

namespace Sys2Proof.Machine

@[simp] theorem setCluster_pending (s : State) (lc : Nat) (c : Cluster) : (setCluster s lc c).pending = s.pending := rfl
@[simp] theorem setCluster_free (s : State) (lc : Nat) (c : Cluster) : (setCluster s lc c).free = s.free := rfl
@[simp] theorem setCluster_clk (s : State) (lc : Nat) (c : Cluster) : (setCluster s lc c).clk = s.clk := rfl
@[simp] theorem setCluster_op (s : State) (lc : Nat) (c : Cluster) : (setCluster s lc c).op = s.op := rfl
@[simp] theorem setCluster_sec (s : State) (lc : Nat) (c : Cluster) : (setCluster s lc c).sec = s.sec := rfl
@[simp] theorem setCluster_dbg (s : State) (lc : Nat) (c : Cluster) : (setCluster s lc c).dbg = s.dbg := rfl
@[simp] theorem setCluster_faultPin (s : State) (lc : Nat) (c : Cluster) : (setCluster s lc c).faultPin = s.faultPin := rfl
@[simp] theorem setCluster_cl (s : State) (lc : Nat) (c : Cluster) : (setCluster s lc c).cl = spSet .reset s.cl lc c := rfl
@[simp] theorem setCluster_map (s : State) (lc : Nat) (c : Cluster) : (setCluster s lc c).map = s.map := rfl
@[simp] theorem setCluster_hub (s : State) (lc : Nat) (c : Cluster) : (setCluster s lc c).hub = s.hub := rfl
@[simp] theorem setCluster_sect (s : State) (lc : Nat) (c : Cluster) : (setCluster s lc c).sect = s.sect := rfl
@[simp] theorem setCluster_prog (s : State) (lc : Nat) (c : Cluster) : (setCluster s lc c).prog = s.prog := rfl
@[simp] theorem setCluster_dram (s : State) (lc : Nat) (c : Cluster) : (setCluster s lc c).dram = s.dram := rfl
@[simp] theorem setCluster_comp (s : State) (lc : Nat) (c : Cluster) : (setCluster s lc c).comp = s.comp := rfl
@[simp] theorem setCluster_out (s : State) (lc : Nat) (c : Cluster) : (setCluster s lc c).out = s.out := rfl
@[simp] theorem setCluster_win (s : State) (lc : Nat) (c : Cluster) : (setCluster s lc c).win = s.win := rfl
@[simp] theorem setCluster_train (s : State) (lc : Nat) (c : Cluster) : (setCluster s lc c).train = s.train := rfl
@[simp] theorem setCluster_flog (s : State) (lc : Nat) (c : Cluster) : (setCluster s lc c).flog = s.flog := rfl
@[simp] theorem setCluster_mb (s : State) (lc : Nat) (c : Cluster) : (setCluster s lc c).mb = s.mb := rfl
@[simp] theorem setCluster_link (s : State) (lc : Nat) (c : Cluster) : (setCluster s lc c).link = s.link := rfl
@[simp] theorem setCluster_smb (s : State) (lc : Nat) (c : Cluster) : (setCluster s lc c).smb = s.smb := rfl
@[simp] theorem setCluster_tap (s : State) (lc : Nat) (c : Cluster) : (setCluster s lc c).tap = s.tap := rfl
@[simp] theorem setCluster_fab (s : State) (lc : Nat) (c : Cluster) : (setCluster s lc c).fab = s.fab := rfl
@[simp] theorem setCluster_su (s : State) (lc : Nat) (c : Cluster) : (setCluster s lc c).su = s.su := rfl
@[simp] theorem setCluster_ckpt (s : State) (lc : Nat) (c : Cluster) : (setCluster s lc c).ckpt = s.ckpt := rfl
@[simp] theorem setCluster_store (s : State) (lc : Nat) (c : Cluster) : (setCluster s lc c).store = s.store := rfl
@[simp] theorem setCluster_cv (s : State) (lc : Nat) (c : Cluster) : (setCluster s lc c).cv = s.cv := rfl
@[simp] theorem setCluster_tt (s : State) (lc : Nat) (c : Cluster) : (setCluster s lc c).tt = s.tt := rfl
@[simp] theorem setCluster_pw (s : State) (lc : Nat) (c : Cluster) : (setCluster s lc c).pw = s.pw := rfl
@[simp] theorem setCluster_slp (s : State) (lc : Nat) (c : Cluster) : (setCluster s lc c).slp = s.slp := rfl
@[simp] theorem setCluster_time (s : State) (lc : Nat) (c : Cluster) : (setCluster s lc c).time = s.time := rfl
@[simp] theorem setCluster_flash (s : State) (lc : Nat) (c : Cluster) : (setCluster s lc c).flash = s.flash := rfl
@[simp] theorem setCluster_boot (s : State) (lc : Nat) (c : Cluster) : (setCluster s lc c).boot = s.boot := rfl

@[simp] theorem modCluster_pending (s : State) (lc : Nat) (f : Cluster → Cluster) : (modCluster s lc f).pending = s.pending := rfl
@[simp] theorem modCluster_free (s : State) (lc : Nat) (f : Cluster → Cluster) : (modCluster s lc f).free = s.free := rfl
@[simp] theorem modCluster_clk (s : State) (lc : Nat) (f : Cluster → Cluster) : (modCluster s lc f).clk = s.clk := rfl
@[simp] theorem modCluster_op (s : State) (lc : Nat) (f : Cluster → Cluster) : (modCluster s lc f).op = s.op := rfl
@[simp] theorem modCluster_sec (s : State) (lc : Nat) (f : Cluster → Cluster) : (modCluster s lc f).sec = s.sec := rfl
@[simp] theorem modCluster_dbg (s : State) (lc : Nat) (f : Cluster → Cluster) : (modCluster s lc f).dbg = s.dbg := rfl
@[simp] theorem modCluster_faultPin (s : State) (lc : Nat) (f : Cluster → Cluster) : (modCluster s lc f).faultPin = s.faultPin := rfl
@[simp] theorem modCluster_cl (s : State) (lc : Nat) (f : Cluster → Cluster) : (modCluster s lc f).cl = spSet .reset s.cl lc (f (cluster s lc)) := rfl
@[simp] theorem modCluster_map (s : State) (lc : Nat) (f : Cluster → Cluster) : (modCluster s lc f).map = s.map := rfl
@[simp] theorem modCluster_hub (s : State) (lc : Nat) (f : Cluster → Cluster) : (modCluster s lc f).hub = s.hub := rfl
@[simp] theorem modCluster_sect (s : State) (lc : Nat) (f : Cluster → Cluster) : (modCluster s lc f).sect = s.sect := rfl
@[simp] theorem modCluster_prog (s : State) (lc : Nat) (f : Cluster → Cluster) : (modCluster s lc f).prog = s.prog := rfl
@[simp] theorem modCluster_dram (s : State) (lc : Nat) (f : Cluster → Cluster) : (modCluster s lc f).dram = s.dram := rfl
@[simp] theorem modCluster_comp (s : State) (lc : Nat) (f : Cluster → Cluster) : (modCluster s lc f).comp = s.comp := rfl
@[simp] theorem modCluster_out (s : State) (lc : Nat) (f : Cluster → Cluster) : (modCluster s lc f).out = s.out := rfl
@[simp] theorem modCluster_win (s : State) (lc : Nat) (f : Cluster → Cluster) : (modCluster s lc f).win = s.win := rfl
@[simp] theorem modCluster_train (s : State) (lc : Nat) (f : Cluster → Cluster) : (modCluster s lc f).train = s.train := rfl
@[simp] theorem modCluster_flog (s : State) (lc : Nat) (f : Cluster → Cluster) : (modCluster s lc f).flog = s.flog := rfl
@[simp] theorem modCluster_mb (s : State) (lc : Nat) (f : Cluster → Cluster) : (modCluster s lc f).mb = s.mb := rfl
@[simp] theorem modCluster_link (s : State) (lc : Nat) (f : Cluster → Cluster) : (modCluster s lc f).link = s.link := rfl
@[simp] theorem modCluster_smb (s : State) (lc : Nat) (f : Cluster → Cluster) : (modCluster s lc f).smb = s.smb := rfl
@[simp] theorem modCluster_tap (s : State) (lc : Nat) (f : Cluster → Cluster) : (modCluster s lc f).tap = s.tap := rfl
@[simp] theorem modCluster_fab (s : State) (lc : Nat) (f : Cluster → Cluster) : (modCluster s lc f).fab = s.fab := rfl
@[simp] theorem modCluster_su (s : State) (lc : Nat) (f : Cluster → Cluster) : (modCluster s lc f).su = s.su := rfl
@[simp] theorem modCluster_ckpt (s : State) (lc : Nat) (f : Cluster → Cluster) : (modCluster s lc f).ckpt = s.ckpt := rfl
@[simp] theorem modCluster_store (s : State) (lc : Nat) (f : Cluster → Cluster) : (modCluster s lc f).store = s.store := rfl
@[simp] theorem modCluster_cv (s : State) (lc : Nat) (f : Cluster → Cluster) : (modCluster s lc f).cv = s.cv := rfl
@[simp] theorem modCluster_tt (s : State) (lc : Nat) (f : Cluster → Cluster) : (modCluster s lc f).tt = s.tt := rfl
@[simp] theorem modCluster_pw (s : State) (lc : Nat) (f : Cluster → Cluster) : (modCluster s lc f).pw = s.pw := rfl
@[simp] theorem modCluster_slp (s : State) (lc : Nat) (f : Cluster → Cluster) : (modCluster s lc f).slp = s.slp := rfl
@[simp] theorem modCluster_time (s : State) (lc : Nat) (f : Cluster → Cluster) : (modCluster s lc f).time = s.time := rfl
@[simp] theorem modCluster_flash (s : State) (lc : Nat) (f : Cluster → Cluster) : (modCluster s lc f).flash = s.flash := rfl
@[simp] theorem modCluster_boot (s : State) (lc : Nat) (f : Cluster → Cluster) : (modCluster s lc f).boot = s.boot := rfl

@[simp] theorem modMem_pending (s : State) (lc : Nat) (f : ClMem → ClMem) : (modMem s lc f).pending = s.pending := rfl
@[simp] theorem modMem_free (s : State) (lc : Nat) (f : ClMem → ClMem) : (modMem s lc f).free = s.free := rfl
@[simp] theorem modMem_clk (s : State) (lc : Nat) (f : ClMem → ClMem) : (modMem s lc f).clk = s.clk := rfl
@[simp] theorem modMem_op (s : State) (lc : Nat) (f : ClMem → ClMem) : (modMem s lc f).op = s.op := rfl
@[simp] theorem modMem_sec (s : State) (lc : Nat) (f : ClMem → ClMem) : (modMem s lc f).sec = s.sec := rfl
@[simp] theorem modMem_dbg (s : State) (lc : Nat) (f : ClMem → ClMem) : (modMem s lc f).dbg = s.dbg := rfl
@[simp] theorem modMem_faultPin (s : State) (lc : Nat) (f : ClMem → ClMem) : (modMem s lc f).faultPin = s.faultPin := rfl
@[simp] theorem modMem_cl (s : State) (lc : Nat) (f : ClMem → ClMem) : (modMem s lc f).cl = spSet .reset s.cl lc { cluster s lc with mem := f (cluster s lc).mem } := rfl
@[simp] theorem modMem_map (s : State) (lc : Nat) (f : ClMem → ClMem) : (modMem s lc f).map = s.map := rfl
@[simp] theorem modMem_hub (s : State) (lc : Nat) (f : ClMem → ClMem) : (modMem s lc f).hub = s.hub := rfl
@[simp] theorem modMem_sect (s : State) (lc : Nat) (f : ClMem → ClMem) : (modMem s lc f).sect = s.sect := rfl
@[simp] theorem modMem_prog (s : State) (lc : Nat) (f : ClMem → ClMem) : (modMem s lc f).prog = s.prog := rfl
@[simp] theorem modMem_dram (s : State) (lc : Nat) (f : ClMem → ClMem) : (modMem s lc f).dram = s.dram := rfl
@[simp] theorem modMem_comp (s : State) (lc : Nat) (f : ClMem → ClMem) : (modMem s lc f).comp = s.comp := rfl
@[simp] theorem modMem_out (s : State) (lc : Nat) (f : ClMem → ClMem) : (modMem s lc f).out = s.out := rfl
@[simp] theorem modMem_win (s : State) (lc : Nat) (f : ClMem → ClMem) : (modMem s lc f).win = s.win := rfl
@[simp] theorem modMem_train (s : State) (lc : Nat) (f : ClMem → ClMem) : (modMem s lc f).train = s.train := rfl
@[simp] theorem modMem_flog (s : State) (lc : Nat) (f : ClMem → ClMem) : (modMem s lc f).flog = s.flog := rfl
@[simp] theorem modMem_mb (s : State) (lc : Nat) (f : ClMem → ClMem) : (modMem s lc f).mb = s.mb := rfl
@[simp] theorem modMem_link (s : State) (lc : Nat) (f : ClMem → ClMem) : (modMem s lc f).link = s.link := rfl
@[simp] theorem modMem_smb (s : State) (lc : Nat) (f : ClMem → ClMem) : (modMem s lc f).smb = s.smb := rfl
@[simp] theorem modMem_tap (s : State) (lc : Nat) (f : ClMem → ClMem) : (modMem s lc f).tap = s.tap := rfl
@[simp] theorem modMem_fab (s : State) (lc : Nat) (f : ClMem → ClMem) : (modMem s lc f).fab = s.fab := rfl
@[simp] theorem modMem_su (s : State) (lc : Nat) (f : ClMem → ClMem) : (modMem s lc f).su = s.su := rfl
@[simp] theorem modMem_ckpt (s : State) (lc : Nat) (f : ClMem → ClMem) : (modMem s lc f).ckpt = s.ckpt := rfl
@[simp] theorem modMem_store (s : State) (lc : Nat) (f : ClMem → ClMem) : (modMem s lc f).store = s.store := rfl
@[simp] theorem modMem_cv (s : State) (lc : Nat) (f : ClMem → ClMem) : (modMem s lc f).cv = s.cv := rfl
@[simp] theorem modMem_tt (s : State) (lc : Nat) (f : ClMem → ClMem) : (modMem s lc f).tt = s.tt := rfl
@[simp] theorem modMem_pw (s : State) (lc : Nat) (f : ClMem → ClMem) : (modMem s lc f).pw = s.pw := rfl
@[simp] theorem modMem_slp (s : State) (lc : Nat) (f : ClMem → ClMem) : (modMem s lc f).slp = s.slp := rfl
@[simp] theorem modMem_time (s : State) (lc : Nat) (f : ClMem → ClMem) : (modMem s lc f).time = s.time := rfl
@[simp] theorem modMem_flash (s : State) (lc : Nat) (f : ClMem → ClMem) : (modMem s lc f).flash = s.flash := rfl
@[simp] theorem modMem_boot (s : State) (lc : Nat) (f : ClMem → ClMem) : (modMem s lc f).boot = s.boot := rfl

@[simp] theorem modOpx_pending (s : State) (lc : Nat) (f : Opx → Opx) : (modOpx s lc f).pending = s.pending := rfl
@[simp] theorem modOpx_free (s : State) (lc : Nat) (f : Opx → Opx) : (modOpx s lc f).free = s.free := rfl
@[simp] theorem modOpx_clk (s : State) (lc : Nat) (f : Opx → Opx) : (modOpx s lc f).clk = s.clk := rfl
@[simp] theorem modOpx_op (s : State) (lc : Nat) (f : Opx → Opx) : (modOpx s lc f).op = s.op := rfl
@[simp] theorem modOpx_sec (s : State) (lc : Nat) (f : Opx → Opx) : (modOpx s lc f).sec = s.sec := rfl
@[simp] theorem modOpx_dbg (s : State) (lc : Nat) (f : Opx → Opx) : (modOpx s lc f).dbg = s.dbg := rfl
@[simp] theorem modOpx_faultPin (s : State) (lc : Nat) (f : Opx → Opx) : (modOpx s lc f).faultPin = s.faultPin := rfl
@[simp] theorem modOpx_cl (s : State) (lc : Nat) (f : Opx → Opx) : (modOpx s lc f).cl = spSet .reset s.cl lc { cluster s lc with opx := f (cluster s lc).opx } := rfl
@[simp] theorem modOpx_map (s : State) (lc : Nat) (f : Opx → Opx) : (modOpx s lc f).map = s.map := rfl
@[simp] theorem modOpx_hub (s : State) (lc : Nat) (f : Opx → Opx) : (modOpx s lc f).hub = s.hub := rfl
@[simp] theorem modOpx_sect (s : State) (lc : Nat) (f : Opx → Opx) : (modOpx s lc f).sect = s.sect := rfl
@[simp] theorem modOpx_prog (s : State) (lc : Nat) (f : Opx → Opx) : (modOpx s lc f).prog = s.prog := rfl
@[simp] theorem modOpx_dram (s : State) (lc : Nat) (f : Opx → Opx) : (modOpx s lc f).dram = s.dram := rfl
@[simp] theorem modOpx_comp (s : State) (lc : Nat) (f : Opx → Opx) : (modOpx s lc f).comp = s.comp := rfl
@[simp] theorem modOpx_out (s : State) (lc : Nat) (f : Opx → Opx) : (modOpx s lc f).out = s.out := rfl
@[simp] theorem modOpx_win (s : State) (lc : Nat) (f : Opx → Opx) : (modOpx s lc f).win = s.win := rfl
@[simp] theorem modOpx_train (s : State) (lc : Nat) (f : Opx → Opx) : (modOpx s lc f).train = s.train := rfl
@[simp] theorem modOpx_flog (s : State) (lc : Nat) (f : Opx → Opx) : (modOpx s lc f).flog = s.flog := rfl
@[simp] theorem modOpx_mb (s : State) (lc : Nat) (f : Opx → Opx) : (modOpx s lc f).mb = s.mb := rfl
@[simp] theorem modOpx_link (s : State) (lc : Nat) (f : Opx → Opx) : (modOpx s lc f).link = s.link := rfl
@[simp] theorem modOpx_smb (s : State) (lc : Nat) (f : Opx → Opx) : (modOpx s lc f).smb = s.smb := rfl
@[simp] theorem modOpx_tap (s : State) (lc : Nat) (f : Opx → Opx) : (modOpx s lc f).tap = s.tap := rfl
@[simp] theorem modOpx_fab (s : State) (lc : Nat) (f : Opx → Opx) : (modOpx s lc f).fab = s.fab := rfl
@[simp] theorem modOpx_su (s : State) (lc : Nat) (f : Opx → Opx) : (modOpx s lc f).su = s.su := rfl
@[simp] theorem modOpx_ckpt (s : State) (lc : Nat) (f : Opx → Opx) : (modOpx s lc f).ckpt = s.ckpt := rfl
@[simp] theorem modOpx_store (s : State) (lc : Nat) (f : Opx → Opx) : (modOpx s lc f).store = s.store := rfl
@[simp] theorem modOpx_cv (s : State) (lc : Nat) (f : Opx → Opx) : (modOpx s lc f).cv = s.cv := rfl
@[simp] theorem modOpx_tt (s : State) (lc : Nat) (f : Opx → Opx) : (modOpx s lc f).tt = s.tt := rfl
@[simp] theorem modOpx_pw (s : State) (lc : Nat) (f : Opx → Opx) : (modOpx s lc f).pw = s.pw := rfl
@[simp] theorem modOpx_slp (s : State) (lc : Nat) (f : Opx → Opx) : (modOpx s lc f).slp = s.slp := rfl
@[simp] theorem modOpx_time (s : State) (lc : Nat) (f : Opx → Opx) : (modOpx s lc f).time = s.time := rfl
@[simp] theorem modOpx_flash (s : State) (lc : Nat) (f : Opx → Opx) : (modOpx s lc f).flash = s.flash := rfl
@[simp] theorem modOpx_boot (s : State) (lc : Nat) (f : Opx → Opx) : (modOpx s lc f).boot = s.boot := rfl

@[simp] theorem modSection_pending (s : State) (k : Nat) (f : Section → Section) : (modSection s k f).pending = s.pending := rfl
@[simp] theorem modSection_free (s : State) (k : Nat) (f : Section → Section) : (modSection s k f).free = s.free := rfl
@[simp] theorem modSection_clk (s : State) (k : Nat) (f : Section → Section) : (modSection s k f).clk = s.clk := rfl
@[simp] theorem modSection_op (s : State) (k : Nat) (f : Section → Section) : (modSection s k f).op = s.op := rfl
@[simp] theorem modSection_sec (s : State) (k : Nat) (f : Section → Section) : (modSection s k f).sec = s.sec := rfl
@[simp] theorem modSection_dbg (s : State) (k : Nat) (f : Section → Section) : (modSection s k f).dbg = s.dbg := rfl
@[simp] theorem modSection_faultPin (s : State) (k : Nat) (f : Section → Section) : (modSection s k f).faultPin = s.faultPin := rfl
@[simp] theorem modSection_cl (s : State) (k : Nat) (f : Section → Section) : (modSection s k f).cl = s.cl := rfl
@[simp] theorem modSection_map (s : State) (k : Nat) (f : Section → Section) : (modSection s k f).map = s.map := rfl
@[simp] theorem modSection_hub (s : State) (k : Nat) (f : Section → Section) : (modSection s k f).hub = s.hub := rfl
@[simp] theorem modSection_sect (s : State) (k : Nat) (f : Section → Section) : (modSection s k f).sect = spMod .reset s.sect k f := rfl
@[simp] theorem modSection_prog (s : State) (k : Nat) (f : Section → Section) : (modSection s k f).prog = s.prog := rfl
@[simp] theorem modSection_dram (s : State) (k : Nat) (f : Section → Section) : (modSection s k f).dram = s.dram := rfl
@[simp] theorem modSection_comp (s : State) (k : Nat) (f : Section → Section) : (modSection s k f).comp = s.comp := rfl
@[simp] theorem modSection_out (s : State) (k : Nat) (f : Section → Section) : (modSection s k f).out = s.out := rfl
@[simp] theorem modSection_win (s : State) (k : Nat) (f : Section → Section) : (modSection s k f).win = s.win := rfl
@[simp] theorem modSection_train (s : State) (k : Nat) (f : Section → Section) : (modSection s k f).train = s.train := rfl
@[simp] theorem modSection_flog (s : State) (k : Nat) (f : Section → Section) : (modSection s k f).flog = s.flog := rfl
@[simp] theorem modSection_mb (s : State) (k : Nat) (f : Section → Section) : (modSection s k f).mb = s.mb := rfl
@[simp] theorem modSection_link (s : State) (k : Nat) (f : Section → Section) : (modSection s k f).link = s.link := rfl
@[simp] theorem modSection_smb (s : State) (k : Nat) (f : Section → Section) : (modSection s k f).smb = s.smb := rfl
@[simp] theorem modSection_tap (s : State) (k : Nat) (f : Section → Section) : (modSection s k f).tap = s.tap := rfl
@[simp] theorem modSection_fab (s : State) (k : Nat) (f : Section → Section) : (modSection s k f).fab = s.fab := rfl
@[simp] theorem modSection_su (s : State) (k : Nat) (f : Section → Section) : (modSection s k f).su = s.su := rfl
@[simp] theorem modSection_ckpt (s : State) (k : Nat) (f : Section → Section) : (modSection s k f).ckpt = s.ckpt := rfl
@[simp] theorem modSection_store (s : State) (k : Nat) (f : Section → Section) : (modSection s k f).store = s.store := rfl
@[simp] theorem modSection_cv (s : State) (k : Nat) (f : Section → Section) : (modSection s k f).cv = s.cv := rfl
@[simp] theorem modSection_tt (s : State) (k : Nat) (f : Section → Section) : (modSection s k f).tt = s.tt := rfl
@[simp] theorem modSection_pw (s : State) (k : Nat) (f : Section → Section) : (modSection s k f).pw = s.pw := rfl
@[simp] theorem modSection_slp (s : State) (k : Nat) (f : Section → Section) : (modSection s k f).slp = s.slp := rfl
@[simp] theorem modSection_time (s : State) (k : Nat) (f : Section → Section) : (modSection s k f).time = s.time := rfl
@[simp] theorem modSection_flash (s : State) (k : Nat) (f : Section → Section) : (modSection s k f).flash = s.flash := rfl
@[simp] theorem modSection_boot (s : State) (k : Nat) (f : Section → Section) : (modSection s k f).boot = s.boot := rfl

@[simp] theorem modStk_pending (s : State) (k : Nat) (f : Stk → Stk) : (modStk s k f).pending = s.pending := rfl
@[simp] theorem modStk_free (s : State) (k : Nat) (f : Stk → Stk) : (modStk s k f).free = s.free := rfl
@[simp] theorem modStk_clk (s : State) (k : Nat) (f : Stk → Stk) : (modStk s k f).clk = s.clk := rfl
@[simp] theorem modStk_op (s : State) (k : Nat) (f : Stk → Stk) : (modStk s k f).op = s.op := rfl
@[simp] theorem modStk_sec (s : State) (k : Nat) (f : Stk → Stk) : (modStk s k f).sec = s.sec := rfl
@[simp] theorem modStk_dbg (s : State) (k : Nat) (f : Stk → Stk) : (modStk s k f).dbg = s.dbg := rfl
@[simp] theorem modStk_faultPin (s : State) (k : Nat) (f : Stk → Stk) : (modStk s k f).faultPin = s.faultPin := rfl
@[simp] theorem modStk_cl (s : State) (k : Nat) (f : Stk → Stk) : (modStk s k f).cl = s.cl := rfl
@[simp] theorem modStk_map (s : State) (k : Nat) (f : Stk → Stk) : (modStk s k f).map = s.map := rfl
@[simp] theorem modStk_hub (s : State) (k : Nat) (f : Stk → Stk) : (modStk s k f).hub = s.hub := rfl
@[simp] theorem modStk_sect (s : State) (k : Nat) (f : Stk → Stk) : (modStk s k f).sect = s.sect := rfl
@[simp] theorem modStk_prog (s : State) (k : Nat) (f : Stk → Stk) : (modStk s k f).prog = s.prog := rfl
@[simp] theorem modStk_dram (s : State) (k : Nat) (f : Stk → Stk) : (modStk s k f).dram = { s.dram with stk := spMod .reset s.dram.stk k f } := rfl
@[simp] theorem modStk_comp (s : State) (k : Nat) (f : Stk → Stk) : (modStk s k f).comp = s.comp := rfl
@[simp] theorem modStk_out (s : State) (k : Nat) (f : Stk → Stk) : (modStk s k f).out = s.out := rfl
@[simp] theorem modStk_win (s : State) (k : Nat) (f : Stk → Stk) : (modStk s k f).win = s.win := rfl
@[simp] theorem modStk_train (s : State) (k : Nat) (f : Stk → Stk) : (modStk s k f).train = s.train := rfl
@[simp] theorem modStk_flog (s : State) (k : Nat) (f : Stk → Stk) : (modStk s k f).flog = s.flog := rfl
@[simp] theorem modStk_mb (s : State) (k : Nat) (f : Stk → Stk) : (modStk s k f).mb = s.mb := rfl
@[simp] theorem modStk_link (s : State) (k : Nat) (f : Stk → Stk) : (modStk s k f).link = s.link := rfl
@[simp] theorem modStk_smb (s : State) (k : Nat) (f : Stk → Stk) : (modStk s k f).smb = s.smb := rfl
@[simp] theorem modStk_tap (s : State) (k : Nat) (f : Stk → Stk) : (modStk s k f).tap = s.tap := rfl
@[simp] theorem modStk_fab (s : State) (k : Nat) (f : Stk → Stk) : (modStk s k f).fab = s.fab := rfl
@[simp] theorem modStk_su (s : State) (k : Nat) (f : Stk → Stk) : (modStk s k f).su = s.su := rfl
@[simp] theorem modStk_ckpt (s : State) (k : Nat) (f : Stk → Stk) : (modStk s k f).ckpt = s.ckpt := rfl
@[simp] theorem modStk_store (s : State) (k : Nat) (f : Stk → Stk) : (modStk s k f).store = s.store := rfl
@[simp] theorem modStk_cv (s : State) (k : Nat) (f : Stk → Stk) : (modStk s k f).cv = s.cv := rfl
@[simp] theorem modStk_tt (s : State) (k : Nat) (f : Stk → Stk) : (modStk s k f).tt = s.tt := rfl
@[simp] theorem modStk_pw (s : State) (k : Nat) (f : Stk → Stk) : (modStk s k f).pw = s.pw := rfl
@[simp] theorem modStk_slp (s : State) (k : Nat) (f : Stk → Stk) : (modStk s k f).slp = s.slp := rfl
@[simp] theorem modStk_time (s : State) (k : Nat) (f : Stk → Stk) : (modStk s k f).time = s.time := rfl
@[simp] theorem modStk_flash (s : State) (k : Nat) (f : Stk → Stk) : (modStk s k f).flash = s.flash := rfl
@[simp] theorem modStk_boot (s : State) (k : Nat) (f : Stk → Stk) : (modStk s k f).boot = s.boot := rfl

@[simp] theorem modRing_pending (s : State) (r : Nat) (f : Ring → Ring) : (modRing s r f).pending = s.pending := rfl
@[simp] theorem modRing_free (s : State) (r : Nat) (f : Ring → Ring) : (modRing s r f).free = s.free := rfl
@[simp] theorem modRing_clk (s : State) (r : Nat) (f : Ring → Ring) : (modRing s r f).clk = s.clk := rfl
@[simp] theorem modRing_op (s : State) (r : Nat) (f : Ring → Ring) : (modRing s r f).op = s.op := rfl
@[simp] theorem modRing_sec (s : State) (r : Nat) (f : Ring → Ring) : (modRing s r f).sec = s.sec := rfl
@[simp] theorem modRing_dbg (s : State) (r : Nat) (f : Ring → Ring) : (modRing s r f).dbg = s.dbg := rfl
@[simp] theorem modRing_faultPin (s : State) (r : Nat) (f : Ring → Ring) : (modRing s r f).faultPin = s.faultPin := rfl
@[simp] theorem modRing_cl (s : State) (r : Nat) (f : Ring → Ring) : (modRing s r f).cl = s.cl := rfl
@[simp] theorem modRing_map (s : State) (r : Nat) (f : Ring → Ring) : (modRing s r f).map = s.map := rfl
@[simp] theorem modRing_hub (s : State) (r : Nat) (f : Ring → Ring) : (modRing s r f).hub = s.hub := rfl
@[simp] theorem modRing_sect (s : State) (r : Nat) (f : Ring → Ring) : (modRing s r f).sect = s.sect := rfl
@[simp] theorem modRing_prog (s : State) (r : Nat) (f : Ring → Ring) : (modRing s r f).prog = s.prog := rfl
@[simp] theorem modRing_dram (s : State) (r : Nat) (f : Ring → Ring) : (modRing s r f).dram = s.dram := rfl
@[simp] theorem modRing_comp (s : State) (r : Nat) (f : Ring → Ring) : (modRing s r f).comp = s.comp := rfl
@[simp] theorem modRing_out (s : State) (r : Nat) (f : Ring → Ring) : (modRing s r f).out = s.out := rfl
@[simp] theorem modRing_win (s : State) (r : Nat) (f : Ring → Ring) : (modRing s r f).win = s.win := rfl
@[simp] theorem modRing_train (s : State) (r : Nat) (f : Ring → Ring) : (modRing s r f).train = s.train := rfl
@[simp] theorem modRing_flog (s : State) (r : Nat) (f : Ring → Ring) : (modRing s r f).flog = s.flog := rfl
@[simp] theorem modRing_mb (s : State) (r : Nat) (f : Ring → Ring) : (modRing s r f).mb = { s.mb with rings := spMod .reset s.mb.rings r f } := rfl
@[simp] theorem modRing_link (s : State) (r : Nat) (f : Ring → Ring) : (modRing s r f).link = s.link := rfl
@[simp] theorem modRing_smb (s : State) (r : Nat) (f : Ring → Ring) : (modRing s r f).smb = s.smb := rfl
@[simp] theorem modRing_tap (s : State) (r : Nat) (f : Ring → Ring) : (modRing s r f).tap = s.tap := rfl
@[simp] theorem modRing_fab (s : State) (r : Nat) (f : Ring → Ring) : (modRing s r f).fab = s.fab := rfl
@[simp] theorem modRing_su (s : State) (r : Nat) (f : Ring → Ring) : (modRing s r f).su = s.su := rfl
@[simp] theorem modRing_ckpt (s : State) (r : Nat) (f : Ring → Ring) : (modRing s r f).ckpt = s.ckpt := rfl
@[simp] theorem modRing_store (s : State) (r : Nat) (f : Ring → Ring) : (modRing s r f).store = s.store := rfl
@[simp] theorem modRing_cv (s : State) (r : Nat) (f : Ring → Ring) : (modRing s r f).cv = s.cv := rfl
@[simp] theorem modRing_tt (s : State) (r : Nat) (f : Ring → Ring) : (modRing s r f).tt = s.tt := rfl
@[simp] theorem modRing_pw (s : State) (r : Nat) (f : Ring → Ring) : (modRing s r f).pw = s.pw := rfl
@[simp] theorem modRing_slp (s : State) (r : Nat) (f : Ring → Ring) : (modRing s r f).slp = s.slp := rfl
@[simp] theorem modRing_time (s : State) (r : Nat) (f : Ring → Ring) : (modRing s r f).time = s.time := rfl
@[simp] theorem modRing_flash (s : State) (r : Nat) (f : Ring → Ring) : (modRing s r f).flash = s.flash := rfl
@[simp] theorem modRing_boot (s : State) (r : Nat) (f : Ring → Ring) : (modRing s r f).boot = s.boot := rfl

@[simp] theorem modVt_pending (s : State) (t : Nat) (f : VtEntry → VtEntry) : (modVt s t f).pending = s.pending := rfl
@[simp] theorem modVt_free (s : State) (t : Nat) (f : VtEntry → VtEntry) : (modVt s t f).free = s.free := rfl
@[simp] theorem modVt_clk (s : State) (t : Nat) (f : VtEntry → VtEntry) : (modVt s t f).clk = s.clk := rfl
@[simp] theorem modVt_op (s : State) (t : Nat) (f : VtEntry → VtEntry) : (modVt s t f).op = s.op := rfl
@[simp] theorem modVt_sec (s : State) (t : Nat) (f : VtEntry → VtEntry) : (modVt s t f).sec = s.sec := rfl
@[simp] theorem modVt_dbg (s : State) (t : Nat) (f : VtEntry → VtEntry) : (modVt s t f).dbg = s.dbg := rfl
@[simp] theorem modVt_faultPin (s : State) (t : Nat) (f : VtEntry → VtEntry) : (modVt s t f).faultPin = s.faultPin := rfl
@[simp] theorem modVt_cl (s : State) (t : Nat) (f : VtEntry → VtEntry) : (modVt s t f).cl = s.cl := rfl
@[simp] theorem modVt_map (s : State) (t : Nat) (f : VtEntry → VtEntry) : (modVt s t f).map = s.map := rfl
@[simp] theorem modVt_hub (s : State) (t : Nat) (f : VtEntry → VtEntry) : (modVt s t f).hub = s.hub := rfl
@[simp] theorem modVt_sect (s : State) (t : Nat) (f : VtEntry → VtEntry) : (modVt s t f).sect = s.sect := rfl
@[simp] theorem modVt_prog (s : State) (t : Nat) (f : VtEntry → VtEntry) : (modVt s t f).prog = s.prog := rfl
@[simp] theorem modVt_dram (s : State) (t : Nat) (f : VtEntry → VtEntry) : (modVt s t f).dram = s.dram := rfl
@[simp] theorem modVt_comp (s : State) (t : Nat) (f : VtEntry → VtEntry) : (modVt s t f).comp = s.comp := rfl
@[simp] theorem modVt_out (s : State) (t : Nat) (f : VtEntry → VtEntry) : (modVt s t f).out = s.out := rfl
@[simp] theorem modVt_win (s : State) (t : Nat) (f : VtEntry → VtEntry) : (modVt s t f).win = s.win := rfl
@[simp] theorem modVt_train (s : State) (t : Nat) (f : VtEntry → VtEntry) : (modVt s t f).train = { s.train with vt := spMod .reset s.train.vt t f } := rfl
@[simp] theorem modVt_flog (s : State) (t : Nat) (f : VtEntry → VtEntry) : (modVt s t f).flog = s.flog := rfl
@[simp] theorem modVt_mb (s : State) (t : Nat) (f : VtEntry → VtEntry) : (modVt s t f).mb = s.mb := rfl
@[simp] theorem modVt_link (s : State) (t : Nat) (f : VtEntry → VtEntry) : (modVt s t f).link = s.link := rfl
@[simp] theorem modVt_smb (s : State) (t : Nat) (f : VtEntry → VtEntry) : (modVt s t f).smb = s.smb := rfl
@[simp] theorem modVt_tap (s : State) (t : Nat) (f : VtEntry → VtEntry) : (modVt s t f).tap = s.tap := rfl
@[simp] theorem modVt_fab (s : State) (t : Nat) (f : VtEntry → VtEntry) : (modVt s t f).fab = s.fab := rfl
@[simp] theorem modVt_su (s : State) (t : Nat) (f : VtEntry → VtEntry) : (modVt s t f).su = s.su := rfl
@[simp] theorem modVt_ckpt (s : State) (t : Nat) (f : VtEntry → VtEntry) : (modVt s t f).ckpt = s.ckpt := rfl
@[simp] theorem modVt_store (s : State) (t : Nat) (f : VtEntry → VtEntry) : (modVt s t f).store = s.store := rfl
@[simp] theorem modVt_cv (s : State) (t : Nat) (f : VtEntry → VtEntry) : (modVt s t f).cv = s.cv := rfl
@[simp] theorem modVt_tt (s : State) (t : Nat) (f : VtEntry → VtEntry) : (modVt s t f).tt = s.tt := rfl
@[simp] theorem modVt_pw (s : State) (t : Nat) (f : VtEntry → VtEntry) : (modVt s t f).pw = s.pw := rfl
@[simp] theorem modVt_slp (s : State) (t : Nat) (f : VtEntry → VtEntry) : (modVt s t f).slp = s.slp := rfl
@[simp] theorem modVt_time (s : State) (t : Nat) (f : VtEntry → VtEntry) : (modVt s t f).time = s.time := rfl
@[simp] theorem modVt_flash (s : State) (t : Nat) (f : VtEntry → VtEntry) : (modVt s t f).flash = s.flash := rfl
@[simp] theorem modVt_boot (s : State) (t : Nat) (f : VtEntry → VtEntry) : (modVt s t f).boot = s.boot := rfl

@[simp] theorem modGroup_pending (s : State) (g : Nat) (f : Group → Group) : (modGroup s g f).pending = s.pending := rfl
@[simp] theorem modGroup_free (s : State) (g : Nat) (f : Group → Group) : (modGroup s g f).free = s.free := rfl
@[simp] theorem modGroup_clk (s : State) (g : Nat) (f : Group → Group) : (modGroup s g f).clk = s.clk := rfl
@[simp] theorem modGroup_op (s : State) (g : Nat) (f : Group → Group) : (modGroup s g f).op = s.op := rfl
@[simp] theorem modGroup_sec (s : State) (g : Nat) (f : Group → Group) : (modGroup s g f).sec = s.sec := rfl
@[simp] theorem modGroup_dbg (s : State) (g : Nat) (f : Group → Group) : (modGroup s g f).dbg = s.dbg := rfl
@[simp] theorem modGroup_faultPin (s : State) (g : Nat) (f : Group → Group) : (modGroup s g f).faultPin = s.faultPin := rfl
@[simp] theorem modGroup_cl (s : State) (g : Nat) (f : Group → Group) : (modGroup s g f).cl = s.cl := rfl
@[simp] theorem modGroup_map (s : State) (g : Nat) (f : Group → Group) : (modGroup s g f).map = s.map := rfl
@[simp] theorem modGroup_hub (s : State) (g : Nat) (f : Group → Group) : (modGroup s g f).hub = s.hub := rfl
@[simp] theorem modGroup_sect (s : State) (g : Nat) (f : Group → Group) : (modGroup s g f).sect = s.sect := rfl
@[simp] theorem modGroup_prog (s : State) (g : Nat) (f : Group → Group) : (modGroup s g f).prog = s.prog := rfl
@[simp] theorem modGroup_dram (s : State) (g : Nat) (f : Group → Group) : (modGroup s g f).dram = s.dram := rfl
@[simp] theorem modGroup_comp (s : State) (g : Nat) (f : Group → Group) : (modGroup s g f).comp = s.comp := rfl
@[simp] theorem modGroup_out (s : State) (g : Nat) (f : Group → Group) : (modGroup s g f).out = s.out := rfl
@[simp] theorem modGroup_win (s : State) (g : Nat) (f : Group → Group) : (modGroup s g f).win = s.win := rfl
@[simp] theorem modGroup_train (s : State) (g : Nat) (f : Group → Group) : (modGroup s g f).train = { s.train with groups := spMod .reset s.train.groups g f } := rfl
@[simp] theorem modGroup_flog (s : State) (g : Nat) (f : Group → Group) : (modGroup s g f).flog = s.flog := rfl
@[simp] theorem modGroup_mb (s : State) (g : Nat) (f : Group → Group) : (modGroup s g f).mb = s.mb := rfl
@[simp] theorem modGroup_link (s : State) (g : Nat) (f : Group → Group) : (modGroup s g f).link = s.link := rfl
@[simp] theorem modGroup_smb (s : State) (g : Nat) (f : Group → Group) : (modGroup s g f).smb = s.smb := rfl
@[simp] theorem modGroup_tap (s : State) (g : Nat) (f : Group → Group) : (modGroup s g f).tap = s.tap := rfl
@[simp] theorem modGroup_fab (s : State) (g : Nat) (f : Group → Group) : (modGroup s g f).fab = s.fab := rfl
@[simp] theorem modGroup_su (s : State) (g : Nat) (f : Group → Group) : (modGroup s g f).su = s.su := rfl
@[simp] theorem modGroup_ckpt (s : State) (g : Nat) (f : Group → Group) : (modGroup s g f).ckpt = s.ckpt := rfl
@[simp] theorem modGroup_store (s : State) (g : Nat) (f : Group → Group) : (modGroup s g f).store = s.store := rfl
@[simp] theorem modGroup_cv (s : State) (g : Nat) (f : Group → Group) : (modGroup s g f).cv = s.cv := rfl
@[simp] theorem modGroup_tt (s : State) (g : Nat) (f : Group → Group) : (modGroup s g f).tt = s.tt := rfl
@[simp] theorem modGroup_pw (s : State) (g : Nat) (f : Group → Group) : (modGroup s g f).pw = s.pw := rfl
@[simp] theorem modGroup_slp (s : State) (g : Nat) (f : Group → Group) : (modGroup s g f).slp = s.slp := rfl
@[simp] theorem modGroup_time (s : State) (g : Nat) (f : Group → Group) : (modGroup s g f).time = s.time := rfl
@[simp] theorem modGroup_flash (s : State) (g : Nat) (f : Group → Group) : (modGroup s g f).flash = s.flash := rfl
@[simp] theorem modGroup_boot (s : State) (g : Nat) (f : Group → Group) : (modGroup s g f).boot = s.boot := rfl

@[simp] theorem modMonitor_pending (s : State) (m : Nat) (f : Monitor → Monitor) : (modMonitor s m f).pending = s.pending := rfl
@[simp] theorem modMonitor_free (s : State) (m : Nat) (f : Monitor → Monitor) : (modMonitor s m f).free = s.free := rfl
@[simp] theorem modMonitor_clk (s : State) (m : Nat) (f : Monitor → Monitor) : (modMonitor s m f).clk = s.clk := rfl
@[simp] theorem modMonitor_op (s : State) (m : Nat) (f : Monitor → Monitor) : (modMonitor s m f).op = s.op := rfl
@[simp] theorem modMonitor_sec (s : State) (m : Nat) (f : Monitor → Monitor) : (modMonitor s m f).sec = s.sec := rfl
@[simp] theorem modMonitor_dbg (s : State) (m : Nat) (f : Monitor → Monitor) : (modMonitor s m f).dbg = s.dbg := rfl
@[simp] theorem modMonitor_faultPin (s : State) (m : Nat) (f : Monitor → Monitor) : (modMonitor s m f).faultPin = s.faultPin := rfl
@[simp] theorem modMonitor_cl (s : State) (m : Nat) (f : Monitor → Monitor) : (modMonitor s m f).cl = s.cl := rfl
@[simp] theorem modMonitor_map (s : State) (m : Nat) (f : Monitor → Monitor) : (modMonitor s m f).map = s.map := rfl
@[simp] theorem modMonitor_hub (s : State) (m : Nat) (f : Monitor → Monitor) : (modMonitor s m f).hub = s.hub := rfl
@[simp] theorem modMonitor_sect (s : State) (m : Nat) (f : Monitor → Monitor) : (modMonitor s m f).sect = s.sect := rfl
@[simp] theorem modMonitor_prog (s : State) (m : Nat) (f : Monitor → Monitor) : (modMonitor s m f).prog = s.prog := rfl
@[simp] theorem modMonitor_dram (s : State) (m : Nat) (f : Monitor → Monitor) : (modMonitor s m f).dram = s.dram := rfl
@[simp] theorem modMonitor_comp (s : State) (m : Nat) (f : Monitor → Monitor) : (modMonitor s m f).comp = s.comp := rfl
@[simp] theorem modMonitor_out (s : State) (m : Nat) (f : Monitor → Monitor) : (modMonitor s m f).out = s.out := rfl
@[simp] theorem modMonitor_win (s : State) (m : Nat) (f : Monitor → Monitor) : (modMonitor s m f).win = s.win := rfl
@[simp] theorem modMonitor_train (s : State) (m : Nat) (f : Monitor → Monitor) : (modMonitor s m f).train = { s.train with mons := spMod .reset s.train.mons m f } := rfl
@[simp] theorem modMonitor_flog (s : State) (m : Nat) (f : Monitor → Monitor) : (modMonitor s m f).flog = s.flog := rfl
@[simp] theorem modMonitor_mb (s : State) (m : Nat) (f : Monitor → Monitor) : (modMonitor s m f).mb = s.mb := rfl
@[simp] theorem modMonitor_link (s : State) (m : Nat) (f : Monitor → Monitor) : (modMonitor s m f).link = s.link := rfl
@[simp] theorem modMonitor_smb (s : State) (m : Nat) (f : Monitor → Monitor) : (modMonitor s m f).smb = s.smb := rfl
@[simp] theorem modMonitor_tap (s : State) (m : Nat) (f : Monitor → Monitor) : (modMonitor s m f).tap = s.tap := rfl
@[simp] theorem modMonitor_fab (s : State) (m : Nat) (f : Monitor → Monitor) : (modMonitor s m f).fab = s.fab := rfl
@[simp] theorem modMonitor_su (s : State) (m : Nat) (f : Monitor → Monitor) : (modMonitor s m f).su = s.su := rfl
@[simp] theorem modMonitor_ckpt (s : State) (m : Nat) (f : Monitor → Monitor) : (modMonitor s m f).ckpt = s.ckpt := rfl
@[simp] theorem modMonitor_store (s : State) (m : Nat) (f : Monitor → Monitor) : (modMonitor s m f).store = s.store := rfl
@[simp] theorem modMonitor_cv (s : State) (m : Nat) (f : Monitor → Monitor) : (modMonitor s m f).cv = s.cv := rfl
@[simp] theorem modMonitor_tt (s : State) (m : Nat) (f : Monitor → Monitor) : (modMonitor s m f).tt = s.tt := rfl
@[simp] theorem modMonitor_pw (s : State) (m : Nat) (f : Monitor → Monitor) : (modMonitor s m f).pw = s.pw := rfl
@[simp] theorem modMonitor_slp (s : State) (m : Nat) (f : Monitor → Monitor) : (modMonitor s m f).slp = s.slp := rfl
@[simp] theorem modMonitor_time (s : State) (m : Nat) (f : Monitor → Monitor) : (modMonitor s m f).time = s.time := rfl
@[simp] theorem modMonitor_flash (s : State) (m : Nat) (f : Monitor → Monitor) : (modMonitor s m f).flash = s.flash := rfl
@[simp] theorem modMonitor_boot (s : State) (m : Nat) (f : Monitor → Monitor) : (modMonitor s m f).boot = s.boot := rfl

@[simp] theorem modCv_pending (s : State) (u : Nat) (f : CvUnit → CvUnit) : (modCv s u f).pending = s.pending := rfl
@[simp] theorem modCv_free (s : State) (u : Nat) (f : CvUnit → CvUnit) : (modCv s u f).free = s.free := rfl
@[simp] theorem modCv_clk (s : State) (u : Nat) (f : CvUnit → CvUnit) : (modCv s u f).clk = s.clk := rfl
@[simp] theorem modCv_op (s : State) (u : Nat) (f : CvUnit → CvUnit) : (modCv s u f).op = s.op := rfl
@[simp] theorem modCv_sec (s : State) (u : Nat) (f : CvUnit → CvUnit) : (modCv s u f).sec = s.sec := rfl
@[simp] theorem modCv_dbg (s : State) (u : Nat) (f : CvUnit → CvUnit) : (modCv s u f).dbg = s.dbg := rfl
@[simp] theorem modCv_faultPin (s : State) (u : Nat) (f : CvUnit → CvUnit) : (modCv s u f).faultPin = s.faultPin := rfl
@[simp] theorem modCv_cl (s : State) (u : Nat) (f : CvUnit → CvUnit) : (modCv s u f).cl = s.cl := rfl
@[simp] theorem modCv_map (s : State) (u : Nat) (f : CvUnit → CvUnit) : (modCv s u f).map = s.map := rfl
@[simp] theorem modCv_hub (s : State) (u : Nat) (f : CvUnit → CvUnit) : (modCv s u f).hub = s.hub := rfl
@[simp] theorem modCv_sect (s : State) (u : Nat) (f : CvUnit → CvUnit) : (modCv s u f).sect = s.sect := rfl
@[simp] theorem modCv_prog (s : State) (u : Nat) (f : CvUnit → CvUnit) : (modCv s u f).prog = s.prog := rfl
@[simp] theorem modCv_dram (s : State) (u : Nat) (f : CvUnit → CvUnit) : (modCv s u f).dram = s.dram := rfl
@[simp] theorem modCv_comp (s : State) (u : Nat) (f : CvUnit → CvUnit) : (modCv s u f).comp = s.comp := rfl
@[simp] theorem modCv_out (s : State) (u : Nat) (f : CvUnit → CvUnit) : (modCv s u f).out = s.out := rfl
@[simp] theorem modCv_win (s : State) (u : Nat) (f : CvUnit → CvUnit) : (modCv s u f).win = s.win := rfl
@[simp] theorem modCv_train (s : State) (u : Nat) (f : CvUnit → CvUnit) : (modCv s u f).train = s.train := rfl
@[simp] theorem modCv_flog (s : State) (u : Nat) (f : CvUnit → CvUnit) : (modCv s u f).flog = s.flog := rfl
@[simp] theorem modCv_mb (s : State) (u : Nat) (f : CvUnit → CvUnit) : (modCv s u f).mb = s.mb := rfl
@[simp] theorem modCv_link (s : State) (u : Nat) (f : CvUnit → CvUnit) : (modCv s u f).link = s.link := rfl
@[simp] theorem modCv_smb (s : State) (u : Nat) (f : CvUnit → CvUnit) : (modCv s u f).smb = s.smb := rfl
@[simp] theorem modCv_tap (s : State) (u : Nat) (f : CvUnit → CvUnit) : (modCv s u f).tap = s.tap := rfl
@[simp] theorem modCv_fab (s : State) (u : Nat) (f : CvUnit → CvUnit) : (modCv s u f).fab = s.fab := rfl
@[simp] theorem modCv_su (s : State) (u : Nat) (f : CvUnit → CvUnit) : (modCv s u f).su = s.su := rfl
@[simp] theorem modCv_ckpt (s : State) (u : Nat) (f : CvUnit → CvUnit) : (modCv s u f).ckpt = s.ckpt := rfl
@[simp] theorem modCv_store (s : State) (u : Nat) (f : CvUnit → CvUnit) : (modCv s u f).store = s.store := rfl
@[simp] theorem modCv_cv (s : State) (u : Nat) (f : CvUnit → CvUnit) : (modCv s u f).cv = spMod .reset s.cv u f := rfl
@[simp] theorem modCv_tt (s : State) (u : Nat) (f : CvUnit → CvUnit) : (modCv s u f).tt = s.tt := rfl
@[simp] theorem modCv_pw (s : State) (u : Nat) (f : CvUnit → CvUnit) : (modCv s u f).pw = s.pw := rfl
@[simp] theorem modCv_slp (s : State) (u : Nat) (f : CvUnit → CvUnit) : (modCv s u f).slp = s.slp := rfl
@[simp] theorem modCv_time (s : State) (u : Nat) (f : CvUnit → CvUnit) : (modCv s u f).time = s.time := rfl
@[simp] theorem modCv_flash (s : State) (u : Nat) (f : CvUnit → CvUnit) : (modCv s u f).flash = s.flash := rfl
@[simp] theorem modCv_boot (s : State) (u : Nat) (f : CvUnit → CvUnit) : (modCv s u f).boot = s.boot := rfl

@[simp] theorem modCkpt_pending (s : State) (f : Ckpt → Ckpt) : (modCkpt s f).pending = s.pending := rfl
@[simp] theorem modCkpt_free (s : State) (f : Ckpt → Ckpt) : (modCkpt s f).free = s.free := rfl
@[simp] theorem modCkpt_clk (s : State) (f : Ckpt → Ckpt) : (modCkpt s f).clk = s.clk := rfl
@[simp] theorem modCkpt_op (s : State) (f : Ckpt → Ckpt) : (modCkpt s f).op = s.op := rfl
@[simp] theorem modCkpt_sec (s : State) (f : Ckpt → Ckpt) : (modCkpt s f).sec = s.sec := rfl
@[simp] theorem modCkpt_dbg (s : State) (f : Ckpt → Ckpt) : (modCkpt s f).dbg = s.dbg := rfl
@[simp] theorem modCkpt_faultPin (s : State) (f : Ckpt → Ckpt) : (modCkpt s f).faultPin = s.faultPin := rfl
@[simp] theorem modCkpt_cl (s : State) (f : Ckpt → Ckpt) : (modCkpt s f).cl = s.cl := rfl
@[simp] theorem modCkpt_map (s : State) (f : Ckpt → Ckpt) : (modCkpt s f).map = s.map := rfl
@[simp] theorem modCkpt_hub (s : State) (f : Ckpt → Ckpt) : (modCkpt s f).hub = s.hub := rfl
@[simp] theorem modCkpt_sect (s : State) (f : Ckpt → Ckpt) : (modCkpt s f).sect = s.sect := rfl
@[simp] theorem modCkpt_prog (s : State) (f : Ckpt → Ckpt) : (modCkpt s f).prog = s.prog := rfl
@[simp] theorem modCkpt_dram (s : State) (f : Ckpt → Ckpt) : (modCkpt s f).dram = s.dram := rfl
@[simp] theorem modCkpt_comp (s : State) (f : Ckpt → Ckpt) : (modCkpt s f).comp = s.comp := rfl
@[simp] theorem modCkpt_out (s : State) (f : Ckpt → Ckpt) : (modCkpt s f).out = s.out := rfl
@[simp] theorem modCkpt_win (s : State) (f : Ckpt → Ckpt) : (modCkpt s f).win = s.win := rfl
@[simp] theorem modCkpt_train (s : State) (f : Ckpt → Ckpt) : (modCkpt s f).train = s.train := rfl
@[simp] theorem modCkpt_flog (s : State) (f : Ckpt → Ckpt) : (modCkpt s f).flog = s.flog := rfl
@[simp] theorem modCkpt_mb (s : State) (f : Ckpt → Ckpt) : (modCkpt s f).mb = s.mb := rfl
@[simp] theorem modCkpt_link (s : State) (f : Ckpt → Ckpt) : (modCkpt s f).link = s.link := rfl
@[simp] theorem modCkpt_smb (s : State) (f : Ckpt → Ckpt) : (modCkpt s f).smb = s.smb := rfl
@[simp] theorem modCkpt_tap (s : State) (f : Ckpt → Ckpt) : (modCkpt s f).tap = s.tap := rfl
@[simp] theorem modCkpt_fab (s : State) (f : Ckpt → Ckpt) : (modCkpt s f).fab = s.fab := rfl
@[simp] theorem modCkpt_su (s : State) (f : Ckpt → Ckpt) : (modCkpt s f).su = s.su := rfl
@[simp] theorem modCkpt_ckpt (s : State) (f : Ckpt → Ckpt) : (modCkpt s f).ckpt = f s.ckpt := rfl
@[simp] theorem modCkpt_store (s : State) (f : Ckpt → Ckpt) : (modCkpt s f).store = s.store := rfl
@[simp] theorem modCkpt_cv (s : State) (f : Ckpt → Ckpt) : (modCkpt s f).cv = s.cv := rfl
@[simp] theorem modCkpt_tt (s : State) (f : Ckpt → Ckpt) : (modCkpt s f).tt = s.tt := rfl
@[simp] theorem modCkpt_pw (s : State) (f : Ckpt → Ckpt) : (modCkpt s f).pw = s.pw := rfl
@[simp] theorem modCkpt_slp (s : State) (f : Ckpt → Ckpt) : (modCkpt s f).slp = s.slp := rfl
@[simp] theorem modCkpt_time (s : State) (f : Ckpt → Ckpt) : (modCkpt s f).time = s.time := rfl
@[simp] theorem modCkpt_flash (s : State) (f : Ckpt → Ckpt) : (modCkpt s f).flash = s.flash := rfl
@[simp] theorem modCkpt_boot (s : State) (f : Ckpt → Ckpt) : (modCkpt s f).boot = s.boot := rfl

@[simp] theorem modPort_pending (s : State) (p : Nat) (f : Port → Port) : (modPort s p f).pending = s.pending := rfl
@[simp] theorem modPort_free (s : State) (p : Nat) (f : Port → Port) : (modPort s p f).free = s.free := rfl
@[simp] theorem modPort_clk (s : State) (p : Nat) (f : Port → Port) : (modPort s p f).clk = s.clk := rfl
@[simp] theorem modPort_op (s : State) (p : Nat) (f : Port → Port) : (modPort s p f).op = s.op := rfl
@[simp] theorem modPort_sec (s : State) (p : Nat) (f : Port → Port) : (modPort s p f).sec = s.sec := rfl
@[simp] theorem modPort_dbg (s : State) (p : Nat) (f : Port → Port) : (modPort s p f).dbg = s.dbg := rfl
@[simp] theorem modPort_faultPin (s : State) (p : Nat) (f : Port → Port) : (modPort s p f).faultPin = s.faultPin := rfl
@[simp] theorem modPort_cl (s : State) (p : Nat) (f : Port → Port) : (modPort s p f).cl = s.cl := rfl
@[simp] theorem modPort_map (s : State) (p : Nat) (f : Port → Port) : (modPort s p f).map = s.map := rfl
@[simp] theorem modPort_hub (s : State) (p : Nat) (f : Port → Port) : (modPort s p f).hub = s.hub := rfl
@[simp] theorem modPort_sect (s : State) (p : Nat) (f : Port → Port) : (modPort s p f).sect = s.sect := rfl
@[simp] theorem modPort_prog (s : State) (p : Nat) (f : Port → Port) : (modPort s p f).prog = s.prog := rfl
@[simp] theorem modPort_dram (s : State) (p : Nat) (f : Port → Port) : (modPort s p f).dram = s.dram := rfl
@[simp] theorem modPort_comp (s : State) (p : Nat) (f : Port → Port) : (modPort s p f).comp = s.comp := rfl
@[simp] theorem modPort_out (s : State) (p : Nat) (f : Port → Port) : (modPort s p f).out = s.out := rfl
@[simp] theorem modPort_win (s : State) (p : Nat) (f : Port → Port) : (modPort s p f).win = s.win := rfl
@[simp] theorem modPort_train (s : State) (p : Nat) (f : Port → Port) : (modPort s p f).train = s.train := rfl
@[simp] theorem modPort_flog (s : State) (p : Nat) (f : Port → Port) : (modPort s p f).flog = s.flog := rfl
@[simp] theorem modPort_mb (s : State) (p : Nat) (f : Port → Port) : (modPort s p f).mb = s.mb := rfl
@[simp] theorem modPort_link (s : State) (p : Nat) (f : Port → Port) : (modPort s p f).link = s.link := rfl
@[simp] theorem modPort_smb (s : State) (p : Nat) (f : Port → Port) : (modPort s p f).smb = s.smb := rfl
@[simp] theorem modPort_tap (s : State) (p : Nat) (f : Port → Port) : (modPort s p f).tap = s.tap := rfl
@[simp] theorem modPort_fab (s : State) (p : Nat) (f : Port → Port) : (modPort s p f).fab = { s.fab with ports := spMod .reset s.fab.ports p f } := rfl
@[simp] theorem modPort_su (s : State) (p : Nat) (f : Port → Port) : (modPort s p f).su = s.su := rfl
@[simp] theorem modPort_ckpt (s : State) (p : Nat) (f : Port → Port) : (modPort s p f).ckpt = s.ckpt := rfl
@[simp] theorem modPort_store (s : State) (p : Nat) (f : Port → Port) : (modPort s p f).store = s.store := rfl
@[simp] theorem modPort_cv (s : State) (p : Nat) (f : Port → Port) : (modPort s p f).cv = s.cv := rfl
@[simp] theorem modPort_tt (s : State) (p : Nat) (f : Port → Port) : (modPort s p f).tt = s.tt := rfl
@[simp] theorem modPort_pw (s : State) (p : Nat) (f : Port → Port) : (modPort s p f).pw = s.pw := rfl
@[simp] theorem modPort_slp (s : State) (p : Nat) (f : Port → Port) : (modPort s p f).slp = s.slp := rfl
@[simp] theorem modPort_time (s : State) (p : Nat) (f : Port → Port) : (modPort s p f).time = s.time := rfl
@[simp] theorem modPort_flash (s : State) (p : Nat) (f : Port → Port) : (modPort s p f).flash = s.flash := rfl
@[simp] theorem modPort_boot (s : State) (p : Nat) (f : Port → Port) : (modPort s p f).boot = s.boot := rfl

@[simp] theorem modJob_pending (s : State) (j : Nat) (f : Job → Job) : (modJob s j f).pending = s.pending := rfl
@[simp] theorem modJob_free (s : State) (j : Nat) (f : Job → Job) : (modJob s j f).free = s.free := rfl
@[simp] theorem modJob_clk (s : State) (j : Nat) (f : Job → Job) : (modJob s j f).clk = s.clk := rfl
@[simp] theorem modJob_op (s : State) (j : Nat) (f : Job → Job) : (modJob s j f).op = s.op := rfl
@[simp] theorem modJob_sec (s : State) (j : Nat) (f : Job → Job) : (modJob s j f).sec = s.sec := rfl
@[simp] theorem modJob_dbg (s : State) (j : Nat) (f : Job → Job) : (modJob s j f).dbg = s.dbg := rfl
@[simp] theorem modJob_faultPin (s : State) (j : Nat) (f : Job → Job) : (modJob s j f).faultPin = s.faultPin := rfl
@[simp] theorem modJob_cl (s : State) (j : Nat) (f : Job → Job) : (modJob s j f).cl = s.cl := rfl
@[simp] theorem modJob_map (s : State) (j : Nat) (f : Job → Job) : (modJob s j f).map = s.map := rfl
@[simp] theorem modJob_hub (s : State) (j : Nat) (f : Job → Job) : (modJob s j f).hub = s.hub := rfl
@[simp] theorem modJob_sect (s : State) (j : Nat) (f : Job → Job) : (modJob s j f).sect = s.sect := rfl
@[simp] theorem modJob_prog (s : State) (j : Nat) (f : Job → Job) : (modJob s j f).prog = s.prog := rfl
@[simp] theorem modJob_dram (s : State) (j : Nat) (f : Job → Job) : (modJob s j f).dram = s.dram := rfl
@[simp] theorem modJob_comp (s : State) (j : Nat) (f : Job → Job) : (modJob s j f).comp = s.comp := rfl
@[simp] theorem modJob_out (s : State) (j : Nat) (f : Job → Job) : (modJob s j f).out = s.out := rfl
@[simp] theorem modJob_win (s : State) (j : Nat) (f : Job → Job) : (modJob s j f).win = s.win := rfl
@[simp] theorem modJob_train (s : State) (j : Nat) (f : Job → Job) : (modJob s j f).train = s.train := rfl
@[simp] theorem modJob_flog (s : State) (j : Nat) (f : Job → Job) : (modJob s j f).flog = s.flog := rfl
@[simp] theorem modJob_mb (s : State) (j : Nat) (f : Job → Job) : (modJob s j f).mb = s.mb := rfl
@[simp] theorem modJob_link (s : State) (j : Nat) (f : Job → Job) : (modJob s j f).link = s.link := rfl
@[simp] theorem modJob_smb (s : State) (j : Nat) (f : Job → Job) : (modJob s j f).smb = s.smb := rfl
@[simp] theorem modJob_tap (s : State) (j : Nat) (f : Job → Job) : (modJob s j f).tap = s.tap := rfl
@[simp] theorem modJob_fab (s : State) (j : Nat) (f : Job → Job) : (modJob s j f).fab = { s.fab with jobs := spMod .reset s.fab.jobs j f } := rfl
@[simp] theorem modJob_su (s : State) (j : Nat) (f : Job → Job) : (modJob s j f).su = s.su := rfl
@[simp] theorem modJob_ckpt (s : State) (j : Nat) (f : Job → Job) : (modJob s j f).ckpt = s.ckpt := rfl
@[simp] theorem modJob_store (s : State) (j : Nat) (f : Job → Job) : (modJob s j f).store = s.store := rfl
@[simp] theorem modJob_cv (s : State) (j : Nat) (f : Job → Job) : (modJob s j f).cv = s.cv := rfl
@[simp] theorem modJob_tt (s : State) (j : Nat) (f : Job → Job) : (modJob s j f).tt = s.tt := rfl
@[simp] theorem modJob_pw (s : State) (j : Nat) (f : Job → Job) : (modJob s j f).pw = s.pw := rfl
@[simp] theorem modJob_slp (s : State) (j : Nat) (f : Job → Job) : (modJob s j f).slp = s.slp := rfl
@[simp] theorem modJob_time (s : State) (j : Nat) (f : Job → Job) : (modJob s j f).time = s.time := rfl
@[simp] theorem modJob_flash (s : State) (j : Nat) (f : Job → Job) : (modJob s j f).flash = s.flash := rfl
@[simp] theorem modJob_boot (s : State) (j : Nat) (f : Job → Job) : (modJob s j f).boot = s.boot := rfl

@[simp] theorem modMb_pending (s : State) (f : Mailbox → Mailbox) : (modMb s f).pending = s.pending := rfl
@[simp] theorem modMb_free (s : State) (f : Mailbox → Mailbox) : (modMb s f).free = s.free := rfl
@[simp] theorem modMb_clk (s : State) (f : Mailbox → Mailbox) : (modMb s f).clk = s.clk := rfl
@[simp] theorem modMb_op (s : State) (f : Mailbox → Mailbox) : (modMb s f).op = s.op := rfl
@[simp] theorem modMb_sec (s : State) (f : Mailbox → Mailbox) : (modMb s f).sec = s.sec := rfl
@[simp] theorem modMb_dbg (s : State) (f : Mailbox → Mailbox) : (modMb s f).dbg = s.dbg := rfl
@[simp] theorem modMb_faultPin (s : State) (f : Mailbox → Mailbox) : (modMb s f).faultPin = s.faultPin := rfl
@[simp] theorem modMb_cl (s : State) (f : Mailbox → Mailbox) : (modMb s f).cl = s.cl := rfl
@[simp] theorem modMb_map (s : State) (f : Mailbox → Mailbox) : (modMb s f).map = s.map := rfl
@[simp] theorem modMb_hub (s : State) (f : Mailbox → Mailbox) : (modMb s f).hub = s.hub := rfl
@[simp] theorem modMb_sect (s : State) (f : Mailbox → Mailbox) : (modMb s f).sect = s.sect := rfl
@[simp] theorem modMb_prog (s : State) (f : Mailbox → Mailbox) : (modMb s f).prog = s.prog := rfl
@[simp] theorem modMb_dram (s : State) (f : Mailbox → Mailbox) : (modMb s f).dram = s.dram := rfl
@[simp] theorem modMb_comp (s : State) (f : Mailbox → Mailbox) : (modMb s f).comp = s.comp := rfl
@[simp] theorem modMb_out (s : State) (f : Mailbox → Mailbox) : (modMb s f).out = s.out := rfl
@[simp] theorem modMb_win (s : State) (f : Mailbox → Mailbox) : (modMb s f).win = s.win := rfl
@[simp] theorem modMb_train (s : State) (f : Mailbox → Mailbox) : (modMb s f).train = s.train := rfl
@[simp] theorem modMb_flog (s : State) (f : Mailbox → Mailbox) : (modMb s f).flog = s.flog := rfl
@[simp] theorem modMb_mb (s : State) (f : Mailbox → Mailbox) : (modMb s f).mb = f s.mb := rfl
@[simp] theorem modMb_link (s : State) (f : Mailbox → Mailbox) : (modMb s f).link = s.link := rfl
@[simp] theorem modMb_smb (s : State) (f : Mailbox → Mailbox) : (modMb s f).smb = s.smb := rfl
@[simp] theorem modMb_tap (s : State) (f : Mailbox → Mailbox) : (modMb s f).tap = s.tap := rfl
@[simp] theorem modMb_fab (s : State) (f : Mailbox → Mailbox) : (modMb s f).fab = s.fab := rfl
@[simp] theorem modMb_su (s : State) (f : Mailbox → Mailbox) : (modMb s f).su = s.su := rfl
@[simp] theorem modMb_ckpt (s : State) (f : Mailbox → Mailbox) : (modMb s f).ckpt = s.ckpt := rfl
@[simp] theorem modMb_store (s : State) (f : Mailbox → Mailbox) : (modMb s f).store = s.store := rfl
@[simp] theorem modMb_cv (s : State) (f : Mailbox → Mailbox) : (modMb s f).cv = s.cv := rfl
@[simp] theorem modMb_tt (s : State) (f : Mailbox → Mailbox) : (modMb s f).tt = s.tt := rfl
@[simp] theorem modMb_pw (s : State) (f : Mailbox → Mailbox) : (modMb s f).pw = s.pw := rfl
@[simp] theorem modMb_slp (s : State) (f : Mailbox → Mailbox) : (modMb s f).slp = s.slp := rfl
@[simp] theorem modMb_time (s : State) (f : Mailbox → Mailbox) : (modMb s f).time = s.time := rfl
@[simp] theorem modMb_flash (s : State) (f : Mailbox → Mailbox) : (modMb s f).flash = s.flash := rfl
@[simp] theorem modMb_boot (s : State) (f : Mailbox → Mailbox) : (modMb s f).boot = s.boot := rfl

@[simp] theorem modPower_pending (s : State) (f : Power → Power) : (modPower s f).pending = s.pending := rfl
@[simp] theorem modPower_free (s : State) (f : Power → Power) : (modPower s f).free = s.free := rfl
@[simp] theorem modPower_clk (s : State) (f : Power → Power) : (modPower s f).clk = s.clk := rfl
@[simp] theorem modPower_op (s : State) (f : Power → Power) : (modPower s f).op = s.op := rfl
@[simp] theorem modPower_sec (s : State) (f : Power → Power) : (modPower s f).sec = s.sec := rfl
@[simp] theorem modPower_dbg (s : State) (f : Power → Power) : (modPower s f).dbg = s.dbg := rfl
@[simp] theorem modPower_faultPin (s : State) (f : Power → Power) : (modPower s f).faultPin = s.faultPin := rfl
@[simp] theorem modPower_cl (s : State) (f : Power → Power) : (modPower s f).cl = s.cl := rfl
@[simp] theorem modPower_map (s : State) (f : Power → Power) : (modPower s f).map = s.map := rfl
@[simp] theorem modPower_hub (s : State) (f : Power → Power) : (modPower s f).hub = s.hub := rfl
@[simp] theorem modPower_sect (s : State) (f : Power → Power) : (modPower s f).sect = s.sect := rfl
@[simp] theorem modPower_prog (s : State) (f : Power → Power) : (modPower s f).prog = s.prog := rfl
@[simp] theorem modPower_dram (s : State) (f : Power → Power) : (modPower s f).dram = s.dram := rfl
@[simp] theorem modPower_comp (s : State) (f : Power → Power) : (modPower s f).comp = s.comp := rfl
@[simp] theorem modPower_out (s : State) (f : Power → Power) : (modPower s f).out = s.out := rfl
@[simp] theorem modPower_win (s : State) (f : Power → Power) : (modPower s f).win = s.win := rfl
@[simp] theorem modPower_train (s : State) (f : Power → Power) : (modPower s f).train = s.train := rfl
@[simp] theorem modPower_flog (s : State) (f : Power → Power) : (modPower s f).flog = s.flog := rfl
@[simp] theorem modPower_mb (s : State) (f : Power → Power) : (modPower s f).mb = s.mb := rfl
@[simp] theorem modPower_link (s : State) (f : Power → Power) : (modPower s f).link = s.link := rfl
@[simp] theorem modPower_smb (s : State) (f : Power → Power) : (modPower s f).smb = s.smb := rfl
@[simp] theorem modPower_tap (s : State) (f : Power → Power) : (modPower s f).tap = s.tap := rfl
@[simp] theorem modPower_fab (s : State) (f : Power → Power) : (modPower s f).fab = s.fab := rfl
@[simp] theorem modPower_su (s : State) (f : Power → Power) : (modPower s f).su = s.su := rfl
@[simp] theorem modPower_ckpt (s : State) (f : Power → Power) : (modPower s f).ckpt = s.ckpt := rfl
@[simp] theorem modPower_store (s : State) (f : Power → Power) : (modPower s f).store = s.store := rfl
@[simp] theorem modPower_cv (s : State) (f : Power → Power) : (modPower s f).cv = s.cv := rfl
@[simp] theorem modPower_tt (s : State) (f : Power → Power) : (modPower s f).tt = s.tt := rfl
@[simp] theorem modPower_pw (s : State) (f : Power → Power) : (modPower s f).pw = f s.pw := rfl
@[simp] theorem modPower_slp (s : State) (f : Power → Power) : (modPower s f).slp = s.slp := rfl
@[simp] theorem modPower_time (s : State) (f : Power → Power) : (modPower s f).time = s.time := rfl
@[simp] theorem modPower_flash (s : State) (f : Power → Power) : (modPower s f).flash = s.flash := rfl
@[simp] theorem modPower_boot (s : State) (f : Power → Power) : (modPower s f).boot = s.boot := rfl

@[simp] theorem modSu_pending (s : State) (f : Security → Security) : (modSu s f).pending = s.pending := rfl
@[simp] theorem modSu_free (s : State) (f : Security → Security) : (modSu s f).free = s.free := rfl
@[simp] theorem modSu_clk (s : State) (f : Security → Security) : (modSu s f).clk = s.clk := rfl
@[simp] theorem modSu_op (s : State) (f : Security → Security) : (modSu s f).op = s.op := rfl
@[simp] theorem modSu_sec (s : State) (f : Security → Security) : (modSu s f).sec = s.sec := rfl
@[simp] theorem modSu_dbg (s : State) (f : Security → Security) : (modSu s f).dbg = s.dbg := rfl
@[simp] theorem modSu_faultPin (s : State) (f : Security → Security) : (modSu s f).faultPin = s.faultPin := rfl
@[simp] theorem modSu_cl (s : State) (f : Security → Security) : (modSu s f).cl = s.cl := rfl
@[simp] theorem modSu_map (s : State) (f : Security → Security) : (modSu s f).map = s.map := rfl
@[simp] theorem modSu_hub (s : State) (f : Security → Security) : (modSu s f).hub = s.hub := rfl
@[simp] theorem modSu_sect (s : State) (f : Security → Security) : (modSu s f).sect = s.sect := rfl
@[simp] theorem modSu_prog (s : State) (f : Security → Security) : (modSu s f).prog = s.prog := rfl
@[simp] theorem modSu_dram (s : State) (f : Security → Security) : (modSu s f).dram = s.dram := rfl
@[simp] theorem modSu_comp (s : State) (f : Security → Security) : (modSu s f).comp = s.comp := rfl
@[simp] theorem modSu_out (s : State) (f : Security → Security) : (modSu s f).out = s.out := rfl
@[simp] theorem modSu_win (s : State) (f : Security → Security) : (modSu s f).win = s.win := rfl
@[simp] theorem modSu_train (s : State) (f : Security → Security) : (modSu s f).train = s.train := rfl
@[simp] theorem modSu_flog (s : State) (f : Security → Security) : (modSu s f).flog = s.flog := rfl
@[simp] theorem modSu_mb (s : State) (f : Security → Security) : (modSu s f).mb = s.mb := rfl
@[simp] theorem modSu_link (s : State) (f : Security → Security) : (modSu s f).link = s.link := rfl
@[simp] theorem modSu_smb (s : State) (f : Security → Security) : (modSu s f).smb = s.smb := rfl
@[simp] theorem modSu_tap (s : State) (f : Security → Security) : (modSu s f).tap = s.tap := rfl
@[simp] theorem modSu_fab (s : State) (f : Security → Security) : (modSu s f).fab = s.fab := rfl
@[simp] theorem modSu_su (s : State) (f : Security → Security) : (modSu s f).su = f s.su := rfl
@[simp] theorem modSu_ckpt (s : State) (f : Security → Security) : (modSu s f).ckpt = s.ckpt := rfl
@[simp] theorem modSu_store (s : State) (f : Security → Security) : (modSu s f).store = s.store := rfl
@[simp] theorem modSu_cv (s : State) (f : Security → Security) : (modSu s f).cv = s.cv := rfl
@[simp] theorem modSu_tt (s : State) (f : Security → Security) : (modSu s f).tt = s.tt := rfl
@[simp] theorem modSu_pw (s : State) (f : Security → Security) : (modSu s f).pw = s.pw := rfl
@[simp] theorem modSu_slp (s : State) (f : Security → Security) : (modSu s f).slp = s.slp := rfl
@[simp] theorem modSu_time (s : State) (f : Security → Security) : (modSu s f).time = s.time := rfl
@[simp] theorem modSu_flash (s : State) (f : Security → Security) : (modSu s f).flash = s.flash := rfl
@[simp] theorem modSu_boot (s : State) (f : Security → Security) : (modSu s f).boot = s.boot := rfl

@[simp] theorem modBoot_pending (s : State) (f : Boot → Boot) : (modBoot s f).pending = s.pending := rfl
@[simp] theorem modBoot_free (s : State) (f : Boot → Boot) : (modBoot s f).free = s.free := rfl
@[simp] theorem modBoot_clk (s : State) (f : Boot → Boot) : (modBoot s f).clk = s.clk := rfl
@[simp] theorem modBoot_op (s : State) (f : Boot → Boot) : (modBoot s f).op = s.op := rfl
@[simp] theorem modBoot_sec (s : State) (f : Boot → Boot) : (modBoot s f).sec = s.sec := rfl
@[simp] theorem modBoot_dbg (s : State) (f : Boot → Boot) : (modBoot s f).dbg = s.dbg := rfl
@[simp] theorem modBoot_faultPin (s : State) (f : Boot → Boot) : (modBoot s f).faultPin = s.faultPin := rfl
@[simp] theorem modBoot_cl (s : State) (f : Boot → Boot) : (modBoot s f).cl = s.cl := rfl
@[simp] theorem modBoot_map (s : State) (f : Boot → Boot) : (modBoot s f).map = s.map := rfl
@[simp] theorem modBoot_hub (s : State) (f : Boot → Boot) : (modBoot s f).hub = s.hub := rfl
@[simp] theorem modBoot_sect (s : State) (f : Boot → Boot) : (modBoot s f).sect = s.sect := rfl
@[simp] theorem modBoot_prog (s : State) (f : Boot → Boot) : (modBoot s f).prog = s.prog := rfl
@[simp] theorem modBoot_dram (s : State) (f : Boot → Boot) : (modBoot s f).dram = s.dram := rfl
@[simp] theorem modBoot_comp (s : State) (f : Boot → Boot) : (modBoot s f).comp = s.comp := rfl
@[simp] theorem modBoot_out (s : State) (f : Boot → Boot) : (modBoot s f).out = s.out := rfl
@[simp] theorem modBoot_win (s : State) (f : Boot → Boot) : (modBoot s f).win = s.win := rfl
@[simp] theorem modBoot_train (s : State) (f : Boot → Boot) : (modBoot s f).train = s.train := rfl
@[simp] theorem modBoot_flog (s : State) (f : Boot → Boot) : (modBoot s f).flog = s.flog := rfl
@[simp] theorem modBoot_mb (s : State) (f : Boot → Boot) : (modBoot s f).mb = s.mb := rfl
@[simp] theorem modBoot_link (s : State) (f : Boot → Boot) : (modBoot s f).link = s.link := rfl
@[simp] theorem modBoot_smb (s : State) (f : Boot → Boot) : (modBoot s f).smb = s.smb := rfl
@[simp] theorem modBoot_tap (s : State) (f : Boot → Boot) : (modBoot s f).tap = s.tap := rfl
@[simp] theorem modBoot_fab (s : State) (f : Boot → Boot) : (modBoot s f).fab = s.fab := rfl
@[simp] theorem modBoot_su (s : State) (f : Boot → Boot) : (modBoot s f).su = s.su := rfl
@[simp] theorem modBoot_ckpt (s : State) (f : Boot → Boot) : (modBoot s f).ckpt = s.ckpt := rfl
@[simp] theorem modBoot_store (s : State) (f : Boot → Boot) : (modBoot s f).store = s.store := rfl
@[simp] theorem modBoot_cv (s : State) (f : Boot → Boot) : (modBoot s f).cv = s.cv := rfl
@[simp] theorem modBoot_tt (s : State) (f : Boot → Boot) : (modBoot s f).tt = s.tt := rfl
@[simp] theorem modBoot_pw (s : State) (f : Boot → Boot) : (modBoot s f).pw = s.pw := rfl
@[simp] theorem modBoot_slp (s : State) (f : Boot → Boot) : (modBoot s f).slp = s.slp := rfl
@[simp] theorem modBoot_time (s : State) (f : Boot → Boot) : (modBoot s f).time = s.time := rfl
@[simp] theorem modBoot_flash (s : State) (f : Boot → Boot) : (modBoot s f).flash = s.flash := rfl
@[simp] theorem modBoot_boot (s : State) (f : Boot → Boot) : (modBoot s f).boot = f s.boot := rfl

@[simp] theorem modStore_pending (s : State) (f : Store → Store) : (modStore s f).pending = s.pending := rfl
@[simp] theorem modStore_free (s : State) (f : Store → Store) : (modStore s f).free = s.free := rfl
@[simp] theorem modStore_clk (s : State) (f : Store → Store) : (modStore s f).clk = s.clk := rfl
@[simp] theorem modStore_op (s : State) (f : Store → Store) : (modStore s f).op = s.op := rfl
@[simp] theorem modStore_sec (s : State) (f : Store → Store) : (modStore s f).sec = s.sec := rfl
@[simp] theorem modStore_dbg (s : State) (f : Store → Store) : (modStore s f).dbg = s.dbg := rfl
@[simp] theorem modStore_faultPin (s : State) (f : Store → Store) : (modStore s f).faultPin = s.faultPin := rfl
@[simp] theorem modStore_cl (s : State) (f : Store → Store) : (modStore s f).cl = s.cl := rfl
@[simp] theorem modStore_map (s : State) (f : Store → Store) : (modStore s f).map = s.map := rfl
@[simp] theorem modStore_hub (s : State) (f : Store → Store) : (modStore s f).hub = s.hub := rfl
@[simp] theorem modStore_sect (s : State) (f : Store → Store) : (modStore s f).sect = s.sect := rfl
@[simp] theorem modStore_prog (s : State) (f : Store → Store) : (modStore s f).prog = s.prog := rfl
@[simp] theorem modStore_dram (s : State) (f : Store → Store) : (modStore s f).dram = s.dram := rfl
@[simp] theorem modStore_comp (s : State) (f : Store → Store) : (modStore s f).comp = s.comp := rfl
@[simp] theorem modStore_out (s : State) (f : Store → Store) : (modStore s f).out = s.out := rfl
@[simp] theorem modStore_win (s : State) (f : Store → Store) : (modStore s f).win = s.win := rfl
@[simp] theorem modStore_train (s : State) (f : Store → Store) : (modStore s f).train = s.train := rfl
@[simp] theorem modStore_flog (s : State) (f : Store → Store) : (modStore s f).flog = s.flog := rfl
@[simp] theorem modStore_mb (s : State) (f : Store → Store) : (modStore s f).mb = s.mb := rfl
@[simp] theorem modStore_link (s : State) (f : Store → Store) : (modStore s f).link = s.link := rfl
@[simp] theorem modStore_smb (s : State) (f : Store → Store) : (modStore s f).smb = s.smb := rfl
@[simp] theorem modStore_tap (s : State) (f : Store → Store) : (modStore s f).tap = s.tap := rfl
@[simp] theorem modStore_fab (s : State) (f : Store → Store) : (modStore s f).fab = s.fab := rfl
@[simp] theorem modStore_su (s : State) (f : Store → Store) : (modStore s f).su = s.su := rfl
@[simp] theorem modStore_ckpt (s : State) (f : Store → Store) : (modStore s f).ckpt = s.ckpt := rfl
@[simp] theorem modStore_store (s : State) (f : Store → Store) : (modStore s f).store = f s.store := rfl
@[simp] theorem modStore_cv (s : State) (f : Store → Store) : (modStore s f).cv = s.cv := rfl
@[simp] theorem modStore_tt (s : State) (f : Store → Store) : (modStore s f).tt = s.tt := rfl
@[simp] theorem modStore_pw (s : State) (f : Store → Store) : (modStore s f).pw = s.pw := rfl
@[simp] theorem modStore_slp (s : State) (f : Store → Store) : (modStore s f).slp = s.slp := rfl
@[simp] theorem modStore_time (s : State) (f : Store → Store) : (modStore s f).time = s.time := rfl
@[simp] theorem modStore_flash (s : State) (f : Store → Store) : (modStore s f).flash = s.flash := rfl
@[simp] theorem modStore_boot (s : State) (f : Store → Store) : (modStore s f).boot = s.boot := rfl

@[simp] theorem modTap_pending (s : State) (f : Tap → Tap) : (modTap s f).pending = s.pending := rfl
@[simp] theorem modTap_free (s : State) (f : Tap → Tap) : (modTap s f).free = s.free := rfl
@[simp] theorem modTap_clk (s : State) (f : Tap → Tap) : (modTap s f).clk = s.clk := rfl
@[simp] theorem modTap_op (s : State) (f : Tap → Tap) : (modTap s f).op = s.op := rfl
@[simp] theorem modTap_sec (s : State) (f : Tap → Tap) : (modTap s f).sec = s.sec := rfl
@[simp] theorem modTap_dbg (s : State) (f : Tap → Tap) : (modTap s f).dbg = s.dbg := rfl
@[simp] theorem modTap_faultPin (s : State) (f : Tap → Tap) : (modTap s f).faultPin = s.faultPin := rfl
@[simp] theorem modTap_cl (s : State) (f : Tap → Tap) : (modTap s f).cl = s.cl := rfl
@[simp] theorem modTap_map (s : State) (f : Tap → Tap) : (modTap s f).map = s.map := rfl
@[simp] theorem modTap_hub (s : State) (f : Tap → Tap) : (modTap s f).hub = s.hub := rfl
@[simp] theorem modTap_sect (s : State) (f : Tap → Tap) : (modTap s f).sect = s.sect := rfl
@[simp] theorem modTap_prog (s : State) (f : Tap → Tap) : (modTap s f).prog = s.prog := rfl
@[simp] theorem modTap_dram (s : State) (f : Tap → Tap) : (modTap s f).dram = s.dram := rfl
@[simp] theorem modTap_comp (s : State) (f : Tap → Tap) : (modTap s f).comp = s.comp := rfl
@[simp] theorem modTap_out (s : State) (f : Tap → Tap) : (modTap s f).out = s.out := rfl
@[simp] theorem modTap_win (s : State) (f : Tap → Tap) : (modTap s f).win = s.win := rfl
@[simp] theorem modTap_train (s : State) (f : Tap → Tap) : (modTap s f).train = s.train := rfl
@[simp] theorem modTap_flog (s : State) (f : Tap → Tap) : (modTap s f).flog = s.flog := rfl
@[simp] theorem modTap_mb (s : State) (f : Tap → Tap) : (modTap s f).mb = s.mb := rfl
@[simp] theorem modTap_link (s : State) (f : Tap → Tap) : (modTap s f).link = s.link := rfl
@[simp] theorem modTap_smb (s : State) (f : Tap → Tap) : (modTap s f).smb = s.smb := rfl
@[simp] theorem modTap_tap (s : State) (f : Tap → Tap) : (modTap s f).tap = f s.tap := rfl
@[simp] theorem modTap_fab (s : State) (f : Tap → Tap) : (modTap s f).fab = s.fab := rfl
@[simp] theorem modTap_su (s : State) (f : Tap → Tap) : (modTap s f).su = s.su := rfl
@[simp] theorem modTap_ckpt (s : State) (f : Tap → Tap) : (modTap s f).ckpt = s.ckpt := rfl
@[simp] theorem modTap_store (s : State) (f : Tap → Tap) : (modTap s f).store = s.store := rfl
@[simp] theorem modTap_cv (s : State) (f : Tap → Tap) : (modTap s f).cv = s.cv := rfl
@[simp] theorem modTap_tt (s : State) (f : Tap → Tap) : (modTap s f).tt = s.tt := rfl
@[simp] theorem modTap_pw (s : State) (f : Tap → Tap) : (modTap s f).pw = s.pw := rfl
@[simp] theorem modTap_slp (s : State) (f : Tap → Tap) : (modTap s f).slp = s.slp := rfl
@[simp] theorem modTap_time (s : State) (f : Tap → Tap) : (modTap s f).time = s.time := rfl
@[simp] theorem modTap_flash (s : State) (f : Tap → Tap) : (modTap s f).flash = s.flash := rfl
@[simp] theorem modTap_boot (s : State) (f : Tap → Tap) : (modTap s f).boot = s.boot := rfl

@[simp] theorem modSmb_pending (s : State) (f : Smb → Smb) : (modSmb s f).pending = s.pending := rfl
@[simp] theorem modSmb_free (s : State) (f : Smb → Smb) : (modSmb s f).free = s.free := rfl
@[simp] theorem modSmb_clk (s : State) (f : Smb → Smb) : (modSmb s f).clk = s.clk := rfl
@[simp] theorem modSmb_op (s : State) (f : Smb → Smb) : (modSmb s f).op = s.op := rfl
@[simp] theorem modSmb_sec (s : State) (f : Smb → Smb) : (modSmb s f).sec = s.sec := rfl
@[simp] theorem modSmb_dbg (s : State) (f : Smb → Smb) : (modSmb s f).dbg = s.dbg := rfl
@[simp] theorem modSmb_faultPin (s : State) (f : Smb → Smb) : (modSmb s f).faultPin = s.faultPin := rfl
@[simp] theorem modSmb_cl (s : State) (f : Smb → Smb) : (modSmb s f).cl = s.cl := rfl
@[simp] theorem modSmb_map (s : State) (f : Smb → Smb) : (modSmb s f).map = s.map := rfl
@[simp] theorem modSmb_hub (s : State) (f : Smb → Smb) : (modSmb s f).hub = s.hub := rfl
@[simp] theorem modSmb_sect (s : State) (f : Smb → Smb) : (modSmb s f).sect = s.sect := rfl
@[simp] theorem modSmb_prog (s : State) (f : Smb → Smb) : (modSmb s f).prog = s.prog := rfl
@[simp] theorem modSmb_dram (s : State) (f : Smb → Smb) : (modSmb s f).dram = s.dram := rfl
@[simp] theorem modSmb_comp (s : State) (f : Smb → Smb) : (modSmb s f).comp = s.comp := rfl
@[simp] theorem modSmb_out (s : State) (f : Smb → Smb) : (modSmb s f).out = s.out := rfl
@[simp] theorem modSmb_win (s : State) (f : Smb → Smb) : (modSmb s f).win = s.win := rfl
@[simp] theorem modSmb_train (s : State) (f : Smb → Smb) : (modSmb s f).train = s.train := rfl
@[simp] theorem modSmb_flog (s : State) (f : Smb → Smb) : (modSmb s f).flog = s.flog := rfl
@[simp] theorem modSmb_mb (s : State) (f : Smb → Smb) : (modSmb s f).mb = s.mb := rfl
@[simp] theorem modSmb_link (s : State) (f : Smb → Smb) : (modSmb s f).link = s.link := rfl
@[simp] theorem modSmb_smb (s : State) (f : Smb → Smb) : (modSmb s f).smb = f s.smb := rfl
@[simp] theorem modSmb_tap (s : State) (f : Smb → Smb) : (modSmb s f).tap = s.tap := rfl
@[simp] theorem modSmb_fab (s : State) (f : Smb → Smb) : (modSmb s f).fab = s.fab := rfl
@[simp] theorem modSmb_su (s : State) (f : Smb → Smb) : (modSmb s f).su = s.su := rfl
@[simp] theorem modSmb_ckpt (s : State) (f : Smb → Smb) : (modSmb s f).ckpt = s.ckpt := rfl
@[simp] theorem modSmb_store (s : State) (f : Smb → Smb) : (modSmb s f).store = s.store := rfl
@[simp] theorem modSmb_cv (s : State) (f : Smb → Smb) : (modSmb s f).cv = s.cv := rfl
@[simp] theorem modSmb_tt (s : State) (f : Smb → Smb) : (modSmb s f).tt = s.tt := rfl
@[simp] theorem modSmb_pw (s : State) (f : Smb → Smb) : (modSmb s f).pw = s.pw := rfl
@[simp] theorem modSmb_slp (s : State) (f : Smb → Smb) : (modSmb s f).slp = s.slp := rfl
@[simp] theorem modSmb_time (s : State) (f : Smb → Smb) : (modSmb s f).time = s.time := rfl
@[simp] theorem modSmb_flash (s : State) (f : Smb → Smb) : (modSmb s f).flash = s.flash := rfl
@[simp] theorem modSmb_boot (s : State) (f : Smb → Smb) : (modSmb s f).boot = s.boot := rfl

@[simp] theorem modSlp_pending (s : State) (f : Sleep → Sleep) : (modSlp s f).pending = s.pending := rfl
@[simp] theorem modSlp_free (s : State) (f : Sleep → Sleep) : (modSlp s f).free = s.free := rfl
@[simp] theorem modSlp_clk (s : State) (f : Sleep → Sleep) : (modSlp s f).clk = s.clk := rfl
@[simp] theorem modSlp_op (s : State) (f : Sleep → Sleep) : (modSlp s f).op = s.op := rfl
@[simp] theorem modSlp_sec (s : State) (f : Sleep → Sleep) : (modSlp s f).sec = s.sec := rfl
@[simp] theorem modSlp_dbg (s : State) (f : Sleep → Sleep) : (modSlp s f).dbg = s.dbg := rfl
@[simp] theorem modSlp_faultPin (s : State) (f : Sleep → Sleep) : (modSlp s f).faultPin = s.faultPin := rfl
@[simp] theorem modSlp_cl (s : State) (f : Sleep → Sleep) : (modSlp s f).cl = s.cl := rfl
@[simp] theorem modSlp_map (s : State) (f : Sleep → Sleep) : (modSlp s f).map = s.map := rfl
@[simp] theorem modSlp_hub (s : State) (f : Sleep → Sleep) : (modSlp s f).hub = s.hub := rfl
@[simp] theorem modSlp_sect (s : State) (f : Sleep → Sleep) : (modSlp s f).sect = s.sect := rfl
@[simp] theorem modSlp_prog (s : State) (f : Sleep → Sleep) : (modSlp s f).prog = s.prog := rfl
@[simp] theorem modSlp_dram (s : State) (f : Sleep → Sleep) : (modSlp s f).dram = s.dram := rfl
@[simp] theorem modSlp_comp (s : State) (f : Sleep → Sleep) : (modSlp s f).comp = s.comp := rfl
@[simp] theorem modSlp_out (s : State) (f : Sleep → Sleep) : (modSlp s f).out = s.out := rfl
@[simp] theorem modSlp_win (s : State) (f : Sleep → Sleep) : (modSlp s f).win = s.win := rfl
@[simp] theorem modSlp_train (s : State) (f : Sleep → Sleep) : (modSlp s f).train = s.train := rfl
@[simp] theorem modSlp_flog (s : State) (f : Sleep → Sleep) : (modSlp s f).flog = s.flog := rfl
@[simp] theorem modSlp_mb (s : State) (f : Sleep → Sleep) : (modSlp s f).mb = s.mb := rfl
@[simp] theorem modSlp_link (s : State) (f : Sleep → Sleep) : (modSlp s f).link = s.link := rfl
@[simp] theorem modSlp_smb (s : State) (f : Sleep → Sleep) : (modSlp s f).smb = s.smb := rfl
@[simp] theorem modSlp_tap (s : State) (f : Sleep → Sleep) : (modSlp s f).tap = s.tap := rfl
@[simp] theorem modSlp_fab (s : State) (f : Sleep → Sleep) : (modSlp s f).fab = s.fab := rfl
@[simp] theorem modSlp_su (s : State) (f : Sleep → Sleep) : (modSlp s f).su = s.su := rfl
@[simp] theorem modSlp_ckpt (s : State) (f : Sleep → Sleep) : (modSlp s f).ckpt = s.ckpt := rfl
@[simp] theorem modSlp_store (s : State) (f : Sleep → Sleep) : (modSlp s f).store = s.store := rfl
@[simp] theorem modSlp_cv (s : State) (f : Sleep → Sleep) : (modSlp s f).cv = s.cv := rfl
@[simp] theorem modSlp_tt (s : State) (f : Sleep → Sleep) : (modSlp s f).tt = s.tt := rfl
@[simp] theorem modSlp_pw (s : State) (f : Sleep → Sleep) : (modSlp s f).pw = s.pw := rfl
@[simp] theorem modSlp_slp (s : State) (f : Sleep → Sleep) : (modSlp s f).slp = f s.slp := rfl
@[simp] theorem modSlp_time (s : State) (f : Sleep → Sleep) : (modSlp s f).time = s.time := rfl
@[simp] theorem modSlp_flash (s : State) (f : Sleep → Sleep) : (modSlp s f).flash = s.flash := rfl
@[simp] theorem modSlp_boot (s : State) (f : Sleep → Sleep) : (modSlp s f).boot = s.boot := rfl

end Sys2Proof.Machine
end

