-- ==== Sys2Proof/Laws/Log.lean ====
section
/-! SUPPORT. What posting an event and appending a log entry leave alone. -/

namespace Sys2Proof.Machine

/-- Does t differ from s only in the log, the mailbox, companion memory, hub SRAM and the free counter? -/
def LogOnly (s t : State) : Prop := t = { s with flog := t.flog, mb := t.mb, comp := t.comp, free := t.free, hub := t.hub }

theorem LogOnly.refl (s : State) : LogOnly s s := rfl

theorem LogOnly.trans {a b c : State} (h : LogOnly a b) (h' : LogOnly b c) : LogOnly a c := by
  unfold LogOnly at *
  rw [h'] at *
  rw [h]

/-- Posting on a ring. -/
theorem postRing_logOnly (s : State) (r op fin seq st len body : Nat) : LogOnly s (postRing s r op fin seq st len body) := by
  unfold postRing
  dsimp only
  split
  · cases hf : (ringOf s r).first <;> rfl
  · rfl

/-- Flushing the queue of events. -/
theorem flushEventsN_logOnly (n : Nat) (s : State) : LogOnly s (flushEventsN n s) := by
  induction n generalizing s with
  | zero => exact .refl s
  | succ n ih =>
    unfold flushEventsN
    split
    · split
      · exact .refl s
      · refine .trans ?_ (ih _)
        unfold postEvent
        exact .trans (postRing_logOnly s _ _ _ _ _ _ _) rfl
    · exact .refl s

/-- Posting interim and short completions. -/
theorem postShortsN_logOnly (l : List ShortDone) (s : State) : LogOnly s (postShortsN l s) := by
  induction l generalizing s with
  | nil => rfl
  | cons x r ih =>
    unfold postShortsN
    split
    · rfl
    · dsimp only
      split
      · rfl
      · exact .trans (postRing_logOnly s _ _ _ _ _ _ _) (ih _)

/-- Posting the completions whose turn has come. -/
theorem postShorts_logOnly (s : State) : LogOnly s (postShorts s) := postShortsN_logOnly _ s

/-- Posting final completions. -/
theorem postFinals_logOnly (l : List OwedFinal) (s : State) : LogOnly s (l.foldl postFinal s) := by
  induction l generalizing s with
  | nil => exact .refl s
  | cons o l ih => exact .trans (postRing_logOnly s _ _ _ _ _ _ _) (ih _)

/-- Posting the final completions that are due. -/
theorem postOwed_logOnly (s : State) : LogOnly s (postOwed s) := by
  unfold postOwed
  split
  · exact .refl s
  · refine .trans (b := { s with mb := _ }) ?_ (postFinals_logOnly _ _)
    rfl

/-- Flushing events and final completions. -/
theorem flushEvents_logOnly (s : State) : LogOnly s (flushEvents s) := .trans (.trans (flushEventsN_logOnly _ s) (postShorts_logOnly _)) (postOwed_logOnly _)

/-- A logged event. -/
theorem logEvent_logOnly (s : State) (code cls unit unitId link detail : Nat) : LogOnly s (logEvent s code cls unit unitId link detail) := by
  refine .trans (b := logRaw s code cls unit unitId link detail true) ?_ (flushEvents_logOnly _)
  unfold logRaw
  dsimp only
  split
  · split <;> rfl
  · rfl

@[simp] theorem logEvent_op (s : State) (code cls unit unitId link detail : Nat) :
    (logEvent s code cls unit unitId link detail).op = s.op := by rw [logEvent_logOnly s]

@[simp] theorem logEvent_sec (s : State) (code cls unit unitId link detail : Nat) :
    (logEvent s code cls unit unitId link detail).sec = s.sec := by rw [logEvent_logOnly s]

@[simp] theorem logEvent_dbg (s : State) (code cls unit unitId link detail : Nat) :
    (logEvent s code cls unit unitId link detail).dbg = s.dbg := by rw [logEvent_logOnly s]

@[simp] theorem logEvent_clk (s : State) (code cls unit unitId link detail : Nat) :
    (logEvent s code cls unit unitId link detail).clk = s.clk := by rw [logEvent_logOnly s]

@[simp] theorem logEvent_cl (s : State) (code cls unit unitId link detail : Nat) :
    (logEvent s code cls unit unitId link detail).cl = s.cl := by rw [logEvent_logOnly s]

@[simp] theorem logEvent_map (s : State) (code cls unit unitId link detail : Nat) :
    (logEvent s code cls unit unitId link detail).map = s.map := by rw [logEvent_logOnly s]

@[simp] theorem logEvent_boot (s : State) (code cls unit unitId link detail : Nat) :
    (logEvent s code cls unit unitId link detail).boot = s.boot := by rw [logEvent_logOnly s]

@[simp] theorem logEvent_dram (s : State) (code cls unit unitId link detail : Nat) :
    (logEvent s code cls unit unitId link detail).dram = s.dram := by rw [logEvent_logOnly s]

@[simp] theorem logEvent_su (s : State) (code cls unit unitId link detail : Nat) :
    (logEvent s code cls unit unitId link detail).su = s.su := by rw [logEvent_logOnly s]

@[simp] theorem logEvent_store (s : State) (code cls unit unitId link detail : Nat) :
    (logEvent s code cls unit unitId link detail).store = s.store := by rw [logEvent_logOnly s]

@[simp] theorem logEvent_link (s : State) (code cls unit unitId link detail : Nat) :
    (logEvent s code cls unit unitId link detail).link = s.link := by rw [logEvent_logOnly s]

@[simp] theorem logEvent_smb (s : State) (code cls unit unitId link detail : Nat) :
    (logEvent s code cls unit unitId link detail).smb = s.smb := by rw [logEvent_logOnly s]

@[simp] theorem logEvent_slp (s : State) (code cls unit unitId link detail : Nat) :
    (logEvent s code cls unit unitId link detail).slp = s.slp := by rw [logEvent_logOnly s]

@[simp] theorem logEvent_pw (s : State) (code cls unit unitId link detail : Nat) :
    (logEvent s code cls unit unitId link detail).pw = s.pw := by rw [logEvent_logOnly s]

@[simp] theorem logEvent_prog (s : State) (code cls unit unitId link detail : Nat) :
    (logEvent s code cls unit unitId link detail).prog = s.prog := by rw [logEvent_logOnly s]

@[simp] theorem logEvent_train (s : State) (code cls unit unitId link detail : Nat) :
    (logEvent s code cls unit unitId link detail).train = s.train := by rw [logEvent_logOnly s]

@[simp] theorem logEvent_ckpt (s : State) (code cls unit unitId link detail : Nat) :
    (logEvent s code cls unit unitId link detail).ckpt = s.ckpt := by rw [logEvent_logOnly s]

@[simp] theorem logEvent_tt (s : State) (code cls unit unitId link detail : Nat) :
    (logEvent s code cls unit unitId link detail).tt = s.tt := by rw [logEvent_logOnly s]

@[simp] theorem logEvent_fab (s : State) (code cls unit unitId link detail : Nat) :
    (logEvent s code cls unit unitId link detail).fab = s.fab := by rw [logEvent_logOnly s]

@[simp] theorem logEvent_faultPin (s : State) (code cls unit unitId link detail : Nat) :
    (logEvent s code cls unit unitId link detail).faultPin = s.faultPin := by rw [logEvent_logOnly s]

@[simp] theorem logEvent_sect (s : State) (code cls unit unitId link detail : Nat) :
    (logEvent s code cls unit unitId link detail).sect = s.sect := by rw [logEvent_logOnly s]

@[simp] theorem logEvent_cv (s : State) (code cls unit unitId link detail : Nat) :
    (logEvent s code cls unit unitId link detail).cv = s.cv := by rw [logEvent_logOnly s]

@[simp] theorem logEvent_time (s : State) (code cls unit unitId link detail : Nat) :
    (logEvent s code cls unit unitId link detail).time = s.time := by rw [logEvent_logOnly s]

@[simp] theorem logEvent_flash (s : State) (code cls unit unitId link detail : Nat) :
    (logEvent s code cls unit unitId link detail).flash = s.flash := by rw [logEvent_logOnly s]

@[simp] theorem logEvent_win (s : State) (code cls unit unitId link detail : Nat) :
    (logEvent s code cls unit unitId link detail).win = s.win := by rw [logEvent_logOnly s]

@[simp] theorem logEvent_out (s : State) (code cls unit unitId link detail : Nat) :
    (logEvent s code cls unit unitId link detail).out = s.out := by rw [logEvent_logOnly s]

@[simp] theorem logEvent_pending (s : State) (code cls unit unitId link detail : Nat) :
    (logEvent s code cls unit unitId link detail).pending = s.pending := by rw [logEvent_logOnly s]

@[simp] theorem logEvent_tap (s : State) (code cls unit unitId link detail : Nat) :
    (logEvent s code cls unit unitId link detail).tap = s.tap := by rw [logEvent_logOnly s]

end Sys2Proof.Machine
end

