-- ==== Sys2Proof/Laws/Sparse.lean ====
section
/-! SUPPORT. Laws of sparse tables and byte memories: every write keeps the canonical form, a read after a write gives the value
written, a write leaves every other key alone, and equal tables read alike. -/

namespace Sys2Proof.Machine

section Tables
variable {α : Type} [DecidableEq α] {d : α} {m : Sparse α} {lo a b : Nat} {x : α}

theorem spWfFrom_mono (h : lo ≤ a) (w : spWfFrom d a m = true) : spWfFrom d lo m = true := by
  cases m with
  | nil => rfl
  | cons e r =>
    obtain ⟨k, v⟩ := e
    simp only [spWfFrom, Bool.and_eq_true, decide_eq_true_eq] at w ⊢
    exact ⟨⟨by omega, w.1.2⟩, w.2⟩

theorem spDel_wfFrom (w : spWfFrom d lo m = true) : spWfFrom d lo (spDel m a) = true := by
  induction m generalizing lo with
  | nil => rfl
  | cons e r ih =>
    obtain ⟨k, v⟩ := e
    simp only [spWfFrom, Bool.and_eq_true, decide_eq_true_eq] at w
    simp only [spDel]
    split
    · exact spWfFrom_mono (by omega) w.2
    · split
      · simp [spWfFrom, w]
      · simp [spWfFrom, w.1, ih w.2]

theorem spPut_wfFrom (hx : x ≠ d) (ha : lo ≤ a) (w : spWfFrom d lo m = true) : spWfFrom d lo (spPut m a x) = true := by
  induction m generalizing lo with
  | nil => simp [spPut, spWfFrom, hx, ha]
  | cons e r ih =>
    obtain ⟨k, v⟩ := e
    simp only [spWfFrom, Bool.and_eq_true, decide_eq_true_eq] at w
    simp only [spPut]
    split
    · subst_vars; simp [spWfFrom, hx, ha, w.2]
    · split
      · simp only [spWfFrom, Bool.and_eq_true, decide_eq_true_eq]
        exact ⟨⟨ha, hx⟩, ⟨by omega, w.1.2⟩, w.2⟩
      · simp only [spWfFrom, Bool.and_eq_true, decide_eq_true_eq]
        exact ⟨w.1, ih (by omega) w.2⟩

/-- Writing a key keeps the canonical form. -/
theorem spSet_wf (w : spWf d m = true) : spWf d (spSet d m a x) = true := by
  unfold spSet
  split
  · exact spDel_wfFrom w
  · exact spPut_wfFrom ‹_› (Nat.zero_le _) w

/-- Removing a key keeps the canonical form. -/
theorem spDel_wf (w : spWf d m = true) : spWf d (spDel m a) = true := spDel_wfFrom w

/-- Changing a value keeps the canonical form. -/
theorem spMod_wf {f : α → α} (w : spWf d m = true) : spWf d (spMod d m a f) = true := spSet_wf w

theorem spKeep_wfFrom {p : Nat → Bool} (w : spWfFrom d lo m = true) : spWfFrom d lo (spKeep p m) = true := by
  induction m generalizing lo with
  | nil => rfl
  | cons e r ih =>
    obtain ⟨k, v⟩ := e
    simp only [spWfFrom, Bool.and_eq_true, decide_eq_true_eq] at w
    simp only [spKeep, List.filter_cons]
    split
    · simp only [spWfFrom, Bool.and_eq_true, decide_eq_true_eq]
      exact ⟨w.1, ih w.2⟩
    · exact ih (spWfFrom_mono (by omega) w.2)

/-- Keeping some entries keeps the canonical form. -/
theorem spKeep_wf {p : Nat → Bool} (w : spWf d m = true) : spWf d (spKeep p m) = true := spKeep_wfFrom w

theorem spGet_below (w : spWfFrom d lo m = true) (h : a < lo) : spGet d m a = d := by
  cases m with
  | nil => rfl
  | cons e r =>
    obtain ⟨k, v⟩ := e
    simp only [spWfFrom, Bool.and_eq_true, decide_eq_true_eq] at w
    simp only [spGet]
    rw [if_neg (by omega), if_pos (by omega)]

theorem spGet_spPut : spGet d (spPut m a x) b = if b = a then x else spGet d m b := by
  induction m with
  | nil =>
    simp only [spPut, spGet]
    by_cases h : b = a
    · simp [h]
    · simp [h, Ne.symm h]
  | cons e r ih =>
    obtain ⟨k, v⟩ := e
    simp only [spPut]
    split
    · rename_i hk
      subst hk
      simp only [spGet]
      by_cases h : k = b
      · simp [h]
      · simp [h, Ne.symm h]
    · split
      · simp only [spGet]
        by_cases h : a = b
        · simp [h]
        · simp only [h, Ne.symm h, if_false]
          split
          · rw [if_neg (by omega), if_pos (by omega)]
          · rfl
      · simp only [spGet, ih]
        by_cases h : b = a
        · subst h; simp only [if_true]; rw [if_neg ‹_›, if_neg ‹_›]
        · simp [h]

theorem spGet_spDel (w : spWfFrom d lo m = true) : spGet d (spDel m a) b = if b = a then d else spGet d m b := by
  induction m generalizing lo with
  | nil => simp [spDel, spGet]
  | cons e r ih =>
    obtain ⟨k, v⟩ := e
    simp only [spWfFrom, Bool.and_eq_true, decide_eq_true_eq] at w
    simp only [spDel]
    split
    · subst_vars
      by_cases h : b = k
      · subst h; simp only [if_true]; exact spGet_below w.2 (by omega)
      · simp only [spGet, h, Ne.symm h, if_false]
        split
        · exact spGet_below w.2 (by omega)
        · rfl
    · split
      · by_cases h : b = a
        · subst h; simp only [spGet, if_true]; rw [if_neg ‹_›, if_pos ‹_›]
        · simp [h]
      · simp only [spGet, ih w.2]
        by_cases h : b = a
        · subst h; simp only [if_true]; rw [if_neg ‹_›, if_neg ‹_›]
        · simp [h]

/-- Reading a table after a write of one key. -/
theorem spGet_spSet (w : spWf d m = true) : spGet d (spSet d m a x) b = if b = a then x else spGet d m b := by
  unfold spSet
  split
  · subst_vars; exact spGet_spDel w
  · exact spGet_spPut

/-- A read after a write of the same key gives the value written. -/
theorem spGet_spSet_self (w : spWf d m = true) : spGet d (spSet d m a x) a = x := by rw [spGet_spSet w, if_pos rfl]

/-- A write leaves every other key alone. -/
theorem spGet_spSet_ne (w : spWf d m = true) (h : b ≠ a) : spGet d (spSet d m a x) b = spGet d m b := by rw [spGet_spSet w, if_neg h]

end Tables

section Bytes
variable {m : Memory} {a b : Nat} {x : Byte} {l : List Byte}

/-- A byte write keeps the canonical form. -/
theorem memSet_wf (w : Memory.wf m = true) : Memory.wf (memSet m a x) = true := spSet_wf (d := (0 : Byte)) w

/-- A write of bytes keeps the canonical form. -/
theorem memWrite_wf (w : Memory.wf m = true) : Memory.wf (memWrite m a l) = true := by
  induction l generalizing m a with
  | nil => exact w
  | cons x r ih => exact ih (memSet_wf w)

/-- Reading a byte after a byte write. -/
theorem memByte_memSet (w : Memory.wf m = true) : memByte (memSet m a x) b = if b = a then x else memByte m b :=
  spGet_spSet (d := (0 : Byte)) w

/-- Outside the bytes written every byte reads as before. -/
theorem memByte_memWrite_out (w : Memory.wf m = true) (h : b < a ∨ a + l.length ≤ b) : memByte (memWrite m a l) b = memByte m b := by
  induction l generalizing m a with
  | nil => rfl
  | cons x r ih =>
    simp only [List.length_cons] at h
    rw [memWrite, ih (memSet_wf w) (by omega), memByte_memSet w, if_neg (by omega)]

/-- Inside the bytes written each byte reads as written. -/
theorem memByte_memWrite_in {i : Nat} (w : Memory.wf m = true) (h : i < l.length) :
    memByte (memWrite m a l) (a + i) = l[i] := by
  induction l generalizing m a i with
  | nil => simp at h
  | cons x r ih =>
    cases i with
    | zero => rw [memWrite, memByte_memWrite_out (memSet_wf w) (by omega), memByte_memSet w]; simp
    | succ i =>
      have h' : i < r.length := by simpa using h
      have := ih (a := a + 1) (memSet_wf w (a := a) (x := x)) h'
      simpa [memWrite, Nat.add_assoc, Nat.add_comm 1 i] using this

/-- Reading back what was written. -/
theorem memRead_memWrite (w : Memory.wf m = true) : memRead (memWrite m a l) a l.length = l := by
  induction l generalizing m a with
  | nil => rfl
  | cons x r ih =>
    simp only [List.length_cons, memRead]
    refine congrArg₂ List.cons ?_ ?_
    · exact (memByte_memWrite_out (memSet_wf w) (by omega)).trans ((memByte_memSet w).trans (if_pos rfl))
    · exact ih (memSet_wf w)

end Bytes

end Sys2Proof.Machine
end

