-- ==== Sys2Proof/Laws/Mailbox.lean ====
section
/-! SUPPORT. What taking a message comes to once it passes steps 1 to 5 of R337, and reading a ring back. -/

namespace Sys2Proof.Machine

variable {s t : State} {m : Msg} {op : Nat} {fs : List (Nat × Nat)}

/-- A message that is taken runs the judgement of its arguments, and the events that wait are posted. -/
theorem takeCommand_taken (f : State → State) (h : Taken s m op t) : takeCommand s m op f = flushEvents (f t) := by
  obtain ⟨h1, h2, h3⟩ := h
  simp only [canTake, Bool.and_eq_true] at h1
  simp [takeCommand, h1, h2, h3]

/-- A body without reserved bits set is judged further. -/
theorem checkBody_none (f : State → State) (h : strayBit m fs = none) : checkBody t m fs f = f t := by
  unfold checkBody; rw [h]

/-- The two together. -/
theorem takeArgs_taken (f : State → State) (h : TakenArgs s m op fs t) : takeArgs s m op fs f = flushEvents (f t) :=
  (takeCommand_taken (fun s => checkBody s m fs f) h.1).trans (congrArg flushEvents (checkBody_none f h.2))

/-- A ring reads back what was written, as long as that is no reset ring. -/
theorem ringOf_modRing (s : State) (r : Nat) (f : Ring → Ring) (h : f (ringOf s r) ≠ .reset) (q : Nat) :
    ringOf (modRing s r f) q = if q = r then f (ringOf s r) else ringOf s q := by
  show spGet _ (spMod _ _ _ _) _ = _
  unfold spMod spSet
  rw [if_neg (show ¬ (f (spGet .reset s.mb.rings r) = .reset) from h), spGet_spPut]; rfl

/-- Next states with the same state before the posting are the same. -/
theorem next_flush {x y : State} (h : x = y) : (Host.Outcome.next (flushEvents x) : Res) = .next (flushEvents y) := by rw [h]

end Sys2Proof.Machine
end

