-- ==== Sys2Proof/Laws/Sound.lean ====
section
/-! SUPPORT. What every operation keeps: the queue of waiting commands, the canonical form of the byte memories, and the bounds of the fault log, the
event queue and the outstanding long commands. -/

namespace Sys2Proof.Machine

/-- The byte memories of a cluster are in canonical form. -/
structure MemOk (m : ClMem) : Prop where
  sp : Memory.wf m.sp = true
  side : Memory.wf m.side = true
  seqm : Memory.wf m.seqm = true

/-- The byte memories and the function tables of a cluster are in canonical form. -/
structure ClOk (c : Cluster) : Prop where
  mem : MemOk c.mem
  ftab : Memory.wf c.vr.ftab = true

/-- The queue is Q, every byte memory is in canonical form, and the log, the event queue and the outstanding long commands keep their bounds. -/
structure Sound (Q : List Instr) (s : State) : Prop where
  queue : s.pending = Q
  dram : Memory.wf s.dram.bytes = true
  comp : Memory.wf s.comp.bytes = true
  cl : ∀ e ∈ s.cl, ClOk e.2
  log : s.flog.entries.length ≤ 16384
  evq : s.mb.evq.length ≤ 1024
  long : s.mb.long.length ≤ 16

variable {Q : List Instr} {s : State}

theorem sound_mk (h : Sound Q s) {free clk op sec dbg faultPin map hub sect prog out win train link smb tap fab su ckpt store cv tt pw slp time flash boot} :
  Sound Q ⟨s.pending, free, clk, op, sec, dbg, faultPin, s.cl, map, hub, sect, prog, s.dram, s.comp, out, win, train, s.flog, s.mb, link, smb, tap, fab, su, ckpt, store, cv, tt, pw, slp, time, flash, boot⟩ :=
  ⟨h.1, h.2, h.3, h.4, h.5, h.6, h.7⟩

theorem sound_mb (h : Sound Q s) {free clk op sec dbg faultPin map hub sect prog out win train link smb tap fab su ckpt store cv tt pw slp time flash boot mb} (h1 : mb.evq.length ≤ 1024) (h2 : mb.long.length ≤ 16) :
  Sound Q ⟨s.pending, free, clk, op, sec, dbg, faultPin, s.cl, map, hub, sect, prog, s.dram, s.comp, out, win, train, s.flog, mb, link, smb, tap, fab, su, ckpt, store, cv, tt, pw, slp, time, flash, boot⟩ :=
  ⟨h.1, h.2, h.3, h.4, h.5, h1, h2⟩

/-- a mailbox that keeps the queue of events and long commands -/
theorem sound_mb' (h : Sound Q s) {free clk op sec dbg faultPin map hub sect prog out win train link smb tap fab su ckpt store cv tt pw slp time flash boot} {a b c d e f g hh i j k l m n o p q} :
  Sound Q ⟨s.pending, free, clk, op, sec, dbg, faultPin, s.cl, map, hub, sect, prog, s.dram, s.comp, out, win, train, s.flog,
   ⟨a, b, c, d, e, f, g, hh, i, s.mb.evq, j, k, l, m, s.mb.long, n, o, p, q⟩, link, smb, tap, fab, su, ckpt, store, cv, tt, pw, slp, time, flash, boot⟩ :=
  ⟨h.1, h.2, h.3, h.4, h.5, h.6, h.7⟩

theorem sound_cl (h : Sound Q s) {free clk op sec dbg faultPin map hub sect prog out win train link smb tap fab su ckpt store cv tt pw slp time flash boot cl} (h1 : ∀ e ∈ cl, ClOk e.2) :
  Sound Q ⟨s.pending, free, clk, op, sec, dbg, faultPin, cl, map, hub, sect, prog, s.dram, s.comp, out, win, train, s.flog, s.mb, link, smb, tap, fab, su, ckpt, store, cv, tt, pw, slp, time, flash, boot⟩ :=
  ⟨h.1, h.2, h.3, h1, h.5, h.6, h.7⟩

/-- dram with the same bytes -/
theorem sound_dram' (h : Sound Q s) {free clk op sec dbg faultPin map hub sect prog out win train link smb tap fab su ckpt store cv tt pw slp time flash boot a b c} :
  Sound Q ⟨s.pending, free, clk, op, sec, dbg, faultPin, s.cl, map, hub, sect, prog, ⟨s.dram.bytes, a, b, c⟩, s.comp, out, win, train, s.flog, s.mb, link, smb, tap, fab, su, ckpt, store, cv, tt, pw, slp, time, flash, boot⟩ :=
  ⟨h.1, h.2, h.3, h.4, h.5, h.6, h.7⟩

theorem sound_dram (h : Sound Q s) {free clk op sec dbg faultPin map hub sect prog out win train link smb tap fab su ckpt store cv tt pw slp time flash boot dram} (h1 : Memory.wf dram.bytes = true) :
  Sound Q ⟨s.pending, free, clk, op, sec, dbg, faultPin, s.cl, map, hub, sect, prog, dram, s.comp, out, win, train, s.flog, s.mb, link, smb, tap, fab, su, ckpt, store, cv, tt, pw, slp, time, flash, boot⟩ :=
  ⟨h.1, h1, h.3, h.4, h.5, h.6, h.7⟩

theorem sound_comp (h : Sound Q s) {free clk op sec dbg faultPin map hub sect prog out win train link smb tap fab su ckpt store cv tt pw slp time flash boot comp} (h1 : Memory.wf comp.bytes = true) :
  Sound Q ⟨s.pending, free, clk, op, sec, dbg, faultPin, s.cl, map, hub, sect, prog, s.dram, comp, out, win, train, s.flog, s.mb, link, smb, tap, fab, su, ckpt, store, cv, tt, pw, slp, time, flash, boot⟩ :=
  ⟨h.1, h.2, h1, h.4, h.5, h.6, h.7⟩

theorem sound_flog (h : Sound Q s) {free clk op sec dbg faultPin map hub sect prog out win train link smb tap fab su ckpt store cv tt pw slp time flash boot flog} (h1 : flog.entries.length ≤ 16384) :
  Sound Q ⟨s.pending, free, clk, op, sec, dbg, faultPin, s.cl, map, hub, sect, prog, s.dram, s.comp, out, win, train, flog, s.mb, link, smb, tap, fab, su, ckpt, store, cv, tt, pw, slp, time, flash, boot⟩ :=
  ⟨h.1, h.2, h.3, h.4, h1, h.6, h.7⟩

theorem sound_mk_iff {free clk op sec dbg faultPin map hub sect prog out win train link smb tap fab su ckpt store cv tt pw slp time flash boot} :
  Sound Q ⟨s.pending, free, clk, op, sec, dbg, faultPin, s.cl, map, hub, sect, prog, s.dram, s.comp, out, win, train, s.flog, s.mb, link, smb, tap, fab, su, ckpt, store, cv, tt, pw, slp, time, flash, boot⟩ ↔ Sound Q s :=
  ⟨fun h => ⟨h.1, h.2, h.3, h.4, h.5, h.6, h.7⟩, fun h => sound_mk h⟩
theorem sound_mb_iff {free clk op sec dbg faultPin map hub sect prog out win train link smb tap fab su ckpt store cv tt pw slp time flash boot} {a b c d e f g hh i j k l m n o p q} :
  Sound Q ⟨s.pending, free, clk, op, sec, dbg, faultPin, s.cl, map, hub, sect, prog, s.dram, s.comp, out, win, train, s.flog,
   ⟨a, b, c, d, e, f, g, hh, i, s.mb.evq, j, k, l, m, s.mb.long, n, o, p, q⟩, link, smb, tap, fab, su, ckpt, store, cv, tt, pw, slp, time, flash, boot⟩ ↔ Sound Q s :=
  ⟨fun h => ⟨h.1, h.2, h.3, h.4, h.5, h.6, h.7⟩, fun h => sound_mb' h⟩
theorem sound_dram_iff {free clk op sec dbg faultPin map hub sect prog out win train link smb tap fab su ckpt store cv tt pw slp time flash boot} {a b c} :
  Sound Q ⟨s.pending, free, clk, op, sec, dbg, faultPin, s.cl, map, hub, sect, prog, ⟨s.dram.bytes, a, b, c⟩, s.comp, out, win, train, s.flog, s.mb, link, smb, tap, fab, su, ckpt, store, cv, tt, pw, slp, time, flash, boot⟩ ↔ Sound Q s :=
  ⟨fun h => ⟨h.1, h.2, h.3, h.4, h.5, h.6, h.7⟩, fun h => sound_dram' h⟩
theorem clok_mk_iff {c : Cluster} {opx seq log t0 t1 t2 t3 handles inConsist pausing pausedOk} :
  ClOk ⟨opx, seq, log, c.mem, c.vr, t0, t1, t2, t3, handles, inConsist, pausing, pausedOk⟩ ↔ ClOk c := ⟨fun h => ⟨h.1, h.2⟩, fun h => ⟨h.1, h.2⟩⟩
theorem clok_vr_iff {c : Cluster} {opx seq log t0 t1 t2 t3 handles inConsist pausing pausedOk a b d e f g i j} :
  ClOk ⟨opx, seq, log, c.mem, ⟨a, j, c.vr.ftab, b, d, e, f, g, i⟩, t0, t1, t2, t3, handles, inConsist, pausing, pausedOk⟩ ↔ ClOk c := ⟨fun h => ⟨h.1, h.2⟩, fun h => ⟨h.1, h.2⟩⟩
theorem memok_mk_iff {m : ClMem} {wmeta sideClean spEcc sideEcc seqEcc wb tab moving retain armMask sideRet seqRet arm overdue armedAt marchRun lastAlg lastFail fail denied marches ceN ueN ue posSide posSeq swA swB psA psB duA duB} :
  MemOk ⟨m.sp, wmeta, m.side, sideClean, m.seqm, spEcc, sideEcc, seqEcc, wb, tab, moving, retain, armMask, sideRet, seqRet, arm, overdue, armedAt, marchRun, lastAlg, lastFail, fail, denied, marches, ceN, ueN, ue, posSide, posSeq, swA, swB, psA, psB, duA, duB⟩ ↔ MemOk m := ⟨fun h => ⟨h.1, h.2, h.3⟩, fun h => ⟨h.1, h.2, h.3⟩⟩

theorem clok_all_iff {m vr opx seq log t0 t1 t2 t3 handles inConsist pausing pausedOk} :
  ClOk ⟨opx, seq, log, m, vr, t0, t1, t2, t3, handles, inConsist, pausing, pausedOk⟩ ↔ MemOk m ∧ Memory.wf vr.ftab = true := ⟨fun h => ⟨h.1, h.2⟩, fun h => ⟨h.1, h.2⟩⟩
theorem memok_all_iff {sp side seqm wmeta sideClean spEcc sideEcc seqEcc wb tab moving retain armMask sideRet seqRet arm overdue armedAt marchRun lastAlg lastFail fail denied marches ceN ueN ue posSide posSeq swA swB psA psB duA duB} :
  MemOk ⟨sp, wmeta, side, sideClean, seqm, spEcc, sideEcc, seqEcc, wb, tab, moving, retain, armMask, sideRet, seqRet, arm, overdue, armedAt, marchRun, lastAlg, lastFail, fail, denied, marches, ceN, ueN, ue, posSide, posSeq, swA, swB, psA, psB, duA, duB⟩ ↔
    Memory.wf sp = true ∧ Memory.wf side = true ∧ Memory.wf seqm = true := ⟨fun h => ⟨h.1, h.2, h.3⟩, fun h => ⟨h.1, h.2.1, h.2.2⟩⟩
theorem memKeep_wf {m : Memory} {p : Nat → Bool} (h : Memory.wf m = true) : Memory.wf (spKeep p m) = true := spKeep_wf (d := (0 : Byte)) h
theorem memNil_wf : Memory.wf [] = true := rfl

theorem foldl_sound {α} {f : State → α → State} {l : List α} (h : Sound Q s) (hf : ∀ s x, Sound Q s → Sound Q (f s x)) : Sound Q (l.foldl f s) := by
  induction l generalizing s with
  | nil => exact h
  | cons a r ih => exact ih (hf s a h)

theorem foldr_sound {α} {f : α → State → State} {l : List α} (h : Sound Q s) (hf : ∀ s x, Sound Q s → Sound Q (f x s)) : Sound Q (l.foldr f s) := by
  induction l with
  | nil => exact h
  | cons a r ih => exact hf _ a ih

theorem foldl_clok {α} {f : Cluster → α → Cluster} {l : List α} {c : Cluster} (h : ClOk c) (hf : ∀ s x, ClOk s → ClOk (f s x)) : ClOk (l.foldl f c) := by
  induction l generalizing c with
  | nil => exact h
  | cons a r ih => exact ih (hf c a h)

theorem foldl_memok {α} {f : ClMem → α → ClMem} {l : List α} {c : ClMem} (h : MemOk c) (hf : ∀ s x, MemOk s → MemOk (f s x)) : MemOk (l.foldl f c) := by
  induction l generalizing c with
  | nil => exact h
  | cons a r ih => exact ih (hf c a h)

theorem clok_mk {c : Cluster} (h : ClOk c) {opx seq log t0 t1 t2 t3 handles inConsist pausing pausedOk} :
  ClOk ⟨opx, seq, log, c.mem, c.vr, t0, t1, t2, t3, handles, inConsist, pausing, pausedOk⟩ := ⟨h.1, h.2⟩
theorem clok_vr {c : Cluster} (h : ClOk c) {opx seq log t0 t1 t2 t3 handles inConsist pausing pausedOk a b d e f g i j} :
  ClOk ⟨opx, seq, log, c.mem, ⟨a, j, c.vr.ftab, b, d, e, f, g, i⟩, t0, t1, t2, t3, handles, inConsist, pausing, pausedOk⟩ := ⟨h.1, h.2⟩
theorem clok_mem {c : Cluster} (h : ClOk c) {m : ClMem} (hm : MemOk m) {opx seq log t0 t1 t2 t3 handles inConsist pausing pausedOk} :
  ClOk ⟨opx, seq, log, m, c.vr, t0, t1, t2, t3, handles, inConsist, pausing, pausedOk⟩ := ⟨hm, h.2⟩
theorem clok_all {m : ClMem} (hm : MemOk m) {vr : VecRow} (hv : Memory.wf vr.ftab = true) {opx seq log t0 t1 t2 t3 handles inConsist pausing pausedOk} :
  ClOk ⟨opx, seq, log, m, vr, t0, t1, t2, t3, handles, inConsist, pausing, pausedOk⟩ := ⟨hm, hv⟩

theorem memok_mk {m : ClMem} (h : MemOk m) {wmeta sideClean spEcc sideEcc seqEcc wb tab moving retain armMask sideRet seqRet arm overdue armedAt marchRun lastAlg lastFail fail denied marches ceN ueN ue posSide posSeq swA swB psA psB duA duB} :
  MemOk ⟨m.sp, wmeta, m.side, sideClean, m.seqm, spEcc, sideEcc, seqEcc, wb, tab, moving, retain, armMask, sideRet, seqRet, arm, overdue, armedAt, marchRun, lastAlg, lastFail, fail, denied, marches, ceN, ueN, ue, posSide, posSeq, swA, swB, psA, psB, duA, duB⟩ := ⟨h.1, h.2, h.3⟩
theorem memok_all {sp side seqm} (h1 : Memory.wf sp = true) (h2 : Memory.wf side = true) (h3 : Memory.wf seqm = true) {wmeta sideClean spEcc sideEcc seqEcc wb tab moving retain armMask sideRet seqRet arm overdue armedAt marchRun lastAlg lastFail fail denied marches ceN ueN ue posSide posSeq swA swB psA psB duA duB} :
  MemOk ⟨sp, wmeta, side, sideClean, seqm, spEcc, sideEcc, seqEcc, wb, tab, moving, retain, armMask, sideRet, seqRet, arm, overdue, armedAt, marchRun, lastAlg, lastFail, fail, denied, marches, ceN, ueN, ue, posSide, posSeq, swA, swB, psA, psB, duA, duB⟩ := ⟨h1, h2, h3⟩

theorem compWrite_wf {c : Companion} {a : Nat} {l : List Byte} {p : Bool} (h : Memory.wf c.bytes = true) : Memory.wf (compWrite c a l p).bytes = true := by
  have hf : ∀ (l' : List Nat) (m : Memory), Memory.wf m = true →
      Memory.wf (l'.foldl (fun m i => memWrite m (a + i) [listGet 0 l i]) m) = true := by
    intro l'
    induction l' with
    | nil => intro m hm; exact hm
    | cons x r ih => intro m hm; exact ih _ (memWrite_wf hm)
  unfold compWrite
  dsimp only
  split
  · exact memWrite_wf h
  · exact hf _ _ h

theorem clok_reset : ClOk .reset := ⟨⟨rfl, rfl, rfl⟩, rfl⟩

theorem sparse_mem {α : Type} [DecidableEq α] {d : α} {m : Sparse α} {a : Nat} {x : α} {P : α → Prop}
    (hx : P x) (h : ∀ e ∈ m, P e.2) : ∀ e ∈ spSet d m a x, P e.2 := by
  have hd : ∀ m : Sparse α, (∀ e ∈ m, P e.2) → ∀ e ∈ spDel m a, P e.2 := by
    intro m
    induction m with
    | nil => intro _ e he; simp [spDel] at he
    | cons b r ih =>
      obtain ⟨k, v⟩ := b
      intro h e he
      simp only [spDel] at he
      split at he
      · exact h e (by simp [he])
      · split at he
        · exact h e he
        · rcases List.mem_cons.1 he with rfl | he
          · exact h _ (by simp)
          · exact ih (fun e he => h e (by simp [he])) e he
  have hp : ∀ m : Sparse α, (∀ e ∈ m, P e.2) → ∀ e ∈ spPut m a x, P e.2 := by
    intro m
    induction m with
    | nil => intro _ e he; simp [spPut] at he; subst he; exact hx
    | cons b r ih =>
      obtain ⟨k, v⟩ := b
      intro h e he
      simp only [spPut] at he
      split at he
      · rcases List.mem_cons.1 he with rfl | he
        · exact hx
        · exact h e (by simp [he])
      · split at he
        · rcases List.mem_cons.1 he with rfl | he
          · exact hx
          · exact h e he
        · rcases List.mem_cons.1 he with rfl | he
          · exact h _ (by simp)
          · exact ih (fun e he => h e (by simp [he])) e he
  unfold spSet
  split
  · exact hd m h
  · exact hp m h

theorem spGet_prop {α : Type} {d : α} {m : Sparse α} {a : Nat} {P : α → Prop} (hd : P d) (h : ∀ e ∈ m, P e.2) : P (spGet d m a) := by
  induction m with
  | nil => exact hd
  | cons e r ih =>
    obtain ⟨k, v⟩ := e
    simp only [spGet]
    split
    · exact h (k, v) (by simp)
    · split
      · exact hd
      · exact ih (fun e he => h e (by simp [he]))

/-- a next state is sound -/
def SoundR (Q : List Instr) : Res → Prop
  | .next t => Sound Q t
  | _ => True
theorem soundR_next {t : State} (h : Sound Q t) : SoundR Q (.next t) := h
def SoundO (Q : List Instr) (o : Option State) : Prop := ∀ t, o = some t → Sound Q t
theorem soundO_none : SoundO Q none := by intro t h; cases h
theorem soundO_some {t : State} (h : Sound Q t) : SoundO Q (some t) := by intro t h; cases h; assumption
def ClOkO (o : Option Cluster) : Prop := ∀ t, o = some t → ClOk t
theorem clokO_none : ClOkO none := by intro t h; cases h
theorem clokO_some {t : Cluster} (h : ClOk t) : ClOkO (some t) := by intro t h; cases h; assumption
def SoundS (Q : List Instr) : Sum State State → Prop
  | .inl t => Sound Q t
  | .inr t => Sound Q t
theorem soundS_inl {t : State} (h : Sound Q t) : SoundS Q (.inl t) := h
theorem soundS_inr {t : State} (h : Sound Q t) : SoundS Q (.inr t) := h

theorem Sound.cluster {lc : Nat} (h : Sound Q s) : ClOk (Machine.cluster s lc) := spGet_prop clok_reset h.cl
theorem setCluster_sound {lc : Nat} {c : Cluster} (h : Sound Q s) (hc : ClOk c) : Sound Q (setCluster s lc c) :=
  sound_cl h (sparse_mem (P := ClOk) hc h.cl)
theorem modCluster_sound {lc : Nat} {f : Cluster → Cluster} (h : Sound Q s) (hf : ∀ c, ClOk c → ClOk (f c)) : Sound Q (modCluster s lc f) :=
  setCluster_sound h (hf _ h.cluster)

/-- Both branches of a pair are sound. -/
theorem sound_ite_snd {α : Type} {c : Prop} [Decidable c] {a b : α × State} (ha : Sound Q a.2) (hb : Sound Q b.2) :
    Sound Q (if c then a else b).2 := by split <;> assumption

/-- `Sound` is the invariant of Safety together with the queue. -/
theorem sound_iff {s : State} : Sound Q s ↔ s.pending = Q ∧ s.inv := by
  constructor
  · intro h
    refine ⟨h.queue, ?_, h.log, h.evq, h.long⟩
    simp only [State.memWf, Bool.and_eq_true, List.all_eq_true]
    exact ⟨⟨h.dram, h.comp⟩, fun e he => ⟨⟨⟨(h.cl e he).mem.sp, (h.cl e he).mem.side⟩, (h.cl e he).mem.seqm⟩, (h.cl e he).ftab⟩⟩
  · rintro ⟨hq, hm, h1, h2, h3⟩
    simp only [State.memWf, Bool.and_eq_true, List.all_eq_true] at hm
    exact ⟨hq, hm.1.1, hm.1.2, fun e he => ⟨⟨(hm.2 e he).1.1.1, (hm.2 e he).1.1.2, (hm.2 e he).1.2⟩, (hm.2 e he).2⟩, h1, h2, h3⟩

end Sys2Proof.Machine
end

