-- ==== Sys2Proof/Laws/SoundMem.lean ====
section
/-! SUPPORT. What `Sound` says of the shared operations over registers, memories, the log, frames and the mailbox: each operation keeps it. -/

set_option linter.unusedSimpArgs false
set_option linter.unusedTactic false

namespace Sys2Proof.Machine

variable {Q : List Instr}

theorem ClMem_reset_sound : MemOk ClMem.reset := ⟨rfl, rfl, rfl⟩

theorem Cluster_reset_sound : ClOk Cluster.reset := ⟨⟨rfl, rfl, rfl⟩, rfl⟩

theorem State_reset_sound : Sound [] State.reset :=
  ⟨rfl, rfl, rfl, fun e he => by simp [State.reset] at he, Nat.zero_le _, Nat.zero_le _, Nat.zero_le _⟩

theorem modSection_sound (s : State) (k : Nat) (f : Section → Section) (hs : Sound Q s) : Sound Q (modSection s k f) := by
  unfold modSection
  repeat' first
    | with_reducible assumption
    | simp only [sound_mk_iff, sound_mb_iff, sound_dram_iff, clok_mk_iff, clok_vr_iff, memok_mk_iff]

theorem modStk_sound (s : State) (k : Nat) (f : Stk → Stk) (hs : Sound Q s) : Sound Q (modStk s k f) := by
  unfold modStk
  repeat' first
    | with_reducible assumption
    | simp only [sound_mk_iff, sound_mb_iff, sound_dram_iff, clok_mk_iff, clok_vr_iff, memok_mk_iff]

theorem modRing_sound (s : State) (r : Nat) (f : Ring → Ring) (hs : Sound Q s) : Sound Q (modRing s r f) :=
  sound_mb hs hs.evq hs.long

theorem modVt_sound (s : State) (t : Nat) (f : VtEntry → VtEntry) (hs : Sound Q s) : Sound Q (modVt s t f) := by
  unfold modVt
  repeat' first
    | with_reducible assumption
    | extract_lets
    | simp only [sound_mk_iff, sound_mb_iff, sound_dram_iff, clok_mk_iff, clok_vr_iff, memok_mk_iff]

theorem modGroup_sound (s : State) (g : Nat) (f : Group → Group) (hs : Sound Q s) : Sound Q (modGroup s g f) := by
  unfold modGroup
  repeat' first
    | with_reducible assumption
    | extract_lets
    | simp only [sound_mk_iff, sound_mb_iff, sound_dram_iff, clok_mk_iff, clok_vr_iff, memok_mk_iff]

theorem modMonitor_sound (s : State) (m : Nat) (f : Monitor → Monitor) (hs : Sound Q s) : Sound Q (modMonitor s m f) := by
  unfold modMonitor
  repeat' first
    | with_reducible assumption
    | extract_lets
    | simp only [sound_mk_iff, sound_mb_iff, sound_dram_iff, clok_mk_iff, clok_vr_iff, memok_mk_iff]

theorem drawFree_sound (lo hi : Nat) (s : State) (hs : Sound Q s) : Sound Q ((drawFree lo hi s).2) := by
  unfold drawFree
  repeat' first
    | with_reducible assumption
    | simp only [sound_mk_iff, sound_mb_iff, sound_dram_iff, clok_mk_iff, clok_vr_iff, memok_mk_iff]

theorem postRing_sound (s : State) (r opcode final seq status len body : Nat) (hs : Sound Q s) :
    Sound Q (postRing s r opcode final seq status len body) := by
  unfold postRing
  extract_lets g d s' msg
  have h' : Sound Q s' := by
    simp only [s', d]
    split
    · exact drawFree_sound _ _ _ hs
    · exact hs
  clear_value s'
  exact modRing_sound _ _ _ (sound_comp h' (compWrite_wf h'.comp))

theorem postEvent_sound (s : State) (ev : Event) (rest : List Event) (hs : Sound Q s) (hr : rest.length ≤ 1024) : Sound Q (postEvent s ev rest) := by
  unfold postEvent
  refine sound_mb (postRing_sound _ _ _ _ _ _ _ _ hs) hr (Sound.long (Q := Q) (postRing_sound _ _ _ _ _ _ _ _ hs))

theorem flushEventsN_sound (n : Nat) (s : State) (hs : Sound Q s) : Sound Q (flushEventsN n s) := by
  induction n generalizing s with
  | zero => exact hs
  | succ n ih =>
    unfold flushEventsN
    split
    · split
      · exact hs
      · rename_i h
        refine ih _ (postEvent_sound _ _ _ hs ?_)
        have := hs.evq
        rw [h] at this
        simp at this
        omega
    · exact hs

theorem postFinal_sound (s : State) (o : OwedFinal) (hs : Sound Q s) : Sound Q (postFinal s o) := by
  unfold postFinal
  repeat' first
    | with_reducible assumption
    | with_reducible apply postRing_sound

theorem postShortsN_sound (l : List ShortDone) (s : State) (hs : Sound Q s) : Sound Q (postShortsN l s) := by
  induction l generalizing s with
  | nil => exact sound_mb hs hs.evq hs.long
  | cons x r ih =>
    unfold postShortsN
    split
    · exact sound_mb hs hs.evq hs.long
    · dsimp only
      split
      · exact sound_mb hs hs.evq hs.long
      · exact ih _ (postRing_sound _ _ _ _ _ _ _ _ hs)

theorem postShorts_sound (s : State) (hs : Sound Q s) : Sound Q (postShorts s) := by
  unfold postShorts
  repeat' first
    | with_reducible assumption
    | with_reducible apply postShortsN_sound

theorem postOwed_sound (s : State) (hs : Sound Q s) : Sound Q (postOwed s) := by
  unfold postOwed
  repeat' first
    | with_reducible assumption
    | with_reducible apply postFinal_sound
    | with_reducible apply foldl_sound
    | split
    | simp only [sound_mk_iff, sound_mb_iff, sound_dram_iff, clok_mk_iff, clok_vr_iff, memok_mk_iff]

theorem flushEvents_sound (s : State) (hs : Sound Q s) : Sound Q (flushEvents s) := by
  unfold flushEvents
  repeat' first
    | with_reducible assumption
    | with_reducible apply flushEventsN_sound
    | with_reducible apply postShorts_sound
    | with_reducible apply postOwed_sound

theorem logRaw_sound (s : State) (code cls unit unitId link detail : Nat) (post : Bool) (hs : Sound Q s) : Sound Q (logRaw s code cls unit unitId link detail post) := by
  unfold logRaw
  extract_lets key occ room step e idx s'
  have h' : Sound Q s' := sound_flog hs (by simp only [List.length_take]; omega)
  have hm : s'.mb = s.mb := rfl
  clear_value s'
  split
  · split
    · rename_i hr
      refine sound_mb h' ?_ h'.long
      have : s.mb.evq.length < 1024 := of_decide_eq_true hr
      simp [hm]; omega
    · exact sound_mb h' h'.evq h'.long
  · exact h'

theorem logEvent_sound (s : State) (code cls unit unitId link detail : Nat) (hs : Sound Q s) : Sound Q (logEvent s code cls unit unitId link detail) := by
  unfold logEvent
  repeat' first
    | with_reducible assumption
    | with_reducible apply flushEvents_sound
    | with_reducible apply logRaw_sound

theorem logOnly_sound (s : State) (code cls unit unitId link detail : Nat) (hs : Sound Q s) : Sound Q (logOnly s code cls unit unitId link detail) := by
  unfold logOnly
  repeat' first
    | with_reducible assumption
    | with_reducible apply logRaw_sound

theorem logDefect_sound (s : State) (lc : Nat) (fields : List (Nat × Nat)) (hs : Sound Q s) : Sound Q (logDefect s lc fields) := by
  unfold logDefect
  repeat' first
    | with_reducible assumption
    | with_reducible apply logEvent_sound

theorem setAlert_sound (s : State) (n : Nat) (hs : Sound Q s) : Sound Q (setAlert s n) := by
  unfold setAlert
  repeat' first
    | with_reducible assumption
    | extract_lets
    | simp only [sound_mk_iff, sound_mb_iff, sound_dram_iff, clok_mk_iff, clok_vr_iff, memok_mk_iff]

theorem changeState_sound (s : State) (o : OpState) (x : SecState) (hs : Sound Q s) : Sound Q (changeState s o x) := by
  unfold changeState
  repeat' first
    | with_reducible assumption
    | with_reducible apply logEvent_sound
    | with_reducible apply setAlert_sound
    | split
    | simp only [sound_mk_iff, sound_mb_iff, sound_dram_iff, clok_mk_iff, clok_vr_iff, memok_mk_iff]

theorem setOp_sound (s : State) (o : OpState) (hs : Sound Q s) : Sound Q (setOp s o) := by
  unfold setOp
  repeat' first
    | with_reducible assumption
    | with_reducible apply changeState_sound

theorem switchClocks_sound (s : State) (hs : Sound Q s) : Sound Q (switchClocks s) := by
  unfold switchClocks
  repeat' first
    | with_reducible assumption
    | extract_lets
    | simp only [sound_mk_iff, sound_mb_iff, sound_dram_iff, clok_mk_iff, clok_vr_iff, memok_mk_iff]

theorem refreshPowerAlert_sound (s : State) (hs : Sound Q s) : Sound Q (refreshPowerAlert s) := by
  unfold refreshPowerAlert
  repeat' first
    | with_reducible assumption
    | with_reducible apply setAlert_sound
    | split

theorem dramTouch_sound (s : State) (stk loc : Nat) (patrol : Bool) (hs : Sound Q s) : Sound Q (dramTouch s stk loc patrol) := by
  unfold dramTouch
  repeat' first
    | with_reducible assumption
    | with_reducible apply modStk_sound
    | split
    | simp only [sound_mk_iff, sound_mb_iff, sound_dram_iff, clok_mk_iff, clok_vr_iff, memok_mk_iff]

theorem dramWriteUnit_sound (s : State) (stk loc : Nat) (l : List Byte) (poison : Bool) (hs : Sound Q s) :
    Sound Q (dramWriteUnit s stk loc l poison) := by
  have h' : Sound Q (if l.length = 64 then { s with dram := { s.dram with err := spDel s.dram.err (granKey stk loc) } }
      else dramTouch s stk loc false) := by
    split
    · exact sound_dram' hs
    · exact dramTouch_sound _ _ _ _ hs
  exact sound_dram h' (memWrite_wf h'.dram)

theorem setEccTab_sound (m : ClMem) (mem : Nat) (t : Sparse EccKind) (hm : MemOk m) : MemOk (setEccTab m mem t) := by
  unfold setEccTab
  repeat' first
    | with_reducible assumption
    | split
    | simp only [sound_mk_iff, sound_mb_iff, sound_dram_iff, clok_mk_iff, clok_vr_iff, memok_mk_iff]

theorem eccRead_sound (m : ClMem) (mem w : Nat) (gs : List Nat) (hm : MemOk m) : MemOk ((eccRead m mem w gs).1) := by
  unfold eccRead
  repeat' first
    | with_reducible assumption
    | split
    | simp only [sound_mk_iff, sound_mb_iff, sound_dram_iff, clok_mk_iff, clok_vr_iff, memok_mk_iff]

theorem eccClear_sound (m : ClMem) (mem w : Nat) (gs : List Nat) (hm : MemOk m) : MemOk (eccClear m mem w gs) := by
  unfold eccClear
  repeat' first
    | with_reducible assumption
    | with_reducible apply setEccTab_sound

theorem spReadWord_sound (m : ClMem) (w : Nat) (hm : MemOk m) : MemOk ((spReadWord m w).2) := by
  unfold spReadWord
  repeat' first
    | with_reducible assumption
    | with_reducible apply eccRead_sound

theorem spWriteUnit_sound (m : ClMem) (a : Nat) (l : List Byte) (poison : Bool) (tag : Nat) (hm : MemOk m) :
    MemOk (spWriteUnit m a l poison tag) := by
  unfold spWriteUnit
  extract_lets w gs full r old p m'
  have h' : MemOk m' := by
    refine eccClear_sound _ _ _ _ ?_
    simp only [r]
    split
    · exact hm
    · exact eccRead_sound _ _ _ _ hm
  exact memok_all (memWrite_wf h'.sp) h'.side h'.seqm

theorem sideReadWord_sound (m : ClMem) (w : Nat) (hm : MemOk m) : MemOk ((sideReadWord m w).2) := by
  unfold sideReadWord
  repeat' first
    | with_reducible assumption
    | with_reducible apply eccRead_sound

theorem sideWriteUnit_sound (m : ClMem) (a : Nat) (l : List Byte) (poison : Bool) (hm : MemOk m) :
    MemOk (sideWriteUnit m a l poison) := by
  unfold sideWriteUnit
  extract_lets w gs full r p m'
  have h' : MemOk m' := by
    refine eccClear_sound _ _ _ _ ?_
    simp only [r]
    split
    · exact hm
    · exact eccRead_sound _ _ _ _ hm
  exact memok_all h'.sp (memWrite_wf h'.side) h'.seqm

theorem modMem_sound (s : State) (lc : Nat) (f : ClMem → ClMem) (hs : Sound Q s) (hf : ∀ m : ClMem, MemOk m → MemOk (f m)) :
    Sound Q (modMem s lc f) :=
  modCluster_sound hs (fun _ h => ⟨hf _ h.mem, h.ftab⟩)

theorem noteInbound_sound (s : State) (lc a : Nat) (hs : Sound Q s) : Sound Q (noteInbound s lc a) := by
  unfold noteInbound
  repeat' first
    | with_reducible assumption
    | with_reducible apply modCluster_sound
    | with_reducible apply logDefect_sound
    | intro _
    | extract_lets
    | split
    | simp only [sound_mk_iff, sound_mb_iff, sound_dram_iff, clok_mk_iff, clok_vr_iff, memok_mk_iff]

theorem denyWindow_sound (s : State) (lc : Nat) (hs : Sound Q s) : Sound Q (denyWindow s lc) := by
  unfold denyWindow
  repeat' first
    | with_reducible assumption
    | with_reducible apply modMem_sound
    | intro _
    | extract_lets
    | simp only [sound_mk_iff, sound_mb_iff, sound_dram_iff, clok_mk_iff, clok_vr_iff, memok_mk_iff]

theorem stopCluster_sound (s : State) (lc : Nat) (why : StopCause) (hs : Sound Q s) : Sound Q (stopCluster s lc why) := by
  unfold stopCluster
  repeat' first
    | with_reducible assumption
    | with_reducible apply modCluster_sound
    | with_reducible apply logEvent_sound
    | intro _
    | extract_lets
    | split
    | simp only [sound_mk_iff, sound_mb_iff, sound_dram_iff, clok_mk_iff, clok_vr_iff, memok_mk_iff]

theorem winRead_sound (s : State) (lc off n : Nat) (hs : Sound Q s) : Sound Q (winRead s lc off n).2 := by
  have hm : MemOk (cluster s lc).mem := hs.cluster.mem
  unfold winRead
  split
  · exact hs
  · split
    · exact hs
    · dsimp only
      split
      · exact denyWindow_sound _ _ hs
      · split
        · exact modMem_sound _ _ _ hs (fun _ _ => eccRead_sound _ _ _ _ hm)
        · split
          · exact modMem_sound _ _ _ hs (fun _ _ => eccRead_sound _ _ _ _ hm)
          · split
            · exact hs
            · split
              · exact stopCluster_sound _ _ _ (modMem_sound _ _ _ hs (fun _ _ => eccRead_sound _ _ _ _ hm))
              · exact modMem_sound _ _ _ hs (fun _ _ => eccRead_sound _ _ _ _ hm)

theorem winWrite_sound (s : State) (lc off : Nat) (l : List Byte) (poison : Bool) (tag : Nat) (hs : Sound Q s) :
    Sound Q (winWrite s lc off l poison tag) := by
  unfold winWrite
  split
  · exact hs
  · split
    · exact hs
    · dsimp only
      split
      · exact denyWindow_sound _ _ hs
      · split
        · exact noteInbound_sound _ _ _ (modMem_sound _ _ _ hs (fun _ h => spWriteUnit_sound _ _ _ _ _ h))
        · split
          · split
            · exact hs
            · exact modMem_sound _ _ _ hs (fun _ h => sideWriteUnit_sound _ _ _ _ h)
          · split
            · exact hs
            · refine modMem_sound _ _ _ hs (fun m h => ?_)
              have h2 : ∀ w gs, MemOk (if l.length = 64 then m else (eccRead m 2 w gs).1) := fun w gs => by
                split
                · exact h
                · exact eccRead_sound _ _ _ _ h
              exact memok_all (eccClear_sound _ 2 _ _ (h2 _ _)).sp (eccClear_sound _ 2 _ _ (h2 _ _)).side (memWrite_wf (h2 _ _).seqm)

theorem spTouch_sound (m : ClMem) (ws : List Nat) (hm : MemOk m) : MemOk (spTouch m ws) := by
  unfold spTouch
  repeat' first
    | with_reducible assumption
    | with_reducible apply eccRead_sound
    | with_reducible apply foldl_memok
    | intro _
    | split
    | simp only [sound_mk_iff, sound_mb_iff, sound_dram_iff, clok_mk_iff, clok_vr_iff, memok_mk_iff]

theorem spTouchAll_sound (m : ClMem) (cycles : List (List Nat)) (hm : MemOk m) : MemOk (spTouchAll m cycles) := by
  unfold spTouchAll
  repeat' first
    | with_reducible assumption
    | with_reducible apply spTouch_sound
    | with_reducible apply foldl_memok

theorem hubTouch_sound (s : State) (w : Nat) (hs : Sound Q s) : Sound Q (hubTouch s w) := by
  unfold hubTouch
  repeat' first
    | with_reducible assumption
    | extract_lets
    | split
    | simp only [sound_mk_iff, sound_mb_iff, sound_dram_iff, clok_mk_iff, clok_vr_iff, memok_mk_iff]

theorem unitRead_sound (s : State) (a n : Nat) (hs : Sound Q s) : Sound Q ((unitRead s a n).2) := by
  unfold unitRead
  split
  · exact dramTouch_sound _ _ _ _ hs
  · exact winRead_sound _ _ _ _ hs
  · exact sound_comp hs hs.comp
  · exact hs

theorem unitWrite_sound (s : State) (a : Nat) (l : List Byte) (poison : Bool) (tag : Nat) (hs : Sound Q s) :
    Sound Q (unitWrite s a l poison tag) := by
  unfold unitWrite
  split
  · exact dramWriteUnit_sound _ _ _ _ _ hs
  · exact winWrite_sound _ _ _ _ _ _ hs
  · exact sound_comp hs (compWrite_wf hs.comp)
  · exact hs

theorem devReadPieces_sound (l : List (Nat × Nat)) (s : State) (hs : Sound Q s) : Sound Q (devReadPieces l s).2 := by
  induction l generalizing s with
  | nil => exact hs
  | cons p r ih => exact ih _ (unitRead_sound _ _ _ hs)

theorem devRead_sound (s : State) (a n : Nat) (hs : Sound Q s) : Sound Q ((devRead s a n).2) := by
  unfold devRead
  repeat' first
    | with_reducible assumption
    | with_reducible apply devReadPieces_sound

theorem devWritePieces_sound (poison : Bool) (tag : Nat) (l : List (Nat × Nat)) (b : List Byte) (s : State) (hs : Sound Q s) :
    Sound Q (devWritePieces poison tag l b s) := by
  induction l generalizing s b with
  | nil => exact hs
  | cons p r ih => exact ih _ _ (unitWrite_sound _ _ _ _ _ hs)

theorem devWrite_sound (s : State) (a : Nat) (l : List Byte) (poison : Bool) (tag : Nat) (hs : Sound Q s) : Sound Q (devWrite s a l poison tag) := by
  unfold devWrite
  repeat' first
    | with_reducible assumption
    | with_reducible apply devWritePieces_sound

theorem setTtCell_sound (s : State) (k i a : Nat) (c : TtCell) (hs : Sound Q s) : Sound Q (setTtCell s k i a c) := by
  unfold setTtCell
  repeat' first
    | with_reducible assumption
    | extract_lets
    | simp only [sound_mk_iff, sound_mb_iff, sound_dram_iff, clok_mk_iff, clok_vr_iff, memok_mk_iff]

theorem ttCharge_sound (s : State) (k i a u : Nat) (hs : Sound Q s) : Sound Q (ttCharge s k i a u) := by
  unfold ttCharge
  repeat' first
    | with_reducible assumption
    | with_reducible apply setTtCell_sound
    | extract_lets
    | split

theorem ttWait_sound (s : State) (k i a : Nat) (hs : Sound Q s) : Sound Q (ttWait s k i a) := by
  unfold ttWait
  repeat' first
    | with_reducible assumption
    | with_reducible apply setTtCell_sound

theorem ttRefill_sound (s : State) (k i a : Nat) (hs : Sound Q s) : Sound Q (ttRefill s k i a) := by
  unfold ttRefill
  repeat' first
    | with_reducible assumption
    | with_reducible apply setTtCell_sound

theorem chargeCells_sound (s : State) (act : Nat) (l : List (Nat × Nat)) (u : Nat) (hs : Sound Q s) : Sound Q (chargeCells s act l u) := by
  unfold chargeCells
  repeat' first
    | with_reducible assumption
    | with_reducible apply ttCharge_sound
    | with_reducible apply foldl_sound
    | intro _

theorem chargeDev_sound (s : State) (sec act a n : Nat) (write : Bool) (hs : Sound Q s) : Sound Q (chargeDev s sec act a n write) := by
  unfold chargeDev
  repeat' first
    | with_reducible assumption
    | with_reducible apply chargeCells_sound
    | with_reducible apply foldl_sound
    | intro _

theorem waitCells_sound (s : State) (act : Nat) (l : List (Nat × Nat)) (hs : Sound Q s) : Sound Q (waitCells s act l) := by
  unfold waitCells
  repeat' first
    | with_reducible assumption
    | with_reducible apply ttWait_sound
    | with_reducible apply foldl_sound
    | intro _
    | extract_lets
    | split

theorem gate_sound (s : State) (act : Nat) (l : List (Nat × Nat)) (r : Res) (hs : Sound Q s) (hr : SoundR Q r) : SoundR Q (gate s act l r) := by
  unfold gate
  split
  · exact hr
  · exact waitCells_sound _ _ _ hs

theorem modPort_sound (s : State) (p : Nat) (f : Port → Port) (hs : Sound Q s) : Sound Q (modPort s p f) := by
  unfold modPort
  repeat' first
    | with_reducible assumption
    | extract_lets
    | simp only [sound_mk_iff, sound_mb_iff, sound_dram_iff, clok_mk_iff, clok_vr_iff, memok_mk_iff]

theorem modJob_sound (s : State) (j : Nat) (f : Job → Job) (hs : Sound Q s) : Sound Q (modJob s j f) := by
  unfold modJob
  repeat' first
    | with_reducible assumption
    | extract_lets
    | simp only [sound_mk_iff, sound_mb_iff, sound_dram_iff, clok_mk_iff, clok_vr_iff, memok_mk_iff]

theorem modRingEnt_sound (s : State) (j pos : Nat) (f : RingEnt → RingEnt) (hs : Sound Q s) : Sound Q (modRingEnt s j pos f) := by
  unfold modRingEnt
  repeat' first
    | with_reducible assumption
    | extract_lets
    | simp only [sound_mk_iff, sound_mb_iff, sound_dram_iff, clok_mk_iff, clok_vr_iff, memok_mk_iff]

theorem modCrossEnt_sound (s : State) (j g : Nat) (f : CrossEnt → CrossEnt) (hs : Sound Q s) : Sound Q (modCrossEnt s j g f) := by
  unfold modCrossEnt
  repeat' first
    | with_reducible assumption
    | extract_lets
    | simp only [sound_mk_iff, sound_mb_iff, sound_dram_iff, clok_mk_iff, clok_vr_iff, memok_mk_iff]

theorem putFrame_sound (s : State) (p : Nat) (f : Frame) (hs : Sound Q s) : Sound Q (putFrame s p f) := by
  unfold putFrame
  repeat' first
    | with_reducible assumption
    | with_reducible apply ttCharge_sound
    | with_reducible apply ttWait_sound
    | with_reducible apply modPort_sound
    | extract_lets
    | split
    | simp only [sound_mk_iff, sound_mb_iff, sound_dram_iff, clok_mk_iff, clok_vr_iff, memok_mk_iff]

theorem flushPort_sound (s : State) (p : Nat) (hs : Sound Q s) : Sound Q (flushPort s p) := by
  unfold flushPort
  repeat' first
    | with_reducible assumption
    | with_reducible apply modPort_sound
    | with_reducible apply putFrame_sound
    | with_reducible apply foldl_sound
    | intro _

theorem bumpSeq_sound (s : State) (k : Nat) (hs : Sound Q s) : Sound Q (bumpSeq s k) := by
  unfold bumpSeq
  repeat' first
    | with_reducible assumption
    | extract_lets
    | simp only [sound_mk_iff, sound_mb_iff, sound_dram_iff, clok_mk_iff, clok_vr_iff, memok_mk_iff]

theorem sendKept_sound (s : State) (p jslot midx : Nat) (type flow round : Nat) (stage chunk piece hops contrib cfgchk : Nat)
    (payload : List Byte) (kept : Option Piece) (hs : Sound Q s) :
    Sound Q (sendKept s p jslot midx type flow round stage chunk piece hops contrib cfgchk payload kept) := by
  unfold sendKept
  extract_lets +onlyGivenNames j ctl k
  split
  · split
    · exact hs
    · exact logEvent_sound _ _ _ _ _ _ _ (modJob_sound _ _ _ hs)
  · extract_lets +onlyGivenNames s1 d s' h
    have h1 : Sound Q s1 := hubTouch_sound _ _ hs
    clear_value s1
    have h' : Sound Q s' := by
      simp only [s', d]
      split
      · exact h1
      · exact drawFree_sound _ _ _ h1
    clear_value s'
    split
    · exact h'
    · exact modPort_sound _ _ _ (putFrame_sound _ _ _ (bumpSeq_sound _ _ h'))

theorem sendFrame_sound (s : State) (p jslot midx : Nat) (type flow round : Nat) (stage chunk piece hops contrib cfgchk : Nat) (payload : List Byte) (hs : Sound Q s) : Sound Q (sendFrame s p jslot midx type flow round stage chunk piece hops contrib cfgchk payload) := by
  unfold sendFrame
  repeat' first
    | with_reducible assumption
    | with_reducible apply sendKept_sound

theorem sendControl_sound (s : State) (jslot midx type round : Nat) (payload : List Byte) (hs : Sound Q s) : Sound Q (sendControl s jslot midx type round payload) := by
  unfold sendControl
  repeat' first
    | with_reducible assumption
    | with_reducible apply sendFrame_sound

theorem setAbsent_sound (s : State) (jslot midx : Nat) (b : Bool) (hs : Sound Q s) : Sound Q (setAbsent s jslot midx b) := by
  unfold setAbsent
  repeat' first
    | with_reducible assumption
    | with_reducible apply modRingEnt_sound
    | with_reducible apply modCrossEnt_sound
    | extract_lets
    | split

theorem markAbsent_sound (s : State) (p jslot midx : Nat) (hs : Sound Q s) : Sound Q (markAbsent s p jslot midx) := by
  unfold markAbsent
  repeat' first
    | with_reducible assumption
    | with_reducible apply logEvent_sound
    | with_reducible apply modJob_sound
    | with_reducible apply setAbsent_sound

theorem sendAck_sound (s : State) (p : Nat) (f : Frame) (status : Nat) (hs : Sound Q s) : Sound Q (sendAck s p f status) := by
  unfold sendAck
  repeat' first
    | with_reducible assumption
    | with_reducible apply modPort_sound
    | with_reducible apply putFrame_sound
    | split
    | simp only [sound_mk_iff, sound_mb_iff, sound_dram_iff, clok_mk_iff, clok_vr_iff, memok_mk_iff]

theorem acceptFrame_sound (s : State) (p : Nat) (f : Frame) (hs : Sound Q s) : Sound Q ((acceptFrame s p f).2) := by
  have hp : ∀ g, Sound Q (modPort s p g) := fun g => modPort_sound s p g hs
  unfold acceptFrame
  dsimp only
  repeat' first
    | exact hs
    | exact hp _
    | apply sound_ite_snd
    | split

theorem noteTaken_sound (s : State) (k seq status : Nat) (hs : Sound Q s) : Sound Q (noteTaken s k seq status) := by
  unfold noteTaken
  repeat' first
    | with_reducible assumption
    | extract_lets
    | simp only [sound_mk_iff, sound_mb_iff, sound_dram_iff, clok_mk_iff, clok_vr_iff, memok_mk_iff]

theorem storeWear_sound (s : State) (hs : Sound Q s) : Sound Q (storeWear s) := by
  unfold storeWear
  repeat' first
    | with_reducible assumption
    | with_reducible apply logEvent_sound
    | split
    | simp only [sound_mk_iff, sound_mb_iff, sound_dram_iff, clok_mk_iff, clok_vr_iff, memok_mk_iff]

theorem complete_sound (s : State) (m : Msg) (final : Bool) (status len body : Nat) (hs : Sound Q s) : Sound Q (complete s m final status len body) := by
  unfold complete
  repeat' first
    | with_reducible assumption
    | with_reducible apply postShorts_sound
    | simp only [sound_mk_iff, sound_mb_iff, sound_dram_iff, clok_mk_iff, clok_vr_iff, memok_mk_iff]

theorem reserve_sound (s : State) (m : Msg) (hs : Sound Q s) : Sound Q (reserve s m) := by
  unfold reserve
  repeat' first
    | with_reducible assumption
    | simp only [sound_mk_iff, sound_mb_iff, sound_dram_iff, clok_mk_iff, clok_vr_iff, memok_mk_iff]

theorem fulfil_sound (s : State) (m : Msg) (status len body : Nat) (hs : Sound Q s) : Sound Q (fulfil s m status len body) := by
  unfold fulfil
  repeat' first
    | with_reducible assumption
    | with_reducible apply postShorts_sound
    | simp only [sound_mk_iff, sound_mb_iff, sound_dram_iff, clok_mk_iff, clok_vr_iff, memok_mk_iff]

theorem ok_sound (s : State) (m : Msg) (len body : Nat) (hs : Sound Q s) : Sound Q (ok s m len body) := by
  unfold ok
  repeat' first
    | with_reducible assumption
    | with_reducible apply complete_sound

theorem countRefusal_sound (s : State) (status : Nat) (hs : Sound Q s) : Sound Q (countRefusal s status) := by
  unfold countRefusal
  repeat' first
    | with_reducible assumption
    | simp only [sound_mk_iff, sound_mb_iff, sound_dram_iff, clok_mk_iff, clok_vr_iff, memok_mk_iff]

theorem refuse_sound (s : State) (m : Msg) (status len body : Nat) (hs : Sound Q s) : Sound Q (refuse s m status len body) := by
  unfold refuse
  repeat' first
    | with_reducible assumption
    | with_reducible apply complete_sound
    | with_reducible apply countRefusal_sound

theorem stateRefused_sound (s : State) (m : Msg) (hs : Sound Q s) : Sound Q (stateRefused s m) := by
  unfold stateRefused
  repeat' first
    | with_reducible assumption
    | with_reducible apply refuse_sound

theorem badArg_sound (s : State) (m : Msg) (b : BadAt) (hs : Sound Q s) : Sound Q (badArg s m b) := by
  unfold badArg
  repeat' first
    | with_reducible assumption
    | with_reducible apply refuse_sound

theorem busy_sound (s : State) (m : Msg) (reason : Nat) (hs : Sound Q s) : Sound Q (busy s m reason) := by
  unfold busy
  repeat' first
    | with_reducible assumption
    | with_reducible apply drawFree_sound
    | with_reducible apply refuse_sound

theorem exhausted_sound (s : State) (m : Msg) (resource : Nat) (hs : Sound Q s) : Sound Q (exhausted s m resource) := by
  unfold exhausted
  repeat' first
    | with_reducible assumption
    | with_reducible apply refuse_sound

theorem notAuth_sound (s : State) (m : Msg) (hs : Sound Q s) : Sound Q (notAuth s m) := by
  unfold notAuth
  repeat' first
    | with_reducible assumption
    | with_reducible apply refuse_sound

theorem checkError_sound (s : State) (m : Msg) (x : Nat) (hs : Sound Q s) : Sound Q (checkError s m x) := by
  unfold checkError
  repeat' first
    | with_reducible assumption
    | with_reducible apply refuse_sound

theorem noteTake_sound (s : State) (r : Nat) (hs : Sound Q s) : Sound Q (noteTake s r) := by
  unfold noteTake
  repeat' first
    | with_reducible assumption
    | simp only [sound_mk_iff, sound_mb_iff, sound_dram_iff, clok_mk_iff, clok_vr_iff, memok_mk_iff]

theorem chargeCore_sound (s : State) (n : Nat) (hs : Sound Q s) : Sound Q (chargeCore s n) := by
  unfold chargeCore
  repeat' first
    | with_reducible assumption
    | with_reducible apply ttCharge_sound

theorem judge_sound (s : State) (m : Msg) (hs : Sound Q s) : SoundS Q (judge s m) := by
  unfold judge
  repeat' first
    | with_reducible assumption
    | with_reducible apply modRing_sound
    | with_reducible apply refuse_sound
    | with_reducible apply stateRefused_sound
    | with_reducible apply badArg_sound
    | with_reducible apply busy_sound
    | with_reducible apply checkError_sound
    | with_reducible apply noteTake_sound
    | with_reducible apply chargeCore_sound
    | with_reducible apply soundS_inl
    | with_reducible apply soundS_inr
    | split
    | simp only [sound_mk_iff, sound_mb_iff, sound_dram_iff, clok_mk_iff, clok_vr_iff, memok_mk_iff]

theorem takeCommand_sound (s : State) (m : Msg) (op : Nat) (f : State → State) (hs : Sound Q s) (hf : ∀ t : State, Sound Q t → Sound Q (f t)) :
    Sound Q (takeCommand s m op f) := by
  unfold takeCommand
  split
  · exact hs
  · split
    · exact waitCells_sound _ _ _ hs
    · have h := judge_sound s m hs
      split
      · rename_i t ht
        rw [ht] at h
        exact flushEvents_sound _ h
      · rename_i t ht
        rw [ht] at h
        exact flushEvents_sound _ (hf _ h)

theorem checkBody_sound (s : State) (m : Msg) (fs : List (Nat × Nat)) (f : State → State) (hs : Sound Q s)
    (hf : ∀ t : State, Sound Q t → Sound Q (f t)) : Sound Q (checkBody s m fs f) := by
  unfold checkBody
  split
  · exact badArg_sound _ _ _ hs
  · exact hf _ hs

theorem takeArgs_sound (s : State) (m : Msg) (op : Nat) (fs : List (Nat × Nat)) (f : State → State) (hs : Sound Q s) (hf : ∀ (x0 : State), Sound Q x0 → Sound Q (f x0)) : Sound Q (takeArgs s m op fs f) := by
  unfold takeArgs
  repeat' first
    | with_reducible assumption
    | with_reducible apply takeCommand_sound
    | with_reducible apply checkBody_sound
    | intro _

theorem readBlock_sound (s : State) (m : Msg) (hs : Sound Q s) :
    (∀ t, readBlock s m = .inl t → Sound Q t) ∧ (∀ l t, readBlock s m = .inr (l, t) → Sound Q t) := by
  unfold readBlock
  dsimp only
  have hr : Sound Q (devRead (chargeDev (chargeCore s (mb m 64 32)) 4 8 (mb m 0 48) (mb m 64 32) false) (mb m 0 48) (mb m 64 32)).2 :=
    devRead_sound _ _ _ (chargeDev_sound _ _ _ _ _ _ (chargeCore_sound _ _ hs))
  have := @badArg_sound Q; have := @busy_sound Q; have := @checkError_sound Q
  split
  · simp; exact badArg_sound _ _ _ hs
  · split
    · split
      · simp; exact busy_sound _ _ _ hs
      · split
        · simp; exact checkError_sound _ _ _ hs
        · simp; exact hs
    · split
      · split
        · simp; exact checkError_sound _ _ _ hr
        · simp; exact hr
      · simp; exact badArg_sound _ _ _ hs

theorem takeWithBlock_sound (s : State) (m : Msg) (op : Nat) (fs : List (Nat × Nat)) (auth : List Byte → State → Bool)
    (f : List Byte → State → State) (hs : Sound Q s) (hf : ∀ (l : List Byte) (t : State), Sound Q t → Sound Q (f l t)) :
    Sound Q (takeWithBlock s m op fs auth f) := by
  unfold takeWithBlock
  refine takeCommand_sound _ _ _ _ hs (fun t ht => ?_)
  have h := readBlock_sound t m ht
  split
  · exact h.1 _ ‹_›
  · have h' := h.2 _ _ ‹_›
    split
    · exact notAuth_sound _ _ h'
    · exact checkBody_sound _ _ _ _ h' (hf _)

theorem postRing_long (u : State) (r a b c d e f : Nat) : (postRing u r a b c d e f).mb.long = u.mb.long := by
  cases hg : (ringOf u r).first <;> simp [postRing, modRing, drawFree, hg]

theorem postShortsN_long (l : List ShortDone) (s : State) : (postShortsN l s).mb.long = s.mb.long := by
  induction l generalizing s with
  | nil => rfl
  | cons x r ih =>
    unfold postShortsN
    split
    · rfl
    · dsimp only
      split
      · rfl
      · rw [ih, postRing_long]

theorem complete_long (s : State) (m : Msg) (fin : Bool) (st len body : Nat) : (complete s m fin st len body).mb.long = s.mb.long :=
  postShortsN_long _ _

theorem accept_sound (s : State) (m : Msg) (aux : Nat) (f : State → State) (hs : Sound Q s) (hf : ∀ t : State, Sound Q t → Sound Q (f t)) :
    Sound Q (accept s m aux f) := by
  unfold accept
  split
  · exact busy_sound _ _ _ hs
  · rename_i hlt
    refine hf _ ?_
    have h' : Sound Q (complete (drawFree 0 (2 ^ 32 - 1) s).2 m false stACCEPTED 4 (drawFree 0 (2 ^ 32 - 1) s).1) :=
      complete_sound _ _ _ _ _ _ (drawFree_sound _ _ _ hs)
    refine sound_mb h' h'.evq ?_
    have : (complete (drawFree 0 (2 ^ 32 - 1) s).2 m false stACCEPTED 4 (drawFree 0 (2 ^ 32 - 1) s).1).mb.long = s.mb.long := complete_long _ _ _ _ _ _
    simp only [List.length_append, List.length_cons, List.length_nil, this]
    have := hs.long
    unfold longN at hlt
    omega

theorem dropLong_sound (s : State) (m : Msg) (hs : Sound Q s) : Sound Q (dropLong s m) :=
  sound_mb hs hs.evq (le_trans (List.length_eraseP_le) hs.long)

theorem setAux_sound (s : State) (m : Msg) (n : Nat) (hs : Sound Q s) : Sound Q (setAux s m n) :=
  sound_mb hs hs.evq (by simpa using hs.long)

theorem finish_sound (s : State) (m : Msg) (status len body : Nat) (hs : Sound Q s) : Sound Q (finish s m status len body) := by
  unfold finish
  extract_lets since aux s1 s2 o
  have h2 : Sound Q s2 := by
    simp only [s2]
    split
    · exact dropLong_sound _ _ hs
    · exact countRefusal_sound _ _ (dropLong_sound _ _ hs)
  clear_value s2
  split
  · exact sound_mb h2 h2.evq h2.long
  · exact postFinal_sound _ _ h2

theorem noteRunning_sound (s : State) (lc : Nat) (hs : Sound Q s) : Sound Q (noteRunning s lc) := by
  unfold noteRunning
  repeat' first
    | with_reducible assumption
    | with_reducible apply modMem_sound
    | intro _
    | extract_lets
    | simp only [sound_mk_iff, sound_mb_iff, sound_dram_iff, clok_mk_iff, clok_vr_iff, memok_mk_iff]

theorem faultLong_sound (s : State) (keep : LongCmd → Bool) (hs : Sound Q s) : Sound Q (faultLong s keep) := by
  unfold faultLong
  repeat' first
    | with_reducible assumption
    | with_reducible apply finish_sound
    | with_reducible apply noteRunning_sound
    | with_reducible apply foldl_sound
    | intro _
    | extract_lets
    | split

end Sys2Proof.Machine
end

