-- ==== Sys2Proof/Laws/SoundSequencer.lean ====
section
/-! SUPPORT. What `Sound` says of checkpoint writing, dispatch, flags, commits, the outer-product engine and the scalar commands: each operation keeps it. -/

set_option linter.unusedSimpArgs false
set_option linter.unusedTactic false

namespace Sys2Proof.Machine

variable {Q : List Instr}

theorem modCkpt_sound (s : State) (f : Ckpt → Ckpt) (hs : Sound Q s) : Sound Q (modCkpt s f) := by
  unfold modCkpt
  repeat' first
    | with_reducible assumption
    | simp only [sound_mk_iff, sound_mb_iff, sound_dram_iff, clok_mk_iff, clok_vr_iff, memok_mk_iff]

theorem modCut_sound (s : State) (f : Cut → Cut) (hs : Sound Q s) : Sound Q (modCut s f) := by
  unfold modCut
  repeat' first
    | with_reducible assumption
    | with_reducible apply modCkpt_sound

theorem noteInterruption_sound (s : State) (hs : Sound Q s) : Sound Q (noteInterruption s) := by
  unfold noteInterruption
  repeat' first
    | with_reducible assumption
    | with_reducible apply modCkpt_sound

theorem sendBuddy_sound (s : State) (p jslot midx kind ckpt tensor off : Nat) (data : List Byte) (hs : Sound Q s) : Sound Q ((sendBuddy s p jslot midx kind ckpt tensor off data).2) := by
  unfold sendBuddy
  repeat' first
    | with_reducible assumption
    | with_reducible apply sendFrame_sound
    | extract_lets
    | split

theorem foldl_pair_sound {α β : Type} {f : β × State → α → β × State} {l : List α} {b : β × State} (h : Sound Q b.2)
    (hf : ∀ b x, Sound Q b.2 → Sound Q (f b x).2) : Sound Q (l.foldl f b).2 := by
  induction l generalizing b with
  | nil => exact h
  | cons a r ih => exact ih (hf b a h)

theorem sendBuddyAll_sound (s : State) (p jslot midx kind kindLast ckpt tensor off : Nat) (data : List Byte) (hs : Sound Q s) :
    Sound Q (sendBuddyAll s p jslot midx kind kindLast ckpt tensor off data).2 := by
  unfold sendBuddyAll
  exact foldl_pair_sound hs (fun b x h => sendBuddy_sound _ _ _ _ _ _ _ _ _ h)

theorem finishWrites_sound (s : State) (seqs : List (BitVec 32)) (status len body : Nat) (hs : Sound Q s) : Sound Q (finishWrites s seqs status len body) := by
  unfold finishWrites
  repeat' first
    | with_reducible assumption
    | with_reducible apply finish_sound
    | with_reducible apply foldl_sound
    | intro _
    | extract_lets
    | split

theorem postCkptFailed_sound (s : State) (number buddy cause : Nat) (hs : Sound Q s) : Sound Q (postCkptFailed s number buddy cause) := by
  unfold postCkptFailed
  repeat' first
    | with_reducible assumption
    | with_reducible apply logEvent_sound

theorem noSpace_sound (s : State) (number : Nat) (seqs : List (BitVec 32)) (hs : Sound Q s) : Sound Q (noSpace s number seqs) := by
  unfold noSpace
  repeat' first
    | with_reducible assumption
    | with_reducible apply modCkpt_sound
    | with_reducible apply finishWrites_sound
    | with_reducible apply postCkptFailed_sound
    | extract_lets
    | split
    | simp only [sound_mk_iff, sound_mb_iff, sound_dram_iff, clok_mk_iff, clok_vr_iff, memok_mk_iff]

theorem failCut_sound (s : State) (number : Nat) (seqs : List (BitVec 32)) (hs : Sound Q s) : Sound Q (failCut s number seqs) := by
  unfold failCut
  repeat' first
    | with_reducible assumption
    | with_reducible apply modCkpt_sound
    | with_reducible apply finishWrites_sound
    | with_reducible apply postCkptFailed_sound
    | extract_lets
    | simp only [sound_mk_iff, sound_mb_iff, sound_dram_iff, clok_mk_iff, clok_vr_iff, memok_mk_iff]

theorem finishCut_sound (s : State) (hs : Sound Q s) : Sound Q (finishCut s) := by
  unfold finishCut
  repeat' first
    | with_reducible assumption
    | with_reducible apply logEvent_sound
    | with_reducible apply modCkpt_sound
    | with_reducible apply finishWrites_sound
    | extract_lets
    | split

theorem chargeNand_sound (s : State) (act n : Nat) (hs : Sound Q s) : Sound Q (chargeNand s act n) := by
  unfold chargeNand
  repeat' first
    | with_reducible assumption
    | with_reducible apply chargeCells_sound

theorem chargeErases_sound (s : State) (n : Nat) (hs : Sound Q s) : Sound Q (chargeErases s n) := by
  unfold chargeErases
  repeat' first
    | with_reducible assumption
    | with_reducible apply chargeCells_sound

theorem takeSpace_sound (s : State) (st : Store) (hs : Sound Q s) : Sound Q (takeSpace s st) := by
  unfold takeSpace
  repeat' first
    | with_reducible assumption
    | with_reducible apply chargeErases_sound
    | extract_lets
    | simp only [sound_mk_iff, sound_mb_iff, sound_dram_iff, clok_mk_iff, clok_vr_iff, memok_mk_iff]

theorem writeOne_sound (s : State) (kind tensor off ver : Nat) (payload : List Byte) (hold : Nat) (hs : Sound Q s) : Sound Q (writeOne s kind tensor off ver payload hold) := by
  unfold writeOne
  repeat' first
    | with_reducible assumption
    | with_reducible apply storeWear_sound
    | with_reducible apply modCut_sound
    | with_reducible apply sendBuddyAll_sound
    | with_reducible apply noSpace_sound
    | with_reducible apply chargeNand_sound
    | extract_lets
    | split
    | simp only [sound_mk_iff, sound_mb_iff, sound_dram_iff, clok_mk_iff, clok_vr_iff, memok_mk_iff]

theorem writeMany_sound (s : State) (kind tensor ver : Nat) (placed : Bool) (data : List Byte) (hold : Nat) (hs : Sound Q s) : Sound Q (writeMany s kind tensor ver placed data hold) := by
  unfold writeMany
  repeat' first
    | with_reducible assumption
    | with_reducible apply writeOne_sound
    | with_reducible apply foldl_sound
    | intro _

theorem writeHold_sound (s : State) (h : Hold) (hs : Sound Q s) : Sound Q (writeHold s h) := by
  unfold writeHold
  repeat' first
    | with_reducible assumption
    | with_reducible apply devRead_sound
    | with_reducible apply chargeDev_sound
    | with_reducible apply modCut_sound
    | with_reducible apply writeMany_sound
    | extract_lets
    | split

theorem settleHolds_sound (s : State) (hs : Sound Q s) : Sound Q (settleHolds s) := by
  unfold settleHolds
  repeat' first
    | with_reducible assumption
    | with_reducible apply modCut_sound

theorem writeEnd_sound (s : State) (hs : Sound Q s) : Sound Q (writeEnd s) := by
  unfold writeEnd
  repeat' first
    | with_reducible assumption
    | with_reducible apply modCut_sound
    | with_reducible apply failCut_sound
    | with_reducible apply writeOne_sound
    | extract_lets
    | split

theorem writeSeal_sound (s : State) (hs : Sound Q s) : Sound Q (writeSeal s) := by
  unfold writeSeal
  repeat' first
    | with_reducible assumption
    | with_reducible apply modCkpt_sound
    | with_reducible apply sendBuddyAll_sound
    | with_reducible apply chargeNand_sound
    | extract_lets
    | split
    | simp only [sound_mk_iff, sound_mb_iff, sound_dram_iff, clok_mk_iff, clok_vr_iff, memok_mk_iff]

theorem advanceCkpt_sound (s : State) (hs : Sound Q s) : Sound Q (advanceCkpt s) := by
  unfold advanceCkpt
  repeat' first
    | with_reducible assumption
    | with_reducible apply finishCut_sound
    | with_reducible apply settleHolds_sound
    | with_reducible apply writeEnd_sound
    | with_reducible apply writeSeal_sound

theorem makeCut_sound (s : State) (entry : Bool) (hs : Sound Q s) : Sound Q (makeCut s entry) := by
  unfold makeCut
  repeat' first
    | with_reducible assumption
    | with_reducible apply drawFree_sound
    | with_reducible apply devRead_sound
    | with_reducible apply chargeDev_sound
    | with_reducible apply modCkpt_sound
    | with_reducible apply finishWrites_sound
    | with_reducible apply noSpace_sound
    | with_reducible apply takeSpace_sound
    | with_reducible apply writeMany_sound
    | with_reducible apply advanceCkpt_sound
    | with_reducible apply foldl_sound
    | intro _
    | extract_lets
    | split

theorem setQueue_sound (c : Cluster) (q : Nat) (l : List QEntry) (hc : ClOk c) : ClOk (setQueue c q l) := by
  unfold setQueue
  repeat' first
    | with_reducible assumption
    | extract_lets
    | split
    | simp only [sound_mk_iff, sound_mb_iff, sound_dram_iff, clok_mk_iff, clok_vr_iff, memok_mk_iff]

theorem modTrv_sound (c : Cluster) (e : Nat) (f : TrvEngine → TrvEngine) (hc : ClOk c) : ClOk (modTrv c e f) := by
  unfold modTrv
  repeat' first
    | with_reducible assumption
    | split
    | simp only [sound_mk_iff, sound_mb_iff, sound_dram_iff, clok_mk_iff, clok_vr_iff, memok_mk_iff]

theorem modStream_sound (c : Cluster) (k : Nat) (f : Stream → Stream) (hc : ClOk c) : ClOk (modStream c k f) := by
  unfold modStream
  repeat' first
    | with_reducible assumption
    | extract_lets
    | split
    | simp only [sound_mk_iff, sound_mb_iff, sound_dram_iff, clok_mk_iff, clok_vr_iff, memok_mk_iff]

theorem setHold_sound (c : Cluster) (hc : ClOk c) : ClOk (setHold c) := by
  unfold setHold
  repeat' first
    | with_reducible assumption
    | extract_lets
    | simp only [sound_mk_iff, sound_mb_iff, sound_dram_iff, clok_mk_iff, clok_vr_iff, memok_mk_iff]

theorem dispatchOne_sound (s : State) (lc : Nat) (raw : Nat) (hs : Sound Q s) : Sound Q (dispatchOne s lc raw) := by
  unfold dispatchOne
  repeat' first
    | with_reducible assumption
    | with_reducible apply setCluster_sound
    | with_reducible apply setQueue_sound
    | with_reducible apply modStream_sound
    | with_reducible apply Sound.cluster
    | extract_lets
    | split
    | simp only [sound_mk_iff, sound_mb_iff, sound_dram_iff, clok_mk_iff, clok_vr_iff, memok_mk_iff]

theorem fetchLines_sound (s : State) (lc : Nat) (hs : Sound Q s) : Sound Q (fetchLines s lc) := by
  unfold fetchLines
  repeat' first
    | with_reducible assumption
    | with_reducible apply modCluster_sound
    | with_reducible apply eccRead_sound
    | with_reducible apply stopCluster_sound
    | with_reducible apply foldl_memok
    | with_reducible apply ClOk.mem
    | with_reducible apply ClOk.ftab
    | with_reducible apply And.intro
    | intro _
    | extract_lets
    | split
    | simp only [clok_all_iff, memok_all_iff]

theorem dispatchN_sound (n : Nat) (s : State) (lc : Nat) (hs : Sound Q s) : Sound Q (dispatchN n s lc) := by
  induction n generalizing s with
  | zero => exact hs
  | succ n ih =>
    unfold dispatchN
    dsimp only
    have hf : Sound Q (fetchLines s lc) := fetchLines_sound _ _ hs
    split
    · exact hs
    · split
      · exact setCluster_sound hs ⟨hs.cluster.mem, hs.cluster.ftab⟩
      · split
        · exact hf
        · split
          · exact hf
          · exact ih _ (dispatchOne_sound _ _ _ hf)

theorem dispatch_sound (s : State) (lc : Nat) (hs : Sound Q s) : Sound Q (dispatch s lc) := dispatchN_sound _ _ _ hs

theorem advance_sound (s : State) (lc : Nat) (f : Cluster → Cluster) (hs : Sound Q s) (hf : ∀ (x0 : Cluster), ClOk x0 → ClOk (f x0)) : Sound Q (advance s lc f) := by
  unfold advance
  repeat' first
    | with_reducible assumption
    | with_reducible apply modCluster_sound
    | with_reducible apply dispatch_sound

theorem openFrame_sound (c : Cluster) (k no F : Nat) (hc : ClOk c) : ClOk (openFrame c k no F) := by
  unfold openFrame
  repeat' first
    | with_reducible assumption
    | with_reducible apply modStream_sound

theorem openBoth_sound (c : Cluster) (F : Nat) (hc : ClOk c) : ClOk (openBoth c F) := by
  unfold openBoth
  repeat' first
    | with_reducible assumption
    | extract_lets
    | simp only [sound_mk_iff, sound_mb_iff, sound_dram_iff, clok_mk_iff, clok_vr_iff, memok_mk_iff]

theorem atCycle_sound (c : Cluster) (cyc : Nat) (hc : ClOk c) : ClOk (atCycle c cyc) := by
  unfold atCycle
  repeat' first
    | with_reducible assumption
    | extract_lets
    | simp only [sound_mk_iff, sound_mb_iff, sound_dram_iff, clok_mk_iff, clok_vr_iff, memok_mk_iff]

theorem dropEntry_sound (c : Cluster) (q : Nat) (e : QEntry) (hc : ClOk c) : ClOk (dropEntry c q e) := by
  unfold dropEntry
  repeat' first
    | with_reducible assumption
    | with_reducible apply setQueue_sound

theorem retire_sound (s : State) (lc q : Nat) (e : QEntry) (hs : Sound Q s) : Sound Q (retire s lc q e) := by
  unfold retire
  repeat' first
    | with_reducible assumption
    | with_reducible apply advance_sound
    | with_reducible apply dropEntry_sound
    | intro _

theorem stopWith_sound (s : State) (lc : Nat) (why : StopCause) (hs : Sound Q s) : Sound Q (stopWith s lc why) := by
  unfold stopWith
  repeat' first
    | with_reducible assumption
    | with_reducible apply modCluster_sound
    | intro _
    | extract_lets
    | split
    | simp only [sound_mk_iff, sound_mb_iff, sound_dram_iff, clok_mk_iff, clok_vr_iff, memok_mk_iff]

theorem raiseSlip_sound (s : State) (lc q : Nat) (e : QEntry) (i : SlipInfo) (hs : Sound Q s) : Sound Q (raiseSlip s lc q e i) := by
  unfold raiseSlip
  repeat' first
    | with_reducible assumption
    | with_reducible apply modCluster_sound
    | with_reducible apply logEvent_sound
    | with_reducible apply stopWith_sound
    | intro _
    | extract_lets
    | split
    | simp only [sound_mk_iff, sound_mb_iff, sound_dram_iff, clok_mk_iff, clok_vr_iff, memok_mk_iff]

theorem consumePoison_sound (c : Cluster) (n : Nat) (hc : ClOk c) : ClOk (consumePoison c n) := by
  unfold consumePoison
  repeat' first
    | with_reducible assumption
    | extract_lets
    | simp only [sound_mk_iff, sound_mb_iff, sound_dram_iff, clok_mk_iff, clok_vr_iff, memok_mk_iff]

theorem noteUnmapped_sound (s : State) (lc idx : Nat) (as : List Nat) (hs : Sound Q s) : Sound Q (noteUnmapped s lc idx as) := by
  unfold noteUnmapped
  repeat' first
    | with_reducible assumption
    | with_reducible apply logDefect_sound
    | with_reducible apply foldl_sound
    | intro _

theorem spWriteAll_sound (c : Cluster) (ps : List SpPiece) (tag : Nat) (hc : ClOk c) : ClOk (spWriteAll c ps tag) := by
  unfold spWriteAll
  repeat' first
    | with_reducible assumption
    | with_reducible apply spWriteUnit_sound
    | with_reducible apply foldl_clok
    | with_reducible apply ClOk.mem
    | with_reducible apply ClOk.ftab
    | with_reducible apply And.intro
    | intro _
    | extract_lets
    | split
    | simp only [clok_all_iff, memok_all_iff]

theorem grantCluster_sound (c : Cluster) (sect : Bool) (f n : Nat) (hc : ClOk c) : ClOk (grantCluster c sect f n) := by
  unfold grantCluster
  repeat' first
    | with_reducible assumption
    | extract_lets
    | simp only [sound_mk_iff, sound_mb_iff, sound_dram_iff, clok_mk_iff, clok_vr_iff, memok_mk_iff]

theorem grantSection_sound (s : State) (sec f : Nat) (hs : Sound Q s) : Sound Q (grantSection s sec f) := by
  unfold grantSection
  repeat' first
    | with_reducible assumption
    | with_reducible apply modCluster_sound
    | with_reducible apply grantCluster_sound
    | with_reducible apply foldl_sound
    | intro _

theorem sfAdd_sound (s : State) (sec f inc : Nat) (hs : Sound Q s) : Sound Q (sfAdd s sec f inc) := by
  unfold sfAdd
  repeat' first
    | with_reducible assumption
    | with_reducible apply modSection_sound
    | with_reducible apply grantSection_sound

theorem sfClear_sound (s : State) (sec f : Nat) (hs : Sound Q s) : Sound Q (sfClear s sec f) := by
  unfold sfClear
  repeat' first
    | with_reducible assumption
    | with_reducible apply modSection_sound

theorem lfAdd_sound (s : State) (lc f inc : Nat) (hs : Sound Q s) : Sound Q (lfAdd s lc f inc) := by
  unfold lfAdd
  repeat' first
    | with_reducible assumption
    | with_reducible apply modCluster_sound
    | with_reducible apply grantCluster_sound
    | intro _
    | extract_lets
    | simp only [sound_mk_iff, sound_mb_iff, sound_dram_iff, clok_mk_iff, clok_vr_iff, memok_mk_iff]

theorem ungrant_sound (s : State) (n : Nat) (l : List (Nat × Nat)) (hs : Sound Q s) : Sound Q (ungrant s n l) := by
  unfold ungrant
  repeat' first
    | with_reducible assumption
    | with_reducible apply modCluster_sound
    | with_reducible apply foldl_sound
    | intro _
    | extract_lets
    | split
    | simp only [sound_mk_iff, sound_mb_iff, sound_dram_iff, clok_mk_iff, clok_vr_iff, memok_mk_iff]

theorem grantIn_sound (s : State) (lc lo hi : Nat) (l : List (Nat × Nat)) (hs : Sound Q s) : Sound Q (grantIn s lc lo hi l) := by
  unfold grantIn
  repeat' first
    | with_reducible assumption
    | with_reducible apply modCluster_sound
    | with_reducible apply foldl_sound
    | intro _
    | extract_lets
    | split
    | simp only [sound_mk_iff, sound_mb_iff, sound_dram_iff, clok_mk_iff, clok_vr_iff, memok_mk_iff]

theorem sfSetAt_sound (s : State) (lc cyc f inc : Nat) (hs : Sound Q s) : Sound Q (sfSetAt s lc cyc f inc) := by
  unfold sfSetAt
  repeat' first
    | with_reducible assumption
    | with_reducible apply modSection_sound
    | with_reducible apply sfAdd_sound
    | with_reducible apply grantIn_sound

theorem sfClearAt_sound (s : State) (lc cyc f : Nat) (hs : Sound Q s) : Sound Q (sfClearAt s lc cyc f) := by
  unfold sfClearAt
  repeat' first
    | with_reducible assumption
    | with_reducible apply modSection_sound
    | with_reducible apply sfClear_sound
    | with_reducible apply ungrant_sound
    | split

theorem lfSetAt_sound (s : State) (lc cyc f inc : Nat) (hs : Sound Q s) : Sound Q (lfSetAt s lc cyc f inc) := by
  unfold lfSetAt
  repeat' first
    | with_reducible assumption
    | with_reducible apply modCluster_sound
    | with_reducible apply lfAdd_sound
    | with_reducible apply grantIn_sound
    | intro _
    | extract_lets
    | simp only [sound_mk_iff, sound_mb_iff, sound_dram_iff, clok_mk_iff, clok_vr_iff, memok_mk_iff]

theorem lfClearAt_sound (s : State) (lc cyc f : Nat) (hs : Sound Q s) : Sound Q (lfClearAt s lc cyc f) := by
  unfold lfClearAt
  repeat' first
    | with_reducible assumption
    | with_reducible apply modCluster_sound
    | with_reducible apply ungrant_sound
    | intro _
    | extract_lets
    | split
    | simp only [sound_mk_iff, sound_mb_iff, sound_dram_iff, clok_mk_iff, clok_vr_iff, memok_mk_iff]

theorem waitNow_sound (s : State) (lc cyc w raw : Nat) (hs : Sound Q s) : Sound Q (waitNow s lc cyc w raw) := by
  unfold waitNow
  repeat' first
    | with_reducible assumption
    | with_reducible apply modCluster_sound
    | with_reducible apply modSection_sound
    | with_reducible apply grantIn_sound
    | intro _
    | extract_lets
    | split
    | simp only [sound_mk_iff, sound_mb_iff, sound_dram_iff, clok_mk_iff, clok_vr_iff, memok_mk_iff]

theorem sfAddAll_sound (s : State) (f : Nat) (hs : Sound Q s) : Sound Q (sfAddAll s f) := by
  unfold sfAddAll
  repeat' first
    | with_reducible assumption
    | with_reducible apply sfAdd_sound
    | with_reducible apply foldl_sound
    | intro _

theorem sfRecord_sound (c : Cluster) (e : QEntry) (hc : ClOk c) : ClOk (sfRecord c e) := by
  unfold sfRecord
  repeat' first
    | with_reducible assumption
    | extract_lets
    | simp only [sound_mk_iff, sound_mb_iff, sound_dram_iff, clok_mk_iff, clok_vr_iff, memok_mk_iff]

theorem carry_sound (c : Cluster) (status : Nat) (hc : ClOk c) : ClOk (carry c status) := by
  unfold carry
  repeat' first
    | with_reducible assumption
    | with_reducible apply ClOk.mem
    | with_reducible apply ClOk.ftab
    | with_reducible apply And.intro
    | extract_lets
    | simp only [clok_all_iff, memok_all_iff]

theorem noteUnbounded_sound (s : State) (lc idx chainN : Nat) (hs : Sound Q s) : Sound Q (noteUnbounded s lc idx chainN) := by
  unfold noteUnbounded
  repeat' first
    | with_reducible assumption
    | with_reducible apply modCluster_sound
    | with_reducible apply logEvent_sound
    | with_reducible apply logOnly_sound
    | intro _
    | extract_lets
    | split
    | simp only [sound_mk_iff, sound_mb_iff, sound_dram_iff, clok_mk_iff, clok_vr_iff, memok_mk_iff]

theorem judgeMask_sound (s : State) (mask : Nat) (hs : Sound Q s) : Sound Q (judgeMask s mask).2 := by
  unfold judgeMask
  refine foldl_pair_sound hs (fun b x h => ?_)
  split
  · exact modMonitor_sound _ _ _ h
  · exact h

theorem writeRec_sound (s : State) (d : Decision) (hs : Sound Q s) : Sound Q (writeRec s d) := by
  unfold writeRec
  repeat' first
    | with_reducible assumption
    | extract_lets
    | simp only [sound_mk_iff, sound_mb_iff, sound_dram_iff, clok_mk_iff, clok_vr_iff, memok_mk_iff]

theorem mapGroupTensors_sound (s : State) (g : Nat) (f : VtEntry → VtEntry) (hs : Sound Q s) : Sound Q (mapGroupTensors s g f) := by
  unfold mapGroupTensors
  repeat' first
    | with_reducible assumption
    | extract_lets
    | simp only [sound_mk_iff, sound_mb_iff, sound_dram_iff, clok_mk_iff, clok_vr_iff, memok_mk_iff]

theorem checkpointCut_sound (s : State) (g : Nat) (hs : Sound Q s) : Sound Q (checkpointCut s g) := by
  unfold checkpointCut
  repeat' first
    | with_reducible assumption
    | with_reducible apply makeCut_sound
    | extract_lets
    | split

theorem applyCommit_sound (s : State) (d : Decision) (hs : Sound Q s) : Sound Q (applyCommit s d) := by
  unfold applyCommit
  repeat' first
    | with_reducible assumption
    | with_reducible apply modGroup_sound
    | with_reducible apply sfAddAll_sound
    | with_reducible apply writeRec_sound
    | with_reducible apply mapGroupTensors_sound
    | with_reducible apply checkpointCut_sound

theorem oweStop_sound (s : State) (hs : Sound Q s) : Sound Q (oweStop s) := by
  unfold oweStop
  repeat' first
    | with_reducible assumption
    | extract_lets
    | simp only [sound_mk_iff, sound_mb_iff, sound_dram_iff, clok_mk_iff, clok_vr_iff, memok_mk_iff]

theorem applyAbort_sound (s : State) (d : Decision) (hs : Sound Q s) : Sound Q (applyAbort s d) := by
  unfold applyAbort
  repeat' first
    | with_reducible assumption
    | with_reducible apply modGroup_sound
    | with_reducible apply logEvent_sound
    | with_reducible apply sfAddAll_sound
    | with_reducible apply writeRec_sound
    | with_reducible apply mapGroupTensors_sound
    | with_reducible apply oweStop_sound

theorem applyDecision_sound (s : State) (d : Decision) (hs : Sound Q s) : Sound Q (applyDecision s d) := by
  unfold applyDecision
  repeat' first
    | with_reducible assumption
    | with_reducible apply applyCommit_sound
    | with_reducible apply applyAbort_sound
    | split
    | simp only [sound_mk_iff, sound_mb_iff, sound_dram_iff, clok_mk_iff, clok_vr_iff, memok_mk_iff]

theorem keepDecision_sound (s : State) (d : Decision) (hs : Sound Q s) : Sound Q (keepDecision s d) := by
  unfold keepDecision
  repeat' first
    | with_reducible assumption
    | extract_lets
    | simp only [sound_mk_iff, sound_mb_iff, sound_dram_iff, clok_mk_iff, clok_vr_iff, memok_mk_iff]

theorem sendDecision_sound (s : State) (jslot : Nat) (d : Decision) (hs : Sound Q s) : Sound Q (sendDecision s jslot d) := by
  unfold sendDecision
  repeat' first
    | with_reducible assumption
    | with_reducible apply sendControl_sound
    | with_reducible apply foldl_sound
    | intro _
    | extract_lets
    | split

theorem leaderDecide_sound (s : State) (jslot g round : Nat) (hs : Sound Q s) : Sound Q (leaderDecide s jslot g round) := by
  unfold leaderDecide
  repeat' first
    | with_reducible assumption
    | with_reducible apply writeRec_sound
    | with_reducible apply applyDecision_sound
    | with_reducible apply keepDecision_sound
    | with_reducible apply sendDecision_sound
    | extract_lets
    | split

theorem takeReady_sound (s : State) (jslot : Nat) (r : Ready) (hs : Sound Q s) : Sound Q (takeReady s jslot r) := by
  unfold takeReady
  repeat' first
    | with_reducible assumption
    | with_reducible apply leaderDecide_sound
    | extract_lets
    | split
    | simp only [sound_mk_iff, sound_mb_iff, sound_dram_iff, clok_mk_iff, clok_vr_iff, memok_mk_iff]

theorem sendReadyFrame_sound (s : State) (k : Nat) (r : SentReady) (hs : Sound Q s) : Sound Q (sendReadyFrame s k r) := by
  unfold sendReadyFrame
  repeat' first
    | with_reducible assumption
    | with_reducible apply sendControl_sound
    | extract_lets
    | simp only [sound_mk_iff, sound_mb_iff, sound_dram_iff, clok_mk_iff, clok_vr_iff, memok_mk_iff]

theorem askRound_sound (s : State) (g : Nat) (hs : Sound Q s) : Sound Q (askRound s g) := by
  unfold askRound
  repeat' first
    | with_reducible assumption
    | with_reducible apply sendControl_sound
    | extract_lets
    | split

theorem sendReady_sound (s : State) (g wc : Nat) (hs : Sound Q s) : Sound Q (sendReady s g wc) := by
  unfold sendReady
  repeat' first
    | with_reducible assumption
    | with_reducible apply modGroup_sound
    | with_reducible apply takeReady_sound
    | with_reducible apply sendReadyFrame_sound
    | split
    | simp only [sound_mk_iff, sound_mb_iff, sound_dram_iff, clok_mk_iff, clok_vr_iff, memok_mk_iff]

theorem evaluateRound_sound (s : State) (g : Nat) (hs : Sound Q s) : Sound Q (evaluateRound s g) := by
  unfold evaluateRound
  repeat' first
    | with_reducible assumption
    | with_reducible apply modGroup_sound
    | with_reducible apply judgeMask_sound
    | with_reducible apply sendReady_sound

theorem stopDiscard_sound (c : Cluster) (hc : ClOk c) : ClOk (stopDiscard c) := by
  unfold stopDiscard
  repeat' first
    | with_reducible assumption
    | with_reducible apply ClOk.mem
    | with_reducible apply ClOk.ftab
    | with_reducible apply And.intro
    | extract_lets
    | split
    | simp only [clok_all_iff, memok_all_iff]

theorem faultCluster_sound (s : State) (lc : Nat) (hs : Sound Q s) : Sound Q (faultCluster s lc) := by
  unfold faultCluster
  repeat' first
    | with_reducible assumption
    | with_reducible apply modCluster_sound
    | with_reducible apply stopDiscard_sound
    | intro _
    | extract_lets
    | simp only [sound_mk_iff, sound_mb_iff, sound_dram_iff, clok_mk_iff, clok_vr_iff, memok_mk_iff]

theorem refusePause_sound (s : State) (hs : Sound Q s) : Sound Q (refusePause s) := by
  unfold refusePause
  split
  · exact hs
  · refine fulfil_sound _ _ _ _ _ (countRefusal_sound _ _ ⟨hs.queue, hs.dram, hs.comp, ?_, hs.log, hs.evq, hs.long⟩)
    intro e he
    obtain ⟨x, hx, rfl⟩ := List.mem_map.1 he
    exact setHold_sound _ ⟨(hs.cl x hx).mem, (hs.cl x hx).ftab⟩

theorem stepFaulted_sound (s : State) (link : Nat) (hs : Sound Q s) : Sound Q (stepFaulted s link) := by
  unfold stepFaulted
  repeat' first
    | with_reducible assumption
    | with_reducible apply logEvent_sound
    | with_reducible apply setOp_sound
    | with_reducible apply noteInterruption_sound
    | with_reducible apply sendReady_sound
    | with_reducible apply faultCluster_sound
    | with_reducible apply refusePause_sound
    | with_reducible apply foldl_sound
    | intro _

theorem faultNoReplay_sound (s : State) (code lc detail : Nat) (hs : Sound Q s) : Sound Q (faultNoReplay s code lc detail) := by
  unfold faultNoReplay
  repeat' first
    | with_reducible assumption
    | with_reducible apply modCluster_sound
    | with_reducible apply logEvent_sound
    | with_reducible apply stepFaulted_sound
    | intro _
    | extract_lets
    | simp only [sound_mk_iff, sound_mb_iff, sound_dram_iff, clok_mk_iff, clok_vr_iff, memok_mk_iff]

theorem boundFault_sound (s : State) (lc idx lo hi : Nat) (write : Bool) (hs : Sound Q s) : Sound Q (boundFault s lc idx lo hi write) := by
  unfold boundFault
  repeat' first
    | with_reducible assumption
    | with_reducible apply faultNoReplay_sound

theorem countAperture_sound (s : State) (hs : Sound Q s) : Sound Q (countAperture s) := by
  unfold countAperture
  repeat' first
    | with_reducible assumption
    | simp only [sound_mk_iff, sound_mb_iff, sound_dram_iff, clok_mk_iff, clok_vr_iff, memok_mk_iff]

theorem hubRead_sound (s : State) (o : Nat) (hs : Sound Q s) : Sound Q ((hubRead s o).2) := by
  unfold hubRead
  repeat' first
    | with_reducible assumption
    | with_reducible apply countAperture_sound
    | split

theorem modOpx_sound (s : State) (lc : Nat) (f : Opx → Opx) (hs : Sound Q s) : Sound Q (modOpx s lc f) := by
  unfold modOpx
  repeat' first
    | with_reducible assumption
    | with_reducible apply modCluster_sound
    | intro _
    | extract_lets
    | simp only [sound_mk_iff, sound_mb_iff, sound_dram_iff, clok_mk_iff, clok_vr_iff, memok_mk_iff]

theorem opxSlip_sound (s : State) (lc : Nat) (e : QEntry) (cause x exp found addr group : Nat) (hs : Sound Q s) : Sound Q (opxSlip s lc e cause x exp found addr group) := by
  unfold opxSlip
  repeat' first
    | with_reducible assumption
    | with_reducible apply modCluster_sound
    | with_reducible apply atCycle_sound
    | with_reducible apply dropEntry_sound
    | with_reducible apply raiseSlip_sound
    | intro _

theorem runUpdates_sound (s : State) (lc : Nat) (e : QEntry) (p : PassPlan) (lo hi : Nat) (hs : Sound Q s) : Sound Q (runUpdates s lc e p lo hi) := by
  unfold runUpdates
  repeat' first
    | with_reducible assumption
    | with_reducible apply setCluster_sound
    | with_reducible apply spTouchAll_sound
    | with_reducible apply dispatch_sound
    | with_reducible apply atCycle_sound
    | with_reducible apply raiseSlip_sound
    | with_reducible apply consumePoison_sound
    | with_reducible apply Sound.cluster
    | with_reducible apply ClOk.mem
    | with_reducible apply ClOk.ftab
    | with_reducible apply And.intro
    | split
    | simp only [sound_mk_iff, sound_mb_iff, sound_dram_iff, clok_mk_iff, clok_vr_iff, memok_mk_iff]
    | simp only [clok_all_iff, memok_all_iff]

theorem slipLater_sound (s : State) (lc : Nat) (x : Option (OpxStream × OpxStream)) (hs : Sound Q s) : Sound Q (slipLater s lc x) := by
  unfold slipLater
  repeat' first
    | with_reducible assumption
    | with_reducible apply raiseSlip_sound
    | split

theorem passGo_sound (s : State) (lc : Nat) (x : OpenPass) (upto : Option Nat) (hs : Sound Q s) : Sound Q (passGo s lc x upto) := by
  unfold passGo
  repeat' first
    | with_reducible assumption
    | with_reducible apply raiseSlip_sound
    | with_reducible apply modOpx_sound
    | with_reducible apply runUpdates_sound
    | with_reducible apply slipLater_sound
    | extract_lets
    | split

theorem passIssue_sound (s : State) (lc cyc : Nat) (upto : Option Nat) (hs : Sound Q s) : Sound Q (passIssue s lc cyc upto) := by
  unfold passIssue
  repeat' first
    | with_reducible assumption
    | with_reducible apply modCluster_sound
    | with_reducible apply dispatch_sound
    | with_reducible apply atCycle_sound
    | with_reducible apply dropEntry_sound
    | with_reducible apply retire_sound
    | with_reducible apply boundFault_sound
    | with_reducible apply opxSlip_sound
    | with_reducible apply passGo_sound
    | intro _
    | extract_lets
    | split
    | simp only [sound_mk_iff, sound_mb_iff, sound_dram_iff, clok_mk_iff, clok_vr_iff, memok_mk_iff]

theorem opxPass_sound (s : State) (lc cyc : Nat) (upto : Option Nat) (hs : Sound Q s) : Sound Q (opxPass s lc cyc upto) := by
  unfold opxPass
  repeat' first
    | with_reducible assumption
    | with_reducible apply passGo_sound
    | with_reducible apply passIssue_sound
    | extract_lets
    | split

theorem raiseChecksum_sound (s : State) (lc detail : Nat) (hs : Sound Q s) : Sound Q (raiseChecksum s lc detail) := by
  unfold raiseChecksum
  repeat' first
    | with_reducible assumption
    | with_reducible apply modCluster_sound
    | with_reducible apply logEvent_sound
    | with_reducible apply stopWith_sound
    | with_reducible apply stepFaulted_sound
    | intro _
    | extract_lets
    | split
    | simp only [sound_mk_iff, sound_mb_iff, sound_dram_iff, clok_mk_iff, clok_vr_iff, memok_mk_iff]

theorem loadSlip_sound (s : State) (lc : Nat) (e : QEntry) (r : SRef) (d : Nat) (l : Option LoadRows) (hs : Sound Q s) : Sound Q (loadSlip s lc e r d l) := by
  unfold loadSlip
  repeat' first
    | with_reducible assumption
    | with_reducible apply raiseSlip_sound
    | split

theorem drainStart_sound (s : State) (lc : Nat) (e : QEntry) (d : Nat) (hs : Sound Q s) : Sound Q (drainStart s lc e d) := by
  have hc : ClOk (cluster s lc) := hs.cluster
  unfold drainStart
  extract_lets +onlyGivenNames c raw bank b r0 isInt full load slips res b1 st pz base els stw ps
  clear_value b1 st pz els stw ps res slips load full isInt b base
  split
  · exact raiseSlip_sound _ _ _ _ _ hs
  · extract_lets +onlyGivenNames nb c1 o2 v2 c2 c3 s1 s2 s3
    clear_value nb
    have h0 : MemOk (match load with | some l => spTouchAll c.mem (chunks 8 l.words) | none => c.mem) := by
      split
      · exact spTouchAll_sound _ _ hc.mem
      · exact hc.mem
    have h1 : ClOk c1 := spWriteAll_sound _ _ _ (clok_mem hc h0)
    have h2 : ClOk c2 := by
      refine ⟨h1.mem, ?_⟩
      simp only [c2, v2]
      split
      · exact h1.ftab
      · split <;> exact h1.ftab
    have h3 : ClOk c3 := by
      refine consumePoison_sound _ _ ?_
      split
      · exact h2
      · exact carry_sound _ _ h2
    have hs1 : Sound Q s1 := setCluster_sound hs (atCycle_sound _ _ h3)
    have hs2 : Sound Q s2 := by
      simp only [s2]
      split
      · exact noteUnbounded_sound _ _ _ _ hs1
      · exact hs1
    have hs3 : Sound Q s3 := by
      simp only [s3]
      split
      · exact raiseChecksum_sound _ _ _ hs2
      · exact hs2
    clear_value s3
    clear_value s2
    split
    · exact raiseSlip_sound _ _ _ _ _ hs2
    · split
      · exact hs3
      · exact loadSlip_sound _ _ _ _ _ _ hs3

theorem loadStart_sound (s : State) (lc : Nat) (e : QEntry) (d : Nat) (hs : Sound Q s) : Sound Q (loadStart s lc e d) := by
  unfold loadStart
  repeat' first
    | with_reducible assumption
    | with_reducible apply setCluster_sound
    | with_reducible apply spTouchAll_sound
    | with_reducible apply atCycle_sound
    | with_reducible apply consumePoison_sound
    | with_reducible apply loadSlip_sound
    | with_reducible apply Sound.cluster
    | with_reducible apply ClOk.mem
    | with_reducible apply ClOk.ftab
    | with_reducible apply And.intro
    | extract_lets
    | simp only [clok_all_iff, memok_all_iff]

theorem imageStart_sound (s : State) (lc : Nat) (e : QEntry) (d : Nat) (hs : Sound Q s) : Sound Q (imageStart s lc e d) := by
  unfold imageStart
  repeat' first
    | with_reducible assumption
    | with_reducible apply setCluster_sound
    | with_reducible apply modCluster_sound
    | with_reducible apply spTouchAll_sound
    | with_reducible apply atCycle_sound
    | with_reducible apply raiseSlip_sound
    | with_reducible apply consumePoison_sound
    | with_reducible apply raiseChecksum_sound
    | with_reducible apply Sound.cluster
    | with_reducible apply ClOk.mem
    | with_reducible apply ClOk.ftab
    | with_reducible apply And.intro
    | intro _
    | split
    | simp only [sound_mk_iff, sound_mb_iff, sound_dram_iff, clok_mk_iff, clok_vr_iff, memok_mk_iff]
    | simp only [clok_all_iff, memok_all_iff]

theorem saveStart_sound (s : State) (lc : Nat) (e : QEntry) (d : Nat) (hs : Sound Q s) : Sound Q (saveStart s lc e d) := by
  unfold saveStart
  repeat' first
    | with_reducible assumption
    | with_reducible apply setCluster_sound
    | with_reducible apply atCycle_sound
    | with_reducible apply raiseSlip_sound
    | with_reducible apply spWriteAll_sound
    | with_reducible apply Sound.cluster
    | extract_lets
    | split
    | simp only [sound_mk_iff, sound_mb_iff, sound_dram_iff, clok_mk_iff, clok_vr_iff, memok_mk_iff]

theorem surveyStart_sound (s : State) (lc : Nat) (e : QEntry) (d : Nat) (hs : Sound Q s) : Sound Q (surveyStart s lc e d) := by
  unfold surveyStart
  repeat' first
    | with_reducible assumption
    | with_reducible apply setCluster_sound
    | with_reducible apply atCycle_sound
    | with_reducible apply raiseChecksum_sound
    | with_reducible apply Sound.cluster
    | extract_lets
    | split
    | simp only [sound_mk_iff, sound_mb_iff, sound_dram_iff, clok_mk_iff, clok_vr_iff, memok_mk_iff]

theorem convStart_sound (s : State) (lc : Nat) (e : QEntry) (d : Nat) (hs : Sound Q s) : Sound Q (convStart s lc e d) := by
  unfold convStart
  repeat' first
    | with_reducible assumption
    | with_reducible apply modCluster_sound
    | with_reducible apply dispatch_sound
    | with_reducible apply atCycle_sound
    | with_reducible apply raiseSlip_sound
    | with_reducible apply slipLater_sound
    | with_reducible apply drainStart_sound
    | with_reducible apply loadStart_sound
    | with_reducible apply imageStart_sound
    | with_reducible apply saveStart_sound
    | with_reducible apply surveyStart_sound
    | intro _
    | split

theorem opxConv_sound (s : State) (lc cyc : Nat) (k : ConvKind) (hs : Sound Q s) : Sound Q (opxConv s lc cyc k) := by
  unfold opxConv
  repeat' first
    | with_reducible assumption
    | with_reducible apply modCluster_sound
    | with_reducible apply dispatch_sound
    | with_reducible apply atCycle_sound
    | with_reducible apply dropEntry_sound
    | with_reducible apply retire_sound
    | with_reducible apply boundFault_sound
    | with_reducible apply modOpx_sound
    | with_reducible apply opxSlip_sound
    | with_reducible apply convStart_sound
    | intro _
    | extract_lets
    | split

theorem conveyorDeferred_sound (s : State) (lc : Nat) (hs : Sound Q s) : Sound Q (conveyorDeferred s lc) := by
  unfold conveyorDeferred
  repeat' first
    | with_reducible assumption
    | with_reducible apply modOpx_sound
    | with_reducible apply convStart_sound
    | extract_lets
    | split

theorem conveyorDone_sound (s : State) (lc : Nat) (hs : Sound Q s) : Sound Q (conveyorDone s lc) := by
  unfold conveyorDone
  repeat' first
    | with_reducible assumption
    | with_reducible apply advance_sound
    | with_reducible apply atCycle_sound
    | intro _
    | split
    | simp only [sound_mk_iff, sound_mb_iff, sound_dram_iff, clok_mk_iff, clok_vr_iff, memok_mk_iff]

theorem addLost_sound (c : Cluster) (n : Nat) (hc : ClOk c) : ClOk (addLost c n) := by
  unfold addLost
  repeat' first
    | with_reducible assumption
    | extract_lets
    | split
    | simp only [sound_mk_iff, sound_mb_iff, sound_dram_iff, clok_mk_iff, clok_vr_iff, memok_mk_iff]

theorem surveyBegin_sound (s : State) (lc : Nat) (bank : Bool) (hs : Sound Q s) : Sound Q (surveyBegin s lc bank) := by
  unfold surveyBegin
  repeat' first
    | with_reducible assumption
    | with_reducible apply modCluster_sound
    | with_reducible apply setHold_sound
    | with_reducible apply addLost_sound
    | intro _
    | extract_lets
    | simp only [sound_mk_iff, sound_mb_iff, sound_dram_iff, clok_mk_iff, clok_vr_iff, memok_mk_iff]

theorem surveyEnd_sound (s : State) (lc : Nat) (bank : Bool) (hs : Sound Q s) : Sound Q (surveyEnd s lc bank) := by
  unfold surveyEnd
  repeat' first
    | with_reducible assumption
    | with_reducible apply modCluster_sound
    | with_reducible apply setHold_sound
    | with_reducible apply dispatch_sound
    | with_reducible apply raiseChecksum_sound
    | intro _
    | extract_lets
    | split
    | simp only [sound_mk_iff, sound_mb_iff, sound_dram_iff, clok_mk_iff, clok_vr_iff, memok_mk_iff]

theorem autoSurveyOp_sound (s : State) (lc : Nat) (bank : Bool) (hs : Sound Q s) : Sound Q (autoSurveyOp s lc bank) := by
  unfold autoSurveyOp
  repeat' first
    | with_reducible assumption
    | with_reducible apply surveyBegin_sound
    | with_reducible apply surveyEnd_sound
    | extract_lets
    | split

theorem arrayIdleOp_sound (s : State) (lc cyc : Nat) (hs : Sound Q s) : Sound Q (arrayIdleOp s lc cyc) := by
  unfold arrayIdleOp
  repeat' first
    | with_reducible assumption
    | with_reducible apply modCluster_sound
    | with_reducible apply atCycle_sound
    | intro _
    | extract_lets
    | split
    | simp only [sound_mk_iff, sound_mb_iff, sound_dram_iff, clok_mk_iff, clok_vr_iff, memok_mk_iff]

theorem clampOp_sound (s : State) (lc cyc ramped : Nat) (hs : Sound Q s) : Sound Q (clampOp s lc cyc ramped) := by
  unfold clampOp
  repeat' first
    | with_reducible assumption
    | with_reducible apply modCluster_sound
    | with_reducible apply setHold_sound
    | with_reducible apply addLost_sound
    | intro _
    | extract_lets
    | split
    | simp only [sound_mk_iff, sound_mb_iff, sound_dram_iff, clok_mk_iff, clok_vr_iff, memok_mk_iff]

theorem clampRampOp_sound (s : State) (lc cycles : Nat) (hs : Sound Q s) : Sound Q (clampRampOp s lc cycles) := by
  unfold clampRampOp
  repeat' first
    | with_reducible assumption
    | with_reducible apply modCluster_sound
    | with_reducible apply setHold_sound
    | with_reducible apply addLost_sound
    | intro _
    | extract_lets
    | simp only [sound_mk_iff, sound_mb_iff, sound_dram_iff, clok_mk_iff, clok_vr_iff, memok_mk_iff]

theorem clampDoneOp_sound (s : State) (lc : Nat) (hs : Sound Q s) : Sound Q (clampDoneOp s lc) := by
  unfold clampDoneOp
  repeat' first
    | with_reducible assumption
    | with_reducible apply modCluster_sound
    | with_reducible apply setHold_sound
    | with_reducible apply dispatch_sound
    | with_reducible apply addLost_sound
    | intro _
    | extract_lets
    | simp only [sound_mk_iff, sound_mb_iff, sound_dram_iff, clok_mk_iff, clok_vr_iff, memok_mk_iff]

theorem retireAt_sound (s : State) (lc q cyc : Nat) (e : QEntry) (hs : Sound Q s) : Sound Q (retireAt s lc q cyc e) := by
  unfold retireAt
  repeat' first
    | with_reducible assumption
    | with_reducible apply modCluster_sound
    | with_reducible apply atCycle_sound
    | with_reducible apply retire_sound
    | intro _

theorem openNext_sound (c : Cluster) (e : QEntry) (F : Nat) (hc : ClOk c) : ClOk (openNext c e F) := by
  unfold openNext
  repeat' first
    | with_reducible assumption
    | with_reducible apply openFrame_sound
    | extract_lets
    | split

theorem flagApply_sound (s : State) (lc : Nat) (e : QEntry) (sect loc : State → State) (hs : Sound Q s)
    (h1 : ∀ t : State, Sound Q t → Sound Q (sect t)) (h2 : ∀ t : State, Sound Q t → Sound Q (loc t)) : Sound Q (flagApply s lc e sect loc) := by
  unfold flagApply
  split
  · split
    · exact h1 _ (modCluster_sound hs (fun _ h => sfRecord_sound _ _ h))
    · exact hs
  · exact h2 _ hs

theorem lateSlip_sound (s : State) (lc q d : Nat) (e : QEntry) (hs : Sound Q s) : Sound Q (lateSlip s lc q d e) := by
  unfold lateSlip
  repeat' first
    | with_reducible assumption
    | with_reducible apply modCluster_sound
    | with_reducible apply atCycle_sound
    | with_reducible apply dropEntry_sound
    | with_reducible apply raiseSlip_sound
    | intro _

theorem flagCommand_sound (s : State) (lc q cyc op : Nat) (f : QEntry → State → State) (hs : Sound Q s)
    (hf : ∀ (e : QEntry) (t : State), Sound Q t → Sound Q (f e t)) : Sound Q (flagCommand s lc q cyc op f) := by
  unfold flagCommand
  split
  · exact advance_sound _ _ _ (hf _ _ hs) (fun c h => atCycle_sound _ _ ⟨h.mem, h.ftab⟩)
  · split
    · exact hs
    · split
      · exact lateSlip_sound _ _ _ _ _ hs
      · split
        · exact retireAt_sound _ _ _ _ _ hs
        · split
          · exact retireAt_sound _ _ _ _ _ (hf _ _ hs)
          · split
            · exact retire_sound _ _ _ _ (modCluster_sound hs (fun c h => ⟨h.mem, h.ftab⟩))
            · exact hs

theorem execFlgSet_sound (lc q cyc : Nat) (s : State) (hs : Sound Q s) : SoundR Q (execFlgSet lc q cyc s) := by
  unfold execFlgSet
  repeat' first
    | with_reducible assumption
    | with_reducible apply sfSetAt_sound
    | with_reducible apply lfSetAt_sound
    | with_reducible apply flagApply_sound
    | with_reducible apply flagCommand_sound
    | with_reducible apply soundR_next
    | intro _

theorem execFlgClr_sound (lc q cyc : Nat) (s : State) (hs : Sound Q s) : SoundR Q (execFlgClr lc q cyc s) := by
  unfold execFlgClr
  repeat' first
    | with_reducible assumption
    | with_reducible apply sfClearAt_sound
    | with_reducible apply lfClearAt_sound
    | with_reducible apply flagApply_sound
    | with_reducible apply flagCommand_sound
    | with_reducible apply soundR_next
    | intro _

theorem queueCommand_sound (s : State) (lc q cyc op : Nat) (f : QEntry → State → State) (hs : Sound Q s)
    (hf : ∀ (x0 : QEntry) (x1 : State), Sound Q x1 → Sound Q (f x0 x1)) : Sound Q (queueCommand s lc q cyc op f) := by
  unfold queueCommand
  split
  · exact hs
  · split
    · exact raiseSlip_sound _ _ _ _ _ (modCluster_sound hs (fun c h => dropEntry_sound _ _ _ (atCycle_sound _ _ h)))
    · split
      · exact hf _ _ hs
      · exact retireAt_sound _ _ _ _ _ hs

theorem execFlgWait_sound (lc q cyc : Nat) (s : State) (hs : Sound Q s) : SoundR Q (execFlgWait lc q cyc s) := by
  unfold execFlgWait
  repeat' first
    | with_reducible assumption
    | with_reducible apply modCluster_sound
    | with_reducible apply atCycle_sound
    | with_reducible apply dropEntry_sound
    | with_reducible apply retire_sound
    | with_reducible apply raiseSlip_sound
    | with_reducible apply waitNow_sound
    | with_reducible apply openNext_sound
    | with_reducible apply soundR_next
    | intro _
    | extract_lets
    | split
    | simp only [sound_mk_iff, sound_mb_iff, sound_dram_iff, clok_mk_iff, clok_vr_iff, memok_mk_iff]

theorem execFlagWaiterRelease_sound (lc q cyc : Nat) (s : State) (hs : Sound Q s) : SoundR Q (execFlagWaiterRelease lc q cyc s) := by
  unfold execFlagWaiterRelease
  repeat' first
    | with_reducible assumption
    | with_reducible apply modCluster_sound
    | with_reducible apply atCycle_sound
    | with_reducible apply retire_sound
    | with_reducible apply openNext_sound
    | with_reducible apply soundR_next
    | intro _
    | extract_lets
    | split
    | simp only [sound_mk_iff, sound_mb_iff, sound_dram_iff, clok_mk_iff, clok_vr_iff, memok_mk_iff]

theorem lossPost_sound (lc q cyc : Nat) (e : QEntry) (s : State) (hs : Sound Q s) : Sound Q (lossPost lc q cyc e s) := by
  unfold lossPost
  repeat' first
    | with_reducible assumption
    | with_reducible apply modCluster_sound
    | with_reducible apply modMonitor_sound
    | with_reducible apply spTouch_sound
    | with_reducible apply atCycle_sound
    | with_reducible apply dropEntry_sound
    | with_reducible apply raiseSlip_sound
    | with_reducible apply consumePoison_sound
    | with_reducible apply boundFault_sound
    | with_reducible apply retireAt_sound
    | with_reducible apply ClOk.mem
    | with_reducible apply ClOk.ftab
    | with_reducible apply And.intro
    | intro _
    | split
    | simp only [sound_mk_iff, sound_mb_iff, sound_dram_iff, clok_mk_iff, clok_vr_iff, memok_mk_iff]
    | simp only [clok_all_iff, memok_all_iff]

theorem execLossPost_sound (lc q cyc : Nat) (s : State) (hs : Sound Q s) : SoundR Q (execLossPost lc q cyc s) := by
  unfold execLossPost
  repeat' first
    | with_reducible assumption
    | with_reducible apply queueCommand_sound
    | with_reducible apply lossPost_sound
    | with_reducible apply soundR_next

theorem releaseHandle_sound (s : State) (h : Handle) (hs : Sound Q s) : Sound Q (releaseHandle s h) := by
  unfold releaseHandle
  repeat' first
    | with_reducible assumption
    | with_reducible apply modVt_sound
    | split

theorem setHandle_sound (s : State) (lc h : Nat) (x : Handle) (hs : Sound Q s) : Sound Q (setHandle s lc h x) := by
  unfold setHandle
  repeat' first
    | with_reducible assumption
    | with_reducible apply modCluster_sound
    | intro _
    | extract_lets
    | simp only [sound_mk_iff, sound_mb_iff, sound_dram_iff, clok_mk_iff, clok_vr_iff, memok_mk_iff]

theorem handleDefect_sound (s : State) (lc : Nat) (e : QEntry) (hs : Sound Q s) : Sound Q (handleDefect s lc e) := by
  unfold handleDefect
  repeat' first
    | with_reducible assumption
    | with_reducible apply logDefect_sound

theorem takeHold_sound (s : State) (lc : Nat) (e : QEntry) (hs : Sound Q s) : Sound Q (takeHold s lc e) := by
  unfold takeHold
  repeat' first
    | with_reducible assumption
    | with_reducible apply modCluster_sound
    | with_reducible apply modVt_sound
    | with_reducible apply releaseHandle_sound
    | with_reducible apply setHandle_sound
    | with_reducible apply handleDefect_sound
    | intro _
    | split
    | simp only [sound_mk_iff, sound_mb_iff, sound_dram_iff, clok_mk_iff, clok_vr_iff, memok_mk_iff]

theorem execVerHold_sound (lc q cyc : Nat) (s : State) (hs : Sound Q s) : SoundR Q (execVerHold lc q cyc s) := by
  unfold execVerHold
  repeat' first
    | with_reducible assumption
    | with_reducible apply retireAt_sound
    | with_reducible apply queueCommand_sound
    | with_reducible apply takeHold_sound
    | with_reducible apply soundR_next
    | intro _

theorem dropHold_sound (s : State) (lc : Nat) (e : QEntry) (hs : Sound Q s) : Sound Q (dropHold s lc e) := by
  unfold dropHold
  repeat' first
    | with_reducible assumption
    | with_reducible apply setHandle_sound
    | with_reducible apply handleDefect_sound
    | extract_lets
    | split

theorem execVerDrop_sound (lc q cyc : Nat) (s : State) (hs : Sound Q s) : SoundR Q (execVerDrop lc q cyc s) := by
  unfold execVerDrop
  repeat' first
    | with_reducible assumption
    | with_reducible apply retireAt_sound
    | with_reducible apply queueCommand_sound
    | with_reducible apply dropHold_sound
    | with_reducible apply soundR_next
    | intro _

theorem execCommitReady_sound (lc q cyc : Nat) (s : State) (hs : Sound Q s) : SoundR Q (execCommitReady lc q cyc s) := by
  unfold execCommitReady
  repeat' first
    | with_reducible assumption
    | with_reducible apply modCluster_sound
    | with_reducible apply flagCommand_sound
    | with_reducible apply soundR_next
    | intro _
    | extract_lets
    | simp only [sound_mk_iff, sound_mb_iff, sound_dram_iff, clok_mk_iff, clok_vr_iff, memok_mk_iff]

theorem logWaits_sound (s : State) (n i : Nat) (l : List (Nat × Nat × QEntry)) (hs : Sound Q s) : Sound Q (logWaits s n i l) := by
  induction l generalizing s i with
  | nil => exact hs
  | cons a r ih =>
    obtain ⟨lc, q, e⟩ := a
    unfold logWaits
    dsimp only
    split
    · exact ih _ _ (logEvent_sound _ _ _ _ _ _ _ hs)
    · exact ih _ _ (logOnly_sound _ _ _ _ _ _ _ hs)

theorem dropBanks_sound (c : Cluster) (hc : ClOk c) : ClOk (dropBanks c) := by
  unfold dropBanks
  repeat' first
    | with_reducible assumption
    | with_reducible apply setHold_sound
    | extract_lets
    | simp only [sound_mk_iff, sound_mb_iff, sound_dram_iff, clok_mk_iff, clok_vr_iff, memok_mk_iff]

theorem execFlagDeadlock_sound (sec group : Nat) (s : State) (hs : Sound Q s) : SoundR Q (execFlagDeadlock sec group s) := by
  unfold execFlagDeadlock
  repeat' first
    | with_reducible assumption
    | with_reducible apply modCluster_sound
    | with_reducible apply modSection_sound
    | with_reducible apply logWaits_sound
    | with_reducible apply dropBanks_sound
    | with_reducible apply soundR_next
    | with_reducible apply foldl_sound
    | intro _
    | extract_lets
    | split

theorem scalar_sound (s : State) (lc op : Nat) (f : Nat → Cluster → Cluster) (hs : Sound Q s)
    (hf : ∀ (x : Nat) (c : Cluster), ClOk c → ClOk (f x c)) : Sound Q (scalar s lc op f) := by
  unfold scalar
  split
  · exact hs
  · refine advance_sound _ _ _ hs (fun c h => ?_)
    dsimp only
    split
    · exact clok_mk (hf _ _ h)
    · exact clok_mk h

theorem setCnt_sound (c : Cluster) (n v : Nat) (hc : ClOk c) : ClOk (setCnt c n v) := by
  unfold setCnt
  repeat' first
    | with_reducible assumption
    | extract_lets
    | simp only [sound_mk_iff, sound_mb_iff, sound_dram_iff, clok_mk_iff, clok_vr_iff, memok_mk_iff]

theorem setPrm_sound (c : Cluster) (n v : Nat) (hc : ClOk c) : ClOk (setPrm c n v) := by
  unfold setPrm
  repeat' first
    | with_reducible assumption
    | extract_lets
    | split
    | simp only [sound_mk_iff, sound_mb_iff, sound_dram_iff, clok_mk_iff, clok_vr_iff, memok_mk_iff]

theorem execCntSet_sound (lc : Nat) (s : State) (hs : Sound Q s) : SoundR Q (execCntSet lc s) := by
  unfold execCntSet
  repeat' first
    | with_reducible assumption
    | with_reducible apply scalar_sound
    | with_reducible apply setCnt_sound
    | with_reducible apply soundR_next
    | intro _

theorem execCntAdd_sound (lc : Nat) (s : State) (hs : Sound Q s) : SoundR Q (execCntAdd lc s) := by
  unfold execCntAdd
  repeat' first
    | with_reducible assumption
    | with_reducible apply scalar_sound
    | with_reducible apply setCnt_sound
    | with_reducible apply soundR_next
    | intro _

theorem takeLoop_sound (raw : Nat) (c : Cluster) (hc : ClOk c) : ClOk (takeLoop raw c) := by
  unfold takeLoop
  repeat' first
    | with_reducible assumption
    | extract_lets
    | simp only [sound_mk_iff, sound_mb_iff, sound_dram_iff, clok_mk_iff, clok_vr_iff, memok_mk_iff]

theorem leaveLoop_sound (c : Cluster) (hc : ClOk c) : ClOk (leaveLoop c) := by
  unfold leaveLoop
  repeat' first
    | with_reducible assumption
    | extract_lets
    | split
    | simp only [sound_mk_iff, sound_mb_iff, sound_dram_iff, clok_mk_iff, clok_vr_iff, memok_mk_iff]

theorem execCntLoop_sound (lc : Nat) (s : State) (hs : Sound Q s) : SoundR Q (execCntLoop lc s) := by
  unfold execCntLoop
  repeat' first
    | with_reducible assumption
    | with_reducible apply advance_sound
    | with_reducible apply setCnt_sound
    | with_reducible apply takeLoop_sound
    | with_reducible apply leaveLoop_sound
    | with_reducible apply soundR_next
    | intro _
    | split
    | simp only [sound_mk_iff, sound_mb_iff, sound_dram_iff, clok_mk_iff, clok_vr_iff, memok_mk_iff]

theorem execCmpSet_sound (lc : Nat) (s : State) (hs : Sound Q s) : SoundR Q (execCmpSet lc s) := by
  unfold execCmpSet
  repeat' first
    | with_reducible assumption
    | with_reducible apply scalar_sound
    | with_reducible apply soundR_next
    | intro _
    | extract_lets
    | split
    | simp only [sound_mk_iff, sound_mb_iff, sound_dram_iff, clok_mk_iff, clok_vr_iff, memok_mk_iff]

theorem execPrmMov_sound (lc : Nat) (s : State) (hs : Sound Q s) : SoundR Q (execPrmMov lc s) := by
  unfold execPrmMov
  repeat' first
    | with_reducible assumption
    | with_reducible apply scalar_sound
    | with_reducible apply setPrm_sound
    | with_reducible apply soundR_next
    | intro _

theorem execPrmAdd_sound (lc : Nat) (s : State) (hs : Sound Q s) : SoundR Q (execPrmAdd lc s) := by
  unfold execPrmAdd
  repeat' first
    | with_reducible assumption
    | with_reducible apply scalar_sound
    | with_reducible apply setPrm_sound
    | with_reducible apply soundR_next
    | intro _

end Sys2Proof.Machine
end

