-- ==== Sys2Proof/Laws/SoundRecovery.lean ====
section
/-! SUPPORT. What `Sound` says of records, replay, siding moves, monitors and banks: each operation keeps it. -/

set_option linter.unusedSimpArgs false
set_option linter.unusedTactic false

namespace Sys2Proof.Machine

variable {Q : List Instr}

theorem reloadPart_sound (s : State) (lc : Nat) (hs : Sound Q s) : SoundO Q (reloadPart s lc).1 ∧ Sound Q (reloadPart s lc).2 := by
  have h := devRead_sound _ (spGet 0 s.prog.parts lc) (partLen (cluster s lc).seq.hdr.cmdN)
    (chargeDev_sound s (secOf lc) 7 (spGet 0 s.prog.parts lc) (partLen (cluster s lc).seq.hdr.cmdN) false hs)
  unfold reloadPart
  dsimp only
  split
  · exact ⟨soundO_some (modMem_sound _ _ _ h (fun m hm => ⟨hm.sp, hm.side, memWrite_wf rfl⟩)), h⟩
  · exact ⟨soundO_none, h⟩

theorem restoreRecord_sound (c : Cluster) (l : List Byte) (hc : ClOk c) : ClOk (restoreRecord c l) := by
  unfold restoreRecord
  repeat' first
    | with_reducible assumption
    | extract_lets
    | simp only [sound_mk_iff, sound_mb_iff, sound_dram_iff, clok_mk_iff, clok_vr_iff, memok_mk_iff]

theorem applyStaged_sound (c : Cluster) (hc : ClOk c) : ClOk (applyStaged c) := by
  unfold applyStaged
  repeat' first
    | with_reducible assumption
    | with_reducible apply setPrm_sound
    | with_reducible apply foldl_clok
    | intro _
    | extract_lets
    | split
    | simp only [sound_mk_iff, sound_mb_iff, sound_dram_iff, clok_mk_iff, clok_vr_iff, memok_mk_iff]

theorem prepareScratch_sound (c : Cluster) (kept : Nat → Bool) (hc : ClOk c) : ClOk (prepareScratch c kept) := by
  unfold prepareScratch
  repeat' first
    | with_reducible assumption
    | with_reducible apply ClOk.mem
    | with_reducible apply ClOk.ftab
    | with_reducible apply MemOk.sp
    | with_reducible apply MemOk.side
    | with_reducible apply MemOk.seqm
    | with_reducible apply And.intro
    | extract_lets
    | simp only [clok_all_iff, memok_all_iff]

theorem clearTrvs_sound (c : Cluster) (hc : ClOk c) : ClOk (clearTrvs c) := by
  unfold clearTrvs
  repeat' first
    | with_reducible assumption
    | simp only [sound_mk_iff, sound_mb_iff, sound_dram_iff, clok_mk_iff, clok_vr_iff, memok_mk_iff]

theorem resetBanks_sound (c : Cluster) (fresh : Bool) (hc : ClOk c) : ClOk (resetBanks c fresh) := by
  unfold resetBanks
  repeat' first
    | with_reducible assumption
    | extract_lets
    | simp only [sound_mk_iff, sound_mb_iff, sound_dram_iff, clok_mk_iff, clok_vr_iff, memok_mk_iff]

theorem discardWork_sound (c : Cluster) (hc : ClOk c) : ClOk (discardWork c) := by
  unfold discardWork
  repeat' first
    | with_reducible assumption
    | with_reducible apply stopDiscard_sound
    | with_reducible apply clearTrvs_sound
    | with_reducible apply resetBanks_sound

theorem beginAt_sound (c : Cluster) (F : Nat) (hc : ClOk c) : ClOk (beginAt c F) := by
  unfold beginAt
  repeat' first
    | with_reducible assumption
    | with_reducible apply openBoth_sound
    | with_reducible apply atCycle_sound
    | with_reducible apply ClOk.mem
    | with_reducible apply ClOk.ftab
    | with_reducible apply MemOk.sp
    | with_reducible apply MemOk.side
    | with_reducible apply MemOk.seqm
    | with_reducible apply And.intro
    | extract_lets
    | simp only [clok_all_iff, memok_all_iff]

theorem findRecord_sound (s : State) (lc : Nat) (hs : Sound Q s) : Sound Q ((findRecord s lc).2) := by
  unfold findRecord
  repeat' first
    | with_reducible assumption
    | with_reducible apply logOnly_sound
    | with_reducible apply devRead_sound
    | with_reducible apply chargeDev_sound
    | extract_lets
    | split

theorem faultNoDatum_sound (s : State) (lc : Nat) (hs : Sound Q s) : Sound Q (faultNoDatum s lc) := by
  unfold faultNoDatum
  repeat' first
    | with_reducible assumption
    | with_reducible apply logEvent_sound
    | with_reducible apply stepFaulted_sound

theorem restoreHandles_sound (s : State) (lc : Nat) (l : List Byte) (latest : Bool) (hs : Sound Q s) : Sound Q (restoreHandles s lc l latest) := by
  unfold restoreHandles
  repeat' first
    | with_reducible assumption
    | with_reducible apply modVt_sound
    | with_reducible apply releaseHandle_sound
    | with_reducible apply setHandle_sound
    | with_reducible apply foldl_sound
    | intro _
    | split
    | simp only [sound_mk_iff, sound_mb_iff, sound_dram_iff, clok_mk_iff, clok_vr_iff, memok_mk_iff]

theorem replayCluster_sound (s : State) (lc cyc : Nat) (conservative : Bool) (g : Nat) (hs : Sound Q s) :
    Sound Q (replayCluster s lc cyc conservative g) := by
  have h := findRecord_sound s lc hs
  unfold replayCluster
  split
  · rename_i t ht
    rw [ht] at h
    exact faultNoDatum_sound _ _ h
  · rename_i l slot t ht
    rw [ht] at h
    refine dispatch_sound _ _ (sound_mk (modCluster_sound (restoreHandles_sound _ _ _ _ h) (fun c hc => ?_)))
    refine beginAt_sound _ _ (applyStaged_sound _ (clok_mk ?_))
    exact restoreRecord_sound _ _ (prepareScratch_sound _ _ (setHold_sound _ ⟨(discardWork_sound _ hc).mem, (discardWork_sound _ hc).ftab⟩))

theorem startCluster_sound (s : State) (lc : Nat) (hs : Sound Q s) : Sound Q (startCluster s lc) := by
  unfold startCluster
  repeat' first
    | with_reducible assumption
    | with_reducible apply modCluster_sound
    | with_reducible apply dispatch_sound
    | with_reducible apply applyStaged_sound
    | with_reducible apply prepareScratch_sound
    | with_reducible apply discardWork_sound
    | with_reducible apply beginAt_sound
    | with_reducible apply ClOk.mem
    | with_reducible apply ClOk.ftab
    | with_reducible apply MemOk.sp
    | with_reducible apply MemOk.side
    | with_reducible apply MemOk.seqm
    | with_reducible apply And.intro
    | intro _
    | extract_lets
    | simp only [clok_all_iff, memok_all_iff]

theorem stopAtStep_sound (s : State) (lc : Nat) (hs : Sound Q s) : Sound Q (stopAtStep s lc) := by
  unfold stopAtStep
  repeat' first
    | with_reducible assumption
    | with_reducible apply modCluster_sound
    | with_reducible apply setOp_sound
    | with_reducible apply refusePause_sound
    | intro _
    | split
    | simp only [sound_mk_iff, sound_mb_iff, sound_dram_iff, clok_mk_iff, clok_vr_iff, memok_mk_iff]

theorem postPoison_sound (s : State) (lc cls : Nat) (hs : Sound Q s) : Sound Q (postPoison s lc cls) := by
  unfold postPoison
  repeat' first
    | with_reducible assumption
    | with_reducible apply modCluster_sound
    | with_reducible apply logEvent_sound
    | intro _
    | extract_lets
    | simp only [sound_mk_iff, sound_mb_iff, sound_dram_iff, clok_mk_iff, clok_vr_iff, memok_mk_iff]

theorem writeRecord_sound (s : State) (lc : Nat) (raw : Nat) (hs : Sound Q s) : Sound Q (writeRecord s lc raw) := by
  unfold writeRecord
  repeat' first
    | with_reducible assumption
    | with_reducible apply modCluster_sound
    | with_reducible apply devWrite_sound
    | with_reducible apply chargeDev_sound
    | with_reducible apply noteUnmapped_sound
    | with_reducible apply applyStaged_sound
    | intro _
    | extract_lets
    | simp only [sound_mk_iff, sound_mb_iff, sound_dram_iff, clok_mk_iff, clok_vr_iff, memok_mk_iff]

theorem beginProbe_sound (s : State) (lc : Nat) (hs : Sound Q s) : Sound Q (beginProbe s lc) := by
  unfold beginProbe
  repeat' first
    | with_reducible assumption
    | with_reducible apply modCluster_sound
    | with_reducible apply setHold_sound
    | with_reducible apply stopDiscard_sound
    | with_reducible apply resetBanks_sound
    | intro _
    | extract_lets
    | simp only [sound_mk_iff, sound_mb_iff, sound_dram_iff, clok_mk_iff, clok_vr_iff, memok_mk_iff]

theorem recordWhen_sound (s t : State) (lc : Nat) (raw : Nat) (hs : Sound Q s) (ht : Sound Q t) : SoundR Q (recordWhen s t lc raw) := by
  unfold recordWhen
  repeat' first
    | with_reducible assumption
    | with_reducible apply gate_sound
    | with_reducible apply writeRecord_sound
    | with_reducible apply soundR_next
    | extract_lets
    | split

theorem execDatum_sound (lc : Nat) (s : State) (hs : Sound Q s) : SoundR Q (execDatum lc s) := by
  unfold execDatum
  repeat' first
    | with_reducible assumption
    | with_reducible apply modCluster_sound
    | with_reducible apply advance_sound
    | with_reducible apply stopWith_sound
    | with_reducible apply stopAtStep_sound
    | with_reducible apply postPoison_sound
    | with_reducible apply beginProbe_sound
    | with_reducible apply recordWhen_sound
    | with_reducible apply soundR_next
    | intro _
    | extract_lets
    | split
    | simp only [sound_mk_iff, sound_mb_iff, sound_dram_iff, clok_mk_iff, clok_vr_iff, memok_mk_iff]

theorem releaseMarked_sound (s : State) (lc : Nat) (hs : Sound Q s) : Sound Q (releaseMarked s lc) := by
  unfold releaseMarked
  repeat' first
    | with_reducible assumption
    | with_reducible apply releaseHandle_sound
    | with_reducible apply setHandle_sound
    | with_reducible apply foldl_sound
    | intro _
    | extract_lets
    | split

theorem countReadies_sound (s : State) (lc : Nat) (hs : Sound Q s) : Sound Q (countReadies s lc) := by
  unfold countReadies
  repeat' first
    | with_reducible assumption
    | with_reducible apply modCluster_sound
    | with_reducible apply modGroup_sound
    | with_reducible apply evaluateRound_sound
    | with_reducible apply foldl_sound
    | intro _
    | extract_lets
    | split
    | simp only [sound_mk_iff, sound_mb_iff, sound_dram_iff, clok_mk_iff, clok_vr_iff, memok_mk_iff]

theorem marchScratch_sound (m : ClMem) (mask : Nat) (hm : MemOk m) : MemOk (marchScratch m mask) := by
  unfold marchScratch
  repeat' first
    | with_reducible assumption
    | with_reducible apply memKeep_wf
    | with_reducible apply MemOk.sp
    | with_reducible apply MemOk.side
    | with_reducible apply MemOk.seqm
    | with_reducible apply And.intro
    | extract_lets
    | simp only [clok_all_iff, memok_all_iff]

theorem noteMarch_sound (m : ClMem) (alg : Nat) (fail : Option (Nat × Nat × Nat)) (hm : MemOk m) : MemOk (noteMarch m alg fail) := by
  unfold noteMarch
  repeat' first
    | with_reducible assumption
    | simp only [sound_mk_iff, sound_mb_iff, sound_dram_iff, clok_mk_iff, clok_vr_iff, memok_mk_iff]

theorem poisonFailed_sound (c : ClMem) (alg : Nat) (fail : Option (Nat × Nat × Nat)) (hc : MemOk c) : MemOk (poisonFailed c alg fail) := by
  unfold poisonFailed
  repeat' first
    | with_reducible assumption
    | extract_lets
    | split
    | simp only [sound_mk_iff, sound_mb_iff, sound_dram_iff, clok_mk_iff, clok_vr_iff, memok_mk_iff]

theorem runTests_sound (m : ClMem) (mask : Nat) (both : Bool) (fail : Option (Nat × Nat × Nat)) (hm : MemOk m) : MemOk (runTests m mask both fail) := by
  unfold runTests
  repeat' first
    | with_reducible assumption
    | with_reducible apply marchScratch_sound
    | with_reducible apply noteMarch_sound
    | with_reducible apply poisonFailed_sound
    | extract_lets
    | split
    | simp only [sound_mk_iff, sound_mb_iff, sound_dram_iff, clok_mk_iff, clok_vr_iff, memok_mk_iff]

theorem closeInterval_sound (c : Cluster) (step : Bool) (hc : ClOk c) : ClOk (closeInterval c step) := by
  unfold closeInterval
  repeat' first
    | with_reducible assumption
    | with_reducible apply clearTrvs_sound
    | with_reducible apply resetBanks_sound
    | with_reducible apply ClOk.mem
    | with_reducible apply ClOk.ftab
    | with_reducible apply And.intro
    | extract_lets
    | split
    | simp only [clok_all_iff, memok_all_iff]

theorem marchDatum_sound (m : ClMem) (fail : Option (Nat × Nat × Nat)) (hm : MemOk m) : MemOk (marchDatum m fail) := by
  unfold marchDatum
  repeat' first
    | with_reducible assumption
    | with_reducible apply runTests_sound
    | extract_lets
    | simp only [sound_mk_iff, sound_mb_iff, sound_dram_iff, clok_mk_iff, clok_vr_iff, memok_mk_iff]

theorem execDatumRecordAck_sound (lc cyc : Nat) (march : Option (Nat × Nat × Nat)) (s : State) (hs : Sound Q s) : SoundR Q (execDatumRecordAck lc cyc march s) := by
  unfold execDatumRecordAck
  repeat' first
    | with_reducible assumption
    | with_reducible apply modCluster_sound
    | with_reducible apply dispatch_sound
    | with_reducible apply stopWith_sound
    | with_reducible apply beginAt_sound
    | with_reducible apply releaseMarked_sound
    | with_reducible apply countReadies_sound
    | with_reducible apply closeInterval_sound
    | with_reducible apply marchDatum_sound
    | with_reducible apply soundR_next
    | with_reducible apply ClOk.mem
    | with_reducible apply ClOk.ftab
    | with_reducible apply And.intro
    | intro _
    | split
    | simp only [sound_mk_iff, sound_mb_iff, sound_dram_iff, clok_mk_iff, clok_vr_iff, memok_mk_iff]
    | simp only [clok_all_iff, memok_all_iff]

theorem execSync_sound (lc : Nat) (s : State) (hs : Sound Q s) : SoundR Q (execSync lc s) := by
  unfold execSync
  repeat' first
    | with_reducible assumption
    | with_reducible apply modCluster_sound
    | with_reducible apply advance_sound
    | with_reducible apply soundR_next
    | intro _
    | extract_lets
    | split
    | simp only [sound_mk_iff, sound_mb_iff, sound_dram_iff, clok_mk_iff, clok_vr_iff, memok_mk_iff]

theorem openSync_sound (s : State) (n : Nat) (cycs : List (Nat × Nat)) (hs : Sound Q s) : Sound Q (openSync s n cycs) := by
  unfold openSync
  repeat' first
    | with_reducible assumption
    | with_reducible apply modCluster_sound
    | with_reducible apply dispatch_sound
    | with_reducible apply openBoth_sound
    | with_reducible apply atCycle_sound
    | with_reducible apply foldl_sound
    | intro _
    | extract_lets
    | split
    | simp only [sound_mk_iff, sound_mb_iff, sound_dram_iff, clok_mk_iff, clok_vr_iff, memok_mk_iff]

theorem execSyncComplete_sound (ordinal : Nat) (cycs : List (Nat × Nat)) (s : State) (hs : Sound Q s) : SoundR Q (execSyncComplete ordinal cycs s) := by
  unfold execSyncComplete
  repeat' first
    | with_reducible assumption
    | with_reducible apply openSync_sound
    | with_reducible apply soundR_next
    | split
    | simp only [sound_mk_iff, sound_mb_iff, sound_dram_iff, clok_mk_iff, clok_vr_iff, memok_mk_iff]

theorem execSyncTimeout_sound (ordinal : Nat) (s : State) (hs : Sound Q s) : SoundR Q (execSyncTimeout ordinal s) := by
  unfold execSyncTimeout
  repeat' first
    | with_reducible assumption
    | with_reducible apply logEvent_sound
    | with_reducible apply soundR_next
    | extract_lets
    | split
    | simp only [sound_mk_iff, sound_mb_iff, sound_dram_iff, clok_mk_iff, clok_vr_iff, memok_mk_iff]

theorem modPower_sound (s : State) (f : Power → Power) (hs : Sound Q s) : Sound Q (modPower s f) := by
  unfold modPower
  repeat' first
    | with_reducible assumption
    | simp only [sound_mk_iff, sound_mb_iff, sound_dram_iff, clok_mk_iff, clok_vr_iff, memok_mk_iff]

theorem sampleSet_sound (s : State) (hs : Sound Q s) : Sound Q (sampleSet s) := by
  unfold sampleSet
  repeat' first
    | with_reducible assumption
    | extract_lets
    | simp only [sound_mk_iff, sound_mb_iff, sound_dram_iff, clok_mk_iff, clok_vr_iff, memok_mk_iff]

theorem sampleOnChange_sound (a b : State) (ha : Sound Q a) (hb : Sound Q b) : Sound Q (sampleOnChange a b) := by
  unfold sampleOnChange
  repeat' first
    | with_reducible assumption
    | with_reducible apply sampleSet_sound
    | split

theorem clampSlower_sound (s : State) (k : Nat) (hs : Sound Q s) : Sound Q (clampSlower s k) := by
  unfold clampSlower
  repeat' first
    | with_reducible assumption
    | with_reducible apply refreshPowerAlert_sound
    | with_reducible apply modPower_sound

theorem clampRelease_sound (s : State) (hs : Sound Q s) : Sound Q (clampRelease s) := by
  unfold clampRelease
  repeat' first
    | with_reducible assumption
    | with_reducible apply modPower_sound
    | with_reducible apply foldl_sound
    | intro _
    | extract_lets
    | split

theorem powerSampleOp_sound (s : State) (r : PowerReading) (hs : Sound Q s) : Sound Q (powerSampleOp s r) := by
  unfold powerSampleOp
  repeat' first
    | with_reducible assumption
    | with_reducible apply logEvent_sound
    | with_reducible apply refreshPowerAlert_sound
    | with_reducible apply modPower_sound
    | with_reducible apply clampRelease_sound
    | extract_lets
    | split

theorem setThermal_sound (s : State) (k l : Nat) (hs : Sound Q s) : Sound Q (setThermal s k l) := by
  unfold setThermal
  repeat' first
    | with_reducible assumption
    | with_reducible apply modPower_sound

theorem thermalStep_sound (s : State) (n : Nat) (hs : Sound Q s) : Sound Q (thermalStep s n) := by
  unfold thermalStep
  repeat' first
    | with_reducible assumption
    | with_reducible apply refreshPowerAlert_sound
    | with_reducible apply modPower_sound
    | with_reducible apply setThermal_sound
    | with_reducible apply foldl_sound
    | intro _
    | extract_lets
    | split
    | simp only [sound_mk_iff, sound_mb_iff, sound_dram_iff, clok_mk_iff, clok_vr_iff, memok_mk_iff]

theorem enterSafe_sound (s : State) (unit cause : Nat) (hs : Sound Q s) : Sound Q (enterSafe s unit cause) := by
  unfold enterSafe
  repeat' first
    | with_reducible assumption
    | with_reducible apply modStk_sound
    | with_reducible apply logEvent_sound
    | with_reducible apply setAlert_sound
    | with_reducible apply setOp_sound
    | with_reducible apply refusePause_sound
    | with_reducible apply foldl_sound
    | intro _
    | extract_lets
    | split
    | simp only [sound_mk_iff, sound_mb_iff, sound_dram_iff, clok_mk_iff, clok_vr_iff, memok_mk_iff]

theorem execLockstepMismatch_sound (unit : Nat) (s : State) (hs : Sound Q s) : SoundR Q (execLockstepMismatch unit s) := by
  unfold execLockstepMismatch
  repeat' first
    | with_reducible assumption
    | with_reducible apply enterSafe_sound
    | with_reducible apply soundR_next
    | split
    | simp only [sound_mk_iff, sound_mb_iff, sound_dram_iff, clok_mk_iff, clok_vr_iff, memok_mk_iff]

theorem execInputOvervoltage_sound (s : State) (hs : Sound Q s) : SoundR Q (execInputOvervoltage s) := by
  unfold execInputOvervoltage
  repeat' first
    | with_reducible assumption
    | with_reducible apply enterSafe_sound
    | with_reducible apply soundR_next

theorem sidingMem_sound (c : Cluster) (hc : ClOk c) : MemOk (sidingMem c) := by
  unfold sidingMem
  extract_lets kept read m
  have hm : MemOk m := foldl_memok hc.mem (fun _ _ h => eccRead_sound _ _ _ _ h)
  clear_value m
  exact ⟨memKeep_wf (p := fun a => kept (a / 64)) hm.sp, rfl, hm.seqm⟩

theorem setLc_sound (s : State) (lc : Nat) (f : LcEntry → LcEntry) (hs : Sound Q s) : Sound Q (setLc s lc f) := sound_mk hs

theorem loadFtab_wf (s : State) (lc : Nat) : Memory.wf (loadFtab s lc).1 = true := by
  unfold loadFtab
  split
  · rfl
  · exact memWrite_wf rfl

theorem loadFtab_sound (s : State) (lc : Nat) (hs : Sound Q s) : Sound Q (loadFtab s lc).2 := by
  unfold loadFtab
  split
  · exact hs
  · exact devRead_sound _ _ _ (chargeDev_sound _ _ _ _ _ _ hs)

theorem moveCluster_sound (s : State) (lc cyc : Nat) (marchFail : Option (Nat × Nat × Nat)) (hs : Sound Q s) :
    Sound Q (moveCluster s lc cyc marchFail) := by
  have h := reloadPart_sound s lc hs
  unfold moveCluster
  extract_lets +onlyGivenNames k c old
  split
  · exact stepFaulted_sound _ _ (setLc_sound _ _ _ (sound_mk hs))
  · split
    · rename_i t ht
      rw [ht] at h
      exact stepFaulted_sound _ _ h.2
    · rename_i t u ht
      rw [ht] at h
      have h1 : Sound Q t := h.1 t rfl
      extract_lets +onlyGivenNames ft s1 s2 s3 s4 m5 s5 s6 s7 s8
      have hft : Memory.wf ft.1 = true := loadFtab_wf t lc
      have hs1 : Sound Q s1 := modCluster_sound (loadFtab_sound t lc h1) (fun c hc => by
        split
        · exact ⟨runTests_sound c.mem (2 ^ 64 - 1) true marchFail hc.mem, hc.ftab⟩
        · exact hc)
      have hs2 : Sound Q s2 := modCluster_sound hs1 (fun c hc => ⟨sidingMem_sound _ hc, hft⟩)
      have hs3 : Sound Q s3 := modMem_sound _ _ _ hs2 (fun m hm => by
        split
        · exact memok_mk (noteMarch_sound _ _ _ (noteMarch_sound _ _ _ hm))
        · split
          · exact noteMarch_sound _ _ _ hm
          · exact hm)
      have hs4 : Sound Q s4 := setLc_sound _ _ _ hs3
      have hs5 : Sound Q s5 := sound_mk hs4
      have hs6 : Sound Q s6 := logEvent_sound _ _ _ _ _ _ _ hs5
      clear_value s6
      have hs7 : Sound Q s7 := by
        simp only [s7]
        split
        · exact logOnly_sound _ _ _ _ _ _ _ hs6
        · exact hs6
      exact replayCluster_sound _ _ _ _ _ (modCluster_sound hs7 (fun c hc => clok_mk hc))

theorem execSidingMove_sound (lc cyc : Nat) (marchFail : Option (Nat × Nat × Nat)) (s : State) (hs : Sound Q s) : SoundR Q (execSidingMove lc cyc marchFail s) := by
  unfold execSidingMove
  repeat' first
    | with_reducible assumption
    | with_reducible apply gate_sound
    | with_reducible apply moveCluster_sound
    | with_reducible apply soundR_next
    | extract_lets
    | split

theorem execPaceLag_sound (lc : Nat) (s : State) (hs : Sound Q s) : SoundR Q (execPaceLag lc s) := by
  unfold execPaceLag
  repeat' first
    | with_reducible assumption
    | with_reducible apply modCluster_sound
    | with_reducible apply logEvent_sound
    | with_reducible apply soundR_next
    | intro _
    | extract_lets
    | split
    | simp only [sound_mk_iff, sound_mb_iff, sound_dram_iff, clok_mk_iff, clok_vr_iff, memok_mk_iff]

theorem reformPieces_sound (s : State) (sec : Nat) (hs : Sound Q s) : Sound Q (reformPieces s sec) := by
  unfold reformPieces
  repeat' first
    | with_reducible assumption
    | with_reducible apply modPort_sound
    | with_reducible apply foldl_sound
    | intro _

theorem execMonitorTrip_sound (sec : Nat) (kind : Bool) (value : BitVec 32) (s : State) (hs : Sound Q s) : SoundR Q (execMonitorTrip sec kind value s) := by
  unfold execMonitorTrip
  repeat' first
    | with_reducible assumption
    | with_reducible apply modSection_sound
    | with_reducible apply logEvent_sound
    | with_reducible apply stopWith_sound
    | with_reducible apply enterSafe_sound
    | with_reducible apply reformPieces_sound
    | with_reducible apply soundR_next
    | with_reducible apply foldl_sound
    | intro _
    | extract_lets
    | split

theorem execMonitorRecovered_sound (sec : Nat) (s : State) (hs : Sound Q s) : SoundR Q (execMonitorRecovered sec s) := by
  unfold execMonitorRecovered
  repeat' first
    | with_reducible assumption
    | with_reducible apply modSection_sound
    | with_reducible apply soundR_next
    | split

theorem abandonCkpt_sound (s : State) (hs : Sound Q s) : Sound Q (abandonCkpt s) := by
  unfold abandonCkpt
  repeat' first
    | with_reducible assumption
    | with_reducible apply modCkpt_sound
    | with_reducible apply postCkptFailed_sound
    | extract_lets
    | split
    | simp only [sound_mk_iff, sound_mb_iff, sound_dram_iff, clok_mk_iff, clok_vr_iff, memok_mk_iff]

theorem askDecisions_sound (s : State) (hs : Sound Q s) : Sound Q (askDecisions s) := by
  unfold askDecisions
  repeat' first
    | with_reducible assumption
    | with_reducible apply askRound_sound
    | with_reducible apply foldl_sound
    | intro _

theorem execSmRestart_sound (cause ms : Nat) (image : ImageCopy) (s : State) (hs : Sound Q s) : SoundR Q (execSmRestart cause ms image s) := by
  unfold execSmRestart
  repeat' first
    | with_reducible assumption
    | with_reducible apply modRing_sound
    | with_reducible apply logEvent_sound
    | with_reducible apply faultLong_sound
    | with_reducible apply noteInterruption_sound
    | with_reducible apply enterSafe_sound
    | with_reducible apply abandonCkpt_sound
    | with_reducible apply askDecisions_sound
    | with_reducible apply soundR_next
    | with_reducible apply foldl_sound
    | intro _
    | split
    | simp only [sound_mk_iff, sound_mb_iff, sound_dram_iff, clok_mk_iff, clok_vr_iff, memok_mk_iff]

theorem execThermalThreshold_sound (sensor : Nat) (temp : Int) (s : State) (hs : Sound Q s) : SoundR Q (execThermalThreshold sensor temp s) := by
  unfold execThermalThreshold
  repeat' first
    | with_reducible assumption
    | with_reducible apply setAlert_sound
    | with_reducible apply modPower_sound
    | with_reducible apply enterSafe_sound
    | with_reducible apply soundR_next
    | extract_lets
    | split

theorem execThermalCeilingStep_sound (sensor : Nat) (s : State) (hs : Sound Q s) : SoundR Q (execThermalCeilingStep sensor s) := by
  unfold execThermalCeilingStep
  repeat' first
    | with_reducible assumption
    | with_reducible apply sampleOnChange_sound
    | with_reducible apply thermalStep_sound
    | with_reducible apply soundR_next
    | split

theorem execPowerSample_sound (r : PowerReading) (s : State) (hs : Sound Q s) : SoundR Q (execPowerSample r s) := by
  unfold execPowerSample
  repeat' first
    | with_reducible assumption
    | with_reducible apply sampleOnChange_sound
    | with_reducible apply powerSampleOp_sound
    | with_reducible apply soundR_next
    | split

theorem execTimeSampleSet_sound (s : State) (hs : Sound Q s) : SoundR Q (execTimeSampleSet s) := by
  unfold execTimeSampleSet
  repeat' first
    | with_reducible assumption
    | with_reducible apply sampleSet_sound
    | with_reducible apply soundR_next
    | split

theorem clearWords_sound (m : ClMem) (mem : Nat) (p : Nat → Bool) (hm : MemOk m) : MemOk (clearWords m mem p) := by
  unfold clearWords
  repeat' first
    | with_reducible assumption
    | with_reducible apply memKeep_wf
    | with_reducible apply MemOk.sp
    | with_reducible apply MemOk.side
    | with_reducible apply MemOk.seqm
    | with_reducible apply And.intro
    | split
    | simp only [sound_mk_iff, sound_mb_iff, sound_dram_iff, clok_mk_iff, clok_vr_iff, memok_mk_iff]
    | simp only [clok_all_iff, memok_all_iff]

theorem clearBank_sound (m : ClMem) (mem bank : Nat) (hm : MemOk m) : MemOk (clearBank m mem bank) := by
  unfold clearBank
  repeat' first
    | with_reducible assumption
    | with_reducible apply clearWords_sound

theorem ClMem_powered_sound : MemOk ClMem.powered := ⟨rfl, rfl, rfl⟩

theorem setTab_sound (m : ClMem) (mem bank v : Nat) (hm : MemOk m) : MemOk (setTab m mem bank v) := by
  unfold setTab
  repeat' first
    | with_reducible assumption
    | simp only [sound_mk_iff, sound_mb_iff, sound_dram_iff, clok_mk_iff, clok_vr_iff, memok_mk_iff]

theorem settleTab_sound (m : ClMem) (mem bank v : Nat) (hm : MemOk m) : MemOk (settleTab m mem bank v) := by
  unfold settleTab
  repeat' first
    | with_reducible assumption
    | with_reducible apply clearBank_sound
    | with_reducible apply setTab_sound
    | split
    | simp only [sound_mk_iff, sound_mb_iff, sound_dram_iff, clok_mk_iff, clok_vr_iff, memok_mk_iff]

theorem powerUpBanks_sound (m : ClMem) (hm : MemOk m) : MemOk (powerUpBanks m) := by
  unfold powerUpBanks
  repeat' first
    | with_reducible assumption
    | with_reducible apply settleTab_sound
    | with_reducible apply foldl_memok
    | intro _
    | extract_lets
    | split
    | simp only [sound_mk_iff, sound_mb_iff, sound_dram_iff, clok_mk_iff, clok_vr_iff, memok_mk_iff]

theorem keepRegs_sound (old new : ClMem) (hold : MemOk old) (hnew : MemOk new) : MemOk (keepRegs old new) := by
  unfold keepRegs
  repeat' first
    | with_reducible assumption
    | simp only [sound_mk_iff, sound_mb_iff, sound_dram_iff, clok_mk_iff, clok_vr_iff, memok_mk_iff]

theorem putTablet_sound (m : ClMem) (mem bank v : Nat) (hm : MemOk m) : MemOk (putTablet m mem bank v) := by
  unfold putTablet
  repeat' first
    | with_reducible assumption
    | with_reducible apply setTab_sound
    | extract_lets
    | split
    | simp only [sound_mk_iff, sound_mb_iff, sound_dram_iff, clok_mk_iff, clok_vr_iff, memok_mk_iff]

theorem writeTablet_sound (s : State) (lc mem bank v : Nat) (hs : Sound Q s) : Sound Q (writeTablet s lc mem bank v) := by
  unfold writeTablet
  repeat' first
    | with_reducible assumption
    | with_reducible apply modMem_sound
    | with_reducible apply putTablet_sound
    | intro _
    | split

theorem writeTablets_sound (s : State) (lc k v : Nat) (hs : Sound Q s) : Sound Q (writeTablets s lc k v) := by
  unfold writeTablets
  repeat' first
    | with_reducible assumption
    | with_reducible apply writeTablet_sound
    | with_reducible apply foldl_sound
    | intro _

theorem execBankPowerDone_sound (lc mem bank : Nat) (s : State) (hs : Sound Q s) : SoundR Q (execBankPowerDone lc mem bank s) := by
  unfold execBankPowerDone
  repeat' first
    | with_reducible assumption
    | with_reducible apply modMem_sound
    | with_reducible apply settleTab_sound
    | with_reducible apply soundR_next
    | intro _
    | split

theorem execEccWriteback_sound (lc mem word : Nat) (s : State) (hs : Sound Q s) : SoundR Q (execEccWriteback lc mem word s) := by
  unfold execEccWriteback
  repeat' first
    | with_reducible assumption
    | with_reducible apply eccClear_sound
    | with_reducible apply modMem_sound
    | with_reducible apply soundR_next
    | with_reducible apply Sound.cluster
    | with_reducible apply ClOk.mem
    | intro _
    | split
    | simp only [sound_mk_iff, sound_mb_iff, sound_dram_iff, clok_mk_iff, clok_vr_iff, memok_mk_iff]

theorem moveIdle_sound (s : State) (lc : Nat) (hs : Sound Q s) : Sound Q (moveIdle s lc) := by
  have hf : ∀ t : State, Sound Q t → ∀ a b : NatSet, Sound Q { t with map := { t.map with fenced := a, failing := b } } :=
    fun t ht a b => sound_mk ht
  have h := reloadPart_sound s lc hs
  unfold moveIdle
  extract_lets +onlyGivenNames k c old fence
  split
  · exact setLc_sound _ _ _ (hf _ hs _ _)
  · extract_lets +onlyGivenNames src r
    have hr : (∀ m, r.1 = some m → MemOk m) ∧ Sound Q r.2 := by
      simp only [r]
      split
      · exact ⟨fun m hm => by cases hm; exact keepRegs_sound _ _ hs.cluster.mem ClMem_powered_sound, hs⟩
      · split
        · rename_i t u ht
          rw [ht] at h
          have ht := h.1 t rfl
          exact ⟨fun m hm => by cases hm; exact ⟨rfl, rfl, ht.cluster.mem.seqm⟩, ht⟩
        · rename_i t ht
          rw [ht] at h
          exact ⟨fun m hm => by simp at hm, h.2⟩
    clear_value r
    split
    · exact setLc_sound _ _ _ (hf _ hr.2 _ _)
    · rename_i m t
      extract_lets +onlyGivenNames ft s1 s2
      have hft : Memory.wf ft.1 = true ∧ Sound Q ft.2 := by
        simp only [ft]
        split
        · exact ⟨loadFtab_wf t lc, loadFtab_sound t lc hr.2⟩
        · exact ⟨hs.cluster.ftab, hr.2⟩
      exact logEvent_sound _ _ _ _ _ _ _ (setLc_sound _ _ _ (hf _ (modCluster_sound hft.2 (fun c hc => ⟨hr.1 _ rfl, hft.1⟩)) _ _))

theorem hardFailure_sound (s : State) (lc : Nat) (hs : Sound Q s) : Sound Q (hardFailure s lc) := by
  unfold hardFailure
  repeat' first
    | with_reducible assumption
    | with_reducible apply stopWith_sound
    | with_reducible apply moveIdle_sound
    | split

theorem testFailed_sound (s : State) (alg : Nat) (f : Nat × Nat × Nat × Nat) (hs : Sound Q s) : Sound Q (testFailed s alg f) := by
  unfold testFailed
  repeat' first
    | with_reducible assumption
    | with_reducible apply modMem_sound
    | with_reducible apply poisonFailed_sound
    | with_reducible apply hardFailure_sound
    | intro _
    | split
    | simp only [sound_mk_iff, sound_mb_iff, sound_dram_iff, clok_mk_iff, clok_vr_iff, memok_mk_iff]

theorem hubMarch_sound (s : State) (word : Nat) (hs : Sound Q s) : Sound Q (hubMarch s word) := by
  unfold hubMarch
  repeat' first
    | with_reducible assumption
    | with_reducible apply hubTouch_sound
    | extract_lets
    | simp only [sound_mk_iff, sound_mb_iff, sound_dram_iff, clok_mk_iff, clok_vr_iff, memok_mk_iff]

theorem sweepWord_sound (m : ClMem) (mem word : Nat) (ue : Bool) (bad : Option (Nat × Nat × Nat)) (hm : MemOk m) : MemOk (sweepWord m mem word ue bad) := by
  unfold sweepWord
  repeat' first
    | with_reducible assumption
    | with_reducible apply eccRead_sound
    | split
    | simp only [sound_mk_iff, sound_mb_iff, sound_dram_iff, clok_mk_iff, clok_vr_iff, memok_mk_iff]

theorem sweepPos_sound (m : ClMem) (mem n pos : Nat) (bad : Option (Nat × Nat × Nat)) (hm : MemOk m) : MemOk (sweepPos m mem n pos bad) := by
  unfold sweepPos
  repeat' first
    | with_reducible assumption
    | with_reducible apply noteMarch_sound
    | split
    | simp only [sound_mk_iff, sound_mb_iff, sound_dram_iff, clok_mk_iff, clok_vr_iff, memok_mk_iff]

theorem execPreservingMarch_sound (lc mem word : Nat) (fault : Bool) (s : State) (hs : Sound Q s) : SoundR Q (execPreservingMarch lc mem word fault s) := by
  unfold execPreservingMarch
  repeat' first
    | with_reducible assumption
    | with_reducible apply modMem_sound
    | with_reducible apply stopCluster_sound
    | with_reducible apply hardFailure_sound
    | with_reducible apply hubMarch_sound
    | with_reducible apply sweepWord_sound
    | with_reducible apply sweepPos_sound
    | with_reducible apply soundR_next
    | intro _
    | split
    | simp only [sound_mk_iff, sound_mb_iff, sound_dram_iff, clok_mk_iff, clok_vr_iff, memok_mk_iff]

theorem execMarchArm_sound (s : State) (hs : Sound Q s) : SoundR Q (execMarchArm s) := by
  unfold execMarchArm
  repeat' first
    | with_reducible assumption
    | with_reducible apply modMem_sound
    | with_reducible apply soundR_next
    | with_reducible apply foldl_sound
    | intro _
    | extract_lets
    | split
    | simp only [sound_mk_iff, sound_mb_iff, sound_dram_iff, clok_mk_iff, clok_vr_iff, memok_mk_iff]

theorem execMarchOverdue_sound (lc : Nat) (march : Option (Nat × Nat)) (s : State) (hs : Sound Q s) : SoundR Q (execMarchOverdue lc march s) := by
  unfold execMarchOverdue
  repeat' first
    | with_reducible assumption
    | with_reducible apply logEvent_sound
    | with_reducible apply modMem_sound
    | with_reducible apply marchScratch_sound
    | with_reducible apply noteMarch_sound
    | with_reducible apply hardFailure_sound
    | with_reducible apply soundR_next
    | intro _
    | split
    | simp only [sound_mk_iff, sound_mb_iff, sound_dram_iff, clok_mk_iff, clok_vr_iff, memok_mk_iff]

theorem execBankHandover_sound (m : Msg) (s : State) (hs : Sound Q s) : SoundR Q (execBankHandover m s) := by
  unfold execBankHandover
  repeat' first
    | with_reducible assumption
    | with_reducible apply modMem_sound
    | with_reducible apply ok_sound
    | with_reducible apply badArg_sound
    | with_reducible apply busy_sound
    | with_reducible apply takeArgs_sound
    | with_reducible apply setTab_sound
    | with_reducible apply soundR_next
    | with_reducible apply foldl_memok
    | intro _
    | extract_lets
    | split

theorem execRunMarch_sound (m : Msg) (s : State) (hs : Sound Q s) : SoundR Q (execRunMarch m s) := by
  unfold execRunMarch
  repeat' first
    | with_reducible assumption
    | with_reducible apply stateRefused_sound
    | with_reducible apply badArg_sound
    | with_reducible apply busy_sound
    | with_reducible apply takeArgs_sound
    | with_reducible apply accept_sound
    | with_reducible apply noteRunning_sound
    | with_reducible apply soundR_next
    | intro _
    | extract_lets
    | split

theorem finishMarch_sound (s : State) (m : Msg) (w : WorkResult) (hs : Sound Q s) : Sound Q (finishMarch s m w) := by
  unfold finishMarch
  repeat' first
    | with_reducible assumption
    | with_reducible apply eccRead_sound
    | with_reducible apply modMem_sound
    | with_reducible apply stopCluster_sound
    | with_reducible apply finish_sound
    | with_reducible apply noteRunning_sound
    | with_reducible apply noteMarch_sound
    | with_reducible apply poisonFailed_sound
    | with_reducible apply clearBank_sound
    | with_reducible apply hardFailure_sound
    | with_reducible apply foldl_memok
    | intro _
    | split
    | simp only [sound_mk_iff, sound_mb_iff, sound_dram_iff, clok_mk_iff, clok_vr_iff, memok_mk_iff]

theorem execPatrolScrubRead_sound (stk : Nat) (s : State) (hs : Sound Q s) : SoundR Q (execPatrolScrubRead stk s) := by
  unfold execPatrolScrubRead
  repeat' first
    | with_reducible assumption
    | with_reducible apply modStk_sound
    | with_reducible apply dramTouch_sound
    | with_reducible apply ttCharge_sound
    | with_reducible apply ttWait_sound
    | with_reducible apply soundR_next
    | extract_lets
    | split

end Sys2Proof.Machine
end

