-- ==== Sys2Proof/Laws/SoundHost.lean ====
section
/-! SUPPORT. What `Sound` says of the host link, program control, tenancy, debug and the store: each operation keeps it. -/

set_option linter.unusedSimpArgs false
set_option linter.unusedTactic false

namespace Sys2Proof.Machine

variable {Q : List Instr}

theorem modSlp_sound (s : State) (f : Sleep → Sleep) (hs : Sound Q s) : Sound Q (modSlp s f) := by
  unfold modSlp
  repeat' first
    | with_reducible assumption
    | simp only [sound_mk_iff, sound_mb_iff, sound_dram_iff, clok_mk_iff, clok_vr_iff, memok_mk_iff]

theorem wakeEvent_sound (s : State) (cause port : Nat) (early : Bool) (hs : Sound Q s) : Sound Q (wakeEvent s cause port early) := by
  unfold wakeEvent
  repeat' first
    | with_reducible assumption
    | with_reducible apply modSlp_sound
    | split

theorem hostActivity_sound (s : State) (early : Bool) (hs : Sound Q s) : Sound Q (hostActivity s early) := by
  unfold hostActivity
  repeat' first
    | with_reducible assumption
    | with_reducible apply wakeEvent_sound
    | split

theorem frameActivity_sound (s : State) (p : Nat) (hs : Sound Q s) : Sound Q (frameActivity s p) := by
  unfold frameActivity
  repeat' first
    | with_reducible assumption
    | with_reducible apply wakeEvent_sound
    | split

theorem setPin_sound (s : State) (pin : Nat) (high : Bool) (hs : Sound Q s) : Sound Q (setPin s pin high) := by
  unfold setPin
  repeat' first
    | with_reducible assumption
    | with_reducible apply modSlp_sound

theorem latchPins_sound (s : State) (hs : Sound Q s) : Sound Q (latchPins s) := by
  unfold latchPins
  repeat' first
    | with_reducible assumption
    | with_reducible apply wakeEvent_sound
    | with_reducible apply foldl_sound
    | intro _
    | extract_lets
    | split

theorem setEdge_sound (s : State) (pin : Nat) (e : Option Nat) (hs : Sound Q s) : Sound Q (setEdge s pin e) := by
  unfold setEdge
  repeat' first
    | with_reducible assumption
    | with_reducible apply modSlp_sound

theorem noteEdge_sound (s : State) (pin : Nat) (high : Bool) (hs : Sound Q s) : Sound Q (noteEdge s pin high) := by
  unfold noteEdge
  repeat' first
    | with_reducible assumption
    | with_reducible apply setEdge_sound
    | split

theorem settlePin_sound (s : State) (pin : Nat) (hs : Sound Q s) : Sound Q (settlePin s pin) := by
  unfold settlePin
  repeat' first
    | with_reducible assumption
    | with_reducible apply wakeEvent_sound
    | with_reducible apply setPin_sound
    | with_reducible apply setEdge_sound
    | extract_lets
    | split

theorem tick_sound (s : State) (hs : Sound Q s) : Sound Q (tick s) := by
  unfold tick
  repeat' first
    | with_reducible assumption
    | with_reducible apply switchClocks_sound
    | with_reducible apply settlePin_sound
    | extract_lets
    | split
    | simp only [sound_mk_iff, sound_mb_iff, sound_dram_iff, clok_mk_iff, clok_vr_iff, memok_mk_iff]

theorem receiveJob_sound (s : State) (p : Nat) (f : Frame) (type : Nat) (act : Nat → Hdr → List Byte → State → Nat × State) (hs : Sound Q s)
    (ha : ∀ (j : Nat) (h : Hdr) (l : List Byte) (t : State), Sound Q t → Sound Q (act j h l t).2) : Sound Q (receiveJob s p f type act) := by
  unfold receiveJob
  extract_lets +onlyGivenNames h
  split
  · exact hs
  · extract_lets +onlyGivenNames s1
    have h1 : Sound Q s1 := frameActivity_sound _ _ hs
    clear_value s1
    have h2 := acceptFrame_sound s1 p f h1
    split
    · exact h1
    · split
      · rename_i t ht
        rw [ht] at h2
        exact h2
      · rename_i pl t ht
        rw [ht] at h2
        have h2 : Sound Q t := h2
        split
        · exact sendAck_sound _ _ _ _ h2
        · extract_lets +onlyGivenNames k
          split
          · exact flushEvents_sound _ (sendAck_sound _ _ _ _ h2)
          · extract_lets +onlyGivenNames r
            have hr : Sound Q r.2 := ha _ _ _ _ h2
            clear_value r
            split
            · exact flushEvents_sound _ hr
            · refine flushEvents_sound _ (sendAck_sound _ _ _ _ ?_)
              split
              · exact hr
              · exact noteTaken_sound _ _ _ _ hr

theorem modCv_sound (s : State) (u : Nat) (f : CvUnit → CvUnit) (hs : Sound Q s) : Sound Q (modCv s u f) := by
  unfold modCv
  repeat' first
    | with_reducible assumption
    | simp only [sound_mk_iff, sound_mb_iff, sound_dram_iff, clok_mk_iff, clok_vr_iff, memok_mk_iff]

theorem execCvStart_sound (u : Nat) (cfg : Word64) (s : State) (hs : Sound Q s) : SoundR Q (execCvStart u cfg s) := by
  unfold execCvStart
  repeat' first
    | with_reducible assumption
    | with_reducible apply modCv_sound
    | with_reducible apply soundR_next
    | split

theorem execCvFeed_sound (u : Nat) (bytes : List Byte) (s : State) (hs : Sound Q s) : SoundR Q (execCvFeed u bytes s) := by
  unfold execCvFeed
  repeat' first
    | with_reducible assumption
    | with_reducible apply modCv_sound
    | with_reducible apply soundR_next
    | split

theorem execCvValueWrite_sound (u : Nat) (value : Word64) (s : State) (hs : Sound Q s) : SoundR Q (execCvValueWrite u value s) := by
  unfold execCvValueWrite
  repeat' first
    | with_reducible assumption
    | with_reducible apply modCv_sound
    | with_reducible apply soundR_next
    | split

theorem modFlow_sound (s : State) (p ctx : Nat) (f : Flow → Flow) (hs : Sound Q s) : Sound Q (modFlow s p ctx f) := by
  unfold modFlow
  repeat' first
    | with_reducible assumption
    | extract_lets
    | simp only [sound_mk_iff, sound_mb_iff, sound_dram_iff, clok_mk_iff, clok_vr_iff, memok_mk_iff]

theorem modFstat_sound (s : State) (p ctx : Nat) (f : FlowStat → FlowStat) (hs : Sound Q s) : Sound Q (modFstat s p ctx f) := by
  unfold modFstat
  repeat' first
    | with_reducible assumption
    | extract_lets
    | simp only [sound_mk_iff, sound_mb_iff, sound_dram_iff, clok_mk_iff, clok_vr_iff, memok_mk_iff]

theorem modStage_sound (s : State) (p ctx c st : Nat) (f : StageSt → StageSt) (hs : Sound Q s) : Sound Q (modStage s p ctx c st f) := by
  unfold modStage
  repeat' first
    | with_reducible assumption
    | extract_lets
    | simp only [sound_mk_iff, sound_mb_iff, sound_dram_iff, clok_mk_iff, clok_vr_iff, memok_mk_iff]

theorem putOwn_sound (s : State) (o : OwnSt) (hs : Sound Q s) : Sound Q (putOwn s o) := by
  unfold putOwn
  repeat' first
    | with_reducible assumption
    | extract_lets
    | simp only [sound_mk_iff, sound_mb_iff, sound_dram_iff, clok_mk_iff, clok_vr_iff, memok_mk_iff]

theorem putResult_sound (s : State) (r : ResSt) (hs : Sound Q s) : Sound Q (putResult s r) := by
  unfold putResult
  repeat' first
    | with_reducible assumption
    | extract_lets
    | simp only [sound_mk_iff, sound_mb_iff, sound_dram_iff, clok_mk_iff, clok_vr_iff, memok_mk_iff]

theorem clearRound_sound (s : State) (p ctx : Nat) (hs : Sound Q s) : Sound Q (clearRound s p ctx) := by
  unfold clearRound
  repeat' first
    | with_reducible assumption
    | extract_lets
    | simp only [sound_mk_iff, sound_mb_iff, sound_dram_iff, clok_mk_iff, clok_vr_iff, memok_mk_iff]

theorem formPiece_sound (s : State) (p : Nat) (x : Piece) (hs : Sound Q s) : Sound Q (formPiece s p x) := by
  unfold formPiece
  repeat' first
    | with_reducible assumption
    | with_reducible apply modPort_sound

theorem formNext_sound (s : State) (p ctx c : Nat) (t : Chain) (u : UnitSt) (hs : Sound Q s) : Sound Q (formNext s p ctx c t u) := by
  unfold formNext
  repeat' first
    | with_reducible assumption
    | with_reducible apply modStage_sound
    | with_reducible apply formPiece_sound

theorem emitUnit_sound (s : State) (p ctx c : Nat) (t : Chain) (last : Bool) (unit : UnitSt) (hs : Sound Q s) : Sound Q (emitUnit s p ctx c t last unit) := by
  unfold emitUnit
  repeat' first
    | with_reducible assumption
    | with_reducible apply modStage_sound
    | with_reducible apply formNext_sound
    | split
    | simp only [sound_mk_iff, sound_mb_iff, sound_dram_iff, clok_mk_iff, clok_vr_iff, memok_mk_iff]

theorem takeUp_sound (s : State) (p ctx c : Nat) (hs : Sound Q s) : Sound Q (takeUp s p ctx c) := by
  unfold takeUp
  repeat' first
    | with_reducible assumption
    | extract_lets
    | simp only [sound_mk_iff, sound_mb_iff, sound_dram_iff, clok_mk_iff, clok_vr_iff, memok_mk_iff]

theorem readGranules_sound (s : State) (p a n : Nat) (hs : Sound Q s) : Sound Q (readGranules s p a n).2 :=
  foldl_pair_sound (chargeDev_sound _ _ _ _ _ _ hs) (fun _ _ h => unitRead_sound _ _ _ h)

theorem readOwn_sound (s : State) (p ctx c : Nat) (hs : Sound Q s) : Sound Q (readOwn s p ctx c) := by
  unfold readOwn
  repeat' first
    | with_reducible assumption
    | with_reducible apply putOwn_sound
    | with_reducible apply readGranules_sound

theorem rereadRange_sound (s : State) (p a n : Nat) (l : List Byte) (bad : List Nat) (hs : Sound Q s) :
    Sound Q (rereadRange s p a n l bad).2 :=
  foldl_pair_sound hs (fun _ _ h => unitRead_sound _ _ _ (chargeDev_sound _ _ _ _ _ _ h))

theorem tryResid_sound (s : State) (p ctx c : Nat) (hs : Sound Q s) : Sound Q (tryResid s p ctx c) := by
  unfold tryResid
  repeat' first
    | with_reducible assumption
    | with_reducible apply devWrite_sound
    | with_reducible apply chargeDev_sound
    | with_reducible apply putOwn_sound
    | extract_lets
    | split

theorem closeChunk_sound (s : State) (p ctx c : Nat) (hs : Sound Q s) : Sound Q (closeChunk s p ctx c) := by
  unfold closeChunk
  repeat' first
    | with_reducible assumption
    | with_reducible apply devWrite_sound
    | with_reducible apply chargeDev_sound
    | with_reducible apply modJob_sound
    | with_reducible apply modFstat_sound
    | with_reducible apply putResult_sound
    | with_reducible apply tryResid_sound
    | extract_lets
    | split

theorem finalUnit_sound (s : State) (p ctx c : Nat) (members groups contrib holder : Nat) (unit : UnitSt) (hs : Sound Q s) : Sound Q (finalUnit s p ctx c members groups contrib holder unit) := by
  unfold finalUnit
  repeat' first
    | with_reducible assumption
    | with_reducible apply devWrite_sound
    | with_reducible apply chargeDev_sound
    | with_reducible apply putResult_sound
    | with_reducible apply closeChunk_sound
    | split
    | simp only [sound_mk_iff, sound_mb_iff, sound_dram_iff, clok_mk_iff, clok_vr_iff, memok_mk_iff]

theorem ringOut_sound (s : State) (p ctx c u members contrib : Nat) (unit : UnitSt) (hs : Sound Q s) : Sound Q (ringOut s p ctx c u members contrib unit) := by
  unfold ringOut
  repeat' first
    | with_reducible assumption
    | with_reducible apply modStage_sound
    | with_reducible apply emitUnit_sound
    | extract_lets
    | split

theorem countRises_sound (s : State) (p ctx n : Nat) (hs : Sound Q s) : Sound Q (countRises s p ctx n) := by
  unfold countRises
  repeat' first
    | with_reducible assumption
    | with_reducible apply modJob_sound
    | with_reducible apply modFstat_sound
    | split

theorem runRing_sound (s : State) (p ctx c : Nat) (hs : Sound Q s) : Sound Q (runRing s p ctx c) := by
  unfold runRing
  repeat' first
    | with_reducible assumption
    | with_reducible apply modStage_sound
    | with_reducible apply ringOut_sound
    | with_reducible apply countRises_sound
    | with_reducible apply foldl_sound
    | intro _
    | extract_lets
    | split

theorem startChain_sound (s : State) (p ctx c : Nat) (withOwn : Bool) (hs : Sound Q s) : Sound Q (startChain s p ctx c withOwn) := by
  unfold startChain
  repeat' first
    | with_reducible assumption
    | with_reducible apply modStage_sound

theorem crossOut_sound (s : State) (p ctx c u groups contrib : Nat) (incl : Sparse Nat) (unit : UnitSt) (hs : Sound Q s) : Sound Q (crossOut s p ctx c u groups contrib incl unit) := by
  unfold crossOut
  repeat' first
    | with_reducible assumption
    | with_reducible apply modStage_sound
    | with_reducible apply emitUnit_sound
    | extract_lets
    | split

theorem runSum_sound (s : State) (p ctx c : Nat) (hs : Sound Q s) : Sound Q (runSum s p ctx c) := by
  unfold runSum
  repeat' first
    | with_reducible assumption
    | with_reducible apply modStage_sound
    | with_reducible apply crossOut_sound
    | with_reducible apply foldl_sound
    | intro _
    | extract_lets
    | split

theorem runCross_sound (s : State) (p ctx c : Nat) (hs : Sound Q s) : Sound Q (runCross s p ctx c) := by
  unfold runCross
  repeat' first
    | with_reducible assumption
    | with_reducible apply modStage_sound
    | with_reducible apply countRises_sound
    | with_reducible apply crossOut_sound
    | with_reducible apply foldl_sound
    | intro _
    | extract_lets
    | split

theorem gatherOut_sound (s : State) (p ctx c stage n members groups contrib holder : Nat) (incl : Sparse Nat) (u : Nat) (unit : UnitSt) (hs : Sound Q s) : Sound Q (gatherOut s p ctx c stage n members groups contrib holder incl u unit) := by
  unfold gatherOut
  repeat' first
    | with_reducible assumption
    | with_reducible apply emitUnit_sound
    | extract_lets
    | split

theorem originate_sound (s : State) (p ctx c stage : Nat) (hs : Sound Q s) : Sound Q (originate s p ctx c stage) := by
  unfold originate
  repeat' first
    | with_reducible assumption
    | with_reducible apply modStage_sound

theorem runFinal_sound (s : State) (p ctx c : Nat) (hs : Sound Q s) : Sound Q (runFinal s p ctx c) := by
  unfold runFinal
  repeat' first
    | with_reducible assumption
    | with_reducible apply waitCells_sound
    | with_reducible apply modStage_sound
    | with_reducible apply finalUnit_sound
    | with_reducible apply gatherOut_sound
    | with_reducible apply originate_sound
    | with_reducible apply foldl_sound
    | intro _
    | extract_lets
    | split

theorem runGather_sound (s : State) (p ctx c stage : Nat) (hs : Sound Q s) : Sound Q (runGather s p ctx c stage) := by
  unfold runGather
  repeat' first
    | with_reducible assumption
    | with_reducible apply waitCells_sound
    | with_reducible apply modStage_sound
    | with_reducible apply finalUnit_sound
    | with_reducible apply gatherOut_sound
    | with_reducible apply originate_sound
    | with_reducible apply foldl_sound
    | intro _
    | split
    | simp only [sound_mk_iff, sound_mb_iff, sound_dram_iff, clok_mk_iff, clok_vr_iff, memok_mk_iff]

theorem decideRing_sound (s : State) (p ctx c : Nat) (hs : Sound Q s) : Sound Q (decideRing s p ctx c) := by
  unfold decideRing
  repeat' first
    | with_reducible assumption
    | with_reducible apply modStage_sound
    | with_reducible apply startChain_sound
    | extract_lets
    | split

theorem advanceChunk_sound (s : State) (p ctx c : Nat) (hs : Sound Q s) : Sound Q (advanceChunk s p ctx c) := by
  unfold advanceChunk
  repeat' first
    | with_reducible assumption
    | with_reducible apply takeUp_sound
    | with_reducible apply tryResid_sound
    | with_reducible apply runRing_sound
    | with_reducible apply runSum_sound
    | with_reducible apply runCross_sound
    | with_reducible apply runFinal_sound
    | with_reducible apply runGather_sound
    | with_reducible apply decideRing_sound

theorem reroute_sound (s : State) (p : Nat) (x : Piece) (hs : Sound Q s) : Sound Q (reroute s p x) := by
  unfold reroute
  repeat' first
    | with_reducible assumption
    | with_reducible apply modStage_sound
    | with_reducible apply formPiece_sound
    | extract_lets
    | split

theorem advanceAll_sound (s : State) (hs : Sound Q s) : Sound Q (advanceAll s) := by
  unfold advanceAll
  repeat' first
    | with_reducible assumption
    | with_reducible apply advanceChunk_sound
    | with_reducible apply foldl_sound
    | intro _

theorem skipMember_sound (s : State) (k midx : Nat) (hs : Sound Q s) : Sound Q (skipMember s k midx) := by
  unfold skipMember
  repeat' first
    | with_reducible assumption
    | with_reducible apply modPort_sound
    | with_reducible apply advanceChunk_sound
    | with_reducible apply reroute_sound
    | with_reducible apply foldl_sound
    | intro _

theorem memberGone_sound (s : State) (p k midx : Nat) (hs : Sound Q s) : Sound Q (memberGone s p k midx) := by
  unfold memberGone
  repeat' first
    | with_reducible assumption
    | with_reducible apply markAbsent_sound
    | with_reducible apply skipMember_sound
    | split

theorem finishState_sound (s : State) (m : Msg) (hs : Sound Q s) : Sound Q (finishState s m) := by
  unfold finishState
  repeat' first
    | with_reducible assumption
    | with_reducible apply finish_sound

theorem finishBad_sound (s : State) (m : Msg) (b : BadAt) (hs : Sound Q s) : Sound Q (finishBad s m b) := by
  unfold finishBad
  repeat' first
    | with_reducible assumption
    | with_reducible apply finish_sound

theorem execLoadConsist_sound (m : Msg) (s : State) (hs : Sound Q s) : SoundR Q (execLoadConsist m s) := by
  unfold execLoadConsist
  repeat' first
    | with_reducible assumption
    | with_reducible apply badArg_sound
    | with_reducible apply busy_sound
    | with_reducible apply takeArgs_sound
    | with_reducible apply accept_sound
    | with_reducible apply soundR_next
    | intro _
    | extract_lets
    | split

theorem imageRead_sound (s : State) (a n : Nat) (hs : Sound Q s) : Sound Q ((imageRead s a n).2) := by
  unfold imageRead
  repeat' first
    | with_reducible assumption
    | with_reducible apply devReadPieces_sound
    | with_reducible apply chargeDev_sound

theorem readImages_sound (s : State) (m : Msg) (hs : Sound Q s) : Sound Q ((readImages s m).2) := by
  unfold readImages
  repeat' first
    | with_reducible assumption
    | with_reducible apply imageRead_sound
    | split
    | simp only [sound_mk_iff, sound_mb_iff, sound_dram_iff, clok_mk_iff, clok_vr_iff, memok_mk_iff]

theorem loadCluster_sound (p : Part) (ft : Memory) (c : Cluster) (hf : Memory.wf ft = true) (hc : ClOk c) : ClOk (loadCluster p ft c) := by
  have h := powerUpBanks_sound _ hc.mem
  unfold loadCluster
  dsimp only
  exact clok_all (memok_all h.sp h.side (memWrite_wf h.seqm)) hf

theorem loadImages_sound (s : State) (m : Msg) (x : Images) (hs : Sound Q s) : Sound Q (loadImages s m x) := by
  unfold loadImages
  repeat' first
    | with_reducible assumption
    | with_reducible apply modCluster_sound
    | with_reducible apply loadCluster_sound
    | with_reducible apply foldl_sound
    | with_reducible apply memWrite_wf
    | with_reducible exact memNil_wf
    | intro _
    | extract_lets
    | split
    | simp only [sound_mk_iff, sound_mb_iff, sound_dram_iff, clok_mk_iff, clok_vr_iff, memok_mk_iff]

theorem finishLoad_sound (s : State) (m : Msg) (hs : Sound Q s) : Sound Q (finishLoad s m) := by
  unfold finishLoad
  repeat' first
    | with_reducible assumption
    | with_reducible apply setOp_sound
    | with_reducible apply finish_sound
    | with_reducible apply finishState_sound
    | with_reducible apply finishBad_sound
    | with_reducible apply readImages_sound
    | with_reducible apply loadImages_sound
    | extract_lets
    | split

theorem execPatchPrm_sound (m : Msg) (s : State) (hs : Sound Q s) : SoundR Q (execPatchPrm m s) := by
  unfold execPatchPrm
  repeat' first
    | with_reducible assumption
    | with_reducible apply modCluster_sound
    | with_reducible apply ok_sound
    | with_reducible apply badArg_sound
    | with_reducible apply takeCommand_sound
    | with_reducible apply checkBody_sound
    | with_reducible apply soundR_next
    | with_reducible apply foldl_sound
    | intro _
    | extract_lets
    | split
    | simp only [sound_mk_iff, sound_mb_iff, sound_dram_iff, clok_mk_iff, clok_vr_iff, memok_mk_iff]

theorem freshRun_sound (s : State) (hs : Sound Q s) : Sound Q (freshRun s) := by
  unfold freshRun
  repeat' first
    | with_reducible assumption
    | with_reducible apply modSection_sound
    | with_reducible apply foldl_sound
    | intro _
    | extract_lets
    | simp only [sound_mk_iff, sound_mb_iff, sound_dram_iff, clok_mk_iff, clok_vr_iff, memok_mk_iff]

theorem execStart_sound (m : Msg) (s : State) (hs : Sound Q s) : SoundR Q (execStart m s) := by
  unfold execStart
  repeat' first
    | with_reducible assumption
    | with_reducible apply setOp_sound
    | with_reducible apply ok_sound
    | with_reducible apply stateRefused_sound
    | with_reducible apply takeArgs_sound
    | with_reducible apply startCluster_sound
    | with_reducible apply freshRun_sound
    | with_reducible apply soundR_next
    | with_reducible apply foldl_sound
    | intro _
    | extract_lets
    | split
    | simp only [sound_mk_iff, sound_mb_iff, sound_dram_iff, clok_mk_iff, clok_vr_iff, memok_mk_iff]

theorem requestPause_sound (s : State) (hs : Sound Q s) : Sound Q (requestPause s) := by
  unfold requestPause
  repeat' first
    | with_reducible assumption
    | with_reducible apply modCluster_sound
    | with_reducible apply setHold_sound
    | with_reducible apply foldl_sound
    | intro _
    | extract_lets
    | simp only [sound_mk_iff, sound_mb_iff, sound_dram_iff, clok_mk_iff, clok_vr_iff, memok_mk_iff]

theorem execPause_sound (m : Msg) (s : State) (hs : Sound Q s) : SoundR Q (execPause m s) := by
  unfold execPause
  repeat' first
    | with_reducible assumption
    | with_reducible apply reserve_sound
    | with_reducible apply busy_sound
    | with_reducible apply takeArgs_sound
    | with_reducible apply requestPause_sound
    | with_reducible apply soundR_next
    | intro _
    | split
    | simp only [sound_mk_iff, sound_mb_iff, sound_dram_iff, clok_mk_iff, clok_vr_iff, memok_mk_iff]

theorem answerPause_sound (s : State) (hs : Sound Q s) : Sound Q (answerPause s) := by
  unfold answerPause
  repeat' first
    | with_reducible assumption
    | with_reducible apply fulfil_sound
    | with_reducible apply countRefusal_sound
    | split
    | simp only [sound_mk_iff, sound_mb_iff, sound_dram_iff, clok_mk_iff, clok_vr_iff, memok_mk_iff]

theorem saveBank_sound (lc : Nat) (bank : Bool) (c : Cluster) (hc : ClOk c) : ClOk (saveBank lc bank c) := by
  unfold saveBank
  repeat' first
    | with_reducible assumption
    | with_reducible apply spWriteAll_sound
    | extract_lets
    | simp only [sound_mk_iff, sound_mb_iff, sound_dram_iff, clok_mk_iff, clok_vr_iff, memok_mk_iff]

theorem execClusterPaused_sound (lc : Nat) (s : State) (hs : Sound Q s) : SoundR Q (execClusterPaused lc s) := by
  unfold execClusterPaused
  repeat' first
    | with_reducible assumption
    | with_reducible apply modCluster_sound
    | with_reducible apply flushEvents_sound
    | with_reducible apply setOp_sound
    | with_reducible apply answerPause_sound
    | with_reducible apply saveBank_sound
    | with_reducible apply soundR_next
    | intro _
    | extract_lets
    | split
    | simp only [sound_mk_iff, sound_mb_iff, sound_dram_iff, clok_mk_iff, clok_vr_iff, memok_mk_iff]

theorem restoreBank_sound (lc : Nat) (bank : Bool) (c : Cluster) (hc : ClOk c) : ClOkO (restoreBank lc bank c) := by
  intro t ht
  unfold restoreBank at ht
  dsimp only at ht
  rw [Option.map_eq_some_iff] at ht
  obtain ⟨b, _, rfl⟩ := ht
  exact clok_mem hc (spTouchAll_sound _ _ hc.mem)

theorem restoreIssue_sound (c : Cluster) (hc : ClOk c) : ClOk (restoreIssue c) := by
  unfold restoreIssue
  repeat' first
    | with_reducible assumption
    | extract_lets
    | simp only [sound_mk_iff, sound_mb_iff, sound_dram_iff, clok_mk_iff, clok_vr_iff, memok_mk_iff]

theorem letStep_sound (c : Cluster) (hc : ClOk c) : ClOk (letStep c) := by
  unfold letStep
  repeat' first
    | with_reducible assumption
    | extract_lets
    | split
    | simp only [sound_mk_iff, sound_mb_iff, sound_dram_iff, clok_mk_iff, clok_vr_iff, memok_mk_iff]

theorem resumeCluster_sound (s : State) (lc : Nat) (hs : Sound Q s) : Sound Q (resumeCluster s lc) := by
  unfold resumeCluster
  extract_lets +onlyGivenNames c
  split
  · exact hs
  · split
    · split
      · exact hs
      · extract_lets +onlyGivenNames s1
        have h1 : Sound Q s1 := modCluster_sound hs (fun c hc => setHold_sound _ (clok_mk hc))
        clear_value s1
        split
        · rename_i t ht
          rw [Option.bind_eq_some_iff] at ht
          obtain ⟨u, hu, ht⟩ := ht
          exact dispatch_sound _ _ (setCluster_sound h1 (letStep_sound _ (restoreIssue_sound _ (restoreBank_sound _ _ _ (restoreBank_sound _ _ _ h1.cluster _ hu) _ ht))))
        · exact stopWith_sound _ _ _ h1
    · split
      · exact replayCluster_sound _ _ _ _ _ hs
      · exact modCluster_sound hs (fun c hc => letStep_sound _ hc)

theorem execResume_sound (m : Msg) (s : State) (hs : Sound Q s) : SoundR Q (execResume m s) := by
  unfold execResume
  repeat' first
    | with_reducible assumption
    | with_reducible apply setOp_sound
    | with_reducible apply ok_sound
    | with_reducible apply takeArgs_sound
    | with_reducible apply resumeCluster_sound
    | with_reducible apply soundR_next
    | with_reducible apply foldl_sound
    | intro _

theorem dropSaves_sound (c : Cluster) (hc : ClOk c) : ClOk (dropSaves c) := by
  unfold dropSaves
  repeat' first
    | with_reducible assumption
    | with_reducible apply ClOk.mem
    | with_reducible apply ClOk.ftab
    | with_reducible apply MemOk.sp
    | with_reducible apply MemOk.side
    | with_reducible apply MemOk.seqm
    | with_reducible apply And.intro
    | extract_lets
    | simp only [clok_all_iff, memok_all_iff]

theorem stopOne_sound (c : Cluster) (hc : ClOk c) : ClOk (stopOne c) := by
  unfold stopOne
  repeat' first
    | with_reducible assumption
    | with_reducible apply setHold_sound
    | with_reducible apply discardWork_sound
    | with_reducible apply dropSaves_sound
    | extract_lets
    | simp only [sound_mk_iff, sound_mb_iff, sound_dram_iff, clok_mk_iff, clok_vr_iff, memok_mk_iff]

theorem releaseConsist_sound (s : State) (hs : Sound Q s) : Sound Q (releaseConsist s) := by
  unfold releaseConsist
  refine sound_cl hs (fun e he => ?_)
  rw [List.mem_map] at he
  obtain ⟨x, hx, rfl⟩ := he
  split
  · exact ⟨(stopOne_sound _ (hs.cl x hx)).mem, rfl⟩
  · exact hs.cl x hx

theorem execStop_sound (m : Msg) (s : State) (hs : Sound Q s) : SoundR Q (execStop m s) := by
  unfold execStop
  repeat' first
    | with_reducible assumption
    | with_reducible apply modCluster_sound
    | with_reducible apply setOp_sound
    | with_reducible apply ok_sound
    | with_reducible apply takeArgs_sound
    | with_reducible apply answerPause_sound
    | with_reducible apply stopOne_sound
    | with_reducible apply releaseConsist_sound
    | with_reducible apply soundR_next
    | with_reducible apply foldl_sound
    | intro _
    | extract_lets
    | split

theorem execConsistEnd_sound (s : State) (hs : Sound Q s) : SoundR Q (execConsistEnd s) := by
  unfold execConsistEnd
  repeat' first
    | with_reducible assumption
    | with_reducible apply modCluster_sound
    | with_reducible apply flushEvents_sound
    | with_reducible apply logEvent_sound
    | with_reducible apply setOp_sound
    | with_reducible apply setHold_sound
    | with_reducible apply answerPause_sound
    | with_reducible apply soundR_next
    | with_reducible apply foldl_sound
    | intro _
    | extract_lets
    | split
    | simp only [sound_mk_iff, sound_mb_iff, sound_dram_iff, clok_mk_iff, clok_vr_iff, memok_mk_iff]

theorem modTap_sound (s : State) (f : Tap → Tap) (hs : Sound Q s) : Sound Q (modTap s f) := by
  unfold modTap
  repeat' first
    | with_reducible assumption
    | simp only [sound_mk_iff, sound_mb_iff, sound_dram_iff, clok_mk_iff, clok_vr_iff, memok_mk_iff]

theorem tapSelect_sound (s : State) (op : Nat) (dr : Nat) (hs : Sound Q s) : Sound Q (tapSelect s op dr) := by
  unfold tapSelect
  repeat' first
    | with_reducible assumption
    | with_reducible apply modTap_sound

theorem tapRefuse_sound (s : State) (hs : Sound Q s) : Sound Q (tapRefuse s) := by
  unfold tapRefuse
  repeat' first
    | with_reducible assumption
    | with_reducible apply modTap_sound
    | with_reducible apply tapSelect_sound

theorem tapWhen_sound (s : State) (b : Bool) (f : State → State) (hs : Sound Q s) (hf : ∀ t : State, Sound Q t → Sound Q (f t)) :
    SoundR Q (tapWhen s b f) := by
  unfold tapWhen
  split
  · exact soundR_next hs
  · split
    · exact soundR_next (hf _ hs)
    · exact soundR_next (tapRefuse_sound _ hs)

theorem execExtest_sound (s : State) (hs : Sound Q s) : SoundR Q (execExtest s) := by
  unfold execExtest
  repeat' first
    | with_reducible assumption
    | with_reducible apply modTap_sound
    | with_reducible apply tapSelect_sound
    | with_reducible apply tapWhen_sound
    | intro _

theorem execIdcode_sound (s : State) (hs : Sound Q s) : SoundR Q (execIdcode s) := by
  unfold execIdcode
  repeat' first
    | with_reducible assumption
    | with_reducible apply tapSelect_sound
    | with_reducible apply tapWhen_sound
    | intro _

theorem execSamplePreload_sound (preload : List Bool) (s : State) (hs : Sound Q s) : SoundR Q (execSamplePreload preload s) := by
  unfold execSamplePreload
  repeat' first
    | with_reducible assumption
    | with_reducible apply drawFree_sound
    | with_reducible apply modTap_sound
    | with_reducible apply tapSelect_sound
    | with_reducible apply tapWhen_sound
    | intro _

theorem execDbgStatus_sound (s : State) (hs : Sound Q s) : SoundR Q (execDbgStatus s) := by
  unfold execDbgStatus
  repeat' first
    | with_reducible assumption
    | with_reducible apply tapSelect_sound
    | with_reducible apply tapWhen_sound
    | intro _

theorem dbgAnswer_sound (s : State) (dr : BitVec 128) (status data : Nat) (hs : Sound Q s) : Sound Q (dbgAnswer s dr status data) := by
  unfold dbgAnswer
  repeat' first
    | with_reducible assumption
    | with_reducible apply modTap_sound

theorem dbgEnd_sound (s : State) (dr : BitVec 128) (status data : Nat) (hs : Sound Q s) : Sound Q (dbgEnd s dr status data) := by
  unfold dbgEnd
  repeat' first
    | with_reducible assumption
    | with_reducible apply tapSelect_sound
    | with_reducible apply dbgAnswer_sound

theorem execDbgHalt_sound (s : State) (hs : Sound Q s) : SoundR Q (execDbgHalt s) := by
  unfold execDbgHalt
  repeat' first
    | with_reducible assumption
    | with_reducible apply requestPause_sound
    | with_reducible apply modTap_sound
    | with_reducible apply tapSelect_sound
    | with_reducible apply tapWhen_sound
    | intro _

theorem execVendorAnalysis_sound (op : BitVec 8) (s : State) (hs : Sound Q s) : SoundR Q (execVendorAnalysis op s) := by
  unfold execVendorAnalysis
  repeat' first
    | with_reducible assumption
    | with_reducible apply drawFree_sound
    | with_reducible apply tapSelect_sound
    | with_reducible apply tapWhen_sound
    | with_reducible apply soundR_next
    | intro _
    | split

theorem testReset_sound (s : State) (hs : Sound Q s) : Sound Q (testReset s) := by
  unfold testReset
  repeat' first
    | with_reducible assumption
    | with_reducible apply modTap_sound
    | with_reducible apply tapSelect_sound

theorem execBypass_sound (op : BitVec 8) (s : State) (hs : Sound Q s) : SoundR Q (execBypass op s) := by
  unfold execBypass
  repeat' first
    | with_reducible assumption
    | with_reducible apply tapSelect_sound
    | with_reducible apply tapWhen_sound
    | with_reducible apply soundR_next
    | intro _
    | split

theorem modMb_sound (s : State) (f : Mailbox → Mailbox) (hs : Sound Q s) (h1 : (f s.mb).evq.length ≤ 1024) (h2 : (f s.mb).long.length ≤ 16) :
    Sound Q (modMb s f) := sound_mb hs h1 h2

theorem modHwin_sound (s : State) (n : Nat) (f : HWin → HWin) (hs : Sound Q s) : Sound Q (modHwin s n f) := sound_mb hs hs.evq hs.long

theorem armFirst_sound (s : State) (hs : Sound Q s) : Sound Q (armFirst s) := by
  unfold armFirst
  repeat' first
    | with_reducible assumption
    | with_reducible apply modRing_sound
    | with_reducible apply foldl_sound
    | intro _

theorem setEn_sound (s : State) (en : Bool) (hs : Sound Q s) : Sound Q (setEn s en) := by
  have h1 : Sound Q (if en && !s.mb.en then armFirst s else s) := by
    split
    · exact armFirst_sound _ hs
    · exact hs
  exact flushEvents_sound _ (modMb_sound _ _ h1 h1.evq h1.long)

theorem ringsReset_sound (s : State) (hs : Sound Q s) : Sound Q (ringsReset s) := by
  unfold ringsReset
  repeat' first
    | with_reducible assumption
    | with_reducible apply modRing_sound
    | with_reducible apply armFirst_sound
    | with_reducible apply foldl_sound
    | intro _
    | split

theorem badIndex_sound (s : State) (hs : Sound Q s) : Sound Q (badIndex s) := sound_mb hs hs.evq hs.long

theorem writeProd_sound (s : State) (r v : Nat) (hs : Sound Q s) : Sound Q (writeProd s r v) := by
  unfold writeProd
  repeat' first
    | with_reducible assumption
    | with_reducible apply modRing_sound
    | with_reducible apply badIndex_sound
    | split

theorem writeCons_sound (s : State) (r v : Nat) (hs : Sound Q s) : Sound Q (writeCons s r v) := by
  unfold writeCons
  repeat' first
    | with_reducible assumption
    | with_reducible apply modRing_sound
    | with_reducible apply flushEvents_sound
    | with_reducible apply badIndex_sound
    | split

theorem openHwin_sound (s : State) (n : Nat) (rd wr : Bool) (hs : Sound Q s) : Sound Q (openHwin s n rd wr) := by
  unfold openHwin
  repeat' first
    | with_reducible assumption
    | with_reducible apply modHwin_sound
    | extract_lets
    | split

theorem writeHwinCtl_sound (s : State) (n v : Nat) (hs : Sound Q s) : Sound Q (writeHwinCtl s n v) := by
  unfold writeHwinCtl
  repeat' first
    | with_reducible assumption
    | with_reducible apply modHwin_sound
    | with_reducible apply openHwin_sound
    | split

theorem closeHwins_sound (s : State) (p : HWin → Bool) (hs : Sound Q s) : Sound Q (closeHwins s p) := by
  unfold closeHwins
  repeat' first
    | with_reducible assumption
    | with_reducible apply modHwin_sound
    | with_reducible apply foldl_sound
    | intro _
    | extract_lets
    | split

theorem mbWrite_sound (s : State) (o v : Nat) (hs : Sound Q s) : Sound Q (mbWrite s o v) := by
  unfold mbWrite
  repeat' first
    | with_reducible assumption
    | with_reducible apply modRing_sound
    | with_reducible apply hostActivity_sound
    | with_reducible apply modHwin_sound
    | with_reducible apply setEn_sound
    | with_reducible apply ringsReset_sound
    | with_reducible apply writeProd_sound
    | with_reducible apply writeCons_sound
    | with_reducible apply writeHwinCtl_sound
    | split
    | simp only [sound_mk_iff, sound_mb_iff, sound_dram_iff, clok_mk_iff, clok_vr_iff, memok_mk_iff]

theorem execMbCtlEn_sound (en : Bool) (s : State) (hs : Sound Q s) : SoundR Q (execMbCtlEn en s) := by
  unfold execMbCtlEn
  repeat' first
    | with_reducible assumption
    | with_reducible apply setEn_sound
    | with_reducible apply soundR_next
    | split

theorem execMbCtlRst_sound (s : State) (hs : Sound Q s) : SoundR Q (execMbCtlRst s) := by
  unfold execMbCtlRst
  repeat' first
    | with_reducible assumption
    | with_reducible apply ringsReset_sound
    | with_reducible apply soundR_next
    | split

theorem execDoorbell_sound (ring : Nat) (prod : BitVec 9) (s : State) (hs : Sound Q s) : SoundR Q (execDoorbell ring prod s) := by
  unfold execDoorbell
  repeat' first
    | with_reducible assumption
    | with_reducible apply hostActivity_sound
    | with_reducible apply writeProd_sound
    | with_reducible apply soundR_next
    | split

theorem execRingConsWrite_sound (ring : Nat) (cons : BitVec 9) (s : State) (hs : Sound Q s) : SoundR Q (execRingConsWrite ring cons s) := by
  unfold execRingConsWrite
  repeat' first
    | with_reducible assumption
    | with_reducible apply writeCons_sound
    | with_reducible apply soundR_next
    | split

theorem execRingIrqWrite_sound (ring : Nat) (s : State) (hs : Sound Q s) : SoundR Q (execRingIrqWrite ring s) := by
  unfold execRingIrqWrite
  dsimp only
  repeat' split
  all_goals first
    | with_reducible exact soundR_next hs
    | exact soundR_next (modRing_sound _ _ _ (sound_comp hs (compWrite_wf hs.comp)))

theorem execHwinOpen_sound (n : Nat) (rd wr : Bool) (s : State) (hs : Sound Q s) : SoundR Q (execHwinOpen n rd wr s) := by
  unfold execHwinOpen
  repeat' first
    | with_reducible assumption
    | with_reducible apply openHwin_sound
    | with_reducible apply soundR_next
    | split

theorem writeOpxCtl_sound (s : State) (lc v : Nat) (hs : Sound Q s) : Sound Q (writeOpxCtl s lc v) := by
  unfold writeOpxCtl
  repeat' first
    | with_reducible assumption
    | with_reducible apply modCluster_sound
    | intro _
    | extract_lets
    | split
    | simp only [sound_mk_iff, sound_mb_iff, sound_dram_iff, clok_mk_iff, clok_vr_iff, memok_mk_iff]

theorem writeSp_sound (s : State) (lc k v : Nat) (hs : Sound Q s) : Sound Q (writeSp s lc k v) := by
  unfold writeSp
  repeat' first
    | with_reducible assumption
    | with_reducible apply modMem_sound
    | with_reducible apply writeTablets_sound
    | intro _
    | extract_lets
    | split
    | simp only [sound_mk_iff, sound_mb_iff, sound_dram_iff, clok_mk_iff, clok_vr_iff, memok_mk_iff]

theorem writePort_sound (s : State) (p k v : Nat) (hs : Sound Q s) : Sound Q (writePort s p k v) := by
  unfold writePort
  repeat' first
    | with_reducible assumption
    | with_reducible apply modPort_sound

theorem writeCv_sound (s : State) (u k v : Nat) (hs : Sound Q s) : Sound Q (writeCv s u k v) := by
  unfold writeCv
  repeat' first
    | with_reducible assumption
    | with_reducible apply modCv_sound

theorem hubWrite_sound (s : State) (o v : Nat) (hs : Sound Q s) : Sound Q (hubWrite s o v) := by
  unfold hubWrite
  repeat' first
    | with_reducible assumption
    | with_reducible apply writeOpxCtl_sound
    | with_reducible apply writeSp_sound
    | with_reducible apply writePort_sound
    | with_reducible apply writeCv_sound
    | extract_lets
    | split
    | simp only [sound_mk_iff, sound_mb_iff, sound_dram_iff, clok_mk_iff, clok_vr_iff, memok_mk_iff]

theorem execRegisterWrite_sound (host : Bool) (addr : Nat) (value : Word64) (s : State) (hs : Sound Q s) : SoundR Q (execRegisterWrite host addr value s) := by
  unfold execRegisterWrite
  repeat' first
    | with_reducible assumption
    | with_reducible apply mbWrite_sound
    | with_reducible apply hubWrite_sound
    | with_reducible apply soundR_next
    | split

theorem deliver_sound (s : State) (l : List Byte) (poison : Bool) (hs : Sound Q s) : Sound Q (deliver s l poison) := by
  unfold deliver
  repeat' first
    | with_reducible assumption
    | simp only [sound_mk_iff, sound_mb_iff, sound_dram_iff, clok_mk_iff, clok_vr_iff, memok_mk_iff]

theorem uncovered_sound (s : State) (acc : Access) (hs : Sound Q s) : Sound Q (uncovered s acc) := by
  unfold uncovered
  repeat' first
    | with_reducible assumption
    | with_reducible apply countAperture_sound
    | with_reducible apply deliver_sound
    | extract_lets
    | split

theorem wordsOf_sound (rd : State → Nat → Nat × State) (hr : ∀ (s : State) (o : Nat), Sound Q s → Sound Q (rd s o).2) (l : List Nat) (s : State) (hs : Sound Q s) :
    Sound Q (wordsOf rd l s).2 := by
  induction l generalizing s with
  | nil => exact hs
  | cons o r ih => exact ih _ (hr _ _ hs)

theorem regBytes_sound (rd : State → Nat → Nat × State) (s : State) (o n : Nat) (hrd : ∀ (t : State) (n : Nat), Sound Q t → Sound Q (rd t n).2)
    (hs : Sound Q s) : Sound Q (regBytes rd s o n) := deliver_sound _ _ _ (wordsOf_sound _ hrd _ _ hs)

theorem serveReq_sound (s : State) (r : TtReq) (hs : Sound Q s) : Sound Q (serveReq s r) := by
  unfold serveReq
  repeat' first
    | with_reducible assumption
    | with_reducible apply devRead_sound
    | with_reducible apply devWrite_sound
    | with_reducible apply ttCharge_sound
    | with_reducible apply chargeCells_sound
    | with_reducible apply chargeDev_sound
    | with_reducible apply countAperture_sound
    | with_reducible apply hubRead_sound
    | with_reducible apply dbgAnswer_sound
    | with_reducible apply deliver_sound
    | with_reducible apply regBytes_sound
    | split
    | simp only [sound_mk_iff, sound_mb_iff, sound_dram_iff, clok_mk_iff, clok_vr_iff, memok_mk_iff]

theorem keepReq_sound (s : State) (r : TtReq) (hs : Sound Q s) : Sound Q (keepReq s r) := by
  unfold keepReq
  repeat' first
    | with_reducible assumption
    | with_reducible apply waitCells_sound
    | with_reducible apply dbgAnswer_sound
    | split
    | simp only [sound_mk_iff, sound_mb_iff, sound_dram_iff, clok_mk_iff, clok_vr_iff, memok_mk_iff]

theorem takeReq_sound (s : State) (r : TtReq) (hs : Sound Q s) : Sound Q (takeReq s r) := by
  unfold takeReq
  repeat' first
    | with_reducible assumption
    | with_reducible apply serveReq_sound
    | with_reducible apply keepReq_sound
    | split

theorem serveWaiting_sound (s : State) (hs : Sound Q s) : Sound Q (serveWaiting s) := by
  unfold serveWaiting
  repeat' first
    | with_reducible assumption
    | with_reducible apply takeReq_sound
    | with_reducible apply foldl_sound
    | extract_lets
    | simp only [sound_mk_iff, sound_mb_iff, sound_dram_iff, clok_mk_iff, clok_vr_iff, memok_mk_iff]

theorem execTimetablePeriod_sound (kind inst : Nat) (s : State) (hs : Sound Q s) : SoundR Q (execTimetablePeriod kind inst s) := by
  unfold execTimetablePeriod
  repeat' first
    | with_reducible assumption
    | with_reducible apply modCluster_sound
    | with_reducible apply ttRefill_sound
    | with_reducible apply flushPort_sound
    | with_reducible apply advanceAll_sound
    | with_reducible apply serveWaiting_sound
    | with_reducible apply soundR_next
    | with_reducible apply foldl_sound
    | intro _
    | split
    | simp only [sound_mk_iff, sound_mb_iff, sound_dram_iff, clok_mk_iff, clok_vr_iff, memok_mk_iff]

theorem apertureAccess_sound (s : State) (off : Nat) (acc : Access) (hs : Sound Q s) : Sound Q (apertureAccess s off acc) := by
  unfold apertureAccess
  repeat' first
    | with_reducible assumption
    | with_reducible apply countAperture_sound
    | with_reducible apply mbWrite_sound
    | with_reducible apply uncovered_sound
    | with_reducible apply regBytes_sound
    | with_reducible apply takeReq_sound
    | intro _
    | extract_lets
    | split

theorem execHostWindowAccess_sound (off : Nat) (acc : Access) (s : State) (hs : Sound Q s) : SoundR Q (execHostWindowAccess off acc s) := by
  unfold execHostWindowAccess
  repeat' first
    | with_reducible assumption
    | with_reducible apply hostActivity_sound
    | with_reducible apply apertureAccess_sound
    | with_reducible apply soundR_next
    | split

theorem execTabletWrite_sound (lc mem bank : Nat) (value : BitVec 2) (s : State) (hs : Sound Q s) : SoundR Q (execTabletWrite lc mem bank value s) := by
  unfold execTabletWrite
  repeat' first
    | with_reducible assumption
    | with_reducible apply writeTablet_sound
    | with_reducible apply serveWaiting_sound
    | with_reducible apply soundR_next

theorem execWindowAccess_sound (lc off : Nat) (tag : Option (BitVec 4)) (acc : Access) (s : State) (hs : Sound Q s) : SoundR Q (execWindowAccess lc off tag acc s) := by
  unfold execWindowAccess
  repeat' first
    | with_reducible assumption
    | with_reducible apply takeReq_sound
    | with_reducible apply soundR_next
    | split

theorem execDbgAccess_sound (dr : BitVec 128) (s : State) (hs : Sound Q s) : SoundR Q (execDbgAccess dr s) := by
  unfold execDbgAccess
  repeat' first
    | with_reducible assumption
    | with_reducible apply countAperture_sound
    | with_reducible apply hubRead_sound
    | with_reducible apply tapSelect_sound
    | with_reducible apply tapRefuse_sound
    | with_reducible apply dbgEnd_sound
    | with_reducible apply takeReq_sound
    | with_reducible apply soundR_next
    | extract_lets
    | split

theorem execGetInfo_sound (m : Msg) (s : State) (hs : Sound Q s) : SoundR Q (execGetInfo m s) := by
  unfold execGetInfo
  repeat' first
    | with_reducible assumption
    | with_reducible apply ok_sound
    | with_reducible apply takeArgs_sound
    | with_reducible apply soundR_next
    | intro _

theorem execGetState_sound (m : Msg) (s : State) (hs : Sound Q s) : SoundR Q (execGetState m s) := by
  unfold execGetState
  repeat' first
    | with_reducible assumption
    | with_reducible apply ok_sound
    | with_reducible apply takeArgs_sound
    | with_reducible apply soundR_next
    | intro _

theorem execGetFaultLog_sound (m : Msg) (s : State) (hs : Sound Q s) : SoundR Q (execGetFaultLog m s) := by
  refine soundR_next (takeArgs_sound _ _ _ _ _ hs (fun t ht => ?_))
  dsimp only
  split
  · exact badArg_sound _ _ _ ht
  · split
    · exact badArg_sound _ _ _ ht
    · have hf := foldl_sound (f := fun s i => hubTouch s (32768 + i % 16384)) (l := rangeFrom (max (mb m 0 32) (t.flog.next - t.flog.entries.length))
        (logSlice t.flog (mb m 0 32) (mb m 32 16)).length) ht (fun _ _ h => hubTouch_sound _ _ h)
      exact ok_sound _ _ _ _ (sound_comp (chargeCore_sound _ _ hf) (compWrite_wf hf.comp))

theorem execSetPerf_sound (m : Msg) (s : State) (hs : Sound Q s) : SoundR Q (execSetPerf m s) := by
  unfold execSetPerf
  repeat' first
    | with_reducible assumption
    | with_reducible apply refreshPowerAlert_sound
    | with_reducible apply ok_sound
    | with_reducible apply takeArgs_sound
    | with_reducible apply modPower_sound
    | with_reducible apply sampleOnChange_sound
    | with_reducible apply soundR_next
    | intro _

theorem execSetWake_sound (m : Msg) (s : State) (hs : Sound Q s) : SoundR Q (execSetWake m s) := by
  unfold execSetWake
  repeat' first
    | with_reducible assumption
    | with_reducible apply ok_sound
    | with_reducible apply takeArgs_sound
    | with_reducible apply soundR_next
    | intro _
    | extract_lets
    | simp only [sound_mk_iff, sound_mb_iff, sound_dram_iff, clok_mk_iff, clok_vr_iff, memok_mk_iff]

theorem execGetPowerStats_sound (m : Msg) (s : State) (hs : Sound Q s) : SoundR Q (execGetPowerStats m s) := by
  unfold execGetPowerStats
  repeat' first
    | with_reducible assumption
    | with_reducible apply ok_sound
    | with_reducible apply takeArgs_sound
    | with_reducible apply soundR_next
    | intro _

theorem execBudgetSet_sound (m : Msg) (s : State) (hs : Sound Q s) : SoundR Q (execBudgetSet m s) := by
  unfold execBudgetSet
  repeat' first
    | with_reducible assumption
    | with_reducible apply ok_sound
    | with_reducible apply badArg_sound
    | with_reducible apply takeArgs_sound
    | with_reducible apply soundR_next
    | intro _
    | split
    | simp only [sound_mk_iff, sound_mb_iff, sound_dram_iff, clok_mk_iff, clok_vr_iff, memok_mk_iff]

theorem execBudgetGet_sound (m : Msg) (s : State) (hs : Sound Q s) : SoundR Q (execBudgetGet m s) := by
  unfold execBudgetGet
  repeat' first
    | with_reducible assumption
    | with_reducible apply ok_sound
    | with_reducible apply badArg_sound
    | with_reducible apply takeArgs_sound
    | with_reducible apply soundR_next
    | intro _
    | extract_lets
    | split

theorem modSu_sound (s : State) (f : Security → Security) (hs : Sound Q s) : Sound Q (modSu s f) := by
  unfold modSu
  repeat' first
    | with_reducible assumption
    | simp only [sound_mk_iff, sound_mb_iff, sound_dram_iff, clok_mk_iff, clok_vr_iff, memok_mk_iff]

theorem blockExact_sound (s : State) (m : Msg) (n : Nat) (f : List Byte → State → State) (hs : Sound Q s)
    (hf : ∀ (l : List Byte) (t : State), Sound Q t → Sound Q (f l t)) : Sound Q (blockExact s m n f) := by
  have h := readBlock_sound s m hs
  unfold blockExact
  split
  · exact h.1 _ ‹_›
  · have h' := h.2 _ _ ‹_›
    split
    · exact checkError_sound _ _ _ h'
    · exact hf _ _ h'

theorem execAssignTenant_sound (m : Msg) (s : State) (hs : Sound Q s) : SoundR Q (execAssignTenant m s) := by
  unfold execAssignTenant
  repeat' first
    | with_reducible assumption
    | with_reducible apply changeState_sound
    | with_reducible apply ok_sound
    | with_reducible apply stateRefused_sound
    | with_reducible apply badArg_sound
    | with_reducible apply notAuth_sound
    | with_reducible apply takeCommand_sound
    | with_reducible apply checkBody_sound
    | with_reducible apply modSu_sound
    | with_reducible apply blockExact_sound
    | with_reducible apply soundR_next
    | intro _
    | extract_lets
    | split
    | simp only [sound_mk_iff, sound_mb_iff, sound_dram_iff, clok_mk_iff, clok_vr_iff, memok_mk_iff]

theorem execSeal_sound (m : Msg) (s : State) (hs : Sound Q s) : SoundR Q (execSeal m s) := by
  unfold execSeal
  repeat' first
    | with_reducible assumption
    | with_reducible apply changeState_sound
    | with_reducible apply ok_sound
    | with_reducible apply stateRefused_sound
    | with_reducible apply takeArgs_sound
    | with_reducible apply closeHwins_sound
    | with_reducible apply soundR_next
    | intro _
    | extract_lets
    | split

theorem fabricScrub_sound (s : State) (hs : Sound Q s) : Sound Q (fabricScrub s) := by
  unfold fabricScrub
  repeat' first
    | with_reducible assumption
    | extract_lets
    | simp only [sound_mk_iff, sound_mb_iff, sound_dram_iff, clok_mk_iff, clok_vr_iff, memok_mk_iff]

theorem startOos_sound (s : State) (hs : Sound Q s) : Sound Q (startOos s) := by
  unfold startOos
  repeat' first
    | with_reducible assumption
    | with_reducible apply modPort_sound
    | with_reducible apply foldl_sound
    | intro _

theorem endOos_sound (s : State) (hs : Sound Q s) : Sound Q (endOos s) := by
  unfold endOos
  repeat' first
    | with_reducible assumption
    | with_reducible apply modPort_sound
    | with_reducible apply foldl_sound
    | intro _

theorem beginScrub_sound (s : State) (m : Msg) (toDbg : Nat) (hs : Sound Q s) : Sound Q (beginScrub s m toDbg) := by
  unfold beginScrub
  repeat' first
    | with_reducible assumption
    | with_reducible apply setAlert_sound
    | with_reducible apply setOp_sound
    | with_reducible apply faultLong_sound
    | with_reducible apply abandonCkpt_sound
    | with_reducible apply answerPause_sound
    | with_reducible apply releaseConsist_sound
    | with_reducible apply closeHwins_sound
    | with_reducible apply modSu_sound
    | with_reducible apply fabricScrub_sound
    | with_reducible apply startOos_sound
    | split
    | simp only [sound_mk_iff, sound_mb_iff, sound_dram_iff, clok_mk_iff, clok_vr_iff, memok_mk_iff]

theorem scrubCluster_sound (c : Cluster) : ClOk (scrubCluster c) :=
  ⟨⟨rfl, rfl, rfl⟩, rfl⟩

theorem sparseOf_mem {α : Type} [DecidableEq α] {d : α} {l : List α} {P : α → Prop} (hd : P d) (h : ∀ x ∈ l, P x) :
    ∀ e ∈ sparseOf d l, P e.2 := by
  intro e he
  unfold sparseOf at he
  simp only [List.mem_filterMap, List.mem_range] at he
  obtain ⟨i, hi, he⟩ := he
  split at he
  · simp at he
  · simp only [Option.some.injEq] at he
    subst he
    simp only [List.getD_eq_getElem?_getD, List.getElem?_eq_getElem hi, Option.getD_some]
    exact h _ (List.getElem_mem hi)

theorem scrubMemories_sound (s : State) (hs : Sound Q s) : Sound Q (scrubMemories s) := by
  refine ⟨hs.queue, rfl, hs.comp, ?_, hs.log, hs.evq, hs.long⟩
  refine sparseOf_mem clok_reset (fun x hx => ?_)
  rw [List.mem_map] at hx
  obtain ⟨lc, _, rfl⟩ := hx
  exact scrubCluster_sound _

theorem stubbornGranules_sound (s : State) (l : List (Nat × Nat)) (hs : Sound Q s) : Sound Q (stubbornGranules s l) := by
  unfold stubbornGranules
  repeat' first
    | with_reducible assumption
    | with_reducible apply logEvent_sound
    | with_reducible apply modSu_sound
    | with_reducible apply foldl_sound
    | intro _
    | simp only [sound_mk_iff, sound_mb_iff, sound_dram_iff, clok_mk_iff, clok_vr_iff, memok_mk_iff]

theorem measureLayer2_sound (s : State) (fw sb cfg : ImageCopy) (hs : Sound Q s) : Sound Q (measureLayer2 s fw sb cfg) := by
  unfold measureLayer2
  repeat' first
    | with_reducible assumption
    | extract_lets
    | simp only [sound_mk_iff, sound_mb_iff, sound_dram_iff, clok_mk_iff, clok_vr_iff, memok_mk_iff]

theorem reloadFw_sound (s : State) (hs : Sound Q s) : SoundO Q (reloadFw s) := by
  intro t h
  obtain ⟨n, -, rfl⟩ := Option.map_eq_some_iff.1 h
  exact measureLayer2_sound _ _ _ _ (sound_mk hs)

theorem chargeFill_sound (s : State) (hs : Sound Q s) : Sound Q (chargeFill s) := by
  unfold chargeFill
  repeat' first
    | with_reducible assumption
    | with_reducible apply setTtCell_sound
    | with_reducible apply foldl_sound
    | intro _

theorem setDbg_sound (s : State) (l : Nat) (hs : Sound Q s) : Sound Q (setDbg s l) := by
  unfold setDbg
  repeat' first
    | with_reducible assumption
    | with_reducible apply logEvent_sound
    | split
    | simp only [sound_mk_iff, sound_mb_iff, sound_dram_iff, clok_mk_iff, clok_vr_iff, memok_mk_iff]

theorem finishScrub_sound (s : State) (m : Msg) (w : WorkResult) (body : Nat × Nat) (hs : Sound Q s) : Sound Q (finishScrub s m w body) := by
  unfold finishScrub
  split
  · exact finish_sound _ _ _ _ _ (modSu_sound _ _ hs)
  · extract_lets +onlyGivenNames lvl s1
    have h1 : Sound Q s1 := stubbornGranules_sound _ _ (chargeFill_sound _ (scrubMemories_sound _ (modSu_sound _ _ hs)))
    clear_value s1
    split
    · exact modSu_sound _ _ h1
    · rename_i t ht
      have h2 : Sound Q t := reloadFw_sound _ h1 _ ht
      refine finish_sound _ _ _ _ _ (setDbg_sound _ _ (foldl_sound ?_ (fun _ _ h => testFailed_sound _ _ _ h)))
      exact changeState_sound _ _ _ (setAlert_sound _ _ (modSu_sound _ _ (endOos_sound _ (sound_mk h2))))

theorem execReleaseTenant_sound (m : Msg) (s : State) (hs : Sound Q s) : SoundR Q (execReleaseTenant m s) := by
  unfold execReleaseTenant
  repeat' first
    | with_reducible assumption
    | with_reducible apply busy_sound
    | with_reducible apply takeArgs_sound
    | with_reducible apply accept_sound
    | with_reducible apply beginScrub_sound
    | with_reducible apply soundR_next
    | intro _
    | extract_lets
    | split

theorem execAttest_sound (m : Msg) (s : State) (hs : Sound Q s) : SoundR Q (execAttest m s) := by
  unfold execAttest
  repeat' first
    | with_reducible assumption
    | with_reducible apply badArg_sound
    | with_reducible apply takeArgs_sound
    | with_reducible apply accept_sound
    | with_reducible apply soundR_next
    | intro _
    | extract_lets
    | split

theorem finishAttest_sound (s : State) (m : Msg) (hs : Sound Q s) : Sound Q (finishAttest s m) := by
  unfold finishAttest
  dsimp only
  exact finish_sound _ _ _ _ _ (modSu_sound _ _ (sound_comp hs (compWrite_wf (compWrite_wf hs.comp))))

theorem execKeyImport_sound (m : Msg) (s : State) (hs : Sound Q s) : SoundR Q (execKeyImport m s) := by
  unfold execKeyImport
  repeat' first
    | with_reducible assumption
    | with_reducible apply badArg_sound
    | with_reducible apply busy_sound
    | with_reducible apply notAuth_sound
    | with_reducible apply takeCommand_sound
    | with_reducible apply checkBody_sound
    | with_reducible apply accept_sound
    | with_reducible apply blockExact_sound
    | with_reducible apply soundR_next
    | intro _
    | extract_lets
    | split

theorem applyKey_sound (s : State) (l : List Byte) (k : Option (BitVec 256)) (hs : Sound Q s) : Sound Q (applyKey s l k) := by
  unfold applyKey
  repeat' first
    | with_reducible assumption
    | with_reducible apply modSu_sound
    | extract_lets
    | split
    | simp only [sound_mk_iff, sound_mb_iff, sound_dram_iff, clok_mk_iff, clok_vr_iff, memok_mk_iff]

theorem finishKeyImport_sound (s : State) (m : Msg) (aux : Nat) (hs : Sound Q s) : Sound Q (finishKeyImport s m aux) := by
  unfold finishKeyImport
  repeat' first
    | with_reducible assumption
    | with_reducible apply finish_sound
    | with_reducible apply applyKey_sound
    | extract_lets
    | split

theorem openDebug_sound (s : State) (m : Msg) (hs : Sound Q s) : Sound Q (openDebug s m) := by
  unfold openDebug
  repeat' first
    | with_reducible assumption
    | with_reducible apply ok_sound
    | with_reducible apply stateRefused_sound
    | with_reducible apply busy_sound
    | with_reducible apply accept_sound
    | with_reducible apply beginScrub_sound
    | with_reducible apply setDbg_sound
    | intro _
    | split

theorem execDebugOpen_sound (m : Msg) (s : State) (hs : Sound Q s) : SoundR Q (execDebugOpen m s) := by
  unfold execDebugOpen
  repeat' first
    | with_reducible assumption
    | with_reducible apply badArg_sound
    | with_reducible apply notAuth_sound
    | with_reducible apply takeCommand_sound
    | with_reducible apply checkBody_sound
    | with_reducible apply blockExact_sound
    | with_reducible apply openDebug_sound
    | with_reducible apply soundR_next
    | intro _
    | extract_lets
    | split

theorem execDebugClose_sound (m : Msg) (s : State) (hs : Sound Q s) : SoundR Q (execDebugClose m s) := by
  unfold execDebugClose
  repeat' first
    | with_reducible assumption
    | with_reducible apply ok_sound
    | with_reducible apply stateRefused_sound
    | with_reducible apply takeArgs_sound
    | with_reducible apply setDbg_sound
    | with_reducible apply soundR_next
    | intro _
    | extract_lets
    | split

theorem execFwUpdate_sound (m : Msg) (s : State) (hs : Sound Q s) : SoundR Q (execFwUpdate m s) := by
  refine soundR_next (takeCommand_sound _ _ _ _ hs (fun t ht => ?_))
  have h := readBlock_sound t m ht
  split
  · exact h.1 _ ‹_›
  · have h2 := h.2 _ _ ‹_›
    split
    · exact notAuth_sound _ _ h2
    · refine checkBody_sound _ _ _ _ h2 (fun u hu => ?_)
      split
      · exact busy_sound _ _ _ hu
      · exact accept_sound _ _ _ _ hu (fun v hv => hv)

theorem finishFwUpdate_sound (s : State) (m : Msg) (aux : Nat) (hs : Sound Q s) : Sound Q (finishFwUpdate s m aux) := by
  unfold finishFwUpdate
  repeat' first
    | with_reducible assumption
    | with_reducible apply finish_sound
    | extract_lets
    | simp only [sound_mk_iff, sound_mb_iff, sound_dram_iff, clok_mk_iff, clok_vr_iff, memok_mk_iff]

theorem modStore_sound (s : State) (f : Store → Store) (hs : Sound Q s) : Sound Q (modStore s f) := by
  unfold modStore
  repeat' first
    | with_reducible assumption
    | simp only [sound_mk_iff, sound_mb_iff, sound_dram_iff, clok_mk_iff, clok_vr_iff, memok_mk_iff]

theorem loseRec_sound (s : State) (r : Rec) (n : Nat) (hs : Sound Q s) : Sound Q (loseRec s r n) := by
  unfold loseRec
  repeat' first
    | with_reducible assumption
    | with_reducible apply logEvent_sound
    | with_reducible apply modStore_sound
    | with_reducible apply foldl_sound
    | intro _
    | extract_lets
    | split

theorem loseRecord_sound (s : State) (b : Nat) (hs : Sound Q s) : Sound Q (loseRecord s b) := by
  unfold loseRecord
  repeat' first
    | with_reducible assumption
    | with_reducible apply drawFree_sound
    | with_reducible apply loseRec_sound
    | extract_lets
    | split

theorem readRec_sound (s : State) (r : Rec) (hs : Sound Q s) : Sound Q (readRec s r) := by
  unfold readRec
  repeat' first
    | with_reducible assumption
    | with_reducible apply drawFree_sound
    | with_reducible apply modStore_sound
    | with_reducible apply loseRec_sound
    | extract_lets
    | split

theorem readRecs_sound (s : State) (rs : List Rec) (hs : Sound Q s) : Sound Q (readRecs s rs) := by
  unfold readRecs
  repeat' first
    | with_reducible assumption
    | with_reducible apply chargeNand_sound
    | with_reducible apply readRec_sound
    | with_reducible apply foldl_sound

theorem execStorePatrol_sound (block step : Nat) (overHalf : Bool) (s : State) (hs : Sound Q s) : SoundR Q (execStorePatrol block step overHalf s) := by
  unfold execStorePatrol
  repeat' first
    | with_reducible assumption
    | with_reducible apply gate_sound
    | with_reducible apply chargeNand_sound
    | with_reducible apply modStore_sound
    | with_reducible apply loseRecord_sound
    | with_reducible apply soundR_next
    | extract_lets
    | split

theorem eraseOne_sound (s : State) (b : Nat) (hs : Sound Q s) : Sound Q (eraseOne s b) := by
  unfold eraseOne
  repeat' first
    | with_reducible assumption
    | with_reducible apply storeWear_sound
    | with_reducible apply chargeErases_sound
    | with_reducible apply modStore_sound

theorem moveBlock_sound (s : State) (b t : Nat) (hs : Sound Q s) : Sound Q (moveBlock s b t) := by
  unfold moveBlock
  repeat' first
    | with_reducible assumption
    | with_reducible apply chargeNand_sound
    | with_reducible apply modStore_sound
    | with_reducible apply eraseOne_sound
    | extract_lets
    | split

theorem execBlockRefresh_sound (block target : Nat) (s : State) (hs : Sound Q s) : SoundR Q (execBlockRefresh block target s) := by
  unfold execBlockRefresh
  repeat' first
    | with_reducible assumption
    | with_reducible apply gate_sound
    | with_reducible apply eraseOne_sound
    | with_reducible apply moveBlock_sound
    | with_reducible apply soundR_next
    | split

theorem execWearLevelMove_sound (block target : Nat) (s : State) (hs : Sound Q s) : SoundR Q (execWearLevelMove block target s) := by
  unfold execWearLevelMove
  repeat' first
    | with_reducible assumption
    | with_reducible apply gate_sound
    | with_reducible apply moveBlock_sound
    | with_reducible apply soundR_next
    | extract_lets
    | split

theorem execGrownBad_sound (block target : Nat) (s : State) (hs : Sound Q s) : SoundR Q (execGrownBad block target s) := by
  unfold execGrownBad
  repeat' first
    | with_reducible assumption
    | with_reducible apply gate_sound
    | with_reducible apply storeWear_sound
    | with_reducible apply chargeNand_sound
    | with_reducible apply modStore_sound
    | with_reducible apply soundR_next
    | extract_lets
    | split

theorem secondDie_sound (s : State) (hs : Sound Q s) : Sound Q (secondDie s) := by
  unfold secondDie
  repeat' first
    | with_reducible assumption
    | with_reducible apply drawFree_sound
    | with_reducible apply loseRec_sound
    | with_reducible apply foldl_sound
    | intro _

theorem execStoreDieLost_sound (channel die : Nat) (s : State) (hs : Sound Q s) : SoundR Q (execStoreDieLost channel die s) := by
  unfold execStoreDieLost
  repeat' first
    | with_reducible assumption
    | with_reducible apply logEvent_sound
    | with_reducible apply modStore_sound
    | with_reducible apply secondDie_sound
    | with_reducible apply soundR_next
    | split
    | simp only [sound_mk_iff, sound_mb_iff, sound_dram_iff, clok_mk_iff, clok_vr_iff, memok_mk_iff]

theorem execRebuildEnd_sound (s : State) (hs : Sound Q s) : SoundR Q (execRebuildEnd s) := by
  unfold execRebuildEnd
  repeat' first
    | with_reducible assumption
    | with_reducible apply drawFree_sound
    | with_reducible apply chargeCells_sound
    | with_reducible apply gate_sound
    | with_reducible apply modStore_sound
    | with_reducible apply soundR_next
    | extract_lets
    | split

end Sys2Proof.Machine
end

