-- ==== Sys2Proof/Laws/SoundFabric.lean ====
section
/-! SUPPORT. What `Sound` says of checkpoints, buddies and the fabric: each operation keeps it. -/

set_option linter.unusedSimpArgs false
set_option linter.unusedTactic false

namespace Sys2Proof.Machine

variable {Q : List Instr}

theorem mountStore_sound (s : State) (logBad : Bool) (hs : Sound Q s) : Sound Q (mountStore s logBad) := by
  unfold mountStore
  extract_lets +onlyGivenNames st s1
  have h1 : Sound Q s1 := sound_mk hs
  clear_value s1
  split
  · extract_lets +onlyGivenNames x n lost evq
    refine flushEvents_sound _ ⟨h1.queue, h1.dram, h1.comp, h1.cl, ?_, ?_, h1.long⟩
    · simp only [mergeLog, List.length_take]
      omega
    · simp only [evq, List.length_take]
      omega
  · exact h1

theorem retryMount_sound (s : State) (hs : Sound Q s) : Sound Q (retryMount s) := by
  unfold retryMount
  split
  · extract_lets +onlyGivenNames st d e
    have hd : Sound Q d.2 := drawFree_sound _ _ _ (sound_mk hs)
    have he : Sound Q e.2 := drawFree_sound _ _ _ hd
    clear_value e
    split
    · exact mountStore_sound _ _ he
    · exact he
  · exact hs

theorem execCkptWrite_sound (m : Msg) (s : State) (hs : Sound Q s) : SoundR Q (execCkptWrite m s) := by
  unfold execCkptWrite
  repeat' first
    | with_reducible assumption
    | with_reducible apply busy_sound
    | with_reducible apply exhausted_sound
    | with_reducible apply takeArgs_sound
    | with_reducible apply accept_sound
    | with_reducible apply modCkpt_sound
    | with_reducible apply retryMount_sound
    | with_reducible apply soundR_next
    | intro _
    | extract_lets
    | split

theorem copyHold_sound (s : State) (n : Nat) (hs : Sound Q s) : Sound Q (copyHold s n) := by
  unfold copyHold
  repeat' first
    | with_reducible assumption
    | with_reducible apply writeHold_sound
    | with_reducible apply foldl_sound
    | split

theorem execCkptHoldRelease_sound (n : Nat) (s : State) (hs : Sound Q s) : SoundR Q (execCkptHoldRelease n s) := by
  unfold execCkptHoldRelease
  repeat' first
    | with_reducible assumption
    | with_reducible apply gate_sound
    | with_reducible apply advanceCkpt_sound
    | with_reducible apply copyHold_sound
    | with_reducible apply soundR_next

theorem execBuddyAckTimeout_sound (s : State) (hs : Sound Q s) : SoundR Q (execBuddyAckTimeout s) := by
  unfold execBuddyAckTimeout
  repeat' first
    | with_reducible assumption
    | with_reducible apply modCut_sound
    | with_reducible apply postCkptFailed_sound
    | with_reducible apply advanceCkpt_sound
    | with_reducible apply soundR_next
    | split

theorem ckptAcked_sound (s : State) (p jslot midx seq : Nat) (hs : Sound Q s) : Sound Q (ckptAcked s p jslot midx seq) := by
  unfold ckptAcked
  repeat' first
    | with_reducible assumption
    | with_reducible apply modCut_sound
    | with_reducible apply advanceCkpt_sound
    | split

theorem finishCkptWrite_sound (s : State) (m : Msg) (hs : Sound Q s) : Sound Q (finishCkptWrite s m) := by
  unfold finishCkptWrite
  repeat' first
    | with_reducible assumption
    | with_reducible apply writeHold_sound
    | with_reducible apply advanceCkpt_sound
    | with_reducible apply foldl_sound
    | split

theorem execCkptPolicy_sound (m : Msg) (s : State) (hs : Sound Q s) : SoundR Q (execCkptPolicy m s) := by
  refine soundR_next (takeCommand_sound _ _ _ _ hs (fun t ht => ?_))
  have h := readBlock_sound t m ht
  split
  · exact h.1 _ ‹_›
  · have h' := h.2 _ _ ‹_›
    split
    · exact checkError_sound _ _ _ h'
    · refine checkBody_sound _ _ _ _ h' (fun u hu => ?_)
      split
      · exact badArg_sound _ _ _ hu
      · exact ok_sound _ _ _ _ (modCkpt_sound _ _ (retryMount_sound _ hu))

theorem execBuddyPair_sound (m : Msg) (s : State) (hs : Sound Q s) : SoundR Q (execBuddyPair m s) := by
  unfold execBuddyPair
  repeat' first
    | with_reducible assumption
    | with_reducible apply badArg_sound
    | with_reducible apply busy_sound
    | with_reducible apply takeArgs_sound
    | with_reducible apply accept_sound
    | with_reducible apply sendBuddy_sound
    | with_reducible apply soundR_next
    | intro _
    | extract_lets
    | split

theorem finishBuddyPair_sound (s : State) (m : Msg) (hs : Sound Q s) : Sound Q (finishBuddyPair s m) := by
  unfold finishBuddyPair
  repeat' first
    | with_reducible assumption
    | with_reducible apply finish_sound

theorem readLocal_sound (s : State) (n : Nat) (hs : Sound Q s) : Sound Q ((readLocal s n).2) := by
  unfold readLocal
  repeat' first
    | with_reducible assumption
    | with_reducible apply readRecs_sound
    | split

theorem setReader_sound (s : State) (n : Nat) (hs : Sound Q s) : Sound Q (setReader s n) := by
  unfold setReader
  repeat' first
    | with_reducible assumption
    | extract_lets
    | simp only [sound_mk_iff, sound_mb_iff, sound_dram_iff, clok_mk_iff, clok_vr_iff, memok_mk_iff]

theorem clearReader_sound (s : State) (hs : Sound Q s) : Sound Q (clearReader s) := by
  unfold clearReader
  repeat' first
    | with_reducible assumption
    | extract_lets
    | simp only [sound_mk_iff, sound_mb_iff, sound_dram_iff, clok_mk_iff, clok_vr_iff, memok_mk_iff]

theorem askBuddy_sound (s : State) (n : Nat) (hs : Sound Q s) : Sound Q (askBuddy s n) := by
  unfold askBuddy
  repeat' first
    | with_reducible assumption
    | with_reducible apply sendBuddy_sound
    | split

theorem execCkptRestore_sound (m : Msg) (s : State) (hs : Sound Q s) : SoundR Q (execCkptRestore m s) := by
  unfold execCkptRestore
  repeat' first
    | with_reducible assumption
    | with_reducible apply badArg_sound
    | with_reducible apply busy_sound
    | with_reducible apply takeArgs_sound
    | with_reducible apply accept_sound
    | with_reducible apply modCkpt_sound
    | with_reducible apply noteInterruption_sound
    | with_reducible apply retryMount_sound
    | with_reducible apply setReader_sound
    | with_reducible apply askBuddy_sound
    | with_reducible apply soundR_next
    | intro _
    | extract_lets
    | split

theorem restoreBytes_sound (s : State) (a : Nat) (l : List Byte) (hs : Sound Q s) : Sound Q (restoreBytes s a l) := by
  unfold restoreBytes
  repeat' first
    | with_reducible assumption
    | with_reducible apply devWrite_sound
    | with_reducible apply chargeDev_sound

theorem restoreRanges_sound (s : State) (rs : List (Nat × Nat)) (l : List Byte) (hs : Sound Q s) : Sound Q (restoreRanges s rs l) := by
  induction rs generalizing s l with
  | nil => exact hs
  | cons r rest ih => exact ih _ _ (restoreBytes_sound _ _ _ hs)

theorem askRounds_sound (s : State) (hs : Sound Q s) : Sound Q (askRounds s) := by
  unfold askRounds
  repeat' first
    | with_reducible assumption
    | with_reducible apply askRound_sound
    | with_reducible apply foldl_sound
    | extract_lets
    | simp only [sound_mk_iff, sound_mb_iff, sound_dram_iff, clok_mk_iff, clok_vr_iff, memok_mk_iff]

theorem applyRestore_sound (s : State) (ps : List (RecHdr × List Byte)) (dataStep : Nat) (hs : Sound Q s) :
    Sound Q (applyRestore s ps dataStep).2 := by
  unfold applyRestore
  extract_lets +onlyGivenNames man d waits vt groups sent mons tr s1 s2 s3 s4 next mis s5
  have h1 : Sound Q s1 := sound_mk hs
  clear_value s1
  have h2 : Sound Q s2 := foldl_sound h1 (fun t x ht => restoreBytes_sound _ _ _ ht)
  clear_value s2
  have h3 : Sound Q s3 := restoreRanges_sound _ _ _ h2
  have h4 : Sound Q s4 := restoreRanges_sound _ _ _ h3
  clear_value s4
  have h5 : Sound Q s5 := foldl_sound h4 (fun t x ht => modCluster_sound ht (fun c hc => clok_mk hc))
  clear_value s5
  refine askRounds_sound _ ?_
  split
  · exact logEvent_sound _ _ _ _ _ _ _ h5
  · exact h5

theorem restoreFrom_sound (s : State) (m : Msg) (copy : Nat) (ps : List (RecHdr × List Byte)) (hs : Sound Q s) : Sound Q (restoreFrom s m copy ps) := by
  unfold restoreFrom
  repeat' first
    | with_reducible assumption
    | with_reducible apply finish_sound
    | with_reducible apply modCkpt_sound
    | with_reducible apply applyRestore_sound

theorem finishCkptRestore_sound (s : State) (m : Msg) (aux : Nat) (hs : Sound Q s) : Sound Q (finishCkptRestore s m aux) := by
  unfold finishCkptRestore
  repeat' first
    | with_reducible assumption
    | with_reducible apply setAux_sound
    | with_reducible apply finish_sound
    | with_reducible apply modCkpt_sound
    | with_reducible apply readLocal_sound
    | with_reducible apply clearReader_sound
    | with_reducible apply askBuddy_sound
    | with_reducible apply restoreFrom_sound
    | split
    | simp only [sound_mk_iff, sound_mb_iff, sound_dram_iff, clok_mk_iff, clok_vr_iff, memok_mk_iff]

theorem execCkptVerify_sound (m : Msg) (s : State) (hs : Sound Q s) : SoundR Q (execCkptVerify m s) := by
  unfold execCkptVerify
  repeat' first
    | with_reducible assumption
    | with_reducible apply stateRefused_sound
    | with_reducible apply badArg_sound
    | with_reducible apply busy_sound
    | with_reducible apply takeArgs_sound
    | with_reducible apply accept_sound
    | with_reducible apply modCkpt_sound
    | with_reducible apply retryMount_sound
    | with_reducible apply soundR_next
    | intro _
    | extract_lets
    | split

theorem verifyRound_sound (s : State) (v : F32) (mem grp : Nat) (hs : Sound Q s) : Sound Q (verifyRound s v mem grp) := by
  unfold verifyRound
  repeat' first
    | with_reducible assumption
    | with_reducible apply logEvent_sound
    | with_reducible apply finish_sound
    | with_reducible apply modCkpt_sound
    | with_reducible apply oweStop_sound
    | split
    | simp only [sound_mk_iff, sound_mb_iff, sound_dram_iff, clok_mk_iff, clok_vr_iff, memok_mk_iff]

theorem lossRound_sound (s : State) (v : F32) (mem grp : Nat) (hs : Sound Q s) : Sound Q (lossRound s v mem grp) := by
  unfold lossRound
  repeat' first
    | with_reducible assumption
    | with_reducible apply modCkpt_sound
    | with_reducible apply advanceCkpt_sound
    | with_reducible apply verifyRound_sound
    | extract_lets
    | split

theorem finishCkptVerify_sound (s : State) (m : Msg) (hs : Sound Q s) : Sound Q (finishCkptVerify s m) := by
  unfold finishCkptVerify
  repeat' first
    | with_reducible assumption
    | with_reducible apply finishState_sound
    | split

theorem buddyRx_sound (s : State) (p : Nat) (f : Frame) (kinds : List Nat) (act : Nat → Nat → BuddyHdr → State → Nat × State) (hs : Sound Q s)
    (ha : ∀ (j k : Nat) (h : BuddyHdr) (t : State), Sound Q t → Sound Q (act j k h t).2) : Sound Q (buddyRx s p f kinds act) := by
  unfold buddyRx
  split
  · split
    · exact receiveJob_sound _ _ _ _ _ hs (fun j h l t ht => ha _ _ _ _ ht)
    · exact hs
  · exact receiveJob_sound _ _ _ _ _ hs (fun j h l t ht => ha _ _ _ _ ht)

theorem takePair_sound (p jslot midx : Nat) (b : BuddyHdr) (s : State) (hs : Sound Q s) : Sound Q (takePair p jslot midx b s) := by
  unfold takePair
  repeat' first
    | with_reducible assumption
    | with_reducible apply finish_sound
    | with_reducible apply modCkpt_sound
    | with_reducible apply sendBuddy_sound
    | extract_lets
    | split

theorem execBuddyPairRx_sound (port : Nat) (f : Frame) (s : State) (hs : Sound Q s) : SoundR Q (execBuddyPairRx port f s) := by
  unfold execBuddyPairRx
  repeat' first
    | with_reducible assumption
    | with_reducible apply buddyRx_sound
    | with_reducible apply takePair_sound
    | with_reducible apply soundR_next

theorem storePeer_sound (s : State) (peer ckpt : Nat) (bytes : List Byte) (last : Bool) (hs : Sound Q s) :
    SoundO Q (storePeer s peer ckpt bytes last) := by
  unfold storePeer
  generalize storeRecord s.store s.clk.aon false peer ckpt bytes last = o
  generalize (makeSpace s.store eraseBytes (copyBusy s)).bind (fun st => storeRecord st s.clk.aon false peer ckpt bytes last) = o'
  cases o with
  | some st => exact soundO_some (storeWear_sound _ (chargeNand_sound _ _ _ (sound_mk hs)))
  | none =>
    cases o' with
    | some st => exact soundO_some (storeWear_sound _ (chargeNand_sound _ _ _ (takeSpace_sound _ _ hs)))
    | none => exact soundO_none

theorem noteAsked_sound (s : State) (midx : Nat) (hs : Sound Q s) : Sound Q (noteAsked s midx) := by
  unfold noteAsked
  repeat' first
    | with_reducible assumption
    | with_reducible apply modSlp_sound
    | split

theorem withPeer_sound (s : State) (peer : Nat) (hs : Sound Q s) : SoundO Q (withPeer s peer) := by
  unfold withPeer
  split
  · exact soundO_some hs
  · split
    · exact soundO_some (modCkpt_sound _ _ hs)
    · exact soundO_none

theorem settleOwed_sound (s : State) (i : Inbound) (hs : Sound Q s) : Sound Q ((settleOwed s i).2) := by
  unfold settleOwed
  repeat' first
    | with_reducible assumption
    | with_reducible apply sendAck_sound
    | with_reducible apply noteTaken_sound
    | with_reducible apply foldl_sound
    | intro _

theorem takeRecs_sound (peer ckpt : Nat) (l : List Rec) (i : Inbound) (s : State) (hs : Sound Q s) :
    ∀ j t, takeRecs peer ckpt l i s = some (j, t) → Sound Q t := by
  induction l generalizing i s with
  | nil => intro j t h; simp only [takeRecs, Option.some.injEq, Prod.mk.injEq] at h; exact h.2 ▸ hs
  | cons r rest ih =>
    intro j t h
    unfold takeRecs at h
    dsimp only at h
    split at h
    · simp only [Option.some.injEq, Prod.mk.injEq] at h
      exact h.2 ▸ hs
    · split at h
      · exact ih _ _ hs _ _ h
      · simp only [Option.some.injEq, Prod.mk.injEq] at h
        exact h.2 ▸ hs
      · split at h
        · simp at h
        · rename_i u hu
          exact ih _ _ (storePeer_sound _ _ _ _ _ hs _ hu) _ _ h

theorem joinCkptData_sound (p : Nat) (f : Frame) (b : BuddyHdr) (i : Inbound) (s : State) (hs : Sound Q s) : Sound Q (joinCkptData p f b i s).2 := by
  unfold joinCkptData
  extract_lets +onlyGivenNames parts whole owed
  split
  · exact hs
  · rename_i k t h
    have ht : Sound Q t := takeRecs_sound _ _ _ _ _ hs _ _ h
    dsimp only
    refine modCkpt_sound _ _ (settleOwed_sound _ _ ?_)
    split
    · exact sound_mk ht
    · exact ht

theorem takeCkptData_sound (p : Nat) (f : Frame) (jslot midx : Nat) (b : BuddyHdr) (s : State) (hs : Sound Q s) :
    Sound Q (takeCkptData p f jslot midx b s).2 := by
  unfold takeCkptData
  split
  · exact hs
  · split
    · exact noteAsked_sound _ _ hs
    · split
      · with_reducible exact waitCells_sound _ _ _ hs
      · split
        · exact hs
        · rename_i t h
          have ht : Sound Q t := withPeer_sound _ _ hs _ h
          dsimp only
          split
          · exact ht
          · exact joinCkptData_sound _ _ _ _ _ ht

theorem execBuddyDataRx_sound (port : Nat) (f : Frame) (s : State) (hs : Sound Q s) : SoundR Q (execBuddyDataRx port f s) := by
  unfold execBuddyDataRx
  repeat' first
    | with_reducible assumption
    | with_reducible apply buddyRx_sound
    | with_reducible apply takeCkptData_sound
    | with_reducible apply soundR_next

theorem serveRead_sound (p jslot midx : Nat) (b : BuddyHdr) (s : State) (hs : Sound Q s) : Sound Q ((serveRead p jslot midx b s).2) := by
  unfold serveRead
  repeat' first
    | with_reducible assumption
    | with_reducible apply waitCells_sound
    | with_reducible apply modCkpt_sound
    | with_reducible apply sendBuddyAll_sound
    | with_reducible apply readRecs_sound
    | with_reducible apply noteAsked_sound
    | extract_lets
    | split

theorem execBuddyReadReqRx_sound (port : Nat) (f : Frame) (s : State) (hs : Sound Q s) : SoundR Q (execBuddyReadReqRx port f s) := by
  unfold execBuddyReadReqRx
  repeat' first
    | with_reducible assumption
    | with_reducible apply buddyRx_sound
    | with_reducible apply serveRead_sound
    | with_reducible apply soundR_next

theorem takeReadData_sound (p jslot midx : Nat) (b : BuddyHdr) (s : State) (hs : Sound Q s) : Sound Q (takeReadData p jslot midx b s) := by
  unfold takeReadData
  repeat' first
    | with_reducible assumption
    | with_reducible apply modCkpt_sound
    | split

theorem execBuddyReadDataRx_sound (port : Nat) (f : Frame) (s : State) (hs : Sound Q s) : SoundR Q (execBuddyReadDataRx port f s) := by
  unfold execBuddyReadDataRx
  repeat' first
    | with_reducible assumption
    | with_reducible apply buddyRx_sound
    | with_reducible apply takeReadData_sound
    | with_reducible apply soundR_next

theorem serveSlot_sound (p jslot midx : Nat) (b : BuddyHdr) (s : State) (hs : Sound Q s) : Sound Q ((serveSlot p jslot midx b s).2) := by
  unfold serveSlot
  repeat' first
    | with_reducible assumption
    | with_reducible apply devRead_sound
    | with_reducible apply chargeDev_sound
    | with_reducible apply waitCells_sound
    | with_reducible apply modCkpt_sound
    | with_reducible apply sendBuddyAll_sound
    | with_reducible apply noteAsked_sound
    | extract_lets
    | split

theorem execBuddySlotReqRx_sound (port : Nat) (f : Frame) (s : State) (hs : Sound Q s) : SoundR Q (execBuddySlotReqRx port f s) := by
  unfold execBuddySlotReqRx
  repeat' first
    | with_reducible assumption
    | with_reducible apply buddyRx_sound
    | with_reducible apply serveSlot_sound
    | with_reducible apply soundR_next

theorem placeSlot_sound (s : State) (t ver : Nat) (parts : Sparse (List Byte)) (hs : Sound Q s) : Sound Q (placeSlot s t ver parts) := by
  unfold placeSlot
  repeat' first
    | with_reducible assumption
    | with_reducible apply modVt_sound
    | with_reducible apply restoreBytes_sound

theorem takeSlotData_sound (b : BuddyHdr) (s : State) (hs : Sound Q s) : Sound Q (takeSlotData b s) := by
  unfold takeSlotData
  repeat' first
    | with_reducible assumption
    | with_reducible apply modGroup_sound
    | with_reducible apply modCkpt_sound
    | with_reducible apply placeSlot_sound
    | extract_lets
    | split

theorem execBuddySlotDataRx_sound (port : Nat) (f : Frame) (s : State) (hs : Sound Q s) : SoundR Q (execBuddySlotDataRx port f s) := by
  unfold execBuddySlotDataRx
  repeat' first
    | with_reducible assumption
    | with_reducible apply buddyRx_sound
    | with_reducible apply takeSlotData_sound
    | with_reducible apply soundR_next
    | intro _

theorem startFetch_sound (s : State) (jslot g round : Nat) (hs : Sound Q s) : Sound Q (startFetch s jslot g round) := by
  unfold startFetch
  repeat' first
    | with_reducible assumption
    | with_reducible apply modGroup_sound
    | with_reducible apply modCkpt_sound
    | with_reducible apply sendBuddy_sound
    | with_reducible apply foldl_sound
    | intro _
    | extract_lets
    | split

theorem takePiece_sound (s : State) (p : Nat) (h : Hdr) (pl : List Byte) (note : PieceNote) (hs : Sound Q s) : Sound Q ((takePiece s p h pl note).2) := by
  unfold takePiece
  repeat' first
    | with_reducible assumption
    | with_reducible apply modStage_sound
    | with_reducible apply advanceChunk_sound
    | extract_lets
    | split

theorem takeData_sound (note : PieceNote) (p : Nat) (j : Nat) (h : Hdr) (pl : List Byte) (s : State) (hs : Sound Q s) : Sound Q ((takeData note p j h pl s).2) := by
  unfold takeData
  repeat' first
    | with_reducible assumption
    | with_reducible apply logEvent_sound
    | with_reducible apply modPort_sound
    | with_reducible apply modFstat_sound
    | with_reducible apply takePiece_sound
    | extract_lets
    | split

theorem execDataRx_sound (port : Nat) (f : NotedFrame) (s : State) (hs : Sound Q s) : SoundR Q (execDataRx port f s) := by
  unfold execDataRx
  repeat' first
    | with_reducible assumption
    | with_reducible apply receiveJob_sound
    | with_reducible apply takeData_sound
    | with_reducible apply soundR_next

theorem dropChain_sound (s : State) (p : Nat) (x : Piece) (hs : Sound Q s) : Sound Q (dropChain s p x) := by
  unfold dropChain
  repeat' first
    | with_reducible assumption
    | with_reducible apply modPort_sound
    | with_reducible apply modStage_sound
    | extract_lets
    | split

theorem ackTaken_sound (s : State) (p : Nat) (u : Unacked) (stale : Bool) (hs : Sound Q s) : Sound Q (ackTaken s p u stale) := by
  unfold ackTaken
  repeat' first
    | with_reducible assumption
    | with_reducible apply ckptAcked_sound
    | with_reducible apply dropChain_sound
    | extract_lets
    | split
    | simp only [sound_mk_iff, sound_mb_iff, sound_dram_iff, clok_mk_iff, clok_vr_iff, memok_mk_iff]

theorem takeAck_sound (s : State) (p : Nat) (h : Hdr) (status : Nat) (hs : Sound Q s) : Sound Q (takeAck s p h status) := by
  unfold takeAck
  repeat' first
    | with_reducible assumption
    | with_reducible apply modPort_sound
    | with_reducible apply ackTaken_sound
    | split

theorem receivePlain_sound (s : State) (p : Nat) (f : Frame) (type : Nat) (act : List Byte → State → State) (hs : Sound Q s)
    (ha : ∀ (l : List Byte) (t : State), Sound Q t → Sound Q (act l t)) : Sound Q (receivePlain s p f type act) := by
  unfold receivePlain
  split
  · exact hs
  · extract_lets +onlyGivenNames s1
    have h1 : Sound Q s1 := frameActivity_sound _ _ hs
    clear_value s1
    have h2 := acceptFrame_sound s1 p f h1
    split
    · exact h1
    · split
      · rename_i t ht
        rw [ht] at h2
        exact flushEvents_sound _ h2
      · rename_i pl t ht
        rw [ht] at h2
        exact flushEvents_sound _ (ha _ _ h2)

theorem execAckRx_sound (port : Nat) (f : Frame) (s : State) (hs : Sound Q s) : SoundR Q (execAckRx port f s) := by
  unfold execAckRx
  repeat' first
    | with_reducible assumption
    | with_reducible apply takeAck_sound
    | with_reducible apply receivePlain_sound
    | with_reducible apply soundR_next
    | intro _

theorem takeReadyFrame_sound (p : Nat) (k : Nat) (h : Hdr) (pl : List Byte) (s : State) (hs : Sound Q s) : Sound Q ((takeReadyFrame p k h pl s).2) := by
  unfold takeReadyFrame
  repeat' first
    | with_reducible assumption
    | with_reducible apply takeReady_sound
    | extract_lets
    | split

theorem execReadyRx_sound (port : Nat) (f : Frame) (s : State) (hs : Sound Q s) : SoundR Q (execReadyRx port f s) := by
  unfold execReadyRx
  repeat' first
    | with_reducible assumption
    | with_reducible apply receiveJob_sound
    | with_reducible apply takeReadyFrame_sound
    | with_reducible apply soundR_next

theorem takeDecision_sound (p : Nat) (k : Nat) (h : Hdr) (pl : List Byte) (s : State) (hs : Sound Q s) : Sound Q ((takeDecision p k h pl s).2) := by
  unfold takeDecision
  repeat' first
    | with_reducible assumption
    | with_reducible apply writeRec_sound
    | with_reducible apply applyDecision_sound
    | with_reducible apply keepDecision_sound
    | with_reducible apply sendDecision_sound
    | with_reducible apply askRound_sound
    | with_reducible apply startFetch_sound
    | extract_lets
    | split

theorem execDecisionRx_sound (port : Nat) (f : Frame) (s : State) (hs : Sound Q s) : SoundR Q (execDecisionRx port f s) := by
  unfold execDecisionRx
  repeat' first
    | with_reducible assumption
    | with_reducible apply receiveJob_sound
    | with_reducible apply takeDecision_sound
    | with_reducible apply soundR_next

theorem takeDecReq_sound (p : Nat) (k : Nat) (h : Hdr) (pl : List Byte) (s : State) (hs : Sound Q s) : Sound Q ((takeDecReq p k h pl s).2) := by
  unfold takeDecReq
  repeat' first
    | with_reducible assumption
    | with_reducible apply sendControl_sound
    | extract_lets
    | split

theorem execDecReqRx_sound (port : Nat) (f : Frame) (s : State) (hs : Sound Q s) : SoundR Q (execDecReqRx port f s) := by
  unfold execDecReqRx
  repeat' first
    | with_reducible assumption
    | with_reducible apply receiveJob_sound
    | with_reducible apply takeDecReq_sound
    | with_reducible apply soundR_next

theorem takeOos_sound (p : Nat) (pl : List Byte) (s : State) (hs : Sound Q s) : Sound Q (takeOos p pl s) := by
  unfold takeOos
  repeat' first
    | with_reducible assumption
    | with_reducible apply modPort_sound
    | with_reducible apply memberGone_sound
    | with_reducible apply foldl_sound
    | intro _

theorem execOosRx_sound (port : Nat) (f : Frame) (s : State) (hs : Sound Q s) : SoundR Q (execOosRx port f s) := by
  unfold execOosRx
  repeat' first
    | with_reducible assumption
    | with_reducible apply receivePlain_sound
    | with_reducible apply takeOos_sound
    | with_reducible apply soundR_next

theorem execWakeRx_sound (port : Nat) (f : Frame) (s : State) (hs : Sound Q s) : SoundR Q (execWakeRx port f s) := by
  unfold execWakeRx
  repeat' first
    | with_reducible assumption
    | with_reducible apply acceptFrame_sound
    | with_reducible apply receivePlain_sound
    | with_reducible apply soundR_next
    | intro _
    | extract_lets
    | split

theorem execForeignFrameRx_sound (port : Nat) (f : Frame) (s : State) (hs : Sound Q s) : SoundR Q (execForeignFrameRx port f s) := by
  unfold execForeignFrameRx
  repeat' first
    | with_reducible assumption
    | with_reducible apply acceptFrame_sound
    | with_reducible apply frameActivity_sound
    | with_reducible apply soundR_next
    | extract_lets
    | split

theorem resend_sound (s : State) (p n : Nat) (busy : Bool) (hs : Sound Q s) : Sound Q (resend s p n busy) := by
  unfold resend
  repeat' first
    | with_reducible assumption
    | with_reducible apply modPort_sound
    | with_reducible apply putFrame_sound
    | extract_lets
    | split

theorem execRetransmitTimeout_sound (port n : Nat) (s : State) (hs : Sound Q s) : SoundR Q (execRetransmitTimeout port n s) := by
  unfold execRetransmitTimeout
  repeat' first
    | with_reducible assumption
    | with_reducible apply resend_sound
    | with_reducible apply soundR_next

theorem execBusyRetry_sound (port n : Nat) (s : State) (hs : Sound Q s) : SoundR Q (execBusyRetry port n s) := by
  unfold execBusyRetry
  repeat' first
    | with_reducible assumption
    | with_reducible apply resend_sound
    | with_reducible apply soundR_next

theorem execPeerAbsent_sound (port jslot midx : Nat) (s : State) (hs : Sound Q s) : SoundR Q (execPeerAbsent port jslot midx s) := by
  unfold execPeerAbsent
  repeat' first
    | with_reducible assumption
    | with_reducible apply memberGone_sound
    | with_reducible apply soundR_next
    | extract_lets
    | split

theorem execFlowRoundOpen_sound (port ctx : Nat) (s : State) (hs : Sound Q s) : SoundR Q (execFlowRoundOpen port ctx s) := by
  unfold execFlowRoundOpen
  repeat' first
    | with_reducible assumption
    | with_reducible apply sfClear_sound
    | with_reducible apply modFlow_sound
    | with_reducible apply soundR_next
    | extract_lets
    | split

theorem execContributionReady_sound (port ctx chunk : Nat) (s : State) (hs : Sound Q s) : SoundR Q (execContributionReady port ctx chunk s) := by
  unfold execContributionReady
  repeat' first
    | with_reducible assumption
    | with_reducible apply flushEvents_sound
    | with_reducible apply gate_sound
    | with_reducible apply readOwn_sound
    | with_reducible apply advanceChunk_sound
    | with_reducible apply soundR_next
    | extract_lets
    | split

theorem execSourceReread_sound (port ctx chunk : Nat) (s : State) (hs : Sound Q s) : SoundR Q (execSourceReread port ctx chunk s) := by
  unfold execSourceReread
  repeat' first
    | with_reducible assumption
    | with_reducible apply flushEvents_sound
    | with_reducible apply waitCells_sound
    | with_reducible apply putOwn_sound
    | with_reducible apply rereadRange_sound
    | with_reducible apply advanceChunk_sound
    | with_reducible apply soundR_next
    | extract_lets
    | split

theorem skipPoisoned_sound (s : State) (p ctx c : Nat) (hs : Sound Q s) : Sound Q (skipPoisoned s p ctx c) := by
  unfold skipPoisoned
  repeat' first
    | with_reducible assumption
    | with_reducible apply logEvent_sound
    | with_reducible apply putOwn_sound
    | extract_lets
    | split

theorem execContribDeadline_sound (port ctx chunk : Nat) (s : State) (hs : Sound Q s) : SoundR Q (execContribDeadline port ctx chunk s) := by
  unfold execContribDeadline
  repeat' first
    | with_reducible assumption
    | with_reducible apply flushEvents_sound
    | with_reducible apply modStage_sound
    | with_reducible apply startChain_sound
    | with_reducible apply advanceChunk_sound
    | with_reducible apply skipPoisoned_sound
    | with_reducible apply soundR_next
    | extract_lets
    | split

theorem execStarterTimeout_sound (port ctx chunk : Nat) (s : State) (hs : Sound Q s) : SoundR Q (execStarterTimeout port ctx chunk s) := by
  unfold execStarterTimeout
  repeat' first
    | with_reducible assumption
    | with_reducible apply flushEvents_sound
    | with_reducible apply startChain_sound
    | with_reducible apply advanceChunk_sound
    | with_reducible apply soundR_next
    | extract_lets
    | split

theorem noteSlow_sound (s : State) (k : Nat) (missed : Bool) (hs : Sound Q s) : Sound Q (noteSlow s k missed) := by
  unfold noteSlow
  repeat' first
    | with_reducible assumption
    | with_reducible apply logEvent_sound
    | extract_lets
    | split
    | simp only [sound_mk_iff, sound_mb_iff, sound_dram_iff, clok_mk_iff, clok_vr_iff, memok_mk_iff]

theorem resultElem0_sound (s : State) (f : Flow) (hs : Sound Q s) : Sound Q ((resultElem0 s f).2) := by
  unfold resultElem0
  repeat' first
    | with_reducible assumption
    | with_reducible apply devRead_sound
    | with_reducible apply chargeDev_sound
    | extract_lets
    | split

theorem execFlowRoundComplete_sound (port ctx : Nat) (s : State) (hs : Sound Q s) : SoundR Q (execFlowRoundComplete port ctx s) := by
  unfold execFlowRoundComplete
  repeat' first
    | with_reducible assumption
    | with_reducible apply flushEvents_sound
    | with_reducible apply logEvent_sound
    | with_reducible apply sfAdd_sound
    | with_reducible apply modFlow_sound
    | with_reducible apply modFstat_sound
    | with_reducible apply clearRound_sound
    | with_reducible apply lossRound_sound
    | with_reducible apply noteSlow_sound
    | with_reducible apply resultElem0_sound
    | with_reducible apply soundR_next
    | split
    | simp only [sound_mk_iff, sound_mb_iff, sound_dram_iff, clok_mk_iff, clok_vr_iff, memok_mk_iff]

theorem loseChunk_sound (s : State) (p ctx c : Nat) (hs : Sound Q s) : Sound Q (loseChunk s p ctx c) := by
  unfold loseChunk
  repeat' first
    | with_reducible assumption
    | with_reducible apply drawFree_sound
    | with_reducible apply devWrite_sound
    | with_reducible apply chargeDev_sound
    | with_reducible apply modStage_sound
    | with_reducible apply putResult_sound
    | with_reducible apply closeChunk_sound
    | with_reducible apply foldl_sound
    | intro _
    | split

theorem execRoundCompletionLimit_sound (port ctx : Nat) (s : State) (hs : Sound Q s) : SoundR Q (execRoundCompletionLimit port ctx s) := by
  unfold execRoundCompletionLimit
  repeat' first
    | with_reducible assumption
    | with_reducible apply flushEvents_sound
    | with_reducible apply gate_sound
    | with_reducible apply modFstat_sound
    | with_reducible apply loseChunk_sound
    | with_reducible apply soundR_next
    | with_reducible apply foldl_sound
    | intro _
    | extract_lets
    | split

theorem sendPiece_sound (s : State) (p : Nat) (x : Piece) (hs : Sound Q s) : Sound Q (sendPiece s p x) := by
  unfold sendPiece
  repeat' first
    | with_reducible assumption
    | with_reducible apply sendKept_sound

theorem execPieceTransmit_sound (port n : Nat) (differs : Bool) (s : State) (hs : Sound Q s) : SoundR Q (execPieceTransmit port n differs s) := by
  unfold execPieceTransmit
  repeat' first
    | with_reducible assumption
    | with_reducible apply flushEvents_sound
    | with_reducible apply logEvent_sound
    | with_reducible apply modPort_sound
    | with_reducible apply sendPiece_sound
    | with_reducible apply soundR_next
    | extract_lets
    | split

theorem execOosSend_sound (port : Nat) (s : State) (hs : Sound Q s) : SoundR Q (execOosSend port s) := by
  unfold execOosSend
  repeat' first
    | with_reducible assumption
    | with_reducible apply modPort_sound
    | with_reducible apply putFrame_sound
    | with_reducible apply soundR_next
    | extract_lets
    | split

theorem execCommitStalled_sound (group : Nat) (s : State) (hs : Sound Q s) : SoundR Q (execCommitStalled group s) := by
  unfold execCommitStalled
  repeat' first
    | with_reducible assumption
    | with_reducible apply logEvent_sound
    | with_reducible apply soundR_next
    | split
    | simp only [sound_mk_iff, sound_mb_iff, sound_dram_iff, clok_mk_iff, clok_vr_iff, memok_mk_iff]

theorem execFabricConfig_sound (m : Msg) (s : State) (hs : Sound Q s) : SoundR Q (execFabricConfig m s) := by
  unfold execFabricConfig
  repeat' first
    | with_reducible assumption
    | with_reducible apply modPort_sound
    | with_reducible apply ok_sound
    | with_reducible apply badArg_sound
    | with_reducible apply takeArgs_sound
    | with_reducible apply soundR_next
    | with_reducible apply foldl_sound
    | intro _
    | extract_lets
    | split

theorem writeTables_sound (s : State) (k : Nat) (l : List Byte) (hs : Sound Q s) : Sound Q (writeTables s k l) := by
  unfold writeTables
  repeat' first
    | with_reducible assumption
    | with_reducible apply modJob_sound
    | extract_lets
    | simp only [sound_mk_iff, sound_mb_iff, sound_dram_iff, clok_mk_iff, clok_vr_iff, memok_mk_iff]

theorem execRingJoin_sound (m : Msg) (s : State) (hs : Sound Q s) : SoundR Q (execRingJoin m s) := by
  refine soundR_next (takeCommand_sound _ _ _ _ hs (fun t ht => ?_))
  have h := readBlock_sound t m ht
  split
  · exact h.1 _ ‹_›
  · split
    · exact checkError_sound _ _ _ (h.2 _ _ ‹_›)
    · refine checkBody_sound _ _ _ _ (h.2 _ _ ‹_›) (fun u hu => ?_)
      split
      · exact badArg_sound _ _ _ hu
      · exact exhausted_sound _ _ _ hu
      · split
        · exact exhausted_sound _ _ _ hu
        · split
          · exact busy_sound _ _ _ hu
          · exact accept_sound _ _ _ _ (chargeCore_sound _ _ hu) (fun v hv => writeTables_sound _ _ _ hv)

theorem restartSpaces_sound (s : State) (p : Nat → Bool) (hs : Sound Q s) : Sound Q (restartSpaces s p) := by
  unfold restartSpaces
  repeat' first
    | with_reducible assumption
    | extract_lets
    | simp only [sound_mk_iff, sound_mb_iff, sound_dram_iff, clok_mk_iff, clok_vr_iff, memok_mk_iff]

theorem finishRingJoin_sound (s : State) (m : Msg) (k : Nat) (hs : Sound Q s) : Sound Q (finishRingJoin s m k) := by
  unfold finishRingJoin
  repeat' first
    | with_reducible assumption
    | with_reducible apply modJob_sound
    | with_reducible apply finish_sound
    | with_reducible apply restartSpaces_sound
    | extract_lets
    | split
    | simp only [sound_mk_iff, sound_mb_iff, sound_dram_iff, clok_mk_iff, clok_vr_iff, memok_mk_iff]

theorem takeLeave_sound (s : State) (m : Msg) (op : Nat) (bad : Job → Option BadAt) (may : State → Bool) (hs : Sound Q s) : Sound Q (takeLeave s m op bad may) := by
  unfold takeLeave
  repeat' first
    | with_reducible assumption
    | with_reducible apply stateRefused_sound
    | with_reducible apply badArg_sound
    | with_reducible apply busy_sound
    | with_reducible apply takeArgs_sound
    | with_reducible apply accept_sound
    | intro _
    | extract_lets
    | split

theorem execRingLeaveRemove_sound (m : Msg) (s : State) (hs : Sound Q s) : SoundR Q (execRingLeaveRemove m s) := by
  unfold execRingLeaveRemove
  repeat' first
    | with_reducible assumption
    | with_reducible apply takeLeave_sound
    | with_reducible apply soundR_next

theorem execRingLeaveReadmit_sound (m : Msg) (s : State) (hs : Sound Q s) : SoundR Q (execRingLeaveReadmit m s) := by
  unfold execRingLeaveReadmit
  repeat' first
    | with_reducible assumption
    | with_reducible apply takeLeave_sound
    | with_reducible apply soundR_next

theorem execRingLeaveLeave_sound (m : Msg) (s : State) (hs : Sound Q s) : SoundR Q (execRingLeaveLeave m s) := by
  unfold execRingLeaveLeave
  repeat' first
    | with_reducible assumption
    | with_reducible apply takeLeave_sound
    | with_reducible apply soundR_next

theorem postMembership_sound (s : State) (m : Msg) (job leader : Nat) (hs : Sound Q s) : Sound Q (postMembership s m job leader) := by
  unfold postMembership
  repeat' first
    | with_reducible assumption
    | with_reducible apply logEvent_sound

theorem rewriteCross_sound (s : State) (k g : Nat) (hs : Sound Q s) : Sound Q (rewriteCross s k g) := by
  unfold rewriteCross
  repeat' first
    | with_reducible assumption
    | with_reducible apply drawFree_sound
    | with_reducible apply modCrossEnt_sound
    | split
    | simp only [sound_mk_iff, sound_mb_iff, sound_dram_iff, clok_mk_iff, clok_vr_iff, memok_mk_iff]

theorem rewriteAll_sound (s : State) (k : Nat) (hs : Sound Q s) : Sound Q (rewriteAll s k) := by
  unfold rewriteAll
  repeat' first
    | with_reducible assumption
    | with_reducible apply rewriteCross_sound
    | with_reducible apply foldl_sound
    | intro _
    | split

theorem retryRounds_sound (s : State) (k : Nat) (hs : Sound Q s) : Sound Q (retryRounds s k) := by
  unfold retryRounds
  repeat' first
    | with_reducible assumption
    | with_reducible apply leaderDecide_sound
    | with_reducible apply foldl_sound
    | intro _

theorem changeLeader_sound (s : State) (k : Nat) (hs : Sound Q s) : Sound Q (changeLeader s k) := by
  unfold changeLeader
  repeat' first
    | with_reducible assumption
    | with_reducible apply sendControl_sound
    | with_reducible apply keepDecision_sound
    | with_reducible apply sendDecision_sound
    | with_reducible apply takeReady_sound
    | with_reducible apply sendReadyFrame_sound
    | with_reducible apply foldl_sound
    | intro _
    | extract_lets
    | split

theorem dropFramesTo_sound (s : State) (k midx : Nat) (hs : Sound Q s) : Sound Q (dropFramesTo s k midx) := by
  unfold dropFramesTo
  repeat' first
    | with_reducible assumption
    | with_reducible apply modPort_sound
    | with_reducible apply foldl_sound
    | intro _

theorem limitRounds_sound (s : State) (k : Nat) (hs : Sound Q s) : Sound Q (limitRounds s k) := by
  unfold limitRounds
  repeat' first
    | with_reducible assumption
    | with_reducible apply modFstat_sound
    | with_reducible apply foldl_sound
    | intro _

theorem finishRemove_sound (s : State) (m : Msg) (hs : Sound Q s) : Sound Q (finishRemove s m) := by
  unfold finishRemove
  repeat' first
    | with_reducible assumption
    | with_reducible apply modJob_sound
    | with_reducible apply setAbsent_sound
    | with_reducible apply finish_sound
    | with_reducible apply noteInterruption_sound
    | with_reducible apply skipMember_sound
    | with_reducible apply postMembership_sound
    | with_reducible apply rewriteAll_sound
    | with_reducible apply retryRounds_sound
    | with_reducible apply changeLeader_sound
    | with_reducible apply dropFramesTo_sound
    | with_reducible apply limitRounds_sound
    | extract_lets
    | split

theorem finishReadmit_sound (s : State) (m : Msg) (hs : Sound Q s) : Sound Q (finishReadmit s m) := by
  unfold finishReadmit
  repeat' first
    | with_reducible assumption
    | with_reducible apply modJob_sound
    | with_reducible apply setAbsent_sound
    | with_reducible apply finish_sound
    | with_reducible apply finishState_sound
    | with_reducible apply postMembership_sound
    | with_reducible apply rewriteAll_sound
    | extract_lets
    | split

theorem releaseFlowsOf_sound (s : State) (k : Nat) (hs : Sound Q s) : Sound Q (releaseFlowsOf s k) := by
  unfold releaseFlowsOf
  repeat' first
    | with_reducible assumption
    | with_reducible apply modFlow_sound
    | with_reducible apply clearRound_sound
    | with_reducible apply foldl_sound
    | intro _

theorem finishLeave_sound (s : State) (m : Msg) (hs : Sound Q s) : Sound Q (finishLeave s m) := by
  unfold finishLeave
  repeat' first
    | with_reducible assumption
    | with_reducible apply modPort_sound
    | with_reducible apply finish_sound
    | with_reducible apply postMembership_sound
    | with_reducible apply releaseFlowsOf_sound
    | with_reducible apply foldl_sound
    | intro _
    | extract_lets
    | simp only [sound_mk_iff, sound_mb_iff, sound_dram_iff, clok_mk_iff, clok_vr_iff, memok_mk_iff]

theorem finishRingLeave_sound (s : State) (m : Msg) (hs : Sound Q s) : Sound Q (finishRingLeave s m) := by
  unfold finishRingLeave
  repeat' first
    | with_reducible assumption
    | with_reducible apply finish_sound
    | with_reducible apply finishRemove_sound
    | with_reducible apply finishReadmit_sound
    | with_reducible apply finishLeave_sound
    | split

theorem openFlow_sound (s : State) (p ctx : Nat) (f : Flow) (hs : Sound Q s) : Sound Q (openFlow s p ctx f) := by
  unfold openFlow
  repeat' first
    | with_reducible assumption
    | with_reducible apply modFlow_sound
    | with_reducible apply modFstat_sound
    | with_reducible apply clearRound_sound
    | with_reducible apply restartSpaces_sound

theorem execFlowOpen_sound (m : Msg) (s : State) (hs : Sound Q s) : SoundR Q (execFlowOpen m s) := by
  unfold execFlowOpen
  repeat' first
    | with_reducible assumption
    | with_reducible apply ok_sound
    | with_reducible apply badArg_sound
    | with_reducible apply exhausted_sound
    | with_reducible apply takeCommand_sound
    | with_reducible apply checkBody_sound
    | with_reducible apply blockExact_sound
    | with_reducible apply openFlow_sound
    | with_reducible apply soundR_next
    | intro _
    | extract_lets
    | split

theorem finishLong_sound (s : State) (l : LongCmd) (w : WorkResult) (hs : Sound Q s) : Sound Q (finishLong s l w) := by
  unfold finishLong
  repeat' first
    | with_reducible assumption
    | with_reducible apply finishMarch_sound
    | with_reducible apply finishLoad_sound
    | with_reducible apply finishScrub_sound
    | with_reducible apply finishAttest_sound
    | with_reducible apply finishKeyImport_sound
    | with_reducible apply finishFwUpdate_sound
    | with_reducible apply finishCkptWrite_sound
    | with_reducible apply finishBuddyPair_sound
    | with_reducible apply finishCkptRestore_sound
    | with_reducible apply finishCkptVerify_sound
    | with_reducible apply finishRingJoin_sound
    | with_reducible apply finishRingLeave_sound
    | split

theorem refuseHalted_sound (s : State) (l : LongCmd) (hs : Sound Q s) : Sound Q (refuseHalted s l) := by
  unfold refuseHalted
  repeat' first
    | with_reducible assumption
    | with_reducible apply noteRunning_sound
    | with_reducible apply modCkpt_sound
    | with_reducible apply finishState_sound
    | with_reducible apply clearReader_sound
    | extract_lets
    | split

theorem execLongCommandFinal_sound (seq : BitVec 32) (w : WorkResult) (s : State) (hs : Sound Q s) : SoundR Q (execLongCommandFinal seq w s) := by
  unfold execLongCommandFinal
  repeat' first
    | with_reducible assumption
    | with_reducible apply flushEvents_sound
    | with_reducible apply gate_sound
    | with_reducible apply finishLong_sound
    | with_reducible apply refuseHalted_sound
    | with_reducible apply soundR_next
    | split

end Sys2Proof.Machine
end

