-- ==== Sys2Proof/Laws/SoundEngines.lean ====
section
/-! SUPPORT. What `Sound` says of the engines and the traverses: each operation keeps it. -/

set_option linter.unusedSimpArgs false
set_option linter.unusedTactic false

namespace Sys2Proof.Machine

variable {Q : List Instr}

theorem execOpxPass_sound (lc : Nat) (p : PassIssue) (s : State) (hs : Sound Q s) : SoundR Q (execOpxPass lc p s) := by
  unfold execOpxPass
  repeat' first
    | with_reducible assumption
    | with_reducible apply opxPass_sound
    | with_reducible apply soundR_next

theorem execOpxDrain_sound (lc cyc : Nat) (s : State) (hs : Sound Q s) : SoundR Q (execOpxDrain lc cyc s) := by
  unfold execOpxDrain
  repeat' first
    | with_reducible assumption
    | with_reducible apply opxConv_sound
    | with_reducible apply soundR_next

theorem execOpxLoad_sound (lc cyc : Nat) (s : State) (hs : Sound Q s) : SoundR Q (execOpxLoad lc cyc s) := by
  unfold execOpxLoad
  repeat' first
    | with_reducible assumption
    | with_reducible apply opxConv_sound
    | with_reducible apply soundR_next

theorem execOpxLoadImage_sound (lc cyc : Nat) (s : State) (hs : Sound Q s) : SoundR Q (execOpxLoadImage lc cyc s) := by
  unfold execOpxLoadImage
  repeat' first
    | with_reducible assumption
    | with_reducible apply opxConv_sound
    | with_reducible apply soundR_next

theorem execOpxSave_sound (lc cyc : Nat) (s : State) (hs : Sound Q s) : SoundR Q (execOpxSave lc cyc s) := by
  unfold execOpxSave
  repeat' first
    | with_reducible assumption
    | with_reducible apply opxConv_sound
    | with_reducible apply soundR_next

theorem execOpxSurvey_sound (lc cyc : Nat) (s : State) (hs : Sound Q s) : SoundR Q (execOpxSurvey lc cyc s) := by
  unfold execOpxSurvey
  repeat' first
    | with_reducible assumption
    | with_reducible apply opxConv_sound
    | with_reducible apply soundR_next

theorem execConveyorDeferredStart_sound (lc : Nat) (s : State) (hs : Sound Q s) : SoundR Q (execConveyorDeferredStart lc s) := by
  unfold execConveyorDeferredStart
  repeat' first
    | with_reducible assumption
    | with_reducible apply conveyorDeferred_sound
    | with_reducible apply soundR_next

theorem execConveyorComplete_sound (lc : Nat) (s : State) (hs : Sound Q s) : SoundR Q (execConveyorComplete lc s) := by
  unfold execConveyorComplete
  repeat' first
    | with_reducible assumption
    | with_reducible apply conveyorDone_sound
    | with_reducible apply soundR_next

theorem execAutoSurvey_sound (lc : Nat) (bank : Bool) (s : State) (hs : Sound Q s) : SoundR Q (execAutoSurvey lc bank s) := by
  unfold execAutoSurvey
  repeat' first
    | with_reducible assumption
    | with_reducible apply autoSurveyOp_sound
    | with_reducible apply soundR_next

theorem execArrayIdle_sound (x : IdleAt) (s : State) (hs : Sound Q s) : SoundR Q (execArrayIdle x s) := by
  unfold execArrayIdle
  repeat' first
    | with_reducible assumption
    | with_reducible apply arrayIdleOp_sound
    | with_reducible apply soundR_next

theorem execCurrentClamp_sound (x : ClampAt) (s : State) (hs : Sound Q s) : SoundR Q (execCurrentClamp x s) := by
  unfold execCurrentClamp
  repeat' first
    | with_reducible assumption
    | with_reducible apply clampOp_sound
    | with_reducible apply soundR_next

theorem execClampEnd_sound (lc : Nat) (x : ClampOver) (s : State) (hs : Sound Q s) : SoundR Q (execClampEnd lc x s) := by
  unfold execClampEnd
  repeat' first
    | with_reducible assumption
    | with_reducible apply clampRampOp_sound
    | with_reducible apply clampDoneOp_sound
    | with_reducible apply sampleOnChange_sound
    | with_reducible apply clampSlower_sound
    | with_reducible apply resumeCluster_sound
    | with_reducible apply soundR_next
    | extract_lets
    | split

theorem finishCmd_sound (s : State) (lc q cyc : Nat) (e : QEntry) (rs : ReadSet) (cycles : List (List Nat)) (ds : List Dest) (extra : Nat) (after : State → State)
    (hs : Sound Q s) (ha : ∀ t, Sound Q t → Sound Q (after t)) : Sound Q (finishCmd s lc q cyc e rs cycles ds extra after) := by
  unfold finishCmd
  extract_lets +onlyGivenNames c ws pz slip
  clear_value slip pz ws
  split
  · exact raiseSlip_sound _ _ _ _ _ (modCluster_sound hs (fun c hc => dropEntry_sound _ _ _ (atCycle_sound _ _ hc)))
  · extract_lets +onlyGivenNames c1 c2 s1
    have h1 : ClOk c1 := consumePoison_sound _ _ (clok_mem hs.cluster (spTouchAll_sound _ _ hs.cluster.mem))
    have h2 : ClOk c2 := foldl_clok h1 (fun c x h => spWriteAll_sound _ _ _ h)
    have h3 : Sound Q s1 := retireAt_sound _ _ _ _ _ (ha _ (setCluster_sound hs h2))
    clear_value s1
    split
    · exact h3
    · exact raiseSlip_sound _ _ _ _ _ h3

theorem epilogue_sound (lc cyc L : Nat) (e : QEntry) (t : Option DrainTile) (pz slip nonfin : Bool) (u : State) (hu : Sound Q u) :
    Sound Q ((epilogue lc cyc L e t pz slip nonfin).1 u) := by
  unfold epilogue
  split
  · exact hu
  · exact modCluster_sound hu (fun c hc => clok_vr_iff.2 (carry_sound _ _ hc))

theorem readStat_sound (s : State) (lc : Nat) (p : RowPar) (i : Nat) (hs : Sound Q s) : Sound Q ((readStat s lc p i).2) := by
  unfold readStat
  repeat' first
    | with_reducible assumption
    | with_reducible apply sideReadWord_sound
    | with_reducible apply modMem_sound
    | with_reducible apply devRead_sound
    | with_reducible apply chargeDev_sound
    | with_reducible apply Sound.cluster
    | with_reducible apply ClOk.mem
    | intro _
    | extract_lets
    | split

theorem readStats_sound (s : State) (lc : Nat) (p : RowPar) (n : Nat) (hs : Sound Q s) : Sound Q (readStats s lc p n).2 := by
  induction n with
  | zero => exact hs
  | succ n ih => exact readStat_sound _ _ _ _ ih

theorem writeStats_sound (s : State) (lc : Nat) (p : RowPar) (l : List (Nat × StatRow)) (hs : Sound Q s) : Sound Q (writeStats s lc p l) := by
  unfold writeStats
  repeat' first
    | with_reducible assumption
    | with_reducible apply sideWriteUnit_sound
    | with_reducible apply modMem_sound
    | with_reducible apply devWrite_sound
    | with_reducible apply chargeDev_sound
    | with_reducible apply foldl_sound
    | intro _
    | extract_lets
    | split

theorem runRow_sound (s : State) (lc cyc op : Nat) (slots : QEntry → List (Nat × Bool)) (stats : Cluster → QEntry → RowPar → Bool × Bool)
    (f : State → QEntry → RowPar → State) (hs : Sound Q s) (hf : ∀ (t : State) (e : QEntry) (p : RowPar), Sound Q t → Sound Q (f t e p)) :
    Sound Q (runRow s lc cyc op slots stats f) := by
  unfold runRow
  split
  · exact hs
  · split
    · exact retireAt_sound _ _ _ _ _ hs
    · extract_lets +onlyGivenNames st
      split
      · exact boundFault_sound _ _ _ _ _ _ hs
      · split
        · exact hs
        · split
          · with_reducible exact waitCells_sound _ _ _ hs
          · refine hf _ _ _ ?_
            split
            · exact noteUnmapped_sound _ _ _ _ hs
            · exact hs

theorem finishRow_sound (s : State) (lc cyc : Nat) (e : QEntry) (p : RowPar) (rs : ReadSet) (cycles : List (List Nat)) (outs : List RowOut) (st : Nat) (hs : Sound Q s) : Sound Q (finishRow s lc cyc e p rs cycles outs st) := by
  unfold finishRow
  repeat' first
    | with_reducible assumption
    | with_reducible apply modCluster_sound
    | with_reducible apply finishCmd_sound
    | with_reducible apply writeStats_sound
    | with_reducible apply ClOk.mem
    | with_reducible apply ClOk.ftab
    | with_reducible apply And.intro
    | intro _
    | extract_lets
    | split
    | simp only [clok_all_iff, memok_all_iff]

theorem rowNormFRun_sound (lc cyc : Nat) (s : State) (e : QEntry) (p : RowPar) (hs : Sound Q s) : Sound Q (rowNormFRun lc cyc s e p) := by
  unfold rowNormFRun
  repeat' first
    | with_reducible assumption
    | with_reducible apply finishRow_sound

theorem execRowNormF_sound (lc cyc : Nat) (s : State) (hs : Sound Q s) : SoundR Q (execRowNormF lc cyc s) := by
  unfold execRowNormF
  repeat' first
    | with_reducible assumption
    | with_reducible apply runRow_sound
    | with_reducible apply rowNormFRun_sound
    | with_reducible apply soundR_next

theorem rowNormBRun_sound (lc cyc : Nat) (s : State) (e : QEntry) (p : RowPar) (hs : Sound Q s) : Sound Q (rowNormBRun lc cyc s e p) :=
  finishRow_sound _ _ _ _ _ _ _ _ _ (readStats_sound _ _ _ _ hs)

theorem execRowNormB_sound (lc cyc : Nat) (s : State) (hs : Sound Q s) : SoundR Q (execRowNormB lc cyc s) := by
  unfold execRowNormB
  repeat' first
    | with_reducible assumption
    | with_reducible apply runRow_sound
    | with_reducible apply rowNormBRun_sound
    | with_reducible apply soundR_next

theorem putCtx_ftab (v : VecRow) (x : RowCtx) : (putCtx v x).ftab = v.ftab := by
  unfold putCtx
  repeat' split
  all_goals rfl

theorem closeCtx_ftab (v : VecRow) (k : Nat) : (closeCtx v k).ftab = v.ftab := by
  unfold closeCtx
  repeat' split
  all_goals rfl

theorem phase0_sound (s : State) (lc : Nat) (e : QEntry) (p : RowPar) (old : List StatRow) (init : F32 × F32)
    (f : Nat → F32 × F32 × F32 → F32 × F32 × F32) (pz : Nat → Bool) (hs : Sound Q s) : Sound Q (phase0 s lc e p old init f pz).2 := by
  unfold phase0
  refine foldl_pair_sound hs (fun b x h => ?_)
  dsimp only
  refine modCluster_sound h (fun c hc => clok_all hc.mem ?_)
  split
  · exact hc.ftab
  · rw [putCtx_ftab]
    exact hc.ftab

theorem phase1_sound (s : State) (lc : Nat) (p : RowPar) (old : List StatRow) (fold : F32 × F32 → F32 → F32 × F32)
    (f : Nat → F32 × F32 → List FVal) (pz : Nat → Bool) (hs : Sound Q s) : Sound Q (phase1 s lc p old fold f pz).2 := by
  unfold phase1
  refine foldl_pair_sound hs (fun b x h => ?_)
  dsimp only
  split
  · dsimp only
    refine modCluster_sound h (fun c hc => clok_all hc.mem ?_)
    rw [closeCtx_ftab]
    exact hc.ftab
  · exact h

theorem rowSmaxFRun_sound (lc cyc : Nat) (s : State) (e : QEntry) (p : RowPar) (hs : Sound Q s) : Sound Q (rowSmaxFRun lc cyc s e p) := by
  unfold rowSmaxFRun
  extract_lets +onlyGivenNames rd
  have h1 : Sound Q rd.2 := by
    simp only [rd]
    split
    · exact hs
    · exact readStats_sound _ _ _ _ hs
  clear_value rd
  dsimp only
  refine finishRow_sound _ _ _ _ _ _ _ _ _ ?_
  split
  · exact phase1_sound _ _ _ _ _ _ _ h1
  · exact phase0_sound _ _ _ _ _ _ _ _ h1

theorem execRowSmaxF_sound (lc cyc : Nat) (s : State) (hs : Sound Q s) : SoundR Q (execRowSmaxF lc cyc s) := by
  unfold execRowSmaxF
  repeat' first
    | with_reducible assumption
    | with_reducible apply runRow_sound
    | with_reducible apply rowSmaxFRun_sound
    | with_reducible apply soundR_next

theorem rowSmaxBRun_sound (lc cyc : Nat) (s : State) (e : QEntry) (p : RowPar) (hs : Sound Q s) : Sound Q (rowSmaxBRun lc cyc s e p) := by
  unfold rowSmaxBRun
  extract_lets +onlyGivenNames rd
  have h1 : Sound Q rd.2 := by
    simp only [rd]
    split
    · exact hs
    · exact readStats_sound _ _ _ _ hs
  clear_value rd
  dsimp only
  refine finishRow_sound _ _ _ _ _ _ _ _ _ ?_
  split
  · exact phase1_sound _ _ _ _ _ _ _ h1
  · exact phase0_sound _ _ _ _ _ _ _ _ h1

theorem execRowSmaxB_sound (lc cyc : Nat) (s : State) (hs : Sound Q s) : SoundR Q (execRowSmaxB lc cyc s) := by
  unfold execRowSmaxB
  repeat' first
    | with_reducible assumption
    | with_reducible apply runRow_sound
    | with_reducible apply rowSmaxBRun_sound
    | with_reducible apply soundR_next

theorem rowTopkRun_sound (lc cyc : Nat) (s : State) (e : QEntry) (p : RowPar) (hs : Sound Q s) : Sound Q (rowTopkRun lc cyc s e p) := by
  unfold rowTopkRun
  repeat' first
    | with_reducible assumption
    | with_reducible apply modCluster_sound
    | with_reducible apply finishCmd_sound
    | with_reducible apply ClOk.mem
    | with_reducible apply ClOk.ftab
    | with_reducible apply And.intro
    | intro _
    | extract_lets
    | split
    | simp only [sound_mk_iff, sound_mb_iff, sound_dram_iff, clok_mk_iff, clok_vr_iff, memok_mk_iff]
    | simp only [clok_all_iff, memok_all_iff]

theorem execRowTopk_sound (lc cyc : Nat) (s : State) (hs : Sound Q s) : SoundR Q (execRowTopk lc cyc s) := by
  unfold execRowTopk
  repeat' first
    | with_reducible assumption
    | with_reducible apply boundFault_sound
    | with_reducible apply runRow_sound
    | with_reducible apply rowTopkRun_sound
    | with_reducible apply soundR_next
    | intro _
    | extract_lets
    | split

theorem readStream_sound (s : State) (ps : List (Nat × Nat)) (hs : Sound Q s) : Sound Q ((readStream s ps).2.2) := by
  unfold readStream
  repeat' first
    | with_reducible assumption
    | with_reducible apply devReadPieces_sound

theorem postHeld_sound (s : State) (lc t slot cause : Nat) (hs : Sound Q s) : Sound Q (postHeld s lc t slot cause) := by
  unfold postHeld
  repeat' first
    | with_reducible assumption
    | with_reducible apply logEvent_sound

theorem chargeSeg_sound (lc e : Nat) (write : Bool) (s : State) (g : Nat × Nat) (hs : Sound Q s) : Sound Q (chargeSeg lc e write s g) := by
  unfold chargeSeg
  repeat' first
    | with_reducible assumption
    | with_reducible apply modCluster_sound
    | with_reducible apply chargeCells_sound
    | with_reducible apply modTrv_sound
    | intro _
    | split
    | simp only [sound_mk_iff, sound_mb_iff, sound_dram_iff, clok_mk_iff, clok_vr_iff, memok_mk_iff]

theorem chargeSegs_sound (s : State) (lc e : Nat) (acc : List (Nat × Nat)) (write : Bool) (hs : Sound Q s) : Sound Q (chargeSegs s lc e acc write) := by
  unfold chargeSegs
  repeat' first
    | with_reducible assumption
    | with_reducible apply chargeSeg_sound
    | with_reducible apply foldl_sound

theorem writeStream_sound (s : State) (addrs : List Nat) (l : List PByte) (tag : Nat) (hs : Sound Q s) : Sound Q (writeStream s addrs l tag) := by
  have h : ∀ (ps : List (Nat × Nat)) (t : State × List PByte), Sound Q t.1 → Sound Q (ps.foldl (fun (t : State × List PByte) (p : Nat × Nat) =>
      (unitWrite t.1 p.1 ((t.2.take p.2).map (fun b => b.1)) ((t.2.take p.2).any (fun b => b.2)) tag, t.2.drop p.2)) t).1 := by
    intro ps
    induction ps with
    | nil => exact fun t ht => ht
    | cons p r ih => exact fun t ht => ih _ (unitWrite_sound _ _ _ _ _ ht)
  exact h _ (s, l) hs

theorem writeMove_sound (s : State) (e : QEntry) (dbase : Nat) (l : List PByte) (hs : Sound Q s) : Sound Q (writeMove s e dbase l) := by
  unfold writeMove
  repeat' first
    | with_reducible assumption
    | with_reducible apply writeStream_sound
    | with_reducible apply foldl_sound
    | intro _
    | extract_lets
    | split

theorem poisonDest_sound (s : State) (lc q : Nat) (e : QEntry) (hs : Sound Q s) : Sound Q (poisonDest s lc q e) := by
  unfold poisonDest
  repeat' first
    | with_reducible assumption
    | with_reducible apply setCluster_sound
    | with_reducible apply raiseSlip_sound
    | with_reducible apply spWriteAll_sound
    | with_reducible apply Sound.cluster
    | extract_lets
    | split

theorem putFlight_sound (s : State) (lc q : Nat) (t : Trv) (hs : Sound Q s) : Sound Q (putFlight s lc q t) := by
  unfold putFlight
  repeat' first
    | with_reducible assumption
    | with_reducible apply modCluster_sound
    | with_reducible apply modTrv_sound
    | intro _

theorem noteVersionWrite_sound (s : State) (w : Option (Nat × Nat)) (hs : Sound Q s) : Sound Q (noteVersionWrite s w) := by
  unfold noteVersionWrite
  repeat' first
    | with_reducible assumption
    | with_reducible apply modVt_sound
    | split

theorem trvIngress_sound (s : State) (lc q : Nat) (e : QEntry) (base : Nat) (hs : Sound Q s) : Sound Q (trvIngress s lc q e base).s := by
  unfold trvIngress
  extract_lets +onlyGivenNames d r rd sc scByte els cv s1 c scs ps ck
  have h1 : Sound Q s1 := modCluster_sound (readStream_sound _ _ (readStream_sound _ _ hs)) (fun _ h => consumePoison_sound _ _ h)
  clear_value s1 ps ck
  split
  · exact raiseSlip_sound _ _ _ _ _ h1
  · exact setCluster_sound h1 (spWriteAll_sound _ _ _ h1.cluster)

theorem trvEgress_sound (s : State) (lc q : Nat) (e : QEntry) (base : Nat) (hs : Sound Q s) : Sound Q (trvEgress s lc q e base).s := by
  unfold trvEgress
  extract_lets +onlyGivenNames d r c n ws badAt from_ els scByte els2 cv scs out scOut pz s1 s2 s3 ck
  have h1 : Sound Q s1 := setCluster_sound hs (consumePoison_sound _ _ (clok_mem hs.cluster (spTouchAll_sound _ _ hs.cluster.mem)))
  have h2 : Sound Q s2 := writeStream_sound _ _ _ _ h1
  have h3 : Sound Q s3 := writeStream_sound _ _ _ _ h2
  clear_value s3 badAt ck
  split
  · exact raiseSlip_sound _ _ _ _ _ h3
  · exact h3

theorem trvMove_sound (s : State) (lc : Nat) (e : QEntry) (base dbase : Nat) (hs : Sound Q s) : Sound Q (trvMove s lc e base dbase).s := by
  unfold trvMove
  extract_lets +onlyGivenNames d rd src s1 ck
  have h1 : Sound Q s1 := modCluster_sound (readStream_sound _ _ hs) (fun _ h => consumePoison_sound _ _ h)
  clear_value s1 src ck
  split
  · exact writeMove_sound _ _ _ _ h1
  · split
    · exact writeMove_sound _ _ _ _ h1
    · exact writeMove_sound _ _ _ _ h1

theorem issueTrv_sound (s : State) (lc q : Nat) (e : QEntry) (base : Nat) (size : Option (Nat × Nat)) (dbase : Nat)
    (dsize : Option (Nat × Nat)) (w : Option (Nat × Nat)) (hs : Sound Q s) : SoundS Q (issueTrv s lc q e base size dbase dsize w) := by
  unfold issueTrv
  split
  · exact soundS_inr (boundFault_sound _ _ _ _ _ _ hs)
  · split
    · exact soundS_inr (boundFault_sound _ _ _ _ _ _ hs)
    · split
      · exact soundS_inl hs
      · split
        · exact soundS_inl (waitCells_sound _ _ _ hs)
        · extract_lets +onlyGivenNames s1 s2 before dir s3 s4 s5 s6 r
          have h1 : Sound Q s1 := noteVersionWrite_sound _ _ hs
          clear_value s1
          have h2 : Sound Q s2 := noteUnmapped_sound _ _ _ _ h1
          clear_value before
          clear_value s2
          have h3 : Sound Q s3 := chargeSegs_sound _ _ _ _ _ h2
          clear_value s3
          have h4 : Sound Q s4 := chargeSegs_sound _ _ _ _ _ h3
          clear_value s4
          have h5 : Sound Q s5 := by
            simp only [s5]
            split
            · exact chargeSegs_sound _ _ _ _ _ h4
            · exact h4
          clear_value s5
          have h6 : Sound Q s6 := by
            simp only [s6]
            split
            · exact modSection_sound _ _ _ h5
            · exact h5
          clear_value s6
          have hr : Sound Q r.s := by
            simp only [r]
            split
            · exact trvIngress_sound _ _ _ _ _ h6
            · split
              · exact trvEgress_sound _ _ _ _ _ h6
              · exact trvMove_sound _ _ _ _ _ h6
          exact soundS_inr (putFlight_sound _ _ _ _ hr)

theorem heldTrv_sound (s : State) (lc q : Nat) (e : QEntry) (t slot cause : Nat) (hs : Sound Q s) : Sound Q (heldTrv s lc q e t slot cause) := by
  unfold heldTrv
  repeat' first
    | with_reducible assumption
    | with_reducible apply modCluster_sound
    | with_reducible apply postHeld_sound
    | with_reducible apply putFlight_sound
    | intro _
    | extract_lets
    | simp only [sound_mk_iff, sound_mb_iff, sound_dram_iff, clok_mk_iff, clok_vr_iff, memok_mk_iff]

theorem emptyTrv_sound (s : State) (lc q : Nat) (e : QEntry) (handle : Nat) (hs : Sound Q s) : Sound Q (emptyTrv s lc q e handle) := by
  unfold emptyTrv
  repeat' first
    | with_reducible assumption
    | with_reducible apply logDefect_sound
    | with_reducible apply boundFault_sound
    | with_reducible apply poisonDest_sound
    | with_reducible apply putFlight_sound
    | split

theorem startTrv_sound (s : State) (lc q : Nat) (e : QEntry) (hs : Sound Q s) : SoundS Q (startTrv s lc q e) := by
  unfold startTrv
  extract_lets +onlyGivenNames d ds dvsel
  split
  · exact soundS_inl hs
  · exact soundS_inr (heldTrv_sound _ _ _ _ _ _ _ hs)
  · exact soundS_inr (emptyTrv_sound _ _ _ _ _ hs)
  · split
    · exact soundS_inl hs
    · exact soundS_inr (heldTrv_sound _ _ _ _ _ _ _ hs)
    · exact soundS_inr hs
    · exact issueTrv_sound _ _ _ _ _ _ _ _ _ hs

theorem execTrvGo_sound (lc q cyc : Nat) (s : State) (hs : Sound Q s) : SoundR Q (execTrvGo lc q cyc s) := by
  unfold execTrvGo
  split
  · exact soundR_next hs
  · split
    · exact soundR_next (retireAt_sound _ _ _ _ _ hs)
    · split
      · exact soundR_next hs
      · rename_i e _ _ _
        have h := startTrv_sound _ lc q e (modCluster_sound (lc := lc) hs (fun c hc => atCycle_sound c cyc hc))
        split
        · exact soundR_next (sound_mk hs)
        · rename_i t ht
          rw [ht] at h
          exact soundR_next (retireAt_sound _ _ _ _ _ h)

theorem execTrvWait_sound (lc q cyc : Nat) (s : State) (hs : Sound Q s) : SoundR Q (execTrvWait lc q cyc s) := by
  unfold execTrvWait
  repeat' first
    | with_reducible assumption
    | with_reducible apply retireAt_sound
    | with_reducible apply soundR_next
    | split

theorem poisonGranules_sound (s : State) (t : Trv) (hs : Sound Q s) : Sound Q (poisonGranules s t) := by
  unfold poisonGranules
  repeat' first
    | with_reducible assumption
    | with_reducible apply dramWriteUnit_sound
    | with_reducible apply foldl_sound
    | intro _
    | extract_lets
    | split

theorem decryptFail_sound (s : State) (lc e : Nat) (t : Trv) (hs : Sound Q s) : Sound Q ((decryptFail s lc e t).2) := by
  unfold decryptFail
  repeat' first
    | with_reducible assumption
    | with_reducible apply devRead_sound
    | with_reducible apply chargeSegs_sound
    | extract_lets
    | split

theorem noteDigest_sound (s : State) (t : Trv) (hs : Sound Q s) : Sound Q (noteDigest s t) := by
  unfold noteDigest
  repeat' first
    | with_reducible assumption
    | extract_lets
    | split
    | simp only [sound_mk_iff, sound_mb_iff, sound_dram_iff, clok_mk_iff, clok_vr_iff, memok_mk_iff]

theorem writeBehind_sound (s : State) (later : List Trv) (a : Nat) (l : List Byte) (tag : Nat) (hs : Sound Q s) : Sound Q (writeBehind s later a l tag) := by
  unfold writeBehind
  repeat' first
    | with_reducible assumption
    | with_reducible apply unitWrite_sound
    | with_reducible apply foldl_sound
    | intro _

theorem checkAtEnd_sound (s : State) (lc e : Nat) (t : Trv) (later : List Trv) (hs : Sound Q s) :
    SoundO Q (checkAtEnd s lc e t later).1 ∧ Sound Q (checkAtEnd s lc e t later).2 := by
  unfold checkAtEnd
  split
  · exact ⟨soundO_some hs, hs⟩
  · extract_lets +onlyGivenNames a wr
    split
    · exact ⟨soundO_some hs, hs⟩
    · extract_lets +onlyGivenNames s1
      have h1 : Sound Q s1 := chargeSegs_sound _ _ _ _ _ hs
      clear_value s1
      split
      · exact ⟨soundO_some (writeBehind_sound _ _ _ _ _ h1), writeBehind_sound _ _ _ _ _ h1⟩
      · dsimp only
        split
        · exact ⟨soundO_some (devRead_sound _ _ _ h1), devRead_sound _ _ _ h1⟩
        · exact ⟨soundO_none, devRead_sound _ _ _ h1⟩

theorem noteRefusal_sound (s : State) (lc e : Nat) (t : Trv) (ord addr : Nat) (write : Bool) (hs : Sound Q s) : Sound Q (noteRefusal s lc e t ord addr write) := by
  unfold noteRefusal
  repeat' first
    | with_reducible assumption
    | with_reducible apply modCluster_sound
    | with_reducible apply modTrv_sound
    | intro _

theorem compareFailed_sound (s : State) (lc e : Nat) (t : Trv) (hs : Sound Q s) : Sound Q (compareFailed s lc e t) := by
  unfold compareFailed
  repeat' first
    | with_reducible assumption
    | with_reducible apply modCluster_sound
    | with_reducible apply modTrv_sound
    | with_reducible apply faultNoReplay_sound
    | with_reducible apply noteRefusal_sound
    | intro _
    | extract_lets
    | split
    | simp only [sound_mk_iff, sound_mb_iff, sound_dram_iff, clok_mk_iff, clok_vr_iff, memok_mk_iff]

theorem popFlight_sound (s : State) (lc e : Nat) (t : Trv) (hs : Sound Q s) : Sound Q (popFlight s lc e t) := by
  unfold popFlight
  repeat' first
    | with_reducible assumption
    | with_reducible apply modTrv_sound
    | with_reducible apply advance_sound
    | intro _

theorem endTrv_sound (s : State) (lc e : Nat) (hs : Sound Q s) : Sound Q (endTrv s lc e) := by
  unfold endTrv
  split
  · exact hs
  · rename_i t later _
    have hd := decryptFail_sound s lc e t hs
    split
    · rename_i s1 h0
      rw [h0] at hd
      exact faultNoReplay_sound _ _ _ _ (poisonGranules_sound _ _ hd)
    · rename_i s1 h0
      rw [h0] at hd
      have h1 : Sound Q s1 := hd
      have h2 : Sound Q (if t.moved then noteDigest s1 t else s1) := by
        split
        · exact noteDigest_sound _ _ h1
        · exact h1
      have h := checkAtEnd_sound _ lc e t later h2
      split
      · rename_i u v ht
        rw [ht] at h
        exact popFlight_sound _ _ _ _ (h.1 _ rfl)
      · rename_i u ht
        rw [ht] at h
        have hu := compareFailed_sound u lc e t h.2
        dsimp only
        split
        · exact hu
        · exact popFlight_sound _ _ _ _ hu

theorem execTraverseComplete_sound (lc e : Nat) (s : State) (hs : Sound Q s) : SoundR Q (execTraverseComplete lc e s) := by
  unfold execTraverseComplete
  split
  · exact soundR_next hs
  · exact soundR_next (endTrv_sound _ _ _ hs)

theorem endFlights_sound (s : State) (lc : Nat) (hs : Sound Q s) : Sound Q (endFlights s lc) := by
  unfold endFlights
  repeat' first
    | with_reducible assumption
    | with_reducible apply endTrv_sound
    | with_reducible apply foldl_sound
    | intro _
    | extract_lets
    | split

theorem poisonFed_sound (s : State) (lc : Nat) (t : Trv) (later : List Trv) (os : List Nat) (zero : Bool) (hs : Sound Q s) : Sound Q (poisonFed s lc t later os zero) := by
  unfold poisonFed
  repeat' first
    | with_reducible assumption
    | with_reducible apply modCluster_sound
    | with_reducible apply unitWrite_sound
    | with_reducible apply devRead_sound
    | with_reducible apply spWriteAll_sound
    | with_reducible apply foldl_sound
    | with_reducible apply foldl_clok
    | intro _
    | extract_lets
    | split

theorem foldl_wf {α : Type} {f : Memory → α → Memory} {l : List α} {m : Memory} (h : Memory.wf m = true)
    (hf : ∀ m x, Memory.wf m = true → Memory.wf (f m x) = true) : Memory.wf (l.foldl f m) = true := by
  induction l generalizing m with
  | nil => exact h
  | cons a r ih => exact ih (hf m a h)

theorem unwrite_sound (s : State) (t : Trv) (later : List Trv) (addr pa : Nat) (hs : Sound Q s) : Sound Q (unwrite s t later addr pa) :=
  sound_comp hs (foldl_wf hs.comp (fun m x h => memWrite_wf h))

theorem modFlight_sound (s : State) (lc e n : Nat) (f : Trv → Trv) (hs : Sound Q s) : Sound Q (modFlight s lc e n f) := by
  unfold modFlight
  repeat' first
    | with_reducible assumption
    | with_reducible apply modCluster_sound
    | with_reducible apply modTrv_sound
    | intro _

theorem freeCheck_sound (s : State) (lc e n : Nat) (hs : Sound Q s) : Sound Q (freeCheck s lc e n) := by
  unfold freeCheck
  repeat' first
    | with_reducible assumption
    | with_reducible apply drawFree_sound
    | with_reducible apply modFlight_sound

theorem refuseReq_sound (s : State) (lc e n : Nat) (r : TrvAcc) (hs : Sound Q s) : Sound Q (refuseReq s lc e n r) := by
  unfold refuseReq
  repeat' first
    | with_reducible assumption
    | with_reducible apply poisonGranules_sound
    | with_reducible apply noteRefusal_sound
    | with_reducible apply poisonFed_sound
    | with_reducible apply unwrite_sound
    | with_reducible apply modFlight_sound
    | with_reducible apply freeCheck_sound
    | split

theorem execTranslationRefused_sound (lc e : Nat) (req : TrvReq) (s : State) (hs : Sound Q s) : SoundR Q (execTranslationRefused lc e req s) := by
  unfold execTranslationRefused
  repeat' first
    | with_reducible assumption
    | with_reducible apply refuseReq_sound
    | with_reducible apply soundR_next
    | extract_lets
    | split

theorem trainLink_sound (s : State) (r : TrainResult) (hs : Sound Q s) : Sound Q (trainLink s r) := by
  unfold trainLink
  repeat' first
    | with_reducible assumption
    | with_reducible apply logEvent_sound
    | split
    | simp only [sound_mk_iff, sound_mb_iff, sound_dram_iff, clok_mk_iff, clok_vr_iff, memok_mk_iff]

theorem execLinkTrain_sound (train : TrainResult) (s : State) (hs : Sound Q s) : SoundR Q (execLinkTrain train s) := by
  unfold execLinkTrain
  repeat' first
    | with_reducible assumption
    | with_reducible apply trainLink_sound
    | with_reducible apply soundR_next
    | split

theorem loseReq_sound (s : State) (lc e n : Nat) (r : TrvAcc) (hs : Sound Q s) (x : State × Nat × Bool) (hx : loseReq s lc e n r = some x) :
    Sound Q x.1 := by
  unfold loseReq at hx
  split at hx
  · cases hx
  · split at hx
    · cases hx
    · split at hx
      · cases hx
      · split at hx
        · cases hx
          exact refuseReq_sound _ _ _ _ _ hs
        · cases hx
          have h1 : Sound Q (modCluster s lc (fun c => consumePoison c 1)) := modCluster_sound hs (fun c hc => consumePoison_sound _ _ hc)
          dsimp only
          split
          · exact modFlight_sound _ _ _ _ _ h1
          · exact modFlight_sound _ _ _ _ _ h1
          · exact freeCheck_sound _ _ _ _ (poisonFed_sound _ _ _ _ _ _ h1)

theorem execTuraistTimeout_sound (lc e : Nat) (req : TrvReq) (train : TrainResult) (s : State) (hs : Sound Q s) :
    SoundR Q (execTuraistTimeout lc e req train s) := by
  unfold execTuraistTimeout
  split
  · split
    · exact soundR_next (trainLink_sound _ _ (logEvent_sound _ _ _ _ _ _ _ (sound_comp hs hs.comp)))
    · exact soundR_next hs
  · split
    · exact soundR_next hs
    · split
      · exact soundR_next hs
      · rename_i t a w h
        exact soundR_next (trainLink_sound _ _ (logEvent_sound _ _ _ _ _ _ _ (loseReq_sound s lc e req.n req.acc hs _ h)))

theorem execRefusalProbe_sound (lc e : Nat) (accepted : Bool) (refusedAt : Option TrvAcc) (s : State) (hs : Sound Q s) : SoundR Q (execRefusalProbe lc e accepted refusedAt s) := by
  unfold execRefusalProbe
  repeat' first
    | with_reducible assumption
    | with_reducible apply modCluster_sound
    | with_reducible apply waitCells_sound
    | with_reducible apply modTrv_sound
    | with_reducible apply replayCluster_sound
    | with_reducible apply chargeSegs_sound
    | with_reducible apply soundR_next
    | intro _
    | split
    | simp only [sound_mk_iff, sound_mb_iff, sound_dram_iff, clok_mk_iff, clok_vr_iff, memok_mk_iff]

theorem execProbeTimeout_sound (lc e : Nat) (s : State) (hs : Sound Q s) : SoundR Q (execProbeTimeout lc e s) := by
  unfold execProbeTimeout
  repeat' first
    | with_reducible assumption
    | with_reducible apply faultNoReplay_sound
    | with_reducible apply soundR_next
    | extract_lets
    | split

theorem raiseParity_sound (s : State) (lc q idx : Nat) (hs : Sound Q s) : Sound Q (raiseParity s lc q idx) := by
  unfold raiseParity
  repeat' first
    | with_reducible assumption
    | with_reducible apply modCluster_sound
    | with_reducible apply logEvent_sound
    | with_reducible apply stopWith_sound
    | with_reducible apply stepFaulted_sound
    | intro _
    | extract_lets
    | split
    | simp only [sound_mk_iff, sound_mb_iff, sound_dram_iff, clok_mk_iff, clok_vr_iff, memok_mk_iff]

theorem recoveryFailed_sound (s : State) (lc : Nat) (fail : Option (Nat × Nat × Nat)) (hs : Sound Q s) : Sound Q (recoveryFailed s lc fail) := by
  unfold recoveryFailed
  repeat' first
    | with_reducible assumption
    | with_reducible apply modCluster_sound
    | with_reducible apply runTests_sound
    | with_reducible apply ClOk.mem
    | with_reducible apply ClOk.ftab
    | with_reducible apply And.intro
    | intro _
    | extract_lets
    | simp only [clok_all_iff, memok_all_iff]

theorem execClusterReplay_sound (lc : Nat) (r : ReplayAt) (s : State) (hs : Sound Q s) : SoundR Q (execClusterReplay lc r s) := by
  have hp : Sound Q (match r.parity with
    | some (q, idx) =>
      if s.op = .running && (cluster s lc).inConsist && !(cluster s lc).pausedOk && (cluster s lc).seq.stop.isNone then raiseParity s lc q idx else s
    | none => s) := by
    split
    · split
      · exact raiseParity_sound _ _ _ _ hs
      · exact hs
    · exact hs
  unfold execClusterReplay
  extract_lets +onlyGivenNames s1 s2 c
  have h1 : Sound Q s1 := hp
  have h2 : Sound Q s2 := endFlights_sound _ _ h1
  clear_value c s2 s1
  have h := reloadPart_sound (modMem s2 lc (fun m => runTests m (2 ^ 64 - 1) true none)) lc
    (modMem_sound _ _ _ h2 (fun m hm => runTests_sound m (2 ^ 64 - 1) true none hm))
  have hr : ∀ (cyc : Nat) (b : Bool) (g : Nat), Sound Q (replayCluster s2 lc cyc b g) := fun _ _ _ => replayCluster_sound _ _ _ _ _ h2
  split
  · exact soundR_next h1
  · split
    · exact soundR_next h2
    · split
      · exact soundR_next (stepFaulted_sound _ _ h2)
      · exact soundR_next (hr _ _ _)
    · split
      · exact soundR_next (hr _ _ _)
      · exact soundR_next h2
    · split
      · exact soundR_next (hr _ _ _)
      · split
        · exact soundR_next (recoveryFailed_sound _ _ _ h2)
        · exact soundR_next (modCluster_sound h2 (fun c hc => ⟨runTests_sound c.mem (2 ^ 64 - 1) true none hc.mem, hc.ftab⟩))
    · split
      · exact soundR_next (hr _ _ _)
      · exact soundR_next h2
    · split
      · exact soundR_next h2
      · split
        · exact soundR_next (stepFaulted_sound _ _ h2)
        · split
          · exact soundR_next (recoveryFailed_sound _ _ _ h2)
          · split
            · rename_i ht
              rw [ht] at h
              exact soundR_next (replayCluster_sound _ _ _ _ _ (h.1 _ rfl))
            · rename_i ht
              rw [ht] at h
              exact soundR_next (stepFaulted_sound _ _ h.2)
    · split
      · exact soundR_next h2
      · exact soundR_next (hr _ _ _)
    · exact soundR_next (hr _ _ _)
    all_goals exact soundR_next h2

theorem runVec_sound (s : State) (lc cyc : Nat) (pk : Option QEntry) (bounds : QEntry → List (Nat × Nat × Bool))
    (f : State → QEntry → State) (hs : Sound Q s) (hf : ∀ (t : State) (e : QEntry), Sound Q t → Sound Q (f t e)) :
    Sound Q (runVec s lc cyc pk bounds f) := by
  unfold runVec
  split
  · exact hs
  · split
    · exact retireAt_sound _ _ _ _ _ hs
    · split
      · exact boundFault_sound _ _ _ _ _ _ hs
      · exact hf _ _ hs

theorem vecFmaRun_sound (lc cyc : Nat) (s : State) (e : QEntry) (hs : Sound Q s) : Sound Q (vecFmaRun lc cyc s e) := by
  unfold vecFmaRun
  repeat' first
    | with_reducible assumption
    | with_reducible apply finishCmd_sound
    | with_reducible apply epilogue_sound

theorem execVecFma_sound (lc cyc : Nat) (s : State) (hs : Sound Q s) : SoundR Q (execVecFma lc cyc s) := by
  unfold execVecFma
  repeat' first
    | with_reducible assumption
    | with_reducible apply runVec_sound
    | with_reducible apply vecFmaRun_sound
    | with_reducible apply soundR_next

theorem vecFnRun_sound (lc cyc : Nat) (s : State) (e : QEntry) (hs : Sound Q s) : Sound Q (vecFnRun lc cyc s e) := by
  unfold vecFnRun
  repeat' first
    | with_reducible assumption
    | with_reducible apply finishCmd_sound
    | with_reducible apply epilogue_sound

theorem execVecFn_sound (lc cyc : Nat) (s : State) (hs : Sound Q s) : SoundR Q (execVecFn lc cyc s) := by
  unfold execVecFn
  repeat' first
    | with_reducible assumption
    | with_reducible apply runVec_sound
    | with_reducible apply vecFnRun_sound
    | with_reducible apply soundR_next

theorem vecDfnRun_sound (lc cyc : Nat) (s : State) (e : QEntry) (hs : Sound Q s) : Sound Q (vecDfnRun lc cyc s e) := by
  unfold vecDfnRun
  repeat' first
    | with_reducible assumption
    | with_reducible apply finishCmd_sound
    | with_reducible apply epilogue_sound

theorem execVecDfn_sound (lc cyc : Nat) (s : State) (hs : Sound Q s) : SoundR Q (execVecDfn lc cyc s) := by
  unfold execVecDfn
  repeat' first
    | with_reducible assumption
    | with_reducible apply runVec_sound
    | with_reducible apply vecDfnRun_sound
    | with_reducible apply soundR_next

theorem vecCvtRun_sound (lc cyc : Nat) (s : State) (e : QEntry) (hs : Sound Q s) : Sound Q (vecCvtRun lc cyc s e) := by
  unfold vecCvtRun
  repeat' first
    | with_reducible assumption
    | with_reducible apply finishCmd_sound
    | with_reducible apply epilogue_sound

theorem execVecCvt_sound (lc cyc : Nat) (s : State) (hs : Sound Q s) : SoundR Q (execVecCvt lc cyc s) := by
  unfold execVecCvt
  repeat' first
    | with_reducible assumption
    | with_reducible apply boundFault_sound
    | with_reducible apply runVec_sound
    | with_reducible apply vecCvtRun_sound
    | with_reducible apply soundR_next
    | intro _
    | extract_lets
    | split

theorem vecOptRun_sound (lc cyc : Nat) (s : State) (e : QEntry) (hs : Sound Q s) : Sound Q (vecOptRun lc cyc s e) := by
  unfold vecOptRun
  repeat' first
    | with_reducible assumption
    | with_reducible apply modCluster_sound
    | with_reducible apply finishCmd_sound
    | intro _
    | extract_lets
    | split
    | simp only [sound_mk_iff, sound_mb_iff, sound_dram_iff, clok_mk_iff, clok_vr_iff, memok_mk_iff]

theorem execVecOpt_sound (lc cyc : Nat) (s : State) (hs : Sound Q s) : SoundR Q (execVecOpt lc cyc s) := by
  unfold execVecOpt
  repeat' first
    | with_reducible assumption
    | with_reducible apply runVec_sound
    | with_reducible apply vecOptRun_sound
    | with_reducible apply soundR_next

theorem vecRedRun_sound (lc cyc : Nat) (s : State) (e : QEntry) (hs : Sound Q s) : Sound Q (vecRedRun lc cyc s e) := by
  unfold vecRedRun
  repeat' first
    | with_reducible assumption
    | with_reducible apply modCluster_sound
    | with_reducible apply carry_sound
    | with_reducible apply noteUnbounded_sound
    | with_reducible apply finishCmd_sound
    | with_reducible apply foldl_clok
    | intro _
    | extract_lets
    | split

theorem execVecRedCombine_sound (lc cyc : Nat) (s : State) (hs : Sound Q s) : SoundR Q (execVecRedCombine lc cyc s) := by
  unfold execVecRedCombine
  repeat' first
    | with_reducible assumption
    | with_reducible apply boundFault_sound
    | with_reducible apply runVec_sound
    | with_reducible apply vecRedRun_sound
    | with_reducible apply soundR_next
    | intro _
    | extract_lets
    | split

theorem vecRedBlockRun_sound (lc cyc : Nat) (s : State) (e : QEntry) (hs : Sound Q s) : Sound Q (vecRedBlockRun lc cyc s e) := by
  unfold vecRedBlockRun
  repeat' first
    | with_reducible assumption
    | with_reducible apply modCluster_sound
    | with_reducible apply carry_sound
    | with_reducible apply finishCmd_sound
    | intro _

theorem execVecRedBlock_sound (lc cyc : Nat) (s : State) (hs : Sound Q s) : SoundR Q (execVecRedBlock lc cyc s) := by
  unfold execVecRedBlock
  repeat' first
    | with_reducible assumption
    | with_reducible apply boundFault_sound
    | with_reducible apply runVec_sound
    | with_reducible apply vecRedBlockRun_sound
    | with_reducible apply soundR_next
    | intro _
    | extract_lets
    | split

end Sys2Proof.Machine
end

