-- ==== Sys2Proof/Laws/SoundModule.lean ====
section
/-! SUPPORT. What `Sound` says of start-up, sleep and SMBus: each operation keeps it. -/

set_option linter.unusedSimpArgs false
set_option linter.unusedTactic false

namespace Sys2Proof.Machine

variable {Q : List Instr}

theorem clReset_sound (m : Sparse Cluster) (b : Bool) : ∀ e ∈ clReset m b, ClOk e.2 := by
  intro e he
  unfold clReset at he
  split at he
  · simp at he
  · rw [List.mem_filterMap] at he
    obtain ⟨x, _, hx⟩ := he
    split at hx
    · simp at hx
    · simp only [Option.some.injEq] at hx
      subst hx
      exact ⟨⟨rfl, rfl, rfl⟩, rfl⟩

theorem coreReset_sound (s : State) (cold : Bool) (hs : Sound Q s) : Sound Q (coreReset s cold) := by
  refine ⟨hs.queue, rfl, hs.comp, clReset_sound _ _, ?_, Nat.zero_le _, Nat.zero_le _⟩
  unfold coreReset
  dsimp only
  split
  · exact Nat.zero_le _
  · exact hs.log

theorem holdModule_sound (s : State) (hs : Sound Q s) : Sound Q (holdModule s) := by
  unfold holdModule
  repeat' first
    | with_reducible assumption
    | with_reducible apply coreReset_sound
    | extract_lets
    | simp only [sound_mk_iff, sound_mb_iff, sound_dram_iff, clok_mk_iff, clok_vr_iff, memok_mk_iff]

theorem latchStraps_sound (s : State) (x : Straps) (hs : Sound Q s) : Sound Q (latchStraps s x) := by
  unfold latchStraps
  repeat' first
    | with_reducible assumption
    | with_reducible apply setAlert_sound
    | with_reducible apply refreshPowerAlert_sound
    | extract_lets
    | split
    | simp only [sound_mk_iff, sound_mb_iff, sound_dram_iff, clok_mk_iff, clok_vr_iff, memok_mk_iff]

theorem beginStart_sound (s : State) (kind : Nat) (hs : Sound Q s) : Sound Q (beginStart s kind) := by
  unfold beginStart
  repeat' first
    | with_reducible assumption
    | extract_lets
    | split
    | simp only [sound_mk_iff, sound_mb_iff, sound_dram_iff, clok_mk_iff, clok_vr_iff, memok_mk_iff]

theorem execColdBoot_sound (straps : Straps) (s : State) (hs : Sound Q s) : SoundR Q (execColdBoot straps s) := by
  unfold execColdBoot
  repeat' first
    | with_reducible assumption
    | with_reducible apply latchStraps_sound
    | with_reducible apply beginStart_sound
    | with_reducible apply soundR_next
    | extract_lets
    | split
    | simp only [sound_mk_iff, sound_mb_iff, sound_dram_iff, clok_mk_iff, clok_vr_iff, memok_mk_iff]

theorem execModResetAssert_sound (s : State) (hs : Sound Q s) : SoundR Q (execModResetAssert s) := by
  unfold execModResetAssert
  repeat' first
    | with_reducible assumption
    | with_reducible apply holdModule_sound
    | with_reducible apply soundR_next
    | split
    | simp only [sound_mk_iff, sound_mb_iff, sound_dram_iff, clok_mk_iff, clok_vr_iff, memok_mk_iff]

theorem execModResetDeassert_sound (lowCycles : Nat) (straps : Straps) (s : State) (hs : Sound Q s) : SoundR Q (execModResetDeassert lowCycles straps s) := by
  unfold execModResetDeassert
  repeat' first
    | with_reducible assumption
    | with_reducible apply latchStraps_sound
    | with_reducible apply beginStart_sound
    | with_reducible apply soundR_next
    | split
    | simp only [sound_mk_iff, sound_mb_iff, sound_dram_iff, clok_mk_iff, clok_vr_iff, memok_mk_iff]

theorem execInputUndervoltage_sound (s : State) (hs : Sound Q s) : SoundR Q (execInputUndervoltage s) := by
  unfold execInputUndervoltage
  repeat' first
    | with_reducible assumption
    | with_reducible apply holdModule_sound
    | with_reducible apply soundR_next
    | extract_lets
    | split
    | simp only [sound_mk_iff, sound_mb_iff, sound_dram_iff, clok_mk_iff, clok_vr_iff, memok_mk_iff]

theorem execInputRestored_sound (straps : Straps) (s : State) (hs : Sound Q s) : SoundR Q (execInputRestored straps s) := by
  unfold execInputRestored
  repeat' first
    | with_reducible assumption
    | with_reducible apply latchStraps_sound
    | with_reducible apply beginStart_sound
    | with_reducible apply soundR_next
    | split
    | simp only [sound_mk_iff, sound_mb_iff, sound_dram_iff, clok_mk_iff, clok_vr_iff, memok_mk_iff]

theorem execAonPowerLoss_sound (s : State) (hs : Sound Q s) : SoundR Q (execAonPowerLoss s) := by
  unfold execAonPowerLoss
  repeat' first
    | with_reducible assumption
    | with_reducible apply coreReset_sound
    | with_reducible apply soundR_next
    | split
    | simp only [sound_mk_iff, sound_mb_iff, sound_dram_iff, clok_mk_iff, clok_vr_iff, memok_mk_iff]

theorem modBoot_sound (s : State) (f : Boot → Boot) (hs : Sound Q s) : Sound Q (modBoot s f) := by
  unfold modBoot
  repeat' first
    | with_reducible assumption
    | simp only [sound_mk_iff, sound_mb_iff, sound_dram_iff, clok_mk_iff, clok_vr_iff, memok_mk_iff]

theorem passStage_sound (s : State) (stage : Nat) (next : List Nat) (hs : Sound Q s) : Sound Q (passStage s stage next) := by
  unfold passStage
  repeat' first
    | with_reducible assumption
    | with_reducible apply modBoot_sound

theorem noteCool_sound (s : State) (hs : Sound Q s) : Sound Q (noteCool s) := by
  unfold noteCool
  repeat' first
    | with_reducible assumption
    | with_reducible apply logOnly_sound
    | with_reducible apply modBoot_sound
    | split

theorem bootFail_sound (s : State) (stage cause : Nat) (hs : Sound Q s) : Sound Q (bootFail s stage cause) := by
  unfold bootFail
  repeat' first
    | with_reducible assumption
    | with_reducible apply logEvent_sound
    | with_reducible apply enterSafe_sound
    | with_reducible apply modBoot_sound
    | with_reducible apply noteCool_sound

theorem stage2_sound (s : State) (hs : Sound Q s) : Sound Q (stage2 s) := by
  unfold stage2
  repeat' first
    | with_reducible assumption
    | with_reducible apply modBoot_sound
    | with_reducible apply passStage_sound
    | with_reducible apply bootFail_sound
    | extract_lets
    | split

theorem certifyAlias_sound (s : State) (hs : Sound Q s) : Sound Q (certifyAlias s) := by
  unfold certifyAlias
  repeat' first
    | with_reducible assumption
    | with_reducible apply modBoot_sound
    | extract_lets
    | split

theorem stage3_sound (s : State) (hs : Sound Q s) : Sound Q (stage3 s) := by
  unfold stage3
  repeat' first
    | with_reducible assumption
    | with_reducible apply measureLayer2_sound
    | with_reducible apply modBoot_sound
    | with_reducible apply passStage_sound
    | with_reducible apply bootFail_sound
    | with_reducible apply certifyAlias_sound
    | extract_lets
    | split
    | simp only [sound_mk_iff, sound_mb_iff, sound_dram_iff, clok_mk_iff, clok_vr_iff, memok_mk_iff]

theorem degraded_sound (s : State) (n unit id : Nat) (hs : Sound Q s) : Sound Q (degraded s n unit id) := by
  unfold degraded
  repeat' first
    | with_reducible assumption
    | with_reducible apply logEvent_sound
    | with_reducible apply modBoot_sound

theorem stage4_sound (s : State) (r : StageResult) (hs : Sound Q s) : Sound Q (stage4 s r) := by
  unfold stage4
  dsimp only
  refine passStage_sound _ _ _ ?_
  split
  · exact degraded_sound _ _ _ _ (sound_mb' hs)
  · exact sound_mb' hs

theorem warmMove_sound (s : State) (n : Nat) (hs : Sound Q s) : Sound Q (warmMove s n) := by
  unfold warmMove
  extract_lets +onlyGivenNames e k
  split
  · exact hs
  · dsimp only
    split
    · exact setLc_sound _ _ _ (sound_mk hs)
    · exact logEvent_sound _ _ _ _ _ _ _ (setLc_sound _ _ _ (sound_mk hs))

theorem stageMap_sound (s : State) (failing : List Nat) (bad : Bool) (hs : Sound Q s) : Sound Q (stageMap s failing bad) := by
  unfold stageMap
  dsimp only
  split
  · exact foldl_sound (modBoot_sound _ _ (sound_mk hs)) (fun t x ht => warmMove_sound _ _ ht)
  · exact sound_mk hs

theorem bootCluster_sound (old : Cluster) : ClOk (bootCluster old) := ⟨⟨rfl, rfl, rfl⟩, rfl⟩

theorem stage5_sound (s : State) (r : StageResult) (hs : Sound Q s) : Sound Q (stage5 s r) := by
  unfold stage5
  extract_lets +onlyGivenNames s1
  have h1 : Sound Q s1 := modBoot_sound _ _ hs
  clear_value s1
  split
  · exact bootFail_sound _ _ _ h1
  · extract_lets +onlyGivenNames s2 cl
    have h2 : Sound Q s2 := stageMap_sound _ _ _ h1
    clear_value s2
    refine passStage_sound _ _ _ (sound_cl h2 (sparseOf_mem clok_reset (fun x hx => ?_)))
    rw [List.mem_map] at hx
    obtain ⟨lc, _, rfl⟩ := hx
    split
    · exact bootCluster_sound _
    · exact h2.cluster

theorem stage6_sound (s : State) (r : StageResult) (hs : Sound Q s) : Sound Q (stage6 s r) := by
  unfold stage6
  extract_lets +onlyGivenNames dr s1 s2
  have h1 : Sound Q s1 := modBoot_sound _ _ (sound_dram hs rfl)
  have h2 : Sound Q s2 := foldl_sound h1 (fun t x ht => logEvent_sound _ _ _ _ _ _ _ ht)
  clear_value s2
  split
  · exact bootFail_sound _ _ _ h2
  · exact passStage_sound _ _ _ (foldl_sound h2 (fun t x ht => modStk_sound _ _ _ ht))

theorem stage7_sound (s : State) (r : StageResult) (hs : Sound Q s) : Sound Q (stage7 s r) := by
  unfold stage7
  repeat' first
    | with_reducible assumption
    | with_reducible apply modPort_sound
    | with_reducible apply modBoot_sound
    | with_reducible apply passStage_sound
    | with_reducible apply degraded_sound
    | with_reducible apply foldl_sound
    | intro _
    | extract_lets
    | split

theorem stage8_sound (s : State) (r : StageResult) (hs : Sound Q s) : Sound Q (stage8 s r) := by
  unfold stage8
  repeat' first
    | with_reducible assumption
    | with_reducible apply mountStore_sound
    | with_reducible apply passStage_sound
    | with_reducible apply degraded_sound
    | extract_lets
    | split

theorem invalidateStore_sound (s : State) (hs : Sound Q s) : Sound Q (invalidateStore s) := by
  unfold invalidateStore
  repeat' first
    | with_reducible assumption
    | extract_lets
    | simp only [sound_mk_iff, sound_mb_iff, sound_dram_iff, clok_mk_iff, clok_vr_iff, memok_mk_iff]

theorem noteScrub_sound (s : State) (ms : Nat) (hs : Sound Q s) : Sound Q (noteScrub s ms) := by
  unfold noteScrub
  repeat' first
    | with_reducible assumption
    | with_reducible apply modSu_sound

theorem unsealFailed_sound (s : State) (cause ms : Nat) (hs : Sound Q s) : Sound Q (unsealFailed s cause ms) := by
  unfold unsealFailed
  repeat' first
    | with_reducible assumption
    | with_reducible apply logEvent_sound
    | with_reducible apply invalidateStore_sound
    | with_reducible apply noteScrub_sound

theorem openLaidUp_sound (s : State) (ms : Nat) (hs : Sound Q s) : Sound Q (openLaidUp s ms) := by
  unfold openLaidUp
  repeat' first
    | with_reducible assumption
    | with_reducible apply unsealFailed_sound
    | split
    | simp only [sound_mk_iff, sound_mb_iff, sound_dram_iff, clok_mk_iff, clok_vr_iff, memok_mk_iff]

theorem stage9_sound (s : State) (r : StageResult) (hs : Sound Q s) : Sound Q (stage9 s r) := by
  unfold stage9
  repeat' first
    | with_reducible assumption
    | with_reducible apply logEvent_sound
    | with_reducible apply setOp_sound
    | with_reducible apply modBoot_sound
    | with_reducible apply passStage_sound
    | with_reducible apply invalidateStore_sound
    | with_reducible apply noteScrub_sound
    | with_reducible apply openLaidUp_sound
    | extract_lets
    | split
    | simp only [sound_mk_iff, sound_mb_iff, sound_dram_iff, clok_mk_iff, clok_vr_iff, memok_mk_iff]

theorem hubTested_sound (s : State) (hs : Sound Q s) : Sound Q (hubTested s) := by
  unfold hubTested
  repeat' first
    | with_reducible assumption
    | split
    | simp only [sound_mk_iff, sound_mb_iff, sound_dram_iff, clok_mk_iff, clok_vr_iff, memok_mk_iff]

theorem endStage_sound (s : State) (stage : Nat) (r : StageResult) (hs : Sound Q s) : Sound Q (endStage s stage r) := by
  unfold endStage
  extract_lets +onlyGivenNames s1
  have h1 : Sound Q s1 := by
    simp only [s1]
    split
    · exact passStage_sound _ _ _ hs
    · exact passStage_sound _ _ _ (noteCool_sound _ (hubTested_sound _ hs))
    · exact stage2_sound _ hs
    · exact stage3_sound _ hs
    · exact stage4_sound _ _ hs
    · exact stage5_sound _ _ hs
    · exact stage6_sound _ _ hs
    · exact stage7_sound _ _ hs
    · exact stage8_sound _ _ hs
    · exact stage9_sound _ _ hs
  have h2 : ∀ t : State, Sound Q t → Sound Q (if stage < 9 ∧ t.boot.phase = .starting ∧ [4, 5, 6, 7, 8].all (setHas t.boot.done) then
      modBoot t (fun b => { b with running := setAdd b.running 9 }) else t) := by
    intro t ht
    split
    · exact modBoot_sound _ _ ht
    · exact ht
  exact h2 _ h1

theorem execStartUpStageEnd_sound (stage : Nat) (r : StageResult) (s : State) (hs : Sound Q s) : SoundR Q (execStartUpStageEnd stage r s) := by
  unfold execStartUpStageEnd
  repeat' first
    | with_reducible assumption
    | with_reducible apply endStage_sound
    | with_reducible apply soundR_next
    | split

theorem execStageBoundOverrun_sound (stage : Nat) (unitsOnly : List Nat) (s : State) (hs : Sound Q s) : SoundR Q (execStageBoundOverrun stage unitsOnly s) := by
  unfold execStageBoundOverrun
  repeat' first
    | with_reducible assumption
    | with_reducible apply coreReset_sound
    | with_reducible apply bootFail_sound
    | with_reducible apply endStage_sound
    | with_reducible apply soundR_next
    | split
    | simp only [sound_mk_iff, sound_mb_iff, sound_dram_iff, clok_mk_iff, clok_vr_iff, memok_mk_iff]

theorem execUnitRetry_sound (unit : Nat) (trained : Bool) (s : State) (hs : Sound Q s) : SoundR Q (execUnitRetry unit trained s) := by
  unfold execUnitRetry
  repeat' first
    | with_reducible assumption
    | with_reducible apply modPort_sound
    | with_reducible apply modBoot_sound
    | with_reducible apply soundR_next
    | extract_lets
    | split
    | simp only [sound_mk_iff, sound_mb_iff, sound_dram_iff, clok_mk_iff, clok_vr_iff, memok_mk_iff]

theorem noteSleepRefusal_sound (s : State) (r : Refuser) (aborted : Bool) (hs : Sound Q s) : Sound Q (noteSleepRefusal s r aborted) := by
  unfold noteSleepRefusal
  repeat' first
    | with_reducible assumption
    | with_reducible apply logEvent_sound
    | with_reducible apply modSlp_sound

theorem refuseSleep_sound (s : State) (m : Msg) (k : Nat) (hs : Sound Q s) : Sound Q (refuseSleep s m k) := by
  unfold refuseSleep
  repeat' first
    | with_reducible assumption
    | with_reducible apply badArg_sound
    | with_reducible apply busy_sound
    | with_reducible apply exhausted_sound
    | split

theorem beginEntry_sound (s : State) (t r : Nat) (hs : Sound Q s) : Sound Q (beginEntry s t r) := by
  unfold beginEntry
  repeat' first
    | with_reducible assumption
    | with_reducible apply makeCut_sound
    | with_reducible apply modSlp_sound
    | extract_lets
    | split

theorem execEnterSleep_sound (m : Msg) (s : State) (hs : Sound Q s) : SoundR Q (execEnterSleep m s) := by
  unfold execEnterSleep
  repeat' first
    | with_reducible assumption
    | with_reducible apply ok_sound
    | with_reducible apply stateRefused_sound
    | with_reducible apply badArg_sound
    | with_reducible apply takeArgs_sound
    | with_reducible apply noteSleepRefusal_sound
    | with_reducible apply refuseSleep_sound
    | with_reducible apply beginEntry_sound
    | with_reducible apply soundR_next
    | intro _
    | extract_lets
    | split

theorem abortEntry_sound (s : State) (r : Refuser) (hs : Sound Q s) : Sound Q (abortEntry s r) := by
  unfold abortEntry
  repeat' first
    | with_reducible assumption
    | with_reducible apply modSlp_sound
    | with_reducible apply noteSleepRefusal_sound

theorem writeLaidUp_sound (s : State) (hs : Sound Q s) : Sound Q (writeLaidUp s) := by
  unfold writeLaidUp
  repeat' first
    | with_reducible assumption
    | split
    | simp only [sound_mk_iff, sound_mb_iff, sound_dram_iff, clok_mk_iff, clok_vr_iff, memok_mk_iff]

theorem execSleepPointOfNoReturn_sound (s : State) (hs : Sound Q s) : SoundR Q (execSleepPointOfNoReturn s) := by
  unfold execSleepPointOfNoReturn
  split
  · exact soundR_next hs
  · split
    · exact soundR_next hs
    · split
      · exact soundR_next (abortEntry_sound _ _ hs)
      · split
        · exact soundR_next (abortEntry_sound _ _ hs)
        · split
          · exact soundR_next (latchPins_sound _ (modSlp_sound _ _ hs))
          · extract_lets +onlyGivenNames s1
            have h1 : Sound Q s1 := by
              simp only [s1]
              split
              · exact advanceCkpt_sound _ (foldl_sound hs (fun t x ht => writeHold_sound _ _ ht))
              · exact hs
            have h2 : ∀ t : State, Sound Q t → SoundR Q (if t.sec ≠ .sopen ∧ !(entryCopyDone t) then .next (abortEntry t (4, refId 0 0xFFFF 0))
                else .next (latchPins (modSlp (writeLaidUp t) (fun p => { p with ponr := true })))) := by
              intro t ht
              split
              · exact soundR_next (abortEntry_sound _ _ ht)
              · exact soundR_next (latchPins_sound _ (modSlp_sound _ _ (writeLaidUp_sound _ ht)))
            exact h2 _ h1

theorem stableBanks_sound (s : State) (c : Cluster) (r : Nat) (hs : Sound Q s) (hc : ClOk c) : MemOk (stableBanks s c r) := by
  unfold stableBanks
  repeat' first
    | with_reducible assumption
    | with_reducible apply setTab_sound
    | with_reducible apply foldl_memok
    | with_reducible apply ClOk.mem
    | intro _
    | extract_lets
    | split
    | simp only [sound_mk_iff, sound_mb_iff, sound_dram_iff, clok_mk_iff, clok_vr_iff, memok_mk_iff]

theorem layUp_sound (s : State) (hs : Sound Q s) : Sound Q (layUp s) := by
  have h := coreReset_sound _ false (setOp_sound _ .sl3 (setDbg_sound _ 0 hs))
  exact ⟨h.queue, h.dram, h.comp, h.cl, Nat.zero_le _, h.evq, h.long⟩

theorem execSleepEntryComplete_sound (s : State) (hs : Sound Q s) : SoundR Q (execSleepEntryComplete s) := by
  unfold execSleepEntryComplete
  repeat' first
    | with_reducible assumption
    | with_reducible apply modStk_sound
    | with_reducible apply setOp_sound
    | with_reducible apply modMem_sound
    | with_reducible apply modSlp_sound
    | with_reducible apply stableBanks_sound
    | with_reducible apply layUp_sound
    | with_reducible apply soundR_next
    | with_reducible apply foldl_sound
    | with_reducible apply Sound.cluster
    | intro _
    | split

theorem execWake_sound (source port : Nat) (rising : Bool) (s : State) (hs : Sound Q s) : SoundR Q (execWake source port rising s) := by
  unfold execWake
  repeat' first
    | with_reducible assumption
    | with_reducible apply hostActivity_sound
    | with_reducible apply frameActivity_sound
    | with_reducible apply noteEdge_sound
    | with_reducible apply soundR_next
    | extract_lets
    | split

theorem execWhistle_sound (port : Nat) (s : State) (hs : Sound Q s) : SoundR Q (execWhistle port s) := by
  unfold execWhistle
  repeat' first
    | with_reducible assumption
    | with_reducible apply wakeEvent_sound
    | with_reducible apply soundR_next
    | extract_lets
    | split

theorem wakeBanks_sound (m : ClMem) (hm : MemOk m) : MemOk (wakeBanks m) := by
  unfold wakeBanks
  repeat' first
    | with_reducible assumption
    | with_reducible apply noteMarch_sound
    | with_reducible apply settleTab_sound
    | with_reducible apply foldl_memok
    | intro _
    | split
    | simp only [sound_mk_iff, sound_mb_iff, sound_dram_iff, clok_mk_iff, clok_vr_iff, memok_mk_iff]

theorem execWoke_sound (w : WakeEnd) (s : State) (hs : Sound Q s) : SoundR Q (execWoke w s) := by
  unfold execWoke
  repeat' first
    | with_reducible assumption
    | with_reducible apply modStk_sound
    | with_reducible apply flushEvents_sound
    | with_reducible apply logEvent_sound
    | with_reducible apply setOp_sound
    | with_reducible apply modMem_sound
    | with_reducible apply sampleSet_sound
    | with_reducible apply testFailed_sound
    | with_reducible apply modSlp_sound
    | with_reducible apply wakeBanks_sound
    | with_reducible apply soundR_next
    | with_reducible apply foldl_sound
    | intro _
    | split
    | simp only [sound_mk_iff, sound_mb_iff, sound_dram_iff, clok_mk_iff, clok_vr_iff, memok_mk_iff]

theorem execWarmRestart_sound (s : State) (hs : Sound Q s) : SoundR Q (execWarmRestart s) := by
  unfold execWarmRestart
  repeat' first
    | with_reducible assumption
    | with_reducible apply setAlert_sound
    | with_reducible apply beginStart_sound
    | with_reducible apply soundR_next
    | extract_lets
    | split
    | simp only [sound_mk_iff, sound_mb_iff, sound_dram_iff, clok_mk_iff, clok_vr_iff, memok_mk_iff]

theorem modSmb_sound (s : State) (f : Smb → Smb) (hs : Sound Q s) : Sound Q (modSmb s f) := by
  unfold modSmb
  repeat' first
    | with_reducible assumption
    | simp only [sound_mk_iff, sound_mb_iff, sound_dram_iff, clok_mk_iff, clok_vr_iff, memok_mk_iff]

theorem smbNack_sound (s : State) (hs : Sound Q s) : SoundR Q (smbNack s) := by
  unfold smbNack
  repeat' first
    | with_reducible assumption
    | with_reducible apply modSmb_sound
    | with_reducible apply soundR_next

theorem smbTake_sound (s : State) (code : Nat) (f : State → Res) (hs : Sound Q s) (hf : ∀ t : State, Sound Q t → SoundR Q (f t)) :
    SoundR Q (smbTake s code f) := by
  unfold smbTake
  repeat' split
  · exact hs
  · exact hf _ hs
  · exact smbNack_sound _ hs

theorem smbReply_sound (s : State) (code : Nat) (block : Bool) (l : List Byte) (hs : Sound Q s) : SoundR Q (smbReply s code block l) := by
  unfold smbReply
  repeat' first
    | with_reducible assumption
    | with_reducible apply modSmb_sound
    | with_reducible apply smbTake_sound
    | with_reducible apply soundR_next
    | intro _

theorem smbWrite_sound (s : State) (code : Nat) (pec okay : Bool) (f : State → State) (hs : Sound Q s) (hf : ∀ t : State, Sound Q t → Sound Q (f t)) :
    SoundR Q (smbWrite s code pec okay f) := by
  refine smbTake_sound _ _ _ hs (fun t ht => ?_)
  repeat' split
  · exact ht
  · exact soundR_next (modSmb_sound _ _ (hf _ ht))
  · exact smbNack_sound _ ht

theorem execInfo_sound (s : State) (hs : Sound Q s) : SoundR Q (execInfo s) := by
  unfold execInfo
  repeat' first
    | with_reducible assumption
    | with_reducible apply smbReply_sound

theorem execState_sound (s : State) (hs : Sound Q s) : SoundR Q (execState s) := by
  unfold execState
  repeat' first
    | with_reducible assumption
    | with_reducible apply smbReply_sound

theorem execTemps_sound (s : State) (hs : Sound Q s) : SoundR Q (execTemps s) := by
  unfold execTemps
  repeat' first
    | with_reducible assumption
    | with_reducible apply smbReply_sound

theorem execPower_sound (s : State) (hs : Sound Q s) : SoundR Q (execPower s) := by
  unfold execPower
  repeat' first
    | with_reducible assumption
    | with_reducible apply smbReply_sound

theorem execFaults_sound (s : State) (hs : Sound Q s) : SoundR Q (execFaults s) := by
  unfold execFaults
  repeat' first
    | with_reducible assumption
    | with_reducible apply smbReply_sound

theorem execAlertStatus_sound (s : State) (hs : Sound Q s) : SoundR Q (execAlertStatus s) := by
  unfold execAlertStatus
  repeat' first
    | with_reducible assumption
    | with_reducible apply smbReply_sound

theorem standingAlerts_sound (s : State) (hs : Sound Q s) : Sound Q (standingAlerts s) := by
  unfold standingAlerts
  repeat' first
    | with_reducible assumption
    | with_reducible apply setAlert_sound
    | with_reducible apply refreshPowerAlert_sound
    | extract_lets
    | split

theorem execAlertClear_sound (pec : Bool) (w : BitVec 16) (s : State) (hs : Sound Q s) : SoundR Q (execAlertClear pec w s) := by
  unfold execAlertClear
  repeat' first
    | with_reducible assumption
    | with_reducible apply modSmb_sound
    | with_reducible apply smbWrite_sound
    | with_reducible apply standingAlerts_sound
    | intro _

theorem execAlertMask_sound (pec : Bool) (w : Option (BitVec 16)) (s : State) (hs : Sound Q s) : SoundR Q (execAlertMask pec w s) := by
  unfold execAlertMask
  repeat' first
    | with_reducible assumption
    | with_reducible apply modSmb_sound
    | with_reducible apply smbReply_sound
    | with_reducible apply smbWrite_sound
    | intro _
    | split

theorem execPowerCap_sound (pec : Bool) (w : Option (BitVec 16)) (s : State) (hs : Sound Q s) : SoundR Q (execPowerCap pec w s) := by
  unfold execPowerCap
  repeat' first
    | with_reducible assumption
    | with_reducible apply modSmb_sound
    | with_reducible apply smbReply_sound
    | with_reducible apply smbWrite_sound
    | intro _
    | split

theorem execAlertResponse_sound (s : State) (hs : Sound Q s) : SoundR Q (execAlertResponse s) := by
  unfold execAlertResponse
  repeat' first
    | with_reducible assumption
    | with_reducible apply modSmb_sound
    | with_reducible apply smbNack_sound
    | with_reducible apply soundR_next
    | split

theorem execAlertPulseEnd_sound (s : State) (hs : Sound Q s) : SoundR Q (execAlertPulseEnd s) := by
  unfold execAlertPulseEnd
  repeat' first
    | with_reducible assumption
    | with_reducible apply modSmb_sound
    | with_reducible apply soundR_next

end Sys2Proof.Machine
end

