-- ==== Sys2Proof/WellFormed.lean ====
section
/-! DEFINITION. The range checks of a command's operands: logical clusters 0 to 255, queues 0 to 6, engines, ports, rings, members,
commands in flight. exec is total; a command outside these ranges names nothing. -/

namespace Sys2Proof

/-- A mailbox message stands on one of the four command rings, and its argument block is at most 1 MiB (R333, R350). -/
def Msg.wf (m : Msg) : Bool := decide (m.ring < 4) && (match m.block with
  | some b => decide (b.length ≤ 1048576)
  | none => true)

/-- One access moves 1 to 64 bytes, and a write carries its length. -/
def Access.wf (a : Access) : Bool := decide (1 ≤ a.len) && decide (a.len ≤ 64) && (match a.data with
  | some d => d.length == a.len
  | none => true)

/-- A frame's payload is at most 9,000 bytes long, and its tag 0 or 16 (R287, R290). -/
def Frame.wf (f : Frame) : Bool := decide (f.payload.length ≤ 9000) && (f.gcm.isEmpty || f.gcm.length == 16)

/-- Is a logical cluster named? -/
def lcOk (n : Nat) : Bool := decide (n < 256)

/-- Is a queue named (Table 6-1)? -/
def queueOk (n : Nat) : Bool := decide (n < 7)

/-- Is a port named? -/
def portOk (n : Nat) : Bool := decide (n < 8)

/-- The operands of a command name something that exists. -/
def Instr.wf : Instr → Bool
  | .getInfo m | .getState m | .getFaultLog m | .assignTenant m | .seal m | .releaseTenant m | .attest m | .keyImport m | .loadConsist m
  | .patchPrm m | .start m | .pause m | .resume m | .stop m | .setPerf m | .setWake m | .enterSleep m | .getPowerStats m | .budgetSet m
  | .budgetGet m | .bankHandover m | .runMarch m | .ckptWrite m | .ckptRestore m | .ckptVerify m | .ckptPolicy m | .buddyPair m
  | .fabricConfig m | .ringJoin m | .ringLeaveRemove m | .ringLeaveReadmit m | .ringLeaveLeave m | .flowOpen m | .debugOpen m
  | .debugClose m | .fwUpdate m => m.wf
  | .clusterPaused lc | .cntSet lc | .cntAdd lc | .cntLoop lc | .cmpSet lc | .prmMov lc | .prmAdd lc | .datum lc | .sync lc
  | .conveyorDeferredStart lc | .conveyorComplete lc | .arrayIdle ⟨lc, _⟩ | .currentClamp ⟨lc, _, _⟩ | .paceLag lc => lcOk lc
  | .opxPass lc _ | .opxDrain lc _ | .opxLoad lc _ | .opxLoadImage lc _ | .opxSave lc _ | .opxSurvey lc _ | .vecFma lc _ | .vecFn lc _
  | .vecDfn lc _ | .vecCvt lc _ | .vecOpt lc _ | .vecRedCombine lc _ | .vecRedBlock lc _ | .rowNormF lc _ | .rowNormB lc _
  | .rowSmaxF lc _ | .rowSmaxB lc _ | .rowTopk lc _ => lcOk lc
  | .clusterReplay lc x => lcOk lc && x.parity.all (fun y => queueOk y.1)
  | .trvGo lc q _ | .trvWait lc q _ => lcOk lc && decide (3 ≤ q) && queueOk q
  | .flgSet lc q _ | .flgWait lc q _ | .flgClr lc q _ | .flagWaiterRelease lc q _ | .lossPost lc q _ | .verHold lc q _ | .verDrop lc q _
  | .commitReady lc q _ => lcOk lc && queueOk q
  | .datumRecordAck lc _ _ | .autoSurvey lc _ | .marchOverdue lc _ | .sidingMove lc _ _ => lcOk lc
  | .clampEnd lc x => lcOk lc && decide (x.cycles ≤ 64)
  | .traverseComplete lc e | .translationRefused lc e _ | .turaistTimeout lc e _ _ | .refusalProbe lc e _ _ | .probeTimeout lc e =>
    lcOk lc && decide (e < 4)
  | .eccWriteback lc m _ | .preservingMarch lc m _ _ => lcOk lc && decide (m < 4)
  | .tabletWrite lc m _ _ | .bankPowerDone lc m _ => lcOk lc && decide (m < 3)
  | .ringConsWrite r _ | .ringIrqWrite r => decide (r < 6)
  | .doorbell r _ => decide (r < 6)
  | .hwinOpen n _ _ => decide (n < 16)
  | .hostWindowAccess _ a => a.wf
  | .windowAccess lc _ _ a => lcOk lc && a.wf
  | .dataRx p ⟨f, _⟩ | .ackRx p f | .readyRx p f | .decisionRx p f | .decReqRx p f | .oosRx p f | .wakeRx p f | .foreignFrameRx p f
  | .buddyPairRx p f | .buddyDataRx p f | .buddyReadReqRx p f | .buddyReadDataRx p f | .buddySlotReqRx p f | .buddySlotDataRx p f =>
    portOk p && f.wf
  | .retransmitTimeout p _ | .busyRetry p _ | .peerAbsent p _ _ | .flowRoundOpen p _ | .flowRoundComplete p _ | .contribDeadline p _ _
  | .starterTimeout p _ _ | .sourceReread p _ _ | .pieceTransmit p _ _ | .oosSend p | .roundCompletionLimit p _ | .whistle p
  | .contributionReady p _ _ => portOk p
  | .wake c p _ => decide (1 ≤ c) && decide (c ≤ 4) && portOk p
  | .monitorTrip k _ _ | .monitorRecovered k => decide (k < 4)
  | .smRestart c _ _ => decide (c < 2)
  | .thermalThreshold n _ | .thermalCeilingStep n => decide (n < 19)
  | .timetablePeriod k i => decide (k < 6) && decide (i < 256)
  | .patrolScrubRead k => decide (k < 12)
  | .commitStalled g => decide (g < 1024)
  | .flagDeadlock k _ => decide (k < 4)
  | .syncComplete _ _ | .syncTimeout _ => true
  | .storePatrol _ st _ => decide (st < 4)
  | .storeDieLost c d => decide (c < 16) && decide (d < 16)
  | .blockRefresh _ _ | .wearLevelMove _ _ | .grownBad _ _ => true
  | .cvStart u _ | .cvValueWrite u _ => decide (u < 8)
  | .cvFeed u b => decide (u < 8) && (b.length == 1 || b.length == 2 || b.length == 4 || b.length == 8)
  | .lockstepMismatch u => decide (u < 3)
  | .startUpStageEnd st _ => decide (st < 10)
  | .stageBoundOverrun st _ => decide (st < 10)
  | .unitRetry u _ => decide (u < 9)
  | .longCommandFinal _ _ | .mbCtlEn _ | .mbCtlRst | .registerWrite _ _ _ | .info | .state | .temps | .power | .faults | .alertStatus
  | .alertClear _ _ | .alertMask _ _ | .powerCap _ _ | .alertResponse | .alertPulseEnd | .extest | .idcode | .samplePreload _
  | .dbgStatus | .dbgAccess _ | .dbgHalt | .vendorAnalysis _ | .bypass _ | .coldBoot _ | .modResetAssert | .modResetDeassert _ _
  | .inputUndervoltage | .inputOvervoltage | .aonPowerLoss | .warmRestart | .woke _ | .linkTrain _ | .powerSample _ | .timeSampleSet
  | .marchArm | .consistEnd | .sleepPointOfNoReturn | .sleepEntryComplete | .ckptHoldRelease _ | .buddyAckTimeout | .inputRestored _
  | .rebuildEnd => true

end Sys2Proof
end

