-- ==== Sys2Proof/Tests/Slice0.lean ====
section
/-! SUPPORT. Tests: for each statement of Certificates/Slice0/Obligations.lean that has hypotheses, a theorem `wit_…` that shows states and
operands which meet them, clause by clause; ill-formed commands; worked examples of the manual. -/

open Sys2Proof Sys2Proof.Machine

namespace Sys2Proof.Tests

set_option Elab.async false

/-! Helpers -/

/-- A message of opcode `op` on ring 0 with SEQ 0, ALIVE 0, and a right CRC. -/
def mkMsg (op len body : Nat) (blk : Option (List Byte)) : Msg :=
  let x := packFields [(op, 16), (0, 8), (0, 3), (0, 1), (0, 4), (0, 32), (0, 8), (0, 8), (len, 16), (0, 32), (body, 864)]
  { ring := 0, raw := BitVec.ofNat 1024 (x + 2 ^ 992 * crc32c (leBytes 124 x)), block := blk, ageUs := 0 }

/-- An opcode alone. -/
def bare (op : Nat) : Msg := mkMsg op 0 0 none

/-- A message with an argument block at the first companion address. -/
def blkMsg (op : Nat) (l : List Byte) (more : Nat) : Msg :=
  mkMsg op 16 (packFields [(0x800000000000, 48), (0, 16), (l.length, 32), (crc32c l, 32)] + more) (some l)

/-- An awake module in operating state o with its mailbox enabled and one entry waiting on command ring 0. -/
def awake (o : OpState) : State :=
  { State.reset with
    op := o, boot := { State.reset.boot with phase := .up, done := [0, 1, 2, 3, 4, 5, 6, 7, 8, 9] }
    mb := { State.reset.mb with en := true, serviceUp := true, rings := [(0, { Ring.reset with prod := 1 })] } }

/-- Idle with every section free. -/
def idle : State := awake .idle

/-- Idle and in another security state. -/
def idleSec (x : SecState) : State := { idle with sec := x }

theorem taken_of {s : State} {m : Msg} {op : Nat} {P : State → Prop} [DecidablePred P]
    (h : (canTake s m && (mOpcode m == op) && (match judge s m with | .inr t => decide (P t) | .inl _ => false)) = true) :
    ∃ t, Taken s m op t ∧ P t := by
  simp only [Bool.and_eq_true, beq_iff_eq] at h
  obtain ⟨⟨h1, h2⟩, h3⟩ := h
  cases hj : judge s m with
  | inl t => rw [hj] at h3; cases h3
  | inr t => rw [hj] at h3; exact ⟨t, ⟨h1, h2, hj⟩, of_decide_eq_true h3⟩

theorem takenArgs_of {s : State} {m : Msg} {op : Nat} {fs : List (Nat × Nat)} {P : State → Prop} [DecidablePred P]
    (h : (canTake s m && (mOpcode m == op) && (match judge s m with | .inr t => decide (P t) | .inl _ => false)) = true)
    (h' : strayBit m fs = none) : ∃ t, TakenArgs s m op fs t ∧ P t := by
  obtain ⟨t, h1, h2⟩ := taken_of h
  exact ⟨t, ⟨h1, h'⟩, h2⟩

theorem takenBlock_of {s : State} {m m' : Msg} {op : Nat} {P : State → List Byte → State → Prop} [∀ t l u, Decidable (P t l u)]
    (h : (canTake s m && (mOpcode m == op) && (match judge s m with
      | .inr t => (match readBlock t m' with | .inr x => decide (P t x.1 x.2) | .inl _ => false) | .inl _ => false)) = true)
    (h' : strayBit m blockFields = none) : ∃ t0 l t, judge s m = .inr t0 ∧ TakenBlock s m m' op l t ∧ P t0 l t := by
  simp only [Bool.and_eq_true, beq_iff_eq] at h
  obtain ⟨⟨h1, h2⟩, h3⟩ := h
  cases hj : judge s m with
  | inl t => rw [hj] at h3; cases h3
  | inr t =>
    rw [hj] at h3
    dsimp only at h3
    cases hr : readBlock t m' with
    | inl u => rw [hr] at h3; cases h3
    | inr x => rw [hr] at h3; exact ⟨t, x.1, x.2, rfl, ⟨t, ⟨h1, h2, hj⟩, hr, h'⟩, of_decide_eq_true h3⟩

/-- A block of chunks with the running CRC after each. -/
def chunks (c : List (List Byte × Nat)) : List Byte := c.flatMap (fun x => x.1)

/-- Are these the running values, from v on? -/
def chainOk (v : Nat) : List (List Byte × Nat) → Bool
  | [] => true
  | x :: r => crcFeed cfgCrc32c v x.1 == x.2 && chainOk x.2 r

/-- The last running value. -/
def chainEnd (v : Nat) : List (List Byte × Nat) → Nat
  | [] => v
  | x :: r => chainEnd x.2 r

theorem crc_chain {v : Nat} {c : List (List Byte × Nat)} (h : chainOk v c = true) : crcFeed cfgCrc32c v (chunks c) = chainEnd v c := by
  induction c generalizing v with
  | nil => rfl
  | cons x r ih =>
    simp only [chainOk, Bool.and_eq_true, beq_iff_eq] at h
    have := ih h.2
    simp only [chunks, List.flatMap_cons, crcFeed, List.foldl_append] at *
    rw [h.1]
    exact this

theorem block_at {s : State} {m : Msg} {op : Nat} {l : List Byte} {P : State → Prop} [DecidablePred P]
    (h : (canTake s m && (mOpcode m == op) && (match judge s m with | .inr t => decide (P t) | .inl _ => false)) = true)
    (h' : strayBit m blockFields = none) (hb : m.block = some l)
    (ha : (decide (mb m 64 32 ≤ 1048576) && isComp (mb m 0 48)) = true) (hl : l.length = mb m 64 32) (hc : crc32c l = mb m 96 32) :
    ∃ t, judge s m = .inr t ∧ TakenBlock s m m op l t ∧ P t := by
  obtain ⟨t, ht, hp⟩ := taken_of h
  simp only [Bool.and_eq_true, decide_eq_true_eq] at ha
  refine ⟨t, ht.2.2, ⟨t, ht, ?_, h'⟩, hp⟩
  unfold readBlock
  simp only [ha.2, hb, hl, hc]
  rw [if_neg (by omega)]
  simp

theorem wit_ReportCommandsComplete :
    (∃ t, TakenArgs idle (bare 0x0001) 0x0001 [] t ∧ True) ∧ (∃ t, TakenArgs idle (bare 0x0002) 0x0002 [] t ∧ True) ∧
    (∃ t, TakenArgs idle (mkMsg 3 14 (2 ^ 32 * 1) none) 0x0003 [(0, 48), (64, 48)] t ∧
      1 ≤ mb (mkMsg 3 14 (2 ^ 32 * 1) none) 32 16 ∧ mb (mkMsg 3 14 (2 ^ 32 * 1) none) 32 16 ≤ 4096 ∧
      mb (mkMsg 3 14 (2 ^ 32 * 1) none) 64 48 + 64 * mb (mkMsg 3 14 (2 ^ 32 * 1) none) 32 16 ≤ 2 ^ 47) :=
  ⟨takenArgs_of (by decide +kernel) (by decide +kernel), takenArgs_of (by decide +kernel) (by decide +kernel),
   takenArgs_of (by decide +kernel) (by decide +kernel)⟩

/-! Mailbox commands: states and messages that meet the hypotheses of the statements, clause by clause -/

/-- BUDGET_SET of kind 0, activity 8, at its least budget. -/
def budgetMsg : Msg := mkMsg 0x70 8 (packFields [(0, 4), (8, 4), (0, 24), (ttMin 0 8, 32)]) none

theorem wit_LevelAndBudgetCommandsComplete :
    (∃ t, TakenArgs idle (mkMsg 0x30 2 0x1249 none) 0x0030 [(0, 13)] t ∧ True) ∧
    (∃ t, TakenArgs idle (mkMsg 0x32 8 (2 ^ 64 - 1) none) 0x0032 [(0, 64)] t ∧ True) ∧
    (∃ t, TakenArgs idle budgetMsg 0x0070 [(0, 8), (32, 32)] t ∧ (mb budgetMsg 0 4 ≤ 5 ∧ mb budgetMsg 4 4 ≤ 8 ∧
      (ttPermille (mb budgetMsg 0 4) (mb budgetMsg 4 4)).isSome = true ∧ ttMin (mb budgetMsg 0 4) (mb budgetMsg 4 4) ≤ mb budgetMsg 32 32 ∧
      budgetSum t (mb budgetMsg 0 4) (mb budgetMsg 4 4) (mb budgetMsg 32 32) ≤ ttCapacity (mb budgetMsg 0 4) * 256)) ∧
    (∃ t, TakenArgs idle (mkMsg 0x60 16 0x1FFFFFFFF none) 0x0060 [(0, 33), (64, 48)] t ∧ mb (mkMsg 0x60 16 0x1FFFFFFFF none) 64 3 = 0) ∧
    (∃ t, TakenArgs idle (mkMsg 0x71 2 (5 + 16 * 0) none) 0x0071 [(0, 13)] t ∧
      (mb (mkMsg 0x71 2 5 none) 0 4 ≤ 5 ∧ mb (mkMsg 0x71 2 5 none) 4 9 < ttInstances (mb (mkMsg 0x71 2 5 none) 0 4))) :=
  ⟨takenArgs_of (by decide +kernel) (by decide +kernel), takenArgs_of (by decide +kernel) (by decide +kernel),
   takenArgs_of (by decide +kernel) (by decide +kernel), takenArgs_of (by decide +kernel) (by decide +kernel),
   takenArgs_of (by decide +kernel) (by decide +kernel)⟩

/-- The block of ASSIGN_TENANT for tenant 1, in chunks: no bound window, a policy of format 1 with no exchange region. -/
def assignChunks : List (List Byte × Nat) :=
  [(leBytes 4 1, 1792876160), (zeros 128, 1630234136), (zeros 128, 4205427016), (zeros 128, 689645117), (zeros 128, 839665456),
   (zeros 128, 2323551273), (zeros 128, 721696160), (zeros 128, 2114612252), (zeros 128, 1974781884), (leBytes 4 1, 3038695008),
   (zeros 127, 3045511967), (zeros 127, 4017556973), (zeros 127, 1078172989), (zeros 127, 73550440)]

/-- A message with an argument block whose CRC is known. -/
def crcMsg (op n crc : Nat) (l : List Byte) : Msg := mkMsg op 16 (packFields [(0x800000000000, 48), (0, 16), (n, 32), (crc, 32)]) (some l)

/-- ASSIGN_TENANT with it. -/
def assignMsg : Msg := crcMsg 0x10 1540 4221416855 (chunks assignChunks)

theorem assign_crc : crc32c (chunks assignChunks) = 4221416855 := by
  have h : crcFeed cfgCrc32c 0xFFFFFFFF (chunks assignChunks) = 73550440 := crc_chain (by decide +kernel)
  show crcResult cfgCrc32c (crcFeed cfgCrc32c 0xFFFFFFFF (chunks assignChunks)) = _
  rw [h]
  decide +kernel

theorem wit_AssignTenant : (∃ t, judge idle assignMsg = .inr t ∧ TakenBlock idle assignMsg assignMsg 0x0010 (chunks assignChunks) t ∧
      (t.dbg ≠ 3 ∧ t.dbg ≤ natBits (byteField ((chunks assignChunks).drop 1028) 0 4) 16 2)) ∧
    (chunks assignChunks).length = 1540 ∧ assignBad (chunks assignChunks) = none :=
  ⟨block_at (by decide +kernel) (by decide +kernel) rfl (by decide +kernel) (by decide +kernel)
    (assign_crc.trans (show 4221416855 = mb assignMsg 96 32 by decide +kernel)), by decide +kernel, by decide +kernel⟩

theorem wit_TenancyCommandsComplete :
    (∃ t, TakenArgs (idleSec .assigned) (bare 0x11) 0x0011 [] t ∧ t.dbg ≤ dbgMax t) ∧
    (∃ t, TakenArgs idle (mkMsg 0x80 16 1 none) 0x0080 [(0, 3)] t ∧ (dbLevel (mkMsg 0x80 16 1 none) = 1 ∧ t.dbg ≤ 1 ∧
      longOf t 0x0012 = false ∧ debugOutcome t (dbLevel (mkMsg 0x80 16 1 none)) (dbScrubOk (mkMsg 0x80 16 1 none)) = some false)) ∧
    (∃ t, TakenArgs idle (bare 0x81) 0x0081 [] t ∧ t.dbg ≠ 3) :=
  ⟨takenArgs_of (by decide +kernel) (by decide +kernel), takenArgs_of (by decide +kernel) (by decide +kernel),
   takenArgs_of (by decide +kernel) (by decide +kernel)⟩

/-- A window over all of the interleaved DRAM view. -/
def dramWin : Window := ⟨true, true, true, 0, 0x17FFFFFF⟩

/-- An assigned tenant in state o with that window. -/
def tenant (o : OpState) : State := { awake o with sec := .assigned, win := [(0, dramWin)], su := { State.reset.su with tenant := 1 } }

/-- LOAD_CONSIST of an image of 4,096 bytes at address 0, without function table and versions. -/
def loadMsg : Msg := mkMsg 0x20 30 (packFields [(0, 64), (4096, 32)]) none

theorem wit_LoadConsist : ∃ t, TakenArgs (tenant .idle) loadMsg 0x0020 loadFields t ∧
    (loadArgBad t loadMsg = none ∧ longOf t 0x0020 = false ∧ longN t < 16) :=
  takenArgs_of (by decide +kernel) (by decide +kernel)

theorem attestLen_le (s : State) : attestLen s ≤ 2 ^ 18 := by
  unfold attestLen certificates
  rw [List.length_append]
  have h1 := List.length_take_le certMax s.boot.aliasCert
  have h2 := List.length_take_le certMax Config.deviceCert
  have : certMax = 65536 := rfl
  omega

/-- ATTEST with its buffer at companion address 0 and BUFLEN at its maximum. -/
def attestMsg : Msg := mkMsg 0x13 76 (packFields [(0, 576), (2 ^ 32 - 1, 32)]) none

theorem wit_Attest : ∃ t, TakenArgs idle attestMsg 0x0013 [(0, 560), (576, 32)] t ∧
    (mb attestMsg 512 48 % 64 = 0 ∧ mb attestMsg 512 48 + attestLen t ≤ 2 ^ 47 ∧ attestLen t ≤ mb attestMsg 576 32 ∧ longN t < 16) := by
  obtain ⟨t, h1, h2⟩ : ∃ t, TakenArgs idle attestMsg 0x0013 [(0, 560), (576, 32)] t ∧ longN t < 16 :=
    takenArgs_of (by decide +kernel) (by decide +kernel)
  have a : mb attestMsg 512 48 = 0 := by decide +kernel
  have b : mb attestMsg 576 32 = 2 ^ 32 - 1 := by decide +kernel
  have c := attestLen_le t
  exact ⟨t, h1, by omega, by omega, by omega, h2⟩

/-- RUN_MARCH of bank 63 of the scratchpad of logical cluster 0 by TRANSPARENT. -/
def marchMsg : Msg := mkMsg 0x41 10 (packFields [(0, 8), (2 ^ 63, 64), (0, 2), (2, 2)]) none

/-- Idle with that bank in the hands of the march engine. -/
def marchS : State := { idle with cl := [(0, { Cluster.reset with mem := { ClMem.powered with tab := spPut ClMem.powered.tab 63 1 } })] }

theorem wit_RunMarch : ∃ t, TakenArgs marchS marchMsg 0x0041 bankFields t ∧
    (bankBad t marchMsg = none ∧ mb marchMsg 74 2 ≠ 3 ∧
     marchHolds t (mb marchMsg 0 8) (mb marchMsg 72 2) (maskBanks (mb marchMsg 8 64) (mb marchMsg 72 2)) = false ∧
     (∀ b, b ∈ maskBanks (mb marchMsg 8 64) (mb marchMsg 72 2) → tablet (cluster t (mb marchMsg 0 8)).mem (mb marchMsg 72 2) b = 1) ∧
     ¬(t.op = .loaded ∧ mb marchMsg 72 2 = 2 ∧ mb marchMsg 74 2 = 0) ∧ longN t < 16) :=
  takenArgs_of (by decide +kernel) (by decide +kernel)

/-- BANK_HANDOVER of the same bank. -/
def handMsg : Msg := mkMsg 0x40 10 (packFields [(0, 8), (2 ^ 63, 64), (0, 2)]) none

theorem wit_BankHandover : ∃ t, TakenArgs marchS handMsg 0x0040 [(0, 8), (8, 64), (72, 2)] t ∧ (bankBad t handMsg = none ∧
    marchHolds t (mb handMsg 0 8) (mb handMsg 72 2) (maskBanks (mb handMsg 8 64) (mb handMsg 72 2)) = false ∧
    ∀ b, b ∈ maskBanks (mb handMsg 8 64) (mb handMsg 72 2) → tablet (cluster t (mb handMsg 0 8)).mem (mb handMsg 72 2) b ≤ 1) :=
  takenArgs_of (by decide +kernel) (by decide +kernel)

/-- A loaded tenant with a checkpoint key, a ready store, one complete copy (number 7) that has been restored, and LOSS in its policy. -/
def ckptS : State :=
  let s := tenant .loaded
  { s with
    su := { s.su with ckey := some 5 }, store := { s.store with ready := true, copies := [⟨true, 0, 7, [], true, false, false⟩] }
    ckpt := { s.ckpt with restored := some ⟨7, some []⟩, policy := { s.ckpt.policy with lossV := true }, buddy := some ⟨0x10, 7, 0, 1, 0, true⟩ } }

/-- CKPT_RESTORE of number 7 from a source. -/
def restoreMsg (source : Nat) : Msg := mkMsg 0x51 16 (source + 7 * 2 ^ 32) none

theorem wit_Checkpoints :
    (∀ n, n ∈ [0, 1] → ∃ t, TakenArgs ckptS (mkMsg 0x50 1 n none) 0x0050 [(0, 1)] t ∧ (t.su.ckey.isSome = true ∧ t.ckpt.cur = none ∧
      (retryMount t).store.ready = true ∧ longN (retryMount t) < 16)) ∧
    (∀ n, n ∈ [0, 1, 2] → ∃ t, TakenArgs ckptS (restoreMsg n) 0x0051 [(0, 2), (32, 32), (64, 64)] t ∧ (rsSource (restoreMsg n) = n ∧
      t.ckpt.buddy.isSome = true ∧ (retryMount t).store.ready = true ∧ (localCopy (retryMount t) (rsCkpt (restoreMsg n))).isSome = true ∧
      t.ckpt.cur = none ∧ longOf t 0x0051 = false ∧ longN (retryMount t) < 16)) ∧
    (∃ t, TakenArgs ckptS (bare 0x52) 0x0052 [] t ∧ (t.ckpt.restored = some ⟨7, some []⟩ ∧
      t.ckpt.policy.lossV = true ∧ t.ckpt.cur = none ∧ t.ckpt.verify = none ∧ longOf t 0x0051 = false ∧ longN (retryMount t) < 16)) := by
  refine ⟨fun n h => ?_, fun n h => ?_, takenArgs_of (by decide +kernel) (by decide +kernel)⟩ <;>
    simp only [List.mem_cons, List.not_mem_nil, or_false] at h
  · obtain rfl | rfl := h <;> exact takenArgs_of (by decide +kernel) (by decide +kernel)
  · obtain rfl | rfl | rfl := h <;> exact takenArgs_of (by decide +kernel) (by decide +kernel)

/-- A paused tenant in slot 0 of a job of two members; member 1 has BASE_MAC 0x10 and is removed. -/
def jobS (o : OpState) : State :=
  let s := tenant o
  { s with fab := { s.fab with
      jobs := [(0, { Job.reset with valid := true, job := 9, pm1 := 1, removed := [1] })], ring := [(0, ⟨8, false⟩), (1, ⟨0x10, false⟩)] } }

/-- RING_LEAVE of slot 0 with an operation and a member. -/
def leaveMsg (op m : Nat) : Msg := mkMsg 0x62 4 (packFields [(0, 12), (op, 2), (0, 2), (m, 16)]) none

theorem wit_BuddyPair : ∃ t, TakenArgs (jobS .loaded) (mkMsg 0x54 8 0x10 none) 0x0054 [(0, 48), (48, 3), (52, 12)] t ∧
    (longOf t 0x0054 = false ∧ (jobOf t (mb (mkMsg 0x54 8 0x10 none) 52 12)).valid = true ∧
      memberOfMac t (mb (mkMsg 0x54 8 0x10 none) 52 12) (mb (mkMsg 0x54 8 0x10 none) 0 48) = some 1 ∧ longN t < 16) :=
  takenArgs_of (by decide +kernel) (by decide +kernel)

theorem wit_RingLeave :
    (∃ t, TakenArgs (jobS .paused) (leaveMsg 0 1) 0x0062 [(0, 12), (12, 2), (16, 16)] t ∧ ((jobOf t (rlSlot (leaveMsg 0 1))).valid = true ∧
      longOf t 0x0062 = false ∧ longN t < 16 ∧ rlOp (leaveMsg 0 1) = 0 ∧
      rlMidx (leaveMsg 0 1) < (jobOf t 0).p * (jobOf t 0).g ∧ rlMidx (leaveMsg 0 1) ≠ (jobOf t 0).midx)) ∧
    (∃ t, TakenArgs (jobS .paused) (leaveMsg 1 1) 0x0062 [(0, 12), (12, 2), (16, 16)] t ∧ ((jobOf t (rlSlot (leaveMsg 1 1))).valid = true ∧
      longOf t 0x0062 = false ∧ longN t < 16 ∧ rlOp (leaveMsg 1 1) = 1 ∧
      setHas (jobOf t 0).removed (rlMidx (leaveMsg 1 1)) = true ∧ t.op = .paused)) ∧
    (∃ t, TakenArgs (jobS .paused) (leaveMsg 2 0) 0x0062 [(0, 12), (12, 2), (16, 16)] t ∧ ((jobOf t (rlSlot (leaveMsg 2 0))).valid = true ∧
      longOf t 0x0062 = false ∧ longN t < 16 ∧ rlOp (leaveMsg 2 0) = 2 ∧ rlMidx (leaveMsg 2 0) = 0)) :=
  ⟨takenArgs_of (by decide +kernel) (by decide +kernel), takenArgs_of (by decide +kernel) (by decide +kernel),
   takenArgs_of (by decide +kernel) (by decide +kernel)⟩

theorem wit_ReleaseTenant : ∃ t, TakenArgs (tenant .idle) (bare 0x12) 0x0012 [] t ∧
    (longOf t 0x0013 = false ∧ longOf t 0x0014 = false ∧ longN t < 16) :=
  takenArgs_of (by decide +kernel) (by decide +kernel)

/-- KEY_IMPORT that clears the checkpoint key of tenant 1, in chunks. -/
def keyChunks : List (List Byte × Nat) :=
  [(leBytes 4 0x10003 ++ leBytes 4 1, 2598767549), (zeros 74, 112520693), (zeros 74, 3739389769), (zeros 74, 3823510412), (zeros 74, 1240154668)]

/-- Its message. -/
def keyMsg : Msg := crcMsg 0x14 304 3054812627 (chunks keyChunks)

theorem key_crc : crc32c (chunks keyChunks) = 3054812627 := by
  have h : crcFeed cfgCrc32c 0xFFFFFFFF (chunks keyChunks) = 1240154668 := crc_chain (by decide +kernel)
  show crcResult cfgCrc32c (crcFeed cfgCrc32c 0xFFFFFFFF (chunks keyChunks)) = _
  rw [h]
  decide +kernel

theorem wit_KeyImport : (∃ t, judge (tenant .idle) keyMsg = .inr t ∧ TakenBlock (tenant .idle) keyMsg keyMsg 0x0014 (chunks keyChunks) t ∧
      (keyBad t (chunks keyChunks) = none ∧ keyInUse t (chunks keyChunks) = false ∧ longN t < 16)) ∧
    (chunks keyChunks).length = 304 ∧ kiClear (chunks keyChunks) = true :=
  ⟨block_at (by decide +kernel) (by decide +kernel) rfl (by decide +kernel) (by decide +kernel)
    (key_crc.trans (show 3054812627 = mb keyMsg 96 32 by decide +kernel)), by decide +kernel, by decide +kernel⟩

theorem wit_FwUpdate : ∃ t0 l t, judge idle (blkMsg 0x90 [1] 0) = .inr t0 ∧
    TakenBlock idle (blkMsg 0x90 [1] 0) (blkMsg 0x90 [1] 0) 0x0090 l t ∧ (longOf t 0x0090 = false ∧ longN t < 16) :=
  takenBlock_of (by decide +kernel) (by decide +kernel)

/-- RING_JOIN of job 3 with one member. -/
def joinBlock : List Byte := leBytes 8 (3 * 2 ^ 16) ++ zeros 64

theorem wit_RingJoin : ∃ t0 l t, judge (tenant .idle) (blkMsg 0x61 joinBlock 0) = .inr t0 ∧
    TakenBlock (tenant .idle) (blkMsg 0x61 joinBlock 0) (blkMsg 0x61 joinBlock 0) 0x0061 l t ∧ (joinLen l = true ∧ joinBad t l = none ∧
      freeSlot t = some 0 ∧ joinSpent t (jobConfig (byteField l 0 64)) = false ∧ longOf t 0x0062 = false ∧ longN t < 16) :=
  takenBlock_of (by decide +kernel) (by decide +kernel)

/-- A CKPT_POLICY block without save regions. -/
def policyBlock : List Byte := zeros 32

theorem wit_CkptPolicy : ∃ t0 l t, judge (tenant .idle) (blkMsg 0x53 policyBlock 0) = .inr t0 ∧
    TakenBlock (tenant .idle) (blkMsg 0x53 policyBlock 0) (blkMsg 0x53 policyBlock 0) 0x0053 l t ∧ (32 ≤ l.length ∧ l.length = 32 + 16 * natBits (byteField l 0 32) 192 7 ∧ policyBad t l = none) :=
  takenBlock_of (by decide +kernel) (by decide +kernel)

/-- A FLOW_OPEN block: an FP32 flow of 4,096 elements of job slot 0, all regions at DRAM address 0, DEADLINE 1. -/
def flowBlock : List Byte := leBytes 64 (packFields [(0, 38), (1, 16), (0, 394), (4096, 40), (1, 24)]) ++ zeros 64

theorem wit_FlowOpen : ∃ t0 l t, judge (jobS .loaded) (blkMsg 0x63 flowBlock 0) = .inr t0 ∧
    TakenBlock (jobS .loaded) (blkMsg 0x63 flowBlock 0) (foBlockMsg (blkMsg 0x63 flowBlock 0)) 0x0063 l t ∧ (l.length = 128 ∧
      (flowOf t (foPort (blkMsg 0x63 flowBlock 0)) (foCtx (blkMsg 0x63 flowBlock 0))).valid = false ∧ flowBad t (byteField l 0 128) = none ∧
      flowSpent t (foPort (blkMsg 0x63 flowBlock 0)) (foCtx (blkMsg 0x63 flowBlock 0)) (jobOf t (flowConfig (byteField l 0 128)).jslot) = false) :=
  takenBlock_of (by decide +kernel) (by decide +kernel)

/-! The mailbox page, postings, program control, long commands, register and window accesses -/

theorem wit_StepRunsFrontCommand_and_tick : step { idle with pending := [.cntSet 0] } = exec (.cntSet 0) idle ∧ idle.pending = [] ∧
    State.reset.boot.phase = .off ∧ idle.boot.phase ≠ .off ∧ hubRuns idle = true ∧ memRuns idle = true ∧ fabRuns idle = true := by
  refine ⟨rfl, ?_⟩; decide +kernel

theorem wit_StepKeepsInvariant : State.reset.inv ∧ step State.reset = .next (tick State.reset) ∧ idle.inv ∧ step idle = .next (tick idle) := by
  unfold State.inv; refine ⟨by decide +kernel, rfl, by decide +kernel, rfl⟩

/-- Reset with completion ring 4 at the end of its indices. -/
def ringS : State := { State.reset with mb := { State.reset.mb with rings := [(4, { Ring.reset with first := false, e := 255, prod := 511 })] } }

theorem wit_PostingWritesOneSlot : State.reset.inv ∧ ringS.inv ∧ (ringOf ringS 4).first = false := by
  unfold State.inv; decide +kernel

/-- A message of GET_INFO whose fields are right. -/
def infoMsg : Msg := bare 1

theorem wit_MessageStepsAccept : bits infoMsg.raw 992 32 = crc32c (leBytes 124 infoMsg.raw.toNat) ∧ mRing infoMsg = infoMsg.ring ∧
    (ringOf idle infoMsg.ring).first = true ∧ infoMsg.ring = 0 ∧ bodyMax (mOpcode infoMsg) = some 0 ∧ mLen infoMsg ≤ 0 ∧ bits infoMsg.raw 28 4 = 0 ∧
    bits infoMsg.raw 72 8 = 0 ∧ legal idle (mOpcode infoMsg) = true := by decide +kernel

/-- Idle with command ring 0 expecting ALIVE e, its last command being GET_INFO of SEQ 0. -/
def seqS (e : Nat) : State :=
  { idle with mb := { idle.mb with rings := [(0, { Ring.reset with prod := 1, first := false, e := e, last := some (1, 0) })] } }

theorem wit_MessageStepsRefuse :
    mRing { infoMsg with ring := 1 } ≠ ({ infoMsg with ring := 1 } : Msg).ring ∧ bits infoMsg.raw 992 32 = crc32c (leBytes 124 infoMsg.raw.toNat) ∧
    ((!(ringOf (seqS 1) 0).first && mAlive infoMsg != (ringOf (seqS 1) 0).e) && mAlive infoMsg == ((ringOf (seqS 1) 0).e + 255) % 256 &&
      (ringOf (seqS 1) 0).last == some (mOpcode infoMsg, mSeq infoMsg)) = true ∧
    (!(ringOf (seqS 7) 0).first && mAlive infoMsg != (ringOf (seqS 7) 0).e) = true ∧ (mAlive infoMsg == ((ringOf (seqS 7) 0).e + 255) % 256) = false ∧
    (isInfoOp 0x22 = false ∧ bodyMax 0x22 = some 0 ∧ bodyMax 0x7F = none ∧ bodyMax 3 = some 14) ∧ 14 < mLen (mkMsg 3 15 0 none) ∧
    legal idle 0x22 = false := by decide +kernel

theorem wit_GetPowerStats : (∃ t, TakenArgs idle (bare 0x33) 0x0033 [] t ∧ True) ∧
    (∃ t, TakenArgs idle (mkMsg 0x71 2 5 none) 0x0071 [(0, 13)] t ∧ mb (mkMsg 0x71 2 5 none) 0 4 ≤ 5) :=
  ⟨takenArgs_of (by decide +kernel) (by decide +kernel), takenArgs_of (by decide +kernel) (by decide +kernel)⟩

theorem wit_LongCommandAccepted : longN idle < 16 ∧
    16 ≤ longN ({ idle with mb := { idle.mb with long := List.replicate 16 ⟨infoMsg, 0, 0⟩ } } : State) := by decide +kernel

/-- A verified firmware image, and idle with it in copy A. -/
def goodFw : ImageCopy := { (default : ImageCopy) with good := true }
def fwS : State := { idle with flash := { idle.flash with fwA := goodFw } }

theorem wit_ScrubErasesTenant : mOpcode (bare 0x12) = 0x0012 ∧ fwS.boot.phase ≠ .safe ∧
    (pickCopy fwS.flash.fwA fwS.flash.fwB (fun i => i.good) false).isSome = true := by
  refine ⟨by decide +kernel, by decide +kernel, ?_⟩
  have h : fwS.flash.fwA.good = true := rfl
  unfold pickCopy
  simp only [h]
  cases fwS.flash.fwB.good <;> rfl

/-- Idle with an ATTEST outstanding. -/
def attestS : State := { idle with mb := { idle.mb with long := [⟨attestMsg, 0, 0⟩] } }

theorem wit_LongCommandFinalCompletes :
    attestS.mb.long.find? (fun l => BitVec.ofNat 32 (mSeq l.m) == 0) = some ⟨attestMsg, 0, 0⟩ ∧ hubRuns attestS = true ∧ mOpcode attestMsg = 0x0013 ∧
    haltedOut attestS ⟨attestMsg, 0, 0⟩ = false ∧ admits attestS (longCells ⟨attestMsg, 0, 0⟩).1 (longCells ⟨attestMsg, 0, 0⟩).2 = true ∧
    haltedOut { attestS with op := .halted } ⟨keyMsg, 0, 0⟩ = true ∧
    (∀ m, m ∈ [bare 0x90, keyMsg] → haltedOut attestS ⟨m, 0, 0⟩ = false ∧ admits attestS (longCells ⟨m, 0, 0⟩).1 (longCells ⟨m, 0, 0⟩).2 = true) ∧
    mOpcode (bare 0x90) = 0x0090 ∧ mOpcode keyMsg = 0x0014 ∧ kiClear (leBytes 304 0) = false ∧ kiClear (leBytes 304 (2 ^ 16)) = true ∧
    attestS.mb.long.find? (fun l => BitVec.ofNat 32 (mSeq l.m) == 1) = none ∧
    finalWaits attestS attestMsg 0 = false ∧
    finalWaits { attestS with mb := { attestS.mb with shorts := [⟨attestMsg, 0, false, none⟩] } } attestMsg 0 = true := by decide +kernel

/-- PATCH_PRM of n registers from 200 on of logical cluster 0 to 7. -/
def patchMsg (n : Nat) : Msg :=
  mkMsg 0x21 (8 + 16 * n) (packFields ([(n, 8), (0, 56)] ++ (List.range n).flatMap (fun i => [(0, 16), (200 + i, 8), (0, 40), (7, 64)]))) none

/-- A loaded tenant whose consist holds logical cluster 0. -/
def consistS (o : OpState) : State :=
  { tenant o with cl := [(0, { Cluster.reset with inConsist := true })], prog := { Prog.reset with loaded := true, parts := [(0, 0)] } }

theorem wit_ProgramControlCompletes :
    (∃ t, TakenArgs (consistS .loaded) (bare 0x22) 0x0022 [] t ∧ anyMarch t = false) ∧
    (∃ t, TakenArgs (consistS .running) (bare 0x23) 0x0023 [] t ∧ t.mb.pauseOf = none) ∧
    (∃ t, TakenArgs (consistS .paused) (bare 0x24) 0x0024 [] t ∧ True) ∧
    (∃ t, TakenArgs (consistS .loaded) (bare 0x25) 0x0025 [] t ∧ t.op = .loaded) ∧
    (∃ t, TakenArgs (consistS .running) (bare 0x25) 0x0025 [] t ∧ t.op ≠ .loaded) ∧
    (∀ n, n ∈ [1, 6] → (∃ t, Taken (consistS .loaded) (patchMsg n) 0x0021 t ∧
        ∀ i, i < n → patchBad t ((List.range n).map (patchAt (patchMsg n))) i (patchAt (patchMsg n) i) = none) ∧
      mb (patchMsg n) 0 8 = n ∧
      strayBit (patchMsg n) ((0, 8) :: (List.range n).flatMap (fun i => [(64 + 128 * i, 9), (64 + 128 * i + 16, 8), (64 + 128 * i + 64, 64)])) = none) := by
  refine ⟨takenArgs_of (by decide +kernel) (by decide +kernel), takenArgs_of (by decide +kernel) (by decide +kernel),
   takenArgs_of (by decide +kernel) (by decide +kernel), takenArgs_of (by decide +kernel) (by decide +kernel),
   takenArgs_of (by decide +kernel) (by decide +kernel), fun n h => ?_⟩
  simp only [List.mem_cons, List.not_mem_nil, or_false] at h
  obtain rfl | rfl := h <;> exact ⟨taken_of (by decide +kernel), by decide +kernel, by decide +kernel⟩

/-- A running consist of cluster 0 whose cluster is c. -/
def runC (c : Cluster) : State := { consistS .running with cl := [(0, { c with inConsist := true })] }

theorem wit_PauseAndEndOfConsist :
    (let s := runC { Cluster.reset with pausing := true, opx := { Opx.reset with hold := 3 } }
     s.op = .running ∧ (cluster s 0).inConsist = true ∧ (cluster s 0).pausing = true ∧ (cluster s 0).opx.hold = 3 ∧ (cluster s 0).opx.conv = [] ∧
      (cluster s 0).opx.convWait = []) ∧
    (let s := runC { Cluster.reset with pausing := true, seq := { Seq.reset with stop := some .slip }, opx := { Opx.reset with hold := 3 } }
     (cluster s 0).seq.stop.isSome = true ∧ (cluster s 0).pausing = true ∧ (cluster s 0).opx.hold = 3) ∧
    (let s := runC { Cluster.reset with seq := { Seq.reset with wait := .done } }
     s.op = .running ∧ s.prog.loaded = true ∧
      ∀ lc, lc ∈ consistLcs s → (cluster s lc).seq.wait = .done ∧ quiet (cluster s lc) = true ∧ (cluster s lc).seq.stop = none) := by
  decide +kernel

/-- Idle with the link up. -/
def hosted : State := { idle with link := { idle.link with up := true } }

/-- Idle with the mailbox off. -/
def mbOff : State := { hosted with mb := { idle.mb with en := false } }

/-- Idle with ring 4 as g. -/
def ring4 (g : Ring) : State := { hosted with mb := { hosted.mb with rings := [(4, g)] }, clk := { hosted.clk with aon := 1000 } }

theorem wit_MailboxPageCommandsComplete :
    apertureUp mbOff = true ∧ mbOff.mb.en = false ∧ apertureUp hosted = true ∧ hosted.mb.en = true ∧ sleepTarget hosted = none ∧
    ((256 : BitVec 9).toNat + 512 - (ringOf hosted 3).cons) % 512 ≤ 256 ∧ 256 < ((257 : BitVec 9).toNat + 512 - (ringOf hosted 3).cons) % 512 ∧
    (let s := ring4 { Ring.reset with prod := 3 }
     apertureUp s = true ∧ ((ringOf s 4).prod + 512 - (2 : BitVec 9).toNat) % 512 ≤ 256 ∧ 256 < ((ringOf s 4).prod + 512 - (4 : BitVec 9).toNat) % 512) ∧
    (let s := ring4 { Ring.reset with prod := 3, irqEn := true, irqAt := some 800 }
     apertureUp s = true ∧ (ringOf s 4).irqEn = true ∧ (ringOf s 4).prod ≠ (ringOf s 4).sigd ∧ (ringOf s 4).irqAt = some 800 ∧ 800 + 200 ≤ s.clk.aon) ∧
    (let s := ring4 { Ring.reset with prod := 3, irqEn := true, irqAt := some 801 }
     (ringOf s 4).irqAt = some 801 ∧ s.clk.aon < 801 + 200) ∧ (hwinOf hosted 15).en = false := by decide +kernel

theorem wit_RegisterWriteFollowsAccessCode :
    apertureUp mbOff = true ∧ mbOff.mb.en = false ∧ hubRuns hosted = true ∧ hosted.boot.phase = .up ∧ hosted.op ≠ .running ∧ hosted.op ≠ .paused ∧
    (bits (0x3BC4 : Word64) 0 3 ≤ 4 ∧ bits (0x3BC4 : Word64) 4 10 ≤ 0x3BC) ∧ (0x103F8 % 8 = 0 ∧ 0xF20010 % 8 = 0 ∧ 0xF30008 % 8 = 0) := by decide +kernel

/-- Idle with host window 15 of 2^24 pages over the interleaved view. -/
def hwinS : State := { hosted with mb := { hosted.mb with hwin := [(15, ⟨0, 2 ^ 24, true, true, true, false⟩)] } }

theorem wit_ApertureAndWindowAccessesComplete :
    apertureUp hosted = true ∧ sleepTarget hosted = none ∧ hubRuns hosted = true ∧ classReadable hosted (hubClass 0) = true ∧
    classReadable hosted (hubClass 0xFFFFFFF8) = true ∧ admits hosted 8 (bridgeCell (regPlace 0) 4) = true ∧
    (apertureUp hwinS = true ∧ sleepTarget hwinS = none ∧ hubRuns hwinS = true ∧ (hwinOf hwinS 15).en = true ∧
      64 ≤ (hwinOf hwinS 15).size * 4096 ∧ unmappedAt hwinS ((hwinOf hwinS 15).base * 4096 + 0) = false ∧
      heldRange hwinS ((hwinOf hwinS 15).base * 4096 + 0) 64 = false ∧
      (∀ b, b ∈ [true, false] → admits hwinS 8 (devCells 4 ((hwinOf hwinS 15).base * 4096 + 0) b) = true) ∧ (hwinOf hwinS 15).rd = true ∧
      (hwinOf hwinS 15).wr = true ∧ (zeros 64).length = 64) ∧
    arithRuns hosted = true ∧ 0xFFFFC0 + 64 ≤ 0x1000000 ∧ heldRange hosted (0x700000000000 + 255 * 0x1000000 + 0xFFFFC0) 64 = false ∧
    (∀ a, a ∈ [0, 8] → admits hosted a [(3, 255)] = true ∧
      admits (setTtCell hosted 3 255 a { ttCell hosted 3 255 a with credit := 0 }) a [(3, 255)] = false) := by decide +kernel

/-- Idle with the scratchpad bank of the last word of cluster 255 available. -/
def spadS : State := { idle with cl := [(255, { Cluster.reset with mem := ClMem.powered })] }

theorem wit_ScratchpadWindowWriteReadsBack : spadS.inv ∧ (lcEntry spadS 255).mapped = true ∧ 1 ≤ (zeros 64).length ∧ 0x3FFFC0 % 64 + (zeros 64).length ≤ 64 ∧
    0x3FFFC0 + (zeros 64).length ≤ 0x400000 ∧ tablet (cluster spadS 255).mem 0 (bankOf 0 0x3FFFC0) = 0 := by
  unfold State.inv; decide +kernel

theorem wit_SmbusAndTap : idle.boot.phase ≠ .off ∧ alertLevel idle = false ∧
    alertLevel { idle with smb := { idle.smb with alert := 4, mask := 8 } } = true ∧
    ((0 : BitVec 16).toNat = 0 ∧ (400 : BitVec 16).toNat ≤ profileLimit idle.boot.cool ∧ (399 : BitVec 16).toNat < 400 ∧
      profileLimit idle.boot.cool < (1601 : BitVec 16).toNat) ∧
    tapListed 0x40 = false ∧ idle.op = .idle ∧ idle.sec = .sopen ∧ (idleSec .assigned).sec ≠ .sopen ∧ tapFull idle = true ∧
    (consistS .running).op = .running ∧ ({ consistS .running with dbg := 2 } : State).dbg = 2 ∧
    (let s := { idle with dbg := 3 }
     tapFull s = true ∧ s.dbg = 3 ∧ bits (BitVec.ofNat 128 0x7F0000000008) 0 48 = 0x7F0000000000 + 8 ∧ bits (BitVec.ofNat 128 0x7F0000000008) 48 1 = 0 ∧
      bits (BitVec.ofNat 128 0x7F0000000008) 49 7 = 0 ∧ dbgReaches s (hubClass 8) = true ∧ classReadable s (hubClass 8) = true) ∧
    dbgReaches { idle with dbg := 1 } (hubClass 0x10000) = true ∧ dbgReaches { idle with dbg := 1 } (hubClass 0x800008) = false := by decide +kernel

/-- A tenant at a debug level, with the first DRAM granule poisoned or not. -/
def dbgS (k : Nat) (p : Bool) : State :=
  { tenant .idle with dbg := k, dram := { State.reset.dram with poison := if p then [granKey 0 0] else [] } }

theorem wit_DbgAccess : bits (BitVec.ofNat 128 1) 0 48 % 8 ≠ 0 ∧ bits (BitVec.ofNat 128 (2 ^ 55)) 49 7 ≠ 0 ∧
    (let dr := BitVec.ofNat 128 (2 ^ 48)
     bits dr 0 48 = 0 ∧ bits dr 49 7 = 0 ∧ bitAt dr 48 = true ∧ (dbgS 1 false).dbg < 2 ∧
     (let v := { (dbgS 2 false) with tap := { (dbgS 2 false).tap with ir := 0x11, dr := 0, drive := false } }
      admits v 8 (devCells 4 0 false) = true ∧ heldRange v 0 8 = false ∧
      admits (setTtCell v 0 0 8 { ttCell v 0 0 8 with credit := 0 }) 8 (devCells 4 0 false) = false) ∧
     boundOk { idle with dbg := 2 } 0 7 false = false ∧
     ∀ p, p ∈ [true, false] → tapFull (dbgS 2 p) = true ∧ 2 ≤ (dbgS 2 p).dbg ∧ boundOk (dbgS 2 p) 0 7 false = true ∧
       (devRead (chargeDev (dbgS 2 p) 4 8 0 8 false) 0 8).1.poison = p) := by decide +kernel

/-! Power, start-up, sleep and wake -/

/-- Some straps, and a start-up stage that found nothing. -/
def straps0 : Straps := ⟨63, 7, 15⟩
def stageOk : StageResult := ⟨[], false, false, 0, [], [], false, false, false, false, 1⟩

/-- Starting with stage st running. -/
def startS (st : Nat) (ov : Bool) : State :=
  { State.reset with boot := { State.reset.boot with phase := .starting, running := [st], done := List.range st, overrun := ov } }

/-- Held with MOD_RESET# low, or with the input low. -/
def heldS (pin input : Bool) : State := { State.reset with boot := { State.reset.boot with phase := .held, pinLow := pin, inputLow := input } }

theorem wit_PowerInputAndResetComplete : State.reset.boot.phase = .off ∧ State.reset.boot.pinLow = false ∧
    ({ State.reset.boot with pinLow := true }).phase = .off ∧ idle.boot.phase ≠ .off ∧ idle.boot.pinLow = false ∧ idle.boot.inputLow = false ∧
    ((heldS true false).boot.phase = .held ∧ (heldS true false).boot.pinLow = true ∧ (heldS true false).boot.inputLow = false) ∧
    ((heldS false true).boot.phase = .held ∧ (heldS false true).boot.inputLow = true ∧ (heldS false true).boot.pinLow = false) := by decide +kernel

/-- Up with the link and port 7 to be retried. -/
def retryS : State := { idle with boot := { idle.boot with retry := [7, 8] } }

theorem wit_StartUpStagesComplete :
    ((startS 0 false).boot.phase = .starting ∧ setHas (startS 0 false).boot.running 0 = true ∧ (startS 0 false).boot.running = [0] ∧
      (startS 0 false).boot.done = [] ∧ setHas (startS 0 false).boot.running 1 = false) ∧
    ((startS 1 false).boot.running = [1] ∧ (startS 1 false).boot.done = [0] ∧ (startS 1 false).boot.coolUnknown = false) ∧
    (setHas (startS 7 false).boot.running 7 = true ∧ unitsFit 7 [0, 7] = true ∧ unitsFit 7 [8] = false ∧ unitsFit 4 [8] = true ∧ unitsFit 8 [9] = true ∧
      (startS 7 false).boot.overrun = false ∧ (startS 7 true).boot.overrun = true ∧ (startS 7 true).boot.phase = .starting) ∧
    setHas retryS.boot.retry 8 = true ∧ setHas retryS.boot.retry 7 = true ∧ powered retryS = true := by decide +kernel

theorem wit_StageNine : (startS 9 false).boot.phase = .starting ∧ setHas (startS 9 false).boot.running 9 = true ∧ (startS 9 false).boot.kind ≠ 2 ∧
    (startS 9 false).flash.scrubMark = false := ⟨by decide +kernel, by decide +kernel, by decide +kernel, rfl⟩

/-- Idle while an entry into SL k is under way. -/
def entry (k : Nat) (p : Bool) : State := { idle with slp := { idle.slp with entering := some (k, 0), ponr := p } }

/-- An entry into SL3 of a tenancy without checkpoint key. -/
def entryNo : State := { (entry 3 false) with sec := .assigned }

/-- ENTER_SLEEP of SL k, RETAIN r. -/
def sleepMsg (k r : Nat) : Msg := mkMsg 0x31 1 (packFields [(k, 2), (r, 2)]) none

theorem wit_SleepEntryCompletes :
    (∃ t, TakenArgs idle (sleepMsg 2 1) 0x0031 [(0, 4)] t ∧ (mb (sleepMsg 2 1) 0 2 = 2 ∧ mb (sleepMsg 2 1) 2 2 = 1 ∧
      ¬(mb (sleepMsg 2 1) 0 2 = 3 ∧ (t.op = .paused ∨ t.dbg = 3)) ∧ refuser t 2 1 = none)) ∧
    (∃ t, TakenArgs idle (sleepMsg 3 0) 0x0031 [(0, 4)] t ∧ (mb (sleepMsg 3 0) 0 2 = 3 ∧ mb (sleepMsg 3 0) 2 2 = 0 ∧
      ¬(mb (sleepMsg 3 0) 0 2 = 3 ∧ (t.op = .paused ∨ t.dbg = 3)) ∧ refuser t 3 0 = none)) ∧
    ((entry 1 false).slp.entering = some (1, 0) ∧ (entry 1 false).slp.ponr = false ∧ refuser (entry 1 false) 1 0 = none ∧ autoDue (entry 1 false) = false) ∧
    (entryNo.slp.entering = some (3, 0) ∧ entryNo.slp.ponr = false ∧ refuser entryNo 3 0 = some (6, 0)) ∧
    ((entry 1 true).slp.entering = some (1, 0) ∧ (entry 2 true).slp.entering = some (2, 0) ∧ (entry 3 true).slp.entering = some (3, 0) ∧
      (entry 3 true).slp.ponr = true) :=
  ⟨takenArgs_of (by decide +kernel) (by decide +kernel), takenArgs_of (by decide +kernel) (by decide +kernel), by decide +kernel, by decide +kernel,
   by decide +kernel⟩

/-- Asleep in state o, waking or not, with all wake sources on. -/
def asleepS (o : OpState) (w : Bool) : State := { awake o with slp := { State.reset.slp with waking := w, cfg := 0x7FFFFF } }

theorem wit_WakeCompletes :
    (∀ pin, pin ∈ [0, 1] → (asleepS .sl1 false).slp.entering = none ∧ asleep (asleepS .sl1 false) = true ∧ (asleepS .sl1 false).slp.waking = false ∧
      pinWakes (asleepS .sl1 false) pin true = true) ∧
    (∀ o, o ∈ [OpState.sl1, OpState.sl2] → (asleepS o false).op = o ∧ (asleepS o false).slp.waking = false ∧ wakeCfg (asleepS o false) 6 = true ∧
      wakeCfg (asleepS o false) (7 + 7) = true ∧ (asleepS o true).slp.waking = true ∧ (asleepS o true).op = o) ∧
    (∀ e, e ∈ [50, 51] → ∀ c, c ∈ [0x7FFFFF, 0] → let s : State := { (asleepS .sl1 false) with clk := { idle.clk with aon := 100 }, slp := { (asleepS .sl1 false).slp with edge1 := some e, pins := 0, cfg := c } }
      pinEdge s 1 = some e ∧ decide (s.clk.aon < e + 50) = decide (e = 51) ∧ s.slp.entering = none ∧ asleep s = true ∧
      pinWakes s 1 (!(tbit s.slp.pins 1)) = decide (c ≠ 0) ∧ tbit s.slp.pins 1 ≠ true) ∧
    ((asleepS .sl3 false).op = .sl3 ∧ (asleepS .sl3 false).slp.waking = false ∧ wakeCfg (asleepS .sl3 false) (15 + 7) = true ∧
      (asleepS .sl3 false).slp.entering = none) ∧
    ((asleepS .sl3 true).slp.waking = true ∧ (asleepS .sl3 true).op = .sl3 ∧ idle.slp.entering = none ∧ idle.op ≠ .sl3) := by decide +kernel

/-! Sequencer commands -/

/-- A running cluster whose sequencer stands at command word(s) l, among n. -/
def seqC (l : List Nat) : Cluster :=
  { Cluster.reset with
    mem := { ClMem.powered with seqm := memWrite [] 0 (l.flatMap (leBytes 32)) }
    seq := { Seq.reset with wait := .run, hdr := { ClHeader.reset with cmdN := l.length, datumBase := 0x1000 } } }

/-- A module with it. -/
def seqS0 (l : List Nat) : State := runC (seqC l)

theorem wit_ScalarCommandsComplete :
    seqHead (seqS0 [packFields [(oCSET, 8), (0, 56), (15, 4), (0, 60), (7, 48)]]) 0 oCSET = some (packFields [(oCSET, 8), (0, 56), (15, 4), (0, 60), (7, 48)]) ∧
    seqHead (seqS0 [packFields [(oCADD, 8), (0, 56), (15, 4), (0, 60), (7, 48)]]) 0 oCADD = some (packFields [(oCADD, 8), (0, 56), (15, 4), (0, 60), (7, 48)]) ∧
    (let s := { (seqS0 [packFields [(oCLOOP, 8), (0, 56), (3, 4)]]) with op := OpState.running }
     seqHead s 0 oCLOOP = some (packFields [(oCLOOP, 8), (0, 56), (3, 4)]) ∧ predHolds (cluster s 0) (packFields [(oCLOOP, 8), (0, 56), (3, 4)]) = true ∧
      (spGet 0 (cluster s 0).seq.cnt (natBits (packFields [(oCLOOP, 8), (0, 56), (3, 4)]) 64 4) + (2 ^ 48 - 1)) % 2 ^ 48 ≠ 0) ∧
    (let s := runC { (seqC [packFields [(oCLOOP, 8), (0, 56), (3, 4)]]) with seq := { (seqC [packFields [(oCLOOP, 8), (0, 56), (3, 4)]]).seq with cnt := [(3, 1)] } }
     seqHead s 0 oCLOOP = some (packFields [(oCLOOP, 8), (0, 56), (3, 4)]) ∧
      (spGet 0 (cluster s 0).seq.cnt (natBits (packFields [(oCLOOP, 8), (0, 56), (3, 4)]) 64 4) + (2 ^ 48 - 1)) % 2 ^ 48 = 0) ∧
    seqHead (seqS0 [packFields [(oPMOV, 8), (0, 56), (239, 8), (0, 56), (7, 64)]]) 0 oPMOV = some (packFields [(oPMOV, 8), (0, 56), (239, 8), (0, 56), (7, 64)]) ∧
    seqHead (seqS0 [packFields [(oPADD, 8), (0, 56), (240, 8), (0, 56), (7, 64)]]) 0 oPADD = some (packFields [(oPADD, 8), (0, 56), (240, 8), (0, 56), (7, 64)]) := by
  decide +kernel

theorem wit_LoopPredicate : (let r := packFields [(oCLOOP, 8), (0, 4), (1, 2), (0, 50), (3, 4)]
    seqHead (seqS0 [r]) 0 oCLOOP = some r ∧ predHolds (cluster (seqS0 [r]) 0) r = false) := by decide +kernel

theorem wit_CompareWritesOneComparator :
    seqHead (seqS0 [packFields [(oCMP, 8), (0, 56), (7, 3), (0, 1), (3, 2)]]) 0 oCMP = some (packFields [(oCMP, 8), (0, 56), (7, 3), (0, 1), (3, 2)]) ∧
    predHolds (cluster (seqS0 [packFields [(oCMP, 8), (0, 56), (7, 3), (0, 1), (3, 2)]]) 0) (packFields [(oCMP, 8), (0, 56), (7, 3), (0, 1), (3, 2)]) = true := by
  decide +kernel

/-- DATUM without STEP. -/
def datumRaw : Nat := oDATUM

theorem wit_DatumCompletes :
    (let s := seqS0 [datumRaw]
     seqHead s 0 oDATUM = some datumRaw ∧ predHolds (cluster s 0) datumRaw = true ∧ quiet (cluster s 0) = true ∧ datumStep datumRaw = false ∧
      refused (cluster s 0) = false ∧ (cluster s 0).log.through = false ∧ (cluster s 0).log.poisonN = 0 ∧ checkFailed (cluster s 0) = false ∧
      (let a := (cluster s 0).seq.hdr.datumBase + 4096 * b2n (cluster s 0).seq.slot
       heldRange s a 4096 = false ∧ admits s 2 (devCells (secOf 0) a true) = true)) ∧
    (let s := seqS0 [datumRaw + 2 ^ 64]
     setHas s.train.stopOwed 0 = false) ∧
    (let r := packFields [(oDATUM, 8), (0, 4), (1, 2)]
     seqHead (seqS0 [r]) 0 oDATUM = some r ∧ predHolds (cluster (seqS0 [r]) 0) r = false) ∧
    (let s := runC { (seqC [datumRaw]) with seq := { (seqC [datumRaw]).seq with wait := .record } }
     (cluster s 0).seq.wait = .record ∧ (cluster s 0).seq.stop = none ∧ s.op = .running ∧ (cluster s 0).mem.arm = false ∧ (cluster s 0).log.moveDue = false) := by
  decide +kernel

/-- A cluster with counters, flags and comparators set. -/
def savedC : Cluster := { Cluster.reset with seq := { Seq.reset with cnt := [(0, 1), (15, 2 ^ 48 - 1)], lf := [(0, 1), (63, 65535)], cmp := 255 } }

theorem wit_RecordRestoresWhatDatumSaved : (let c := cluster (runC savedC) 0
    spWf 0 c.seq.cnt = true ∧ (∀ e, e ∈ c.seq.cnt → e.1 < 16 ∧ e.2 < 2 ^ 48) ∧ spWf 0 c.seq.lf = true ∧
    (∀ e, e ∈ c.seq.lf → e.1 < 64 ∧ e.2 ≤ 65535) ∧ c.seq.cmp < 256 ∧ c.log.syncN < 2 ^ 32) := by decide +kernel

theorem wit_RecordedHandles :
    (∀ k, k < 8 → let h := handleOf (runC { savedC with handles := [(3, ⟨8191, 3, true, false, 2 ^ 32 - 1, 0⟩)] }) 0 k
      h.tensor < 2 ^ 13 ∧ h.slot < 4 ∧ h.ver < 2 ^ 32) := by decide +kernel

theorem prm_small (k : Nat) : prmGet (runC savedC) 0 k < 2 ^ 64 := by
  have h : spGet 0 (cluster (runC savedC) 0).seq.prm k = 0 := by
    rw [show (cluster (runC savedC) 0).seq.prm = [] by decide +kernel]; rfl
  unfold prmGet
  dsimp only
  rw [h]
  split_ifs
  · omega
  · decide +kernel
  · decide +kernel
  · decide
  · decide

theorem wit_SyncCompletes :
    (let s := seqS0 [oSYNC]
     seqHead s 0 oSYNC = some oSYNC ∧ predHolds (cluster s 0) oSYNC = true ∧ quiet (cluster s 0) = true ∧ s.prog.syncDone ≤ (cluster s 0).log.syncN ∧
      ∀ r, r ∈ s.prog.sync → r.ordinal ≠ (cluster s 0).log.syncN) ∧
    (let s := { runC Cluster.reset with prog := { (runC Cluster.reset).prog with sync := [⟨5, 0, [0], false⟩], syncDone := 5 } }
     s.op = .running ∧ s.prog.syncDone ≤ 5 ∧ s.prog.sync.find? (fun r => r.ordinal == 5) = some ⟨5, 0, [0], false⟩ ∧
      (∀ lc, lc ∈ syncMembers s → setHas [0] lc = true) ∧ 0 + 50 * syncLimitMin s ≤ s.clk.aon) ∧
    (let s := { runC { Cluster.reset with seq := { Seq.reset with hdr := { ClHeader.reset with syncLimit := 1 } } } with
        prog := { (runC Cluster.reset).prog with sync := [⟨5, 0, [0], true⟩, ⟨6, 0, [0], false⟩] } }
     s.prog.sync.find? (fun r => r.ordinal == 5) = some ⟨5, 0, [0], true⟩ ∧ s.prog.sync.find? (fun r => r.ordinal == 6) = some ⟨6, 0, [0], false⟩ ∧
      s.clk.aon < 0 + 50 * syncLimitMin s) := by decide +kernel

/-- A cluster stopped for a cause. -/
def stopC (x : StopCause) (n : Nat) : State := runC { Cluster.reset with seq := { Seq.reset with stop := some x }, log := { SeqLog.reset with slips := n } }

/-! Flags, versions, replays, memories, recovery, power, check values, store -/

/-- A queued command of frame 0, due at once. -/
def ent (raw : Nat) : QEntry := ⟨3, raw, [], true, [], 0, 0, 1, 5⟩

/-- The same with a predicate that did not hold. -/
def entOff (raw : Nat) : QEntry := { ent raw with live := false }

/-- A running cluster with queue q holding e, its frame open at anchor 0. -/
def queC (q : Nat) (e : QEntry) : Cluster :=
  setQueue { Cluster.reset with seq := { Seq.reset with wait := .run, st0 := ⟨0, 0, [(0, 1)]⟩ }, mem := ClMem.powered } q [e]

/-- A module with it. -/
def queS (q : Nat) (e : QEntry) : State := runC (queC q e)

/-- A flag command of opcode o on a flag (local or section), with an increment and a threshold. -/
def flagRaw (o f sect inc th : Nat) : Nat := packFields [(o, 8), (0, 56), (f, 10), (sect, 1), (0, 5), (inc, 8), (0, 8), (th, 16)]

/-- A module with e in its OPX queue behind a drain that still shifts, or e issued and waiting for what is before it. -/
def behindS (e : QEntry) : State := runC { (queC 0 e) with opx := { Opx.reset with conv := [⟨.drain, false, 0, 128, 3, 2⟩] } }

/-- A module with flag command e issued from the OPX queue. -/
def issuedS (e : QEntry) : State := runC { (queC 1 (ent 0)) with seq := { Seq.reset with wait := .run }, opx := { Opx.reset with flagWait := [e] } }

theorem wit_FlagCommandsComplete :
    (∀ o, o ∈ [oFSET, oFCLR] →
      (let e := entOff (flagRaw o 63 0 255 0)
       pickOp (queS 1 e) 0 1 0 o = some e ∧ e.live = false) ∧
      (∀ q, q ∈ [0, 1, 6] → let e := ent (flagRaw o 63 0 255 0)
       pickOp (queS q e) 0 q 0 o = some e ∧ e.live = true ∧ queueDone (cluster (queS q e) 0) q e = true ∧ flagReady (queS q e) 0 o = none) ∧
      (let e := ent (flagRaw o 63 0 255 0)
       pickOp (behindS e) 0 0 0 o = some e ∧ queueDone (cluster (behindS e) 0) 0 e = false ∧ flagReady (behindS e) 0 o = none) ∧
      (let e := ent (flagRaw o 63 0 255 0); let s := runC { (queC 3 e) with t0 := { TrvEngine.reset with flight := [⟨{ e with ord := 2 }, 0, 0, true, 0, false, [], [], .reset, .asked, .asked⟩] } }
       pickOp s 0 3 0 o = some e ∧ queueDone (cluster s 0) 3 e = false) ∧
      (let e := ent (flagRaw o 63 0 255 0)
       flagReady (issuedS e) 0 o = some e)) ∧
    (let e := ent (flagRaw oFSET 1023 1 255 0)
     flSect e.raw = true ∧ spGet 0 (cluster (queS 1 e) 0).log.sfRec e.idx < e.occ ∧
     e.occ ≤ spGet 0 (cluster (runC { (queC 1 e) with log := { SeqLog.reset with sfRec := [(3, 1)] } }) 0).log.sfRec e.idx ∧
     flSect (flagRaw oFCLR 0 0 0 0) = false) ∧
    (∀ q, q ∈ [0, 1] → ∀ b, b ∈ [0, 1] → let e := { ent (flagRaw oFWAIT 5 0 0 b + 2 ^ 32 * 10) with frame := 0 }; let s := queS q e
     ∀ cyc, cyc ∈ [8, 10] → (q = 0 ∨ cyc = 10) →
      pick s 0 q cyc (fun e => cOp e.raw == oFWAIT && !(setHas (cluster s 0).log.waiting (headCode q e)) &&
       ((q == 0 && cStream e.raw == 0) || readyAt (cluster s 0) e cyc) && (dueOf (cluster s 0) e).isSome) = some e ∧
       dueOf (cluster s 0) e = some 10 ∧ e.live = true ∧ (q = 0 → cStream e.raw = 0 ∧ (isLate e cyc 10 = decide (cyc = 10))) ∧
       (b = 0 → flThresh e.raw ≤ flagCount s 0 e.raw) ∧ (b = 1 → flagCount s 0 e.raw < flThresh e.raw)) ∧
    (let e := entOff (flagRaw oFWAIT 5 0 0 0); let s := queS 1 e
     pick s 0 1 0 (fun e => cOp e.raw == oFWAIT && !(setHas (cluster s 0).log.waiting (headCode 1 e)) &&
       ((1 == 0 && cStream e.raw == 0) || readyAt (cluster s 0) e 0) && (dueOf (cluster s 0) e).isSome) = some e ∧ dueOf (cluster s 0) e = some 0) ∧
    (let e := ent (flagRaw oFWAIT 5 0 0 0); let s := runC { (queC 1 e) with log := { SeqLog.reset with waiting := [1], grant := [1] } }
     (headCodes 1).find? (fun w => setHas (cluster s 0).log.grant w && setHas (cluster s 0).log.waiting w) = some 1 ∧ headAt (cluster s 0) 1 = some e ∧
      issuingAt s 0 0 = true) := by decide +kernel

/-- A wait on flag 5 that meets its set of cycle 7. -/
def setS (sect : Nat) : State :=
  let e := ent (flagRaw oFWAIT 5 sect 0 1)
  { runC { (queC 1 e) with seq := { (queC 1 e).seq with lf := [(5, 1)], lfNow := [⟨5, 0, 7, 1, []⟩] } } with
    sect := [(0, { Section.reset with sf := [(5, 1)], sfNow := [⟨5, 0, 7, 1, []⟩] })] }

theorem wit_FlagsLateOrNow :
    (∀ o, o ∈ [oFSET, oFCLR] → let e := ent (flagRaw o 63 0 255 0 + 2 ^ 32 * 10)
     (missedDue (cluster (queS 0 e) 0) 0 11 e = some 10 ∧ pickOp (queS 0 e) 0 0 11 o = some e ∧ flagReady (queS 0 e) 0 o = none ∧
      missedDue (cluster (queS 0 e) 0) 0 10 e = none)) ∧
    (∀ x, x ∈ [0, 1] → let e := ent (flagRaw oFWAIT 5 x 0 1)
     (setsNow (setS x) 0 7 e.raw).isSome = true ∧ setsNow (setS x) 0 8 e.raw = none ∧ flThresh e.raw ≤ flagCount (setS x) 0 e.raw) ∧
    (∀ g, g ∈ [[], [(1, 3, 9)]] → let e := ent (flagRaw oFWAIT 5 0 0 0)
     let s := runC { (queC 1 e) with log := { SeqLog.reset with waiting := [1], grant := [1], grantAt := g } }
     headAt (cluster s 0) 1 = some e ∧ issuingAt s 0 (if spGet (0, 0) (cluster s 0).log.grantAt 1 = (0, 0) then 5 else max 3 (min 9 5)) = true) := by
  decide +kernel

/-- LOSS.POST whose slot 0 has mode 3. -/
def lossRaw : Nat := packFields [(oLOSS, 8), (0, 56), (0, 44), (3, 4)]

theorem wit_VersionReadyAndLossComplete :
    (∀ q, q ∈ [0, 1] → let e := ent (packFields [(oHOLD, 8), (0, 56), (9, 16), (7, 3)]); let s := queS q e
     pickOp s 0 q 0 oHOLD = some e ∧ e.live = true ∧ missedDue (cluster s 0) q 0 e = none ∧ (handleOf s 0 (holdHandle e.raw)).held = false ∧
      spGet 0 (cluster s 0).log.holdRec e.idx < e.occ ∧
      e.occ ≤ spGet 0 (cluster (runC { (queC q e) with log := { SeqLog.reset with holdRec := [(3, 1)] } }) 0).log.holdRec e.idx) ∧
    (let e := ent (packFields [(oDROP, 8), (0, 72), (7, 3)]); let s := runC { (queC 1 e) with handles := [(7, { Handle.empty with held := true })] }
     pickOp s 0 1 0 oDROP = some e ∧ e.live = true ∧ missedDue (cluster s 0) 1 0 e = none ∧ (handleOf s 0 (holdHandle e.raw)).held = true) ∧
    (∀ q, q ∈ [0, 1] → let e := ent (packFields [(oREADY, 8), (0, 56), (9, 16), (3, 2)]); let s := queS q e
     pickOp s 0 q 0 oREADY = some e ∧ missedDue (cluster s 0) q 0 e = none ∧ queueDone (cluster s 0) q e = true ∧ flagReady s 0 oREADY = none ∧ e.live = true) ∧
    (let e := ent lossRaw; let s := queS 1 e
     pickOp s 0 1 0 oLOSS = some e ∧ e.live = true ∧ missedDue (cluster s 0) 1 0 e = none ∧ (sref e.raw 0).mode = 3 ∧
      (readLoss (cluster s 0).mem e).bad = none ∧ spGet 0 (cluster s 0).log.lossRec e.idx < e.occ ∧
      e.occ ≤ spGet 0 (cluster (runC { (queC 1 e) with log := { SeqLog.reset with lossRec := [(3, 1)] } }) 0).log.lossRec e.idx) := by decide +kernel

theorem wit_ReplayAndDeadlockComplete :
    (∀ x, x ∈ [StopCause.slip, .checksum, .poison, .ctrlParity, .resumeFail, .monitor, .seqMemory] → (stopC x 2).op = .running ∧
      (cluster (stopC x 2) 0).inConsist = true ∧ (cluster (stopC x 2) 0).pausedOk = false ∧
      (let u := endFlights (stopC x 2) 0
       (cluster u 0).seq.stop = some x ∧ (cluster u 0).log.slips < 3 ∧
      (∀ k, k ∈ [1, 2, 3, 4] → repeats (cluster u 0) k ≤ 1) ∧ (sectionOf u (secOf 0)).tripped = false ∧
      (cluster u 0).log.conservative = false)) ∧
    3 ≤ (cluster (endFlights (stopC .slip 3) 0) 0).log.slips ∧
    (∀ n, n ∈ [2, 3] → let u := endFlights (runC { Cluster.reset with seq := { Seq.reset with stop := some .seqMemory }, log := { SeqLog.reset with reports := List.replicate n (4, 0) } }) 0
     (cluster u 0).seq.stop = some .seqMemory ∧ repeats (cluster u 0) 4 = n) ∧
    (let s := runC { Cluster.reset with seq := { Seq.reset with stop := some .slip }, log := { SeqLog.reset with slips := 2, conservative := true } }
     (cluster (endFlights s 0) 0).log.conservative = true ∧ 2 ≤ (cluster (endFlights s 0) 0).log.slips) ∧
    (let s := runC { Cluster.reset with seq := { Seq.reset with stop := some .poison }, log := { SeqLog.reset with reports := [(2, 1), (2, 2)] } }
     2 ≤ repeats (cluster (endFlights s 0) 0) 2) ∧ (cluster (runC Cluster.reset) 0).seq.stop = none ∧
    (let e := ent (flagRaw oFWAIT 5 0 0 1)
     let s := runC { (queC 1 e) with log := { SeqLog.reset with waiting := [1] } }
     s.op = .running ∧ (groupLcs s 0 0).flatMap (waitsOf s) ≠ [] ∧ setHas (sectionOf s 0).haltedGroups 0 = false ∧
      (∀ lc, lc ∈ groupLcs s 0 0 → clusterStuck (cluster s lc) = true) ∧
      ∀ w, w ∈ (groupLcs s 0 0).flatMap (waitsOf s) → outsideSetter s 0 0 w.2.2 = false) := by decide +kernel

/-- A cluster stopped by its sequencer memory, whose part lies at DRAM address 0 as zeros with their digest. -/
def reloadS : State :=
  { stopC .seqMemory 0 with prog := { (stopC .seqMemory 0).prog with digests := [(0, sha512 (zeros 2112))] } }

theorem reload_of {s : State} {d : List Byte}
    (h : (devRead (chargeDev s (secOf 0) 7 (spGet 0 s.prog.parts 0) (partLen (cluster s 0).seq.hdr.cmdN) false) (spGet 0 s.prog.parts 0)
      (partLen (cluster s 0).seq.hdr.cmdN)).1 = ⟨d, false⟩) (h' : spGet 0 s.prog.digests 0 = sha512 d) :
    (reloadPart s 0).1.isSome = true := by
  unfold reloadPart
  dsimp only
  rw [h, h', if_pos (by simp)]
  rfl

theorem wit_MemoryReload : (reloadPart (modMem (endFlights reloadS 0) 0 (fun m => runTests m (2 ^ 64 - 1) true none)) 0).1.isSome = true :=
  reload_of (d := zeros 2112) (by decide +kernel) rfl

/-- Idle with cluster 255's memories powered and changed by f. -/
def memS (f : ClMem → ClMem) : State := { idle with cl := [(255, { Cluster.reset with mem := f ClMem.powered })] }

theorem wit_TabletAndWriteBackCommandsComplete :
    (∀ v, v ∈ [0, 1] → tabletMay (memS id) 255 0 63 v = true ∧ tablet (cluster (memS id) 255).mem 0 63 < 2) ∧
    (let s := memS (fun m => { m with tab := spPut m.tab (tabIdx 1 3) 2 })
     ∀ v, v ∈ [0, 1, 2, 3] → tabletMay s 255 1 3 v = true ∧ tablet (cluster s 255).mem 1 3 = 2) ∧
    tabletMay (memS id) 255 3 0 1 = false ∧ tabletMay (memS id) 255 2 7 3 = false ∧
    (let s := memS (fun m => { m with moving := [(tabIdx 1 3, 3)] })
     (cluster s 255).mem.moving.find? (fun e => e.1 == tabIdx 1 3) = some (tabIdx 1 3, 3)) ∧
    (let s := memS (fun m => { m with wb := [65535, 65536 + 4095, 131072 + 8191], spEcc := [(4 * 65535, 2)], sideEcc := [(4 * 4095, 2)] })
     setHas (cluster s 255).mem.wb (0 * 65536 + 65535) = true ∧ setHas (cluster s 255).mem.wb (1 * 65536 + 4095) = true ∧
      setHas (cluster s 255).mem.wb (2 * 65536 + 8191) = true ∧ wordUe (cluster s 255).mem 0 65535 = true ∧ wordUe (cluster s 255).mem 1 4095 = true) ∧
    (let s := memS (fun m => { m with wb := [65535] })
     setHas (cluster s 255).mem.wb (0 * 65536 + 65535) = true ∧ wordUe (cluster s 255).mem 0 65535 = false ∧
      setHas (cluster s 255).mem.wb (2 * 65536 + 8191) = false) ∧
    setHas ({ idle with hub := { idle.hub with wb := [65535] } } : State).hub.wb 65535 = true := by decide +kernel

theorem wit_MarchAndPatrolCommandsComplete :
    (arithRuns (memS id) = true ∧ (lcEntry (memS id) 255).mapped = true ∧ (cluster (memS id) 255).mem.posSide = 0 ∧ (cluster (memS id) 255).mem.posSeq = 0 ∧
      tablet (cluster (memS id) 255).mem 1 (0 % bankCount 1) = 0 ∧ tablet (cluster (memS id) 255).mem 2 (0 % bankCount 2) = 0 ∧
      wordUe (cluster (memS id) 255).mem 1 0 = false ∧ wordUe (cluster (memS id) 255).mem 2 0 = false) ∧
    idle.boot.phase = .up ∧ hubRuns idle = true ∧
    (let s := memS (fun m => { m with arm := true, overdue := true })
     let s : State := { s with clk := { s.clk with aon := 2880000000000 } }
     (cluster s 255).mem.arm = true ∧ (cluster s 255).mem.overdue = true ∧ (cluster s 255).mem.armedAt + 2880000000000 ≤ s.clk.aon ∧
      (lcEntry s 255).mapped = true ∧ s.boot.phase = .up ∧ hubRuns s = true ∧ s.op = .idle ∧
      ({ s with op := .running } : State).op ≠ .idle ∧ ({ s with op := .running } : State).op ≠ .loaded) ∧
    idle.clk.aon < (cluster idle 255).mem.armedAt + 2880000000000 ∧
    (let s := memS (fun m => { m with sideEcc := [(0, 2)], seqEcc := [(0, 2)] })
     wordUe (cluster s 255).mem 1 0 = true ∧ wordUe (cluster s 255).mem 2 0 = true) ∧ 0 = idle.hub.pos ∧
    ((stkOf idle 11).refresh = false ∧ (stkOf idle 11).off = false ∧ memRuns idle = true ∧ setHas idle.boot.done 6 = true ∧ ttAdmits idle 0 11 5 = true) ∧
    ttAdmits (setTtCell idle 0 11 5 { ttCell idle 0 11 5 with credit := 0 }) 0 11 5 = false := by
  decide +kernel

theorem wit_SafeStateEntryComplete : powered idle = true ∧ idle.boot.phase ≠ .safe ∧ thresholds 17 = some (70, 80, 90) ∧ (90 * 256 : Int) ≤ 23040 ∧
    (70 : Int) ≤ 90 ∧ (80 : Int) < 90 ∧ hubRuns idle = true ∧ idle.boot.phase = .up ∧
    (let s : State := { idle with mb := { idle.mb with restartAt := some 0 } }
     s.mb.restartAt = some 0 ∧ s.clk.aon < 0 + 3000000000) := by decide +kernel

theorem wit_RecoveryCommandsComplete :
    ((stopC .march 0).op = .running ∧ (cluster (stopC .march 0) 0).inConsist = true ∧ moveDueNow (cluster (stopC .march 0) 0) = true) ∧
    (let s : State := { stopC .march 0 with map := { idle.map with fenced := [64, 65, 66, 67] } }
     freeSidings s (secOf 0) = []) ∧
    (let s := runC { Cluster.reset with log := { SeqLog.reset with lost := [26000, 216] } }
     (cluster s 0).inConsist = true ∧ s.op = .running ∧ 26215 < (cluster s 0).log.lost.foldl (· + ·) 0 ∧ (cluster s 0).log.lagPosted = false) ∧
    (let s := runC { Cluster.reset with log := { SeqLog.reset with lost := [26000, 215] } }
     (cluster s 0).log.lost.foldl (· + ·) 0 ≤ 26215) ∧
    arithRuns idle = true ∧ (recentTrips idle 3).length < 2 ∧
    2 ≤ (recentTrips { idle with sect := [(3, { Section.reset with trips := [0, 0] })] } 3).length ∧
    (sectionOf { idle with sect := [(3, { Section.reset with tripped := true })] } 3).tripped = true ∧
    (let s : State := { idle with mb := { idle.mb with restartAt := some 0 }, clk := { idle.clk with aon := 3000000000 } }
     s.mb.restartAt = some 0 ∧ 0 + 3000000000 ≤ s.clk.aon) ∧ (hubRuns idle = true ∧ idle.boot.phase = .up ∧ goodFw.good = true ∧ { goodFw with good := false }.good = false) ∧
    admits (stopC .march 0) 7 (devCells (secOf 0) (spGet 0 (stopC .march 0).prog.parts 0) false) = true ∧
    (cluster (stopC .march 0) 0).seq.stop ≠ some .poison := by decide +kernel

theorem wit_PowerAndTimeCommandsComplete : powered idle = true ∧ thresholds 0 = some (95, 100, 110) ∧ (110 * 256 - 1 : Int) < 110 * 256 ∧
    hubRuns idle = true ∧ idle.boot.phase = .up ∧ spWf (0, 0) idle.time.pairs = true ∧ domRuns idle 0 = true ∧
    domRuns { idle with op := .sl2 } 0 = false ∧ 19 < ttInstances 1 ∧ ttPeriod idle 1 19 = spGet 0 idle.tt.periods (256 * 1 + 19) ∧
    (let s : State := { runC Cluster.reset with clk := { idle.clk with hub := 2 ^ 40, arith0 := 2 ^ 40 } }
     ∀ k, k ∈ [1, 3] → ttPeriod s k 0 ≠ spGet 0 s.tt.periods (256 * k)) ∧ (cluster (runC Cluster.reset) 0).inConsist = true ∧
    powered (runC Cluster.reset) = true := by decide +kernel

theorem wit_CheckUnitCommandsComplete : hubRuns idle = true ∧ natBits (6 : Word64).toNat 0 6 < 7 ∧ 7 ≤ natBits (7 : Word64).toNat 0 6 ∧
    (leBytes 8 7).length = 8 ∧ spWf CvUnit.reset idle.cv = true ∧
    (let c : CrcCfg := cfgCrc32c
     8 ≤ c.w ∧ c.w ≤ 64 ∧ c.init < 2 ^ c.w ∧ c.poly < 2 ^ c.w) ∧ natBits (7 + 2 ^ 9) 9 1 = 1 := by decide +kernel

/-- A store whose copy 7 has records in blocks 5, erased n times and written at cycle at', and 6, changed by f. -/
def storeS (n : Nat) (at' : Int) (due : Bool) (f : Store → Store) : State :=
  { idle with
    store := f { idle.store with
      n24 := false, spares := 0, patrolLeft := [], moving := [], dies := [], degraded := false, ready := true
      copies := [⟨true, 0, 7, [⟨[0], 5, false⟩, ⟨[1], 6, false⟩], true, false, false⟩]
      blocks := [(1, ⟨n + 1, 0, 0, false, false⟩), (5, ⟨n, at', 0, due, false⟩), (6, ⟨n + 1001, at', 0, false, false⟩), (9, ⟨1, 0, 0, true, false⟩)] }
    clk := { idle.clk with aon := refreshAge } }

theorem wit_StorePatrolAndMoves :
    (let s := storeS 0 0 false id
     s.store.ready = true ∧ hubRuns s = true ∧ patrolNext s.store 5 = true ∧ patrolNext s.store 4 = false ∧ admits s 5 nandCells = true) ∧
    patrolNext (storeS 0 1 false (fun x => { x with patrolLeft := [5, 6] })).store 6 = true ∧
    (let s := storeS 0 0 false id
     (blockOf s.store 5).bad = false ∧ refreshDue s 5 = true ∧ setHas (holding s.store) 5 = true ∧ lowestFree s.store 0 = true ∧
      refreshDue s 9 = true ∧ setHas (holding s.store) 9 = false ∧ (blockOf s.store 9).bad = false ∧ moveWaits s 9 = false) ∧
    (let s := storeS 0 0 false (fun x => { x with moving := [(9, [(true, 0, 7)])], copies := [⟨true, 0, 7, [⟨[0], 5, false⟩], true, false, true⟩] })
     refreshDue s 9 = true ∧ setHas (holding s.store) 9 = false ∧ moveWaits s 9 = true) ∧
    refreshDue (storeS 0 1 false id) 5 = false ∧ refreshDue (storeS 0 1 true id) 5 = true ∧
    (let s := storeS 0 0 false id
     (blockOf s.store 5).erases = (wearSpread s.store).1 ∧ (wearSpread s.store).1 + 1000 < (wearSpread s.store).2 ∧ blockFree s.store 1 = true ∧
      (blockOf s.store 5).erases < (blockOf s.store 1).erases) ∧
    (wearSpread (storeS 0 0 false (fun x => { x with copies := [] })).store).2 ≤ (wearSpread (storeS 0 0 false (fun x => { x with copies := [] })).store).1 + 1000 := by
  decide +kernel

theorem wit_StoreLosses :
    (let s := storeS 0 0 false id
     let bad := fun (st : Store) => modBlock { st with grownBad := satAdd 16 st.grownBad 1 } 5 (fun k => { k with bad := true, due := false })
     5 < inService s.store ∧ (blockOf s.store 5).bad = false ∧ setHas (holding s.store) 5 = true ∧ lowestFree (bad s.store) 0 = true ∧
      4 < inService s.store ∧ (blockOf s.store 4).bad = false ∧ setHas (holding s.store) 4 = false ∧
      5 < channelDies s.store ∧ setHas s.store.dies (15 * 16 + 5) = false ∧ s.store.degraded = false ∧ admits s 4 nandCells = true) ∧
    (let s := storeS 0 0 false (fun x => { x with degraded := true, dies := [1] })
     s.store.degraded = true ∧ s.store.dies.any (fun x => decide (x / 16 ≠ 15)) = true ∧ setHas s.store.dies (15 * 16 + 5) = false ∧
      admits s 5 nandCells = true ∧ hubRuns s = true ∧ s.store.ready = true) := by
  decide +kernel

/-- A cut that waits for its buddy. -/
def cutS : State := { idle with ckpt := { idle.ckpt with cur := some ⟨7, 0, [], [], [], 0, 0, 0, 0, true, true, [(0, 1)], [], false⟩ } }

theorem wit_BuddyAckTimeout : ∃ c, cutS.ckpt.cur = some c ∧ c.budOn = true ∧ c.out ≠ [] := ⟨_, rfl, rfl, by decide⟩

/-! Engines -/

/-- A command of opcode o with an OFFSET and the bits `r` from bit 64 on. -/
def opRaw (o off r : Nat) : Nat := packFields [(o, 8), (0, 24), (off, 32), (r, 192)]

/-- OPX.PASS of BF16 operands, K = 2, scales absent. -/
def passRaw : Nat := opRaw oPASS 10 (packFields [(16, 16), (0, 5), (BF16, 4), (0, 23), (0x120, 16), (0, 5), (BF16, 4), (0, 23), (2, 24)])

theorem wit_OpxCommandsComplete :
    (∀ b, b ∈ [true, false] → ∀ w, w ∈ [none, some 5] → let e := { ent passRaw with live := b }
     let s := runC { (queC 0 e) with opx := { Opx.reset with wave0 := w } }
     opxPick s 0 8 (fun e => cOp e.raw == oPASS && (openOf (cluster s 0).opx (cStream e.raw)).isNone)
       (fun c e i => let p := planPass c e i; (p.last, passStreams e p 0 p.k)) = some (e, 10) ∧
      (cluster s 0).opx.open0 = none ∧ (cluster s 0).opx.open1 = none ∧
      isLate e 8 10 = false ∧ passBound e (planPass (cluster s 0) e 10) = none ∧ waveBusy (cluster s 0) e (planPass (cluster s 0) e 10) = false ∧
      waveFree (cluster s 0) e (planPass (cluster s 0) e 10) = true ∧ decide ((planPass (cluster s 0) e 10).t0 ≠ 10) = w.isNone) ∧
    (∀ n, n ∈ [0, 1] → let x : OpenPass := ⟨ent passRaw, 12, n⟩
     let s := runC { (queC 1 (ent 0)) with opx := { Opx.reset with open0 := some x } }
     let p := planAt x.e x.t0
     issuing s 0 = true ∧ surveyNow s 0 = false ∧ (cluster s 0).opx.open0 = some x ∧ cStream x.e.raw = 0 ∧ x.done < p.k ∧
      (x.done ≠ 0 ∨ passChecks (cluster s 0) x.e p = none ∧ laterCollision (passStreams x.e p 0 p.k) (actFor (cluster s 0) x.e) = none) ∧
      p.k ≤ surveyStop s 0 p (bankOfB (cluster s 0).opx (passBank x.e.raw)) x.done) ∧
    (let x : OpenPass := ⟨ent passRaw, 12, 0⟩
     let s := runC { (queC 0 (ent (flagRaw oFWAIT 5 0 0 1))) with opx := { Opx.reset with open1 := some x } }
     issuing s 0 = true ∧ surveyNow s 0 = false ∧ (cluster s 0).opx.open0 = none ∧ (cluster s 0).opx.open1 = some x ∧
      (elasticPass (cluster s 0) x 12 none).isSome = true) ∧
    ConvHead (queS 0 (ent (opRaw oDRAIN 10 0))) 0 8 .drain (ent (opRaw oDRAIN 10 0)) 10 ∧
    ConvHead (queS 0 (ent (opRaw oLOAD 10 0))) 0 8 .load (ent (opRaw oLOAD 10 0)) 10 ∧
    ConvHead (queS 0 (ent (opRaw oLOAD 10 (2 ^ 97)))) 0 8 .image (ent (opRaw oLOAD 10 (2 ^ 97))) 10 ∧
    ConvHead (queS 0 (ent (opRaw oSAVE 10 0))) 0 8 .save (ent (opRaw oSAVE 10 0)) 10 ∧
    ConvHead (queS 0 (ent (opRaw oSURVEY 10 0))) 0 8 .survey (ent (opRaw oSURVEY 10 0)) 10 ∧
    (∀ b, b ∈ [true, false] → let e := { ent (opRaw oSURVEY 10 0) with live := b }
     let s := runC { (queC 0 e) with opx := { Opx.reset with convWait := [ent (opRaw oSURVEY 9 0)] } }
     opxPick s 0 8 (fun e => (cOp e.raw == oDRAIN || cOp e.raw == oLOAD || cOp e.raw == oSAVE || cOp e.raw == oSURVEY) &&
      convKindOf e.raw == .survey && (cStream e.raw == 0 || !e.live || !(convBusy (cluster s 0).opx 8)))
      (fun c e i => (i + convLen c.opx e.raw - 1, convStreams c.opx e i)) = some (e, 10) ∧
      passFirst (cluster s 0) e 10 = false ∧ isLate e 8 10 = false ∧ convBound (cluster s 0) e = none ∧ convBusy (cluster s 0).opx 10 = true) := by
  refine ⟨by decide +kernel, by decide +kernel, by decide +kernel, ?_, ?_, ?_, ?_, ?_, by decide +kernel⟩ <;> unfold ConvHead <;> decide +kernel

/-- A bank without updates passes its compare. -/
theorem clear_passes (p fold : Bool) : (compareTile (Bank.clear p) (drainValue (Bank.clear p)) fold).mismatch = false := by
  have h (x : Nat) : spGet Cell.zero (Bank.clear p).cells x = Cell.zero := rfl
  have h1 (x : Nat) : spGet CkCell.zero (Bank.clear p).col x = CkCell.zero := rfl
  have h2 (x : Nat) : spGet CkCell.zero (Bank.clear p).row x = CkCell.zero := rfl
  unfold compareTile drainValue
  simp only [h, h1, h2]
  cases p <;> cases fold <;> decide +kernel

theorem wit_DrainDelivers :
    (∀ x, x ∈ [0, 2 ^ 113] → let e := ent (opRaw oDRAIN 10 x); let s := queS 0 e
     loadSlot e.raw = none ∧ bankOfB (cluster s 0).opx (convBankOf e.raw) = Bank.clear false ∧ drainToVec e.raw = decide (x ≠ 0) ∧
      drainBufferFull (cluster s 0).vr 11 = false) ∧
    inboundHit (cluster (queS 0 (ent (opRaw oDRAIN 10 0))) 0) [⟨0, [], false⟩] = none := by decide +kernel

/-- A running cluster whose engine is o. -/
def opxS (o : Opx) : State := runC { (queC 0 (ent 0)) with opx := o }

/-- A live bank that was never updated since its clear, due for a survey. -/
def dueBank : Bank := { (Bank.clear false) with live := true, updN := 65536 }

theorem dueBank_passes : (surveyResult dueBank).mismatch = false := by
  have h (x : Nat) : spGet Cell.zero dueBank.cells x = Cell.zero := rfl
  have h1 (x : Nat) : spGet CkCell.zero dueBank.col x = CkCell.zero := rfl
  have h2 (x : Nat) : spGet CkCell.zero dueBank.row x = CkCell.zero := rfl
  unfold surveyResult compareTile
  simp only [h, h1, h2]
  decide +kernel

theorem wit_ConveyorAndClampEventsComplete :
    (let s := opxS { Opx.reset with convWait := [ent oSURVEY], conv := [⟨.survey, false, 5, 128, 3, 2⟩] }
     (cluster s 0).opx.convWait = [ent oSURVEY] ∧ (convEnd (cluster s 0).opx).isSome = true ∧ shifts s 0 = true) ∧
    (let s := opxS { Opx.reset with conv := [⟨.drain, true, 5, 128, 3, 2⟩] }
     (cluster s 0).opx.conv = [⟨.drain, true, 5, 128, 3, 2⟩] ∧ (cluster s 0).opx.convWait = [] ∧ shifts s 0 = true) ∧
    (let s := opxS { Opx.reset with bankB := dueBank }
     running s 0 = true ∧ (cluster s 0).opx.survey = none ∧ (cluster s 0).opx.conv = [] ∧ (cluster s 0).opx.convWait = [] ∧
      surveyDue s (bankOfB (cluster s 0).opx true) = true ∧ bankOfB (cluster s 0).opx true = dueBank) ∧
    (let s := opxS { Opx.reset with bankB := dueBank, survey := some true, hold := 2 }
     atWork s 0 = true ∧ (cluster s 0).opx.survey = some true ∧ (cluster s 0).opx.hold = 2) ∧
    (let s := opxS { Opx.reset with wave0 := some 35 }
     disableFrom (maxWave (cluster s 0).opx.wave0 (cluster s 0).opx.wave1) (cluster s 0).opx.rowsOn = some 100 ∧ (cluster s 0).opx.open0 = none ∧
      (cluster s 0).opx.open1 = none ∧ (lcEntry s 0).mapped = true ∧ (cluster s 0).opx.hold = 0) ∧
    (lcEntry idle 0).mapped = true ∧ (cluster idle 0).opx.clampRows = false ∧ (cluster idle 0).opx.clampRamp = false ∧
    (cluster (opxS { Opx.reset with clampRows := true }) 0).opx.clampRows = true ∧
    (let s := opxS { Opx.reset with clampRamp := true }
     (cluster s 0).opx.clampRows = false ∧ (cluster s 0).opx.clampRamp = true) := by decide +kernel

theorem wit_PassAccumulatesInOrder :
    (fvFinite (fv (0x3F800000 : F32)) = true ∧ f32Finite (rne (fvAdd .rne (fv (0x3F800000 : F32)) (fvInt 1))) = true ∧ fvFinite (fvInt 1) = true) ∧
    (let y := fvAdd .rne (fvInt 1) (fv (0x33800000 : F32))
     fvFinite y = true ∧ f32Finite (rne (fvAdd .rne (fv (0x3F800000 : F32)) y)) = true) ∧
    (natBits (0 : F32).toNat 0 1 = 0 ∧ -(2 ^ 31) ≤ (0x7FFFFFFF : F32).toInt + 0 ∧ (0x7FFFFFFF : F32).toInt + 0 < 2 ^ 31 ∧
      2 ^ 31 ≤ (0x7FFFFFFF : F32).toInt + 1 ∧ (0x80000000 : F32).toInt + -1 < -(2 ^ 31) ∧ natBits (1 : F32).toNat 0 1 = 1) := by decide +kernel

/-- A queued command with parameter registers p at dispatch. -/
def entP (raw : Nat) (p : Sparse Nat) : QEntry := { ent raw with prm := p }

/-- A VEC command on one element: slots 0 to 3 FP32 at scratchpad addresses 0, 64, 128 and 192. -/
def vecRaw (o cx : Nat) : Nat := packFields [(o, 8), (0, 18), (cx, 6), (0, 32), (0, 16), (0, 32), (1, 16), (0, 32), (2, 16), (0, 32), (3, 16)]

/-- It in the VEC queue. -/
def vecE (o cx : Nat) (b : Bool) : QEntry := { entP (vecRaw o cx) [(0, 1)] with live := b }

theorem wit_VecCommandsComplete : (∀ b, b ∈ [true, false] →
      vecPick (queS 1 (vecE oFMA 0 b)) 0 0 oFMA (fun _ => true) = some (vecE oFMA 0 b) ∧
      vecPick (queS 1 (vecE oFN 0 b)) 0 0 oFN (fun _ => true) = some (vecE oFN 0 b) ∧
      vecPick (queS 1 (vecE oDFN 0 b)) 0 0 oDFN (fun _ => true) = some (vecE oDFN 0 b) ∧
      vecPick (queS 1 (vecE oCVT 0 b)) 0 0 oCVT (fun _ => true) = some (vecE oCVT 0 b) ∧
      vecPick (queS 1 (vecE oOPT 0 b)) 0 0 oOPT (fun _ => true) = some (vecE oOPT 0 b) ∧
      vecPick (queS 1 (vecE oRED 0 b)) 0 0 oRED (fun e => natBits (cCx e.raw) 0 2 == 0) = some (vecE oRED 0 b) ∧
      vecPick (queS 1 (vecE oRED 1 b)) 0 0 oRED (fun e => natBits (cCx e.raw) 0 2 == 1) = some (vecE oRED 1 b)) ∧
    (let e := vecE oFMA 0 true
     tileBound e = none ∧ vecBound e [srcBound e 0 (vecN e), srcBound e 1 (vecN e), srcBound e 2 (vecN e), (3, vecN e, true)] = none) ∧
    (let e := vecE oFN 0 true
     tileBound e = none ∧ vecBound e [srcBound e 0 (vecN e), srcBound e 1 (vecN e), (2, if natBits (cCx e.raw) 4 1 = 1 then vecN e else 0, true), (3, vecN e, true)] = none) ∧
    (let e := vecE oDFN 0 true
     tileBound e = none ∧ vecBound e [srcBound e 0 (vecN e), srcBound e 1 (vecN e), (3, vecN e, true)] = none) ∧
    (let e := vecE oCVT 0 true
     tileBound e = none ∧ vecBound e [srcBound e 0 (vecN e), (3, vecN e, true)] = none ∧ scaleBound e 1 (vecN e) = none ∧ scaleBound e 2 (vecN e) = none) ∧
    (let e := vecE oOPT 0 true
     tileBound e = none ∧ vecBound e [(0, vecN e, true), (1, vecN e, false), (2, vecN e, true), (3, vecN e, true)] = none) ∧
    tileBound (vecE oRED 0 true) = none ∧ redBound (vecE oRED 0 true) = none ∧
    (let e := vecE oRED 1 true
     tileBound e = none ∧ vecBound e [(0, vecN e, false), (3, ceilDiv (vecN e) 128, true)] = none ∧ formed e (sref e.raw 2) + 64 ≤ spTop + 1) := by decide +kernel

/-- A ROW command over one row of one element, LENGTH 1. -/
def rowE (o cx : Nat) (b : Bool) : QEntry := { entP (vecRaw o cx) [(0, 1 + 2 ^ 32), (4, 1), (7, 8 * 2 ^ 32)] with live := b }

theorem wit_RowCommandsComplete : (∀ b, b ∈ [true, false] →
      rowPick (queS 2 (rowE oNORMF 0 b)) 0 0 oNORMF = some (rowE oNORMF 0 b) ∧ rowPick (queS 2 (rowE oNORMB 0 b)) 0 0 oNORMB = some (rowE oNORMB 0 b) ∧
      rowPick (queS 2 (rowE oSMAXF 0 b)) 0 0 oSMAXF = some (rowE oSMAXF 0 b) ∧ rowPick (queS 2 (rowE oSMAXB 0 b)) 0 0 oSMAXB = some (rowE oSMAXB 0 b) ∧
      rowPick (queS 2 (rowE oTOPK 0 b)) 0 0 oTOPK = some (rowE oTOPK 0 b)) ∧
    (let e := rowE oNORMF 0 true; let s := queS 2 e
     rowBound s e (rowPar e) [(0, false), (1, false), (2, false), (3, true)] (false, true) = none) ∧
    (let e := rowE oNORMB 0 true; let s := queS 2 e
     rowBound s e (rowPar e) [(0, false), (1, false), (2, false), (3, true)] (true, false) = none) ∧
    (let e := rowE oSMAXF 0 true; let s := queS 2 e
     rowBound s e (rowPar e) (if isPhase1 e then [(0, false), (3, true)] else [(0, false)]) (smaxStats (cluster s 0) e (rowPar e)) = none) ∧
    (let e := rowE oSMAXB 0 true; let s := queS 2 e
     rowBound s e (rowPar e) (if isPhase1 e then [(0, false), (1, false), (3, true)] else [(0, false), (1, false)]) (smaxStats (cluster s 0) e (rowPar e)) = none) ∧
    (let e := rowE oTOPK 0 true; let s := queS 2 e
     rowBound s e (rowPar e) [] (false, false) = none ∧ topkBound e (rowPar e) = none) := by decide +kernel

theorem wit_ElementsWritten : isBs8 (sref (vecE oCVT 0 true).raw 3).fmt = false ∧ optLost ClMem.powered (vecE oOPT 0 true) = false ∧
    optHdrDiv (vecE oOPT 0 true) = false ∧
    (let e := entP (vecRaw oOPT 0) [(0, 1), (11, 2 ^ 63)]; let m := { ClMem.powered with sp := [(2, 1)] }
     optLost m e = false ∧ optHdrDiv e = true ∧ memLe m.sp (optHdrAddr e + 2) 2 ≠ 0) ∧
    isPhase1 (rowE oSMAXF 2 true) = false ∧ isFirst (rowE oSMAXF 2 true) = true ∧
    (∀ o, o ∈ [oSMAXF, oSMAXB] → let e := rowE o 4 true; let s := queS 2 e
     isPhase1 e = true ∧ (rowPar e).rows = 1 ∧ spWf .reset (readStats s 0 (rowPar e) (rowPar e).rows).2.cl = true) ∧
    natBits (cCx (rowE oTOPK 0 true).raw) 2 1 = 0 ∧
    (∀ o, o ∈ [oNORMF, oNORMB, oSMAXF, oSMAXB, oTOPK] → spillRange (rowPar (rowE o 0 true)) = none ∧
      ∀ b, b ∈ [(false, false), (true, true)] → admits (queS 2 (rowE o 0 true)) 1 (spillCells 0 (rowPar (rowE o 0 true)) b) = true) := by
  decide +kernel

theorem wit_finishCmd : inboundHit (cluster (queS 1 (ent 0)) 0) ([([⟨0, [1], false⟩], 3)].flatMap (fun d : Dest => d.1)) = none ∧
    readSlip (cluster (queS 1 (ent 0)) 0).mem [(⟨0, true, 0, 0, false, 0, 0, 0⟩, [0])] = none ∧
    inboundHit (cluster (runC { (queC 1 (ent 0)) with log := { SeqLog.reset with inbound := [0] } }) 0) [⟨0, [1], false⟩] = some ⟨0, [1], false⟩ := by
  decide +kernel

/-- Three candidates. -/
def candL : List Cand := [⟨.fin false 1 0, 0, true⟩, ⟨.fin false 3 0, 1, true⟩, ⟨.fin true 1 0, 5, true⟩]

theorem wit_RankedSelectionIsSorted : (∀ c, c ∈ candL → c.v ≠ .nan) ∧ candL.Pairwise (fun a b => a.pos < b.pos) := by decide +kernel

/-! Traverses -/

/-- TRV.GO of ticket 9 and a one-element descriptor based at b. -/
def trvE (dir b : Nat) : QEntry := { ent (packFields [(oTRVGO, 8), (0, 152), (dir, 2), (9, 6)]) with desc := [b] }

/-- A module with queue 3 holding e, engine 0 having l in flight, and DRAM and companion open. -/
def trvS (e : QEntry) (l : List Trv) : State :=
  { runC { (queC 3 e) with t0 := { TrvEngine.reset with flight := l } } with win := [(0, dramWin), (1, ⟨true, true, true, 0x80000000, 0x80000FFF⟩)] }

/-- A traverse in flight from or to companion address 0. -/
def flyT (dir : Nat) : Trv := ⟨trvE dir (2 ^ 47), 2 ^ 47, 0, true, 0, false, [], [], .reset, .asked, .asked⟩

/-- A CHECK slot at companion address 64 that writes (mode 1) or compares (mode 2), and a DECRYPT slot with its tag at companion address 128. -/
def chkS (mode : Nat) : Nat := packFields [(4, 10), (mode, 2), (2 ^ 47 + 64, 48)]
def decS : Nat := packFields [(3, 108), (2 ^ 47 + 128, 48)]

/-- The ingress in flight with an option slot and a final check value. -/
def slotT (slot ck : Nat) : Trv := { (flyT 0) with e := { (trvE 0 (2 ^ 47)) with desc := [2 ^ 47, slot] }, ck := ck }

/-- It with its key absent. -/
def keylessT : Trv := { (slotT decS 0) with keyAbsent := true }

/-- TRV.WAIT of a ticket. -/
def waitE (t : Nat) : QEntry := ent (packFields [(oTRVWAIT, 8), (0, 56), (t, 6)])

theorem wit_TraverseCommandsComplete :
    (pickOp (trvS (trvE 0 0) []) 0 3 0 oTRVGO = some (trvE 0 0) ∧ (trvE 0 0).live = true ∧ (trvOf (cluster (trvS (trvE 0 0) []) 0) (3 - 3)).flight.length < 4 ∧
      (startTrv (modCluster (trvS (trvE 0 0) []) 0 (fun c => atCycle c 0)) 0 3 (trvE 0 0)).isRight = true) ∧
    (let s := setTtCell (trvS (trvE 0 0) []) 0 0 0 { ttCell (trvS (trvE 0 0) []) 0 0 0 with credit := 0 }
     pickOp s 0 3 0 oTRVGO = some (trvE 0 0) ∧ (trvOf (cluster s 0) (3 - 3)).flight.length < 4 ∧
      (startTrv (modCluster s 0 (fun c => atCycle c 0)) 0 3 (trvE 0 0)).isLeft = true) ∧
    4 ≤ (trvOf (cluster (trvS (trvE 0 0) (List.replicate 4 (flyT 0))) 0) (3 - 3)).flight.length ∧
    (pickOp (trvS (waitE 8) [flyT 0]) 0 3 0 oTRVWAIT = some (waitE 8) ∧
      ∀ t, t ∈ (trvOf (cluster (trvS (waitE 8) [flyT 0]) 0) (3 - 3)).flight → trvTicket t.e.raw ≠ waitTicket (waitE 8).raw) ∧
    (pickOp (trvS (waitE 9) [flyT 0]) 0 3 0 oTRVWAIT = some (waitE 9) ∧ trvTicket (flyT 0).e.raw = waitTicket (waitE 9).raw) ∧
    (∀ t, t ∈ [flyT 0, slotT (chkS 1) 7, slotT (chkS 2) 0, slotT (chkS 2) 7] → let s := trvS (waitE 9) [t]
     (trvOf (cluster s 0) 0).flight = [t] ∧ (decryptFail s 0 0 t).1 = none ∧
      (checkAtEnd (if t.moved then noteDigest (decryptFail s 0 0 t).2 t else (decryptFail s 0 0 t).2) 0 0 t []).1.isSome = decide (t ≠ slotT (chkS 2) 7)) ∧
    (decryptFail (trvS (waitE 9) [keylessT]) 0 0 keylessT).1 = some cKeyAbsent := by
  decide +kernel

theorem wit_RefusalsAndTimeouts :
    (∀ x, x ∈ [(flyT 0, TrvSide.element), (flyT 1, .element), (slotT (chkS 1) 0, .check), (slotT (chkS 2) 0, .check), (slotT decS 0, .tag)] →
     let s := trvS (waitE 9) [x.1]
     flightFrom s 0 0 0 = [x.1] ∧ x.1.moved = true ∧
      (match reqAddr x.1.e x.1.base x.1.dbase ⟨x.2, 0, 0⟩ with
       | some a => isComp a && decide (locate a = .comp (a - 2 ^ 47))
       | none => false) = true ∧ sideWrites x.1.e x.2 = decide (x.1 = flyT 1 ∨ x.1 = slotT (chkS 1) 0)) ∧
    (powered idle = true ∧ idle.op ≠ .sl3) := by
  decide +kernel

/-- A cluster stopped at a DATUM with engine 3 probing, or engines 0 and 3. -/
def probeS (both : Bool) : State :=
  let x := { TrvEngine.reset with probe := true, refAddr := 2 ^ 47, refEntry := some (trvE 0 (2 ^ 47), 2 ^ 47, 0) }
  runC { Cluster.reset with seq := { Seq.reset with wait := .probe }, t3 := x, t0 := if both then x else .reset }

theorem wit_RefusalProbe : (∀ b, b ∈ [true, false] → let s := probeS b
    let x := trvOf (cluster s 0) 3
    (cluster s 0).seq.wait = .probe ∧ x.probe = true ∧ x.refEntry = some (trvE 0 (2 ^ 47), 2 ^ 47, 0) ∧ s.op = .running ∧ isComp x.refAddr = true ∧
    admits s 0 (devCells (secOf 0) x.refAddr false) = true ∧
    reqAddr (trvE 0 (2 ^ 47)) (2 ^ 47) 0 ⟨.element, 0, 0⟩ = some (2 ^ 47) ∧ x.refOrd ≤ reqOrd (trvE 0 (2 ^ 47)) ⟨.element, 0, 0⟩ ∧
    (let u := modCluster (chargeSegs (chargeSegs s 0 3 [(x.refAddr, 128)] false) 0 3
        (probeReads x (trvE 0 (2 ^ 47), 2 ^ 47, 0) (elemCount (trvD0 (trvE 0 (2 ^ 47))).mfmt (trvDims (trvE 0 (2 ^ 47))))) false) 0
        (fun c => modTrv c 3 (fun x => { x with probe := false, refV := false }))
     ((cluster u 0).t0.probe || (cluster u 0).t1.probe || (cluster u 0).t2.probe || (cluster u 0).t3.probe) = b)) := by decide +kernel

/-! Frames -/

/-- A running member 0 of job 9 in slot 0, leader l, whose ports are on. -/
def fabS (l : Nat) : State :=
  let s := jobS .running
  { s with fab := { s.fab with
      jobs := [(0, { Job.reset with valid := true, job := 9, pm1 := 1, leader := l })], ports := [(0, { Port.reset with en := true, linkUp := true }), (7, { Port.reset with en := true, linkUp := true })] } }

/-- A frame for port p of it. -/
def frm (p : Nat) (h : Hdr) (pl : List Byte) : Frame := mkFrame (fabS 0) p p { h with len := pl.length } pl []

/-- A header of a type from member 1 with ROUND r and CFGCHK c. -/
def hdr (type r c : Nat) : Hdr := ⟨1, type, false, 0, 9, 0, 1, 0, 1, 0, r, 0, 1, 0, 0, c⟩

theorem received_of {s : State} {p : Nat} {f : Frame} {type j : Nat} {P : List Byte → State → Prop} [∀ pl t, Decidable (P pl t)]
    (h : (decide (p < 8) && (hdrOf f).type == type && portsServe (frameActivity s p) && frameMay (frameActivity s p) p &&
      (match acceptFrame (frameActivity s p) p f with
       | (some pl, t) => jobSlot t (hdrOf f).job == some j && takenStatus t (rxSpace p j (hdrOf f)) (hdrOf f).seq == none && decide (P pl t)
       | (none, _) => false)) = true) : ∃ pl t, Received s p f type pl j t ∧ P pl t := by
  simp only [Bool.and_eq_true, beq_iff_eq, decide_eq_true_eq] at h
  obtain ⟨⟨⟨⟨h1, h2⟩, h3⟩, h4⟩, h6⟩ := h
  cases ha : acceptFrame (frameActivity s p) p f with
  | mk o t =>
    rw [ha] at h6
    cases o with
    | none => cases h6
    | some pl =>
      simp only [Bool.and_eq_true, beq_iff_eq, decide_eq_true_eq] at h6
      exact ⟨pl, t, ⟨⟨h1, h2, h3, h4, ha⟩, h6.1.1, h6.1.2⟩, h6.2⟩

theorem receivedPlain_of {s : State} {p : Nat} {f : Frame} {type : Nat} {P : List Byte → State → Prop} [∀ pl t, Decidable (P pl t)]
    (h : (decide (p < 8) && (hdrOf f).type == type && portsServe (frameActivity s p) && frameMay (frameActivity s p) p &&
      (match acceptFrame (frameActivity s p) p f with
       | (some pl, t) => decide (P pl t)
       | (none, _) => false)) = true) : ∃ pl t, ReceivedPlain s p f type pl t ∧ P pl t := by
  simp only [Bool.and_eq_true, beq_iff_eq, decide_eq_true_eq] at h
  obtain ⟨⟨⟨⟨h1, h2⟩, h3⟩, h4⟩, h6⟩ := h
  cases ha : acceptFrame (frameActivity s p) p f with
  | mk o t =>
    rw [ha] at h6
    cases o with
    | none => cases h6
    | some pl => exact ⟨pl, t, ⟨h1, h2, h3, h4, ha⟩, of_decide_eq_true h6⟩

theorem receivedBuddy_of {s : State} {p : Nat} {f : Frame} {ks : List Nat} {j : Nat} {P : BuddyHdr → State → Prop} [∀ b t, Decidable (P b t)]
    (h : ∃ pl t, Received s p f tBUDDY pl j t ∧ buddyPayload s p f = some pl ∧ ks.contains (buddyHdr pl).kind = true ∧ P (buddyHdr pl) t) :
    ∃ b t, ReceivedBuddy s p f ks b j t ∧ P b t := by
  obtain ⟨pl, t, h1, h2, h3, h4⟩ := h
  exact ⟨buddyHdr pl, t, ⟨pl, h1, h2, rfl, h3⟩, h4⟩

/-- The same with a flow in context 0 of port 7 at round 5. -/
def flowS : State :=
  let s := fabS 0
  { s with fab := { s.fab with flows := [(7 * 32768, { Flow.reset with valid := true, n := 4096, round := 5 })] } }

/-- A piece without block accounts. -/
def note0 : PieceNote := ⟨[], false, 0, []⟩

/-- Stage 0 of chunk 0 with a bound sender. -/
def stage0 : StageSt := ⟨7, 0, 0, 0, some 1, [], 0, 0, 0, 0, 0, 0, [], [], 0, 0, [], 0, false⟩

theorem wit_JobFrames_data : (∀ r, r ∈ [4, 5, 6] → ∃ pl t, Received flowS 7 (frm 7 (hdr tDATA r 0) (zeros 64)) tDATA pl 0 t ∧
      ((flowOf t 7 0).valid = true ∧ (flowOf t 7 0).jslot = 0 ∧ (jobOf t 0).stopped = false ∧
       (hdrOf (frm 7 (hdr tDATA r 0) (zeros 64))).cfgchk = (fstatOf t 7 0).cfgchk ∧
       (hdrOf (frm 7 (hdr tDATA r 0) (zeros 64))).round = r ∧ (flowOf t 7 0).round = 5 ∧ 0 < (flowOf t 7 0).chunkCount ∧
       (stageOf t 7 0 0 0).bound.any (fun m => m != 1) = false ∧ stageBytes t 7 + pl.length ≤ stagingCap)) ∧
    (∃ pl t, Received flowS 7 (frm 7 { (hdr tDATA 5 0) with chunk := 2 } (zeros 64)) tDATA pl 0 t ∧ (flowOf t 7 0).chunkCount = 2) ∧
    (let s : State := { flowS with fab := { flowS.fab with stages := [{ stage0 with bound := some 3 }] } }
     ∃ pl t, Received s 7 (frm 7 (hdr tDATA 5 0) (zeros 64)) tDATA pl 0 t ∧ (stageOf t 7 0 0 0).bound.any (fun m => m != 1) = true) ∧
    (∀ b, b ∈ [true, false] →
     let s : State := { flowS with fab := { flowS.fab with fstat := [(7 * 32768, { FlowStat.reset with flagged := b })] } }
     ∃ pl t, Received s 7 (frm 7 (hdr tDATA 5 1) (zeros 64)) tDATA pl 0 t ∧
      ((hdrOf (frm 7 (hdr tDATA 5 1) (zeros 64))).cfgchk ≠ (fstatOf t 7 0).cfgchk ∧ (fstatOf t 7 0).flagged = b)) ∧
    (∀ ty, ty ∈ [tDATA, tREADY, tDECISION, tDECREQ] → ∃ pl t, UnknownJob (fabS 0) 0 (frm 0 { (hdr ty 5 0) with job := 77 } []) ty pl t) := by
  refine ⟨fun r h => ?_, ?_, ?_, fun b h => ?_, fun ty h => ?_⟩
  · simp only [List.mem_cons, List.not_mem_nil, or_false] at h
    obtain rfl | rfl | rfl := h <;> exact received_of (by decide +kernel)
  · exact received_of (by decide +kernel)
  · exact received_of (by decide +kernel)
  · simp only [List.mem_cons, List.not_mem_nil, or_false] at h
    obtain rfl | rfl := h <;> exact received_of (by decide +kernel)
  · simp only [List.mem_cons, List.not_mem_nil, or_false] at h
    obtain ⟨pl, t, h1, h2⟩ : ∃ pl t, ReceivedPlain (fabS 0) 0 (frm 0 { (hdr ty 5 0) with job := 77 } []) ty pl t ∧
        jobSlot t (hdrOf (frm 0 { (hdr ty 5 0) with job := 77 } [])).job = none := by
      obtain rfl | rfl | rfl | rfl := h <;> exact receivedPlain_of (by decide +kernel)
    exact ⟨pl, t, h1, h2⟩

/-- The module with one stage. -/
def stagedS (x : StageSt) : State := { flowS with fab := { flowS.fab with stages := [x] } }

/-- A first piece of its flow. -/
def pieceF : Frame := frm 7 (hdr tDATA 5 0) (zeros 64)

theorem staged_active (x : StageSt) : frameActivity (stagedS x) 7 = stagedS x := by
  have h : (wakeCfg flowS 14 && (sleepTarget flowS == some 1 || sleepTarget flowS == some 2)) = false := by decide +kernel
  unfold frameActivity
  exact if_neg (by rw [show (wakeCfg (stagedS x) (7 + 7) && (sleepTarget (stagedS x) == some 1 || sleepTarget (stagedS x) == some 2)) = false from h]; simp)

theorem staged_received (x : StageSt) : ∃ t, Received (stagedS x) 7 pieceF tDATA (zeros 64) 0 t ∧ t.fab.stages = [x] := by
  have h1 : foreign flowS 7 pieceF = false := by decide +kernel
  have h2 : (portOf flowS 7).linkUp = true ∧ (portOf flowS 7).en = true := by decide +kernel
  have h3 : forPort flowS 7 pieceF = true := by decide +kernel
  have h4 : ¬ (!pieceF.fcsOk || pieceF.crc ≠ stenisCrc pieceF.hdr pieceF.payload pieceF.gcm || pieceF.payload.length ≠ (hdrOf pieceF).len) = true := by
    decide +kernel
  have h5 : jobSlot flowS (hdrOf pieceF).job = some 0 ∧ (jobOf flowS 0).enc = false ∧ (hdrOf pieceF).enc = false ∧ (hdrOf pieceF).type = tDATA := by
    decide +kernel
  have h6 : portsServe flowS = true ∧ frameMay flowS 7 = true ∧ pieceF.payload = zeros 64 := by decide +kernel
  have h7 : takenStatus flowS (rxSpace 7 0 (hdrOf pieceF)) (hdrOf pieceF).seq = none := by decide +kernel
  refine ⟨modPort (stagedS x) 7 (fun q => { q with rxN := satAdd 32 q.rxN 1 }), ⟨⟨by omega, h5.2.2.2, ?_, ?_, ?_⟩, h5.1, h7⟩, rfl⟩
  · rw [staged_active]; exact h6.1
  · rw [staged_active]; exact h6.2.1
  · rw [staged_active]
    unfold acceptFrame
    have e1 : (portOf (stagedS x) 7).linkUp = true := h2.1
    have e2 : (portOf (stagedS x) 7).en = true := h2.2
    have e3 : foreign (stagedS x) 7 pieceF = false := h1
    have e4 : forPort (stagedS x) 7 pieceF = true := h3
    have e5 : jobSlot (stagedS x) (hdrOf pieceF).job = some 0 := h5.1
    have e6 : (jobOf (stagedS x) 0).enc = false := h5.2.1
    dsimp only
    rw [if_neg (by rw [e1]; decide), if_neg (by rw [e3]; decide), if_neg (by rw [e2]; decide), if_neg (by rw [e4]; decide), if_neg h4,
      if_neg (by rw [h5.2.2.2]; decide), e5]
    dsimp only
    rw [if_neg (by rw [e6, h5.2.2.1]; decide), if_pos (by rw [e6]; decide), h6.2.2]

theorem wit_StagingFull : ∃ x t, Received (stagedS x) 7 pieceF tDATA (zeros 64) 0 t ∧ (stageOf t 7 0 0 0).bound.any (fun m => m != 1) = false ∧
    stagingCap < stageBytes t 7 + (zeros 64).length := by
  obtain ⟨l, hl⟩ : ∃ l : List Byte, l.length = stagingCap := ⟨List.replicate stagingCap 0, List.length_replicate⟩
  obtain ⟨t, ht, hs⟩ := staged_received { stage0 with staged := [(0, (l, note0))] }
  refine ⟨_, t, ht, ?_, ?_⟩
  · unfold stageOf; rw [hs]; rfl
  · have e : stageBytes t 7 = l.length := by
      unfold stageBytes; rw [hs]; simp [stage0]
    rw [e, hl]
    exact Nat.lt_add_of_pos_right (by decide +kernel)

/-- A module that waits on port 0 for the ACK of a READY. -/
def sentS : State :=
  let s := fabS 1
  { s with fab := { s.fab with ports := [(0, { Port.reset with en := true, linkUp := true, unacked := [⟨frm 0 (hdr tREADY 5 0) [], 0, 1, false, none⟩] })] } }

/-- A decision of job 9 for group 3 and round r, to commit. -/
def decD (r : Nat) : Decision := ⟨9, 3, r, true, 0, 0, 0, []⟩

theorem wit_JobFrames_control :
    (∀ st, st ∈ [0, 1, 2] → ∃ pl t, ReceivedPlain sentS 0 (frm 0 (hdr tACK 5 0) (leBytes 1 st)) tACK pl t ∧
      (((portOf t 0).unacked.find? (ackFits (hdrOf (frm 0 (hdr tACK 5 0) (leBytes 1 st))))).isSome = true ∧ natBits (byteField pl 0 1) 0 2 = st)) ∧
    (∃ pl t, Received (fabS 0) 0 (frm 0 (hdr tREADY 5 0) (leBytes 16 3)) tREADY pl 0 t ∧ ((jobOf t 0).cport = 0 ∧ (jobOf t 0).leader = (jobOf t 0).midx ∧
      decided t (jobOf t 0).job (natBits (byteField pl 0 16) 0 10) 5 = none)) ∧
    (let s : State := { fabS 0 with train := { (fabS 0).train with decisions := [decD 5] } }
     (∃ pl t, Received s 0 (frm 0 (hdr tREADY 5 0) (leBytes 16 3)) tREADY pl 0 t ∧
      (decided t (jobOf t 0).job (natBits (byteField pl 0 16) 0 10) 5).isSome = true) ∧
     (∃ pl t, Received s 0 (frm 0 (hdr tDECREQ 5 0) (leBytes 2 3)) tDECREQ pl 0 t ∧ decided t (jobOf t 0).job (natBits (byteField pl 0 2) 0 10) 5 = some (decD 5)) ∧
     (∃ pl t, Received s 0 (frm 0 (hdr tDECREQ 6 0) (leBytes 2 3)) tDECREQ pl 0 t ∧ decided t (jobOf t 0).job (natBits (byteField pl 0 2) 0 10) 6 = none)) ∧
    (∀ r, r ∈ [4, 5] → let s : State := { fabS 1 with train := { (fabS 1).train with groups := [(3, { Group.reset with valid := true, job := 9, round := 4 })] } }
     ∃ pl t, Received s 0 (frm 0 (hdr tDECISION r 0) (leBytes 40 (3 + 1024))) tDECISION pl 0 t ∧ ((jobOf t 0).leader ≠ (jobOf t 0).midx ∧
      (groupOf t (decisionParse 9 r 1 pl).group).valid = true ∧ (groupOf t (decisionParse 9 r 1 pl).group).job = 9 ∧
      (groupOf t (decisionParse 9 r 1 pl).group).round = 4 ∧ (decisionParse 9 r 1 pl).round = r)) ∧
    (∀ l, l ∈ [[], [decD 5]] → let s : State := { fabS 0 with train := { (fabS 0).train with decisions := l, groups := [(3, { Group.reset with valid := true, job := 9, round := 5 })] } }
     ∃ pl t, Received s 0 (frm 0 (hdr tDECISION 5 0) (leBytes 40 (3 + 1024))) tDECISION pl 0 t ∧ ((jobOf t 0).cport = 0 ∧ (jobOf t 0).leader = (jobOf t 0).midx ∧
      (let d := decisionParse (jobOf t 0).job 5 (jobOf t 0).leader pl
       (groupOf t d.group).valid = true ∧ (groupOf t d.group).job = (jobOf t 0).job ∧ (groupOf t d.group).round = d.round ∧
        (decided t (jobOf t 0).job d.group d.round).isSome = !l.isEmpty))) ∧
    (∀ r, r ∈ [4, 5] → let s : State := { fabS 1 with train := { (fabS 1).train with recs := [(3, { (fabS 1).train.recs.headD (0, .reset) |>.2 with decision := 1, round := 4, job := 9 })] } }
     ∃ pl t, Received s 0 (frm 0 (hdr tDECREQ r 0) (leBytes 2 3)) tDECREQ pl 0 t ∧ ((jobOf t 0).leader ≠ (jobOf t 0).midx ∧ (jobOf t 0).leader = 1 ∧
      (let x := spGet .reset t.train.recs (natBits (byteField pl 0 2) 0 10)
       decide (x.decision ≠ 0 ∧ x.round = r ∧ x.job = (jobOf t 0).job) = decide (r = 4)))) := by
  refine ⟨fun st h => ?_, received_of (by decide +kernel), ⟨received_of (by decide +kernel), received_of (by decide +kernel), received_of (by decide +kernel)⟩,
    fun r h => ?_, fun l h => ?_, fun r h => ?_⟩
  · simp only [List.mem_cons, List.not_mem_nil, or_false] at h
    obtain rfl | rfl | rfl := h <;> exact receivedPlain_of (by decide +kernel)
  all_goals
    simp only [List.mem_cons, List.not_mem_nil, or_false] at h
    obtain rfl | rfl := h <;> exact received_of (by decide +kernel)

theorem wit_JobFrames_plain : (∃ pl t, ReceivedPlain (fabS 0) 7 (frm 7 (hdr tOOS 0 0) (leBytes 8 0x10)) tOOS pl t ∧ True) ∧
    (∃ pl t, ReceivedPlain (fabS 0) 7 (frm 7 (hdr tWAKE 0 0) []) tWAKE pl t ∧ (fabS 0).op ≠ .scrubbing) ∧
    (let s := fabS 0
     let f := { (frm 7 (hdr tWAKE 0 0) []) with etype := 0x0800 }
     foreign s 7 f = true ∧ fabRuns s = true ∧ s.boot.phase = .up ∧ s.op ≠ .sl2 ∧ (frameActivity s 7).op ≠ .sl2 ∧ frameMay (frameActivity s 7) 7 = true ∧
      (portOf (frameActivity s 7) 7).linkUp = true ∧ foreign (frameActivity s 7) 7 f = true) ∧ (hdrOf (frm 7 (hdr tWAKE 0 0) [])).type = tWAKE :=
  ⟨receivedPlain_of (by decide +kernel), receivedPlain_of (by decide +kernel), by decide +kernel⟩

/-- A BUDDY frame of a kind with its CKPT field, TENSOR 2 and data, at port 7. -/
def budF (kind ckpt : Nat) (d : List Byte) : Frame :=
  frm 7 (hdr tBUDDY 0 0) (leBytes 32 (packFields [(kind, 4), (1, 4), (0, 8), (ckpt, 32), (2, 13), (0, 3), (0, 64), (d.length, 14)]) ++ d)

/-- The member with its store ready, a CKPT_RESTORE outstanding and member 1 its buddy on port 7. -/
def budS (ready : Bool) : State :=
  let s := fabS 0
  { s with
    store := { s.store with ready := ready }, mb := { s.mb with long := [⟨mkMsg 0x51 16 0 none, 0, 0⟩] }
    ckpt := { s.ckpt with buddy := some ⟨0x10, 7, 0, 1, 0, true⟩, peers := [0x10] } }

/-- The member that has a BUDDY_PAIR to member 1 outstanding; with its peers. -/
def pairS : State := { budS true with mb := { (budS true).mb with long := [⟨mkMsg 0x54 8 (packFields [(0x10, 48), (7, 3), (0, 13)]) none, 1, 0⟩] } }
def peersS (l : List Nat) : State := { budS true with ckpt := { (budS true).ckpt with buddy := none, peers := l } }

theorem wit_BuddyPairs :
    (∃ b t, ReceivedBuddy (budS true) 7 (budF bPAIR 0 []) [bPAIR] b 0 t ∧ feedsEqual t b = false) ∧
    (let b := buddyHdr (budF bPAIR 0 []).payload
     (pairCmd pairS 7 0 1).isSome = true ∧ feedsEqual pairS b = false ∧ (memberMac pairS 0 1).getD 0 = 0x10 ∧
      (∀ l, l ∈ [[0x10], [], [1], [1, 2]] → pairCmd (peersS l) 7 0 1 = none ∧ feedsEqual (peersS l) b = false ∧
        (peersS l).ckpt.peers.contains 0x10 = decide (l = [0x10]) ∧ decide ((peersS l).ckpt.peers.length < 2) = decide (l ≠ [1, 2]))) := by
  refine ⟨receivedBuddy_of (received_of (by decide +kernel)), by decide +kernel⟩

/-- The member that has 5 bytes of member 1's checkpoint 5, or none. -/
def inbS (got : Nat) : State := { budS true with ckpt := { (budS true).ckpt with inb := if got = 0 then [] else [⟨0x10, 0, 1, 5, got, [], none, [], false⟩] } }

/-- The member with tensor 2 as a slot of 8 bytes, or none. -/
def slotS (v : Bool) : State := { budS true with train := { (budS true).train with vt := if v then [(2, { VtEntry.reset with valid := true, size := 8 })] else [] } }

theorem wit_BuddyFrames :
    (∃ b t, ReceivedBuddy (budS false) 7 (budF bDATA 5 [1]) [bDATA, bEND] b 0 t ∧ (buddyOff t = true ∧ memberMac t 0 1 = some 0x10)) ∧
    (∃ b t, ReceivedBuddy (inbS 5) 7 (budF bDATA 5 [1]) [bDATA, bEND] b 0 t ∧ (takeCkptData 7 (budF bDATA 5 [1]) 0 1 b t).1 = 0) ∧
    (∃ b t, ReceivedBuddy (inbS 0) 7 (budF bDATA 5 [1]) [bDATA, bEND] b 0 t ∧ (takeCkptData 7 (budF bDATA 5 [1]) 0 1 b t).1 = 4) ∧
    (∃ b t, ReceivedBuddy (budS false) 7 (budF bREADREQ 5 []) [bREADREQ] b 0 t ∧ buddyOff t = true) ∧
    (∃ b t, ReceivedBuddy (budS true) 7 (budF bREADREQ 5 []) [bREADREQ] b 0 t ∧ (buddyOff t = false ∧ admits t 4 nandCells = true)) ∧
    (∃ b t, ReceivedBuddy (budS true) 7 (budF bREADDATA 5 [1]) [bREADDATA] b 0 t ∧
      (t.ckpt.buddy.any (fun y => y.port == 7 && y.jslot == 0 && y.midx == 1) = true ∧ longOf t 0x0051 = true ∧ b.data ≠ [])) ∧
    (∃ b t, ReceivedBuddy (fabS 0) 7 (budF bREADDATA 5 [1]) [bREADDATA] b 0 t ∧ longOf t 0x0051 = false) ∧
    (∃ b t, ReceivedBuddy (slotS false) 7 (budF bSLOTREQ 5 []) [bSLOTREQ] b 0 t ∧ (t.slp.entering = none ∧ (vtOf t b.tensor).valid = false)) ∧
    (∃ b t, ReceivedBuddy (slotS true) 7 (budF bSLOTREQ 5 []) [bSLOTREQ] b 0 t ∧ (t.slp.entering = none ∧ (vtOf t b.tensor).valid = true ∧
      admits t 4 (devCells 4 (slotBase (vtOf t b.tensor) (vtOf t b.tensor).cur) false) = true)) ∧
    (let s : State := { budS true with slp := { (budS true).slp with entering := some (1, 0) } }
     ∃ b t, ReceivedBuddy s 7 (budF bSLOTREQ 5 []) [bSLOTREQ] b 0 t ∧ t.slp.entering.isSome = true) ∧
    (∃ b t, ReceivedBuddy (budS true) 7 (budF bSLOTDATA 5 [1]) [bSLOTDATA] b 0 t ∧ True) := by
  refine ⟨?_, ?_, ?_, ?_, ?_, ?_, ?_, ?_, ?_, ?_, ?_⟩ <;> exact receivedBuddy_of (received_of (by decide +kernel))

/-- The member with flow 0 of port 7 open in round 5 and changed by f. -/
def openS (f : Flow → Flow) (own : List OwnSt) (st : List StageSt) (res : List ResSt) : State :=
  let s := fabS 0
  { s with fab := { s.fab with
      flows := [(7 * 32768, f { Flow.reset with valid := true, fopen := true, n := 1024, round := 5 })], owns := own, stages := st, results := res } }

/-- A clean contribution of its chunk 0. -/
def own0 (bad : List Nat) : OwnSt := ⟨7, 0, 0, zeros 4, [], bad, false, false⟩

/-- A result of chunk 0, written. -/
def res0 : ResSt := ⟨7, 0, 0, 0, 0, 0, 0, 0, false, false, false, 0, 0, true⟩

/-- A piece waiting on port 7. -/
def piece0 (d : Bool) : Formed := ⟨⟨0, 1, 0, 5, 0, 0, 0, 1, 1, zeros 64, note0⟩, 0, d⟩

/-- The module with port 7 as q. -/
def portS (o : OpState) (q : Port) : State := { fabS 0 with op := o, fab := { (fabS 0).fab with ports := [(7, q)] } }

theorem wit_FlowTimersComplete :
    (∀ b, b ∈ [true, false] → let s := portS .running { Port.reset with en := true, linkUp := true, unacked := [⟨frm 7 (hdr tREADY 5 0) [], 0, 1, b, none⟩] }
     (portOf s 7).unacked[0]? = some ⟨frm 7 (hdr tREADY 5 0) [], 0, 1, b, none⟩ ∧ portsServe s = true ∧ portSends s 7 = true ∧ (jobOf s 0).valid = true ∧
      (portOf s 7).unacked.any (fun u => u.jslot == 0 && u.midx == 1) = true) ∧
    (let s := openS (fun f => { f with fopen := false }) [] [] []
     flowRuns s 7 0 = true ∧ (flowOf s 7 0).fopen = false ∧ (flowOf s 7 0).trigThresh ≤ sfGet s (7 / 2) (flowOf s 7 0).trig ∧ portsServe s = true ∧
      s.slp.entering = none ∧ (flowOf s 7 0).residEn = false) ∧
    (let s := openS id [] [] []
     flowRuns s 7 0 = true ∧ (flowOf s 7 0).fopen = true ∧ 0 < (flowOf s 7 0).chunkCount ∧ ownOf s 7 0 0 = none ∧
      admits s 3 (devCells (7 / 2) (srcRange (flowOf s 7 0) 0).1 false) = true ∧ (stageOf s 7 0 0 0).act = 0 ∧ ownReady s 7 0 0 = false) ∧
    (let s := openS (fun f => { f with fopen := false, residEn := true }) [] [] []
     (flowOf s 7 0).residEn = true ∧ ckptHoldsResid s (7 * 32768 + 0) (flowOf s 7 0).parity = false) ∧
    (let s := openS id [own0 [0]] [] []
     ownOf s 7 0 0 = some (own0 [0]) ∧ (own0 [0]).bad ≠ [] ∧ (own0 [0]).skipped = false ∧
      admits s 3 (devCells (7 / 2) (srcRange (flowOf s 7 0) 0).1 false) = true) ∧
    (let s := openS id [own0 [0]] [stage0] []
     ownReady s 7 0 0 = false ∧ (stageOf s 7 0 0 0).bound.isSome = true ∧ (stageOf s 7 0 0 0).act = 0) ∧
    (let s := openS (fun f => { f with n := 2 ^ 30 }) [] [] []
     1 < (flowOf s 7 0).chunkCount ∧ ownReady s 7 0 1 = false ∧ (stageOf s 7 0 1 0).bound = none ∧ ringFirst s (flowOf s 7 0).jslot 1 = true) ∧
    (let s := openS id [own0 []] [] []
     ownReady s 7 0 0 = true ∧ (stageOf s 7 0 0 0).bound = none ∧ afterStarter s (flowOf s 7 0).jslot 0 = true) ∧
    (let s := openS id [own0 []] [] [res0]
     roundDone s 7 0 = true ∧ (fstatOf s 7 0).lateN = 0 ∧ s.ckpt.policy.lossV = false) ∧
    (let s := openS id [] [] []
     let s : State := { s with fab := { s.fab with fstat := [(7 * 32768, { FlowStat.reset with limit := true })] } }
     flowRuns s 7 0 = true ∧ (flowOf s 7 0).fopen = true ∧ (fstatOf s 7 0).limit = true ∧ portsServe s = true ∧ admits s 3 (resultCells s 7 0 0) = true) ∧
    (∀ b, b ∈ [true, false] → let s := portS .running { Port.reset with en := true, linkUp := true, formed := [piece0 b] }
     let s : State := { s with clk := { s.clk with aon := 300 } }
     (portOf s 7).formed[0]? = some (piece0 b) ∧ (piece0 b).differed = b ∧ (portOf s 7).fenced = false ∧ portsServe s = true ∧
      (jobOf s (piece0 b).piece.jslot).stopped = false ∧ (piece0 b).formedAt + 300 ≤ s.clk.aon) ∧
    (let s := portS .scrubbing { Port.reset with en := true, linkUp := true, oos := true }
     (portOf s 7).oos = true ∧ s.op = .scrubbing) ∧
    (let s : State := { fabS 1 with train := { (fabS 1).train with
        groups := [(3, { Group.reset with valid := true, await := true, job := 9, round := 4, timeout := 2 })], sent := [⟨3, 4, false, 0, some 0, false, none⟩] }, clk := { (fabS 1).clk with aon := 100 } }
     (groupOf s 3).valid = true ∧ (groupOf s 3).await = true ∧
      stalledReady s 3 = true) := by
  refine ⟨?_, ?_, ?_, ?_, ?_, ?_, ?_, ?_, ?_, ?_, ?_, ?_, ?_⟩ <;> decide +kernel

/-! Ill-formed commands are refused by the well-formedness check -/

theorem test_illFormed : (Instr.getInfo { infoMsg with ring := 4 }).wf = false ∧ (Instr.state).wf = true ∧
    (Instr.cntSet 256).wf = false ∧ (Instr.opxPass 256 ⟨0, none⟩).wf = false ∧ (Instr.trvGo 0 2 0).wf = false ∧ (Instr.trvGo 0 7 0).wf = false ∧
    (Instr.flgSet 0 7 0).wf = false ∧ (Instr.traverseComplete 0 4).wf = false ∧ (Instr.eccWriteback 0 4 0).wf = false ∧
    (Instr.preservingMarch 0 4 0 false).wf = false ∧ (Instr.ringIrqWrite 6).wf = false ∧ (Instr.hwinOpen 16 true true).wf = false ∧
    (Instr.hostWindowAccess 0 ⟨0, none⟩).wf = false ∧ (Instr.hostWindowAccess 0 ⟨65, none⟩).wf = false ∧
    (Instr.windowAccess 0 0 none ⟨2, some [1]⟩).wf = false ∧ (Instr.clampEnd 0 ⟨65, false⟩).wf = false ∧ (Instr.clusterReplay 0 ⟨0, some (7, 0), none⟩).wf = false ∧ (Instr.whistle 8).wf = false ∧ (Instr.wake 0 0 true).wf = false ∧
    (Instr.wake 5 0 true).wf = false ∧ (Instr.monitorRecovered 4).wf = false ∧ (Instr.thermalThreshold 19 0).wf = false ∧
    (Instr.timetablePeriod 6 0).wf = false ∧ (Instr.patrolScrubRead 12).wf = false ∧ (Instr.commitStalled 1024).wf = false ∧
    (Instr.storePatrol 0 4 false).wf = false ∧ (Instr.storeDieLost 16 0).wf = false ∧ (Instr.cvFeed 0 [1, 2, 3]).wf = false ∧
    (Instr.cvStart 8 0).wf = false ∧ (Instr.lockstepMismatch 3).wf = false ∧ (Instr.startUpStageEnd 10 stageOk).wf = false ∧
    (Instr.unitRetry 9 true).wf = false ∧ (Instr.smRestart 2 0 goodFw).wf = false ∧
    (Instr.dataRx 0 ⟨{ (frm 0 (hdr tDATA 0 0) []) with gcm := [1] }, note0⟩).wf = false := by decide +kernel

theorem test_longBlock : (Instr.ringJoin { infoMsg with block := some (List.replicate 1048577 0) }).wf = false ∧
    (Instr.dataRx 0 ⟨{ (frm 0 (hdr tDATA 0 0) []) with payload := List.replicate 9001 0 }, note0⟩).wf = false ∧ (Instr.dataRx 8 ⟨frm 0 (hdr tDATA 0 0) [], note0⟩).wf = false := by
  refine ⟨?_, ?_, by decide +kernel⟩
  · have : (List.replicate 1048577 (0 : Byte)).length = 1048577 := List.length_replicate
    simp only [Instr.wf, Msg.wf, this]
    decide
  · have : (List.replicate 9001 (0 : Byte)).length = 9001 := List.length_replicate
    simp only [Instr.wf, Frame.wf, this]
    decide

/-! Worked examples of the manual -/

/-- 01_levels_of_the_machine.md, R24: interleaved address 0x12345678 and its local-view address. -/
theorem test_dram_views : locate 0x12345678 = .dram 5 0x01845678 ∧ locate 0x0480048D1678 = .dram 5 0x01845678 := by decide +kernel

/-- 01_levels_of_the_machine.md: LCMAP145 before and after its move, and its window. -/
theorem test_lcmap : lcBits idle 145 = 0x0611 ∧ lcBits idle 200 = 0x0708 ∧ locate 0x700091000000 = .window 145 0 ∧
    lcBits { idle with map := { idle.map with lcmap := idle.map.lcmap.set 145 ⟨64, true, 1⟩ } } 145 = 0x1E40 := by decide +kernel

/-- 02_number_formats.md: W8 bytes 0x5B, 0x5A, 0x80. -/
theorem test_w8_decode : fvCmp (decodeElem W8 0x5B) (fv 0x3EC00000#32) = 0 ∧ fvCmp (decodeElem W8 0x5A) (fv 0x3E800000#32) = 0 ∧
    (match decodeElem W8 0x80 with
     | .fin n m _ => n && m == 0
     | _ => false) = true := by decide +kernel

/-- 02_number_formats.md: 0x3E99999A to W8 under RNE, and under SR with r = 40,000 and around 39,322. -/
theorem test_w8_round : (encodeElem W8 .rne false (fv 0x3E99999A#32)).code = 0x5A ∧ (encodeElem W8 (.sr 0x9C40) false (fv 0x3E99999A#32)).code = 0x5B ∧
    (encodeElem W8 (.sr 39322) false (fv 0x3E99999A#32)).code = 0x5B ∧ (encodeElem W8 (.sr 39321) false (fv 0x3E99999A#32)).code = 0x5A := by decide +kernel

/-- 02_number_formats.md: cycles of one update. -/
theorem test_update_cost : updCost BF16 E4M3 = 1 ∧ updCost E4M3 BF16 = 2 ∧ updCost FP32 BF16 = 4 ∧ updCost BF16 FP32 = 6 := by decide +kernel

/-- 03_outer_product_engine.md: the difference 0.0005 passes and 1.0005 fails against M = 1,000 after 4,096 updates. -/
theorem test_checksum_tolerance : ((cmpFloat 4096 0x414587E8#32 0x41458A06#32 0x447A0000#32).map (fun x => x.2)) = some false ∧
    ((cmpFloat 4096 0x413587E8#32 0x41458A06#32 0x447A0000#32).map (fun x => x.2)) = some true := by decide +kernel

/-- The row of 04_accumulation_and_error_bounds.md without its NaN, at POS_BASE 1,000. -/
def scoreRow : List Cand :=
  [(0x40400000#32, 0), (0xC0A00000#32, 1), (0x40400000#32, 2), (0x80000000#32, 4), (0x40A00000#32, 5), (0#32, 6), (0x40000000#32, 7)].map
    (fun x => ⟨fv x.1, 1000 + x.2, true⟩)

/-- 04_accumulation_and_error_bounds.md: the three rankings. -/
theorem test_topk : (rankTop 0 4 scoreRow).map (fun c => c.pos) = [1005, 1000, 1002, 1007] ∧
    (rankTop 2 4 scoreRow).map (fun c => c.pos) = [1001, 1005, 1000, 1002] ∧
    (rankTop 1 8 scoreRow).map (fun c => c.pos) = [1001, 1004, 1006, 1007, 1000, 1002, 1005] := by decide +kernel

/-- 07_vector_and_row_engines.md: six logits in two chunks under s2 = 1. -/
theorem test_softmax : (let s2 := f32Mul 0x3F317218#32 log2e
    let l (x : List Int) : List FVal := x.map fvInt
    let a := smaxChunk s2 0 (l [1, 3, 2]) (f32NegInf, Cell.zero)
    let b := smaxChunk s2 3 (l [5, 0, 4]) a
    s2 = 0x3F800000#32 ∧ a.2.s = 0x3FE00000#32 ∧ b.1 = 0x40A00000#32 ∧ b.2.s = 0x3FFC0000#32) := by decide +kernel

/-- 08_training_steps.md: a loss of 2.45 is accepted by monitor 0 past its warm-up, 2.55 is withheld. -/
theorem test_monitor : (let m : Monitor := { Monitor.reset with enable := true, mean := 0x4019999A#32, var := 0x39D1B717#32, posts := 1, steps := 300 }
    (judgeMonitor { m with sum := 0x401CCCCD#32 }).1 = 0 ∧ (judgeMonitor { m with sum := 0x401CCCCD#32 }).2.mean ≠ m.mean ∧
    (judgeMonitor { m with sum := 0x40233333#32 }).1 = wSPIKE ∧ (judgeMonitor { m with sum := 0x40233333#32 }).2.mean = m.mean) := by decide +kernel

/-- 09_scratchpad_and_bank_ownership.md: column 90 at 0xB100 lies in word 11 of banks 4 and 5. -/
theorem test_bank : bankOf 0 0xB100 = 4 ∧ bankOf 0 0xB140 = 5 ∧ 0xB100 / 4096 = 11 := by decide +kernel

/-- 14_checkpoint_store_and_check_values.md: CRC-32C of "123456789", its running value and its result. -/
theorem test_check_value : (let c : CrcCfg := ⟨32, 0x1EDC6F41, 0xFFFFFFFF, true, true, true⟩
    let v := crcFeed c c.init [0x31, 0x32, 0x33, 0x34, 0x35, 0x36, 0x37, 0x38, 0x39]
    v = 0x1CF96D7C ∧ crcResult c v = 0xE3069283) := by decide +kernel

/-- 15_clocks_budgets_and_power.md: patrol of STK7 at BUDGET 66, four periods. -/
theorem test_patrol_budget : (let s0 := setTtCell idle 0 7 5 ⟨66, 66, 0, 0, false⟩
    let s0 : State := { s0 with tt := { s0.tt with budgets := [(5, 66)] } }
    let s1 := ttRefill (ttCharge s0 0 7 5 1) 0 7 5
    let s3 := ttRefill (ttRefill s1 0 7 5) 0 7 5
    ttAdmits s0 0 7 5 = true ∧ (ttCell (ttCharge s0 0 7 5 1) 0 7 5).credit = -190 ∧ (ttCell s1 0 7 5).credit = -124 ∧ ttAdmits s1 0 7 5 = false ∧
    (ttCell s3 0 7 5).credit = 8 ∧ ttAdmits s3 0 7 5 = true) := by decide +kernel

/-- 12_host_link_and_mailboxes.md: the ALIVE example on ring 2. -/
theorem test_alive : (let st (e : Nat) (l : Option (Nat × Nat)) : State :=
      { idle with mb := { idle.mb with rings := [(0, { Ring.reset with prod := 1, first := false, e := e, last := l })] } }
    let msg (op alive seq : Nat) : Msg :=
      let x := packFields [(op, 16), (alive, 8), (0, 3), (0, 1), (0, 4), (seq, 32), (0, 8), (0, 8), (if op = 0x30 then 2 else if op = 0x32 then 8 else 0, 16), (0, 32)]
      { ring := 0, raw := BitVec.ofNat 1024 (x + 2 ^ 992 * crc32c (leBytes 124 x)), block := none, ageUs := 0 }
    let after (r : Sum State State) : Nat := match r with
      | .inl t => (ringOf t 0).e
      | .inr t => (ringOf t 0).e
    after (judge (st 0xFF none) (msg 2 0xFF 0x100)) = 0 ∧ (judge (st 0xFF none) (msg 2 0xFF 0x100)).isRight = true ∧
    after (judge (st 1 (some (0x30, 0x101))) (msg 0x30 0 0x101)) = 1 ∧ (judge (st 1 (some (0x30, 0x101))) (msg 0x30 0 0x101)).isRight = false ∧
    after (judge (st 1 (some (0x30, 0x101))) (msg 0x32 2 0x103)) = 1 ∧ after (judge (st 1 (some (0x30, 0x101))) (msg 0x32 1 0x102)) = 2) := by decide +kernel

/-- FIPS 180-4, SHA-512 of "abc", and test case 13 of the GCM specification (AES-256, all zero), which 16_security_tenancy_and_debug.md names by
their standards. -/
theorem test_crypto : (digestBytes [0x61, 0x62, 0x63]).take 8 = [0xdd, 0xaf, 0x35, 0xa1, 0x93, 0x61, 0x7a, 0xba] ∧
    leBytes 16 (gcmTag 0 0 [] []).toNat = [0x53, 0x0f, 0x8a, 0xfb, 0xc7, 0x45, 0x36, 0xb9, 0xa9, 0x63, 0xb4, 0xf1, 0xc4, 0xcb, 0x73, 0x8b] := by
  decide +kernel

end Sys2Proof.Tests
end

section
/-! PROOFS. What a register write does: the host's to a register of the mailbox page, the firmware's to a hub register (R7). -/

namespace Sys2Proof.Machine

theorem exec_registerWrite (host : Bool) (addr : Nat) (v : Word64) (s : State) :
    exec (.registerWrite host addr v) s = execRegisterWrite host addr v s := rfl

theorem execRegisterWrite_host {s : State} (up : apertureUp s = true) (o : Nat) (v : Word64) :
    execRegisterWrite true o v s = .next (mbWrite s o v.toNat) := by
  simp [execRegisterWrite, up]

theorem execRegisterWrite_firmware {s : State} (runs : hubRuns s = true) (up : s.boot.phase = .up) (o : Nat) (v : Word64) :
    execRegisterWrite false (0x7F0000000000 + o) v s = .next (hubWrite s o v.toNat) := by
  simp [execRegisterWrite, runs, up]

theorem inReg_iff (o base n : Nat) : inReg o base n = true ↔ base ≤ o ∧ o < base + n := by
  simp [inReg]

theorem inReg_eq_false_iff (o base n : Nat) : inReg o base n = false ↔ o < base ∨ base + n ≤ o := by
  rw [← Bool.not_eq_true, inReg_iff]
  omega

/-! The mailbox page (Table 12-2) -/

/-- The first register of a ring is RING_BASE, which takes bits [46:15] while EN = 0. -/
theorem mbWrite_ringBase {s : State} {r : Nat} (hr : r < 6) (off : s.mb.en = false) (v : Nat) :
    mbWrite s (0x100 + 0x20 * r) v = modRing s r (fun g => { g with base := natBits v 15 32 }) := by
  have aligned : (0x100 + 0x20 * r) % 8 = 0 := by omega
  have inRings : inReg (0x100 + 0x20 * r) 0x100 0xC0 = true := (inReg_iff ..).2 (by omega)
  simp [mbWrite, aligned, inRings, off]

/-- Past MB_CTL only the rings and the host windows hold fields that a write changes. -/
theorem mbWrite_readOnly (s : State) {o : Nat} (notCtl : o ≠ 0) (notRing : inReg o 0x100 0xC0 = false)
    (notHwin : inReg o 0x400 0x200 = false) (v : Nat) : mbWrite s o v = s := by
  simp [mbWrite, notCtl, notRing, notHwin]

/-- MB_STAT, the two words of MB_REFUSE and MB_DISCARD lie outside the rings and the host windows. -/
theorem mbWrite_statusOrCounter (s : State) {o : Nat} (ho : o = 8 ∨ o = 0x10 ∨ o = 0x18 ∨ o = 0x20) (v : Nat) : mbWrite s o v = s :=
  mbWrite_readOnly s (by omega) ((inReg_eq_false_iff ..).2 (by omega)) ((inReg_eq_false_iff ..).2 (by omega)) v

/-! The hub registers -/

theorem hubWrite_opxCtl (s : State) {lc : Nat} (hlc : lc < 256) (v : Nat) : hubWrite s (0x200000 + 0x40 * lc) v = writeOpxCtl s lc v := by
  have aligned : (0x200000 + 0x40 * lc) % 8 = 0 := by omega
  have inOpx : inReg (0x200000 + 0x40 * lc) 0x200000 0x4000 = true := (inReg_iff ..).2 (by omega)
  have first : (0x200000 + 0x40 * lc) % 0x40 = 0 := by omega
  simp [hubWrite, aligned, inOpx, first]

theorem opxMay_of_not_running {s : State} (notRunning : s.op ≠ .running) (notPaused : s.op ≠ .paused) (lc : Nat) : opxMay s lc = true := by
  simp [opxMay, notRunning, notPaused]

theorem writeOpxCtl_inRange {s : State} {lc v : Nat} (may : opxMay s lc = true) (ramp : natBits v 0 3 ≤ 4) (base : natBits v 4 10 ≤ 0x3BC) :
    writeOpxCtl s lc v = modCluster s lc (fun c => { c with opx := { c.opx with ramp := natBits v 0 3, saveBase := natBits v 4 10 } }) := by
  simp [writeOpxCtl, may, ramp, base]

/-- The hub registers with a field of access code RW or WO: the outer-product engines, the banks, the ports, the check-value units, WAKE_CFG. -/
def hubWritable (o : Nat) : Bool :=
  inReg o 0x200000 0x4000 || inReg o 0x600000 0x4000 || inReg o 0xA00000 0x800 || inReg o 0xD00000 0x200 || o == 0xF10010

theorem hubWrite_readOnly (s : State) {o : Nat} (ro : hubWritable o = false) (v : Nat) : hubWrite s o v = s := by
  simp only [hubWritable, Bool.or_eq_false_iff, beq_eq_false_iff_ne] at ro
  obtain ⟨⟨⟨⟨notOpx, notBank⟩, notPort⟩, notCv⟩, notWake⟩ := ro
  simp [hubWrite, notOpx, notBank, notPort, notCv, notWake]

theorem hubWrite_wakeCfg (s : State) (v : Nat) : hubWrite s 0xF10010 v = { s with slp := { s.slp with cfg := natBits v 0 23 } } := rfl

/-- The map, the security, the sleep status and the start-up registers hold no writable field. -/
theorem hubWritable_mapOrStatus {o : Nat}
    (ho : 0x10000 ≤ o ∧ o < 0x10400 ∨ 0xF20000 ≤ o ∧ o < 0xF20018 ∨ o = 0xF10000 ∨ o = 0xF10008 ∨ 0xF30000 ≤ o ∧ o < 0xF30010) :
    hubWritable o = false := by
  simp only [hubWritable, Bool.or_eq_false_iff, inReg_eq_false_iff, beq_eq_false_iff_ne]
  omega

/-- Settles O23, register by register: the access becomes `mbWrite` or `hubWrite`, and each of these has an equation per kind of register. -/
theorem registerWriteFollowsAccessCode : Obligations.RegisterWriteFollowsAccessCode := by
  unfold Obligations.RegisterWriteFollowsAccessCode
  simp only [exec_registerWrite]
  refine ⟨?ringBase, ?pageStatus, ?opxCtl, ?wakeCfg, ?hubStatus⟩
  case ringBase =>
    intro s r v up hr off
    rw [execRegisterWrite_host up, mbWrite_ringBase hr off, bits]
  case pageStatus =>
    intro s o v up ho
    rw [execRegisterWrite_host up, mbWrite_statusOrCounter s ho]
  case opxCtl =>
    intro s lc v runs up hlc notRunning notPaused ramp base
    have address : 0x7F0000200000 + 0x40 * lc = 0x7F0000000000 + (0x200000 + 0x40 * lc) := by omega
    rw [address, execRegisterWrite_firmware runs up, hubWrite_opxCtl s hlc,
      writeOpxCtl_inRange (opxMay_of_not_running notRunning notPaused lc) ramp base, bits, bits]
  case wakeCfg =>
    intro s v runs up
    exact (execRegisterWrite_firmware runs up 0xF10010 v).trans (by rw [hubWrite_wakeCfg, bits])
  case hubStatus =>
    intro s o v runs up _ ho
    rw [execRegisterWrite_firmware runs up, hubWrite_readOnly s (hubWritable_mapOrStatus ho)]

end Sys2Proof.Machine
end

section
/-! PROOFS. The two views of DRAM (R24, R25): each has an inverse that takes a byte of a stack to its one address. -/

namespace Sys2Proof.Machine

/-! The interleaved view (R24) -/

/-- How far R24 turns the twelve granules of group q. -/
def granuleTurn (q : Nat) : Nat := (natBits q 0 4 ^^^ natBits q 4 4 ^^^ natBits q 8 4 ^^^ natBits q 12 4) % 12

theorem granuleTurn_lt (q : Nat) : granuleTurn q < 12 := Nat.mod_lt _ (by decide)

theorem interleaved_eq (a : Nat) :
    interleaved a = ((a / 4096 % 12 + granuleTurn (a / 4096 / 12)) % 12, a / 4096 / 12 * 4096 + a % 4096) := rfl

theorem locate_interleaved {a : Nat} (ha : a < 12 * 2 ^ 37) : locate a = .dram (interleaved a).1 (interleaved a).2 :=
  if_pos ha

/-- The granule of group q that lies in stack k. -/
def granuleIn (k q : Nat) : Nat := (k + 12 - granuleTurn q) % 12

theorem granuleIn_lt (k q : Nat) : granuleIn k q < 12 := Nat.mod_lt _ (by decide)

/-- Turning the granules of a group is undone by turning back. -/
theorem granule_turned_iff {k r : Nat} (q : Nat) (hk : k < 12) (hr : r < 12) : (r + granuleTurn q) % 12 = k ↔ r = granuleIn k q := by
  have := granuleTurn_lt q
  unfold granuleIn
  omega

/-- The interleaved address of byte l of stack k. -/
def interleavedAddr (k l : Nat) : Nat := (12 * (l / 4096) + granuleIn k (l / 4096)) * 4096 + l % 4096

theorem interleavedAddr_lt (k : Nat) {l : Nat} (hl : l < 2 ^ 37) : interleavedAddr k l < 12 * 2 ^ 37 := by
  have := granuleIn_lt k (l / 4096)
  unfold interleavedAddr
  omega

theorem interleaved_eq_iff {a k l : Nat} (hk : k < 12) : interleaved a = (k, l) ↔ a = interleavedAddr k l := by
  have home := granuleIn_lt k (l / 4096)
  rw [interleaved_eq, Prod.mk.injEq, interleavedAddr]
  constructor
  · rintro ⟨stack, offset⟩
    have group : a / 4096 / 12 = l / 4096 := by omega
    rw [group, granule_turned_iff _ hk (by omega)] at stack
    omega
  · intro ha
    have group : a / 4096 / 12 = l / 4096 := by omega
    rw [group, granule_turned_iff _ hk (by omega)]
    omega

theorem locate_eq_dram_iff_interleaved {a k l : Nat} (ha : a < 12 * 2 ^ 37) (hk : k < 12) :
    locate a = .dram k l ↔ a = interleavedAddr k l := by
  rw [locate_interleaved ha, ← interleaved_eq_iff hk, Loc.dram.injEq, Prod.ext_iff]

/-! The local views (R25) -/

theorem locate_section {s b : Nat} (hs : s < 4) (hb : b < 2 ^ 39) :
    locate (0x040000000000 + s * 0x008000000000 + b) =
      if b < 3 * 2 ^ 37 then .dram (localView s b).1 (localView s b).2 else .hole := by
  have sect : (0x040000000000 + s * 0x008000000000 + b - 0x040000000000) / 0x008000000000 = s := by omega
  have byte : (0x040000000000 + s * 0x008000000000 + b - 0x040000000000) % 0x008000000000 = b := by omega
  rw [locate, if_neg (by omega), if_pos (by omega), sect, byte]
  rfl

/-- Byte l of stack k in the local view of its section, counted from the base of the view. -/
def localAddr (k l : Nat) : Nat := (3 * (l / 4096) + k % 3) * 4096 + l % 4096

theorem localAddr_lt (k : Nat) {l : Nat} (hl : l < 2 ^ 37) : localAddr k l < 3 * 2 ^ 37 := by
  unfold localAddr
  omega

theorem localView_eq_iff (k l b : Nat) : localView (k / 3) b = (k, l) ↔ b = localAddr k l := by
  rw [localView, Prod.mk.injEq, localAddr]
  omega

theorem locate_eq_dram_iff_local {k l b : Nat} (hk : k < 12) (hb : b < 3 * 2 ^ 37) :
    locate (0x040000000000 + k / 3 * 0x008000000000 + b) = .dram k l ↔ b = localAddr k l := by
  rw [locate_section (by omega) (by omega), if_pos hb, ← localView_eq_iff, Loc.dram.injEq, Prod.ext_iff]

/-- Settles O60: `interleavedAddr` and `localAddr` are the inverses of the two views. -/
theorem dramViewsReachEachByteOnce : Obligations.DramViewsReachEachByteOnce := by
  unfold Obligations.DramViewsReachEachByteOnce
  refine ⟨?interleavedRule, ?groupOverStacks, ?interleavedOnce, ?localRule, ?localOnce, ?localHole⟩
  case interleavedRule =>
    intro a ha
    rw [locate_interleaved ha, interleaved_eq]
    simp [granuleTurn, natBits, Nat.shiftRight_eq_div_pow]
  case groupOverStacks =>
    intro q k hq hk
    have home := granuleIn_lt k q
    have reach (r : Nat) (hr : r < 12) : locate ((12 * q + r) * 4096) = .dram k (q * 4096) ↔ r = granuleIn k q := by
      rw [locate_eq_dram_iff_interleaved (by omega) hk, interleavedAddr, Nat.mul_div_cancel _ (by decide)]
      omega
    exact ⟨granuleIn k q, ⟨home, (reach _ home).2 rfl⟩, fun r ⟨hr, at_k⟩ => (reach r hr).1 at_k⟩
  case interleavedOnce =>
    intro k l hk hl
    have bound := interleavedAddr_lt k hl
    exact ⟨interleavedAddr k l, ⟨bound, (locate_eq_dram_iff_interleaved bound hk).2 rfl⟩,
      fun a ⟨ha, reached⟩ => (locate_eq_dram_iff_interleaved ha hk).1 reached⟩
  case localRule =>
    intro s b hs hb
    rw [locate_section hs (by omega), if_pos hb, localView]
  case localOnce =>
    intro k l hk hl
    have bound := localAddr_lt k hl
    exact ⟨localAddr k l, ⟨bound, (locate_eq_dram_iff_local hk bound).2 rfl⟩,
      fun b ⟨hb, reached⟩ => (locate_eq_dram_iff_local hk hb).1 reached⟩
  case localHole =>
    intro s b hs hb hb'
    rw [locate_section hs hb', if_neg (by omega)]

end Sys2Proof.Machine
end

section
/-! PROOFS. A write through a cluster window into an available bank of the scratchpad (R27, R235, R241). -/

namespace Sys2Proof.Machine

/-! The check of a word and the forgetting of its errors leave the bytes of the three memories -/

@[simp] theorem eccRead_sp (m : ClMem) (mem w : Nat) (gs : List Nat) : (eccRead m mem w gs).1.sp = m.sp := by
  unfold eccRead; dsimp only; split_ifs <;> rfl
@[simp] theorem eccRead_side (m : ClMem) (mem w : Nat) (gs : List Nat) : (eccRead m mem w gs).1.side = m.side := by
  unfold eccRead; dsimp only; split_ifs <;> rfl
@[simp] theorem eccRead_seqm (m : ClMem) (mem w : Nat) (gs : List Nat) : (eccRead m mem w gs).1.seqm = m.seqm := by
  unfold eccRead; dsimp only; split_ifs <;> rfl

@[simp] theorem setEccTab_sp (m : ClMem) (mem : Nat) (t : Sparse EccKind) : (setEccTab m mem t).sp = m.sp := by
  unfold setEccTab; split_ifs <;> rfl
@[simp] theorem setEccTab_side (m : ClMem) (mem : Nat) (t : Sparse EccKind) : (setEccTab m mem t).side = m.side := by
  unfold setEccTab; split_ifs <;> rfl
@[simp] theorem setEccTab_seqm (m : ClMem) (mem : Nat) (t : Sparse EccKind) : (setEccTab m mem t).seqm = m.seqm := by
  unfold setEccTab; split_ifs <;> rfl

/-! A write within one scratchpad word changes the bytes written and no byte of the other memories -/

@[simp] theorem spWriteUnit_sp (m : ClMem) (a : Nat) (l : List Byte) (poison : Bool) (tag : Nat) :
    (spWriteUnit m a l poison tag).sp = memWrite m.sp a l := by
  simp [spWriteUnit, eccClear, apply_ite]
@[simp] theorem spWriteUnit_side (m : ClMem) (a : Nat) (l : List Byte) (poison : Bool) (tag : Nat) :
    (spWriteUnit m a l poison tag).side = m.side := by
  simp [spWriteUnit, eccClear, apply_ite]
@[simp] theorem spWriteUnit_seqm (m : ClMem) (a : Nat) (l : List Byte) (poison : Bool) (tag : Nat) :
    (spWriteUnit m a l poison tag).seqm = m.seqm := by
  simp [spWriteUnit, eccClear, apply_ite]

/-! The window -/

/-- Table 1-5: the scratchpad begins at offset 0. -/
theorem windowMem_scratchpad {a : Nat} (ha : a < 0x400000) : windowMem a = some (0, a) := if_pos ha

/-- A bank at ENGINES takes window accesses. -/
theorem windowDenied_of_engines {c : Cluster} {mem bank : Nat} (h : tablet c.mem mem bank = 0) : windowDenied c mem bank = false := by
  simp [windowDenied, h]

theorem winWrite_scratchpad {s : State} {lc a : Nat} (mapped : (lcEntry s lc).mapped = true) (ha : a < 0x400000)
    (engines : tablet (cluster s lc).mem 0 (bankOf 0 a) = 0) (l : List Byte) (poison : Bool) (tag : Nat) :
    winWrite s lc a l poison tag = noteInbound (modMem s lc (fun m => spWriteUnit m a l poison tag)) lc a := by
  simp [winWrite, mapped, windowMem_scratchpad ha, windowDenied_of_engines engines]

/-- Settles O25: the write is one write of a scratchpad word, noted as inbound. -/
theorem scratchpadWindowWriteReadsBack : Obligations.ScratchpadWindowWriteReadsBack := by
  unfold Obligations.ScratchpadWindowWriteReadsBack
  intro s lc a l tag inv mapped nonempty _ inside engines
  have wf : Memory.wf (cluster s lc).mem.sp = true := ((sound_iff.2 ⟨rfl, inv⟩).cluster).mem.sp
  refine ⟨{ cluster s lc with mem := spWriteUnit (cluster s lc).mem a l false tag }, ?written, ?readsBack, ?otherBytes,
    spWriteUnit_side .., spWriteUnit_seqm .., rfl, rfl⟩
  case written => exact winWrite_scratchpad mapped (by omega) engines l false tag
  case readsBack => rw [spWriteUnit_sp, memRead_memWrite wf]
  case otherBytes =>
    intro b outside
    rw [spWriteUnit_sp, memByte_memWrite_out wf outside]

end Sys2Proof.Machine
end

section
/-! PROOFS. What the updates of a pass do to a cell of its bank (R62, R96, R98, R104). -/

namespace Sys2Proof.Machine

/-! Tables built from a function of their keys -/

section
variable {α : Type} [DecidableEq α] {d : α} {f : Nat → α}

theorem spGet_filterMap_range' (lo n x : Nat) :
    spGet d ((List.range' lo n).filterMap (fun k => if f k = d then none else some (k, f k))) x =
      if lo ≤ x ∧ x < lo + n then f x else d := by
  induction n generalizing lo with
  | zero => simp [spGet]
  | succ n ih =>
    rw [List.range'_succ]
    by_cases unlisted : f lo = d
    · rw [List.filterMap_cons_none (by simp [unlisted]), ih]
      grind
    · rw [List.filterMap_cons_some (by simp [unlisted]; rfl), spGet, ih]
      grind

theorem spGet_spTab {n x : Nat} (hx : x < n) : spGet d (spTab d n f) x = f x := by
  have read := spGet_filterMap_range' (d := d) (f := f) 0 n x
  rw [if_pos (by omega), ← List.range_eq_range'] at read
  exact read

end

/-! One cell of a pass -/

/-- One exact product into a cell, in the mode of chain count n (R96, R104). -/
def accTerm (isInt : Bool) (n : Nat) (x : Cell) (p : FVal) : Cell := if isInt then accInt x (fvToIntExact p) else accFloat n x p

theorem runCell_concat (isInt : Bool) (i j n : Nat) (cols : List (Col × Col)) (a b : Col) (x : Cell) :
    runCell isInt i j n (cols ++ [(a, b)]) x =
      accTerm isInt (n + cols.length + 1) (runCell isInt i j n cols x) (fvMul (a.at i) (b.at j)) := by
  induction cols generalizing n x with
  | nil => rfl
  | cons c cols ih =>
    have count : n + (c :: cols).length = n + 1 + cols.length := by rw [List.length_cons]; omega
    rw [List.cons_append, runCell, ih, count, runCell]

theorem applyPass_cell (b : Bank) (isInt paired : Bool) (cols : List (Col × Col)) (aon last : Nat) {i j : Nat} (hi : i < 128) (hj : j < 128) :
    spGet Cell.zero (applyPass b isInt paired cols aon last).cells (128 * i + j) =
      runCell isInt i j b.n cols (spGet Cell.zero b.cells (128 * i + j)) := by
  have row : (128 * i + j) / 128 = i := by omega
  have column : (128 * i + j) % 128 = j := by omega
  rw [applyPass, spGet_spTab (by omega), row, column]

theorem applyPass_cell_concat (b : Bank) (isInt paired : Bool) (cols : List (Col × Col)) (x y : Col) (aon last : Nat) {i j : Nat}
    (hi : i < 128) (hj : j < 128) :
    spGet Cell.zero (applyPass b isInt paired (cols ++ [(x, y)]) aon last).cells (128 * i + j) =
      accTerm isInt (b.n + cols.length + 1) (spGet Cell.zero (applyPass b isInt paired cols aon last).cells (128 * i + j))
        (fvMul (x.at i) (y.at j)) := by
  rw [applyPass_cell b isInt paired _ aon last hi hj, runCell_concat, applyPass_cell b isInt paired cols aon last hi hj]

/-! The modes of Table 4-1, for values that stay finite (R96) -/

theorem accFloat_standard {n : Nat} {x : Cell} {p : FVal} (hn : n ≤ nStd) (sFinite : fvFinite (fv x.s) = true) (pFinite : fvFinite p = true)
    (sumFinite : f32Finite (rne (fvAdd .rne (fv x.s) p)) = true) :
    accFloat n x p = ⟨rne (fvAdd .rne (fv x.s) p),
      rne (fvAdd .rne (fv x.c) (fvSub .rne (fvAdd .rne (fv x.s) p) (fv (rne (fvAdd .rne (fv x.s) p)))))⟩ := by
  simp [accFloat, hn, sFinite, pFinite, sumFinite]

theorem accFloat_compensated {n : Nat} {x : Cell} {p : FVal} (hn : nStd < n) (hn' : n ≤ nComp) (sFinite : fvFinite (fv x.s) = true)
    (termFinite : fvFinite (fvAdd .rne p (fv x.c)) = true) (sumFinite : f32Finite (rne (fvAdd .rne (fv x.s) (fvAdd .rne p (fv x.c)))) = true) :
    accFloat n x p = ⟨rne (fvAdd .rne (fv x.s) (fvAdd .rne p (fv x.c))),
      rne (fvSub .rne (fvAdd .rne (fv x.s) (fvAdd .rne p (fv x.c))) (fv (rne (fvAdd .rne (fv x.s) (fvAdd .rne p (fv x.c))))))⟩ := by
  simp [accFloat, Nat.not_le.2 hn, hn', sFinite, termFinite, sumFinite]

theorem accFloat_unbounded {n : Nat} {x : Cell} {p : FVal} (hn : nComp < n) (sFinite : fvFinite (fv x.s) = true) (pFinite : fvFinite p = true)
    (sumFinite : f32Finite (rne (fvAdd .rne (fv x.s) p)) = true) : accFloat n x p = ⟨rne (fvAdd .rne (fv x.s) p), x.c⟩ := by
  have above : nStd < n := Nat.lt_trans (by decide) hn
  simp [accFloat, Nat.not_le.2 above, Nat.not_le.2 hn, sFinite, pFinite, sumFinite]

/-! INT8 products (R104) -/

theorem accInt_out {x : Cell} (p : Int) (out : natBits x.c.toNat 0 1 = 1) : accInt x p = x := if_pos out

theorem accInt_of_clear {x : Cell} (p : Int) (clear : natBits x.c.toNat 0 1 = 0) :
    accInt x p = if x.s.toInt + p < -(2 ^ 31) then ⟨0x80000000#32, 1⟩ else if 2 ^ 31 ≤ x.s.toInt + p then ⟨0x7FFFFFFF#32, 1⟩
      else ⟨BitVec.ofInt 32 (x.s.toInt + p), 0⟩ :=
  if_neg (by rw [clear]; decide)

theorem accInt_inRange {x : Cell} {p : Int} (clear : natBits x.c.toNat 0 1 = 0) (low : -(2 ^ 31) ≤ x.s.toInt + p)
    (high : x.s.toInt + p < 2 ^ 31) : accInt x p = ⟨BitVec.ofInt 32 (x.s.toInt + p), 0⟩ := by
  rw [accInt_of_clear p clear, if_neg (Int.not_lt.2 low), if_neg (Int.not_le.2 high)]

theorem accInt_above {x : Cell} {p : Int} (clear : natBits x.c.toNat 0 1 = 0) (high : 2 ^ 31 ≤ x.s.toInt + p) :
    accInt x p = ⟨0x7FFFFFFF#32, 1⟩ := by
  rw [accInt_of_clear p clear, if_neg (by omega), if_pos high]

theorem accInt_below {x : Cell} {p : Int} (clear : natBits x.c.toNat 0 1 = 0) (low : x.s.toInt + p < -(2 ^ 31)) :
    accInt x p = ⟨0x80000000#32, 1⟩ := by
  rw [accInt_of_clear p clear, if_pos low]

/-- Settles O52: a cell runs through the columns in order, so that the last pair is the last term; each mode has its equation. -/
theorem passAccumulatesInOrder : Obligations.PassAccumulatesInOrder := by
  unfold Obligations.PassAccumulatesInOrder
  refine ⟨?longer, ?none, ?standard, ?compensated, ?unbounded, ?inRange, ?out, ?above, ?below⟩
  case longer =>
    intro b int p cols x y t last i j hi hj
    refine ⟨applyPass_cell_concat b int p cols x y t last hi hj, ?_, rfl, rfl⟩
    rw [applyPass, chain, List.length_append, List.length_singleton, Nat.add_assoc]
  case none =>
    intro b int p t last i j hi hj
    rw [applyPass_cell b int p [] t last hi hj, runCell]
  case standard =>
    intro n x p sFinite pFinite hn sumFinite
    rw [accFloat_standard hn sFinite pFinite sumFinite]
    exact ⟨rfl, rfl⟩
  case compensated =>
    intro n x p y sFinite termFinite hn hn' sumFinite
    rw [accFloat_compensated hn hn' sFinite termFinite sumFinite]
    exact ⟨rfl, rfl⟩
  case unbounded =>
    intro n x p sFinite pFinite hn sumFinite
    exact accFloat_unbounded hn sFinite pFinite sumFinite
  case inRange =>
    intro x p clear low high
    rw [accInt_inRange clear low high]
    exact ⟨BitVec.toInt_ofInt_eq_self (by decide) low high, rfl⟩
  case out => exact fun x p => accInt_out p
  case above => exact fun x p => accInt_above
  case below => exact fun x p => accInt_below

end Sys2Proof.Machine
end

section
/-! PROOFS. A cluster reports itself paused, and the consist ends (R90, R91, R345). -/

namespace Sys2Proof.Machine

theorem exec_clusterPaused (lc : Nat) (s : State) : exec (.clusterPaused lc) s = execClusterPaused lc s := rfl
theorem exec_consistEnd (s : State) : exec .consistEnd s = execConsistEnd s := rfl

/-- The cluster with both banks saved, A before B, and reported paused (R90 step 4). -/
def pausedCluster (lc : Nat) (c : Cluster) : Cluster :=
  { (saveBank lc true (saveBank lc false c)) with
    pausing := false, pausedOk := true, opx := { (saveBank lc true (saveBank lc false c)).opx with paused := true } }

/-- A stopped cluster owes its conveyor nothing; another waits for it (R90, R496). -/
theorem mayPause_iff (c : Cluster) :
    mayPause c = true ↔ c.pausing = true ∧ c.opx.hold = 3 ∧ (c.seq.stop.isSome = true ∨ c.opx.conv = [] ∧ c.opx.convWait = []) := by
  simp [mayPause, and_assoc]

theorem execClusterPaused_of_mayPause {s : State} {lc : Nat} (run : s.op = .running) (inConsist : (cluster s lc).inConsist = true)
    (may : mayPause (cluster s lc) = true) :
    execClusterPaused lc s =
      if (consistLcs (modCluster s lc (pausedCluster lc))).all (fun k => (cluster (modCluster s lc (pausedCluster lc)) k).pausedOk) then
        .next (flushEvents (answerPause (setOp (modCluster s lc (pausedCluster lc)) .paused)))
      else .next (modCluster s lc (pausedCluster lc)) :=
  if_neg (by simp [run, inConsist, may])

/-- The cluster back at the start of its part, and no longer asked to pause (R345). -/
def endedCluster (c : Cluster) : Cluster := setHold { c with seq := { c.seq with wait := .start }, pausing := false }

/-- Has the cluster retired its last command without a stop? -/
def hasEnded (c : Cluster) : Prop := c.seq.wait = .done ∧ quiet c = true ∧ c.seq.stop = none

theorem execConsistEnd_of_ended {s : State} (run : s.op = .running) (loaded : s.prog.loaded = true)
    (ended : ∀ lc, lc ∈ consistLcs s → hasEnded (cluster s lc)) :
    execConsistEnd s = .next (flushEvents (answerPause
      (logEvent (setOp ((consistLcs s).foldl (fun u lc => modCluster u lc endedCluster) s) .loaded) 0x000C 7 7 0 noLink 0))) := by
  have retired : (consistLcs s).all (fun lc =>
      (cluster s lc).seq.wait == .done && quiet (cluster s lc) && (cluster s lc).seq.stop.isNone) = true := by
    rw [List.all_eq_true]
    intro lc member
    obtain ⟨done, empty, running⟩ := ended lc member
    simp [done, empty, running]
  exact if_pos ⟨run, loaded, retired⟩

/-- Settles O20: the guard of each event holds, and its effect is the stated one. -/
theorem pauseAndEndOfConsist : Obligations.PauseAndEndOfConsist := by
  unfold Obligations.PauseAndEndOfConsist
  constructor
  · intro s lc run inConsist pausing hold idle
    rw [exec_clusterPaused]
    exact execClusterPaused_of_mayPause run inConsist ((mayPause_iff _).2 ⟨pausing, hold, idle⟩)
  · intro s run loaded ended
    rw [exec_consistEnd]
    exact execConsistEnd_of_ended run loaded ended

end Sys2Proof.Machine
end

section
/-! PROOFS. The conveyor's events, automatic surveys, idle arrays and current clamps (R73, R77, R79, R84, R85, R496). -/

namespace Sys2Proof.Machine

theorem exec_conveyorDeferredStart (lc : Nat) (s : State) : exec (.conveyorDeferredStart lc) s = .next (conveyorDeferred s lc) := rfl
theorem exec_conveyorComplete (lc : Nat) (s : State) : exec (.conveyorComplete lc) s = .next (conveyorDone s lc) := rfl
theorem exec_autoSurvey (lc : Nat) (bank : Bool) (s : State) : exec (.autoSurvey lc bank) s = .next (autoSurveyOp s lc bank) := rfl
theorem exec_arrayIdle (lc cyc : Nat) (s : State) : exec (.arrayIdle ⟨lc, cyc⟩) s = .next (arrayIdleOp s lc cyc) := rfl
theorem exec_currentClamp (lc cyc n : Nat) (s : State) : exec (.currentClamp ⟨lc, cyc, n⟩) s = .next (clampOp s lc cyc n) := rfl
theorem exec_clampEnd (x : ClampOver) (lc : Nat) (s : State) : exec (.clampEnd lc x) s = execClampEnd lc x s := rfl

section
variable {s : State} {lc : Nat}

/-! The conveyor (R73) -/

theorem conveyorDeferred_of_waiting {e : QEntry} {r : List QEntry} {t : Nat} (waiting : (cluster s lc).opx.convWait = e :: r)
    (last : convEnd (cluster s lc).opx = some t) (moves : shifts s lc = true) :
    conveyorDeferred s lc = convStart (modOpx s lc (fun o => { o with convWait := r })) lc e (t + 1) := by
  simp [conveyorDeferred, waiting, last, moves]

/-- The oldest operation k leaves, r stays: but for a survey its bank's parity flips, and but for a pause the cycle after its last shift
has been reached (R73, R90). `o` is the engine before. -/
def afterConveyor (o : Opx) (k : ConvOp) (r : List ConvOp) (c : Cluster) : Cluster :=
  let b := bankOfB o k.bank
  let c := { c with opx := { (setBank c.opx k.bank (if k.kind = .survey then b else { b with parity := !b.parity })) with conv := r } }
  if c.pausing then c else atCycle c (k.start + k.len)

theorem conveyorDone_of_oldest {k : ConvOp} {r : List ConvOp} (oldest : (cluster s lc).opx.conv = k :: r) (moves : shifts s lc = true)
    (place : r ≠ [] ∨ (cluster s lc).opx.convWait = []) :
    conveyorDone s lc = dispatch (modCluster s lc (afterConveyor (cluster s lc).opx k r)) lc := by
  have goes : ¬ ((!(shifts s lc)) = true ∨ (r.isEmpty = true ∧ (!(cluster s lc).opx.convWait.isEmpty) = true)) := by
    rcases place with more | alone
    · simp [moves, more]
    · simp [moves, alone]
  simp only [conveyorDone, oldest]
  exact if_neg goes

/-! Automatic surveys (R84, R85) -/

theorem autoSurveyOp_begins {k : Bool} (run : running s lc = true) (other : (cluster s lc).opx.survey ≠ some k)
    (conv : (cluster s lc).opx.conv = []) (convWait : (cluster s lc).opx.convWait = [])
    (due : surveyDue s (bankOfB (cluster s lc).opx k) = true) : autoSurveyOp s lc k = surveyBegin s lc k := by
  simp [autoSurveyOp, run, other, conv, convWait, due]

theorem autoSurveyOp_ends {k : Bool} (work : atWork s lc = true) (survey : (cluster s lc).opx.survey = some k)
    (hold : (cluster s lc).opx.hold = 2) : autoSurveyOp s lc k = surveyEnd s lc k := by
  simp [autoSurveyOp, work, survey, hold]

/-- The cluster after the survey of bank k, which took what it held from the engine `o` (R84, R85). -/
def surveyedCluster (o : Opx) (k : Bool) (c : Cluster) : Cluster :=
  setHold { c with opx := { (setBank c.opx k (surveyBank (bankOfB o k) (surveyResult (bankOfB o k)))) with survey := none } }

theorem surveyEnd_of_match {k : Bool} (good : (surveyResult (bankOfB (cluster s lc).opx k)).mismatch = false) :
    surveyEnd s lc k = dispatch (modCluster s lc (surveyedCluster (cluster s lc).opx k)) lc :=
  if_neg (by rw [good]; decide)

theorem surveyEnd_of_mismatch {k : Bool} (bad : (surveyResult (bankOfB (cluster s lc).opx k)).mismatch = true) :
    surveyEnd s lc k = raiseChecksum (modCluster s lc (surveyedCluster (cluster s lc).opx k)) lc
      (statusWord (bankOfB (cluster s lc).opx k) k (surveyResult (bankOfB (cluster s lc).opx k)) (cluster s lc).opx.drainSeq
        (cluster s lc).seq.icyc).toNat :=
  if_pos bad

/-! The idle array (R77) -/

theorem arrayIdleOp_of_due {cyc d : Nat}
    (due : disableFrom (maxWave (cluster s lc).opx.wave0 (cluster s lc).opx.wave1) (cluster s lc).opx.rowsOn = some d)
    (reached : d ≤ cyc) (open0 : (cluster s lc).opx.open0 = none) (open1 : (cluster s lc).opx.open1 = none)
    (mapped : (lcEntry s lc).mapped = true) (hold : (cluster s lc).opx.hold = 0) :
    arrayIdleOp s lc cyc = modCluster s lc (fun c => atCycle { c with opx := { c.opx with idle := true } } cyc) := by
  simp [arrayIdleOp, due, reached, open0, open1, mapped, hold]

theorem arrayIdleOp_of_early {cyc d : Nat}
    (due : disableFrom (maxWave (cluster s lc).opx.wave0 (cluster s lc).opx.wave1) (cluster s lc).opx.rowsOn = some d)
    (early : cyc < d) : arrayIdleOp s lc cyc = s := by
  simp [arrayIdleOp, due, Nat.not_le.2 early]

/-! The current clamp (R79) -/

/-- The cluster that an excursion in cycle cyc holds with its rows disabled, after n cycles of the ramp that it cuts (R79). -/
def clampedCluster (cyc n : Nat) (c : Cluster) : Cluster :=
  addLost (setHold { c with opx := { c.opx with
      clampRows := true, clampRamp := false, evClamps := satAdd 16 c.opx.evClamps 1,
      rowsOn := some (if c.pausing || c.pausedOk then c.opx.issueAt else max cyc (issueCount c)) } })
    (if c.opx.clampRamp then min n (rampLen c.opx.ramp) else 0)

theorem clampOp_of_free {cyc n : Nat} (mapped : (lcEntry s lc).mapped = true) (free : (cluster s lc).opx.clampRows = false) :
    clampOp s lc cyc n = modCluster s lc (clampedCluster cyc n) :=
  if_neg (by simp [mapped, free])

theorem clampOp_of_clamped {cyc n : Nat} (clamped : (cluster s lc).opx.clampRows = true) : clampOp s lc cyc n = s :=
  if_pos (by simp [clamped])

theorem execClampEnd_of_rows (x : ClampOver) (rows : (cluster s lc).opx.clampRows = true) :
    let t := clampRampOp s lc (if x.persists then 64 else x.cycles)
    execClampEnd lc x s = .next (if x.persists then sampleOnChange t (clampSlower t (secOf lc)) else t) :=
  if_pos rows

theorem execClampEnd_of_ramp (x : ClampOver) (rows : (cluster s lc).opx.clampRows = false) (ramp : (cluster s lc).opx.clampRamp = true) :
    let t := clampDoneOp s lc
    execClampEnd lc x s = .next (if t.op = .running ∧ (cluster t lc).pausedOk then resumeCluster t lc else t) := by
  simp [execClampEnd, rows, ramp]

theorem execClampEnd_of_none (x : ClampOver) (rows : (cluster s lc).opx.clampRows = false) (ramp : (cluster s lc).opx.clampRamp = false) :
    execClampEnd lc x s = .next s := by
  simp [execClampEnd, rows, ramp]

end

/-- Settles O51: the guard of each event decides its branch, and the branch is the stated effect. -/
theorem conveyorAndClampEventsComplete : Obligations.ConveyorAndClampEventsComplete := by
  unfold Obligations.ConveyorAndClampEventsComplete
  refine ⟨?deferred, ?complete, ?surveyBegins, ?surveyEnds, ?arrayIdle, ?clamp, ?clampAgain, ?clampRamp, ?clampOver, ?noClamp⟩
  case deferred =>
    intro s lc e r t waiting last moves
    rw [exec_conveyorDeferredStart, conveyorDeferred_of_waiting waiting last moves]
  case complete =>
    intro s lc k r oldest moves place
    rw [exec_conveyorComplete, conveyorDone_of_oldest oldest moves place]
    rfl
  case surveyBegins =>
    intro s lc k run other conv convWait due
    rw [exec_autoSurvey, autoSurveyOp_begins run other conv convWait due]
    rfl
  case surveyEnds =>
    intro s lc k work survey hold
    rw [exec_autoSurvey, autoSurveyOp_ends work survey hold]
    exact ⟨fun good => congrArg _ (surveyEnd_of_match good), fun bad => congrArg _ (surveyEnd_of_mismatch bad)⟩
  case arrayIdle =>
    intro s lc cyc d due
    rw [exec_arrayIdle]
    exact ⟨fun reached open0 open1 mapped hold => congrArg _ (arrayIdleOp_of_due due reached open0 open1 mapped hold),
      fun early => congrArg _ (arrayIdleOp_of_early due early)⟩
  case clamp =>
    intro s lc cyc n mapped free
    rw [exec_currentClamp, clampOp_of_free mapped free]
    rfl
  case clampAgain =>
    intro s lc cyc n clamped
    rw [exec_currentClamp, clampOp_of_clamped clamped]
  case clampRamp =>
    intro s lc n b rows
    exact execClampEnd_of_rows ⟨n, b⟩ rows
  case clampOver =>
    intro s lc n b rows ramp
    exact execClampEnd_of_ramp ⟨n, b⟩ rows ramp
  case noClamp =>
    intro s lc n b rows ramp
    exact execClampEnd_of_none ⟨n, b⟩ rows ramp

end Sys2Proof.Machine
end

section
/-! PROOFS. OPX.PASS at the head of its queue, and open passes that go on (R90, R121, R140, R153). -/

namespace Sys2Proof.Machine

theorem exec_opxPass (lc cyc : Nat) (upto : Option Nat) (s : State) : exec (.opxPass lc ⟨cyc, upto⟩) s = .next (opxPass s lc cyc upto) := rfl

section
variable {s : State} {lc cyc : Nat} {upto : Option Nat}

/-! Which pass an issue takes -/

theorem opxPass_of_noOpen (noOpen0 : (cluster s lc).opx.open0 = none) (noOpen1 : (cluster s lc).opx.open1 = none) :
    opxPass s lc cyc upto = passIssue s lc cyc upto := by
  simp [opxPass, noOpen0, noOpen1]

theorem opxPass_of_open0 {x : OpenPass} (issue : issuing s lc = true) (noSurvey : surveyNow s lc = false)
    (isOpen : (cluster s lc).opx.open0 = some x) : opxPass s lc cyc upto = passGo s lc x upto := by
  simp [opxPass, issue, noSurvey, isOpen]

theorem opxPass_of_open1 {x y : OpenPass} (issue : issuing s lc = true) (noSurvey : surveyNow s lc = false)
    (noOpen0 : (cluster s lc).opx.open0 = none) (isOpen : (cluster s lc).opx.open1 = some x)
    (turn : elasticPass (cluster s lc) x cyc upto = some y) : opxPass s lc cyc upto = passGo s lc y upto := by
  simp [opxPass, issue, noSurvey, noOpen0, isOpen, turn]

/-! A pass at the head of the OPX queue -/

/-- The pass that the OPX queue issues in cycle cyc, with its issue cycle. -/
def passHead (s : State) (lc cyc : Nat) : Option (QEntry × Nat) :=
  opxPick s lc cyc (fun e => cOp e.raw == oPASS && (openOf (cluster s lc).opx (cStream e.raw)).isNone)
    (fun c e i => let p := planPass c e i; (p.last, passStreams e p 0 p.k))

/-- The pass e has left its queue in cycle i and is open, its update 0 to enter in cycle t0. -/
def passOpened (e : QEntry) (i t0 : Nat) (c : Cluster) : Cluster :=
  let c := dropEntry (atCycle c i) 0 e
  { c with opx := setOpen c.opx (cStream e.raw) (some ⟨e, t0, 0⟩) }

variable {e : QEntry} {i : Nat}

theorem passIssue_of_dead (head : passHead s lc cyc = some (e, i)) (dead : e.live = false) :
    passIssue s lc cyc upto = retire (modCluster s lc (fun c => atCycle c i)) lc 0 e := by
  rw [passHead] at head
  rw [passIssue, head]
  exact if_pos (by rw [dead]; rfl)

theorem passIssue_of_free (head : passHead s lc cyc = some (e, i)) (live : e.live = true) (inTime : isLate e cyc i = false)
    (inBounds : passBound e (planPass (cluster s lc) e i) = none) (ownFree : waveBusy (cluster s lc) e (planPass (cluster s lc) e i) = false)
    (otherFree : waveFree (cluster s lc) e (planPass (cluster s lc) e i) = true) :
    let t0 := (planPass (cluster s lc) e i).t0
    let u := modCluster s lc (passOpened e i t0)
    passIssue s lc cyc upto = if t0 = i then passGo u lc ⟨e, t0, 0⟩ upto else dispatch u lc := by
  rw [passHead] at head
  rw [passIssue, head]
  simp only [live, inTime, inBounds, ownFree, otherFree, Bool.not_true, Bool.false_eq_true, if_false]
  rfl

end

/-! An open pass without a limit -/

/-- No boundary lies beyond the last update. -/
theorem boundary_of_le {p : PassPlan} {n : Nat} (enough : p.k ≤ n) : p.boundary n = p.k := by
  have pairs : n ≤ 2 * ceilDiv n 2 := by rw [ceilDiv]; omega
  rw [PassPlan.boundary]
  split
  · exact Nat.min_eq_left (enough.trans pairs)
  · exact Nat.min_eq_left enough

theorem passGo_of_unlimited {s : State} {lc : Nat} {x : OpenPass} (stream0 : cStream x.e.raw = 0) (more : x.done < (planAt x.e x.t0).k)
    (checked : x.done ≠ 0 ∨ passChecks (cluster s lc) x.e (planAt x.e x.t0) = none ∧
      laterCollision (passStreams x.e (planAt x.e x.t0) 0 (planAt x.e x.t0).k) (actFor (cluster s lc) x.e) = none)
    (noSurvey : (planAt x.e x.t0).k ≤ surveyStop s lc (planAt x.e x.t0) (bankOfB (cluster s lc).opx (passBank x.e.raw)) x.done) :
    passGo s lc x none = runUpdates s lc x.e (planAt x.e x.t0) x.done (planAt x.e x.t0).k := by
  have checks : (if x.done = 0 then passChecks (cluster s lc) x.e (planAt x.e x.t0) else none) = none := by
    rcases checked with begun | ⟨good, _⟩
    · rw [if_neg begun]
    · rw [good, ite_self]
  have noLater : (if x.done = 0 ∧ cStream x.e.raw = 0 then
      laterCollision (passStreams x.e (planAt x.e x.t0) 0 (planAt x.e x.t0).k) (actFor (cluster s lc) x.e) else none) = none := by
    rcases checked with begun | ⟨_, good⟩
    · exact if_neg (fun h => begun h.1)
    · rw [good, ite_self]
  have want : (planAt x.e x.t0).boundary (x.done + (planAt x.e x.t0).k) = (planAt x.e x.t0).k := boundary_of_le (Nat.le_add_left ..)
  have toEnd : min (planAt x.e x.t0).k (max x.done
      (surveyStop s lc (planAt x.e x.t0) (bankOfB (cluster s lc).opx (passBank x.e.raw)) x.done)) = (planAt x.e x.t0).k := by omega
  have stream : (cStream x.e.raw = 1) = False := by simp [stream0]
  simp only [passGo, checks, noLater, stream, decide_false, Bool.false_and, Bool.false_eq_true, if_false, Option.getD_none, want, toEnd,
    Nat.not_le.2 more, slipLater]

end Sys2Proof.Machine
end

section
/-! PROOFS. The conveyor's commands at the head of their queue, and what a drain delivers (R73, R155 to R158). -/

namespace Sys2Proof.Machine

theorem exec_opxDrain (lc cyc : Nat) (s : State) : exec (.opxDrain lc cyc) s = .next (opxConv s lc cyc .drain) := rfl
theorem exec_opxLoad (lc cyc : Nat) (s : State) : exec (.opxLoad lc cyc) s = .next (opxConv s lc cyc .load) := rfl
theorem exec_opxLoadImage (lc cyc : Nat) (s : State) : exec (.opxLoadImage lc cyc) s = .next (opxConv s lc cyc .image) := rfl
theorem exec_opxSave (lc cyc : Nat) (s : State) : exec (.opxSave lc cyc) s = .next (opxConv s lc cyc .save) := rfl
theorem exec_opxSurvey (lc cyc : Nat) (s : State) : exec (.opxSurvey lc cyc) s = .next (opxConv s lc cyc .survey) := rfl

theorem convBusy_of_empty {o : Opx} (conv : o.conv = []) (convWait : o.convWait = []) (i : Nat) : convBusy o i = false := by
  simp [convBusy, convEnd, conv, convWait]

/-! The start of an operation -/

/-- What an operation of a kind does when it begins to shift. -/
def convEffect : ConvKind → State → Nat → QEntry → Nat → State
  | .drain => drainStart
  | .load => loadStart
  | .image => imageStart
  | .save => saveStart
  | .survey => surveyStart

theorem convStart_of_checked {s : State} {lc d : Nat} {e : QEntry} (checks : convChecks (cluster s lc) e d = none)
    (noLater : cStream e.raw = 0 → laterCollision (convStreams (cluster s lc).opx e d) (actFor (cluster s lc) e) = none) :
    convStart s lc e d = dispatch (convEffect (convKindOf e.raw) s lc e d) lc := by
  have later : (if cStream e.raw = 0 then laterCollision (convStreams (cluster s lc).opx e d) (actFor (cluster s lc) e) else none) = none := by
    split
    · exact noLater ‹_›
    · rfl
  simp only [convStart, checks, later, slipLater]
  cases convKindOf e.raw <;> rfl

section
variable {s : State} {lc cyc i : Nat} {k : ConvKind} {e : QEntry}

/-- The conveyor command of kind k that the OPX queue issues in cycle cyc, with its issue cycle. -/
def convHead (s : State) (lc cyc : Nat) (k : ConvKind) : Option (QEntry × Nat) :=
  opxPick s lc cyc
    (fun e => (cOp e.raw == oDRAIN || cOp e.raw == oLOAD || cOp e.raw == oSAVE || cOp e.raw == oSURVEY) && convKindOf e.raw == k &&
      (cStream e.raw == 0 || !e.live || !(convBusy (cluster s lc).opx cyc)))
    (fun c e i => (i + convLen c.opx e.raw - 1, convStreams c.opx e i))

theorem opxConv_of_dead (head : convHead s lc cyc k = some (e, i)) (turn : passFirst (cluster s lc) e i = false) (dead : e.live = false) :
    opxConv s lc cyc k = retire (modCluster s lc (fun c => atCycle c i)) lc 0 e := by
  rw [convHead] at head
  rw [opxConv, head]
  simp [turn, dead]

/-- A live command in time and in bounds leaves its queue: it starts, or waits for the operation that shifts (R73). -/
theorem opxConv_of_live (head : convHead s lc cyc k = some (e, i)) (turn : passFirst (cluster s lc) e i = false) (live : e.live = true)
    (inTime : isLate e cyc i = false) (inBounds : convBound (cluster s lc) e = none) :
    let u := modCluster s lc (fun c => dropEntry (atCycle c i) 0 e)
    opxConv s lc cyc k = if convBusy (cluster s lc).opx i then dispatch (modOpx u lc (fun o => { o with convWait := o.convWait ++ [e] })) lc
      else convStart u lc e i := by
  rw [convHead] at head
  rw [opxConv, head]
  simp [turn, live, inTime, inBounds]

theorem opxConv_of_convHead (h : ConvHead s lc cyc k e i) :
    opxConv s lc cyc k = dispatch (convEffect k (modCluster s lc (fun c => dropEntry (atCycle c i) 0 e)) lc e i) lc := by
  obtain ⟨head, kind, turn, live, inTime, inBounds, conv, convWait, checks, noLater⟩ := h
  rw [opxConv_of_live head turn live inTime inBounds, convBusy_of_empty conv convWait, if_neg Bool.false_ne_true,
    convStart_of_checked checks noLater, kind]

end

/-! A drain without a load whose compare passes (R72, R75, R81, R86, R155) -/

theorem drainValue_eq (b : Bank) (x : Nat) :
    drainValue b x = if b.kind = some true then (spGet Cell.zero b.cells x).s else foldCell (spGet Cell.zero b.cells x) := by
  simp [drainValue]

/-- The status word of a drain in cycle d. -/
def drainWord (c : Cluster) (e : QEntry) (d : Nat) : BitVec 512 :=
  statusWord (bankOfB c.opx (drainBank e.raw)) (drainBank e.raw) (drainResult c e.raw) (c.opx.drainSeq + 1) d

/-- The pieces that a drain writes: its rows and then its status word, or none when its tile goes to the drain buffer. -/
def drainPieces (c : Cluster) (e : QEntry) (d : Nat) : List SpPiece :=
  let b := bankOfB c.opx (drainBank e.raw)
  if drainToVec e.raw then []
  else destPieces c.mem.sp FP32 (formed e (sref e.raw 0)) (sref e.raw 0).lstride
      ((List.range 16384).map (fun x => ⟨(drainValue b x).toNat, tbit b.status tsPOISON⟩)) ++
    runPieces (drainStatus e.raw * 64) (leBytes 64 (drainWord c e d).toNat) false

/-- The tile that a drain puts into the drain buffer. -/
def drainTile (c : Cluster) (e : QEntry) (d : Nat) : DrainTile :=
  let b := bankOfB c.opx (drainBank e.raw)
  ⟨spTab 0 16384 (drainValue b), b.kind == some true, tbit b.status tsPOISON, drainWord c e d, d⟩

/-- The cluster when the drain has begun: rows or tile delivered, the bank cleared, the drain counted. -/
def drainedCluster (c : Cluster) (e : QEntry) (d : Nat) : Cluster :=
  let w := spWriteAll c (drainPieces c e d) (sref e.raw 0).tag
  let c' := { w with
    opx := { (setBank (beginConv c.opx e d) (drainBank e.raw) (Bank.clear (bankOfB c.opx (drainBank e.raw)).parity)) with
      drainSeq := c.opx.drainSeq + 1 }
    vr := if drainToVec e.raw then { w.vr with drain := w.vr.drain ++ [drainTile c e d] } else w.vr }
  atCycle (consumePoison (if drainToVec e.raw then c' else carry c' (drainWord c e d).toNat) 0) d

theorem drainStart_of_match {s : State} {lc d : Nat} {e : QEntry} (noLoad : loadSlot e.raw = none)
    (good : (drainResult (cluster s lc) e.raw).mismatch = false)
    (room : (drainToVec e.raw && drainBufferFull (cluster s lc).vr (d + 1)) = false)
    (free : inboundHit (cluster s lc) (drainPieces (cluster s lc) e d) = none) :
    let t := setCluster s lc (drainedCluster (cluster s lc) e d)
    drainStart s lc e d = if tbit (drainWord (cluster s lc) e d).toNat tsUNB then
      noteUnbounded t lc e.idx (bankOfB (cluster s lc).opx (drainBank e.raw)).n else t := by
  simp only [drainPieces, drainWord] at free
  simp only [drainStart, noLoad, good, room, free, Option.map_none, Bool.or_self, Bool.not_false, Bool.and_true, Bool.false_eq_true, if_false,
    nextBank, loadSlip, ite_self]
  rfl

/-! What the drained cluster holds -/

@[simp] theorem atCycle_opx (c : Cluster) (d : Nat) : (atCycle c d).opx = c.opx := rfl
@[simp] theorem atCycle_mem (c : Cluster) (d : Nat) : (atCycle c d).mem = c.mem := rfl
@[simp] theorem atCycle_vr (c : Cluster) (d : Nat) : (atCycle c d).vr = c.vr := rfl
@[simp] theorem consumePoison_opx (c : Cluster) (n : Nat) : (consumePoison c n).opx = c.opx := rfl
@[simp] theorem consumePoison_mem (c : Cluster) (n : Nat) : (consumePoison c n).mem = c.mem := rfl
@[simp] theorem consumePoison_vr (c : Cluster) (n : Nat) : (consumePoison c n).vr = c.vr := rfl
@[simp] theorem carry_opx (c : Cluster) (st : Nat) : (carry c st).opx = c.opx := rfl
@[simp] theorem carry_mem (c : Cluster) (st : Nat) : (carry c st).mem = c.mem := rfl

theorem bankOfB_setBank_same (o : Opx) (bank : Bool) (b : Bank) : bankOfB (setBank o bank b) bank = b := by cases bank <;> rfl
theorem bankOfB_setBank_other (o : Opx) (bank : Bool) (b : Bank) : bankOfB (setBank o bank b) (!bank) = bankOfB o (!bank) := by
  cases bank <;> rfl

section
variable (c : Cluster) (e : QEntry) (d : Nat)

theorem drainedCluster_opx : (drainedCluster c e d).opx =
    { (setBank (beginConv c.opx e d) (drainBank e.raw) (Bank.clear (bankOfB c.opx (drainBank e.raw)).parity)) with
      drainSeq := c.opx.drainSeq + 1 } := by
  simp only [drainedCluster, atCycle_opx, consumePoison_opx, apply_ite Cluster.opx, carry_opx, ite_self]

theorem drainedCluster_mem : (drainedCluster c e d).mem = (spWriteAll c (drainPieces c e d) (sref e.raw 0).tag).mem := by
  simp only [drainedCluster, atCycle_mem, consumePoison_mem, apply_ite Cluster.mem, carry_mem, ite_self]

theorem drainTile_value {x : Nat} (hx : x < 16384) :
    spGet 0 (drainTile c e d).vals x = drainValue (bankOfB c.opx (drainBank e.raw)) x := by
  simp only [drainTile]
  rw [spGet_spTab hx]

/-- The bank is cleared with its parity, the other bank is left, and the drain counts (R72, R86). -/
theorem drainedCluster_banks :
    bankOfB (drainedCluster c e d).opx (drainBank e.raw) = Bank.clear (bankOfB c.opx (drainBank e.raw)).parity ∧
      bankOfB (drainedCluster c e d).opx (!(drainBank e.raw)) = bankOfB c.opx (!(drainBank e.raw)) ∧
      (drainedCluster c e d).opx.drainSeq = c.opx.drainSeq + 1 := by
  rw [drainedCluster_opx]
  exact ⟨bankOfB_setBank_same .., bankOfB_setBank_other .., rfl⟩

variable {e} (toVec : drainToVec e.raw = true)
include toVec

theorem drainPieces_of_toVec : drainPieces c e d = [] := if_pos toVec

theorem drainedCluster_mem_of_toVec : (drainedCluster c e d).mem = c.mem := by
  rw [drainedCluster_mem, drainPieces_of_toVec c d toVec]
  rfl

theorem drainedCluster_drain_of_toVec : (drainedCluster c e d).vr.drain = c.vr.drain ++ [drainTile c e d] := by
  simp only [drainedCluster, toVec, if_true, atCycle_vr, consumePoison_vr, drainPieces_of_toVec c d toVec]
  rfl

end

/-- Settles O50: which branch an issue takes, the start of each conveyor operation, and the rows of a drain. -/
theorem opxCommandsComplete : Obligations.OpxCommandsComplete := by
  unfold Obligations.OpxCommandsComplete
  refine ⟨?issue, ?open0, ?open1, ?unlimited, ?drain, ?load, ?image, ?save, ?survey, ?deadOrWaiting, ?dispatch, ?delivered⟩
  case issue =>
    intro s lc cyc upto e i noOpen0 noOpen1 head p u
    rw [exec_opxPass, opxPass_of_noOpen noOpen0 noOpen1]
    refine ⟨fun dead => congrArg _ (passIssue_of_dead head dead), fun live inTime inBounds ownFree otherFree => ?_⟩
    rw [passIssue_of_free head live inTime inBounds ownFree otherFree]
    exact ⟨fun now => congrArg _ (if_pos now), fun later => congrArg _ (if_neg later)⟩
  case open0 =>
    intro s lc cyc upto x issue noSurvey isOpen
    rw [exec_opxPass, opxPass_of_open0 issue noSurvey isOpen]
  case open1 =>
    intro s lc cyc upto x y issue noSurvey noOpen0 isOpen turn
    rw [exec_opxPass, opxPass_of_open1 issue noSurvey noOpen0 isOpen turn]
  case unlimited =>
    intro s lc x p stream0 more checked noSurvey
    exact passGo_of_unlimited stream0 more checked noSurvey
  case drain =>
    intro s lc cyc e i head
    rw [exec_opxDrain, opxConv_of_convHead head, convEffect]
  case load =>
    intro s lc cyc e i head
    rw [exec_opxLoad, opxConv_of_convHead head, convEffect]
  case image =>
    intro s lc cyc e i head
    rw [exec_opxLoadImage, opxConv_of_convHead head, convEffect]
  case save =>
    intro s lc cyc e i head
    rw [exec_opxSave, opxConv_of_convHead head, convEffect]
  case survey =>
    intro s lc cyc e i head
    rw [exec_opxSurvey, opxConv_of_convHead head, convEffect]
  case deadOrWaiting =>
    intro s lc cyc k e i head turn
    refine ⟨opxConv_of_dead head turn, fun live inTime inBounds busy => ?_⟩
    rw [opxConv_of_live head turn live inTime inBounds, if_pos busy]
  case dispatch =>
    exact fun s lc cyc => ⟨exec_opxDrain lc cyc s, exec_opxLoad lc cyc s, exec_opxLoadImage lc cyc s, exec_opxSave lc cyc s,
      exec_opxSurvey lc cyc s⟩
  case delivered =>
    intro s lc e d c b res st val done cleared noLoad good
    have values : val = drainValue b := funext fun x => (drainValue_eq b x).symm
    constructor
    · intro toVec room
      refine ⟨drainedCluster c e d, drainTile c e d, ?_, drainedCluster_banks c e d, drainedCluster_mem_of_toVec c d toVec,
        drainedCluster_drain_of_toVec c d toVec, rfl, rfl, rfl, rfl, ?_⟩
      · exact drainStart_of_match noLoad good (by rw [room, Bool.and_false]) (by rw [drainPieces_of_toVec _ d toVec]; rfl)
      · intro x hx
        rw [values]
        exact drainTile_value c e d hx
    · intro toRows els ps free
      have pieces : ps = drainPieces c e d := by
        simp only [ps, els, values, drainPieces, toRows, Bool.false_eq_true, if_false]
        rfl
      rw [pieces] at free ⊢
      exact ⟨drainedCluster c e d, drainStart_of_match noLoad good (by rw [toRows, Bool.false_and]) free, drainedCluster_banks c e d,
        drainedCluster_mem c e d⟩

end Sys2Proof.Machine
end

section
/-! PROOFS. The ranked selection of ROW.TOPK (R111). The comparison of exact values is the order of the extended reals that they stand for, so
that rank is the order of a key paired with the position; keeping the best k after every insertion is keeping the first k of the whole row
sorted by rank. -/

namespace Sys2Proof.Machine

/-! The order of exact values -/

/-- The real number that a sign, a magnitude and an exponent stand for. -/
noncomputable def finReal (n : Bool) (m : Nat) (e : Int) : ℝ := (if n then -(m : ℝ) else m) * 2 ^ e

/-- The extended real that a value stands for; NaN stands for none and gets 0. -/
noncomputable def fvReal : FVal → EReal
  | .nan => 0
  | .inf n => if n then ⊥ else ⊤
  | .fin n m e => finReal n m e

theorem mantAt_mul_two_zpow (n : Bool) (m : Nat) {e e0 : Int} (h : e0 ≤ e) : (mantAt n m e e0 : ℝ) * 2 ^ e0 = finReal n m e := by
  have power : (2 : ℝ) ^ e = 2 ^ (e - e0).toNat * 2 ^ e0 := by
    rw [← zpow_natCast, Int.toNat_of_nonneg (by omega), ← zpow_add₀ two_ne_zero, sub_add_cancel]
  cases n <;> simp [mantAt, shl, finReal, power, mul_assoc]

/-- Aligned at the smaller exponent, the mantissas compare as the numbers do. -/
theorem fvCmp_fin (n1 n2 : Bool) (m1 m2 : Nat) (e1 e2 : Int) :
    (finReal n1 m1 e1 < finReal n2 m2 e2 ∧ fvCmp (.fin n1 m1 e1) (.fin n2 m2 e2) = -1) ∨
    (finReal n1 m1 e1 = finReal n2 m2 e2 ∧ fvCmp (.fin n1 m1 e1) (.fin n2 m2 e2) = 0) ∨
    (finReal n2 m2 e2 < finReal n1 m1 e1 ∧ fvCmp (.fin n1 m1 e1) (.fin n2 m2 e2) = 1) := by
  have unit : (0 : ℝ) < 2 ^ min e1 e2 := zpow_pos two_pos _
  rw [← mantAt_mul_two_zpow n1 m1 (min_le_left e1 e2), ← mantAt_mul_two_zpow n2 m2 (min_le_right e1 e2), mul_lt_mul_iff_left₀ unit,
    mul_lt_mul_iff_left₀ unit, mul_left_inj' unit.ne', Int.cast_lt, Int.cast_lt, Int.cast_inj]
  simp only [fvCmp]
  split_ifs <;> omega

theorem fvCmp_trichotomy {a b : FVal} (ha : a ≠ .nan) (hb : b ≠ .nan) :
    (fvReal a < fvReal b ∧ fvCmp a b = -1) ∨ (fvReal a = fvReal b ∧ fvCmp a b = 0) ∨ (fvReal b < fvReal a ∧ fvCmp a b = 1) := by
  match a, b with
  | .nan, _ => exact absurd rfl ha
  | _, .nan => exact absurd rfl hb
  | .inf m, .inf n => cases m <;> cases n <;> simp [fvReal, fvCmp]
  | .inf m, .fin _ _ _ => cases m <;> simp [fvReal, fvCmp]
  | .fin _ _ _, .inf n => cases n <;> simp [fvReal, fvCmp]
  | .fin n1 m1 e1, .fin n2 m2 e2 => simpa only [fvReal, EReal.coe_lt_coe_iff, EReal.coe_eq_coe_iff] using fvCmp_fin n1 n2 m1 m2 e1 e2

theorem fvCmp_neg_iff {a b : FVal} (ha : a ≠ .nan) (hb : b ≠ .nan) : fvCmp a b < 0 ↔ fvReal a < fvReal b := by
  rcases fvCmp_trichotomy ha hb with ⟨real, cmp⟩ | ⟨real, cmp⟩ | ⟨real, cmp⟩
  · simp [cmp, real]
  · simp [cmp, real]
  · simp [cmp, real.not_gt]

theorem fvCmp_eq_zero_iff {a b : FVal} (ha : a ≠ .nan) (hb : b ≠ .nan) : fvCmp a b = 0 ↔ fvReal a = fvReal b := by
  rcases fvCmp_trichotomy ha hb with ⟨real, cmp⟩ | ⟨real, cmp⟩ | ⟨real, cmp⟩
  · simp [cmp, real.ne]
  · simp [cmp, real]
  · simp [cmp, real.ne']

theorem fvCmp_pos_iff {a b : FVal} (ha : a ≠ .nan) (hb : b ≠ .nan) : 0 < fvCmp a b ↔ fvReal b < fvReal a := by
  rw [← not_le, ← not_le, le_iff_lt_or_eq, le_iff_lt_or_eq, fvCmp_neg_iff ha hb, fvCmp_eq_zero_iff ha hb]

theorem fvAbs_ne_nan {x : FVal} (h : x ≠ .nan) : fvAbs x ≠ .nan := by
  cases x with
  | nan => exact absurd rfl h
  | inf | fin => exact FVal.noConfusion

/-! Rank as a linear order -/

/-- The key of an ORDER with the position behind it: the smaller ranks higher. -/
noncomputable def rankKey (order : Nat) (c : Cand) : EReal ×ₗ Nat :=
  toLex (if order = 1 then fvReal c.v else -fvReal (if order = 2 then fvAbs c.v else c.v), c.pos)

theorem ranksAbove_iff (order : Nat) {a b : Cand} (ha : a.v ≠ .nan) (hb : b.v ≠ .nan) :
    ranksAbove order a b = true ↔ rankKey order a < rankKey order b := by
  by_cases smaller : order = 1
  · simp [ranksAbove, rankKey, Prod.Lex.toLex_lt_toLex, smaller, fvCmp_neg_iff ha hb, fvCmp_eq_zero_iff ha hb]
  · have keyed {x : FVal} (h : x ≠ .nan) : (if order = 2 then fvAbs x else x) ≠ .nan := by
      split_ifs
      exacts [fvAbs_ne_nan h, h]
    simp [ranksAbove, rankKey, Prod.Lex.toLex_lt_toLex, smaller, fvCmp_pos_iff (keyed ha) (keyed hb),
      fvCmp_eq_zero_iff (keyed ha) (keyed hb)]

theorem ranksAbove_trans {order : Nat} {a b c : Cand} (ha : a.v ≠ .nan) (hb : b.v ≠ .nan) (hc : c.v ≠ .nan)
    (ab : ranksAbove order a b = true) (bc : ranksAbove order b c = true) : ranksAbove order a c = true := by
  rw [ranksAbove_iff order ha hb] at ab
  rw [ranksAbove_iff order hb hc] at bc
  exact (ranksAbove_iff order ha hc).2 (ab.trans bc)

theorem rankKey_ne {a b : Cand} (order : Nat) (apart : a.pos ≠ b.pos) : rankKey order a ≠ rankKey order b :=
  fun same => apart (congrArg (fun k => (ofLex k).2) same)

theorem ranksAbove_of_not {order : Nat} {a b : Cand} (ha : a.v ≠ .nan) (hb : b.v ≠ .nan) (apart : a.pos ≠ b.pos)
    (behind : ¬ ranksAbove order a b = true) : ranksAbove order b a = true := by
  rw [ranksAbove_iff order ha hb, not_lt] at behind
  exact (ranksAbove_iff order hb ha).2 (behind.lt_of_ne (rankKey_ne order apart).symm)

/-! Insertion in rank order -/

theorem rankInsert_perm (order : Nat) (x : Cand) (l : List Cand) : (rankInsert order x l).Perm (x :: l) := by
  induction l with
  | nil => exact .refl _
  | cons y r ih =>
    rw [rankInsert]
    split_ifs
    · exact .refl _
    · exact (ih.cons y).trans (.swap x y r)

theorem pairwise_rankInsert {order : Nat} {x : Cand} {l : List Cand} (hx : x.v ≠ .nan) (hl : ∀ y ∈ l, y.v ≠ .nan)
    (apart : ∀ y ∈ l, x.pos ≠ y.pos) (sorted : l.Pairwise (fun a b => ranksAbove order a b = true)) :
    (rankInsert order x l).Pairwise (fun a b => ranksAbove order a b = true) := by
  induction l with
  | nil => exact List.pairwise_singleton _ _
  | cons y r ih =>
    obtain ⟨hy, hr⟩ := List.forall_mem_cons.1 hl
    obtain ⟨apartY, apartR⟩ := List.forall_mem_cons.1 apart
    obtain ⟨yAbove, rSorted⟩ := List.pairwise_cons.1 sorted
    rw [rankInsert]
    split_ifs with above
    · refine List.pairwise_cons.2 ⟨List.forall_mem_cons.2 ⟨above, fun z hz => ?_⟩, sorted⟩
      exact ranksAbove_trans hx hy (hr z hz) above (yAbove z hz)
    · refine List.pairwise_cons.2 ⟨fun z hz => ?_, ih hr apartR rSorted⟩
      rcases List.mem_cons.1 ((rankInsert_perm order x r).mem_iff.1 hz) with rfl | old
      · exact ranksAbove_of_not hx hy apartY above
      · exact yAbove z old

/-- What falls behind place k does not come back: an insertion moves no entry forward. -/
theorem take_rankInsert_take (order k : Nat) (x : Cand) (l : List Cand) :
    (rankInsert order x (l.take k)).take k = (rankInsert order x l).take k := by
  induction l generalizing k with
  | nil => rw [List.take_nil]
  | cons y r ih =>
    cases k with
    | zero => rw [List.take_zero, List.take_zero]
    | succ k =>
      rw [List.take_succ_cons, rankInsert, rankInsert]
      split_ifs
      · cases k <;> simp [List.take_take]
      · rw [List.take_succ_cons, List.take_succ_cons, ih]

/-! The whole row in rank order -/

/-- The candidates in rank order, none dropped. -/
def rankSort (order : Nat) (l : List Cand) : List Cand := l.foldl (fun acc x => rankInsert order x acc) []

theorem rankTop_eq_take_rankSort (order k : Nat) (l : List Cand) : rankTop order k l = (rankSort order l).take k := by
  have drop (acc : List Cand) (x : Cand) : (rankInsert order x (acc.take k)).take k = (rankInsert order x acc).take k :=
    take_rankInsert_take order k x acc
  simpa [rankTop, rankSort] using List.foldl_hom (List.take k) (l := l) (init := []) drop

theorem rankSort_concat (order : Nat) (l : List Cand) (x : Cand) : rankSort order (l ++ [x]) = rankInsert order x (rankSort order l) := by
  simp [rankSort]

theorem rankSort_perm (order : Nat) (l : List Cand) : (rankSort order l).Perm l := by
  induction l using List.reverseRecOn with
  | nil => exact .refl _
  | append_singleton l x ih =>
    rw [rankSort_concat]
    exact (rankInsert_perm order x _).trans ((ih.cons x).trans (List.perm_append_singleton x l).symm)

theorem pairwise_rankSort {order : Nat} {l : List Cand} (numbers : ∀ c ∈ l, c.v ≠ .nan) (rising : l.Pairwise (fun a b => a.pos < b.pos)) :
    (rankSort order l).Pairwise (fun a b => ranksAbove order a b = true) := by
  induction l using List.reverseRecOn with
  | nil => exact .nil
  | append_singleton l x ih =>
    obtain ⟨lRising, -, before⟩ := List.pairwise_append.1 rising
    have lNumbers (c : Cand) (hc : c ∈ l) : c.v ≠ .nan := numbers c (List.mem_append_left _ hc)
    have old {y : Cand} (hy : y ∈ rankSort order l) : y ∈ l := (rankSort_perm order l).mem_iff.1 hy
    rw [rankSort_concat]
    refine pairwise_rankInsert (numbers x (by simp)) (fun y hy => lNumbers y (old hy)) (fun y hy => ?_) (ih lNumbers lRising)
    exact (before y (old hy) x (by simp)).ne'

/-- Settles O55: the selection is the first k of the candidates sorted by rank, so what is left out stands behind all that is kept. -/
theorem rankedSelectionIsSorted : Obligations.RankedSelectionIsSorted := by
  unfold Obligations.RankedSelectionIsSorted
  intro order k l _ numbers rising
  have perm := rankSort_perm order l
  have sorted : (rankSort order l).Pairwise (fun a b => ranksAbove order a b = true) := pairwise_rankSort numbers rising
  have parts := (rankSort order l).take_append_drop k
  rw [rankTop_eq_take_rankSort]
  refine ⟨by rw [List.length_take, perm.length_eq], fun c hc => perm.mem_iff.1 (List.mem_of_mem_take hc), sorted.take, ?_⟩
  intro a b kept candidate leftOut
  rw [← parts] at sorted
  obtain ⟨-, -, keptAbove⟩ := List.pairwise_append.1 sorted
  have behind : b ∈ (rankSort order l).drop k := by
    have whole := perm.mem_iff.2 candidate
    rw [← parts] at whole
    exact (List.mem_append.1 whole).resolve_left leftOut
  exact keptAbove a kept b behind

end Sys2Proof.Machine
end

section
/-! PROOFS. The commands that the sequencer executes itself at dispatch (R117, R120, R126, R172). -/

namespace Sys2Proof.Machine

theorem exec_cntSet (lc : Nat) (s : State) : exec (.cntSet lc) s = execCntSet lc s := rfl
theorem exec_cntAdd (lc : Nat) (s : State) : exec (.cntAdd lc) s = execCntAdd lc s := rfl
theorem exec_cntLoop (lc : Nat) (s : State) : exec (.cntLoop lc) s = execCntLoop lc s := rfl
theorem exec_cmpSet (lc : Nat) (s : State) : exec (.cmpSet lc) s = execCmpSet lc s := rfl
theorem exec_prmMov (lc : Nat) (s : State) : exec (.prmMov lc) s = execPrmMov lc s := rfl
theorem exec_prmAdd (lc : Nat) (s : State) : exec (.prmAdd lc) s = execPrmAdd lc s := rfl

/-- The cluster with its dispatch index at the next command. -/
def nextCommand (c : Cluster) : Cluster := { c with seq := { c.seq with pc := c.seq.pc + 1 } }

section
variable {s : State} {lc op raw : Nat} {f : Nat → Cluster → Cluster}

theorem scalar_of_holds (head : seqHead s lc op = some raw) (holds : predHolds (cluster s lc) raw = true) :
    scalar s lc op f = dispatch (setCluster s lc (nextCommand (f raw (cluster s lc)))) lc := by
  simp only [scalar, head, advance, modCluster, holds]
  rfl

theorem scalar_of_fails (head : seqHead s lc op = some raw) (fails : predHolds (cluster s lc) raw = false) :
    scalar s lc op f = dispatch (setCluster s lc (nextCommand (cluster s lc))) lc := by
  simp only [scalar, head, advance, modCluster, fails]
  rfl

/-- A scalar command that writes a counter modulo 2^48, which it leaves alone when its predicate fails (R126, R172). -/
theorem scalar_setCnt (head : seqHead s lc op = some raw) (n v : Nat → Cluster → Nat) :
    let c := cluster s lc
    scalar s lc op (fun raw c => setCnt c (n raw c) (v raw c)) = dispatch (setCluster s lc { c with seq := { c.seq with
      cnt := if predHolds c raw then spSet 0 c.seq.cnt (n raw c) (v raw c % 2 ^ 48) else c.seq.cnt, pc := c.seq.pc + 1 } }) lc := by
  intro c
  cases holds : predHolds c raw
  · rw [if_neg Bool.false_ne_true]
    exact scalar_of_fails head holds
  · rw [if_pos rfl]
    exact scalar_of_holds head holds

/-- A scalar command that writes one of PRM0 to PRM239 modulo 2^64; a system register and a command whose predicate fails leave the registers
alone (R117, R172). -/
theorem scalar_setPrm (head : seqHead s lc op = some raw) (n v : Nat → Cluster → Nat) :
    let c := cluster s lc
    scalar s lc op (fun raw c => setPrm c (n raw c) (v raw c)) = dispatch (setCluster s lc { c with seq := { c.seq with
      prm := if predHolds c raw = true ∧ n raw c < 240 then spSet 0 c.seq.prm (n raw c) (v raw c % 2 ^ 64) else c.seq.prm,
      pc := c.seq.pc + 1 } }) lc := by
  intro c
  cases holds : predHolds c raw
  · rw [if_neg (by simp)]
    exact scalar_of_fails head holds
  · rw [scalar_of_holds head holds]
    by_cases user : n raw c < 240
    · rw [if_pos ⟨rfl, user⟩, setPrm, if_pos user]
      rfl
    · rw [if_neg (fun h => user h.2), setPrm, if_neg user]
      rfl

end

/-! CNT.LOOP -/

section
variable {s : State} {lc raw : Nat}

/-- The counter after the decrement of CNT.LOOP, which wraps at 0 (R126). -/
def loopCount (c : Cluster) (raw : Nat) : Nat := (spGet 0 c.seq.cnt (natBits raw 64 4) + (2 ^ 48 - 1)) % 2 ^ 48

/-- The cluster with v in counter n. -/
def withCnt (c : Cluster) (n v : Nat) : Cluster := { c with seq := { c.seq with cnt := spSet 0 c.seq.cnt n v } }

@[simp] theorem withCnt_pc (c : Cluster) (n v : Nat) : (withCnt c n v).seq.pc = c.seq.pc := rfl
@[simp] theorem withCnt_st0 (c : Cluster) (n v : Nat) : (withCnt c n v).seq.st0 = c.seq.st0 := rfl
@[simp] theorem withCnt_st1 (c : Cluster) (n v : Nat) : (withCnt c n v).seq.st1 = c.seq.st1 := rfl

/-- The cluster with the counter of a loop decremented. -/
def loopCounted (c : Cluster) (raw : Nat) : Cluster := withCnt c (natBits raw 64 4) (loopCount c raw)

theorem setCnt_loopCount (c : Cluster) : setCnt c (natBits raw 64 4) (loopCount c raw) = loopCounted c raw := by
  rw [setCnt, loopCount, Nat.mod_mod]
  rfl

theorem execCntLoop_of_fails (head : seqHead s lc oCLOOP = some raw) (fails : predHolds (cluster s lc) raw = false) :
    execCntLoop lc s = .next (dispatch (setCluster s lc (nextCommand (leaveLoop (cluster s lc)))) lc) := by
  simp only [execCntLoop, head, advance, modCluster, fails, Bool.false_eq_true, if_false]
  rfl

@[simp] theorem loopCounted_pc (c : Cluster) : (loopCounted c raw).seq.pc = c.seq.pc := withCnt_pc ..
@[simp] theorem loopCounted_st0 (c : Cluster) : (loopCounted c raw).seq.st0 = c.seq.st0 := withCnt_st0 ..
@[simp] theorem loopCounted_st1 (c : Cluster) : (loopCounted c raw).seq.st1 = c.seq.st1 := withCnt_st1 ..

@[simp] theorem takeLoop_pc (c : Cluster) : (takeLoop raw c).seq.pc = natBits raw 80 14 := rfl
@[simp] theorem takeLoop_cnt (c : Cluster) : (takeLoop raw c).seq.cnt = c.seq.cnt := rfl

/-- A taken loop advances the anchors of both streams by its period (R120). -/
theorem takeLoop_adv (c : Cluster) :
    (takeLoop raw (loopCounted c raw)).seq.st0.adv = c.seq.st0.adv + natBits raw 128 32 ∧
      (takeLoop raw (loopCounted c raw)).seq.st1.adv = c.seq.st1.adv + natBits raw 128 32 := by
  simp only [takeLoop, loopCounted_st0, loopCounted_st1, and_self]

/-- Leaving a loop does not move the dispatch index. -/
@[simp] theorem leaveLoop_pc (c : Cluster) : (leaveLoop c).seq.pc = c.seq.pc := by
  unfold leaveLoop
  split
  · split <;> rfl
  · rfl

theorem execCntLoop_of_holds (head : seqHead s lc oCLOOP = some raw) (holds : predHolds (cluster s lc) raw = true) :
    execCntLoop lc s = .next (dispatch (setCluster s lc (if loopCount (cluster s lc) raw = 0 then nextCommand (leaveLoop (loopCounted (cluster s lc) raw))
      else takeLoop raw (loopCounted (cluster s lc) raw))) lc) := by
  simp only [execCntLoop, head, advance, modCluster, holds, if_true, ← setCnt_loopCount]
  rfl

theorem execCntLoop_of_taken (head : seqHead s lc oCLOOP = some raw) (holds : predHolds (cluster s lc) raw = true)
    (taken : loopCount (cluster s lc) raw ≠ 0) :
    execCntLoop lc s = .next (dispatch (setCluster s lc (takeLoop raw (loopCounted (cluster s lc) raw))) lc) := by
  rw [execCntLoop_of_holds head holds, if_neg taken]

/-- A loop that ends goes on behind its CNT.LOOP. -/
theorem execCntLoop_of_ended (head : seqHead s lc oCLOOP = some raw) (holds : predHolds (cluster s lc) raw = true)
    (ended : loopCount (cluster s lc) raw = 0) :
    let d := leaveLoop (loopCounted (cluster s lc) raw)
    execCntLoop lc s = .next (dispatch (setCluster s lc { d with seq := { d.seq with pc := (cluster s lc).seq.pc + 1 } }) lc) := by
  rw [execCntLoop_of_holds head holds, if_pos ended, nextCommand, leaveLoop_pc, loopCounted_pc]

end

/-! CMP.SET -/

theorem tbit_eq_testBit (x n : Nat) : tbit x n = x.testBit n := by
  rw [Nat.testBit_eq_decide_div_mod_eq, tbit, natBits, Nat.shiftRight_eq_div_pow, Nat.pow_one]
  rfl

/-- Adding 2^b where bit b is clear carries nowhere. -/
theorem testBit_add_two_pow {x b : Nat} (clear : x.testBit b = false) {n : Nat} (other : n ≠ b) : (x + 2 ^ b).testBit n = x.testBit n := by
  rcases Nat.lt_or_gt_of_ne other with below | above
  · rw [Nat.add_comm, Nat.testBit_two_pow_add_gt below]
  · obtain ⟨k, rfl⟩ := Nat.exists_eq_add_of_lt above
    have even : x / 2 ^ b % 2 = 0 := by simpa [Nat.testBit_eq_decide_div_mod_eq] using clear
    have upper : (x + 2 ^ b) / 2 ^ b / 2 = x / 2 ^ b / 2 := by
      rw [Nat.add_div_right _ (Nat.two_pow_pos b)]
      omega
    simp only [Nat.testBit_eq_decide_div_mod_eq, show b + k + 1 = b + 1 + k by omega, Nat.pow_add _ (b + 1), Nat.pow_succ _ b,
      ← Nat.div_div_eq_div_mul, upper]

/-- The comparators with comparator b cleared. -/
def cmpCleared (x b : Nat) : Nat := x - (if tbit x b then 2 ^ b else 0)

theorem tbit_cmpCleared_self (x b : Nat) : tbit (cmpCleared x b) b = false := by
  rw [cmpCleared]
  split
  · next set =>
    rw [tbit_eq_testBit] at set ⊢
    have whole := Nat.testBit_two_pow_add_eq (x - 2 ^ b) b
    rw [Nat.add_sub_cancel' (Nat.ge_two_pow_of_testBit set), set] at whole
    simpa using whole.symm
  · next clear => simpa using clear

/-- Setting the cleared comparator b to 1 again touches no other. -/
theorem tbit_cmpCleared_add {x b n : Nat} (other : n ≠ b) : tbit (cmpCleared x b + 2 ^ b) n = tbit (cmpCleared x b) n := by
  have clear := tbit_cmpCleared_self x b
  rw [tbit_eq_testBit] at clear
  rw [tbit_eq_testBit, tbit_eq_testBit, testBit_add_two_pow clear other]

theorem tbit_cmpCleared {x b n : Nat} (other : n ≠ b) : tbit (cmpCleared x b) n = tbit x n := by
  by_cases set : tbit x b = true
  · rw [← tbit_cmpCleared_add other, cmpCleared, if_pos set, Nat.sub_add_cancel]
    exact Nat.ge_two_pow_of_testBit (tbit_eq_testBit x b ▸ set)
  · rw [cmpCleared, if_neg set, Nat.sub_zero]

/-- The comparators with comparator b written. -/
def cmpWritten (x b : Nat) (v : Bool) : Nat := if v then cmpCleared x b + 2 ^ b else cmpCleared x b

theorem tbit_cmpWritten_self (x b : Nat) (v : Bool) : tbit (cmpWritten x b v) b = v := by
  have clear := tbit_cmpCleared_self x b
  cases v
  · exact clear
  · rw [tbit_eq_testBit] at clear
    rw [tbit_eq_testBit, cmpWritten, if_pos rfl, Nat.add_comm, Nat.testBit_two_pow_add_eq, clear, Bool.not_false]

theorem tbit_cmpWritten_other {x b n : Nat} (other : n ≠ b) (v : Bool) : tbit (cmpWritten x b v) n = tbit x n := by
  cases v
  · exact tbit_cmpCleared other
  · exact (tbit_cmpCleared_add other).trans (tbit_cmpCleared other)

/-- The comparison of Table 6-15 that CMP.SET names by a code of two bits. -/
def cmpResult (code l r : Nat) : Bool :=
  match code with
  | 0 => l == r
  | 1 => l != r
  | 2 => decide (l < r)
  | _ => decide (r ≤ l)

theorem cmpResult_iff {code : Nat} (two : code < 4) (l r : Nat) :
    cmpResult code l r = true ↔ code = 0 ∧ l = r ∨ code = 1 ∧ l ≠ r ∨ code = 2 ∧ l < r ∨ code = 3 ∧ r ≤ l := by
  match code, two with
  | 0, _ | 1, _ | 2, _ | 3, _ => simp [cmpResult]

theorem execCmpSet_of_holds {s : State} {lc raw : Nat} (head : seqHead s lc oCMP = some raw) (holds : predHolds (cluster s lc) raw = true) :
    let c := cluster s lc
    let l := scalarSrc s lc (if natBits raw 70 1 = 1 then 1 else 2) (natBits raw 72 8) 0
    let r := scalarSrc s lc (natBits raw 80 2) (natBits raw 88 8) (natBits raw 128 64)
    execCmpSet lc s = .next (dispatch (setCluster s lc { c with seq := { c.seq with
      cmp := cmpWritten c.seq.cmp (natBits raw 64 3) (cmpResult (natBits raw 68 2) l r), pc := c.seq.pc + 1 } }) lc) :=
  congrArg _ (scalar_of_holds head holds)

/-- Settles O35: of the comparators CMP.SET writes, bit by bit, one is the result and the others stand. -/
theorem compareWritesOneComparator : Obligations.CompareWritesOneComparator := by
  unfold Obligations.CompareWritesOneComparator
  intro s lc raw head holds c l r
  rw [exec_cmpSet]
  refine ⟨cmpWritten c.seq.cmp (natBits raw 64 3) (cmpResult (natBits raw 68 2) l r), execCmpSet_of_holds head holds, ?_,
    fun b other => tbit_cmpWritten_other other _⟩
  rw [tbit_cmpWritten_self]
  exact cmpResult_iff (Nat.mod_lt _ (by decide)) l r

/-- Settles O34: a scalar command is its effect under the predicate followed by the next command; CNT.LOOP goes on at its target instead. -/
theorem scalarCommandsComplete : Obligations.ScalarCommandsComplete := by
  unfold Obligations.ScalarCommandsComplete
  refine ⟨?cntSet, ?cntAdd, ?loop, ?noLoop, ?prmMov, ?prmAdd⟩
  case cntSet =>
    intro s lc raw head
    rw [exec_cntSet, execCntSet, scalar_setCnt head]
  case cntAdd =>
    intro s lc raw head
    rw [exec_cntAdd, execCntAdd, scalar_setCnt head]
  case loop =>
    intro s lc raw head holds c v d
    rw [exec_cntLoop]
    obtain ⟨adv0, adv1⟩ := takeLoop_adv (raw := raw) c
    exact ⟨fun taken => ⟨execCntLoop_of_taken head holds taken, takeLoop_pc _, adv0, adv1, takeLoop_cnt _⟩,
      fun ended => execCntLoop_of_ended head holds ended⟩
  case noLoop =>
    intro s lc raw head fails
    exact execCntLoop_of_fails head fails
  case prmMov =>
    intro s lc raw head
    rw [exec_prmMov, execPrmMov, scalar_setPrm head]
  case prmAdd =>
    intro s lc raw head
    rw [exec_prmAdd, execPrmAdd, scalar_setPrm head]

end Sys2Proof.Machine
end

section
/-! PROOFS. The flag commands in the order of their queue, and the release of a waiter (R120, R121, R127 to R129, R170, R171). -/

namespace Sys2Proof.Machine

theorem exec_flgSet (lc q cyc : Nat) (s : State) : exec (.flgSet lc q cyc) s = execFlgSet lc q cyc s := rfl
theorem exec_flgClr (lc q cyc : Nat) (s : State) : exec (.flgClr lc q cyc) s = execFlgClr lc q cyc s := rfl
theorem exec_flgWait (lc q cyc : Nat) (s : State) : exec (.flgWait lc q cyc) s = execFlgWait lc q cyc s := rfl
theorem exec_flagWaiterRelease (lc q cyc : Nat) (s : State) : exec (.flagWaiterRelease lc q cyc) s = execFlagWaiterRelease lc q cyc s := rfl

/-! Sets and clears -/

section
variable {s : State} {lc q cyc op : Nat} {f : QEntry → State → State} {e : QEntry}

/-- A command that issued before and has been waiting for its queue takes effect before any head of the queue. -/
theorem flagCommand_of_ready (ready : flagReady s lc op = some e) :
    flagCommand s lc 0 cyc op f = dispatch (modCluster (f e s) lc
      (fun c => atCycle { c with opx := { c.opx with flagWait := c.opx.flagWait.erase e } } cyc)) lc := by
  simp only [flagCommand, if_true, ready, advance]

/-- What a head of its queue comes to when no command that issued before it is ready (R121, R123, R127). -/
theorem flagCommand_of_head (noReady : q = 0 → flagReady s lc op = none) (head : pickOp s lc q cyc op = some e) :
    (∀ d, missedDue (cluster s lc) q cyc e = some d → flagCommand s lc q cyc op f = lateSlip s lc q d e) ∧
    (missedDue (cluster s lc) q cyc e = none →
      (e.live = false → flagCommand s lc q cyc op f = retireAt s lc q cyc e) ∧
      (e.live = true → queueDone (cluster s lc) q e = true → flagCommand s lc q cyc op f = retireAt (f e s) lc q cyc e) ∧
      (e.live = true → queueDone (cluster s lc) q e = false → q = 0 → flagCommand s lc q cyc op f =
        retire (modCluster s lc (fun c => { c with opx := { c.opx with flagWait := c.opx.flagWait ++ [e] } })) lc q e) ∧
      (e.live = true → queueDone (cluster s lc) q e = false → q ≠ 0 → flagCommand s lc q cyc op f = s)) := by
  have none : (if q = 0 then flagReady s lc op else none) = none := by simpa using noReady
  simp only [flagCommand, none, head]
  constructor
  · intro d missed
    simp only [missed]
  · intro inTime
    simp only [inTime]
    refine ⟨fun dead => ?_, fun live done => ?_, fun live waits opx => ?_, fun live waits other => ?_⟩
    · simp only [dead, Bool.not_false, if_true]
    · simp only [live, done, Bool.not_true, Bool.false_eq_true, if_false, if_true]
    · simp only [live, waits, Bool.not_true, Bool.false_eq_true, if_false, if_pos opx]
    · simp only [live, waits, other, Bool.not_true, Bool.false_eq_true, if_false]

/-- A set or clear of a local flag, and of a section flag whose execution the interval's record does not count yet, takes effect (R129). -/
theorem flagApply_eq (g h : State → State) :
    (flSect e.raw = false → flagApply s lc e g h = h s) ∧
    (flSect e.raw = true → spGet 0 (cluster s lc).log.sfRec e.idx < e.occ → flagApply s lc e g h =
      g (modCluster s lc (fun c => { c with log := { c.log with sfRec := spSet 0 c.log.sfRec e.idx e.occ } }))) ∧
    (flSect e.raw = true → e.occ ≤ spGet 0 (cluster s lc).log.sfRec e.idx → flagApply s lc e g h = s) := by
  refine ⟨fun loc => ?_, fun sect fresh => ?_, fun sect counted => ?_⟩
  · simp only [flagApply, loc, Bool.false_eq_true, if_false]
  · simp only [flagApply, sect, sfApplies, fresh, decide_true, if_true]
    rfl
  · simp only [flagApply, sect, sfApplies, Nat.not_lt.2 counted, decide_false, Bool.false_eq_true, if_false, if_true]

end

/-! Waits -/

section
variable {s : State} {lc q cyc d : Nat} {e : QEntry}

/-- The wait that FLG.WAIT finds at a head of queue q. -/
def waitHead (s : State) (lc q cyc : Nat) : Option QEntry :=
  pick s lc q cyc (fun e => cOp e.raw == oFWAIT && !(setHas (cluster s lc).log.waiting (headCode q e)) &&
    ((q == 0 && cStream e.raw == 0) || readyAt (cluster s lc) e cyc) && (dueOf (cluster s lc) e).isSome)

/-- The cycle in which a wait that is due in cycle d starts: in stream 0 of the OPX queue exactly d (R121). -/
def waitStart (q cyc d : Nat) (e : QEntry) : Nat := if q = 0 ∧ cStream e.raw = 0 then d else cyc

/-- Has a wait of stream 0 of the OPX queue come too late for its due cycle d? -/
def waitLate (q cyc d : Nat) (e : QEntry) : Bool := q == 0 && cStream e.raw == 0 && isLate e cyc d

theorem waitLate_iff {q cyc d : Nat} {e : QEntry} : waitLate q cyc d e = true ↔ q = 0 ∧ cStream e.raw = 0 ∧ isLate e cyc d = true := by
  simp [waitLate, and_assoc]

/-- The state once a live wait in time has compared its count with its threshold (R127, R128, R171). -/
def waitCompared (s : State) (lc q start : Nat) (e : QEntry) : State :=
  if flThresh e.raw ≤ flagCount s lc e.raw then
    if (setsNow s lc start e.raw).isSome then waitNow (modCluster s lc (fun c => atCycle c start)) lc start (headCode q e) e.raw
    else retire (modCluster s lc (fun c => openNext (atCycle c start) e (start + 1))) lc q e
  else modCluster s lc (fun c => { (atCycle c start) with log := { c.log with waiting := setAdd c.log.waiting (headCode q e) } })

theorem execFlgWait_of_head (head : waitHead s lc q cyc = some e) (due : dueOf (cluster s lc) e = some d) :
    execFlgWait lc q cyc s = .next (
      if e.live = false then retire (modCluster s lc (fun c => openNext (atCycle c (waitStart q cyc d e)) e (d + 1))) lc q e
      else if waitLate q cyc d e = true then
        raiseSlip (modCluster s lc (fun c => dropEntry (atCycle c (d - 2)) q e)) lc q e ⟨8, d - 2, 0, 0, 0, 0⟩
      else waitCompared s lc q (waitStart q cyc d e) e) := by
  have start : (if (q == 0 && cStream e.raw == 0) = true then d else cyc) = waitStart q cyc d e := by simp [waitStart]
  rw [waitHead] at head
  simp only [execFlgWait, head, due, Option.getD_some, start, waitLate, waitCompared, apply_ite Host.Outcome.next, Bool.not_eq_true']
  rfl

/-- A waiter leaves its queue in a cycle of the bounds that its grant kept (R127). -/
theorem execFlagWaiterRelease_of_granted {w : Nat}
    (granted : (headCodes q).find? (fun w => setHas (cluster s lc).log.grant w && setHas (cluster s lc).log.waiting w) = some w)
    (head : headAt (cluster s lc) w = some e) (issues : issuingAt s lc (releaseCycle (cluster s lc) w cyc) = true) :
    let x := releaseCycle (cluster s lc) w cyc
    execFlagWaiterRelease lc q cyc s = .next (retire (modCluster s lc (fun c =>
      let d := openNext (atCycle c x) e (x + 1)
      { d with log := { d.log with waiting := setDel d.log.waiting w, grant := setDel d.log.grant w, grantAt := spDel d.log.grantAt w } })) lc q e) := by
  simp only [execFlagWaiterRelease, granted, head, issues, Bool.not_true, Bool.false_eq_true, if_false]

end

/-- Settles O36: a set or clear by the branches of `flagCommand`, a wait by its lateness and then its threshold, a release by its grant. -/
theorem flagCommandsComplete : Obligations.FlagCommandsComplete := by
  unfold Obligations.FlagCommandsComplete
  refine ⟨?set, ?setReady, ?clear, ?clearReady, ?apply, ?wait, ?release⟩
  case set =>
    intro s lc q cyc e noReady head
    rw [exec_flgSet, execFlgSet]
    simpa only [Host.Outcome.next.injEq] using flagCommand_of_head noReady head
  case setReady =>
    intro s lc cyc e ready
    rw [exec_flgSet, execFlgSet, flagCommand_of_ready ready]
  case clear =>
    intro s lc q cyc e noReady head
    rw [exec_flgClr, execFlgClr]
    simpa only [Host.Outcome.next.injEq] using flagCommand_of_head noReady head
  case clearReady =>
    intro s lc cyc e ready
    rw [exec_flgClr, execFlgClr, flagCommand_of_ready ready]
  case apply => exact fun s lc e g h => flagApply_eq g h
  case wait =>
    intro s lc q cyc e d head due start
    rw [exec_flgWait, execFlgWait_of_head head due]
    refine ⟨fun dead => congrArg _ (if_pos dead), fun live opx late => ?_, fun live inTime met => ?_, fun live inTime below => ?_⟩
    · rw [if_neg (by simp [live]), if_pos (waitLate_iff.2 ⟨opx.1, opx.2, late⟩)]
    · rw [if_neg (by simp [live]), if_neg (mt waitLate_iff.1 inTime), waitCompared, if_pos met]
      exact ⟨fun sets => congrArg _ (if_pos sets), fun noSet => congrArg _ (if_neg (Option.not_isSome_iff_eq_none.2 noSet))⟩
    · rw [if_neg (by simp [live]), if_neg (mt waitLate_iff.1 inTime), waitCompared, if_neg (Nat.not_le.2 below)]
      rfl
  case release =>
    intro s lc q cyc w e granted head b x issues
    rw [exec_flagWaiterRelease]
    exact execFlagWaiterRelease_of_granted granted head issues

end Sys2Proof.Machine
end

section
/-! PROOFS. SYNC, its completion and its limit (R130). -/

namespace Sys2Proof.Machine

theorem exec_sync (lc : Nat) (s : State) : exec (.sync lc) s = execSync lc s := rfl
theorem exec_syncComplete (n : Nat) (cycs : List (Nat × Nat)) (s : State) : exec (.syncComplete n cycs) s = execSyncComplete n cycs s := rfl
theorem exec_syncTimeout (n : Nat) (s : State) : exec (.syncTimeout n) s = execSyncTimeout n s := rfl

section
variable {s : State}

/-- The first cluster at an ordinal that the hub has not completed opens the ordinal's list of reports. -/
theorem execSync_of_first {lc raw : Nat} (head : seqHead s lc oSYNC = some raw) (holds : predHolds (cluster s lc) raw = true)
    (retired : quiet (cluster s lc) = true) (pending : s.prog.syncDone ≤ (cluster s lc).log.syncN)
    (first : ∀ r, r ∈ s.prog.sync → r.ordinal ≠ (cluster s lc).log.syncN) :
    let t := modCluster s lc (fun c => { c with seq := { c.seq with wait := .sync } })
    execSync lc s = .next { t with prog := { t.prog with sync := s.prog.sync ++ [⟨(cluster s lc).log.syncN, s.clk.aon, [lc], false⟩] } } := by
  have none : s.prog.sync.any (fun r => r.ordinal == (cluster s lc).log.syncN) = false := by simpa using first
  simp only [execSync, head, holds, retired, Bool.not_true, Bool.false_eq_true, if_false, modCluster_prog, Nat.not_lt.2 pending, none]

theorem execSyncComplete_of_reported {n : Nat} {r : SyncRec} (cycs : List (Nat × Nat)) (run : s.op = .running) (pending : s.prog.syncDone ≤ n)
    (entry : s.prog.sync.find? (fun r => r.ordinal == n) = some r) (reported : ∀ lc, lc ∈ syncMembers s → setHas r.reported lc = true) :
    execSyncComplete n cycs s =
      .next (openSync { s with prog := { s.prog with syncDone := n + 1, sync := s.prog.sync.filter (fun x => x.ordinal != n) } } n cycs) := by
  have all : (syncMembers s).all (fun lc => setHas r.reported lc) = true := List.all_eq_true.2 reported
  simp only [execSyncComplete, run, ne_eq, not_true_eq_false, if_false, Nat.not_lt.2 pending, entry, all, if_true]

theorem execSyncTimeout_of_due {n : Nat} {r : SyncRec} (run : s.op = .running) (entry : s.prog.sync.find? (fun r => r.ordinal == n) = some r)
    (fresh : r.raised = false) (passed : r.since + 50 * syncLimitMin s ≤ s.clk.aon) :
    let missing := (syncMembers s).filter (fun lc => !(setHas r.reported lc))
    let u := logEvent s 0x0003 5 4 0 noLink (packFields [(n, 32), (missing.length, 32)])
    let v := logEvent u 0x0003 5 4 0 (lastEntry u) (missing.foldl (fun m lc => m ||| 2 ^ lc) 0)
    execSyncTimeout n s =
      .next { v with prog := { v.prog with sync := v.prog.sync.map (fun x => if x.ordinal = n then { x with raised := true } else x) } } := by
  have due : ¬ (r.raised = true ∨ s.op ≠ .running ∨ s.clk.aon < r.since + 50 * syncLimitMin s) := by simp [fresh, run, Nat.not_lt.2 passed]
  simp only [execSyncTimeout, entry, due, if_false]

/-- An ordinal raised before, or whose limit has not passed, is left as it is. -/
theorem execSyncTimeout_of_idle {n : Nat} {r : SyncRec} (entry : s.prog.sync.find? (fun r => r.ordinal == n) = some r)
    (idle : r.raised = true ∨ s.clk.aon < r.since + 50 * syncLimitMin s) : execSyncTimeout n s = .next s := by
  have stays : r.raised = true ∨ s.op ≠ .running ∨ s.clk.aon < r.since + 50 * syncLimitMin s := idle.imp_right Or.inr
  simp only [execSyncTimeout, entry, if_pos stays]

end

/-- Settles O40: the guard of each step decides its branch, and the branch is the stated effect. -/
theorem syncCompletes : Obligations.SyncCompletes := by
  unfold Obligations.SyncCompletes
  refine ⟨?report, ?complete, ?raise, ?idle⟩
  case report =>
    intro s lc raw head holds retired pending first
    rw [exec_sync]
    exact execSync_of_first head holds retired pending first
  case complete =>
    intro s n cycs r run pending entry reported
    rw [exec_syncComplete]
    exact execSyncComplete_of_reported cycs run pending entry reported
  case raise =>
    intro s n r run entry fresh passed
    rw [exec_syncTimeout]
    exact execSyncTimeout_of_due run entry fresh passed
  case idle =>
    intro s n r entry idle
    rw [exec_syncTimeout]
    exact execSyncTimeout_of_idle entry idle

end Sys2Proof.Machine
end

section
/-! PROOFS. DATUM and the acknowledgement of its record (R33, R125, R141, R174, R214, R225, R382). -/

namespace Sys2Proof.Machine

theorem exec_datum (lc : Nat) (s : State) : exec (.datum lc) s = execDatum lc s := rfl
theorem exec_datumRecordAck (lc cyc : Nat) (march : Option (Nat × Nat × Nat)) (s : State) :
    exec (.datumRecordAck lc cyc march) s = execDatumRecordAck lc cyc march s := rfl

section
variable {s : State} {lc raw : Nat}

theorem recordWhen_of_admitted {t : State} (free : heldRange s (recordAddr (cluster s lc) (cluster s lc).seq.slot) 4096 = false)
    (admitted : admits s 2 (devCells (secOf lc) (recordAddr (cluster s lc) (cluster s lc).seq.slot) true) = true) :
    recordWhen s t lc raw = .next (writeRecord t lc raw) := by
  simp only [recordWhen, free, Bool.false_eq_true, if_false, gate, admitted, if_true]

/-- Of an interval without a refusal, a failed compare or consumed poison, outside poison-through, the record is all that a DATUM does (R141, R174). -/
theorem execDatum_of_clean (head : seqHead s lc oDATUM = some raw) (holds : predHolds (cluster s lc) raw = true)
    (retired : quiet (cluster s lc) = true) (goesOn : datumStep raw = false ∨ setHas s.train.stopOwed lc = false)
    (noRefusal : refused (cluster s lc) = false) (noThrough : (cluster s lc).log.through = false) (noPoison : (cluster s lc).log.poisonN = 0)
    (noFail : checkFailed (cluster s lc) = false) : execDatum lc s = recordWhen s s lc raw := by
  have noStop : (datumStep raw && setHas s.train.stopOwed lc) = false := Bool.and_eq_false_iff.2 goesOn
  simp only [execDatum, head, holds, retired, noStop, noRefusal, noThrough, noPoison, noFail, Bool.not_true, Bool.not_false, Bool.false_eq_true,
    if_false, and_self, if_true]

theorem execDatum_of_fails (head : seqHead s lc oDATUM = some raw) (fails : predHolds (cluster s lc) raw = false) :
    execDatum lc s = .next (dispatch (modCluster s lc (fun c => { c with seq := { c.seq with pc := c.seq.pc + 1 } })) lc) := by
  simp only [execDatum, head, fails, Bool.not_false, if_true, advance]

/-- The cluster in its next interval: the record counted and its slot toggled, frames opened in cycle cyc + 1 (R120, R141 step 5). -/
def nextInterval (n : Nat × Nat × Nat) (step : Bool) (cyc : Nat) (c : Cluster) : Cluster :=
  beginAt (closeInterval { c with seq := { c.seq with
    slot := !c.seq.slot, pc := c.seq.pc + 1
    prm := spSet 0 (spSet 0 (spSet 0 c.seq.prm 248 n.1) 253 n.2.1) 252 n.2.2 } } step) (cyc + 1)

theorem execDatumRecordAck_of_plain (cyc : Nat) (waits : (cluster s lc).seq.wait = .record) (noStop : (cluster s lc).seq.stop = none)
    (run : s.op = .running) (noMarch : (cluster s lc).mem.arm = false) (noMove : (cluster s lc).log.moveDue = false) :
    let step := datumStep (fetchCmd (cluster s lc) (cluster s lc).seq.pc)
    let v := modCluster (countReadies (releaseMarked s lc) lc) lc (nextInterval (nextCounts s lc step) step cyc)
    execDatumRecordAck lc cyc none s =
      .next (dispatch (if stateStep s < stateStep v then { v with ckpt := v.ckpt.endStep v.clk.aon } else v) lc) := by
  simp only [execDatumRecordAck, waits, noStop, run, noMarch, noMove, ne_eq, not_true_eq_false, Option.isSome_none, Bool.false_eq_true, or_self,
    if_false, Bool.and_false]
  rfl

end

/-- Settles O37: no exception applies to the DATUM, and neither a march nor a move to the acknowledgement. -/
theorem datumCompletes : Obligations.DatumCompletes := by
  unfold Obligations.DatumCompletes
  refine ⟨?record, ?skipped, ?acknowledged⟩
  case record =>
    intro s lc raw head holds retired goesOn noRefusal noThrough noPoison noFail c a free admitted
    rw [exec_datum, execDatum_of_clean head holds retired goesOn noRefusal noThrough noPoison noFail, recordWhen_of_admitted free admitted]
    rfl
  case skipped =>
    intro s lc raw head fails
    rw [exec_datum, execDatum_of_fails head fails]
  case acknowledged =>
    intro s lc cyc waits noStop run noMarch noMove
    rw [exec_datumRecordAck, execDatumRecordAck_of_plain cyc waits noStop run noMarch noMove]
    rfl

end Sys2Proof.Machine
end

section
/-! PROOFS. CLUSTER_REPLAY by the cause of the stop (R93, R135 to R137, R234, R369, Table 13-6), and FLAG_DEADLOCK (R131, R132). -/

namespace Sys2Proof.Machine

theorem exec_clusterReplay (lc : Nat) (r : ReplayAt) (s : State) : exec (.clusterReplay lc r) s = execClusterReplay lc r s := rfl
theorem exec_flagDeadlock (sec g : Nat) (s : State) : exec (.flagDeadlock sec g) s = execFlagDeadlock sec g s := rfl

/-- Does CLUSTER_REPLAY find a stopped cluster of the running consist that no pause holds? -/
def mayReplay (s : State) (lc : Nat) : Prop :=
  s.op = .running ∧ (cluster s lc).inConsist = true ∧ (cluster s lc).pausedOk = false ∧ (cluster s lc).seq.stop ≠ none

theorem mayReplay.acts {s : State} {lc : Nat} (may : mayReplay s lc) :
    ¬ (s.op ≠ .running ∨ (!(cluster s lc).inConsist) = true ∨ (cluster s lc).pausedOk = true ∨ (cluster s lc).seq.stop = none) := by
  obtain ⟨run, inConsist, notPaused, stopped⟩ := may
  simp [run, inConsist, notPaused, stopped]

/-- A cluster that is not stopped first reports the parity fault (Table 13-1). -/
theorem execClusterReplay_of_parity {s : State} {lc cyc q idx : Nat} {fail : Option (Nat × Nat × Nat)} (run : s.op = .running)
    (inConsist : (cluster s lc).inConsist = true) (notPaused : (cluster s lc).pausedOk = false) (notStopped : (cluster s lc).seq.stop = none) :
    execClusterReplay lc ⟨cyc, some (q, idx), fail⟩ s = execClusterReplay lc ⟨cyc, none, fail⟩ (raiseParity s lc q idx) := by
  have reports : (s.op = .running && (cluster s lc).inConsist && !(cluster s lc).pausedOk && (cluster s lc).seq.stop.isNone) = true := by
    rw [run, inConsist, notPaused, notStopped]
    rfl
  simp only [execClusterReplay, reports, if_true]

/-! The response by the cause of the stop: u is the state once the traverses in flight have ended -/

section
variable {s u : State} {lc cyc : Nat} {fail : Option (Nat × Nat × Nat)} (may : mayReplay s lc) (ended : endFlights s lc = u)
include may ended

theorem execClusterReplay_of_slip (why : (cluster u lc).seq.stop = some .slip) (again : (cluster u lc).log.slips < 3) :
    let c := cluster u lc
    execClusterReplay lc ⟨cyc, none, fail⟩ s = .next (replayCluster u lc cyc true
      (if c.log.conservative = true ∧ 2 ≤ c.log.slips then min 64 (2 * c.log.gForce) else c.log.gForce)) := by
  simp only [execClusterReplay, if_neg may.acts, ended, why, Nat.not_le.2 again, if_false, Bool.and_eq_true, decide_eq_true_eq]

theorem execClusterReplay_of_thirdSlip (why : (cluster u lc).seq.stop = some .slip) (third : 3 ≤ (cluster u lc).log.slips) :
    execClusterReplay lc ⟨cyc, none, fail⟩ s = .next (stepFaulted u (cluster u lc).log.faultIdx) := by
  simp only [execClusterReplay, if_neg may.acts, ended, why, third, if_true]

/-- A first checksum mismatch or poison report of the interval replays in normal timing. -/
theorem execClusterReplay_of_firstReport (why : (cluster u lc).seq.stop = some .checksum ∧ repeats (cluster u lc) 1 ≤ 1 ∨
      (cluster u lc).seq.stop = some .poison ∧ repeats (cluster u lc) 2 ≤ 1) :
    execClusterReplay lc ⟨cyc, none, fail⟩ s = .next (replayCluster u lc cyc false (cluster u lc).log.gForce) := by
  rcases why with ⟨why, first⟩ | ⟨why, first⟩
  · simp only [execClusterReplay, if_neg may.acts, ended, why, first, if_true]
  · simp only [execClusterReplay, if_neg may.acts, ended, why, first, if_true]

/-- A control parity error, a save that does not check or an ended monitor trip replays in the timing that stands. -/
theorem execClusterReplay_of_sameTiming (why : (cluster u lc).seq.stop = some .ctrlParity ∧ repeats (cluster u lc) 3 ≤ 1 ∨
      (cluster u lc).seq.stop = some .resumeFail ∨ (cluster u lc).seq.stop = some .monitor ∧ (sectionOf u (secOf lc)).tripped = false) :
    execClusterReplay lc ⟨cyc, none, fail⟩ s = .next (replayCluster u lc cyc (cluster u lc).log.conservative (cluster u lc).log.gForce) := by
  rcases why with ⟨why, first⟩ | why | ⟨why, recovered⟩
  · simp only [execClusterReplay, if_neg may.acts, ended, why, first, if_true]
  · simp only [execClusterReplay, if_neg may.acts, ended, why]
  · simp only [execClusterReplay, if_neg may.acts, ended, why, recovered, Bool.false_eq_true, if_false]

/-- A second report of poison goes on in poison-through, unless the test of the scratchpad fails (R369). -/
theorem execClusterReplay_of_secondPoison (why : (cluster u lc).seq.stop = some .poison) (second : 2 ≤ repeats (cluster u lc) 2) :
    execClusterReplay lc ⟨cyc, none, fail⟩ s = if fail.isSome then .next (recoveryFailed u lc fail) else .next (modCluster u lc (fun c =>
      { c with seq := { c.seq with stop := none, wait := .run }, log := { c.log with through := true }, mem := runTests c.mem (2 ^ 64 - 1) true none })) := by
  have notFirst : ¬ repeats (cluster u lc) 2 ≤ 1 := Nat.not_le.2 second
  simp only [execClusterReplay, if_neg may.acts, ended, why, notFirst, if_false]

theorem execClusterReplay_of_secondSeqMemory (why : (cluster u lc).seq.stop = some .seqMemory) (second : repeats (cluster u lc) 4 = 2) :
    execClusterReplay lc ⟨cyc, none, fail⟩ s = .next u := by
  simp only [execClusterReplay, if_neg may.acts, ended, why, second, if_true]

theorem execClusterReplay_of_thirdSeqMemory (why : (cluster u lc).seq.stop = some .seqMemory) (third : 3 ≤ repeats (cluster u lc) 4) :
    execClusterReplay lc ⟨cyc, none, fail⟩ s = .next (stepFaulted u (cluster u lc).log.faultIdx) := by
  have notSecond : ¬ repeats (cluster u lc) 4 = 2 := by omega
  simp only [execClusterReplay, if_neg may.acts, ended, why, notSecond, third, if_false, if_true]

section
variable (why : (cluster u lc).seq.stop = some .seqMemory) (first : repeats (cluster u lc) 4 < 2)
include why first

theorem execClusterReplay_of_failedSeqMemory (failed : fail.isSome = true) :
    execClusterReplay lc ⟨cyc, none, fail⟩ s = .next (recoveryFailed u lc fail) := by
  have notSecond : ¬ repeats (cluster u lc) 4 = 2 := by omega
  have notThird : ¬ 3 ≤ repeats (cluster u lc) 4 := by omega
  simp only [execClusterReplay, if_neg may.acts, ended, why, notSecond, notThird, failed, if_false, if_true]

theorem execClusterReplay_of_reloadedPart {x y : State}
    (reloaded : reloadPart (modMem u lc (fun m => runTests m (2 ^ 64 - 1) true none)) lc = (some x, y)) :
    execClusterReplay lc ⟨cyc, none, none⟩ s = .next (replayCluster x lc cyc (cluster u lc).log.conservative (cluster u lc).log.gForce) := by
  have notSecond : ¬ repeats (cluster u lc) 4 = 2 := by omega
  have notThird : ¬ 3 ≤ repeats (cluster u lc) 4 := by omega
  simp only [execClusterReplay, if_neg may.acts, ended, why, notSecond, notThird, reloaded, Option.isSome_none, Bool.false_eq_true, if_false]

end
end

/-! The deadlock of a barrier group -/

theorem execFlagDeadlock_of_stuck {s : State} {sec g : Nat} (run : s.op = .running) (waits : (groupLcs s sec g).flatMap (waitsOf s) ≠ [])
    (goes : setHas (sectionOf s sec).haltedGroups g = false) (stuck : ∀ lc, lc ∈ groupLcs s sec g → clusterStuck (cluster s lc) = true)
    (noSetter : ∀ w, w ∈ (groupLcs s sec g).flatMap (waitsOf s) → outsideSetter s sec g w.2.2 = false) :
    execFlagDeadlock sec g s = .next (logWaits ((groupLcs s sec g).foldl (fun u lc => modCluster u lc dropBanks)
      (modSection s sec (fun k => { k with haltedGroups := setAdd k.haltedGroups g })))
      ((groupLcs s sec g).flatMap (waitsOf s)).length 0 ((groupLcs s sec g).flatMap (waitsOf s))) := by
  have guard : (s.op = .running && !((groupLcs s sec g).flatMap (waitsOf s)).isEmpty && !(setHas (sectionOf s sec).haltedGroups g) &&
      (groupLcs s sec g).all (fun lc => clusterStuck (cluster s lc)) &&
      !(((groupLcs s sec g).flatMap (waitsOf s)).any (fun w => outsideSetter s sec g w.2.2))) = true := by
    have all : (groupLcs s sec g).all (fun lc => clusterStuck (cluster s lc)) = true := List.all_eq_true.2 stuck
    have noSet : ((groupLcs s sec g).flatMap (waitsOf s)).any (fun w => outsideSetter s sec g w.2.2) = false := by
      rw [List.any_eq_false]
      exact fun w member => by rw [noSetter w member]; decide
    have found : ((groupLcs s sec g).flatMap (waitsOf s)).isEmpty = false := List.isEmpty_eq_false_iff.2 waits
    rw [found, goes, all, noSet, run]
    rfl
  exact if_pos guard

/-- Settles O41: each cause of a stop has its response, and a parity operand is reported before it. -/
theorem replayAndDeadlockComplete : Obligations.ReplayAndDeadlockComplete := by
  unfold Obligations.ReplayAndDeadlockComplete
  simp only [exec_clusterReplay, exec_flagDeadlock]
  refine ⟨?replay, ?parity, ?deadlock⟩
  case replay =>
    intro s lc cyc f run inConsist notPaused stopped
    have may : mayReplay s lc := ⟨run, inConsist, notPaused, stopped⟩
    refine ⟨?slip, ?thirdSlip, ?first, ?sameTiming, ?through, ?poisonFailed, ?seqSecond, ?seqThird, ?seqFailed, ?seqReloaded⟩
    case slip => exact execClusterReplay_of_slip may rfl
    case thirdSlip => exact execClusterReplay_of_thirdSlip may rfl
    case first => exact execClusterReplay_of_firstReport may rfl
    case sameTiming => exact execClusterReplay_of_sameTiming may rfl
    case through =>
      intro why second passed
      rw [execClusterReplay_of_secondPoison may rfl why second, passed]
      rfl
    case poisonFailed =>
      intro why second failed
      rw [execClusterReplay_of_secondPoison may rfl why second, if_pos failed]
    case seqSecond => exact execClusterReplay_of_secondSeqMemory may rfl
    case seqThird => exact execClusterReplay_of_thirdSeqMemory may rfl
    case seqFailed => exact execClusterReplay_of_failedSeqMemory may rfl
    case seqReloaded =>
      intro x y why first passed reloaded
      rw [passed]
      exact execClusterReplay_of_reloadedPart may rfl why first reloaded
  case parity =>
    intro s lc cyc f q idx run inConsist notPaused notStopped
    exact execClusterReplay_of_parity run inConsist notPaused notStopped
  case deadlock =>
    intro s sec g run waits goes stuck noSetter
    exact execFlagDeadlock_of_stuck run waits goes stuck noSetter

end Sys2Proof.Machine
end

section
/-! PROOFS. Reading back the fields of a datum record (Tables 5-6, 5-7, 13-5). -/

namespace Sys2Proof.Machine

/-! Packed fields and little-endian bytes (R5, R6) -/

theorem natBits_natBits {x lo n lo' n' : Nat} (inside : lo' + n' ≤ n) : natBits (natBits x lo n) lo' n' = natBits x (lo + lo') n' := by
  refine Nat.eq_of_testBit_eq fun i => ?_
  by_cases h : i < n'
  · simp [natBits, h, show lo' + i < n by omega, Nat.add_assoc]
  · simp [natBits, h]

@[simp] theorem natBits_packFields_head (v w : Nat) (r : List (Nat × Nat)) : natBits (packFields ((v, w) :: r)) 0 w = v % 2 ^ w := by
  simp [natBits, packFields]

theorem natBits_packFields_tail {w lo : Nat} (beyond : w ≤ lo) (v n : Nat) (r : List (Nat × Nat)) :
    natBits (packFields ((v, w) :: r)) lo n = natBits (packFields r) (lo - w) n := by
  obtain ⟨k, rfl⟩ := Nat.exists_eq_add_of_le beyond
  have above : packFields ((v, w) :: r) / 2 ^ w = packFields r := by
    rw [packFields, Nat.add_mul_div_left _ _ (Nat.two_pow_pos w), Nat.div_eq_of_lt (Nat.mod_lt _ (Nat.two_pow_pos w)), Nat.zero_add]
  rw [natBits, natBits, Nat.shiftRight_eq_div_pow, Nat.pow_add, ← Nat.div_div_eq_div_mul, above, Nat.add_sub_cancel_left,
    Nat.shiftRight_eq_div_pow]

@[simp] theorem length_leBytes (n x : Nat) : (leBytes n x).length = n := by
  induction n generalizing x with
  | zero => rfl
  | succ n ih => rw [leBytes, List.length_cons, ih]

theorem ofLe_leBytes (n x : Nat) : ofLe (leBytes n x) = x % 256 ^ n := by
  induction n generalizing x with
  | zero => simp [leBytes, ofLe, Nat.mod_one]
  | succ n ih =>
    rw [leBytes, ofLe, ih, BitVec.toNat_ofNat, pow_succ' 256, Nat.mod_mul]

theorem leBytes_drop (m k x : Nat) : (leBytes m x).drop k = leBytes (m - k) (x / 256 ^ k) := by
  induction k generalizing m x with
  | zero => simp
  | succ k ih =>
    cases m with
    | zero => simp [leBytes]
    | succ m => rw [leBytes, List.drop_succ_cons, ih, Nat.div_div_eq_div_mul, ← Nat.pow_succ', Nat.add_sub_add_right]

theorem leBytes_take {m n : Nat} (fits : n ≤ m) (x : Nat) : (leBytes m x).take n = leBytes n x := by
  induction n generalizing m x with
  | zero => simp [leBytes]
  | succ n ih =>
    obtain ⟨m, rfl⟩ : ∃ k, m = k + 1 := ⟨m - 1, by omega⟩
    rw [leBytes, List.take_succ_cons, ih (by omega), leBytes]

/-- Bytes of a number are bits of it. -/
theorem byteField_leBytes {m lo n : Nat} (inside : lo + n ≤ m) (x : Nat) : byteField (leBytes m x) lo n = natBits x (8 * lo) (8 * n) := by
  rw [byteField, leBytes_drop, leBytes_take (by omega), ofLe_leBytes, natBits, Nat.shiftRight_eq_div_pow, Nat.pow_mul, Nat.pow_mul]

theorem byteField_append_left {a b : List Byte} {lo n : Nat} (fits : lo + n ≤ a.length) : byteField (a ++ b) lo n = byteField a lo n := by
  rw [byteField, byteField, List.drop_append_of_le_length (by omega), List.take_append_of_le_length (by rw [List.length_drop]; omega)]

theorem byteField_append_right {a b : List Byte} {lo : Nat} (beyond : a.length ≤ lo) (n : Nat) :
    byteField (a ++ b) lo n = byteField b (lo - a.length) n := by
  rw [byteField, byteField, List.drop_append, List.drop_eq_nil_of_le beyond, List.nil_append]

/-- A table of m numbers of n bytes each. -/
def leTable (n m : Nat) (f : Nat → Nat) : List Byte := (List.range m).flatMap (fun k => leBytes n (f k))

@[simp] theorem length_leTable (n m : Nat) (f : Nat → Nat) : (leTable n m f).length = m * n := by
  simp [leTable, List.length_flatMap]

theorem byteField_leTable {n m k : Nat} (inside : k < m) (f : Nat → Nat) : byteField (leTable n m f) (n * k) n = f k % 2 ^ (8 * n) := by
  induction m with
  | zero => omega
  | succ m ih =>
    have last : leTable n (m + 1) f = leTable n m f ++ leBytes n (f m) := by simp [leTable, List.range_succ]
    rw [last]
    by_cases earlier : k < m
    · have fits : n * k + n ≤ m * n := by
        rw [← Nat.mul_succ, Nat.mul_comm m]
        exact Nat.mul_le_mul_left n earlier
      rw [byteField_append_left (by rw [length_leTable]; exact fits), ih earlier]
    · obtain rfl : k = m := by omega
      rw [byteField_append_right (by rw [length_leTable, Nat.mul_comm]), length_leTable, Nat.mul_comm n, Nat.sub_self,
        byteField_leBytes (by omega)]
      simp [natBits]

/-! Tables built from a rising list of keys -/

section
variable {α : Type} [DecidableEq α] {d : α} {f : Nat → α}

/-- The table of the keys at which f differs from what an unlisted key reads as. -/
def tableOf (d : α) (f : Nat → α) (ks : List Nat) : Sparse α := ks.filterMap (fun k => if f k = d then none else some (k, f k))

theorem spGet_tableOf {ks : List Nat} (rising : ks.Pairwise (· < ·)) (x : Nat) :
    spGet d (tableOf d f ks) x = if x ∈ ks then f x else d := by
  induction ks with
  | nil => rfl
  | cons k ks ih =>
    obtain ⟨above, rest⟩ := List.pairwise_cons.1 rising
    have behind : x ∈ ks → k < x := above x
    have read := ih rest
    rw [tableOf] at read ⊢
    by_cases unlisted : f k = d
    · rw [List.filterMap_cons_none (by simp [unlisted]), read]
      grind
    · rw [List.filterMap_cons_some (by simp [unlisted]; rfl), spGet, read]
      grind

theorem tableOf_wfFrom {lo : Nat} {ks : List Nat} (rising : ks.Pairwise (· < ·)) (low : ∀ k ∈ ks, lo ≤ k) :
    spWfFrom d lo (tableOf d f ks) = true := by
  induction ks generalizing lo with
  | nil => rfl
  | cons k ks ih =>
    obtain ⟨above, rest⟩ := List.pairwise_cons.1 rising
    obtain ⟨lowHead, lowTail⟩ := List.forall_mem_cons.1 low
    rw [tableOf] at ih ⊢
    by_cases unlisted : f k = d
    · rw [List.filterMap_cons_none (by simp [unlisted])]
      exact ih rest lowTail
    · rw [List.filterMap_cons_some (by simp [unlisted]; rfl)]
      simp [spWfFrom, lowHead, unlisted, ih rest above]

/-- A table in canonical form with its keys from lo to lo + n - 1 lists those of them at which it does not read d. -/
theorem tableOf_spGet_range' {m : Sparse α} (lo n : Nat) (wf : spWfFrom d lo m = true) (bound : ∀ e, e ∈ m → e.1 < lo + n) :
    tableOf d (spGet d m) (List.range' lo n) = m := by
  induction n generalizing lo m with
  | zero =>
    cases m with
    | nil => rfl
    | cons e r =>
      have := bound e List.mem_cons_self
      simp only [spWfFrom, Bool.and_eq_true, decide_eq_true_eq] at wf
      omega
  | succ n ih =>
    have skip (later : spWfFrom d (lo + 1) m = true) : tableOf d (spGet d m) (List.range' lo (n + 1)) = m := by
      rw [List.range'_succ, tableOf, List.filterMap_cons_none (by simp [spGet_below later])]
      exact ih (lo + 1) later fun e member => by have := bound e member; omega
    match m, wf with
    | [], _ => exact skip rfl
    | (k, v) :: r, wf =>
      simp only [spWfFrom, Bool.and_eq_true, decide_eq_true_eq] at wf
      obtain ⟨⟨low, listed⟩, rest⟩ := wf
      by_cases first : k = lo
      · subst first
        have tail (j : Nat) (later : j ∈ List.range' (k + 1) n) : spGet d ((k, v) :: r) j = spGet d r j := by
          have := List.mem_range'_1.1 later
          rw [spGet, if_neg (by omega), if_neg (by omega)]
        have head : spGet d ((k, v) :: r) k = v := by rw [spGet, if_pos rfl]
        rw [List.range'_succ, tableOf, List.filterMap_cons_some (by rw [head, if_neg listed]),
          List.filterMap_congr (fun j later => by rw [tail j later])]
        refine congrArg _ (ih (k + 1) rest fun e member => ?_)
        have := bound e (List.mem_cons_of_mem _ member)
        omega
      · exact skip (by simp [spWfFrom, listed, rest]; omega)

theorem tableOf_spGet {m : Sparse α} {n : Nat} (wf : spWf d m = true) (bound : ∀ e, e ∈ m → e.1 < n) :
    tableOf d (spGet d m) (List.range n) = m := by
  rw [List.range_eq_range']
  exact tableOf_spGet_range' 0 n wf fun e member => by rw [Nat.zero_add]; exact bound e member

end

end Sys2Proof.Machine
end

section
/-! PROOFS. What a replay makes of the handles of its record (R213, R214, R366, Table 13-5). -/

namespace Sys2Proof.Machine

/-- The handle that a replay leaves where the cluster has x and the record of interval `id` carries r (R366). -/
def restoredHandle (id : Nat) (latest : Bool) (r x : Handle) : Handle :=
  if latest && x.held && x.since == id then { x with release := false }
  else if sameHold x r then if x.held then { x with release := false, ver := r.ver } else x
  else r

/-- The number of the interval that a record's counts name. -/
def recordInterval (l : List Byte) : Nat := byteField l 8 8 * 2 ^ 64 + byteField l 16 8 + 1

/-- Handle h as the record carries it. -/
def handleIn (l : List Byte) (h : Nat) : Handle := recordHandle (byteField l (0xA00 + 8 * h) 8)

/-- A replay restores handle h: HOLD counts follow it, and the cluster's table takes it. -/
def restoreHandle (lc : Nat) (l : List Byte) (latest : Bool) (s : State) (h : Nat) : State :=
  let x := handleOf s lc h
  let r := handleIn l h
  if latest && x.held && x.since == recordInterval l then setHandle s lc h { x with release := false }
  else if sameHold x r then setHandle s lc h (if x.held then { x with release := false, ver := r.ver } else x)
  else
    let s := releaseHandle s x
    let s := if r.held then modVt s r.tensor (fun v => modHold v r.slot (fun n => n + 1)) else s
    setHandle s lc h r

theorem restoreHandles_eq_foldl (s : State) (lc : Nat) (l : List Byte) (latest : Bool) :
    restoreHandles s lc l latest = (List.range 8).foldl (restoreHandle lc l latest) s := rfl

@[simp] theorem releaseHandle_cl (s : State) (x : Handle) : (releaseHandle s x).cl = s.cl := by
  rw [releaseHandle]
  split <;> rfl

/-- The table of a cluster after a write of handle h depends on the clusters alone. -/
theorem setHandle_cl_congr {s t : State} (same : s.cl = t.cl) (lc h : Nat) (x : Handle) : (setHandle s lc h x).cl = (setHandle t lc h x).cl := by
  simp only [setHandle, modCluster_cl, cluster, same]

theorem restoreHandle_cl (s : State) (lc : Nat) (l : List Byte) (latest : Bool) (h : Nat) :
    (restoreHandle lc l latest s h).cl =
      (setHandle s lc h (restoredHandle (recordInterval l) latest (handleIn l h) (handleOf s lc h))).cl := by
  simp only [restoreHandle, restoredHandle]
  split_ifs
  · rfl
  · rfl
  · rfl
  · exact setHandle_cl_congr (by simp [modVt]) ..
  · exact setHandle_cl_congr (by simp) ..

theorem cluster_modCluster_of_ne {s : State} {lc : Nat} {f : Cluster → Cluster} (ne : f (cluster s lc) ≠ .reset) :
    cluster (modCluster s lc f) lc = f (cluster s lc) := by
  rw [cluster, modCluster_cl, spSet, if_neg ne, spGet_spPut, if_pos rfl]

/-- A cluster with an entry left in its handle table keeps its place in the table of clusters. -/
theorem restoreHandle_handles {s : State} {lc : Nat} {l : List Byte} {latest : Bool} {h : Nat}
    (ne : spSet .empty (cluster s lc).handles h (restoredHandle (recordInterval l) latest (handleIn l h) (handleOf s lc h)) ≠ []) :
    (cluster (restoreHandle lc l latest s h) lc).handles =
      spSet .empty (cluster s lc).handles h (restoredHandle (recordInterval l) latest (handleIn l h) (handleOf s lc h)) := by
  rw [cluster, restoreHandle_cl, ← cluster, setHandle, cluster_modCluster_of_ne]
  exact fun reset => ne (congrArg Cluster.handles reset)

end Sys2Proof.Machine
end

section
/-! PROOFS. The layout of a datum record (Tables 5-6, 5-7, 13-5), its check value (R144), and what a replay restores from it (R366). -/

namespace Sys2Proof.Machine

/-! CRC-32C has 32 bits (R414) -/

theorem crcBits_crc32c_lt {v : Nat} (n : Nat) (hv : v < 2 ^ 32) : crcBits cfgCrc32c (reflect 32 0x1EDC6F41) n v < 2 ^ 32 := by
  induction n generalizing v with
  | zero => exact hv
  | succ n ih =>
    refine ih ?_
    have half : v / 2 < 2 ^ 32 := by omega
    rw [crcBit, if_pos (by rfl)]
    split
    · exact Nat.xor_lt_two_pow half (by decide)
    · exact half

theorem crcFeed_crc32c_lt {v : Nat} (l : List Byte) (hv : v < 2 ^ 32) : crcFeed cfgCrc32c v l < 2 ^ 32 := by
  refine List.foldlRecOn (motive := (· < 2 ^ 32)) l _ hv fun v hv b _ => crcBits_crc32c_lt 8 (Nat.xor_lt_two_pow hv ?_)
  exact Nat.lt_trans b.isLt (by decide)

theorem crc32c_lt (l : List Byte) : crc32c l < 2 ^ 32 :=
  Nat.xor_lt_two_pow (crcFeed_crc32c_lt l (by decide)) (by decide)

/-! The layout -/

section
variable (s : State) (lc resume : Nat) (step : Bool)

/-- The header of the record: FORMAT, LC, resume index, slot, G, REPLAY, STEP, DATUM_N and the SYNC ordinal. -/
def recordHeader : Nat :=
  packFields [(1, 8), (lc, 8), (resume, 14), (b2n (cluster s lc).seq.slot, 1), (0, 1), ((cluster s lc).log.gForce, 7), (0, 1),
    (min 65535 (nextCounts s lc step).2.2, 16), (0, 8), ((nextCounts s lc step).1, 64), ((nextCounts s lc step).2.1, 64),
    ((cluster s lc).log.syncN, 32)]

/-- Parameter k as the record carries it: STEP, DATUM_N and REPLAY with the values after the datum. -/
def recordPrm (k : Nat) : Nat :=
  if k = 248 then (nextCounts s lc step).1 else if k = 252 then (nextCounts s lc step).2.2
  else if k = 253 then (nextCounts s lc step).2.1 else prmGet s lc k

/-- The parts of the record that CHECK covers, in their order. -/
def recordParts : List (List Byte) :=
  [leBytes 64 (recordHeader s lc resume step), leTable 8 16 (spGet 0 (cluster s lc).seq.cnt),
    leBytes 8 (packFields [((cluster s lc).seq.cmp, 8), ((cluster s lc).seq.loops.length, 3)]), zeros 56,
    leTable 2 64 (spGet 0 (cluster s lc).seq.lf), zeros 128, leTable 8 256 (recordPrm s lc step),
    leTable 8 8 (fun h => handleBits (handleOf s lc h)), leTable 8 16 (fun k => ((cluster s lc).log.readies[k]?).elim 0 (readyBits s lc)),
    leBytes 8 (packFields [((cluster s lc).log.poisonN, 32), ((cluster s lc).log.pcN, 8), (b2n (cluster s lc).log.through, 1)]),
    zeros (0xFC0 - 0xAC8), zeros 60]

/-- The parts and CHECK. -/
def checkedParts : List (List Byte) :=
  recordParts s lc resume step ++ [leBytes 4 (crc32c (recordParts s lc resume step).flatten)]

theorem recordBytes_eq : recordBytes s lc resume step =
    (recordParts s lc resume step).flatten ++ leBytes 4 (crc32c (recordParts s lc resume step).flatten) := by
  have covered : (recordParts s lc resume step).flatten = leBytes 64 (recordHeader s lc resume step) ++
      leTable 8 16 (spGet 0 (cluster s lc).seq.cnt) ++
      leBytes 8 (packFields [((cluster s lc).seq.cmp, 8), ((cluster s lc).seq.loops.length, 3)]) ++ zeros 56 ++
      leTable 2 64 (spGet 0 (cluster s lc).seq.lf) ++ zeros 128 ++ leTable 8 256 (recordPrm s lc step) ++
      leTable 8 8 (fun h => handleBits (handleOf s lc h)) ++
      leTable 8 16 (fun k => ((cluster s lc).log.readies[k]?).elim 0 (readyBits s lc)) ++
      leBytes 8 (packFields [((cluster s lc).log.poisonN, 32), ((cluster s lc).log.pcN, 8), (b2n (cluster s lc).log.through, 1)]) ++
      zeros (0xFC0 - 0xAC8) ++ zeros 60 := by
    simp only [recordParts, List.flatten_cons, List.flatten_nil, List.append_assoc, List.append_nil]
  rw [covered]
  rfl

theorem recordBytes_eq_flatten : recordBytes s lc resume step = (checkedParts s lc resume step).flatten := by
  rw [recordBytes_eq, checkedParts, List.flatten_append, List.flatten_singleton]

@[simp] theorem length_zeros (n : Nat) : (zeros n).length = n := List.length_replicate

theorem length_recordParts : (recordParts s lc resume step).flatten.length = 0xFFC := by
  simp [recordParts]

theorem length_recordBytes : (recordBytes s lc resume step).length = 4096 := by
  rw [recordBytes_eq, List.length_append, length_recordParts, length_leBytes]

/-! The fields -/

/-- A field inside part i of a list of parts, of which the first i take o bytes. -/
theorem byteField_flatten {parts : List (List Byte)} {p : List Byte} {i o : Nat} (part : parts[i]? = some p)
    (before : (parts.take i).flatten.length = o) {lo n : Nat} (inside : lo + n ≤ p.length) :
    byteField parts.flatten (o + lo) n = byteField p lo n := by
  obtain ⟨hi, rfl⟩ := List.getElem?_eq_some_iff.1 part
  have split : parts.flatten = (parts.take i).flatten ++ (parts[i] ++ (parts.drop (i + 1)).flatten) := by
    rw [← List.flatten_cons, List.getElem_cons_drop, ← List.flatten_append, List.take_append_drop]
  rw [split, byteField_append_right (by omega), before, Nat.add_sub_cancel_left, byteField_append_left inside]

variable {s lc resume step}

theorem byteField_recordBytes {p : List Byte} {i o : Nat} (part : (checkedParts s lc resume step)[i]? = some p)
    (before : ((checkedParts s lc resume step).take i).flatten.length = o) {lo n : Nat} (inside : lo + n ≤ p.length) :
    byteField (recordBytes s lc resume step) (o + lo) n = byteField p lo n := by
  rw [recordBytes_eq_flatten, byteField_flatten part before inside]

theorem byteField_recordBytes_header {lo n : Nat} (inside : lo + n ≤ 64) :
    byteField (recordBytes s lc resume step) lo n = natBits (recordHeader s lc resume step) (8 * lo) (8 * n) := by
  have field := byteField_recordBytes (s := s) (lc := lc) (resume := resume) (step := step) (i := 0) (o := 0) rfl rfl (by rw [length_leBytes]; exact inside)
  rwa [Nat.zero_add, byteField_leBytes inside] at field

theorem byteField_recordBytes_counter {k : Nat} (hk : k < 16) :
    byteField (recordBytes s lc resume step) (0x40 + 8 * k) 8 = spGet 0 (cluster s lc).seq.cnt k % 2 ^ 64 :=
  (byteField_recordBytes (i := 1) rfl (by simp [checkedParts, recordParts]) (by rw [length_leTable]; omega)).trans (byteField_leTable hk _)

theorem byteField_recordBytes_cmp :
    byteField (recordBytes s lc resume step) 0xC0 1 = (cluster s lc).seq.cmp % 2 ^ 8 :=
  (byteField_recordBytes (i := 2) (o := 0xC0) (lo := 0) rfl (by simp [checkedParts, recordParts]) (by rw [length_leBytes]; omega)).trans (by
    rw [byteField_leBytes (by omega), Nat.mul_zero, Nat.mul_one, natBits_packFields_head])

theorem byteField_recordBytes_flag {k : Nat} (hk : k < 64) :
    byteField (recordBytes s lc resume step) (0x100 + 2 * k) 2 = spGet 0 (cluster s lc).seq.lf k % 2 ^ 16 :=
  (byteField_recordBytes (i := 4) rfl (by simp [checkedParts, recordParts]) (by rw [length_leTable]; omega)).trans (byteField_leTable hk _)

theorem byteField_recordBytes_prm {k : Nat} (hk : k < 256) :
    byteField (recordBytes s lc resume step) (0x200 + 8 * k) 8 = recordPrm s lc step k % 2 ^ 64 :=
  (byteField_recordBytes (i := 6) rfl (by simp [checkedParts, recordParts]) (by rw [length_leTable]; omega)).trans (byteField_leTable hk _)

theorem byteField_recordBytes_handle {h : Nat} (hh : h < 8) :
    byteField (recordBytes s lc resume step) (0xA00 + 8 * h) 8 = handleBits (handleOf s lc h) % 2 ^ 64 :=
  (byteField_recordBytes (i := 7) rfl (by simp [checkedParts, recordParts]) (by rw [length_leTable]; omega)).trans (byteField_leTable hh _)

theorem byteField_recordBytes_check :
    byteField (recordBytes s lc resume step) 0xFFC 4 = crc32c (recordParts s lc resume step).flatten :=
  (byteField_recordBytes (i := 12) (o := 0xFFC) (lo := 0) rfl (by simp [checkedParts, recordParts]) (by rw [length_leBytes])).trans (by
    rw [byteField_leBytes (by omega)]
    exact Nat.mod_eq_of_lt (crc32c_lt _))

end

end Sys2Proof.Machine
end

section
/-! PROOFS. A record is usable for its own cluster alone (R144), and a replay restores from it what the DATUM saved (R366). -/

namespace Sys2Proof.Machine

section
variable {s : State} {lc resume : Nat} {step : Bool}

/-! The header -/

theorem natBits_recordHeader_format : natBits (recordHeader s lc resume step) 0 8 = 1 := by
  simp [recordHeader]

theorem natBits_recordHeader_lc (hlc : lc < 256) : natBits (recordHeader s lc resume step) 8 8 = lc := by
  simp [recordHeader, natBits_packFields_tail, Nat.mod_eq_of_lt hlc]

theorem natBits_recordHeader_resume (inPart : resume < 16384) : natBits (recordHeader s lc resume step) 16 14 = resume := by
  simp [recordHeader, natBits_packFields_tail, Nat.mod_eq_of_lt inPart]

theorem natBits_recordHeader_syncN (hn : (cluster s lc).log.syncN < 2 ^ 32) :
    natBits (recordHeader s lc resume step) 192 32 = (cluster s lc).log.syncN := by
  simpa [recordHeader, natBits_packFields_tail] using hn

theorem recordOk_recordBytes (hlc : lc < 256) (k : Nat) : recordOk k ⟨recordBytes s lc resume step, false⟩ = true ↔ k = lc := by
  have covered : (recordBytes s lc resume step).take 0xFFC = (recordParts s lc resume step).flatten := by
    rw [recordBytes_eq, List.take_left' (length_recordParts ..)]
  have format : byteField (recordBytes s lc resume step) 0 1 = 1 := by
    rw [byteField_recordBytes_header (by omega), natBits_recordHeader_format]
  have own : byteField (recordBytes s lc resume step) 1 1 = lc := by
    rw [byteField_recordBytes_header (by omega), natBits_recordHeader_lc hlc]
  simp only [recordOk, covered, format, own, byteField_recordBytes_check, Bool.not_false, beq_self_eq_true, Bool.true_and, Bool.and_true,
    beq_iff_eq]
  exact eq_comm

theorem recordOk_poisoned (k : Nat) (l : List Byte) : recordOk k ⟨l, true⟩ = false := rfl

/-! Counters, local flags and comparators -/

theorem spGet_zero_lt {m : Sparse Nat} {b : Nat} (pos : 0 < b) (bound : ∀ e, e ∈ m → e.2 < b) (k : Nat) : spGet 0 m k < b := by
  induction m with
  | nil => exact pos
  | cons e r ih =>
    obtain ⟨inHead, inTail⟩ := List.forall_mem_cons.1 bound
    rw [spGet]
    split_ifs
    · exact inHead
    · exact pos
    · exact ih inTail

theorem tableOf_congr {α : Type} [DecidableEq α] {d : α} {f g : Nat → α} {ks : List Nat} (same : ∀ k, k ∈ ks → f k = g k) :
    tableOf d f ks = tableOf d g ks :=
  List.filterMap_congr fun k member => by rw [same k member]

section
variable (d : Cluster) (l : List Byte)

theorem restoreRecord_cnt_eq : (restoreRecord d l).seq.cnt = tableOf 0 (fun k => byteField l (0x40 + 8 * k) 8) (List.range 16) := rfl
theorem restoreRecord_lf_eq : (restoreRecord d l).seq.lf = tableOf 0 (fun k => byteField l (0x100 + 2 * k) 2) (List.range 64) := rfl
theorem restoreRecord_cmp_eq : (restoreRecord d l).seq.cmp = byteField l 0xC0 1 := rfl
theorem restoreRecord_pc_eq : (restoreRecord d l).seq.pc = natBits (byteField l 0 8) 16 14 := rfl
theorem restoreRecord_syncN_eq : (restoreRecord d l).log.syncN = byteField l 24 4 := rfl
theorem restoreRecord_prm_eq : (restoreRecord d l).seq.prm =
    spSet 0 (tableOf 0 (fun k => byteField l (0x200 + 8 * k) 8) (List.range 249 ++ [253])) 252 (spGet 0 d.seq.prm 252) := rfl

/-- What a record does not hold stays, and the loops are left. -/
theorem restoreRecord_rest : (restoreRecord d l).seq.loops = [] ∧ (restoreRecord d l).mem = d.mem ∧ (restoreRecord d l).opx = d.opx ∧
    (restoreRecord d l).vr = d.vr := ⟨rfl, rfl, rfl, rfl⟩

end

variable {d : Cluster}

theorem restoreRecord_cnt (wf : spWf 0 (cluster s lc).seq.cnt = true) (bound : ∀ e, e ∈ (cluster s lc).seq.cnt → e.1 < 16 ∧ e.2 < 2 ^ 48) :
    (restoreRecord d (recordBytes s lc resume step)).seq.cnt = (cluster s lc).seq.cnt := by
  have narrow (k : Nat) : spGet 0 (cluster s lc).seq.cnt k < 2 ^ 64 :=
    (spGet_zero_lt (by decide) (fun e member => (bound e member).2) k).trans (by decide)
  have same (k : Nat) (member : k ∈ List.range 16) :
      byteField (recordBytes s lc resume step) (0x40 + 8 * k) 8 = spGet 0 (cluster s lc).seq.cnt k := by
    rw [byteField_recordBytes_counter (List.mem_range.1 member), Nat.mod_eq_of_lt (narrow k)]
  rw [restoreRecord_cnt_eq, tableOf_congr same, tableOf_spGet wf fun e member => (bound e member).1]

theorem restoreRecord_lf (wf : spWf 0 (cluster s lc).seq.lf = true) (bound : ∀ e, e ∈ (cluster s lc).seq.lf → e.1 < 64 ∧ e.2 ≤ 65535) :
    (restoreRecord d (recordBytes s lc resume step)).seq.lf = (cluster s lc).seq.lf := by
  have narrow (k : Nat) : spGet 0 (cluster s lc).seq.lf k < 2 ^ 16 :=
    spGet_zero_lt (by decide) (fun e member => Nat.lt_succ_of_le (bound e member).2) k
  have same (k : Nat) (member : k ∈ List.range 64) :
      byteField (recordBytes s lc resume step) (0x100 + 2 * k) 2 = spGet 0 (cluster s lc).seq.lf k := by
    rw [byteField_recordBytes_flag (List.mem_range.1 member), Nat.mod_eq_of_lt (narrow k)]
  rw [restoreRecord_lf_eq, tableOf_congr same, tableOf_spGet wf fun e member => (bound e member).1]

theorem restoreRecord_cmp (hc : (cluster s lc).seq.cmp < 256) :
    (restoreRecord d (recordBytes s lc resume step)).seq.cmp = (cluster s lc).seq.cmp := by
  rw [restoreRecord_cmp_eq, byteField_recordBytes_cmp, Nat.mod_eq_of_lt (by exact hc)]

theorem restoreRecord_pc (inPart : resume < 16384) : (restoreRecord d (recordBytes s lc resume step)).seq.pc = resume := by
  rw [restoreRecord_pc_eq, byteField_recordBytes_header (by omega), natBits_natBits (by omega)]
  exact natBits_recordHeader_resume inPart

theorem restoreRecord_syncN (hn : (cluster s lc).log.syncN < 2 ^ 32) :
    (restoreRecord d (recordBytes s lc resume step)).log.syncN = (cluster s lc).log.syncN := by
  rw [restoreRecord_syncN_eq, byteField_recordBytes_header (by omega), natBits_recordHeader_syncN hn]

/-! Parameters -/

/-- The parameters that a record restores: those below 249, and DATUM_N. -/
def restoredPrms : List Nat := List.range 249 ++ [253]

theorem restoredPrms_rising : restoredPrms.Pairwise (· < ·) := by
  rw [restoredPrms, List.pairwise_append]
  refine ⟨List.pairwise_lt_range, List.pairwise_singleton _ _, fun a inRange b last => ?_⟩
  have := List.mem_range.1 inRange
  have := List.mem_singleton.1 last
  omega

theorem mem_restoredPrms {k : Nat} : k ∈ restoredPrms ↔ k < 249 ∨ k = 253 := by
  simp [restoredPrms]

theorem restoredPrms_wf (f : Nat → Nat) : spWf 0 (tableOf 0 f restoredPrms) = true :=
  tableOf_wfFrom restoredPrms_rising fun k _ => Nat.zero_le k

theorem restoreRecord_prm_of_mem {k : Nat} (restored : k ∈ restoredPrms) :
    spGet 0 (restoreRecord d (recordBytes s lc resume step)).seq.prm k = recordPrm s lc step k % 2 ^ 64 := by
  have inRange := mem_restoredPrms.1 restored
  rw [restoreRecord_prm_eq, ← restoredPrms, spGet_spSet_ne (restoredPrms_wf _) (by omega), spGet_tableOf restoredPrms_rising, if_pos restored,
    byteField_recordBytes_prm (by omega)]

/-- REPLAY, which a replay counts on, keeps its own value (R136). -/
theorem restoreRecord_prm_replay (l : List Byte) : spGet 0 (restoreRecord d l).seq.prm 252 = spGet 0 d.seq.prm 252 := by
  rw [restoreRecord_prm_eq, ← restoredPrms, spGet_spSet_self (restoredPrms_wf _)]

theorem nextCounts_lt (bound : ∀ k, prmGet s lc k < 2 ^ 64) : (nextCounts s lc step).1 < 2 ^ 64 ∧ (nextCounts s lc step).2.1 < 2 ^ 64 := by
  have wrapped (n : Nat) : n % 2 ^ 64 < 2 ^ 64 := Nat.mod_lt _ (Nat.two_pow_pos 64)
  rw [nextCounts]
  cases step
  · exact ⟨bound 248, wrapped _⟩
  · exact ⟨wrapped _, Nat.two_pow_pos 64⟩

/-- The first part of `Obligations.RecordRestoresWhatDatumSaved`, which holds. -/
theorem restoreRecord_recordBytes (s : State) (lc resume : Nat) (step : Bool) (d : Cluster) (hlc : lc < 256) (inPart : resume < 16384) :
    let c := cluster s lc
    spWf 0 c.seq.cnt = true → (∀ e, e ∈ c.seq.cnt → e.1 < 16 ∧ e.2 < 2 ^ 48) →
    spWf 0 c.seq.lf = true → (∀ e, e ∈ c.seq.lf → e.1 < 64 ∧ e.2 ≤ 65535) → c.seq.cmp < 256 → c.log.syncN < 2 ^ 32 →
    (∀ k, prmGet s lc k < 2 ^ 64) →
    (recordBytes s lc resume step).length = 4096 ∧
    (∀ k, k < 256 → (recordOk k ⟨recordBytes s lc resume step, false⟩ = true ↔ k = lc)) ∧
    (∀ k, recordOk k ⟨recordBytes s lc resume step, true⟩ = false) ∧
    let r := restoreRecord d (recordBytes s lc resume step)
    r.seq.pc = resume ∧ r.seq.cnt = c.seq.cnt ∧ r.seq.cmp = c.seq.cmp ∧ r.seq.lf = c.seq.lf ∧ r.log.syncN = c.log.syncN ∧ r.seq.loops = [] ∧
      (∀ k, k < 248 → spGet 0 r.seq.prm k = prmGet s lc k) ∧ spGet 0 r.seq.prm 248 = (nextCounts s lc step).1 ∧
      spGet 0 r.seq.prm 253 = (nextCounts s lc step).2.1 ∧ spGet 0 r.seq.prm 252 = spGet 0 d.seq.prm 252 ∧
      r.mem = d.mem ∧ r.opx = d.opx ∧ r.vr = d.vr := by
  intro c cntWf cntBound lfWf lfBound cmpBound syncBound prmBound
  obtain ⟨stepBound, datumBound⟩ := nextCounts_lt (step := step) prmBound
  obtain ⟨loops, mem, opx, vr⟩ := restoreRecord_rest d (recordBytes s lc resume step)
  refine ⟨length_recordBytes .., fun k _ => recordOk_recordBytes hlc k, fun k => recordOk_poisoned k _, restoreRecord_pc inPart,
    restoreRecord_cnt cntWf cntBound, restoreRecord_cmp cmpBound, restoreRecord_lf lfWf lfBound, restoreRecord_syncN syncBound, loops,
    fun k user => ?_, ?_, ?_, restoreRecord_prm_replay _, mem, opx, vr⟩
  · rw [restoreRecord_prm_of_mem (mem_restoredPrms.2 (by omega)), recordPrm, if_neg (by omega), if_neg (by omega), if_neg (by omega)]
    exact Nat.mod_eq_of_lt (prmBound k)
  · rw [restoreRecord_prm_of_mem (mem_restoredPrms.2 (by omega))]
    exact Nat.mod_eq_of_lt stepBound
  · rw [restoreRecord_prm_of_mem (mem_restoredPrms.2 (by omega))]
    exact Nat.mod_eq_of_lt datumBound

end

/-! Handles -/

section
variable {s u : State} {lc resume h : Nat} {step latest : Bool}

/-- A handle as it stands once its record is written: one that the write releases is empty (R214). -/
def keptHandle (x : Handle) : Handle :=
  if x.held = true ∧ x.release = false then { Handle.empty with tensor := x.tensor, slot := x.slot, held := true, ver := x.ver } else .empty

theorem recordHandle_handleBits {x : Handle} (tensor : x.tensor < 2 ^ 13) (slot : x.slot < 4) (ver : x.ver < 2 ^ 32) :
    recordHandle (handleBits x % 2 ^ 64) = keptHandle x := by
  have low {lo n : Nat} (inside : lo + n ≤ 64) : natBits (handleBits x % 2 ^ 64) lo n = natBits (handleBits x) lo n := by
    have whole : handleBits x % 2 ^ 64 = natBits (handleBits x) 0 64 := by rw [natBits, Nat.shiftRight_zero]
    rw [whole, natBits_natBits inside, Nat.zero_add]
  have bit (b : Bool) : b2n b % 2 = b2n b := by cases b <;> rfl
  have isOne (b : Bool) : b2n b = 1 ↔ b = true := by cases b <;> decide
  have isZero (b : Bool) : b2n b = 0 ↔ b = false := by cases b <;> decide
  have tensor' : x.tensor % 8192 = x.tensor := Nat.mod_eq_of_lt tensor
  have ver' : x.ver % 4294967296 = x.ver := Nat.mod_eq_of_lt ver
  rw [recordHandle, low (by omega), low (by omega), low (by omega), low (by omega), low (by omega)]
  simp [handleBits, natBits_packFields_tail, bit, isOne, isZero, tensor', Nat.mod_eq_of_lt slot, ver', keptHandle]

theorem handleIn_recordBytes (hh : h < 8) (tensor : (handleOf s lc h).tensor < 2 ^ 13) (slot : (handleOf s lc h).slot < 4)
    (ver : (handleOf s lc h).ver < 2 ^ 32) : handleIn (recordBytes s lc resume step) h = keptHandle (handleOf s lc h) := by
  rw [handleIn, byteField_recordBytes_handle hh, recordHandle_handleBits tensor slot ver]

/-- The tables that lead to a cluster's handles are in canonical form. -/
def handlesWf (s : State) (lc : Nat) : Prop := spWf .reset s.cl = true ∧ spWf .empty (cluster s lc).handles = true

theorem cluster_modCluster_of_wf (wf : spWf .reset s.cl = true) (f : Cluster → Cluster) : cluster (modCluster s lc f) lc = f (cluster s lc) :=
  spGet_spSet_self wf

theorem cluster_setHandle (wf : spWf .reset s.cl = true) (x : Handle) :
    cluster (setHandle s lc h x) lc = { cluster s lc with handles := spSet .empty (cluster s lc).handles h x } :=
  cluster_modCluster_of_wf wf _

theorem cluster_congr {s t : State} (same : s.cl = t.cl) (lc : Nat) : cluster s lc = cluster t lc := by rw [cluster, cluster, same]

theorem handlesWf_restoreHandle {l : List Byte} (wf : handlesWf s lc) : handlesWf (restoreHandle lc l latest s h) lc := by
  obtain ⟨clWf, tableWf⟩ := wf
  rw [handlesWf, cluster_congr (restoreHandle_cl s lc l latest h), restoreHandle_cl, cluster_setHandle clWf]
  exact ⟨spSet_wf clWf, spSet_wf tableWf⟩

theorem handleOf_restoreHandle {l : List Byte} (wf : handlesWf s lc) (k : Nat) : handleOf (restoreHandle lc l latest s h) lc k =
    if k = h then restoredHandle (recordInterval l) latest (handleIn l h) (handleOf s lc h) else handleOf s lc k := by
  obtain ⟨clWf, tableWf⟩ := wf
  rw [handleOf, cluster_congr (restoreHandle_cl s lc l latest h), cluster_setHandle clWf]
  exact spGet_spSet tableWf

/-- Each of the eight handles is restored from the one that stands, whatever becomes of the others. -/
theorem handleOf_restoreHandles {l : List Byte} (wf : handlesWf u lc) (hh : h < 8) :
    handleOf (restoreHandles u lc l latest) lc h = restoredHandle (recordInterval l) latest (handleIn l h) (handleOf u lc h) := by
  have upTo (n : Nat) : handlesWf ((List.range n).foldl (restoreHandle lc l latest) u) lc ∧
      ∀ k, handleOf ((List.range n).foldl (restoreHandle lc l latest) u) lc k =
        if k < n then restoredHandle (recordInterval l) latest (handleIn l k) (handleOf u lc k) else handleOf u lc k := by
    induction n with
    | zero => exact ⟨wf, fun k => rfl⟩
    | succ n ih =>
      obtain ⟨wfN, read⟩ := ih
      rw [List.range_succ, List.foldl_append, List.foldl_cons, List.foldl_nil]
      refine ⟨handlesWf_restoreHandle wfN, fun k => ?_⟩
      rw [handleOf_restoreHandle wfN, read, read]
      grind
  rw [restoreHandles_eq_foldl, (upTo 8).2, if_pos hh]

/-- A handle that is not the newest record's own hold comes back as the record has it, but for its interval. -/
theorem restoredHandle_of_notLatest {interval : Nat} {r x : Handle} (settled : latest = false ∨ x.held = false) (kept : r.held = true → r.release = false) :
    (r.held = true → (restoredHandle interval latest r x).held = true ∧ (restoredHandle interval latest r x).release = false ∧
      (restoredHandle interval latest r x).tensor = r.tensor ∧ (restoredHandle interval latest r x).slot = r.slot ∧
      (restoredHandle interval latest r x).ver = r.ver) ∧
    (r.held = false → (restoredHandle interval latest r x).held = false) := by
  have notOwn : (latest && x.held && x.since == interval) = false := by
    rcases settled with h | h <;> simp [h]
  rw [restoredHandle, if_neg (by rw [notOwn]; decide)]
  by_cases same : sameHold x r = true
  · rw [if_pos same]
    rw [sameHold, Bool.and_eq_true, beq_iff_eq] at same
    obtain ⟨held, place⟩ := same
    cases hr : r.held <;> simp_all
  · rw [if_neg same]
    exact ⟨fun held => ⟨held, kept held, rfl, rfl, rfl⟩, fun none => none⟩

/-- The second part of `Obligations.RecordRestoresWhatDatumSaved`, which holds once the later state's tables are in canonical form. -/
theorem restoreHandles_recordBytes (hh : h < 8)
    (inRange : ∀ k, k < 8 → (handleOf s lc k).tensor < 2 ^ 13 ∧ (handleOf s lc k).slot < 4 ∧ (handleOf s lc k).ver < 2 ^ 32)
    (settled : latest = false ∨ (handleOf u lc h).held = false) (wf : handlesWf u lc) :
    let x := handleOf s lc h
    let y := handleOf (restoreHandles u lc (recordBytes s lc resume step) latest) lc h
    (x.held = true → x.release = false → y.held = true ∧ y.release = false ∧ y.tensor = x.tensor ∧ y.slot = x.slot ∧ y.ver = x.ver) ∧
    (x.held = false ∨ x.release = true → y.held = false) := by
  intro x y
  obtain ⟨tensor, slot, ver⟩ := inRange h hh
  have restored : y = restoredHandle (recordInterval (recordBytes s lc resume step)) latest (keptHandle x) (handleOf u lc h) := by
    rw [← handleIn_recordBytes hh tensor slot ver]
    exact handleOf_restoreHandles wf hh
  have noRelease : (keptHandle x).release = false := by rw [keptHandle]; split <;> rfl
  obtain ⟨back, emptied⟩ := restoredHandle_of_notLatest (interval := recordInterval (recordBytes s lc resume step)) settled (fun _ => noRelease)
  rw [← restored] at back emptied
  constructor
  · intro held stays
    rw [keptHandle, if_pos ⟨held, stays⟩] at back
    exact back rfl
  · intro gone
    have empty : keptHandle x = .empty := by
      rw [keptHandle, if_neg]
      rintro ⟨held, stays⟩
      rcases gone with gone | gone <;> simp_all
    rw [empty] at emptied
    exact emptied rfl

end

end Sys2Proof.Machine
end

section
/-! PROOFS. A replay over a handle table that lists a handle twice, which no table in canonical form does. -/

namespace Sys2Proof.Machine

/-- A held handle. -/
def heldHandle : Handle := { Handle.empty with held := true }

/-- Reset but for cluster 0, whose table lists handle 0 twice, both entries held. -/
def doubleHold : State := { State.reset with cl := [(0, { Cluster.reset with handles := [(0, heldHandle), (0, heldHandle)] })] }

/-- Does the table begin with handle 0, held? -/
def beginsHeld (t : Sparse Handle) : Prop := ∃ x r, t = (0, x) :: r ∧ x.held = true

theorem beginsHeld.ne_nil {t : Sparse Handle} (begins : beginsHeld t) : t ≠ [] := by
  obtain ⟨x, r, rfl, -⟩ := begins
  exact List.cons_ne_nil _ _

theorem beginsHeld_spSet {t : Sparse Handle} (begins : beginsHeld t) {h : Nat} (other : h ≠ 0) (y : Handle) :
    beginsHeld (spSet .empty t h y) := by
  obtain ⟨x, r, rfl, held⟩ := begins
  by_cases empty : y = .empty
  · exact ⟨x, spDel r h, by simp [spSet, empty, spDel, other.symm], held⟩
  · exact ⟨x, spPut r h y, by simp [spSet, empty, spPut, other.symm], held⟩

/-- What a replay leaves of a held handle is held or empty. -/
theorem restoredHandle_held_or_empty (id : Nat) (l : List Byte) (latest : Bool) (h : Nat) {x : Handle} (held : x.held = true) :
    (restoredHandle id latest (handleIn l h) x).held = true ∨ restoredHandle id latest (handleIn l h) x = .empty := by
  unfold restoredHandle handleIn recordHandle
  split_ifs <;> simp [held]

/-- The first entry of handle 0 is overwritten or removed, and the second stands behind it. -/
theorem beginsHeld_restoreHandle_zero (l : List Byte) (latest : Bool) :
    beginsHeld (cluster (restoreHandle 0 l latest doubleHold 0) 0).handles := by
  have table : (cluster doubleHold 0).handles = [(0, heldHandle), (0, heldHandle)] := rfl
  have begins : beginsHeld (spSet .empty (cluster doubleHold 0).handles 0
      (restoredHandle (recordInterval l) latest (handleIn l 0) (handleOf doubleHold 0 0))) := by
    rw [table]
    rcases restoredHandle_held_or_empty (recordInterval l) latest (h := 0) (l := l) (x := handleOf doubleHold 0 0) rfl with held | empty
    · have ne : restoredHandle (recordInterval l) latest (handleIn l 0) (handleOf doubleHold 0 0) ≠ .empty := fun h => by simp [h, Handle.empty] at held
      exact ⟨_, [(0, heldHandle)], by simp [spSet, ne, spPut], held⟩
    · exact ⟨heldHandle, [], by simp [empty, spSet, spDel], rfl⟩
  rw [restoreHandle_handles begins.ne_nil]
  exact begins

theorem beginsHeld_restoreHandle {s : State} {l : List Byte} {latest : Bool} {h : Nat} (begins : beginsHeld (cluster s 0).handles) (other : h ≠ 0) :
    beginsHeld (cluster (restoreHandle 0 l latest s h) 0).handles := by
  have after := beginsHeld_spSet begins other (restoredHandle (recordInterval l) latest (handleIn l h) (handleOf s 0 h))
  rw [restoreHandle_handles after.ne_nil]
  exact after

/-- Whatever the record says, handle 0 stays held. -/
theorem held_restoreHandles_doubleHold (l : List Byte) (latest : Bool) : (handleOf (restoreHandles doubleHold 0 l latest) 0 0).held = true := by
  have begins : beginsHeld (cluster (restoreHandles doubleHold 0 l latest) 0).handles := by
    rw [restoreHandles_eq_foldl, show List.range 8 = 0 :: List.range' 1 7 from rfl, List.foldl_cons]
    refine List.foldlRecOn (motive := fun s => beginsHeld (cluster s 0).handles) _ _ (beginsHeld_restoreHandle_zero l latest) fun s begins h member => ?_
    exact beginsHeld_restoreHandle begins (by have := List.mem_range'_1.1 member; omega)
  obtain ⟨x, r, table, held⟩ := begins
  rw [handleOf, table]
  exact held

/-- Refutes O38: of the later state it does not ask a handle table in canonical form. `doubleHold` lists handle 0 twice, so that the record of a
cluster that holds nothing removes one entry and uncovers the other. The rest of the statement holds: `restoreRecord_recordBytes` is its first
part, and `restoreHandles_recordBytes` its second for tables in canonical form. -/
theorem not_recordRestoresWhatDatumSaved : ¬ Obligations.RecordRestoresWhatDatumSaved := by
  unfold Obligations.RecordRestoresWhatDatumSaved
  intro ⟨_, restores⟩
  have noHandle (k : Nat) : handleOf State.reset 0 k = .empty := rfl
  have inRange (k : Nat) (_ : k < 8) : (handleOf State.reset 0 k).tensor < 2 ^ 13 ∧ (handleOf State.reset 0 k).slot < 4 ∧
      (handleOf State.reset 0 k).ver < 2 ^ 32 := by
    rw [noHandle]
    decide
  obtain ⟨_, emptied⟩ := restores .reset doubleHold 0 0 0 false false (by decide) (by decide) (by decide) inRange (.inl rfl)
  have empty := emptied (.inl rfl)
  rw [held_restoreHandles_doubleHold] at empty
  exact Bool.noConfusion empty

end Sys2Proof.Machine
end

section
/-! PROOFS. TRV.GO, TRV.WAIT and the end of a traverse (R168, R169, R276 to R278). -/

namespace Sys2Proof.Machine

theorem exec_trvGo (lc q cyc : Nat) (s : State) : exec (.trvGo lc q cyc) s = execTrvGo lc q cyc s := rfl
theorem exec_trvWait (lc q cyc : Nat) (s : State) : exec (.trvWait lc q cyc) s = execTrvWait lc q cyc s := rfl
theorem exec_traverseComplete (lc e : Nat) (s : State) : exec (.traverseComplete lc e) s = execTraverseComplete lc e s := rfl

section
variable {s t : State} {lc q cyc : Nat} {e : QEntry}

/-! TRV.GO (R168) -/

theorem execTrvGo_of_dead (due : pickOp s lc q cyc oTRVGO = some e) (dead : e.live = false) :
    execTrvGo lc q cyc s = .next (retireAt s lc q cyc e) := by
  simp only [execTrvGo, due, dead, Bool.not_false, if_true]

theorem execTrvGo_of_issued (due : pickOp s lc q cyc oTRVGO = some e) (live : e.live = true)
    (room : (trvOf (cluster s lc) (q - 3)).flight.length < 4)
    (issued : startTrv (modCluster s lc (fun c => atCycle c cyc)) lc q e = .inr t) :
    execTrvGo lc q cyc s = .next (retireAt t lc q cyc e) := by
  simp only [execTrvGo, due, live, Nat.not_le.2 room, issued, Bool.not_true, Bool.false_eq_true, if_false]

theorem execTrvGo_of_waiting (due : pickOp s lc q cyc oTRVGO = some e) (live : e.live = true)
    (room : (trvOf (cluster s lc) (q - 3)).flight.length < 4)
    (waiting : startTrv (modCluster s lc (fun c => atCycle c cyc)) lc q e = .inl t) :
    execTrvGo lc q cyc s = .next { s with tt := t.tt } := by
  simp only [execTrvGo, due, live, Nat.not_le.2 room, waiting, Bool.not_true, Bool.false_eq_true, if_false]

theorem execTrvGo_of_full (due : pickOp s lc q cyc oTRVGO = some e) (live : e.live = true)
    (full : 4 ≤ (trvOf (cluster s lc) (q - 3)).flight.length) : execTrvGo lc q cyc s = .next s := by
  simp only [execTrvGo, due, live, full, Bool.not_true, Bool.false_eq_true, if_false, if_true]

/-! TRV.WAIT (R169) -/

theorem execTrvWait_of_done (due : pickOp s lc q cyc oTRVWAIT = some e)
    (done : e.live = false ∨ ∀ t, t ∈ (trvOf (cluster s lc) (q - 3)).flight → trvTicket t.e.raw ≠ waitTicket e.raw) :
    execTrvWait lc q cyc s = .next (retireAt s lc q cyc e) := by
  have goes : (e.live && (trvOf (cluster s lc) (q - 3)).flight.any (fun t => trvTicket t.e.raw == waitTicket e.raw)) = false := by
    rcases done with dead | ended
    · rw [dead, Bool.false_and]
    · rw [List.any_eq_false.2 fun t member => by simp [ended t member], Bool.and_false]
  simp only [execTrvWait, due, goes, Bool.false_eq_true, if_false]

theorem execTrvWait_of_inFlight {f : Trv} (due : pickOp s lc q cyc oTRVWAIT = some e) (live : e.live = true)
    (member : f ∈ (trvOf (cluster s lc) (q - 3)).flight) (ticket : trvTicket f.e.raw = waitTicket e.raw) :
    execTrvWait lc q cyc s = .next s := by
  have waits : (trvOf (cluster s lc) (q - 3)).flight.any (fun t => trvTicket t.e.raw == waitTicket e.raw) = true :=
    List.any_eq_true.2 ⟨f, member, beq_iff_eq.2 ticket⟩
  simp only [execTrvWait, due, live, waits, Bool.and_self, if_true]

end

/-! The end of the oldest traverse (R276 to R278) -/

section
variable {s u v x : State} {lc e : Nat} {t : Trv} {later : List Trv}

theorem execTraverseComplete_of_engine (engine : e < 4) (s : State) : execTraverseComplete lc e s = .next (endTrv s lc e) := by
  rw [execTraverseComplete, if_neg (Nat.not_le.2 engine)]

theorem endTrv_of_tagFails {cause : Nat} (oldest : (trvOf (cluster s lc) e).flight = t :: later)
    (fails : decryptFail s lc e t = (some cause, v)) :
    endTrv s lc e = faultNoReplay (poisonGranules v t) 0x000B lc (packFields [(lc, 8), (t.e.idx, 14), (cause, 8)]) := by
  simp only [endTrv, oldest, fails]

theorem endTrv_of_checkHolds (oldest : (trvOf (cluster s lc) e).flight = t :: later) (tag : decryptFail s lc e t = (none, v))
    (holds : checkAtEnd (if t.moved then noteDigest v t else v) lc e t later = (some u, x)) : endTrv s lc e = popFlight u lc e t := by
  simp only [endTrv, oldest, tag, holds]

theorem endTrv_of_compareFails (oldest : (trvOf (cluster s lc) e).flight = t :: later) (tag : decryptFail s lc e t = (none, v))
    (fails : checkAtEnd (if t.moved then noteDigest v t else v) lc e t later = (none, x)) :
    endTrv s lc e = if (cluster (compareFailed x lc e t) lc).seq.stop = some .faulted then compareFailed x lc e t
      else popFlight (compareFailed x lc e t) lc e t := by
  simp only [endTrv, oldest, tag, fails]

end

end Sys2Proof.Machine
end

section
/-! PROOFS. Training of the Turaist link (R325). -/

namespace Sys2Proof.Machine

theorem exec_linkTrain (tr : TrainResult) (s : State) : exec (.linkTrain tr) s = execLinkTrain tr s := rfl

theorem execLinkTrain_of_powered {s : State} (on : powered s = true) (awake : s.op ≠ .sl3) (tr : TrainResult) :
    execLinkTrain tr s = .next (trainLink s tr) :=
  if_pos (by simp [on, awake])

/-- LINK_DEGRADED with the width and rate that the link falls back to. -/
def linkFell (s : State) (lanes gts : Nat) : State := logEvent s 0x000D 7 5 0 noLink (packFields [(lanes, 8), (gts, 8)])

section
variable {tr : TrainResult} (s : State)

theorem trainLink_x32 (full : tr.x32full = true) : trainLink s tr = { s with link := ⟨true, 32, 64, false⟩ } :=
  if_pos full

theorem trainLink_x16 (noX32 : tr.x32full = false) (x16 : tr.x16full = true) :
    trainLink s tr = { linkFell s 16 64 with link := ⟨true, 16, 64, false⟩ } := by
  simp only [trainLink, noX32, x16, Bool.false_eq_true, if_false, if_true, linkFell]

theorem trainLink_x16_halfRate (noX32 : tr.x32full = false) (noX16 : tr.x16full = false) (half : tr.x16half = true) :
    trainLink s tr = { linkFell (linkFell s 16 64) 16 32 with link := ⟨true, 16, 32, false⟩ } := by
  simp only [trainLink, noX32, noX16, half, Bool.false_eq_true, if_false, if_true, linkFell]

theorem trainLink_down (noX32 : tr.x32full = false) (noX16 : tr.x16full = false) (noHalf : tr.x16half = false) :
    trainLink s tr = { s with link := { s.link with up := false, down := true } } := by
  simp only [trainLink, noX32, noX16, noHalf, Bool.false_eq_true, if_false]

end

end Sys2Proof.Machine
end

section
/-! PROOFS. The requests of a traverse that the companion refuses (R277, R282) or whose response is lost (R327). -/

namespace Sys2Proof.Machine

theorem exec_translationRefused (lc e : Nat) (q : TrvReq) (s : State) :
    exec (.translationRefused lc e q) s = execTranslationRefused lc e q s := rfl

theorem exec_turaistTimeout (lc e : Nat) (q : TrvReq) (tr : TrainResult) (s : State) :
    exec (.turaistTimeout lc e q tr) s = execTuraistTimeout lc e q tr s := rfl

theorem execTranslationRefused_of_engine {e : Nat} (engine : e < 4) (lc : Nat) (q : TrvReq) (s : State) :
    execTranslationRefused lc e q s = .next (refuseReq s lc e q.n q.acc) := by
  rw [execTranslationRefused, if_neg (Nat.not_le.2 engine)]

section
variable {s : State} {lc e n a : Nat} {t : Trv} {later : List Trv} {r : TrvAcc}

/-! A refused request, by its access -/

section
variable {pa : Nat} (flight : flightFrom s lc e n = t :: later) (moved : t.moved = true)
  (addr : reqAddr t.e t.base t.dbase r = some a) (companion : locate a = .comp pa)
include flight moved addr companion

theorem refuseReq_check (side : r.side = .check) :
    refuseReq s lc e n r = noteRefusal (modFlight s lc e n (fun t => { t with chk := .refused })) lc e t (reqOrd t.e r) a
      (sideWrites t.e .check) := by
  simp only [refuseReq, flight, addr, companion, moved, side, Bool.not_true, Bool.false_eq_true, if_false]

theorem refuseReq_tag (side : r.side = .tag) :
    refuseReq s lc e n r = noteRefusal (modFlight (poisonGranules s t) lc e n (fun t => { t with tag := .refused })) lc e t (reqOrd t.e r) a
      false := by
  simp only [refuseReq, flight, addr, companion, moved, side, Bool.not_true, Bool.false_eq_true, if_false, sideWrites]

/-- A refused access of the pattern: a write is undone, what a read feeds is zero and poisoned. `notCheck` and `notTag` pick the last arm of
the model's match on the access. -/
theorem refuseReq_pattern (notCheck : r.side ≠ .check) (notTag : r.side ≠ .tag) :
    refuseReq s lc e n r = noteRefusal
      (if sideWrites t.e r.side then unwrite s t later a pa
        else freeCheck (poisonFed s lc t later (granOrds t r.side (a / 128)) true) lc e n) lc e t (reqOrd t.e r) a (sideWrites t.e r.side) := by
  simp only [refuseReq, flight, addr, companion, moved, Bool.not_true, Bool.false_eq_true, if_false]

end

/-! A request without a response, by its access -/

section
variable (flight : flightFrom s lc e n = t :: later) (moved : t.moved = true) (addr : reqAddr t.e t.base t.dbase r = some a)
  (companion : isComp a = true)
include flight moved addr companion

/-- A write whose response is lost counts as refused. -/
theorem loseReq_write (writes : sideWrites t.e r.side = true) : loseReq s lc e n r = some (refuseReq s lc e n r, a, true) := by
  simp only [loseReq, flight, List.head?_cons, addr, moved, companion, writes, Bool.not_true, Bool.or_self, Bool.false_eq_true, if_false,
    if_true]

theorem loseReq_check (side : r.side = .check) (reads : sideWrites t.e .check = false) :
    loseReq s lc e n r =
      some (modFlight (modCluster s lc (fun c => consumePoison c 1)) lc e n (fun t => { t with chk := .lost }), a, false) := by
  simp only [loseReq, flight, List.head?_cons, addr, moved, companion, side, reads, Bool.not_true, Bool.or_self, Bool.false_eq_true, if_false]

theorem loseReq_tag (side : r.side = .tag) :
    loseReq s lc e n r =
      some (modFlight (modCluster s lc (fun c => consumePoison c 1)) lc e n (fun t => { t with tag := .lost }), a, false) := by
  simp only [loseReq, flight, List.head?_cons, addr, moved, companion, side, sideWrites, Bool.not_true, Bool.or_self, Bool.false_eq_true,
    if_false]

/-- A lost read of the pattern poisons what it feeds and leaves its data. As above, `notCheck` and `notTag` pick the last arm. -/
theorem loseReq_read (notCheck : r.side ≠ .check) (notTag : r.side ≠ .tag) (reads : sideWrites t.e r.side = false) :
    let v := modCluster s lc (fun c => consumePoison c 1)
    loseReq s lc e n r =
      some (freeCheck (poisonFed v lc t (flightFrom v lc e (n + 1)) (granOrds t r.side (a / 128)) false) lc e n, a, false) := by
  simp only [loseReq, flight, List.head?_cons, addr, moved, companion, reads, Bool.not_true, Bool.or_self, Bool.false_eq_true, if_false]

end

/-! TURAIST_TIMEOUT (R327) -/

/-- LINK_TIMEOUT for an access at `a`, `kind` 1 for a write, after which the link trains. -/
def linkTimedOut (s : State) (a kind : Nat) (tr : TrainResult) : State :=
  trainLink (logEvent s 0x000E 7 5 0 noLink (packFields [(a, 48), (kind, 2)])) tr

theorem execTuraistTimeout_of_lost {u : State} {w : Bool} (engine : e < 4) (lost : loseReq s lc e n r = some (u, a, w)) (tr : TrainResult) :
    execTuraistTimeout lc e ⟨n, r, none⟩ tr s = .next (linkTimedOut u a (b2n w) tr) := by
  simp only [execTuraistTimeout, Nat.not_le.2 engine, if_false, lost, linkTimedOut]

theorem execTuraistTimeout_of_other {pa : Nat} (companion : locate a = .comp pa) (s : State) (lc e n : Nat) (r : TrvAcc)
    (tr : TrainResult) :
    execTuraistTimeout lc e ⟨n, r, some a⟩ tr s = .next (linkTimedOut
      { s with comp := { s.comp with lost := setAdd (setAdd s.comp.lost (pa / 128 * 2)) (pa / 128 * 2 + 1) } } a 0 tr) := by
  simp only [execTuraistTimeout, companion, linkTimedOut]

end

end Sys2Proof.Machine
end

section
/-! PROOFS. Probes of refused granules (R283), and the commands and events of traverses together. -/

namespace Sys2Proof.Machine

theorem exec_refusalProbe (lc e : Nat) (accepted : Bool) (o : Option TrvAcc) (s : State) :
    exec (.refusalProbe lc e accepted o) s = execRefusalProbe lc e accepted o s := rfl

theorem exec_probeTimeout (lc e : Nat) (s : State) : exec (.probeTimeout lc e) s = execProbeTimeout lc e s := rfl

/-- Engine e of a cluster that waits at its DATUM probes the request of q, and the timetable admits the read. -/
structure Probing (s : State) (lc e : Nat) (q : QEntry × Nat × Nat) : Prop where
  engine : e < 4
  waits : (cluster s lc).seq.wait = .probe
  probes : (trvOf (cluster s lc) e).probe = true
  entry : (trvOf (cluster s lc) e).refEntry = some q
  runs : s.op = .running
  admitted : admits s 0 (devCells (secOf lc) (trvOf (cluster s lc) e).refAddr false) = true

/-- The refused granule is read again. -/
def probeGranule (s : State) (lc e : Nat) : State := chargeSegs s lc e [((trvOf (cluster s lc) e).refAddr, 128)] false

/-- The granule and the pattern before ordinal `upto` are read again. -/
def probePattern (s : State) (lc e : Nat) (q : QEntry × Nat × Nat) (upto : Nat) : State :=
  chargeSegs (probeGranule s lc e) lc e (probeReads (trvOf (cluster s lc) e) q upto) false

/-- The whole pattern is accepted, and the engine probes no more. -/
def probeOver (s : State) (lc e : Nat) (q : QEntry × Nat × Nat) : State :=
  modCluster (probePattern s lc e q (elemCount (trvD0 q.1).mfmt (trvDims q.1))) lc
    (fun c => modTrv c e (fun x => { x with probe := false, refV := false }))

/-- Does an engine of the cluster probe? -/
def anyProbes (c : Cluster) : Bool := c.t0.probe || c.t1.probe || c.t2.probe || c.t3.probe

section
variable {s : State} {lc e : Nat} {q : QEntry × Nat × Nat} (p : Probing s lc e q)
include p

theorem Probing.enabled : ¬ (4 ≤ e ∨ (cluster s lc).seq.wait ≠ .probe ∨ (!(trvOf (cluster s lc) e).probe) = true ∨ s.op ≠ .running) := by
  simp [Nat.not_le.2 p.engine, p.waits, p.probes, p.runs]

theorem execRefusalProbe_of_turnedAway (companion : isComp (trvOf (cluster s lc) e).refAddr = true) (o : Option TrvAcc) :
    execRefusalProbe lc e false o s = .next (probeGranule s lc e) := by
  simp only [execRefusalProbe, if_neg p.enabled, p.entry, p.admitted, companion, Bool.not_true, Bool.or_self, Bool.not_false,
    Bool.false_eq_true, if_false, if_true, probeGranule]

theorem execRefusalProbe_of_refusedAgain {r : TrvAcc} {a : Nat} (addr : reqAddr q.1 q.2.1 q.2.2 r = some a) (companion : isComp a = true)
    (after : (trvOf (cluster s lc) e).refOrd ≤ reqOrd q.1 r) :
    execRefusalProbe lc e true (some r) s = .next (modCluster (probePattern s lc e q (reqOrd q.1 r + 1)) lc (fun c => modTrv c e (fun x =>
      { x with refOrd := reqOrd q.1 r, coord := ordCoord q.1 (reqOrd q.1 r), refAddr := a / 128 * 128 }))) := by
  simp only [execRefusalProbe, if_neg p.enabled, p.entry, p.admitted, addr, companion, after, Option.bind_some, Bool.not_true, Bool.true_or,
    Bool.false_eq_true, and_self, if_false, if_true, probePattern, probeGranule]

theorem execRefusalProbe_of_accepted :
    execRefusalProbe lc e true none s =
      if anyProbes (cluster (probeOver s lc e q) lc) then .next (probeOver s lc e q)
      else .next (replayCluster (probeOver s lc e q) lc ((cluster (probeOver s lc e q) lc).seq.icyc + 1) false
        (cluster (probeOver s lc e q) lc).log.gForce) := by
  simp only [execRefusalProbe, if_neg p.enabled, p.entry, p.admitted, Option.bind_none, Bool.not_true, Bool.true_or, Bool.false_eq_true,
    if_false]
  rfl

end

theorem execProbeTimeout_of_probing {s : State} {lc e : Nat} (engine : e < 4) (waits : (cluster s lc).seq.wait = .probe)
    (probes : (trvOf (cluster s lc) e).probe = true) :
    execProbeTimeout lc e s = .next (faultNoReplay s 0x0005 lc (packFields ((trvOf (cluster s lc) e).coord.map (fun i => (i, 24)) ++
      [((trvOf (cluster s lc) e).refAddr, 48)]))) :=
  if_neg (by simp [Nat.not_le.2 engine, waits, probes])

/-- Settles O56: the guard of each command and event decides its branch, a refused or lost request by the access it makes, a probe by where it
is refused again. -/
theorem traverseCommandsComplete : Obligations.TraverseCommandsComplete := by
  unfold Obligations.TraverseCommandsComplete
  refine ⟨?go, ?wait, ?complete, ?refused, ?lost, ?otherLost, ?train, ?probe, ?timeout⟩
  case go =>
    intro s lc q cyc e due
    rw [exec_trvGo]
    exact ⟨execTrvGo_of_dead due, fun _ => execTrvGo_of_issued due, fun _ => execTrvGo_of_waiting due, execTrvGo_of_full due⟩
  case wait =>
    intro s lc q cyc e due
    rw [exec_trvWait]
    exact ⟨execTrvWait_of_done due, fun _ => execTrvWait_of_inFlight due⟩
  case complete =>
    intro s lc e t later v engine oldest
    rw [exec_traverseComplete, execTraverseComplete_of_engine engine]
    exact ⟨fun _ fails => congrArg _ (endTrv_of_tagFails oldest fails), fun _ _ tag holds => congrArg _ (endTrv_of_checkHolds oldest tag holds),
      fun _ tag fails => congrArg _ (endTrv_of_compareFails oldest tag fails)⟩
  case refused =>
    intro s lc e n t later r a pa o engine flight moved addr companion
    rw [exec_translationRefused, execTranslationRefused_of_engine engine]
    refine ⟨fun side => ?_, fun side => ?_, fun notCheck notTag writes => ?_, fun notCheck notTag reads => ?_⟩
    · rw [refuseReq_check flight moved addr companion side]
    · rw [refuseReq_tag flight moved addr companion side]
    · rw [refuseReq_pattern flight moved addr companion notCheck notTag, writes, if_pos rfl]
    · rw [refuseReq_pattern flight moved addr companion notCheck notTag, reads, if_neg Bool.false_ne_true]
  case lost =>
    intro s lc e n t later r a tr engine flight moved addr companion
    rw [exec_turaistTimeout]
    exact ⟨fun writes => execTuraistTimeout_of_lost engine (loseReq_write flight moved addr companion writes) tr,
      fun side reads => execTuraistTimeout_of_lost engine (loseReq_check flight moved addr companion side reads) tr,
      fun side => execTuraistTimeout_of_lost engine (loseReq_tag flight moved addr companion side) tr,
      fun notCheck notTag reads => execTuraistTimeout_of_lost engine (loseReq_read flight moved addr companion notCheck notTag reads) tr⟩
  case otherLost =>
    intro s lc e n r a pa tr companion
    exact execTuraistTimeout_of_other companion s lc e n r tr
  case train =>
    intro s tr on awake
    exact ⟨execLinkTrain_of_powered on awake tr, trainLink_x32 s, trainLink_x16 s, trainLink_x16_halfRate s, trainLink_down s⟩
  case probe =>
    intro s lc e q engine waits probes entry runs admitted
    have p : Probing s lc e q := ⟨engine, waits, probes, entry, runs, admitted⟩
    simp only [exec_refusalProbe]
    refine ⟨execRefusalProbe_of_turnedAway p, fun _ _ => execRefusalProbe_of_refusedAgain p, fun no0 no1 no2 no3 => ?last, fun others => ?notLast⟩
    case last =>
      have quiet : anyProbes (cluster (probeOver s lc e q) lc) = false := by
        simp only [anyProbes, Bool.or_eq_false_iff]
        exact ⟨⟨⟨no0, no1⟩, no2⟩, no3⟩
      exact (execRefusalProbe_of_accepted p).trans (if_neg (by rw [quiet]; exact Bool.false_ne_true))
    case notLast => exact (execRefusalProbe_of_accepted p).trans (if_pos others)
  case timeout =>
    intro s lc e engine waits probes
    exact execProbeTimeout_of_probing engine waits probes

end Sys2Proof.Machine
end

section
/-! PROOFS. The version, ready and loss commands of a queue (R173, R175, R213, R214, R220, R225). -/

namespace Sys2Proof.Machine

theorem exec_verHold (lc q cyc : Nat) (s : State) : exec (.verHold lc q cyc) s = execVerHold lc q cyc s := rfl
theorem exec_verDrop (lc q cyc : Nat) (s : State) : exec (.verDrop lc q cyc) s = execVerDrop lc q cyc s := rfl
theorem exec_commitReady (lc q cyc : Nat) (s : State) : exec (.commitReady lc q cyc) s = execCommitReady lc q cyc s := rfl
theorem exec_lossPost (lc q cyc : Nat) (s : State) : exec (.lossPost lc q cyc) s = execLossPost lc q cyc s := rfl

section
variable {s : State} {lc q cyc : Nat} {e : QEntry}

/-- What a head of its queue comes to under `queueCommand` (R121, R123). -/
theorem queueCommand_of_head {op : Nat} {f : QEntry → State → State} (head : pickOp s lc q cyc op = some e) :
    (∀ d, missedDue (cluster s lc) q cyc e = some d → queueCommand s lc q cyc op f = lateSlip s lc q d e) ∧
    (missedDue (cluster s lc) q cyc e = none →
      (e.live = true → queueCommand s lc q cyc op f = f e s) ∧ (e.live = false → queueCommand s lc q cyc op f = retireAt s lc q cyc e)) := by
  simp only [queueCommand, head]
  refine ⟨fun d missed => ?_, fun inTime => ⟨fun live => ?_, fun dead => ?_⟩⟩
  · simp only [missed]
  · simp only [inTime, live, if_true]
  · simp only [inTime, dead, Bool.false_eq_true, if_false]

/-! Version handles -/

/-- A free handle takes the current slot of its tensor (R213). -/
theorem takeHold_of_free (free : (handleOf s lc (holdHandle e.raw)).held = false) :
    let u := modCluster s lc (fun c => { c with log := { c.log with holdRec := spSet 0 c.log.holdRec e.idx e.occ } })
    let v := vtOf s (holdTensor e.raw)
    takeHold s lc e = setHandle (modVt u (holdTensor e.raw) (fun v => modHold v v.cur (fun n => n + 1))) lc (holdHandle e.raw)
      ⟨holdTensor e.raw, v.cur, true, false, v.ver, intervalId u lc⟩ := by
  simp only [takeHold, free, Bool.false_eq_true, and_false, if_false]
  rfl

/-- An execution that a replay makes again finds its handle held and leaves it so (R213). -/
theorem takeHold_of_recorded (counted : e.occ ≤ spGet 0 (cluster s lc).log.holdRec e.idx)
    (held : (handleOf s lc (holdHandle e.raw)).held = true) : takeHold s lc e = s :=
  if_pos ⟨counted, held⟩

theorem dropHold_of_held (held : (handleOf s lc (holdHandle e.raw)).held = true) :
    dropHold s lc e = setHandle s lc (holdHandle e.raw) { (handleOf s lc (holdHandle e.raw)) with release := true } :=
  if_pos held

/-! LOSS.POST -/

/-- Once LOSS.POST has read its loss the word's poison is consumed, whatever becomes of the post (R369). -/
def lossTaken (s : State) (lc : Nat) (e : QEntry) : State :=
  let r := readLoss (cluster s lc).mem e
  modCluster s lc (fun c => consumePoison { c with mem := spTouch c.mem r.ws } (b2n r.poison))

/-- The value that a loss posts: a NaN for a poisoned word (R369). -/
def lossValue (s : State) (lc : Nat) (e : QEntry) : F32 :=
  if (readLoss (cluster s lc).mem e).poison then 0x7FC00000#32 else (readLoss (cluster s lc).mem e).v

/-- LOSS.POST of a scalar, or of a word in range with its tag, posts unless the interval's record counts the execution (R220). -/
theorem lossPost_of_read (inRange : (sref e.raw 0).mode = 3 ∨ formed e (sref e.raw 0) + 3 ≤ spTop)
    (tagged : (readLoss (cluster s lc).mem e).bad = none) :
    lossPost lc q cyc e s = retireAt (
      if spGet 0 (cluster s lc).log.lossRec e.idx < e.occ then
        modMonitor (modCluster (lossTaken s lc e) lc (fun c => { c with log := { c.log with lossRec := spSet 0 c.log.lossRec e.idx e.occ } }))
          (lossMon e.raw) (fun m => postLoss m (lossValue s lc e))
      else lossTaken s lc e) lc q cyc e := by
  have noBound : ¬ ((sref e.raw 0).mode ≠ 3 ∧ spTop < formed e (sref e.raw 0) + 3) := by omega
  simp only [lossPost, if_neg noBound, tagged]
  rfl

end

/-- Settles O39: a live head in time is the effect of its command, and each effect has its cases. -/
theorem versionReadyAndLossComplete : Obligations.VersionReadyAndLossComplete := by
  unfold Obligations.VersionReadyAndLossComplete
  refine ⟨?hold, ?drop, ?ready, ?loss⟩
  case hold =>
    intro s lc q cyc e head inTime live
    rw [exec_verHold, execVerHold, ((queueCommand_of_head head).2 inTime).1 live]
    refine ⟨fun _ => ?_, fun counted held => ?_⟩
    · intro u v free
      rw [takeHold_of_free free]
    · rw [takeHold_of_recorded counted held]
  case drop =>
    intro s lc q cyc e head inTime live held
    rw [exec_verDrop, execVerDrop, ((queueCommand_of_head head).2 inTime).1 live, dropHold_of_held held]
  case ready =>
    intro s lc q cyc e noReady head inTime retired live
    rw [exec_commitReady, execCommitReady, ((flagCommand_of_head noReady head).2 inTime).2.1 live retired]
  case loss =>
    intro s lc q cyc e head inTime live r u x inRange tagged
    rw [exec_lossPost, execLossPost, ((queueCommand_of_head head).2 inTime).1 live, lossPost_of_read inRange tagged]
    refine ⟨fun fresh => ?_, fun counted => ?_⟩
    · rw [if_pos fresh]
      rfl
    · rw [if_neg (Nat.not_lt.2 counted)]
      rfl

end Sys2Proof.Machine
end

section
/-! PROOFS. The type that a frame's header gives, read back from its fields (Table 11-1). -/

namespace Sys2Proof.Machine

theorem natBits_mod_two_pow {m lo n : Nat} (inside : lo + n ≤ m) (x : Nat) : natBits (x % 2 ^ m) lo n = natBits x lo n := by
  have := natBits_natBits (x := x) (lo := 0) inside
  rwa [Nat.zero_add] at this

theorem hdrOf_type_of_bits {f : Frame} {h : Hdr} (carries : f.hdr = h.bits) (inField : h.type < 2 ^ 4) : (hdrOf f).type = h.type := by
  have bits : (hdrOf f).type = natBits f.hdr.toNat 4 4 := rfl
  rw [bits, carries, Hdr.bits, BitVec.toNat_ofNat, natBits_mod_two_pow (by decide), natBits_packFields_tail (by decide),
    natBits_packFields_head, Nat.mod_eq_of_lt inField]

end Sys2Proof.Machine
end

section
/-! PROOFS. Timers of frames: retransmission, absent peers, the pieces that leave, OOS (R291, R292, R322, R360). -/

namespace Sys2Proof.Machine

theorem exec_retransmitTimeout (p n : Nat) (s : State) : exec (.retransmitTimeout p n) s = .next (resend s p n false) := rfl
theorem exec_busyRetry (p n : Nat) (s : State) : exec (.busyRetry p n) s = .next (resend s p n true) := rfl
theorem exec_peerAbsent (p j m : Nat) (s : State) : exec (.peerAbsent p j m) s = execPeerAbsent p j m s := rfl
theorem exec_pieceTransmit (p n : Nat) (differs : Bool) (s : State) :
    exec (.pieceTransmit p n differs) s = execPieceTransmit p n differs s := rfl
theorem exec_oosSend (p : Nat) (s : State) : exec (.oosSend p) s = execOosSend p s := rfl

section
variable {s : State} {p n : Nat}

/-- A frame that waits for its first answer or, once answered BUSY, for its retry is sent again with the same bytes (R291, R292). -/
theorem resend_of_waiting {u : Unacked} {b : Bool} (waits : (portOf s p).unacked[n]? = some u) (busy : u.busy = b)
    (serves : portsServe s = true) (sends : portSends s p = true) :
    resend s p n b = modPort (putFrame s p u.frame) p (fun q =>
      { q with retx := satAdd 32 q.retx 1, unacked := listMod (fun u => { u with busy := false }) q.unacked n }) := by
  simp [resend, waits, busy, serves, sends]

theorem execPeerAbsent_of_unanswered {j m : Nat} (serves : portsServe s = true) (valid : (jobOf s j).valid = true)
    (waits : (portOf s p).unacked.any (fun u => u.jslot == j && u.midx == m) = true) :
    execPeerAbsent p j m s = .next (memberGone s p j m) := by
  simp only [execPeerAbsent, serves, valid, waits, Bool.and_self, if_true]

/-- A piece at place n of a port that is not fenced may leave: 6 µs have passed since it was formed and its job's reductions run (R360). -/
structure PieceDue (s : State) (p n : Nat) (x : Formed) : Prop where
  formed : (portOf s p).formed[n]? = some x
  notFenced : (portOf s p).fenced = false
  serves : portsServe s = true
  runs : (jobOf s x.piece.jslot).stopped = false
  waited : x.formedAt + 300 ≤ s.clk.aon

section
variable {x : Formed} (due : PieceDue s p n x)
include due

/-- A due piece leaves when the adders agree; at the first difference it is formed again, at the second the port is fenced (R360). -/
theorem execPieceTransmit_of_due (differs : Bool) : execPieceTransmit p n differs s = .next (
    if differs = true then
      if x.differed = true then logEvent (modPort s p (fun q => { q with fenced := true })) 0x006A 7 3 p noLink (packFields [(p, 3)])
      else modPort s p (fun q => { q with formed := listMod (fun x => { x with formedAt := s.clk.aon, differed := true }) q.formed n })
    else flushEvents (sendPiece (modPort s p (fun q => { q with formed := q.formed.eraseIdx n })) p x.piece)) := by
  have goes : ((portOf s p).fenced || !(portsServe s) || (jobOf s x.piece.jslot).stopped || decide (s.clk.aon < x.formedAt + 300)) = false := by
    simp [due.notFenced, due.serves, due.runs, due.waited]
  simp only [execPieceTransmit, due.formed, goes]
  cases differs with
  | false => rfl
  | true => cases x.differed <;> rfl

end

/-- The header of an OOS frame, of no job and no member (R322). -/
def oosHdr : Hdr :=
  { ver := 1, type := tOOS, enc := false, stage := 0, job := 0, flow := 0, src := 0xFFFF, dst := 0xFFFF, hops := 0, seq := 0, round := 0,
    chunk := 0, contrib := 0, piece := 0, len := 16, cfgchk := 0 }

/-- An OOS frame of port p, broadcast, whose payload counts n of them (R322). -/
def oosFrame (s : State) (p mac n : Nat) : Frame :=
  { (mkFrame s p 0 oosHdr (oosPayload mac n) []) with dst := BitVec.ofNat 48 (2 ^ 48 - 1) }

theorem oosFrame_type (s : State) (p mac n : Nat) : (hdrOf (oosFrame s p mac n)).type = tOOS :=
  hdrOf_type_of_bits (h := oosHdr) rfl (by decide)

/-- An OOS frame leaves in the scrub, counted before it is built (R322). -/
theorem execOosSend_of_scrubbing (inRange : p < 8) (oos : (portOf s p).oos = true) (scrubs : s.op = .scrubbing) :
    let u := modPort s p (fun q => { q with oosSent := (portOf s p).oosSent + 1 })
    ∃ f : Frame, (hdrOf f).type = tOOS ∧ f.dst.toNat = 2 ^ 48 - 1 ∧ f.payload = oosPayload (portOf s p).mac ((portOf s p).oosSent + 1) ∧
      execOosSend p s = .next (putFrame u p f) := by
  intro u
  refine ⟨oosFrame u p (portOf s p).mac ((portOf s p).oosSent + 1), oosFrame_type .., rfl, rfl, ?_⟩
  rw [execOosSend, if_pos ⟨inRange, oos, scrubs⟩]
  rfl

end

end Sys2Proof.Machine
end

section
/-! PROOFS. Rounds of a flow and the contributions to their chunks (R297, R298, R312 to R315, R376). -/

namespace Sys2Proof.Machine

theorem exec_flowRoundOpen (p x : Nat) (s : State) : exec (.flowRoundOpen p x) s = execFlowRoundOpen p x s := rfl
theorem exec_contributionReady (p x c : Nat) (s : State) : exec (.contributionReady p x c) s = execContributionReady p x c s := rfl
theorem exec_sourceReread (p x c : Nat) (s : State) : exec (.sourceReread p x c) s = execSourceReread p x c s := rfl
theorem exec_contribDeadline (p x c : Nat) (s : State) : exec (.contribDeadline p x c) s = execContribDeadline p x c s := rfl
theorem exec_starterTimeout (p x c : Nat) (s : State) : exec (.starterTimeout p x c) s = execStarterTimeout p x c s := rfl
theorem exec_flowRoundComplete (p x : Nat) (s : State) : exec (.flowRoundComplete p x) s = execFlowRoundComplete p x s := rfl
theorem exec_roundCompletionLimit (p x : Nat) (s : State) : exec (.roundCompletionLimit p x) s = execRoundCompletionLimit p x s := rfl

section
variable {s : State} {p x c : Nat}

theorem gate_of_admits {act : Nat} {l : List (Nat × Nat)} (admitted : admits s act l = true) (r : Res) : gate s act l r = r := if_pos admitted

/-- A round opens at its trigger's threshold, unless a checkpoint holds the residuals that it would overwrite (R297, R381). -/
theorem execFlowRoundOpen_of_triggered (inRange : p < 8) (runs : flowRuns s p x = true) (idle : (flowOf s p x).fopen = false)
    (reached : (flowOf s p x).trigThresh ≤ sfGet s (p / 2) (flowOf s p x).trig) (serves : portsServe s = true) (awake : s.slp.entering = none)
    (noHold : (flowOf s p x).residEn = true → ckptHoldsResid s (p * 32768 + x) (flowOf s p x).parity = false) :
    execFlowRoundOpen p x s = .next (modFlow (sfClear s (p / 2) (flowOf s p x).trig) p x (fun f => { f with fopen := true })) := by
  have free : ((flowOf s p x).residEn && ckptHoldsResid s (p * 32768 + x) (flowOf s p x).parity) = false := by
    simpa only [Bool.and_eq_false_imp] using noHold
  rw [execFlowRoundOpen, if_pos]
  exact ⟨inRange, runs, by rw [idle]; rfl, reached, serves, by rw [awake]; rfl, by rw [free]; rfl⟩

/-! The module's own contribution -/

theorem execContributionReady_of_unread (runs : flowRuns s p x = true) (opened : (flowOf s p x).fopen = true)
    (inFlow : c < (flowOf s p x).chunkCount) (serves : portsServe s = true) (unread : ownOf s p x c = none)
    (admitted : admits s 3 (devCells (p / 2) (srcRange (flowOf s p x) c).1 false) = true) :
    execContributionReady p x c s = .next (flushEvents (advanceChunk (readOwn s p x c) p x c)) := by
  rw [execContributionReady, if_pos ⟨runs, opened, inFlow, by rw [unread]; rfl, serves⟩, gate_of_admits admitted]

/-- The poisoned granules of a source are read again, those of its second range with what the first left behind (R314). -/
theorem execSourceReread_of_poisoned {o : OwnSt} (runs : flowRuns s p x = true) (opened : (flowOf s p x).fopen = true)
    (serves : portsServe s = true) (own : ownOf s p x c = some o) (poisoned : o.bad ≠ []) (waits : o.skipped = false)
    (admitted : admits s 3 (devCells (p / 2) (srcRange (flowOf s p x) c).1 false) = true) :
    let a := rereadRange s p (srcRange (flowOf s p x) c).1 (srcRange (flowOf s p x) c).2 o.src o.bad
    let b := rereadRange a.2 p (src2Range (flowOf s p x) c).1 (src2Range (flowOf s p x) c).2 o.src2 o.bad
    execSourceReread p x c s =
      .next (flushEvents (advanceChunk (putOwn b.2 { o with src := a.1.1, src2 := b.1.1, bad := a.1.2 ++ b.1.2 }) p x c)) := by
  have goes : ¬ (o.bad.isEmpty = true ∨ o.skipped = true ∨ (!(flowRuns s p x)) = true ∨ (!(flowOf s p x).fopen) = true ∨
      (!(portsServe s)) = true) := by
    simp [poisoned, waits, runs, opened, serves]
  simp only [execSourceReread, own, if_neg goes, admitted, Bool.not_true, Bool.false_eq_true, if_false]

/-! The deadlines of a chunk -/

section
variable (runs : flowRuns s p x = true) (inFlow : c < (flowOf s p x).chunkCount) (waits : (stageOf s p x c 0).act = 0)
  (serves : portsServe s = true)
include runs inFlow waits serves

/-- At the deadline pieces that wait pass on unchanged; a starter sends the chunk on with CONTRIB = 0 (R312). -/
theorem execContribDeadline_of_unready (unready : ownReady s p x c = false) :
    execContribDeadline p x c s = (
      if (stageOf s p x c 0).bound.isSome = true then
        .next (flushEvents (advanceChunk (modStage (skipPoisoned s p x c) p x c 0 (fun y => { y with act := 2 })) p x c))
      else if (flowOf s p x).fopen = true ∧ ringFirst s (flowOf s p x).jslot c = true then
        .next (flushEvents (advanceChunk (startChain (skipPoisoned s p x c) p x c false) p x c))
      else .next s) := by
  refine if_neg ?_
  simp [runs, inFlow, waits, serves, unready]

theorem execStarterTimeout_of_ready (ready : ownReady s p x c = true) (unbound : (stageOf s p x c 0).bound = none)
    (second : afterStarter s (flowOf s p x).jslot c = true) :
    execStarterTimeout p x c s = .next (flushEvents (advanceChunk (startChain s p x c true) p x c)) :=
  if_pos ⟨runs, inFlow, waits, by rw [unbound]; rfl, serves, ready, second⟩

end

/-! The end of a round -/

section
variable (runs : flowRuns s p x = true) (opened : (flowOf s p x).fopen = true) (serves : portsServe s = true)
include runs opened serves

/-- A round all of whose chunks came in time completes: the next has its number, and the DONE flag is increased (R298). -/
theorem execFlowRoundComplete_of_inTime (done : roundDone s p x = true) (inTime : (fstatOf s p x).lateN = 0)
    (noLoss : s.ckpt.policy.lossV = false) :
    execFlowRoundComplete p x s = .next (flushEvents (sfAdd (modFstat (clearRound (modFlow (noteSlow s (flowOf s p x).jslot false) p x
      (fun f => { f with round := (f.round + 1) % 2 ^ 32, fopen := false })) p x) p x
      (fun y => { y with chDone := 0, lateN := 0, bumpsR := 0, limit := false, flagged := false })) (p / 2) (flowOf s p x).done 1)) := by
  simp only [execFlowRoundComplete, runs, opened, serves, done, inTime, noLoss, Bool.and_self, Bool.false_and, Bool.not_true,
    Bool.false_eq_true, if_false, if_true, ne_eq, not_true_eq_false, decide_false]

/-- At the limit every chunk without a result is written as lost (R376). -/
theorem execRoundCompletionLimit_of_limit (limit : (fstatOf s p x).limit = true) (admitted : admits s 3 (resultCells s p x 0) = true) :
    execRoundCompletionLimit p x s = .next (flushEvents ((List.range (flowOf s p x).chunkCount).foldl (fun s c => loseChunk s p x c)
      (modFstat s p x (fun y => { y with limit := false })))) := by
  simp only [execRoundCompletionLimit, runs, opened, serves, limit, Bool.and_self, if_true, gate_of_admits admitted]

end

end

end Sys2Proof.Machine
end

section
/-! PROOFS. The timers of flows and frames, and a commit that waits too long for its decision (R230). -/

namespace Sys2Proof.Machine

theorem exec_commitStalled (g : Nat) (s : State) : exec (.commitStalled g) s = execCommitStalled g s := rfl

/-- COMMIT_STALLED marks the readies of its group, so that it is logged once (R230). -/
theorem execCommitStalled_of_awaiting {s : State} {g : Nat} (valid : (groupOf s g).valid = true) (awaits : (groupOf s g).await = true)
    (late : stalledReady s g = true) :
    execCommitStalled g s = .next (logEvent
      { s with train := { s.train with sent := s.train.sent.map (fun r => if r.group = g then { r with stalled := true } else r) } }
      0x0011 7 7 0 noLink (packFields [(g, 10), ((groupOf s g).round, 32)])) :=
  if_pos ⟨valid, awaits, late⟩

/-- Settles O59: the guard of each timer decides its branch, and the branch is the stated effect. -/
theorem flowTimersComplete : Obligations.FlowTimersComplete := by
  unfold Obligations.FlowTimersComplete
  refine ⟨?resend, ?absent, ?opens, ?own, ?deadline, ?completes, ?limit, ?piece, ?oos, ?stalled⟩
  case resend =>
    intro s p n u b waits busy serves sends
    refine ⟨_, rfl, fun unanswered => ?_, fun answered => ?_⟩
    · rw [exec_retransmitTimeout, resend_of_waiting waits (busy.trans unanswered) serves sends]
    · rw [exec_busyRetry, resend_of_waiting waits (busy.trans answered) serves sends]
  case absent =>
    intro s p j m serves valid waits
    rw [exec_peerAbsent]
    exact execPeerAbsent_of_unanswered serves valid waits
  case opens =>
    intro s p x inRange runs idle reached serves awake noHold
    rw [exec_flowRoundOpen]
    exact execFlowRoundOpen_of_triggered inRange runs idle reached serves awake noHold
  case own =>
    intro s p x c runs opened inFlow serves
    rw [exec_contributionReady, exec_sourceReread]
    exact ⟨execContributionReady_of_unread runs opened inFlow serves, fun _ => execSourceReread_of_poisoned runs opened serves⟩
  case deadline =>
    intro s p x c runs inFlow waits serves
    rw [exec_contribDeadline, exec_starterTimeout]
    refine ⟨fun unready bound => ?_, fun unready unbound opened first => ?_, execStarterTimeout_of_ready runs inFlow waits serves⟩
    · rw [execContribDeadline_of_unready runs inFlow waits serves unready, if_pos bound]
    · rw [execContribDeadline_of_unready runs inFlow waits serves unready, if_neg (by simp [unbound]), if_pos ⟨opened, first⟩]
  case completes =>
    intro s p x runs opened serves done inTime noLoss
    rw [exec_flowRoundComplete]
    exact execFlowRoundComplete_of_inTime runs opened serves done inTime noLoss
  case limit =>
    intro s p x runs opened limit serves admitted
    rw [exec_roundCompletionLimit]
    exact execRoundCompletionLimit_of_limit runs opened serves limit admitted
  case piece =>
    intro s p n x formed notFenced serves runs waited
    have due : PieceDue s p n x := ⟨formed, notFenced, serves, runs, waited⟩
    simp only [exec_pieceTransmit, execPieceTransmit_of_due due]
    exact ⟨rfl, fun first => by simp [first], fun second => by simp [second]⟩
  case oos =>
    intro s p inRange oos scrubs
    rw [exec_oosSend]
    exact execOosSend_of_scrubbing inRange oos scrubs
  case stalled =>
    intro s g valid awaits late
    rw [exec_commitStalled]
    exact execCommitStalled_of_awaiting valid awaits late

end Sys2Proof.Machine
end

section
/-! PROOFS. BANK_HANDOVER, CKPT_POLICY and FLOW_OPEN once their message is taken (R252, R240, R383, R295, R296, R321). -/

namespace Sys2Proof.Machine

theorem exec_bankHandover (m : Msg) (s : State) : exec (.bankHandover m) s = execBankHandover m s := rfl
theorem exec_ckptPolicy (m : Msg) (s : State) : exec (.ckptPolicy m) s = execCkptPolicy m s := rfl
theorem exec_flowOpen (m : Msg) (s : State) : exec (.flowOpen m) s = execFlowOpen m s := rfl

variable {s t : State} {m : Msg} {l : List Byte}

/-- The memories with each bank of a list handed from one of ENGINES (0) and MARCH (1) to the other (R252). -/
def swapTablets (c : ClMem) (mem : Nat) (bs : List Nat) : ClMem := bs.foldl (fun c b => setTab c mem b (1 - tablet c mem b)) c

theorem execBankHandover_of_powered (taken : TakenArgs s m 0x0040 [(0, 8), (8, 64), (72, 2)] t) (named : bankBad t m = none)
    (powered : ∀ b, b ∈ maskBanks (mb m 8 64) (mb m 72 2) → tablet (cluster t (mb m 0 8)).mem (mb m 72 2) b ≤ 1)
    (unheld : marchHolds t (mb m 0 8) (mb m 72 2) (maskBanks (mb m 8 64) (mb m 72 2)) = false) :
    execBankHandover m s = .next (flushEvents
      (ok (modMem t (mb m 0 8) (fun c => swapTablets c (mb m 72 2) (maskBanks (mb m 8 64) (mb m 72 2)))) m 0 0)) := by
  have noneOff : ¬ (maskBanks (mb m 8 64) (mb m 72 2)).any
      (fun b => decide (1 < tablet (cluster t (mb m 0 8)).mem (mb m 72 2) b)) = true := by
    simpa using powered
  rw [execBankHandover, takeArgs_taken _ taken]
  simp only [named, if_neg noneOff, unheld, Bool.false_eq_true, if_false]
  rfl

theorem execCkptPolicy_of_good (block : TakenBlock s m m 0x0053 l t) (long : 32 ≤ l.length)
    (whole : l.length = 32 + 16 * natBits (byteField l 0 32) 192 7) (good : policyBad t l = none) :
    execCkptPolicy m s = .next (flushEvents (ok (modCkpt (retryMount t) (fun c => { c with policy := policyParse l })) m 0 0)) := by
  obtain ⟨t0, taken, read, plain⟩ := block
  have length : ¬ (l.length < 32 ∨ l.length ≠ 32 + 16 * natBits (byteField l 0 32) 192 7) := by omega
  rw [execCkptPolicy, takeCommand_taken _ taken]
  simp only [read, if_neg length, checkBody_none _ plain, good]

theorem blockExact_of_length {n : Nat} {f : List Byte → State → State} (read : readBlock s m = .inr (l, t)) (length : l.length = n) :
    blockExact s m n f = f l t := by
  simp [blockExact, read, length]

theorem execFlowOpen_of_good (block : TakenBlock s m (foBlockMsg m) 0x0063 l t) (length : l.length = 128)
    (free : (flowOf t (foPort m) (foCtx m)).valid = false) (good : flowBad t (byteField l 0 128) = none)
    (unspent : flowSpent t (foPort m) (foCtx m) (jobOf t (flowConfig (byteField l 0 128)).jslot) = false) :
    execFlowOpen m s = .next (flushEvents (ok (openFlow t (foPort m) (foCtx m) (flowConfig (byteField l 0 128))) m 2
      (cfgchkOf (flowConfig (byteField l 0 128))))) := by
  obtain ⟨t0, taken, read, plain⟩ := block
  rw [execFlowOpen, takeCommand_taken _ taken, blockExact_of_length read length, checkBody_none _ plain]
  simp only [free, good, unspent, Bool.false_eq_true, if_false]

/-- Settles O21: each command passes the checks of its arguments, and its effect is the stated one. -/
theorem handoverPolicyAndFlowCommandsComplete : Obligations.HandoverPolicyAndFlowCommandsComplete := by
  unfold Obligations.HandoverPolicyAndFlowCommandsComplete
  refine ⟨?handover, ?policy, ?flow⟩
  case handover =>
    intro s m t taken named powered unheld
    rw [exec_bankHandover]
    exact execBankHandover_of_powered taken named powered unheld
  case policy =>
    intro s m l t block long whole good
    rw [exec_ckptPolicy]
    exact execCkptPolicy_of_good block long whole good
  case flow =>
    intro s m l t block length free good unspent
    rw [exec_flowOpen]
    exact execFlowOpen_of_good block length free good unspent

end Sys2Proof.Machine
end

section
/-! PROOFS. Tablets, bank power and the write-back that a read left owed (R234, R236, R240, R241). -/

namespace Sys2Proof.Machine

theorem exec_tabletWrite (lc mem bank : Nat) (v : BitVec 2) (s : State) :
    exec (.tabletWrite lc mem bank v) s = .next (serveWaiting (writeTablet s lc mem bank v.toNat)) := rfl
theorem exec_bankPowerDone (lc mem bank : Nat) (s : State) : exec (.bankPowerDone lc mem bank) s = execBankPowerDone lc mem bank s := rfl
theorem exec_eccWriteback (lc mem word : Nat) (s : State) : exec (.eccWriteback lc mem word) s = execEccWriteback lc mem word s := rfl

/-- A change of a cluster's memories depends on what it makes of the memories that stand. -/
theorem modMem_congr {s : State} {lc : Nat} {f g : ClMem → ClMem} (same : f (cluster s lc).mem = g (cluster s lc).mem) :
    modMem s lc f = modMem s lc g := by
  simp only [modMem, modCluster, same]

/-! Tablets -/

section
variable {s : State} {lc mem bank v : Nat}

theorem writeTablet_of_may (may : tabletMay s lc mem bank v = true) :
    writeTablet s lc mem bank v = modMem s lc (fun m => putTablet m mem bank v) := if_pos may

theorem writeTablet_of_mayNot (mayNot : tabletMay s lc mem bank v = false) : writeTablet s lc mem bank v = s :=
  if_neg (by simp [mayNot])

/-- Both values ON: the bank changes hands at once (R240). -/
theorem writeTablet_of_on (may : tabletMay s lc mem bank v = true) (on : tablet (cluster s lc).mem mem bank < 2) (value : v < 2) :
    writeTablet s lc mem bank v =
      modMem s lc (fun m => { m with tab := spPut m.tab (tabIdx mem bank) v, moving := spDel m.moving (tabIdx mem bank) }) :=
  (writeTablet_of_may may).trans (modMem_congr (if_pos ⟨on, value⟩))

/-- The power state that stands withdraws a request (R240). -/
theorem writeTablet_of_stands (may : tabletMay s lc mem bank v = true) (power : 2 ≤ v) (stands : tablet (cluster s lc).mem mem bank = v) :
    writeTablet s lc mem bank v = modMem s lc (fun m => { m with moving := spDel m.moving (tabIdx mem bank) }) :=
  (writeTablet_of_may may).trans (modMem_congr (by rw [putTablet, if_neg (by omega), if_pos stands]))

/-- Another power state is requested (R236, R240). -/
theorem writeTablet_of_differs (may : tabletMay s lc mem bank v = true) (power : 2 ≤ v ∨ 2 ≤ tablet (cluster s lc).mem mem bank)
    (differs : tablet (cluster s lc).mem mem bank ≠ v) :
    writeTablet s lc mem bank v = modMem s lc (fun m => { m with moving := spPut m.moving (tabIdx mem bank) v }) :=
  (writeTablet_of_may may).trans (modMem_congr (by rw [putTablet, if_neg (by omega), if_neg differs]))

theorem serveWaiting_of_empty (empty : s.tt.waiting = []) : serveWaiting s = s := by
  rw [serveWaiting, empty, List.foldl_nil, ← empty]

/-- A bank reaches the power state requested (R236). -/
theorem execBankPowerDone_of_moving {e : Nat × Nat} (safe : s.boot.phase ≠ .safe) (isMem : mem < 3) (isBank : bank < bankCount mem)
    (moving : (cluster s lc).mem.moving.find? (fun e => e.1 == tabIdx mem bank) = some e) :
    execBankPowerDone lc mem bank s = .next (modMem s lc (fun m => settleTab m mem bank e.2)) := by
  simp only [execBankPowerDone, if_neg safe, isMem, isBank, decide_true, Bool.and_true, moving]

end

/-! Write-back -/

section
variable {s : State} {m : ClMem} {lc mem word : Nat}

/-- The memories once a write-back is no longer owed to a word, with some of its granules correct. -/
def paidBack (m : ClMem) (mem word : Nat) (gs : List Nat) : ClMem := eccClear { m with wb := setDel m.wb (mem * 65536 + word) } mem word gs

/-- What the write-back of a scratchpad (0) or side-memory (1) word stores: an uncorrectable word keeps poison, which side memory has as a missing
cleanliness mark (R234). -/
def writtenBack (m : ClMem) (mem word : Nat) : ClMem :=
  let k := paidBack m mem word allGran
  if !(wordUe m mem word) then k
  else if mem = 0 then { k with wmeta := spMod WordMeta.clear k.wmeta word (fun x => { x with poison := true }) }
  else { k with sideClean := setDel k.sideClean word }

theorem writtenBack_of_correctable (good : wordUe m mem word = false) : writtenBack m mem word = paidBack m mem word allGran :=
  if_pos (by simp [good])

theorem writtenBack_scratchpad_of_bad (bad : wordUe m 0 word = true) :
    writtenBack m 0 word = { (paidBack m 0 word allGran) with
      wmeta := spMod WordMeta.clear (paidBack m 0 word allGran).wmeta word (fun x => { x with poison := true }) } := by
  rw [writtenBack, if_neg (by simp [bad]), if_pos rfl]

theorem writtenBack_side_of_bad (bad : wordUe m 1 word = true) :
    writtenBack m 1 word = { (paidBack m 1 word allGran) with sideClean := setDel (paidBack m 1 word allGran).sideClean word } := by
  rw [writtenBack, if_neg (by simp [bad]), if_neg Nat.one_ne_zero]

theorem execEccWriteback_of_owed (vector : mem < 2) (owed : setHas (cluster s lc).mem.wb (mem * 65536 + word) = true) :
    execEccWriteback lc mem word s = .next (modMem s lc (fun _ => writtenBack (cluster s lc).mem mem word)) := by
  have goes : ¬ (!(setHas (cluster s lc).mem.wb (mem * 65536 + word)) || decide (2 < mem)) = true := by
    simp only [owed, Bool.not_true, Bool.false_or, decide_eq_true_eq]
    omega
  rw [execEccWriteback, if_neg (by omega), if_neg (by omega), if_neg goes]
  rfl

theorem execEccWriteback_sequencer_of_owed (owed : setHas (cluster s lc).mem.wb (2 * 65536 + word) = true) :
    execEccWriteback lc 2 word s = .next (modMem s lc (fun m => paidBack m 2 word (correctable m.seqEcc word))) := by
  rw [execEccWriteback, if_neg (by decide), if_pos rfl, if_neg (by simp [owed])]
  rfl

theorem execEccWriteback_hub_of_owed (owed : setHas s.hub.wb word = true) :
    execEccWriteback lc 3 word s = .next { s with hub := { s.hub with
      wb := setDel s.hub.wb word, err := (correctable s.hub.err word).foldl (fun t g => spDel t (4 * word + g)) s.hub.err } } := by
  rw [execEccWriteback, if_pos rfl, if_neg (by simp [owed])]

theorem execEccWriteback_of_notOwed (inCluster : mem < 3) (notOwed : setHas (cluster s lc).mem.wb (mem * 65536 + word) = false) :
    execEccWriteback lc mem word s = .next s := by
  rw [execEccWriteback, if_neg (by omega)]
  split
  · exact if_pos (by simp [notOwed])
  · exact if_pos (by simp [notOwed])

end

/-- Settles O42: a tablet write by the branches of `putTablet`, a power state reached by `settleTab`, a write-back by the memory it is owed to. -/
theorem tabletAndWriteBackCommandsComplete : Obligations.TabletAndWriteBackCommandsComplete := by
  unfold Obligations.TabletAndWriteBackCommandsComplete
  refine ⟨?may, ?mayNot, ?empty, ?power, ?vector, ?sequencer, ?hub, ?notOwed⟩
  case may =>
    intro s lc mem bank v may
    rw [exec_tabletWrite]
    refine ⟨fun on value => ?_, fun power stands => ?_, fun power differs => ?_⟩
    · rw [writeTablet_of_on may on value]
    · rw [writeTablet_of_stands may power stands]
    · rw [writeTablet_of_differs may power differs]
  case mayNot =>
    intro s lc mem bank v mayNot
    rw [exec_tabletWrite, writeTablet_of_mayNot mayNot]
  case empty => exact fun s => serveWaiting_of_empty
  case power =>
    intro s lc mem bank e safe isMem isBank moving
    rw [exec_bankPowerDone]
    exact execBankPowerDone_of_moving safe isMem isBank moving
  case vector =>
    intro s lc mem word vector owed
    simp only [exec_eccWriteback, execEccWriteback_of_owed vector owed]
    refine ⟨fun good => ?_, fun bad isScratchpad => ?_, fun bad isSide => ?_⟩
    · rw [writtenBack_of_correctable good]
      rfl
    · subst isScratchpad
      rw [writtenBack_scratchpad_of_bad bad]
      rfl
    · subst isSide
      rw [writtenBack_side_of_bad bad]
      rfl
  case sequencer =>
    intro s lc word owed
    rw [exec_eccWriteback]
    exact execEccWriteback_sequencer_of_owed owed
  case hub =>
    intro s lc word owed
    rw [exec_eccWriteback]
    exact execEccWriteback_hub_of_owed owed
  case notOwed =>
    intro s lc mem word inCluster notOwed
    rw [exec_eccWriteback]
    exact execEccWriteback_of_notOwed inCluster notOwed

end Sys2Proof.Machine
end

section
/-! PROOFS. MARCH-P word by word, the armed march, and the patrol of DRAM (R247, R248, R250, R251, R256, R421). -/

namespace Sys2Proof.Machine

theorem exec_preservingMarch (lc mem word : Nat) (fault : Bool) (s : State) :
    exec (.preservingMarch lc mem word fault) s = execPreservingMarch lc mem word fault s := rfl
theorem exec_marchArm (s : State) : exec .marchArm s = execMarchArm s := rfl
theorem exec_marchOverdue (lc : Nat) (march : Option (Nat × Nat)) (s : State) :
    exec (.marchOverdue lc march) s = execMarchOverdue lc march s := rfl
theorem exec_patrolScrubRead (stk : Nat) (s : State) : exec (.patrolScrubRead stk) s = execPatrolScrubRead stk s := rfl

/-! The position of a sweep -/

section
variable {m : ClMem} {word : Nat}

/-- Before the last word of side memory, MARCH-P moves on and keeps the first failure of its sweep (R248, R251). -/
theorem sweepPos_side (more : word + 1 < 4096) :
    sweepPos m 1 4096 word none = { m with posSide := word + 1 } ∧
      ∀ x, sweepPos m 1 4096 word (some x) =
        { m with posSide := word + 1, sweepSide := some (m.sweepSide.getD x), lastFail := true, fail := m.sweepSide.getD x } := by
  have next : (word + 1) % 4096 = word + 1 := Nat.mod_eq_of_lt more
  have notLast : word ≠ 4095 := by omega
  refine ⟨?_, fun x => ?_⟩
  · simp [sweepPos, next, notLast]
  · cases first : m.sweepSide <;> simp [sweepPos, next, notLast, first]

/-- The same of sequencer memory. -/
theorem sweepPos_sequencer (more : word + 1 < 8192) :
    sweepPos m 2 8192 word none = { m with posSeq := word + 1 } ∧
      ∀ x, sweepPos m 2 8192 word (some x) =
        { m with posSeq := word + 1, sweepSeq := some (m.sweepSeq.getD x), lastFail := true, fail := m.sweepSeq.getD x } := by
  have next : (word + 1) % 8192 = word + 1 := Nat.mod_eq_of_lt more
  have notLast : word ≠ 8191 := by omega
  refine ⟨?_, fun x => ?_⟩
  · simp [sweepPos, next, notLast]
  · cases first : m.sweepSeq <;> simp [sweepPos, next, notLast, first]

end

/-! One word of MARCH-P -/

/-- Is `word` the one that MARCH-P tests next in memory `mem` of `n` words and `b` banks (R248)? -/
def SweepAt (m : ClMem) (mem word n b : Nat) : Prop :=
  mem = 1 ∧ n = 4096 ∧ b = 4 ∧ word = m.posSide ∨ mem = 2 ∧ n = 8192 ∧ b = 8 ∧ word = m.posSeq

/-- May MARCH-P test a word of the cluster's memories now (R247)? -/
structure SweepDue (s : State) (lc mem word n b : Nat) : Prop where
  next : SweepAt (cluster s lc).mem mem word n b
  inside : word < n
  runs : arithRuns s = true
  mapped : (lcEntry s lc).mapped = true
  engines : tablet (cluster s lc).mem mem (word % b) = 0

section
variable {s : State} {lc mem word n b : Nat}

/-- A due word is swept past with its failure, if it has one; the cluster stops for its commands, or fails (R234, R248, R251). -/
theorem execPreservingMarch_of_due (due : SweepDue s lc mem word n b) (fault : Bool) :
    execPreservingMarch lc mem word fault s =
      let ue := wordUe (cluster s lc).mem mem word
      let bad := if fault && !ue then some (mem, word % b, word / b) else none
      let t := modMem s lc (fun m => sweepPos (sweepWord m mem word ue bad) mem n word bad)
      let u := if ue && mem == 2 && (cluster t lc).inConsist then stopCluster t lc .seqMemory else t
      .next (if fault && !ue then hardFailure u lc else u) := by
  obtain ⟨next, inside, runs, mapped, engines⟩ := due
  obtain ⟨rfl, rfl, rfl, rfl⟩ | ⟨rfl, rfl, rfl, rfl⟩ := next
  · rw [execPreservingMarch, if_neg (by decide), if_neg (by simp [inside, runs, mapped, engines, bankCount])]
    rfl
  · rw [execPreservingMarch, if_neg (by decide), if_neg (by simp [inside, runs, mapped, engines, bankCount])]
    rfl

/-- A due word that reads without an uncorrectable error passes, or makes the cluster a hard failure (R251). -/
theorem execPreservingMarch_of_correctable (due : SweepDue s lc mem word n b) (good : wordUe (cluster s lc).mem mem word = false) :
    execPreservingMarch lc mem word false s = .next (modMem s lc (fun m => sweepPos m mem n word none)) ∧
      execPreservingMarch lc mem word true s = .next (hardFailure (modMem s lc (fun m =>
        sweepPos (if mem = 1 then { m with sideClean := setDel m.sideClean word } else m) mem n word (some (mem, word % b, word / b)))) lc) := by
  constructor <;> simp [execPreservingMarch_of_due due, good, sweepWord]

/-- An uncorrectable word is left, and stops the cluster of a consist when it holds commands (R234, R248). -/
theorem execPreservingMarch_of_uncorrectable (due : SweepDue s lc mem word n b) (bad : wordUe (cluster s lc).mem mem word = true)
    (fault : Bool) :
    let u := modMem s lc (fun m => sweepPos (eccRead m mem word allGran).1 mem n word none)
    execPreservingMarch lc mem word fault s =
      .next (if mem = 2 ∧ (cluster u lc).inConsist = true then stopCluster u lc .seqMemory else u) := by
  simp [execPreservingMarch_of_due due, bad, sweepWord]

theorem execPreservingMarch_hub_of_next (next : word = s.hub.pos) (runs : hubRuns s = true) (fault : Bool) :
    execPreservingMarch lc 3 word fault s = .next (hubMarch s word) := by
  rw [execPreservingMarch, if_pos rfl, if_pos (by simp [next, runs])]

end

/-! The armed march -/

section
variable {s : State} {lc : Nat}

/-- The memories of a cluster whose march is armed at `now` (R250). -/
def armedMem (now : Nat) (m : ClMem) : ClMem :=
  { m with armMask := 2 ^ 64 - 1, armedAt := if m.arm then m.armedAt else now, arm := true, dueSide := m.dueSide || !m.passSide,
           dueSeq := m.dueSeq || !m.passSeq, passSide := false, passSeq := false }

theorem execMarchArm_of_up (up : s.boot.phase = .up) (runs : hubRuns s = true) :
    execMarchArm s = .next (((List.range 256).filter (fun lc => (lcEntry s lc).mapped)).foldl
      (fun u lc => modMem u lc (armedMem s.clk.aon)) s) :=
  if_neg (by simp [up, runs])

/-- The state in which MARCH_OVERDUE of a cluster is logged, once for each arming (R250). -/
def overdueLogged (s : State) (lc : Nat) : State :=
  if (cluster s lc).mem.overdue then s
  else logEvent (modMem s lc (fun m => { m with overdue := true })) 0x0030 7 0 lc noLink (packFields [(lc, 8)])

@[simp] theorem overdueLogged_op : (overdueLogged s lc).op = s.op := by
  unfold overdueLogged
  split
  · rfl
  · simp

/-- The memories once the armed march has run on the armed banks, with the bank and word that failed (R250, R251). -/
def marchedMem (march : Option (Nat × Nat)) (m : ClMem) : ClMem :=
  { (noteMarch (marchScratch m m.armMask) 0 (march.map (fun x => (0, x.1, x.2)))) with arm := false, overdue := false }

/-- After 16 h the armed march is logged, and runs in IDLE or LOADED (R250). -/
theorem execMarchOverdue_of_late (march : Option (Nat × Nat)) (arm : (cluster s lc).mem.arm = true)
    (late : (cluster s lc).mem.armedAt + overdueCycles ≤ s.clk.aon) (mapped : (lcEntry s lc).mapped = true) (up : s.boot.phase = .up)
    (runs : hubRuns s = true) :
    let w := modMem (overdueLogged s lc) lc (marchedMem march)
    execMarchOverdue lc march s =
      if s.op = .idle ∨ s.op = .loaded then .next (if march.isSome then hardFailure w lc else w) else .next (overdueLogged s lc) := by
  have due : ¬ (!(cluster s lc).mem.arm ∨ s.clk.aon < (cluster s lc).mem.armedAt + overdueCycles ∨ !(lcEntry s lc).mapped ∨
      s.boot.phase ≠ .up ∨ !(hubRuns s)) := by
    simp [arm, Nat.not_lt.2 late, mapped, up, runs]
  intro w
  rw [execMarchOverdue, if_neg due]
  dsimp only
  rw [← overdueLogged, overdueLogged_op, Option.isSome_map]
  rfl

theorem execMarchOverdue_of_early (march : Option (Nat × Nat)) (early : s.clk.aon < (cluster s lc).mem.armedAt + overdueCycles) :
    execMarchOverdue lc march s = .next s :=
  if_pos (.inr (.inl early))

end

/-! The patrol of DRAM -/

section
variable {s : State} {stk : Nat}

@[simp] theorem dramTouch_clk (loc : Nat) (patrol : Bool) : (dramTouch s stk loc patrol).clk = s.clk := by
  unfold dramTouch
  dsimp only
  split
  · rfl
  · split <;> rfl

@[simp] theorem ttCharge_clk (k i a u : Nat) : (ttCharge s k i a u).clk = s.clk := by
  unfold ttCharge
  split <;> rfl

/-- The patrol of a stack past one granule; the last one ends the pass (R256). -/
def patrolled (now : Nat) (k : Stk) : Stk :=
  if k.pos + 1 < 2 ^ 31 then { k with pos := k.pos + 1 }
  else { k with pos := 0, passes := satAdd 16 k.passes 1, lastPass := min (2 ^ 17 - 1) ((now - k.passStart) / 1000000000), passStart := now }

/-- May the patrol of a stack go on, if the timetable admits its read (R256)? -/
structure PatrolDue (s : State) (stk : Nat) : Prop where
  isStack : stk < 12
  noRefresh : (stkOf s stk).refresh = false
  on : (stkOf s stk).off = false
  runs : memRuns s = true
  tested : setHas s.boot.done 6 = true

theorem execPatrolScrubRead_of_due (due : PatrolDue s stk) :
    execPatrolScrubRead stk s = if ttAdmits s 0 stk 5 = true then
        .next (modStk (ttCharge (dramTouch s stk (64 * (stkOf s stk).pos) true) 0 stk 5 1) stk (patrolled s.clk.mem))
      else .next (ttWait s 0 stk 5) := by
  obtain ⟨isStack, noRefresh, on, runs, tested⟩ := due
  rw [execPatrolScrubRead, if_neg (by simp [Nat.not_le.2 isStack, noRefresh, on, runs, tested])]
  cases ttAdmits s 0 stk 5
  · rfl
  · simp only [ttCharge_clk, dramTouch_clk]
    rfl

end

/-- Settles O43: a word of MARCH-P by what its first read finds, the armed march by its age and the operating state, the patrol by its
timetable. -/
theorem marchAndPatrolCommandsComplete : Obligations.MarchAndPatrolCommandsComplete := by
  unfold Obligations.MarchAndPatrolCommandsComplete
  refine ⟨?word, ?hub, ?position, ?arm, ?late, ?early, ?patrol⟩
  case word =>
    intro s lc mem word n b next inside runs mapped engines
    have due : SweepDue s lc mem word n b := ⟨next, inside, runs, mapped, engines⟩
    simp only [exec_preservingMarch]
    exact ⟨execPreservingMarch_of_correctable due, execPreservingMarch_of_uncorrectable due⟩
  case hub =>
    intro s lc word fault next runs
    rw [exec_preservingMarch]
    exact execPreservingMarch_hub_of_next next runs fault
  case position => exact fun m word => ⟨sweepPos_side, sweepPos_sequencer⟩
  case arm =>
    intro s up runs
    rw [exec_marchArm]
    exact execMarchArm_of_up up runs
  case late =>
    intro s lc march arm late mapped up runs
    rw [exec_marchOverdue, execMarchOverdue_of_late march arm late mapped up runs]
    refine ⟨fun rests passes => ?_, fun rests fails => ?_, fun notIdle notLoaded => ?_⟩
    · rw [if_pos rests, if_neg (by simp [passes])]
      rfl
    · rw [if_pos rests, if_pos (Option.isSome_iff_ne_none.2 fails)]
      rfl
    · rw [if_neg (by simp [notIdle, notLoaded])]
      rfl
  case early =>
    intro s lc march early
    rw [exec_marchOverdue]
    exact execMarchOverdue_of_early march early
  case patrol =>
    intro s stk isStack noRefresh on runs tested
    rw [exec_patrolScrubRead, execPatrolScrubRead_of_due ⟨isStack, noRefresh, on, runs, tested⟩]
    refine ⟨fun waits => ?_, fun admitted => ?_⟩
    · rw [if_neg (by simp [waits])]
    · rw [if_pos admitted]
      rfl

end Sys2Proof.Machine
end

section
/-! PROOFS. What a port makes of a frame that it receives: the arrival (R290), the duplicate rule and the ACK (R291). -/

namespace Sys2Proof.Machine

section
variable {s t u : State} {p type j : Nat} {f : Frame} {pl : List Byte}

/-- A frame without an ACK has its effect on the state that its arrival leaves. -/
theorem receivePlain_of_received {act : List Byte → State → State} (rx : ReceivedPlain s p f type pl t) :
    receivePlain s p f type act = flushEvents (act pl t) := by
  obtain ⟨inRange, ofType, serves, may, arrives⟩ := rx
  simp only [receivePlain, Nat.not_le.2 inRange, ofType, serves, may, arrives, ne_eq, not_true_eq_false, false_and, or_self, Bool.not_true,
    Bool.or_self, Bool.false_eq_true, if_false]

section
variable {act : Nat → Hdr → List Byte → State → Nat × State}

/-- A frame of no job of this module is answered BUSY and is not taken (log 18). -/
theorem receiveJob_of_unknownJob (rx : UnknownJob s p f type pl t) : receiveJob s p f type act = sendAck t p f ackBUSY := by
  obtain ⟨⟨inRange, ofType, serves, may, arrives⟩, noJob⟩ := rx
  simp only [receiveJob, Nat.not_le.2 inRange, ofType, serves, may, arrives, noJob, ne_eq, not_true_eq_false, false_and, or_self, Bool.not_true,
    Bool.or_self, Bool.false_eq_true, if_false]

/-- The first arrival of a SEQ is answered with the status of its effect, and remembered unless that is BUSY (R291). -/
theorem receiveJob_of_received (rx : Received s p f type pl j t) : receiveJob s p f type act =
    if (act j (hdrOf f) pl t).1 = ackLATER then flushEvents (act j (hdrOf f) pl t).2
    else flushEvents (sendAck (if (act j (hdrOf f) pl t).1 = ackBUSY then (act j (hdrOf f) pl t).2
      else noteTaken (act j (hdrOf f) pl t).2 (rxSpace p j (hdrOf f)) (hdrOf f).seq (act j (hdrOf f) pl t).1) p f (act j (hdrOf f) pl t).1) := by
  obtain ⟨⟨inRange, ofType, serves, may, arrives⟩, ofJob, fresh⟩ := rx
  simp only [receiveJob, Nat.not_le.2 inRange, ofType, serves, may, arrives, ofJob, fresh, ne_eq, not_true_eq_false, false_and, or_self,
    Bool.not_true, Bool.or_self, Bool.false_eq_true, if_false]

theorem receiveJob_of_accepted (rx : Received s p f type pl j t) (effect : act j (hdrOf f) pl t = (ackACCEPTED, u)) :
    receiveJob s p f type act = accepted u p f j := by
  rw [receiveJob_of_received rx, effect]
  rfl

theorem receiveJob_of_stale (rx : Received s p f type pl j t) (effect : act j (hdrOf f) pl t = (ackSTALE, u)) :
    receiveJob s p f type act = flushEvents (sendAck (noteTaken u (rxSpace p j (hdrOf f)) (hdrOf f).seq ackSTALE) p f ackSTALE) := by
  rw [receiveJob_of_received rx, effect]
  rfl

theorem receiveJob_of_busy (rx : Received s p f type pl j t) (effect : act j (hdrOf f) pl t = (ackBUSY, u)) :
    receiveJob s p f type act = flushEvents (sendAck u p f ackBUSY) := by
  rw [receiveJob_of_received rx, effect]
  rfl

end

/-- A frame that R286 calls foreign is counted, and nothing else comes of it. -/
theorem acceptFrame_of_foreign (linkUp : (portOf s p).linkUp = true) (isForeign : foreign s p f = true) :
    acceptFrame s p f = (none, modPort s p (fun q => { q with foreignN := satAdd 32 q.foreignN 1 })) := by
  simp only [acceptFrame, linkUp, isForeign, Bool.not_true, Bool.false_eq_true, if_false, if_true]

end

end Sys2Proof.Machine
end

section
/-! PROOFS. What a received frame of a job does: DATA, ACK, READY, DECISION, DEC_REQ, OOS, WAKE (R291, R295, R299, R304, R318, R322, R323). -/

namespace Sys2Proof.Machine

theorem exec_dataRx (p : Nat) (f : NotedFrame) (s : State) : exec (.dataRx p f) s = execDataRx p f s := rfl
theorem exec_ackRx (p : Nat) (f : Frame) (s : State) : exec (.ackRx p f) s = execAckRx p f s := rfl
theorem exec_readyRx (p : Nat) (f : Frame) (s : State) : exec (.readyRx p f) s = execReadyRx p f s := rfl
theorem exec_decisionRx (p : Nat) (f : Frame) (s : State) : exec (.decisionRx p f) s = execDecisionRx p f s := rfl
theorem exec_decReqRx (p : Nat) (f : Frame) (s : State) : exec (.decReqRx p f) s = execDecReqRx p f s := rfl
theorem exec_oosRx (p : Nat) (f : Frame) (s : State) : exec (.oosRx p f) s = execOosRx p f s := rfl
theorem exec_wakeRx (p : Nat) (f : Frame) (s : State) : exec (.wakeRx p f) s = execWakeRx p f s := rfl
theorem exec_foreignFrameRx (p : Nat) (f : Frame) (s : State) : exec (.foreignFrameRx p f) s = execForeignFrameRx p f s := rfl

section
variable {s : State} {p j : Nat} {h : Hdr} {pl : List Byte} {note : PieceNote}

/-! DATA -/

/-- Flow x of port p is a valid context of job slot j, whose reductions run (R295, R321). -/
structure FlowTakes (s : State) (p j x : Nat) : Prop where
  valid : (flowOf s p x).valid = true
  ofJob : (flowOf s p x).jslot = j
  runs : (jobOf s j).stopped = false

theorem FlowTakes.not_refused {x : Nat} (takes : FlowTakes s p j x) :
    ¬ ((!(flowOf s p x).valid) = true ∨ (flowOf s p x).jslot ≠ j ∨ (jobOf s j).stopped = true) := by
  simp [takes.valid, takes.ofJob, takes.runs]

section
variable (takes : FlowTakes s p j h.flow) (config : h.cfgchk = (fstatOf s p h.flow).cfgchk)
include takes config

theorem takeData_of_olderRound (older : h.round < (flowOf s p h.flow).round) : takeData note p j h pl s = (ackSTALE, s) := by
  rw [takeData, if_neg takes.not_refused, if_neg (not_not_intro config), if_pos older]

theorem takeData_of_newerRound (newer : (flowOf s p h.flow).round < h.round) : takeData note p j h pl s = (ackBUSY, s) := by
  rw [takeData, if_neg takes.not_refused, if_neg (not_not_intro config), if_neg (Nat.lt_asymm newer), if_pos newer]

/-- In the flow's current round the chunk decides (R299, R304). -/
theorem takeData_of_currentRound (current : h.round = (flowOf s p h.flow).round) :
    takeData note p j h pl s = if (flowOf s p h.flow).chunkCount ≤ h.chunk then (ackBUSY, s) else takePiece s p h pl note := by
  rw [takeData, if_neg takes.not_refused, if_neg (not_not_intro config), if_neg (Nat.not_lt.2 current.ge), if_neg (Nat.not_lt.2 current.le)]

end

/-- The mismatch of configurations is counted each time, and logged for the first frame of a round (R295). -/
theorem takeData_of_otherConfig (takes : FlowTakes s p j h.flow) (config : h.cfgchk ≠ (fstatOf s p h.flow).cfgchk) :
    takeData note p j h pl s = (ackBUSY,
      let u := modPort s p (fun q => { q with cfgMis := satAdd 32 q.cfgMis 1 })
      if (fstatOf s p h.flow).flagged = true then u
      else logEvent (modFstat u p h.flow (fun y => { y with flagged := true })) 0x0022 7 3 p noLink
        (packFields [((jobOf s j).job, 16), (h.flow, 15)])) := by
  rw [takeData, if_neg takes.not_refused, if_pos config]
  exact (apply_ite (Prod.mk ackBUSY) _ _ _).symm

theorem takePiece_of_otherSender (other : (stageOf s p h.flow h.chunk h.stage).bound.any (fun m => m != h.src) = true) :
    takePiece s p h pl note = (ackSTALE, s) :=
  if_pos other

/-- A piece from the sender that its chunk-stage is bound to, or from the first one, is staged if it finds room (R299, R301). -/
theorem takePiece_of_sender (sender : (stageOf s p h.flow h.chunk h.stage).bound.any (fun m => m != h.src) = false) :
    takePiece s p h pl note =
      if stagingCap < stageBytes s p + pl.length then (ackBUSY, s)
      else (ackACCEPTED, advanceChunk (modStage s p h.flow h.chunk h.stage (fun y =>
        { y with bound := some h.src, hops := h.hops, contrib := h.contrib,
                 staged := if h.piece < y.nextIn then y.staged else spPut y.staged h.piece (pl, note) })) p h.flow h.chunk) := by
  simp only [takePiece, sender, Bool.false_eq_true, if_false, decide_eq_true_eq]

/-! ACK -/

section
variable {u : Unacked} {status : Nat} (waits : (portOf s p).unacked.find? (ackFits h) = some u)
include waits

/-- A frame that is answered BUSY stays, to be sent again (R291). -/
theorem takeAck_of_busy (busy : status = ackBUSY) :
    takeAck s p h status =
      modPort s p (fun q => { q with unacked := q.unacked.map (fun x => if ackFits h x then { x with busy := true } else x) }) := by
  simp only [takeAck, waits, if_pos busy]

theorem takeAck_of_taken (taken : status < ackBUSY) :
    takeAck s p h status =
      ackTaken (modPort s p (fun q => { q with unacked := q.unacked.filter (fun x => !(ackFits h x)) })) p u (status == ackSTALE) := by
  have notReserved : status ≠ 3 := by
    unfold ackBUSY at taken
    omega
  simp only [takeAck, waits, if_neg taken.ne, if_neg notReserved]

end

/-! READY, DECISION, DEC_REQ: at CPORT of the frame's job (R318) -/

theorem ownGroup_not_refused {g : Nat} (valid : (groupOf s g).valid = true) (ofJob : (groupOf s g).job = (jobOf s j).job) :
    ¬ ((!(groupOf s g).valid) = true ∨ (groupOf s g).job ≠ (jobOf s j).job) := by
  simp [valid, ofJob]

section
variable (port : p = (jobOf s j).cport)
include port

/-- The leader counts a READY of a round that it has not decided (R227, R318). -/
theorem takeReadyFrame_of_leader (leads : (jobOf s j).leader = (jobOf s j).midx) :
    takeReadyFrame p j h pl s = (ackACCEPTED,
      let x := byteField pl 0 16
      if (decided s (jobOf s j).job (natBits x 0 10) h.round).isSome = true then s
      else takeReady s j ⟨(jobOf s j).job, natBits x 0 10, h.round, h.src, natBits x 10 1 == 1, natBits x 16 8⟩) := by
  rw [takeReadyFrame, if_neg (not_not_intro port), if_neg (not_not_intro leads)]
  exact (apply_ite (Prod.mk ackACCEPTED) _ _ _).symm

section
variable {d : Decision} (parsed : decisionParse (jobOf s j).job h.round (jobOf s j).leader pl = d)
  (valid : (groupOf s d.group).valid = true) (ofJob : (groupOf s d.group).job = (jobOf s j).job)
include parsed valid ofJob

/-- A follower applies a decision that is not ahead of its group, and fetches what it missed by one that is (R318, R391). -/
theorem takeDecision_of_follower (follows : (jobOf s j).leader ≠ (jobOf s j).midx) :
    takeDecision p j h pl s = (ackACCEPTED,
      if (groupOf s d.group).round < d.round then startFetch s j d.group (d.round + 1)
      else
        let t := applyDecision s d
        if (groupOf t d.group).round ≠ (groupOf s d.group).round ∧ setHas t.train.asking d.group = true then askRound t d.group else t) := by
  simp only [takeDecision, parsed, if_neg (ownGroup_not_refused valid ofJob), if_neg follows, if_neg (not_not_intro port)]
  exact (apply_ite (Prod.mk ackACCEPTED) _ _ _).symm

/-- A leader that learns a decision from a member adopts it and sends it to all, once (R377). -/
theorem takeDecision_of_leader (leads : (jobOf s j).leader = (jobOf s j).midx) :
    takeDecision p j h pl s = (ackACCEPTED,
      if (decided s (jobOf s j).job d.group d.round).isSome = true then s
      else applyDecision (sendDecision
        (if (groupOf s d.group).round = d.round then writeRec (keepDecision s d) d else keepDecision s d) j d) d) := by
  simp only [takeDecision, parsed, if_neg (ownGroup_not_refused valid ofJob), if_pos leads, if_neg (not_not_intro port)]
  exact (apply_ite (Prod.mk ackACCEPTED) _ _ _).symm

end

/-- What a DEC_REQ is answered with: the decision is sent, and without one nothing is (R318; log 18). -/
def decisionAnswer (s : State) (j : Nat) (h : Hdr) : Option Decision → State
  | some d => sendControl s j h.src tDECISION h.round (decisionPayload d)
  | none => s

theorem takeDecReq_of_leader (leads : (jobOf s j).leader = (jobOf s j).midx) :
    takeDecReq p j h pl s =
      (ackACCEPTED, decisionAnswer s j h (decided s (jobOf s j).job (natBits (byteField pl 0 2) 0 10) h.round)) := by
  simp only [takeDecReq, if_neg (not_not_intro port), leads, ne_eq, not_true_eq_false, false_and, if_false, if_true]
  cases decided s (jobOf s j).job (natBits (byteField pl 0 2) 0 10) h.round <;> rfl

/-- A member answers its leader alone, from its commit record (R377). -/
theorem takeDecReq_of_member (follows : (jobOf s j).leader ≠ (jobOf s j).midx) (asked : (jobOf s j).leader = h.src) :
    takeDecReq p j h pl s = (ackACCEPTED, decisionAnswer s j h (recordDecision s j (natBits (byteField pl 0 2) 0 10) h.round)) := by
  have ofLeader : ¬ ((jobOf s j).leader ≠ (jobOf s j).midx ∧ (jobOf s j).leader ≠ h.src) := fun refused => refused.2 asked
  simp only [takeDecReq, if_neg (not_not_intro port), if_neg ofLeader, if_neg follows]
  cases recordDecision s j (natBits (byteField pl 0 2) 0 10) h.round <;> rfl

end

/-! WAKE and foreign frames -/

theorem execWakeRx_of_scrubbing {f : Frame} (inRange : p < 8) (scrubs : s.op = .scrubbing) (ofType : (hdrOf f).type = tWAKE) :
    execWakeRx p f s = .next (acceptFrame s p f).2 :=
  congrArg Host.Outcome.next (if_pos ⟨scrubs, inRange, ofType⟩)

/-- Out of the scrub a WAKE frame does nothing but what its arrival does (R323). -/
theorem execWakeRx_of_received {f : Frame} {t : State} (rx : ReceivedPlain s p f tWAKE pl t) (noScrub : s.op ≠ .scrubbing) :
    execWakeRx p f s = .next (flushEvents t) := by
  rw [execWakeRx, if_neg (fun scrub => noScrub scrub.1), receivePlain_of_received rx]

/-- A foreign frame is counted once its arrival has woken the module, if it may (R286, R323). -/
theorem execForeignFrameRx_of_foreign {f : Frame} (inRange : p < 8) (isForeign : foreign s p f = true) (runs : fabRuns s = true)
    (up : s.boot.phase = .up) (awake : (frameActivity s p).op ≠ .sl2) (may : frameMay (frameActivity s p) p = true) :
    execForeignFrameRx p f s = .next (acceptFrame (frameActivity s p) p f).2 := by
  rw [execForeignFrameRx, if_pos ⟨inRange, isForeign, runs, up⟩]
  exact congrArg Host.Outcome.next (if_pos ⟨awake, may⟩)

end

/-- Settles O57: of a frame's arrival the duplicate rule leaves the effect of its type, and each effect has its cases. -/
theorem jobFramesTakeEffect : Obligations.JobFramesTakeEffect := by
  unfold Obligations.JobFramesTakeEffect
  refine ⟨?data, ?noJobData, ?noJobReady, ?noJobDecision, ?noJobDecReq, ?ack, ?ready, ?follower, ?leader, ?askLeader, ?askMember, ?oos, ?wake,
    ?scrub, ?foreignFrame⟩
  case data =>
    intro s p f note pl j t rx h x valid ofJob runs
    have takes : FlowTakes t p j h.flow := ⟨valid, ofJob, runs⟩
    simp only [exec_dataRx, execDataRx]
    refine ⟨fun config older => ?_, fun config newer => ?_, fun config current beyond => ?_, fun config current inFlow => ?_, fun config => ?_⟩
    · rw [receiveJob_of_stale rx (takeData_of_olderRound takes config older)]
      rfl
    · rw [receiveJob_of_busy rx (takeData_of_newerRound takes config newer)]
      rfl
    · rw [receiveJob_of_busy rx ((takeData_of_currentRound takes config current).trans (if_pos beyond))]
      rfl
    · have piece : takeData note p j h pl t = takePiece t p h pl note :=
        (takeData_of_currentRound takes config current).trans (if_neg (Nat.not_le.2 inFlow))
      refine ⟨fun other => ?_, fun sender full => ?_, fun sender room => ?_⟩
      · rw [receiveJob_of_stale rx (piece.trans (takePiece_of_otherSender other))]
        rfl
      · rw [receiveJob_of_busy rx (piece.trans ((takePiece_of_sender sender).trans (if_pos full)))]
        rfl
      · rw [receiveJob_of_accepted rx (piece.trans ((takePiece_of_sender sender).trans (if_neg (Nat.not_lt.2 room))))]
    · have busy := receiveJob_of_busy rx (takeData_of_otherConfig (note := note) takes config)
      refine ⟨fun flagged => ?_, fun first => ?_⟩
      · rw [busy, if_pos flagged]
        rfl
      · rw [busy, if_neg (ne_true_of_eq_false first)]
        rfl
  case noJobData => exact fun s p f pl t rx note => congrArg Host.Outcome.next (receiveJob_of_unknownJob rx)
  case noJobReady => exact fun s p f pl t rx => congrArg Host.Outcome.next (receiveJob_of_unknownJob rx)
  case noJobDecision => exact fun s p f pl t rx => congrArg Host.Outcome.next (receiveJob_of_unknownJob rx)
  case noJobDecReq => exact fun s p f pl t rx => congrArg Host.Outcome.next (receiveJob_of_unknownJob rx)
  case ack =>
    intro s p f pl t u rx waits st
    rw [exec_ackRx, execAckRx, receivePlain_of_received rx]
    refine ⟨fun busy => ?_, fun taken => ?_⟩
    · rw [takeAck_of_busy waits busy]
    · rw [takeAck_of_taken waits taken]
      rfl
  case ready =>
    intro s p f pl j t rx port leads x
    rw [exec_readyRx, execReadyRx, receiveJob_of_accepted rx (takeReadyFrame_of_leader port leads)]
    refine ⟨fun undecided => ?_, fun known => ?_⟩
    · rw [if_neg (by rw [undecided]; decide)]
    · rw [if_pos known]
  case follower =>
    intro s p f pl j t rx port follows d valid ofJob
    rw [exec_decisionRx, execDecisionRx, receiveJob_of_accepted rx (takeDecision_of_follower port rfl valid ofJob follows)]
    refine ⟨fun missed => ?_, fun due => ?_⟩
    · rw [if_pos missed]
    · rw [if_neg (Nat.not_lt.2 due)]
  case leader =>
    intro s p f pl j t rx port leads d valid ofJob
    rw [exec_decisionRx, execDecisionRx, receiveJob_of_accepted rx (takeDecision_of_leader port rfl valid ofJob leads)]
    refine ⟨fun known => ?_, fun undecided current => ?_⟩
    · rw [if_pos known]
    · rw [if_neg (by rw [undecided]; decide), if_pos current]
  case askLeader =>
    intro s p f pl j t rx port leads g
    rw [exec_decReqRx, execDecReqRx, receiveJob_of_accepted rx (takeDecReq_of_leader port leads)]
    refine ⟨fun d known => ?_, fun undecided => ?_⟩
    · rw [known]
      rfl
    · rw [undecided]
      rfl
  case askMember =>
    intro s p f pl j t rx port follows asked g r
    rw [exec_decReqRx, execDecReqRx, receiveJob_of_accepted rx (takeDecReq_of_member port follows asked)]
    refine ⟨fun recorded => ?_, fun noRecord => ?_⟩
    · rw [recordDecision, if_pos recorded]
      rfl
    · rw [recordDecision, if_neg noRecord]
      rfl
  case oos =>
    intro s p f pl t rx
    rw [exec_oosRx, execOosRx, receivePlain_of_received rx]
    rfl
  case wake =>
    intro s p f pl t rx noScrub
    rw [exec_wakeRx, execWakeRx_of_received rx noScrub]
  case scrub =>
    intro s p f inRange scrubs ofType
    rw [exec_wakeRx, execWakeRx_of_scrubbing inRange scrubs ofType]
  case foreignFrame =>
    intro s p f inRange arrives runs up _ u awake may linkUp isForeign
    rw [exec_foreignFrameRx, execForeignFrameRx_of_foreign inRange arrives runs up awake may, acceptFrame_of_foreign linkUp isForeign]

end Sys2Proof.Machine
end

section
/-! PROOFS. Every command answers a next state, which keeps the queue and the invariant (R333, R337). -/

namespace Sys2Proof.Machine

/-- The answer is a next state: neither a fault nor a refusal. -/
def Answers (r : Res) : Prop := ∃ t, r = .next t

theorem answers_next (t : State) : Answers (.next t) := ⟨t, rfl⟩

theorem answers_ite {c : Prop} [Decidable c] {a b : Res} (ha : Answers a) (hb : Answers b) : Answers (if c then a else b) := by
  split
  · exact ha
  · exact hb

/-- A command under one guard, and under one guard after another. -/
theorem answers_guard {c : Prop} [Decidable c] (t u : State) : Answers (if c then .next t else .next u) :=
  answers_ite (answers_next t) (answers_next u)
theorem answers_guard₂ {c d : Prop} [Decidable c] [Decidable d] (t u v : State) :
    Answers (if c then .next t else if d then .next u else .next v) :=
  answers_ite (answers_next t) (answers_guard u v)
theorem answers_guard₃ {c d e : Prop} [Decidable c] [Decidable d] [Decidable e] (t u v w : State) :
    Answers (if c then .next t else if d then .next u else if e then .next v else .next w) :=
  answers_ite (answers_next t) (answers_guard₂ u v w)

/-! The shared forms of an answer: what a budget gates, a record when its bank is free, the SMBus transactions -/

theorem gate_answers (s : State) (act : Nat) (l : List (Nat × Nat)) (t : State) : Answers (gate s act l (.next t)) := answers_guard _ _

theorem recordWhen_answers (s t : State) (lc raw : Nat) : Answers (recordWhen s t lc raw) := answers_ite (answers_next _) (gate_answers ..)

theorem smbNack_answers (s : State) : Answers (smbNack s) := answers_next _

theorem smbTake_answers (s : State) (code : Nat) {f : State → Res} (hf : ∀ t, Answers (f t)) : Answers (smbTake s code f) :=
  answers_ite (answers_next _) (answers_ite (hf s) (smbNack_answers s))

theorem smbReply_answers (s : State) (code : Nat) (block : Bool) (l : List Byte) : Answers (smbReply s code block l) :=
  smbTake_answers s code fun _ => answers_next _

theorem smbWrite_answers (s : State) (code : Nat) (pec okay : Bool) (f : State → State) : Answers (smbWrite s code pec okay f) :=
  smbTake_answers s code fun t => answers_ite (answers_next _) (answers_ite (answers_next _) (smbNack_answers t))

theorem execAlertClear_answers (pec : Bool) (w : BitVec 16) (s : State) : Answers (execAlertClear pec w s) := by
  unfold execAlertClear
  exact smbWrite_answers ..

theorem execAlertMask_answers (pec : Bool) (w : Option (BitVec 16)) (s : State) : Answers (execAlertMask pec w s) := by
  cases w with
  | none => exact smbReply_answers ..
  | some x => unfold execAlertMask; exact smbWrite_answers ..

theorem execPowerCap_answers (pec : Bool) (w : Option (BitVec 16)) (s : State) : Answers (execPowerCap pec w s) := by
  cases w with
  | none => exact smbReply_answers ..
  | some x => unfold execPowerCap; exact smbWrite_answers ..

/-! Commands that look something up, or depend on more than guards -/

theorem execSleepPointOfNoReturn_answers (s : State) : Answers (execSleepPointOfNoReturn s) := by
  unfold execSleepPointOfNoReturn
  split
  · exact answers_next _
  · refine answers_ite (answers_next _) ?_
    split
    · exact answers_next _
    · exact answers_guard₃ _ _ _ _

theorem execSleepEntryComplete_answers (s : State) : Answers (execSleepEntryComplete s) := by
  unfold execSleepEntryComplete
  split
  · exact answers_next _
  · exact answers_guard _ _

theorem execLongCommandFinal_answers (seq : BitVec 32) (w : WorkResult) (s : State) : Answers (execLongCommandFinal seq w s) := by
  unfold execLongCommandFinal
  split
  · exact answers_next _
  · exact answers_ite (answers_ite (answers_next _) (gate_answers ..)) (answers_next _)

theorem execDbgAccess_answers (dr : BitVec 128) (s : State) : Answers (execDbgAccess dr s) := by
  unfold execDbgAccess
  refine answers_ite (answers_next _) (answers_ite (answers_next _) (answers_ite (answers_next _) (answers_ite (answers_guard _ _) ?_)))
  split
  · exact answers_guard _ _
  · exact answers_next _

theorem execTrvGo_answers (lc q cyc : Nat) (s : State) : Answers (execTrvGo lc q cyc s) := by
  unfold execTrvGo
  split
  · exact answers_next _
  · refine answers_ite (answers_next _) (answers_ite (answers_next _) ?_)
    split <;> exact answers_next _

theorem execTrvWait_answers (lc q cyc : Nat) (s : State) : Answers (execTrvWait lc q cyc s) := by
  unfold execTrvWait
  split
  · exact answers_next _
  · exact answers_guard _ _

theorem execFlgWait_answers (lc q cyc : Nat) (s : State) : Answers (execFlgWait lc q cyc s) := by
  unfold execFlgWait
  extract_lets
  split
  · exact answers_next _
  · exact answers_ite (answers_next _) (answers_ite (answers_next _) (answers_ite (answers_guard _ _) (answers_next _)))

theorem execFlagWaiterRelease_answers (lc q cyc : Nat) (s : State) : Answers (execFlagWaiterRelease lc q cyc s) := by
  unfold execFlagWaiterRelease
  extract_lets
  split
  · exact answers_next _
  · split
    · exact answers_next _
    · exact answers_guard _ _

theorem execCntLoop_answers (lc : Nat) (s : State) : Answers (execCntLoop lc s) := by
  unfold execCntLoop
  split
  · exact answers_next _
  · exact answers_next _

theorem execDatum_answers (lc : Nat) (s : State) : Answers (execDatum lc s) := by
  unfold execDatum
  split
  · exact answers_next _
  · exact answers_ite (answers_next _) (answers_ite (answers_next _) (answers_ite (answers_next _)
      (answers_ite (answers_next _) (answers_ite (recordWhen_answers ..) (answers_ite (recordWhen_answers ..) (answers_next _))))))

theorem execSync_answers (lc : Nat) (s : State) : Answers (execSync lc s) := by
  unfold execSync
  split
  · exact answers_next _
  · exact answers_guard₃ _ _ _ _

theorem execSyncComplete_answers (ordinal : Nat) (cycs : List (Nat × Nat)) (s : State) : Answers (execSyncComplete ordinal cycs s) := by
  unfold execSyncComplete
  refine answers_ite (answers_next _) (answers_ite (answers_next _) ?_)
  split
  · exact answers_next _
  · exact answers_guard _ _

theorem execSyncTimeout_answers (ordinal : Nat) (s : State) : Answers (execSyncTimeout ordinal s) := by
  unfold execSyncTimeout
  split
  · exact answers_next _
  · exact answers_guard _ _

theorem execClusterReplay_answers (lc : Nat) (r : ReplayAt) (s : State) : Answers (execClusterReplay lc r s) := by
  unfold execClusterReplay
  extract_lets
  refine answers_ite (answers_next _) ?_
  extract_lets
  split
  · exact answers_next _
  · exact answers_guard _ _
  · exact answers_guard _ _
  · exact answers_guard₂ _ _ _
  · exact answers_guard _ _
  · refine answers_ite (answers_next _) (answers_ite (answers_next _) (answers_ite (answers_next _) ?_))
    split <;> exact answers_next _
  · exact answers_guard _ _
  all_goals exact answers_next _

theorem execTuraistTimeout_answers (lc e : Nat) (req : TrvReq) (train : TrainResult) (s : State) : Answers (execTuraistTimeout lc e req train s) := by
  unfold execTuraistTimeout
  split
  · split <;> exact answers_next _
  · refine answers_ite (answers_next _) ?_
    split <;> exact answers_next _

theorem execRefusalProbe_answers (lc e : Nat) (accepted : Bool) (refusedAt : Option TrvAcc) (s : State) : Answers (execRefusalProbe lc e accepted refusedAt s) := by
  unfold execRefusalProbe
  refine answers_ite (answers_next _) ?_
  split
  · exact answers_next _
  · refine answers_ite (answers_next _) (answers_ite (answers_next _) ?_)
    dsimp only
    split
    · exact answers_next _
    · exact answers_guard _ _

theorem execThermalThreshold_answers (sensor : Nat) (temp : Int) (s : State) : Answers (execThermalThreshold sensor temp s) := by
  unfold execThermalThreshold
  refine answers_ite (answers_next _) ?_
  split
  · exact answers_next _
  · exact answers_next _

theorem execBankPowerDone_answers (lc mem bank : Nat) (s : State) : Answers (execBankPowerDone lc mem bank s) := by
  unfold execBankPowerDone
  split
  · exact answers_next _
  · exact answers_next _

theorem execSourceReread_answers (port ctx chunk : Nat) (s : State) : Answers (execSourceReread port ctx chunk s) := by
  unfold execSourceReread
  split
  · exact answers_next _
  · exact answers_guard₂ _ _ _

theorem execPieceTransmit_answers (port n : Nat) (differs : Bool) (s : State) : Answers (execPieceTransmit port n differs s) := by
  unfold execPieceTransmit
  extract_lets
  split
  · exact answers_next _
  · exact answers_guard₃ _ _ _ _

theorem execBuddyAckTimeout_answers (s : State) : Answers (execBuddyAckTimeout s) := by
  unfold execBuddyAckTimeout
  split
  · exact answers_next _
  · exact answers_guard _ _

/-- A command answers outright, or in each branch of its guards. -/
theorem exec_answers (c : Instr) (s : State) : Answers (exec c s) := by
  cases c
  case consistEnd | mbCtlEn | mbCtlRst | doorbell | ringConsWrite | ringIrqWrite | hwinOpen | hostWindowAccess | windowAccess | coldBoot |
    modResetAssert | inputUndervoltage | aonPowerLoss | warmRestart | unitRetry | datumRecordAck | flagDeadlock | linkTrain | probeTimeout |
    paceLag | monitorRecovered | thermalCeilingStep | powerSample | timeSampleSet | timetablePeriod | marchArm | flowRoundOpen |
    flowRoundComplete | starterTimeout | oosSend | commitStalled | storeDieLost | cvStart | cvFeed | cvValueWrite | lockstepMismatch |
    startUpStageEnd =>
    exact answers_guard _ _
  case clusterPaused | alertResponse | modResetDeassert | clampEnd | monitorTrip | patrolScrubRead | marchOverdue | inputRestored =>
    exact answers_guard₂ _ _ _
  case wake | smRestart | contribDeadline => exact answers_guard₃ _ _ _ _
  case woke | stageBoundOverrun => exact answers_ite (answers_next _) (answers_guard₃ _ _ _ _)
  case sidingMove | roundCompletionLimit | wearLevelMove | contributionReady => exact answers_ite (gate_answers ..) (answers_next _)
  case ckptHoldRelease => exact gate_answers ..
  case storePatrol | rebuildEnd => exact answers_ite (answers_next _) (gate_answers ..)
  case registerWrite | preservingMarch => exact answers_ite (answers_guard _ _) (answers_guard _ _)
  case eccWriteback => exact answers_ite (answers_guard _ _) (answers_ite (answers_guard _ _) (answers_guard _ _))
  case blockRefresh =>
    exact answers_ite (answers_next _) (answers_ite (answers_ite (answers_next _) (gate_answers ..)) (answers_ite (gate_answers ..) (answers_next _)))
  case grownBad => exact answers_ite (answers_next _) (answers_ite (gate_answers ..) (answers_next _))
  case info | state | temps | power | faults | alertStatus => exact smbReply_answers ..
  case alertClear pec w => exact execAlertClear_answers pec w s
  case alertMask pec w => exact execAlertMask_answers pec w s
  case powerCap pec w => exact execPowerCap_answers pec w s
  case extest | idcode | samplePreload | dbgStatus | dbgHalt => exact answers_guard₂ _ _ _
  case vendorAnalysis | bypass => exact answers_ite (answers_next _) (answers_guard₂ _ _ _)
  case sleepPointOfNoReturn => exact execSleepPointOfNoReturn_answers s
  case sleepEntryComplete => exact execSleepEntryComplete_answers s
  case longCommandFinal seq w => exact execLongCommandFinal_answers seq w s
  case dbgAccess dr => exact execDbgAccess_answers dr s
  case trvGo lc q cyc => exact execTrvGo_answers lc q cyc s
  case trvWait lc q cyc => exact execTrvWait_answers lc q cyc s
  case flgWait lc q cyc => exact execFlgWait_answers lc q cyc s
  case flagWaiterRelease lc q cyc => exact execFlagWaiterRelease_answers lc q cyc s
  case cntLoop lc => exact execCntLoop_answers lc s
  case datum lc => exact execDatum_answers lc s
  case sync lc => exact execSync_answers lc s
  case syncComplete ordinal cycs => exact execSyncComplete_answers ordinal cycs s
  case syncTimeout ordinal => exact execSyncTimeout_answers ordinal s
  case clusterReplay lc r => exact execClusterReplay_answers lc r s
  case turaistTimeout lc e req train => exact execTuraistTimeout_answers lc e req train s
  case refusalProbe lc e accepted refusedAt => exact execRefusalProbe_answers lc e accepted refusedAt s
  case thermalThreshold sensor temp => exact execThermalThreshold_answers sensor temp s
  case bankPowerDone lc mem bank => exact execBankPowerDone_answers lc mem bank s
  case sourceReread port ctx chunk => exact execSourceReread_answers port ctx chunk s
  case pieceTransmit port n differs => exact execPieceTransmit_answers port n differs s
  case buddyAckTimeout => exact execBuddyAckTimeout_answers s
  all_goals exact answers_next _

/-- Every command keeps the invariant and leaves the commands that wait. -/
theorem exec_sound {Q : List Instr} (c : Instr) (s : State) (hs : Sound Q s) : SoundR Q (exec c s) :=
  match c with
  | .getInfo m => execGetInfo_sound m s hs
  | .getState m => execGetState_sound m s hs
  | .getFaultLog m => execGetFaultLog_sound m s hs
  | .assignTenant m => execAssignTenant_sound m s hs
  | .seal m => execSeal_sound m s hs
  | .releaseTenant m => execReleaseTenant_sound m s hs
  | .attest m => execAttest_sound m s hs
  | .keyImport m => execKeyImport_sound m s hs
  | .loadConsist m => execLoadConsist_sound m s hs
  | .patchPrm m => execPatchPrm_sound m s hs
  | .start m => execStart_sound m s hs
  | .pause m => execPause_sound m s hs
  | .clusterPaused lc => execClusterPaused_sound lc s hs
  | .resume m => execResume_sound m s hs
  | .stop m => execStop_sound m s hs
  | .consistEnd => execConsistEnd_sound s hs
  | .setPerf m => execSetPerf_sound m s hs
  | .setWake m => execSetWake_sound m s hs
  | .enterSleep m => execEnterSleep_sound m s hs
  | .sleepPointOfNoReturn => execSleepPointOfNoReturn_sound s hs
  | .sleepEntryComplete => execSleepEntryComplete_sound s hs
  | .getPowerStats m => execGetPowerStats_sound m s hs
  | .budgetSet m => execBudgetSet_sound m s hs
  | .budgetGet m => execBudgetGet_sound m s hs
  | .bankHandover m => execBankHandover_sound m s hs
  | .runMarch m => execRunMarch_sound m s hs
  | .ckptWrite m => execCkptWrite_sound m s hs
  | .ckptRestore m => execCkptRestore_sound m s hs
  | .ckptVerify m => execCkptVerify_sound m s hs
  | .ckptPolicy m => execCkptPolicy_sound m s hs
  | .buddyPair m => execBuddyPair_sound m s hs
  | .fabricConfig m => execFabricConfig_sound m s hs
  | .ringJoin m => execRingJoin_sound m s hs
  | .ringLeaveRemove m => execRingLeaveRemove_sound m s hs
  | .ringLeaveReadmit m => execRingLeaveReadmit_sound m s hs
  | .ringLeaveLeave m => execRingLeaveLeave_sound m s hs
  | .flowOpen m => execFlowOpen_sound m s hs
  | .debugOpen m => execDebugOpen_sound m s hs
  | .debugClose m => execDebugClose_sound m s hs
  | .fwUpdate m => execFwUpdate_sound m s hs
  | .longCommandFinal seq w => execLongCommandFinal_sound seq w s hs
  | .mbCtlEn en => execMbCtlEn_sound en s hs
  | .mbCtlRst => execMbCtlRst_sound s hs
  | .doorbell ring prod => execDoorbell_sound ring prod s hs
  | .ringConsWrite ring cons => execRingConsWrite_sound ring cons s hs
  | .ringIrqWrite ring => execRingIrqWrite_sound ring s hs
  | .hwinOpen n rd wr => execHwinOpen_sound n rd wr s hs
  | .registerWrite host addr value => execRegisterWrite_sound host addr value s hs
  | .hostWindowAccess off acc => execHostWindowAccess_sound off acc s hs
  | .windowAccess lc off tag acc => execWindowAccess_sound lc off tag acc s hs
  | .info => execInfo_sound s hs
  | .state => execState_sound s hs
  | .temps => execTemps_sound s hs
  | .power => execPower_sound s hs
  | .faults => execFaults_sound s hs
  | .alertStatus => execAlertStatus_sound s hs
  | .alertClear pec w => execAlertClear_sound pec w s hs
  | .alertMask pec w => execAlertMask_sound pec w s hs
  | .powerCap pec w => execPowerCap_sound pec w s hs
  | .alertResponse => execAlertResponse_sound s hs
  | .alertPulseEnd => execAlertPulseEnd_sound s hs
  | .extest => execExtest_sound s hs
  | .idcode => execIdcode_sound s hs
  | .samplePreload preload => execSamplePreload_sound preload s hs
  | .dbgStatus => execDbgStatus_sound s hs
  | .dbgAccess dr => execDbgAccess_sound dr s hs
  | .dbgHalt => execDbgHalt_sound s hs
  | .vendorAnalysis op => execVendorAnalysis_sound op s hs
  | .bypass op => execBypass_sound op s hs
  | .coldBoot straps => execColdBoot_sound straps s hs
  | .modResetAssert => execModResetAssert_sound s hs
  | .modResetDeassert lowCycles straps => execModResetDeassert_sound lowCycles straps s hs
  | .inputUndervoltage => execInputUndervoltage_sound s hs
  | .inputOvervoltage => execInputOvervoltage_sound s hs
  | .aonPowerLoss => execAonPowerLoss_sound s hs
  | .wake source port rising => execWake_sound source port rising s hs
  | .whistle port => execWhistle_sound port s hs
  | .warmRestart => execWarmRestart_sound s hs
  | .woke w => execWoke_sound w s hs
  | .stageBoundOverrun stage unitsOnly => execStageBoundOverrun_sound stage unitsOnly s hs
  | .unitRetry unit trained => execUnitRetry_sound unit trained s hs
  | .opxPass lc p => execOpxPass_sound lc p s hs
  | .opxDrain lc cyc => execOpxDrain_sound lc cyc s hs
  | .opxLoad lc cyc => execOpxLoad_sound lc cyc s hs
  | .opxLoadImage lc cyc => execOpxLoadImage_sound lc cyc s hs
  | .opxSave lc cyc => execOpxSave_sound lc cyc s hs
  | .opxSurvey lc cyc => execOpxSurvey_sound lc cyc s hs
  | .vecFma lc cyc => execVecFma_sound lc cyc s hs
  | .vecFn lc cyc => execVecFn_sound lc cyc s hs
  | .vecDfn lc cyc => execVecDfn_sound lc cyc s hs
  | .vecCvt lc cyc => execVecCvt_sound lc cyc s hs
  | .vecOpt lc cyc => execVecOpt_sound lc cyc s hs
  | .vecRedCombine lc cyc => execVecRedCombine_sound lc cyc s hs
  | .vecRedBlock lc cyc => execVecRedBlock_sound lc cyc s hs
  | .rowNormF lc cyc => execRowNormF_sound lc cyc s hs
  | .rowNormB lc cyc => execRowNormB_sound lc cyc s hs
  | .rowSmaxF lc cyc => execRowSmaxF_sound lc cyc s hs
  | .rowSmaxB lc cyc => execRowSmaxB_sound lc cyc s hs
  | .rowTopk lc cyc => execRowTopk_sound lc cyc s hs
  | .trvGo lc q cyc => execTrvGo_sound lc q cyc s hs
  | .trvWait lc q cyc => execTrvWait_sound lc q cyc s hs
  | .flgSet lc q cyc => execFlgSet_sound lc q cyc s hs
  | .flgWait lc q cyc => execFlgWait_sound lc q cyc s hs
  | .flgClr lc q cyc => execFlgClr_sound lc q cyc s hs
  | .flagWaiterRelease lc q cyc => execFlagWaiterRelease_sound lc q cyc s hs
  | .cntSet lc => execCntSet_sound lc s hs
  | .cntAdd lc => execCntAdd_sound lc s hs
  | .cntLoop lc => execCntLoop_sound lc s hs
  | .cmpSet lc => execCmpSet_sound lc s hs
  | .prmMov lc => execPrmMov_sound lc s hs
  | .prmAdd lc => execPrmAdd_sound lc s hs
  | .datum lc => execDatum_sound lc s hs
  | .datumRecordAck lc cyc march => execDatumRecordAck_sound lc cyc march s hs
  | .lossPost lc q cyc => execLossPost_sound lc q cyc s hs
  | .verHold lc q cyc => execVerHold_sound lc q cyc s hs
  | .verDrop lc q cyc => execVerDrop_sound lc q cyc s hs
  | .commitReady lc q cyc => execCommitReady_sound lc q cyc s hs
  | .sync lc => execSync_sound lc s hs
  | .syncComplete ordinal cycs => execSyncComplete_sound ordinal cycs s hs
  | .syncTimeout ordinal => execSyncTimeout_sound ordinal s hs
  | .flagDeadlock sec group => execFlagDeadlock_sound sec group s hs
  | .clusterReplay lc r => execClusterReplay_sound lc r s hs
  | .conveyorDeferredStart lc => execConveyorDeferredStart_sound lc s hs
  | .conveyorComplete lc => execConveyorComplete_sound lc s hs
  | .autoSurvey lc bank => execAutoSurvey_sound lc bank s hs
  | .arrayIdle x => execArrayIdle_sound x s hs
  | .currentClamp x => execCurrentClamp_sound x s hs
  | .clampEnd lc x => execClampEnd_sound lc x s hs
  | .traverseComplete lc e => execTraverseComplete_sound lc e s hs
  | .translationRefused lc e req => execTranslationRefused_sound lc e req s hs
  | .turaistTimeout lc e req train => execTuraistTimeout_sound lc e req train s hs
  | .linkTrain train => execLinkTrain_sound train s hs
  | .refusalProbe lc e accepted refusedAt => execRefusalProbe_sound lc e accepted refusedAt s hs
  | .probeTimeout lc e => execProbeTimeout_sound lc e s hs
  | .sidingMove lc cyc marchFail => execSidingMove_sound lc cyc marchFail s hs
  | .paceLag lc => execPaceLag_sound lc s hs
  | .monitorTrip sec kind value => execMonitorTrip_sound sec kind value s hs
  | .monitorRecovered sec => execMonitorRecovered_sound sec s hs
  | .smRestart cause ms image => execSmRestart_sound cause ms image s hs
  | .thermalThreshold sensor temp => execThermalThreshold_sound sensor temp s hs
  | .thermalCeilingStep sensor => execThermalCeilingStep_sound sensor s hs
  | .powerSample r => execPowerSample_sound r s hs
  | .timeSampleSet => execTimeSampleSet_sound s hs
  | .timetablePeriod kind inst => execTimetablePeriod_sound kind inst s hs
  | .patrolScrubRead stk => execPatrolScrubRead_sound stk s hs
  | .eccWriteback lc mem word => execEccWriteback_sound lc mem word s hs
  | .preservingMarch lc mem word fault => execPreservingMarch_sound lc mem word fault s hs
  | .marchArm => execMarchArm_sound s hs
  | .marchOverdue lc march => execMarchOverdue_sound lc march s hs
  | .tabletWrite lc mem bank value => execTabletWrite_sound lc mem bank value s hs
  | .bankPowerDone lc mem bank => execBankPowerDone_sound lc mem bank s hs
  | .dataRx port f => execDataRx_sound port f s hs
  | .ackRx port f => execAckRx_sound port f s hs
  | .readyRx port f => execReadyRx_sound port f s hs
  | .decisionRx port f => execDecisionRx_sound port f s hs
  | .decReqRx port f => execDecReqRx_sound port f s hs
  | .oosRx port f => execOosRx_sound port f s hs
  | .wakeRx port f => execWakeRx_sound port f s hs
  | .foreignFrameRx port f => execForeignFrameRx_sound port f s hs
  | .buddyPairRx port f => execBuddyPairRx_sound port f s hs
  | .buddyDataRx port f => execBuddyDataRx_sound port f s hs
  | .buddyReadReqRx port f => execBuddyReadReqRx_sound port f s hs
  | .buddyReadDataRx port f => execBuddyReadDataRx_sound port f s hs
  | .buddySlotReqRx port f => execBuddySlotReqRx_sound port f s hs
  | .buddySlotDataRx port f => execBuddySlotDataRx_sound port f s hs
  | .retransmitTimeout port n => execRetransmitTimeout_sound port n s hs
  | .busyRetry port n => execBusyRetry_sound port n s hs
  | .peerAbsent port jslot midx => execPeerAbsent_sound port jslot midx s hs
  | .flowRoundOpen port ctx => execFlowRoundOpen_sound port ctx s hs
  | .flowRoundComplete port ctx => execFlowRoundComplete_sound port ctx s hs
  | .contribDeadline port ctx chunk => execContribDeadline_sound port ctx chunk s hs
  | .starterTimeout port ctx chunk => execStarterTimeout_sound port ctx chunk s hs
  | .sourceReread port ctx chunk => execSourceReread_sound port ctx chunk s hs
  | .pieceTransmit port n differs => execPieceTransmit_sound port n differs s hs
  | .oosSend port => execOosSend_sound port s hs
  | .commitStalled group => execCommitStalled_sound group s hs
  | .roundCompletionLimit port ctx => execRoundCompletionLimit_sound port ctx s hs
  | .ckptHoldRelease n => execCkptHoldRelease_sound n s hs
  | .buddyAckTimeout => execBuddyAckTimeout_sound s hs
  | .storePatrol block step overHalf => execStorePatrol_sound block step overHalf s hs
  | .blockRefresh block target => execBlockRefresh_sound block target s hs
  | .wearLevelMove block target => execWearLevelMove_sound block target s hs
  | .grownBad block target => execGrownBad_sound block target s hs
  | .storeDieLost channel die => execStoreDieLost_sound channel die s hs
  | .cvStart u cfg => execCvStart_sound u cfg s hs
  | .cvFeed u bytes => execCvFeed_sound u bytes s hs
  | .cvValueWrite u value => execCvValueWrite_sound u value s hs
  | .lockstepMismatch unit => execLockstepMismatch_sound unit s hs
  | .inputRestored straps => execInputRestored_sound straps s hs
  | .startUpStageEnd stage r => execStartUpStageEnd_sound stage r s hs
  | .contributionReady port ctx chunk => execContributionReady_sound port ctx chunk s hs
  | .rebuildEnd => execRebuildEnd_sound s hs

/-- Settles O5: every command answers a next state, and `Sound`, which every command keeps, is the invariant together with the queue. -/
theorem everyCommandCompletesAndLeavesQueue : Obligations.EveryCommandCompletesAndLeavesQueue := by
  unfold Obligations.EveryCommandCompletesAndLeavesQueue
  intro c s inv
  obtain ⟨t, answer⟩ := exec_answers c s
  have sound : SoundR s.pending (exec c s) := exec_sound c s (sound_iff.2 ⟨rfl, inv⟩)
  rw [answer] at sound
  exact ⟨t, answer, sound_iff.1 sound⟩

end Sys2Proof.Machine
end

section
/-! PROOFS. Taking a message and judging its header: steps 1 to 5 of R337, branch by branch. -/

namespace Sys2Proof.Machine

/-! A charge of the mailbox core changes the timetable alone -/

theorem ttCharge_eq (s : State) (k i a u : Nat) : ttCharge s k i a u = { s with tt := (ttCharge s k i a u).tt } := by
  unfold ttCharge
  split <;> rfl

theorem chargeCore_eq (s : State) (n : Nat) : chargeCore s n = { s with tt := (chargeCore s n).tt } := ttCharge_eq ..

section
variable (s : State) (m : Msg)

/-- The message is taken: its entry is consumed, its take is counted and charged, and the place of the log is kept (R337, R338, R340). -/
def consumed : State :=
  let x := modRing (noteTake (chargeCore s 64) m.ring) m.ring (fun r => { r with cons := (r.cons + 1) % 512 })
  { x with mb := { x.mb with takeAt := s.flog.next } }

/-- Its ALIVE is accepted: the ring expects the next one and keeps the opcode and SEQ (R336). -/
def sequenced : State :=
  modRing (consumed s m) m.ring (fun r => { r with e := (mAlive m + 1) % 256, first := false, last := some (mOpcode m, mSeq m) })

/-- Does the CRC-32C of the message differ from that of its first 124 bytes? -/
def crcWrong : Bool := bits m.raw 992 32 != crc32c (leBytes 124 m.raw.toNat)

/-- Does the message carry another ring number than that of the ring that it came by? -/
def ringWrong : Bool := mRing m != m.ring

/-- Is its ALIVE another than the one that its ring expects (R336)? -/
def aliveWrong : Bool := !(ringOf s m.ring).first && mAlive m != (ringOf s m.ring).e

/-- Does it repeat the last message of its ring, one ALIVE behind (R336)? -/
def repeatsLast : Bool :=
  aliveWrong s m && mAlive m == ((ringOf s m.ring).e + 255) % 256 && (ringOf s m.ring).last == some (mOpcode m, mSeq m)

/-- Has it waited too long on a ring other than 0 (R338)? -/
def tooOld : Bool := m.ring != 0 && !(isInfoOp (mOpcode m)) && decide (1000 < m.ageUs)

/-- Steps 4 and 5 of R337 in state t: the opcode, the header's reserved bits, the length and the module's state. -/
def judgeOpcode (t : State) : Sum State State :=
  match bodyMax (mOpcode m) with
  | none => .inl (refuse t m stUNSUPP 0 0)
  | some n =>
    if bits m.raw 28 4 ≠ 0 ∨ bits m.raw 72 8 ≠ 0 ∨ n < mLen m then .inl (badArg t m (inBody 0))
    else if !(legal t (mOpcode m)) then .inl (stateRefused t m)
    else .inr t

theorem judge_eq : judge s m =
    if (crcWrong m || ringWrong m) = true then .inl (checkError (consumed s m) m (b2n (crcWrong m) + 2 * b2n (ringWrong m)))
    else if repeatsLast s m = true then
      .inl { consumed s m with mb := { (consumed s m).mb with repeatN := satAdd 16 (consumed s m).mb.repeatN 1 } }
    else if aliveWrong s m = true then
      .inl (refuse (consumed s m) m stSEQ 2 (packFields [((ringOf s m.ring).e, 8), (mAlive m, 8)]))
    else if tooOld m = true then .inl (busy (sequenced s m) m 0)
    else judgeOpcode m (sequenced s m) := by
  have place : (modRing (noteTake (chargeCore s 64) m.ring) m.ring (fun r => { r with cons := (r.cons + 1) % 512 })).flog.next = s.flog.next := by
    rw [chargeCore_eq]
    rfl
  have again : repeatsLast s m = (!(ringOf s m.ring).first && mAlive m == ((ringOf s m.ring).e + 255) % 256 &&
      mAlive m != (ringOf s m.ring).e && (ringOf s m.ring).last == some (mOpcode m, mSeq m)) := by
    simp only [repeatsLast, aliveWrong]
    ac_rfl
  have old : tooOld m = true ↔ m.ring ≠ 0 ∧ (!(isInfoOp (mOpcode m))) = true ∧ 1000 < m.ageUs := by
    simp [tooOld, and_assoc]
  simp only [judge, place, old, again]
  rfl

variable {s m}

theorem legal_sequenced (op : Nat) : legal (sequenced s m) op = legal s op := by
  rw [sequenced, consumed, chargeCore_eq]
  rfl

/-! Step by step, for a message that the earlier steps let through -/

theorem judge_of_wrongCheck (wrong : (crcWrong m || ringWrong m) = true) :
    judge s m = .inl (checkError (consumed s m) m (b2n (crcWrong m) + 2 * b2n (ringWrong m))) := by
  rw [judge_eq, if_pos wrong]

theorem judge_of_repeat (right : (crcWrong m || ringWrong m) = false) (again : repeatsLast s m = true) :
    judge s m = .inl { consumed s m with mb := { (consumed s m).mb with repeatN := satAdd 16 (consumed s m).mb.repeatN 1 } } := by
  rw [judge_eq, if_neg (by simp [right]), if_pos again]

theorem judge_of_aliveWrong (right : (crcWrong m || ringWrong m) = false) (fresh : repeatsLast s m = false) (wrong : aliveWrong s m = true) :
    judge s m = .inl (refuse (consumed s m) m stSEQ 2 (packFields [((ringOf s m.ring).e, 8), (mAlive m, 8)])) := by
  rw [judge_eq, if_neg (by simp [right]), if_neg (by simp [fresh]), if_pos wrong]

theorem judge_of_aliveRight (right : (crcWrong m || ringWrong m) = false) (alive : aliveWrong s m = false) :
    judge s m = if tooOld m = true then .inl (busy (sequenced s m) m 0) else judgeOpcode m (sequenced s m) := by
  have fresh : repeatsLast s m = false := by simp [repeatsLast, alive]
  rw [judge_eq, if_neg (by simp [right]), if_neg (by simp [fresh]), if_neg (by simp [alive])]

theorem judge_of_tooOld (right : (crcWrong m || ringWrong m) = false) (alive : aliveWrong s m = false) (old : tooOld m = true) :
    judge s m = .inl (busy (sequenced s m) m 0) := by
  rw [judge_of_aliveRight right alive, if_pos old]

theorem judge_of_inTime (right : (crcWrong m || ringWrong m) = false) (alive : aliveWrong s m = false) (inTime : tooOld m = false) :
    judge s m = judgeOpcode m (sequenced s m) := by
  rw [judge_of_aliveRight right alive, if_neg (by simp [inTime])]

variable {t : State} {n : Nat}

theorem judgeOpcode_of_unknown (unknown : bodyMax (mOpcode m) = none) : judgeOpcode m t = .inl (refuse t m stUNSUPP 0 0) := by
  simp only [judgeOpcode, unknown]

theorem judgeOpcode_of_badHeader (known : bodyMax (mOpcode m) = some n) (bad : bits m.raw 28 4 ≠ 0 ∨ bits m.raw 72 8 ≠ 0 ∨ n < mLen m) :
    judgeOpcode m t = .inl (badArg t m (inBody 0)) := by
  simp only [judgeOpcode, known, if_pos bad]

theorem judgeOpcode_of_goodHeader (known : bodyMax (mOpcode m) = some n) (reserved : bits m.raw 28 4 = 0) (reserved' : bits m.raw 72 8 = 0)
    (fits : mLen m ≤ n) : judgeOpcode m t = if !(legal t (mOpcode m)) then .inl (stateRefused t m) else .inr t := by
  have good : ¬ (bits m.raw 28 4 ≠ 0 ∨ bits m.raw 72 8 ≠ 0 ∨ n < mLen m) := by omega
  simp only [judgeOpcode, known, if_neg good]

end

/-- Settles O7: none of the checks of steps 1 to 5 fails. -/
theorem messageStepsAccept : Obligations.MessageStepsAccept := by
  unfold Obligations.MessageStepsAccept
  intro s m n crc ring alive inTime known fits reserved reserved' isLegal
  have right : (crcWrong m || ringWrong m) = false := by simp [crcWrong, ringWrong, crc, ring]
  have aliveRight : aliveWrong s m = false := by
    rcases alive with first | expected
    · simp [aliveWrong, first]
    · simp [aliveWrong, expected]
  have notOld : tooOld m = false := by
    rcases inTime with ring0 | info | young
    · simp [tooOld, ring0]
    · simp [tooOld, info]
    · simp [tooOld, young]
  rw [judge_of_inTime right aliveRight notOld, judgeOpcode_of_goodHeader known reserved reserved' fits, legal_sequenced, isLegal]
  rfl

/-- Settles O8: each refusal is the branch of the first check that fails. -/
theorem messageStepsRefuse : Obligations.MessageStepsRefuse := by
  unfold Obligations.MessageStepsRefuse
  intro s m bad wrong g seqBad again stale x s1 s2
  refine ⟨?check, ?again, ?alive, ?stale, ?unknown, ?header, ?illegal⟩
  case check => exact judge_of_wrongCheck
  case again => exact judge_of_repeat
  case alive => exact judge_of_aliveWrong
  case stale => exact judge_of_tooOld
  case unknown =>
    intro right alive inTime unknown
    rw [judge_of_inTime right alive inTime, judgeOpcode_of_unknown unknown]
    rfl
  case header =>
    intro n right alive inTime known fields
    have badHeader : bits m.raw 28 4 ≠ 0 ∨ bits m.raw 72 8 ≠ 0 ∨ n < mLen m := fields
    rw [judge_of_inTime right alive inTime, judgeOpcode_of_badHeader known badHeader]
    rfl
  case illegal =>
    intro n right alive inTime known reserved reserved' fits isIllegal
    rw [judge_of_inTime right alive inTime, judgeOpcode_of_goodHeader known reserved reserved' fits, legal_sequenced, isIllegal]
    rfl

end Sys2Proof.Machine
end

section
/-! PROOFS. What posting on rings 4 and 5 changes (R333, R334, R351), and how a long command is accepted (R339). -/

namespace Sys2Proof.Machine

/-! `SameButPostings` is kept by every posting, and so by any number of them -/

theorem SameButPostings.refl (s : State) : SameButPostings s s := ⟨rfl, fun _ _ _ => rfl⟩

theorem SameButPostings.trans {s t u : State} (h : SameButPostings s t) (h' : SameButPostings t u) : SameButPostings s u := by
  obtain ⟨same, rings⟩ := h
  obtain ⟨same', rings'⟩ := h'
  exact ⟨same'.trans (by rw [same]), fun r not4 not5 => (rings' r not4 not5).trans (rings r not4 not5)⟩

/-- A change of the queues that wait for a posting. -/
theorem sameButPostings_queues (s : State) (evq : List Event) (evNo lost : Nat) (shorts : List ShortDone) (owed : List OwedFinal) :
    SameButPostings s { s with mb := { s.mb with evq := evq, evNo := evNo, lostSince := lost, shorts := shorts, owed := owed } } :=
  ⟨rfl, fun _ _ _ => rfl⟩

/-- A ring with one more posting, of this ALIVE. -/
def posted (alive : Nat) (g : Ring) : Ring := { g with prod := (g.prod + 1) % 512, e := alive, first := false }

theorem posted_ne_reset (alive : Nat) (g : Ring) : posted alive g ≠ .reset :=
  fun same => Bool.false_ne_true (congrArg Ring.first same)

theorem postRing_eq_modRing (s : State) (r op fin seq st len body : Nat) :
    ∃ free comp alive, postRing s r op fin seq st len body = modRing { s with free := free, comp := comp } r (posted alive) := by
  unfold postRing
  cases first : (ringOf s r).first <;> simp only [first] <;> exact ⟨_, _, _, rfl⟩

theorem postRing_sameButPostings (s : State) {r : Nat} (posts : r = 4 ∨ r = 5) (op fin seq st len body : Nat) :
    SameButPostings s (postRing s r op fin seq st len body) := by
  obtain ⟨free, comp, alive, moved⟩ := postRing_eq_modRing s r op fin seq st len body
  rw [moved]
  refine ⟨rfl, fun q not4 not5 => ?_⟩
  have other : q ≠ r := by omega
  rw [ringOf_modRing _ _ _ (posted_ne_reset alive _), if_neg other]
  rfl

theorem postEvent_sameButPostings (s : State) (ev : Event) (rest : List Event) : SameButPostings s (postEvent s ev rest) :=
  (postRing_sameButPostings s (.inr rfl) ..).trans (sameButPostings_queues _ _ _ _ _ _)

theorem flushEventsN_sameButPostings (n : Nat) (s : State) : SameButPostings s (flushEventsN n s) := by
  induction n generalizing s with
  | zero => exact .refl s
  | succ n ih =>
    unfold flushEventsN
    split
    · split
      · exact .refl s
      · exact (postEvent_sameButPostings ..).trans (ih _)
    · exact .refl s

theorem postShortsN_sameButPostings (l : List ShortDone) (s : State) : SameButPostings s (postShortsN l s) := by
  induction l generalizing s with
  | nil => exact sameButPostings_queues s _ _ _ [] _
  | cons x r ih =>
    unfold postShortsN
    split
    · exact sameButPostings_queues s _ _ _ (x :: r) _
    · split
      · exact sameButPostings_queues s _ _ _ (x :: r) _
      · exact (postRing_sameButPostings s (.inl rfl) ..).trans (ih _)

theorem postFinals_sameButPostings (l : List OwedFinal) (s : State) : SameButPostings s (l.foldl postFinal s) := by
  induction l generalizing s with
  | nil => exact .refl s
  | cons o l ih => exact (postRing_sameButPostings s (.inl rfl) ..).trans (ih _)

theorem postOwed_sameButPostings (s : State) : SameButPostings s (postOwed s) := by
  unfold postOwed
  split
  · exact .refl s
  · exact (sameButPostings_queues s _ _ _ _ _).trans (postFinals_sameButPostings ..)

theorem flushEvents_sameButPostings (s : State) : SameButPostings s (flushEvents s) :=
  ((flushEventsN_sameButPostings ..).trans (postShortsN_sameButPostings ..)).trans (postOwed_sameButPostings _)

theorem complete_sameButPostings (s : State) (m : Msg) (fin : Bool) (st len body : Nat) :
    SameButPostings s (complete s m fin st len body) :=
  (sameButPostings_queues s _ _ _ _ _).trans (postShortsN_sameButPostings ..)

/-- Settles O10: completions and events are postings on rings 4 and 5 and changes of the queues that wait for them. -/
theorem postingsChangeNothingElse : Obligations.PostingsChangeNothingElse := by
  unfold Obligations.PostingsChangeNothingElse
  exact fun s m fin st len body =>
    ⟨complete_sameButPostings s m fin st len body, complete_sameButPostings s m true stOK len body, flushEvents_sameButPostings s⟩

/-! Long commands -/

theorem complete_flog (s : State) (m : Msg) (fin : Bool) (st len body : Nat) : (complete s m fin st len body).flog = s.flog := by
  rw [(complete_sameButPostings s m fin st len body).1]

theorem freeIn_le {lo hi : Nat} (n : Nat) (h : lo ≤ hi) : Config.freeIn lo hi n ≤ hi := by
  have := Nat.mod_lt (Config.free n) (show 0 < hi - lo + 1 by omega)
  unfold Config.freeIn
  omega

theorem accept_of_full {s : State} (full : 16 ≤ longN s) (m : Msg) (aux : Nat) (f : State → State) : accept s m aux f = busy s m 2 :=
  if_pos full

/-- The interim completion leaves the log and the outstanding commands as they were. -/
theorem accept_of_room {s : State} (room : longN s < 16) (m : Msg) (aux : Nat) (f : State → State) :
    let x := complete { s with free := s.free + 1 } m false stACCEPTED 4 (Config.freeIn 0 (2 ^ 32 - 1) s.free)
    accept s m aux f = f { x with mb := { x.mb with long := s.mb.long ++ [⟨m, aux, s.flog.next⟩] } } := by
  intro x
  have long : x.mb.long = s.mb.long := complete_long ..
  have log : x.flog = s.flog := complete_flog ..
  rw [← long, ← log]
  exact if_neg (Nat.not_le.2 room)

/-- Settles O11: the two branches of `accept`. -/
theorem longCommandAccepted : Obligations.LongCommandAccepted := by
  unfold Obligations.LongCommandAccepted
  intro s m aux
  constructor
  · intro room
    refine ⟨_, Config.freeIn 0 (2 ^ 32 - 1) s.free, ?_, rfl, accept_of_room room m aux (fun s => s)⟩
    have := freeIn_le s.free (Nat.zero_le (2 ^ 32 - 1))
    omega
  · exact fun full f => accept_of_full full m aux f

end Sys2Proof.Machine
end

section
/-! PROOFS. The fields of the body of GET_STATE (Table 12-8), each read back from where it is packed. -/

namespace Sys2Proof.Machine

theorem SecState.code_lt (x : SecState) : x.code < 4 := by cases x <;> decide

/-- Settles O13: a field is read past the fields packed before it. -/
theorem getStateBodyFields : Obligations.GetStateBodyFields := by
  unfold Obligations.GetStateBodyFields
  intro s
  have sec : s.sec.code % 4 = s.sec.code := Nat.mod_eq_of_lt s.sec.code_lt
  simp [stateBody, natBits_packFields_tail, sec]

end Sys2Proof.Machine
end

section
/-! PROOFS. The step at the front of the queue, and the report commands (R346, R347, R361, R424, R437). -/

namespace Sys2Proof.Machine

/-- Settles O1: `step` takes the front of the queue. -/
theorem stepRunsFrontCommand : Obligations.StepRunsFrontCommand := fun _ _ _ => rfl

theorem exec_getInfo (m : Msg) (s : State) : exec (.getInfo m) s = execGetInfo m s := rfl
theorem exec_getState (m : Msg) (s : State) : exec (.getState m) s = execGetState m s := rfl
theorem exec_getFaultLog (m : Msg) (s : State) : exec (.getFaultLog m) s = execGetFaultLog m s := rfl
theorem exec_getPowerStats (m : Msg) (s : State) : exec (.getPowerStats m) s = execGetPowerStats m s := rfl
theorem exec_budgetGet (m : Msg) (s : State) : exec (.budgetGet m) s = execBudgetGet m s := rfl

section
variable {s t : State} {m : Msg}

/-- The words of hub SRAM of an entry are read under their codes (R233). -/
def readEntries (t : State) (first n : Nat) : State := (rangeFrom first n).foldl (fun u i => hubTouch u (32768 + i % 16384)) t

/-- The index after the last entry delivered; of a state that has read none the log still stands. -/
theorem execGetFaultLog_of_good (taken : TakenArgs s m 0x0003 [(0, 48), (64, 48)] t) (several : 1 ≤ mb m 32 16) (most : mb m 32 16 ≤ 4096)
    (inRange : mb m 64 48 + 64 * mb m 32 16 ≤ 2 ^ 47) :
    let es := logSlice t.flog (mb m 0 32) (mb m 32 16)
    let first := max (mb m 0 32) (t.flog.next - t.flog.entries.length)
    let u := readEntries t first es.length
    execGetFaultLog m s = .next (flushEvents (ok
      { chargeCore u (64 * es.length) with comp := compWrite u.comp (mb m 64 48) (es.flatMap entryBytes) false } m 8
      (packFields [(es.length, 32), (if es.isEmpty then t.flog.next else first + es.length, 32)]))) := by
  intro es first u
  have count : ¬ (mb m 32 16 = 0 ∨ 4096 < mb m 32 16) := by omega
  have fits : ¬ 2 ^ 47 < mb m 64 48 + 64 * mb m 32 16 := by omega
  have next : (if es.isEmpty then (chargeCore u (64 * es.length)).flog.next else first + es.length) =
      if es.isEmpty then t.flog.next else first + es.length := by
    split
    next noneRead =>
      have unread : u = t := by
        show readEntries t first es.length = t
        rw [List.isEmpty_iff.1 noneRead]
        rfl
      rw [chargeCore_eq, unread]
    · rfl
  rw [execGetFaultLog, takeArgs_taken _ taken]
  simp only [if_neg count, if_neg fits]
  rw [← next]
  rfl

theorem execBudgetGet_of_good (taken : TakenArgs s m 0x0071 [(0, 13)] t) (kind : mb m 0 4 ≤ 5) (inst : mb m 4 9 < ttInstances (mb m 0 4)) :
    execBudgetGet m s = .next (flushEvents (ok t m 54 (packFields (activities.map (fun a => (ttBudget t (mb m 0 4) a, 32)) ++
      activities.map (fun a => ((ttCell t (mb m 0 4) (mb m 4 9) a).waitN, 16)))))) := by
  have named : ¬ (5 < mb m 0 4 ∨ ttInstances (mb m 0 4) ≤ mb m 4 9) := by omega
  rw [execBudgetGet, takeArgs_taken _ taken]
  simp only [if_neg named]

end

/-- Settles O12: each command is taken, its arguments pass their checks, and its report is the stated body. -/
theorem reportCommandsComplete : Obligations.ReportCommandsComplete := by
  unfold Obligations.ReportCommandsComplete
  refine ⟨?info, ?state, ?faultLog, ?powerStats, ?budget⟩
  case info =>
    intro s m t taken
    rw [exec_getInfo, execGetInfo, takeArgs_taken _ taken]
  case state =>
    intro s m t taken
    rw [exec_getState, execGetState, takeArgs_taken _ taken]
  case faultLog =>
    intro s m t taken several most inRange
    rw [exec_getFaultLog]
    exact execGetFaultLog_of_good taken several most inRange
  case powerStats =>
    intro s m t taken
    rw [exec_getPowerStats, execGetPowerStats, takeArgs_taken _ taken]
  case budget =>
    intro s m t taken kind inst
    rw [exec_budgetGet]
    exact execBudgetGet_of_good taken kind inst

end Sys2Proof.Machine
end

section
/-! PROOFS. The long commands up to ACCEPTED (R339): taken, the checks of their arguments passed, the resources that they need free. -/

namespace Sys2Proof.Machine

theorem exec_loadConsist (m : Msg) (s : State) : exec (.loadConsist m) s = execLoadConsist m s := rfl
theorem exec_attest (m : Msg) (s : State) : exec (.attest m) s = execAttest m s := rfl
theorem exec_runMarch (m : Msg) (s : State) : exec (.runMarch m) s = execRunMarch m s := rfl
theorem exec_ckptWrite (m : Msg) (s : State) : exec (.ckptWrite m) s = execCkptWrite m s := rfl
theorem exec_ckptRestore (m : Msg) (s : State) : exec (.ckptRestore m) s = execCkptRestore m s := rfl
theorem exec_ckptVerify (m : Msg) (s : State) : exec (.ckptVerify m) s = execCkptVerify m s := rfl
theorem exec_buddyPair (m : Msg) (s : State) : exec (.buddyPair m) s = execBuddyPair m s := rfl
theorem exec_releaseTenant (m : Msg) (s : State) : exec (.releaseTenant m) s = execReleaseTenant m s := rfl
theorem exec_keyImport (m : Msg) (s : State) : exec (.keyImport m) s = execKeyImport m s := rfl
theorem exec_fwUpdate (m : Msg) (s : State) : exec (.fwUpdate m) s = execFwUpdate m s := rfl
theorem exec_ringJoin (m : Msg) (s : State) : exec (.ringJoin m) s = execRingJoin m s := rfl
theorem exec_ringLeaveRemove (m : Msg) (s : State) : exec (.ringLeaveRemove m) s = execRingLeaveRemove m s := rfl
theorem exec_ringLeaveReadmit (m : Msg) (s : State) : exec (.ringLeaveReadmit m) s = execRingLeaveReadmit m s := rfl
theorem exec_ringLeaveLeave (m : Msg) (s : State) : exec (.ringLeaveLeave m) s = execRingLeaveLeave m s := rfl

section
variable {s t : State} {m : Msg} {l : List Byte}

/-- Every bank that RUN_MARCH names is at MARCH (R252). -/
theorem noneOff_of_march {c : ClMem} {mem : Nat} {bs : List Nat} (march : ∀ b, b ∈ bs → tablet c mem b = 1) :
    bs.any (fun b => decide (tablet c mem b ≠ 1)) = false := by
  simpa using march

/-- The operation of RING_LEAVE that the message names is taken under its row, and its arguments pass (Table 13-7). -/
theorem takeLeave_of_good {op : Nat} {bad : Job → Option BadAt} {may : State → Bool} (taken : TakenArgs s m 0x0062 [(0, 12), (12, 2), (16, 16)] t)
    (named : rlOp m = op) (listed : op ≠ 3) (valid : (jobOf t (rlSlot m)).valid = true) (good : bad (jobOf t (rlSlot m)) = none)
    (allowed : may t = true) (free : longOf t 0x0062 = false) : takeLeave s m op bad may = flushEvents (accept t m 0 (fun u => u)) := by
  have ofRow : ¬ (mOpcode m = 0x62 ∧ rlOp m ≠ op ∧ (!(op = 0 ∧ rlOp m = 3 : Bool)) = true) := fun other => other.2.1 named
  have notReserved : rlOp m ≠ 3 := named ▸ listed
  rw [takeLeave, if_neg ofRow, takeArgs_taken _ taken]
  simp only [valid, notReserved, good, allowed, free, Bool.not_true, Bool.false_eq_true, if_false]

end

/-- Settles O17: the arguments of each command pass its checks, and what is left is `accept`. -/
theorem longCommandsBegin : Obligations.LongCommandsBegin := by
  unfold Obligations.LongCommandsBegin
  refine ⟨?load, ?attest, ?march, ?write, ?restore, ?verify, ?pair, ?release, ?key, ?firmware, ?join, ?leave⟩
  case load =>
    intro s m t taken good free _
    rw [exec_loadConsist, execLoadConsist, takeArgs_taken _ taken]
    simp only [good, free, Bool.false_eq_true, if_false]
  case attest =>
    intro s m t taken aligned inRange fits _
    have placed : ¬ (mb m 512 48 % 64 ≠ 0 ∨ 2 ^ 47 < mb m 512 48 + attestLen t) := by omega
    rw [exec_attest, execAttest, takeArgs_taken _ taken]
    simp only [if_neg placed, if_neg (Nat.not_lt.2 fits)]
  case march =>
    intro s m t taken named algorithm march unheld mayRun _
    rw [exec_runMarch, execRunMarch, takeArgs_taken _ taken]
    simp only [named, algorithm, noneOff_of_march march, mayRun, unheld, Bool.false_eq_true, if_false]
  case write =>
    intro s m t taken key noCut ready _
    rw [exec_ckptWrite, execCkptWrite, takeArgs_taken _ taken]
    simp only [Option.isNone_eq_false_iff.2 key, noCut, ready, Option.isSome_none, Bool.not_true, Bool.false_eq_true, if_false]
    rfl
  case restore =>
    intro s m t taken listed buddy copy noCut free _
    have source : ¬ (rsSource m = 3 ∨ (rsSource m = 1 ∧ t.ckpt.buddy.isNone = true)) := by
      rintro (reserved | ⟨fromBuddy, unpaired⟩)
      · exact listed reserved
      · simp [Option.isNone_eq_false_iff.2 (buddy fromBuddy)] at unpaired
    have mounted : ¬ (rsSource m = 0 ∧ (!(retryMount t).store.ready) = true) := fun ⟨isLocal, unmounted⟩ => by
      simp [(copy isLocal).1] at unmounted
    have found : ¬ (rsSource m = 0 ∧ (localCopy (retryMount t) (rsCkpt m)).isNone = true) := fun ⟨isLocal, missing⟩ => by
      simp [Option.isNone_eq_false_iff.2 (copy isLocal).2] at missing
    have idle : ¬ (t.ckpt.cur.isSome = true ∨ longOf t 0x0051 = true) := by simp [noCut, free]
    rw [exec_ckptRestore, execCkptRestore, takeArgs_taken _ taken]
    simp only [if_neg source, if_neg mounted, if_neg found, if_neg idle]
    rfl
  case verify =>
    intro s m t r taken restored isSealed lossV noCut noVerify free _
    have ready : ¬ (r.sealed.isNone = true ∨ (!t.ckpt.policy.lossV) = true) := by simp [Option.isNone_eq_false_iff.2 isSealed, lossV]
    have idle : ¬ (t.ckpt.cur.isSome = true ∨ t.ckpt.verify.isSome = true ∨ longOf t 0x0051 = true) := by simp [noCut, noVerify, free]
    rw [exec_ckptVerify, execCkptVerify, takeArgs_taken _ taken]
    simp only [restored, if_neg ready, if_neg idle]
    rfl
  case pair =>
    intro s m t x taken free valid member _
    rw [exec_buddyPair, execBuddyPair, takeArgs_taken _ taken]
    simp only [valid, if_true, member, free, Bool.false_eq_true, if_false]
  case release =>
    intro s m t taken noAttest noImport _
    rw [exec_releaseTenant, execReleaseTenant, takeArgs_taken _ taken]
    simp only [noAttest, noImport, Bool.or_false, Bool.false_eq_true, if_false]
  case key =>
    rintro s m l t ⟨t0, taken, read, plain⟩ length good authority unused _
    have authorised : (!(kiClear l) && (!(reportListed t l) || (unwrapKey t l).isNone)) = false := by
      rcases authority with clear | ⟨listed, unwraps⟩
      · simp [clear]
      · simp [listed, Option.isNone_eq_false_iff.2 unwraps]
    rw [exec_keyImport, execKeyImport, takeCommand_taken _ taken, blockExact_of_length read length, checkBody_none _ plain]
    simp only [good, authorised, unused, Bool.false_eq_true, if_false]
  case firmware =>
    rintro s m l t ⟨t0, taken, read, plain⟩ free _
    rw [exec_fwUpdate, execFwUpdate, takeCommand_taken _ taken]
    simp only [read, checkBody_none _ plain, free, Bool.false_eq_true, if_false]
    cases (Config.fwImage (ofLe l)).2.good <;> rfl
  case join =>
    rintro s m l t k ⟨t0, taken, read, plain⟩ length good slot unspent free _
    rw [exec_ringJoin, execRingJoin, takeCommand_taken _ taken]
    simp only [read, length, checkBody_none _ plain, good, slot, unspent, free, Bool.not_true, Bool.false_eq_true, if_false]
  case leave =>
    intro s m t taken valid free _
    refine ⟨fun named member other => ?_, fun named removed paused => ?_, fun named noMember => ?_⟩
    · rw [exec_ringLeaveRemove, execRingLeaveRemove,
        takeLeave_of_good taken named (by decide) valid (if_pos ⟨member, other⟩) rfl free]
    · rw [exec_ringLeaveReadmit, execRingLeaveReadmit,
        takeLeave_of_good (may := fun s => s.op == .paused) taken named (by decide) valid (if_pos removed) (beq_iff_eq.2 paused) free]
    · rw [exec_ringLeaveLeave, execRingLeaveLeave,
        takeLeave_of_good taken named (by decide) valid (if_pos noMember) rfl free]

end Sys2Proof.Machine
end

section
/-! PROOFS. The ends of long commands (R339 to R341, R440, R445, R446, R467). -/

namespace Sys2Proof.Machine

theorem exec_longCommandFinal (seq : BitVec 32) (w : WorkResult) (s : State) :
    exec (.longCommandFinal seq w) s = execLongCommandFinal seq w s := rfl

section
variable {s : State} {seq : BitVec 32} {l : LongCmd}

/-- The outstanding command that a SEQ names. -/
def longNamed (s : State) (seq : BitVec 32) : Option LongCmd := s.mb.long.find? (fun l => BitVec.ofNat 32 (mSeq l.m) == seq)

theorem execLongCommandFinal_of_named (named : longNamed s seq = some l) (runs : hubRuns s = true) (w : WorkResult) :
    execLongCommandFinal seq w s =
      if haltedOut s l then .next (flushEvents (refuseHalted s l))
      else gate s (longCells l).1 (longCells l).2 (.next (flushEvents (finishLong s l w))) := by
  unfold longNamed at named
  simp only [execLongCommandFinal, named, runs, if_true]

theorem execLongCommandFinal_of_idle (idle : longNamed s seq = none ∨ hubRuns s = false) (w : WorkResult) :
    execLongCommandFinal seq w s = .next s := by
  unfold longNamed at idle
  unfold execLongCommandFinal
  split
  case h_1 => rfl
  case h_2 l named =>
    rcases idle with unnamed | halted
    · simp [named] at unnamed
    · simp [halted]

/-! What the work of each opcode comes to -/

theorem finishLong_attest (attest : mOpcode l.m = 0x0013) (w : WorkResult) : finishLong s l w = finishAttest s l.m := by
  simp only [finishLong, attest]

theorem finishLong_keyImport (keyImport : mOpcode l.m = 0x0014) (w : WorkResult) : finishLong s l w = finishKeyImport s l.m l.aux := by
  simp only [finishLong, keyImport]

theorem finishLong_fwUpdate (fwUpdate : mOpcode l.m = 0x0090) (w : WorkResult) : finishLong s l w = finishFwUpdate s l.m l.aux := by
  simp only [finishLong, fwUpdate]

/-- The image that is written is the copy not in use of its kind (R467). -/
theorem writeImage_eq (b : Boot) (f : Flash) (kind : Nat) (i : ImageCopy) : writeImage b f kind i =
    if kind = 0 then (if b.loaderCopy = 0 then { f with loaderB := i } else { f with loaderA := i })
    else if kind = 1 then (if b.fwCopy = 0 then { f with fwB := i } else { f with fwA := i })
    else if kind = 2 then (if b.sbCopy = 0 then { f with sbB := i } else { f with sbA := i })
    else if b.cfgCopy = 0 then { f with cfgB := i } else { f with cfgA := i } := by
  unfold writeImage
  split
  · rfl
  · rfl
  · rfl
  next not0 not1 not2 => rw [if_neg not0, if_neg not1, if_neg not2]

theorem finishKeyImport_clear {aux : Nat} (clear : kiClear (leBytes 304 aux) = true) (m : Msg) :
    finishKeyImport s m aux = finish (applyKey s (leBytes 304 aux) none) m stOK 0 0 :=
  if_pos clear

theorem finishKeyImport_of_key {aux : Nat} {k : BitVec 256} (load : kiClear (leBytes 304 aux) = false)
    (unwraps : unwrapKey s (leBytes 304 aux) = some k) (m : Msg) :
    finishKeyImport s m aux = finish (applyKey s (leBytes 304 aux) (some k)) m stOK 0 0 := by
  simp [finishKeyImport, load, unwraps]

/-- A block that carries no key is not authorised (R445). -/
theorem finishKeyImport_of_noKey {aux : Nat} (load : kiClear (leBytes 304 aux) = false)
    (noKey : unwrapKey s (leBytes 304 aux) = none) (m : Msg) : finishKeyImport s m aux = finish s m stNOTAUTH 0 0 := by
  simp [finishKeyImport, load, noKey]

end

/-- Settles O18: the guard of the event, the end of each opcode's work, and the two branches of `finish`. -/
theorem longCommandFinalCompletes : Obligations.LongCommandFinalCompletes := by
  unfold Obligations.LongCommandFinalCompletes
  refine ⟨?named, ?idle, ?final⟩
  case named =>
    intro s seq w l named runs
    rw [exec_longCommandFinal, execLongCommandFinal_of_named named runs]
    refine ⟨fun halted => if_pos halted, fun running admitted => ?_⟩
    rw [if_neg (by simp [running]), gate_of_admits admitted]
    refine ⟨rfl, fun attest => ?_, fun fwUpdate => ?_, fun keyImport => ⟨fun clear => ?_, fun load => ?_⟩⟩
    · rw [finishLong_attest attest]
      rfl
    · rw [finishLong_fwUpdate fwUpdate, finishFwUpdate, writeImage_eq]
    · rw [finishLong_keyImport keyImport, finishKeyImport_clear clear]
    · rw [finishLong_keyImport keyImport]
      cases unwraps : unwrapKey s (leBytes 304 l.aux) with
      | none => rw [finishKeyImport_of_noKey load unwraps]
      | some k => rw [finishKeyImport_of_key load unwraps]
  case idle =>
    intro s seq w idle
    rw [exec_longCommandFinal]
    exact execLongCommandFinal_of_idle idle w
  case final =>
    intro s m len body u since aux
    exact ⟨fun postable => if_neg (Bool.eq_false_iff.1 postable), fun waits => if_pos waits⟩

end Sys2Proof.Machine
end

section
/-! PROOFS. START, PAUSE, RESUME, STOP and PATCH_PRM once their message is taken (R90, R125, R345, R349). -/

namespace Sys2Proof.Machine

theorem exec_start (m : Msg) (s : State) : exec (.start m) s = execStart m s := rfl
theorem exec_pause (m : Msg) (s : State) : exec (.pause m) s = execPause m s := rfl
theorem exec_resume (m : Msg) (s : State) : exec (.resume m) s = execResume m s := rfl
theorem exec_stop (m : Msg) (s : State) : exec (.stop m) s = execStop m s := rfl
theorem exec_patchPrm (m : Msg) (s : State) : exec (.patchPrm m) s = execPatchPrm m s := rfl

/-- No entry of a message is in error when each passes its checks (R349). -/
theorem findSome?_patchBad_eq_none {t : State} {m : Msg} {n : Nat} {ps : List Patch} (good : ∀ i, i < n → patchBad t ps i (patchAt m i) = none) :
    (List.range n).findSome? (fun i => patchBad t ps i (patchAt m i)) = none := by
  simpa [List.findSome?_eq_none_iff] using good

/-- Settles O19: each command passes its checks, and its effect is the stated one. -/
theorem programControlCompletes : Obligations.ProgramControlCompletes := by
  unfold Obligations.ProgramControlCompletes
  refine ⟨?start, ?pause, ?resume, ?stop, ?patch⟩
  case start =>
    intro s m t taken noMarch
    rw [exec_start, execStart, takeArgs_taken _ taken]
    simp only [noMarch, Bool.false_eq_true, if_false]
  case pause =>
    intro s m t taken noPause
    rw [exec_pause, execPause, takeArgs_taken _ taken]
    simp only [noPause, Option.isSome_none, Bool.false_eq_true, if_false]
  case resume =>
    intro s m t taken
    rw [exec_resume, execResume, takeArgs_taken _ taken]
  case stop =>
    intro s m t taken
    rw [exec_stop, execStop, takeArgs_taken _ taken]
    exact ⟨fun loaded => by rw [if_pos loaded], fun running => by rw [if_neg running]⟩
  case patch =>
    intro s m t taken several most plain good
    have count : ¬ (mb m 0 8 = 0 ∨ 6 < mb m 0 8) := by omega
    rw [exec_patchPrm, execPatchPrm, takeCommand_taken _ taken]
    simp only [if_neg count, checkBody_none _ plain, findSome?_patchBad_eq_none good]

end Sys2Proof.Machine
end

section
/-! PROOFS. The mailbox page: MB_CTL, the ring indices, the interrupt words and HWIN_CTL (R331 to R333, R336, Table 12-2). -/

namespace Sys2Proof.Machine

theorem exec_mbCtlEn (en : Bool) (s : State) : exec (.mbCtlEn en) s = execMbCtlEn en s := rfl
theorem exec_mbCtlRst (s : State) : exec .mbCtlRst s = execMbCtlRst s := rfl
theorem exec_doorbell (r : Nat) (v : BitVec 9) (s : State) : exec (.doorbell r v) s = execDoorbell r v s := rfl
theorem exec_ringConsWrite (r : Nat) (v : BitVec 9) (s : State) : exec (.ringConsWrite r v) s = execRingConsWrite r v s := rfl
theorem exec_ringIrqWrite (r : Nat) (s : State) : exec (.ringIrqWrite r) s = execRingIrqWrite r s := rfl
theorem exec_hwinOpen (n : Nat) (rd wr : Bool) (s : State) : exec (.hwinOpen n rd wr) s = execHwinOpen n rd wr s := rfl

/-- Outside sleep, and outside the entry to it, Turaist activity wakes nothing (R344). -/
theorem hostActivity_of_awake {s : State} (awake : sleepTarget s = none) (early : Bool) : hostActivity s early = s := by
  simp [hostActivity, awake]

section
variable {s : State} {r : Nat}

/-! MB_CTL (R332, R336) -/

theorem execMbCtlEn_of_change {en : Bool} (up : apertureUp s = true) (change : s.mb.en ≠ en) : execMbCtlEn en s = .next (setEn s en) := by
  simp [execMbCtlEn, up, change.symm]

/-- A rise of EN arms the first-message rule. -/
theorem setEn_rise (off : s.mb.en = false) : setEn s true = flushEvents (modMb (armFirst s) (fun m => { m with en := true })) := by
  simp [setEn, off]

theorem setEn_fall (s : State) : setEn s false = flushEvents (modMb s (fun m => { m with en := false })) := rfl

theorem execMbCtlRst_of_up (up : apertureUp s = true) : execMbCtlRst s = .next (ringsReset s) := if_pos up

theorem ringsReset_of_on (on : s.mb.en = true) : ringsReset s = s := if_pos on

theorem ringsReset_of_off (off : s.mb.en = false) :
    ringsReset s = armFirst ([0, 1, 2, 3, 4, 5].foldl (fun s r => modRing s r (fun g => { g with prod := 0, cons := 0, sigd := 0 })) s) :=
  if_neg (by simp [off])

/-! The ring indices (R333) -/

theorem writeProd_of_fits {v : Nat} (fits : (v + 512 - (ringOf s r).cons) % 512 ≤ 256) :
    writeProd s r v = modRing s r (fun g => { g with prod := v }) :=
  if_neg (Nat.not_lt.2 fits)

theorem writeProd_of_exceeds {v : Nat} (exceeds : 256 < (v + 512 - (ringOf s r).cons) % 512) : writeProd s r v = badIndex s :=
  if_pos exceeds

theorem writeCons_of_fits {v : Nat} (fits : ((ringOf s r).prod + 512 - v) % 512 ≤ 256) :
    writeCons s r v = flushEvents (modRing s r (fun g => { g with cons := v })) :=
  if_neg (Nat.not_lt.2 fits)

theorem writeCons_of_exceeds {v : Nat} (exceeds : 256 < ((ringOf s r).prod + 512 - v) % 512) : writeCons s r v = badIndex s :=
  if_pos exceeds

@[simp] theorem sleepTarget_writeProd (s : State) (r v : Nat) : sleepTarget (writeProd s r v) = sleepTarget s := by
  unfold writeProd
  split <;> rfl

theorem execDoorbell_of_awake (up : apertureUp s = true) (command : r < 4) (awake : sleepTarget s = none) (v : BitVec 9) :
    execDoorbell r v s = .next (writeProd s r v.toNat) := by
  rw [execDoorbell, if_pos (by simp [up, command]), hostActivity_of_awake (by rw [sleepTarget_writeProd, awake])]

theorem execRingConsWrite_of_up (up : apertureUp s = true) (report : r = 4 ∨ r = 5) (v : BitVec 9) :
    execRingConsWrite r v s = .next (writeCons s r v.toNat) :=
  if_pos (by simp [up, report])

/-! The interrupt word (R333) -/

/-- Have 4 µs passed since the last one? -/
def irqDue (s : State) (g : Ring) : Bool := g.irqAt.all (fun x => decide (x + 200 ≤ s.clk.aon))

theorem irqDue_iff (s : State) (g : Ring) : irqDue s g = true ↔ ∀ x, g.irqAt = some x → x + 200 ≤ s.clk.aon := by
  cases last : g.irqAt <;> simp [irqDue, last]

/-- The state with the interrupt word of ring r written. -/
def irqWritten (s : State) (r : Nat) : State :=
  modRing { s with comp := compWrite s.comp ((ringOf s r).irqAddr * 4) (leBytes 4 ((ringOf s r).prod + 65536 * r)) false } r
    (fun g => { g with sigd := g.prod, irqAt := some s.clk.aon })

theorem execRingIrqWrite_eq (r : Nat) (s : State) : execRingIrqWrite r s =
    if (apertureUp s && (r == 4 || r == 5) && (ringOf s r).irqEn && (ringOf s r).prod != (ringOf s r).sigd && irqDue s (ringOf s r)) = true then
      .next (irqWritten s r) else .next s := by
  unfold execRingIrqWrite
  extract_lets g due
  have same : due = irqDue s g := by
    unfold due irqDue
    cases g.irqAt <;> rfl
  rw [same]
  rfl

theorem execRingIrqWrite_of_due (up : apertureUp s = true) (report : r = 4 ∨ r = 5) (enabled : (ringOf s r).irqEn = true)
    (moved : (ringOf s r).prod ≠ (ringOf s r).sigd) (due : irqDue s (ringOf s r) = true) : execRingIrqWrite r s = .next (irqWritten s r) := by
  rw [execRingIrqWrite_eq, if_pos (by simp [up, report, enabled, moved, due])]

theorem execRingIrqWrite_of_early (early : irqDue s (ringOf s r) = false) : execRingIrqWrite r s = .next s := by
  rw [execRingIrqWrite_eq, if_neg (by simp [early])]

/-! Host windows (R331) -/

theorem openHwin_of_closed {n : Nat} (closed : (hwinOf s n).en = false) (rd wr : Bool) : openHwin s n rd wr =
    modHwin s n (fun w => { w with en := hwinMay s (hwinOf s n), rd := rd, wr := wr, refused := !(hwinMay s (hwinOf s n)) }) :=
  if_neg (by simp [closed])

end

/-- Settles O22: the guard of each write holds, and each write has its cases. -/
theorem mailboxPageCommandsComplete : Obligations.MailboxPageCommandsComplete := by
  unfold Obligations.MailboxPageCommandsComplete
  refine ⟨?rise, ?fall, ?reset, ?noReset, ?doorbell, ?cons, ?irq, ?noIrq, ?window⟩
  case rise =>
    intro s up off
    rw [exec_mbCtlEn, execMbCtlEn_of_change up (by simp [off]), setEn_rise off]
    rfl
  case fall =>
    intro s up on
    rw [exec_mbCtlEn, execMbCtlEn_of_change up (by simp [on]), setEn_fall]
    rfl
  case reset =>
    intro s up off
    rw [exec_mbCtlRst, execMbCtlRst_of_up up, ringsReset_of_off off]
    rfl
  case noReset =>
    intro s up on
    rw [exec_mbCtlRst, execMbCtlRst_of_up up, ringsReset_of_on on]
  case doorbell =>
    intro s r v up command awake
    rw [exec_doorbell, execDoorbell_of_awake up command awake]
    exact ⟨fun fits => by rw [writeProd_of_fits fits], fun exceeds => by rw [writeProd_of_exceeds exceeds]; rfl⟩
  case cons =>
    intro s r v up report
    rw [exec_ringConsWrite, execRingConsWrite_of_up up report]
    exact ⟨fun fits => by rw [writeCons_of_fits fits], fun exceeds => by rw [writeCons_of_exceeds exceeds]; rfl⟩
  case irq =>
    intro s r up report enabled moved due
    rw [exec_ringIrqWrite, execRingIrqWrite_of_due up report enabled moved ((irqDue_iff ..).2 due)]
    rfl
  case noIrq =>
    intro s r x last early
    have notDue : irqDue s (ringOf s r) = false := by simp [irqDue, last, early]
    rw [exec_ringIrqWrite, execRingIrqWrite_of_early notDue]
  case window =>
    intro s n rd wr up inRange closed
    rw [exec_hwinOpen, execHwinOpen, if_pos (by simp [up, inRange]), openHwin_of_closed closed]
    rfl

end Sys2Proof.Machine
end

section
/-! PROOFS. Companion accesses through the aperture (R329 to R331) and accesses of a cluster's window (R27). -/

namespace Sys2Proof.Machine

theorem exec_hostWindowAccess (off : Nat) (acc : Access) (s : State) : exec (.hostWindowAccess off acc) s = execHostWindowAccess off acc s := rfl
theorem exec_windowAccess (lc off : Nat) (tag : Option (BitVec 4)) (acc : Access) (s : State) :
    exec (.windowAccess lc off tag acc) s = execWindowAccess lc off tag acc s := rfl

theorem chargeCells_eq (s : State) (act : Nat) (l : List (Nat × Nat)) (u : Nat) :
    chargeCells s act l u = { s with tt := (chargeCells s act l u).tt } := by
  unfold chargeCells
  induction l generalizing s with
  | nil => rfl
  | cons k l ih =>
    rw [List.foldl_cons, ih (ttCharge s k.1 k.2 act u), ttCharge_eq]

/-! Registers, read 8 bytes at a time -/

theorem unitsOf_word {o : Nat} (aligned : o % 8 = 0) : unitsOf 8 o 8 = [o / 8] := by
  have count : (o + 7) / 8 + 1 - o / 8 = 1 := by omega
  simp [unitsOf, rangeFrom, count]

theorem regBytes_word {o : Nat} (aligned : o % 8 = 0) (rd : State → Nat → Nat × State) (s : State) :
    regBytes rd s o 8 = deliver (rd s o).2 (leBytes 8 (rd s o).1) false := by
  have word : 8 * (o / 8) = o := by omega
  have whole (x : Nat) : (leBytes 8 x).take 8 = leBytes 8 x := List.take_of_length_le (by rw [length_leBytes])
  simp [regBytes, unitsOf_word aligned, wordsOf, word, aligned, whole]

theorem classReadable_chargeCells (s : State) (act : Nat) (l : List (Nat × Nat)) (u k : Nat) :
    classReadable (chargeCells s act l u) k = classReadable s k := by
  rw [chargeCells_eq]
  rfl

theorem hubRead_of_readable {s : State} {o : Nat} (readable : classReadable s (hubClass o) = true) : hubRead s o = (hubReg s o, s) :=
  if_pos readable

/-! Requests that the timetable judges (R421) -/

theorem takeReq_of_admitted {s : State} {r : TtReq} (admitted : admits s r.act r.cells = true) (unheld : heldReq s r = false) :
    takeReq s r = serveReq s r :=
  if_pos (by simp [admitted, unheld])

theorem takeReq_of_waiting {s : State} {r : TtReq} (waits : admits s r.act r.cells = false ∨ heldReq s r = true) : takeReq s r = keepReq s r := by
  refine if_neg ?_
  rcases waits with spent | held
  · simp [spent]
  · simp [held]

theorem takeReq_view {s : State} {o : Nat} (admitted : admits s 8 (bridgeCell (regPlace o) 4) = true) (aligned : o % 8 = 0)
    (readable : classReadable s (hubClass o) = true) :
    let u := chargeCells s 8 (bridgeCell (regPlace o) 4) 1
    takeReq s (.view o ⟨8, none⟩) = deliver u (leBytes 8 (hubReg u o)) false := by
  intro u
  have readable' : classReadable u (hubClass o) = true := by rw [classReadable_chargeCells, readable]
  rw [takeReq_of_admitted (r := .view o ⟨8, none⟩) admitted rfl]
  show regBytes hubRead u o 8 = _
  rw [regBytes_word aligned, hubRead_of_readable readable']

theorem takeReq_hostRead {s : State} {a n : Nat} (admitted : admits s 8 (devCells 4 a false) = true) (unheld : heldRange s a n = false)
    (mapped : unmappedAt s a = false) : takeReq s (.host a ⟨n, none⟩) =
      let r := devRead (chargeDev s 4 8 a n false) a n
      deliver r.2 r.1.data r.1.poison := by
  rw [takeReq_of_admitted (r := .host a ⟨n, none⟩) admitted unheld]
  simp only [serveReq, mapped, Bool.false_eq_true, if_false]
  rfl

theorem takeReq_hostWrite {s : State} {a : Nat} {l : List Byte} (admitted : admits s 8 (devCells 4 a true) = true)
    (unheld : heldRange s a l.length = false) (mapped : unmappedAt s a = false) (n : Nat) :
    takeReq s (.host a ⟨n, some l⟩) = devWrite (chargeDev s 4 8 a l.length true) a l false 0xE := by
  rw [takeReq_of_admitted (r := .host a ⟨n, some l⟩) admitted unheld]
  simp only [serveReq, mapped, Bool.false_eq_true, if_false]
  rfl

/-! Where an access through the aperture arrives (R329) -/

section
variable {s : State} {off : Nat} {acc : Access}

theorem execHostWindowAccess_of_awake (up : apertureUp s = true) (awake : sleepTarget s = none) (moves : 1 ≤ accLen acc)
    (atMost : accLen acc ≤ 64) : execHostWindowAccess off acc s = .next (apertureAccess s off acc) := by
  have nonempty : accLen acc ≠ 0 := by omega
  rw [execHostWindowAccess, if_neg (by simp [up, nonempty, atMost]), hostActivity_of_awake awake]

theorem apertureAccess_page (inPage : off + 8 ≤ 0x10000) (aligned : off % 8 = 0) :
    apertureAccess s off ⟨8, none⟩ = deliver s (leBytes 8 (mbReg s off)) false :=
  (if_pos inPage).trans (regBytes_word aligned _ s)

/-- The hub's view begins 4 GiB into the aperture. -/
theorem apertureAccess_view {o : Nat} (runs : hubRuns s = true) (inView : o + 8 ≤ 0x100000000) :
    apertureAccess s (0x100000000 + o) ⟨8, none⟩ = takeReq s (.view o ⟨8, none⟩) := by
  have past : ¬ 0x100000000 + o + 8 ≤ 0x10000 := by omega
  have inside : 0x100000000 ≤ 0x100000000 + o ∧ 0x100000000 + o + 8 ≤ 0x200000000 := by omega
  have offset : 0x100000000 + o - 0x100000000 = o := by omega
  simp only [apertureAccess, accLen, if_neg past, runs, Bool.not_true, Bool.false_and, Bool.false_eq_true, if_false, if_pos inside, offset]

/-- Past the page and outside the hub's view an access goes through a host window or is uncovered. -/
theorem apertureAccess_beyond (runs : hubRuns s = true) (pastPage : 0x10000 < off + accLen acc)
    (notView : ¬ (0x100000000 ≤ off ∧ off + accLen acc ≤ 0x200000000)) :
    apertureAccess s off acc = (hwinTarget s off (accLen acc) acc.data.isSome).elim (uncovered s acc) (fun a => takeReq s (.host a acc)) := by
  simp only [apertureAccess, if_neg (Nat.not_le.2 pastPage), runs, Bool.not_true, Bool.false_and, Bool.false_eq_true, if_false, if_neg notView]
  cases hwinTarget s off (accLen acc) acc.data.isSome <;> rfl

/-- Below the host windows there is none. -/
theorem hwinTarget_of_below (below : off < 0x10000000000) (n : Nat) (write : Bool) : hwinTarget s off n write = none := if_pos below

theorem hwinTarget_of_open {k o n : Nat} {write : Bool} (listed : k < 16) (inWindow : o < 0x1000000000) (isOpen : (hwinOf s k).en = true)
    (permits : (if write then (hwinOf s k).wr else (hwinOf s k).rd) = true) (fits : o + n ≤ (hwinOf s k).size * 4096) :
    hwinTarget s (0x10000000000 + k * 0x1000000000 + o) n write = some ((hwinOf s k).base * 4096 + o) := by
  have window : (0x10000000000 + k * 0x1000000000 + o - 0x10000000000) / 0x1000000000 = k := by omega
  have offset : (0x10000000000 + k * 0x1000000000 + o - 0x10000000000) % 0x1000000000 = o := by omega
  rw [hwinTarget, if_neg (by omega), window, offset]
  exact if_pos ⟨listed, isOpen, permits, fits⟩

/-- An access through an open window reaches the device address. -/
theorem apertureAccess_window {k o : Nat} (runs : hubRuns s = true) (listed : k < 16) (moves : 1 ≤ accLen acc) (inWindow : o < 0x1000000000)
    (isOpen : (hwinOf s k).en = true) (permits : (if acc.data.isSome then (hwinOf s k).wr else (hwinOf s k).rd) = true)
    (fits : o + accLen acc ≤ (hwinOf s k).size * 4096) :
    apertureAccess s (0x10000000000 + k * 0x1000000000 + o) acc = takeReq s (.host ((hwinOf s k).base * 4096 + o) acc) := by
  rw [apertureAccess_beyond runs (by omega) (by omega), hwinTarget_of_open listed inWindow isOpen permits fits]
  rfl

theorem apertureAccess_uncovered {n : Nat} (runs : hubRuns s = true) (past : 0x10000 ≤ off) (below : off + n ≤ 0x100000000) (moves : 1 ≤ n) :
    apertureAccess s off ⟨n, none⟩ = deliver (countAperture s) (zeros n) true := by
  have len : accLen ⟨n, none⟩ = n := rfl
  rw [apertureAccess_beyond runs (by omega) (by omega), hwinTarget_of_below (by omega)]
  rfl

end

theorem execWindowAccess_of_inRange {s : State} {lc off : Nat} {acc : Access} (runs : arithRuns s = true) (listed : lc < 256)
    (inside : off + accLen acc ≤ 0x1000000) (tag : Option (BitVec 4)) :
    execWindowAccess lc off tag acc s = .next (takeReq s (.window lc (0x700000000000 + lc * 0x1000000 + off) tag acc)) :=
  if_neg (by simp [runs, Nat.le_of_lt_succ listed, inside])

/-- Settles O24: where each access arrives, and what it does once the timetable admits it or makes it wait. -/
theorem apertureAndWindowAccessesComplete : Obligations.ApertureAndWindowAccessesComplete := by
  unfold Obligations.ApertureAndWindowAccessesComplete
  refine ⟨?page, ?view, ?window, ?uncovered, ?cluster⟩
  case page =>
    intro s o up awake aligned inPage
    rw [exec_hostWindowAccess, execHostWindowAccess_of_awake up awake (by decide) (by decide), apertureAccess_page inPage aligned]
    rfl
  case view =>
    intro s o up awake runs aligned inView readable admitted
    rw [exec_hostWindowAccess, execHostWindowAccess_of_awake up awake (by decide) (by decide), apertureAccess_view runs inView,
      takeReq_view admitted aligned readable]
    rfl
  case window =>
    intro s k o n l up awake runs listed moves atMost isOpen fits inWindow mapped unheld
    constructor
    · intro permits admitted r
      rw [exec_hostWindowAccess, execHostWindowAccess_of_awake (acc := ⟨n, none⟩) up awake moves atMost,
        apertureAccess_window (acc := ⟨n, none⟩) runs listed moves inWindow isOpen permits fits,
        takeReq_hostRead admitted unheld mapped]
      rfl
    · rintro permits rfl admitted
      rw [exec_hostWindowAccess, execHostWindowAccess_of_awake (acc := ⟨l.length, some l⟩) up awake moves atMost,
        apertureAccess_window (acc := ⟨l.length, some l⟩) runs listed moves inWindow isOpen permits fits,
        takeReq_hostWrite admitted unheld mapped]
  case uncovered =>
    intro s o n up awake runs past below moves atMost
    rw [exec_hostWindowAccess, execHostWindowAccess_of_awake (acc := ⟨n, none⟩) up awake moves atMost,
      apertureAccess_uncovered runs past below moves]
    rfl
  case cluster =>
    intro s lc o tag acc runs listed inside a act u
    rw [exec_windowAccess, execWindowAccess_of_inRange runs listed inside]
    refine ⟨fun admitted unheld => ?_, fun waits => ?_⟩
    · rw [takeReq_of_admitted (r := .window lc a tag acc) admitted unheld]
      obtain ⟨n, data⟩ := acc
      refine ⟨fun isRead => ?_, fun l isWrite => ?_⟩
      · obtain rfl : data = none := isRead
        rfl
      · obtain rfl : data = some l := isWrite
        rfl
    · rw [takeReq_of_waiting (r := .window lc a tag acc) waits]
      rfl

end Sys2Proof.Machine
end

section
/-! PROOFS. The SMBus commands (R353, Table 12-12), the alert response (R354) and the power cap (R429). -/

namespace Sys2Proof.Machine

theorem exec_info (s : State) : exec .info s = execInfo s := rfl
theorem exec_state (s : State) : exec .state s = execState s := rfl
theorem exec_temps (s : State) : exec .temps s = execTemps s := rfl
theorem exec_power (s : State) : exec .power s = execPower s := rfl
theorem exec_faults (s : State) : exec .faults s = execFaults s := rfl
theorem exec_alertStatus (s : State) : exec .alertStatus s = execAlertStatus s := rfl
theorem exec_alertClear (pec : Bool) (w : BitVec 16) (s : State) : exec (.alertClear pec w) s = execAlertClear pec w s := rfl
theorem exec_alertMask (pec : Bool) (w : Option (BitVec 16)) (s : State) : exec (.alertMask pec w) s = execAlertMask pec w s := rfl
theorem exec_powerCap (pec : Bool) (w : Option (BitVec 16)) (s : State) : exec (.powerCap pec w) s = execPowerCap pec w s := rfl
theorem exec_alertResponse (s : State) : exec .alertResponse s = execAlertResponse s := rfl

section
variable {s : State} {code : Nat}

theorem aonRuns_of_on (on : s.boot.phase ≠ .off) : aonRuns s = true := by simpa [aonRuns] using on

/-! A transaction of a listed code, while AON runs -/

theorem smbTake_of_listed (on : s.boot.phase ≠ .off) (listed : smbCodes.contains code = true) (f : State → Res) : smbTake s code f = f s := by
  rw [smbTake, if_neg (by simp [aonRuns_of_on on]), if_pos listed]

/-- The state after a read whose reply is l; `head` is what the master sends and the byte count. -/
def replied (s : State) (head l : List Byte) : State := { s with smb := { s.smb with reply := l, nack := false, pec := pecOf (head ++ l) } }

theorem smbReply_word (on : s.boot.phase ≠ .off) (listed : smbCodes.contains code = true) (l : List Byte) :
    smbReply s code false l = .next (replied s [0xB4, BitVec.ofNat 8 code, 0xB5] l) :=
  smbTake_of_listed on listed _

theorem smbReply_block (on : s.boot.phase ≠ .off) (listed : smbCodes.contains code = true) {l : List Byte} {n : Byte}
    (count : BitVec.ofNat 8 l.length = n) :
    smbReply s code true l = .next (replied s [0xB4, BitVec.ofNat 8 code, 0xB5, n] l) :=
  count ▸ smbTake_of_listed on listed _

theorem smbWrite_of_badPec (on : s.boot.phase ≠ .off) (listed : smbCodes.contains code = true) (okay : Bool) (f : State → State) :
    smbWrite s code false okay f = .next s :=
  smbTake_of_listed on listed _

theorem smbWrite_of_okay {okay : Bool} (on : s.boot.phase ≠ .off) (listed : smbCodes.contains code = true) (good : okay = true)
    (f : State → State) : smbWrite s code true okay f = .next (modSmb (f s) (fun b => { b with nack := false, reply := [], pec := 0 })) := by
  rw [good]
  exact smbTake_of_listed on listed _

theorem smbWrite_of_refused {okay : Bool} (on : s.boot.phase ≠ .off) (listed : smbCodes.contains code = true) (bad : okay = false)
    (f : State → State) : smbWrite s code true okay f = smbNack s := by
  rw [bad]
  exact smbTake_of_listed on listed _

/-- POWER_CAP takes 0, or 400 W up to the profile limit (R429). -/
def capTaken (s : State) (v : Nat) : Bool := v == 0 || (decide (400 ≤ v) && decide (v ≤ profileLimit s.boot.cool))

end

/-- The data of FAULTS: the log's count, the faulted steps, the free sidings, the newest code, the newest index. -/
def faultsData (s : State) : List Byte :=
  leBytes 4 (wholeNext s) ++ leBytes 4 (stepFaults s) ++
    leBytes 2 (packFields [(sidingsN s 0, 4), (sidingsN s 1, 4), (sidingsN s 2, 4), (sidingsN s 3, 4)]) ++ leBytes 2 (lastEventCode s) ++
    leBytes 4 (if wholeNext s = 0 then noLink else wholeNext s - 1)

theorem length_faultsData (s : State) : (faultsData s).length = 16 := by
  simp [faultsData]

theorem faultsData_count (s : State) : ofLe ((faultsData s).take 4) = wholeNext s % 2 ^ 32 := by
  have first : (faultsData s).take 4 = leBytes 4 (wholeNext s) := by
    simp only [faultsData, List.append_assoc]
    exact List.take_left' (length_leBytes ..)
  rw [first, ofLe_leBytes]
  rfl

theorem faultsData_newest (s : State) :
    ofLe (((faultsData s).drop 12).take 4) = (if wholeNext s = 0 then 0xFFFFFFFF else wholeNext s - 1) % 2 ^ 32 := by
  have last : (faultsData s).drop 12 = leBytes 4 (if wholeNext s = 0 then noLink else wholeNext s - 1) :=
    List.drop_left' (by simp)
  rw [last, leBytes_take (by decide), ofLe_leBytes]
  rfl

/-- Settles O26: each read is a transaction of a listed code, and its block has the stated length. -/
theorem smbusReadsReply : Obligations.SmbusReadsReply := by
  unfold Obligations.SmbusReadsReply
  intro s on rep
  refine ⟨?info, ?state, ?temps, ?power, ?faults, ?status, ?mask, ?cap, ?asserted, ?quiet, rfl⟩
  case info =>
    rw [exec_info, execInfo, smbReply_block on (by decide) rfl]
    rfl
  case state =>
    rw [exec_state, execState, smbReply_block on (by decide) (n := 4) (by simp)]
    rfl
  case temps =>
    rw [exec_temps, execTemps, smbReply_block on (by decide) (n := 16) (by simp [tempBytes])]
    rfl
  case power =>
    rw [exec_power, execPower, smbReply_block on (by decide) (n := 12) (by simp)]
    simp only [List.flatMap_cons, List.flatMap_nil, List.append_nil, List.append_assoc]
    rfl
  case faults =>
    refine ⟨faultsData s, ?_, length_faultsData s, faultsData_count s, faultsData_newest s⟩
    exact smbReply_block on (by decide) (by rw [← faultsData, length_faultsData]; rfl)
  case status =>
    rw [exec_alertStatus, execAlertStatus, smbReply_word on (by decide)]
    rfl
  case mask => exact fun _ => smbReply_word on (by decide) _
  case cap => exact fun _ => smbReply_word on (by decide) _
  case asserted =>
    intro asserted
    rw [exec_alertResponse, execAlertResponse, if_neg (by simp [aonRuns_of_on on]), if_pos asserted]
    rfl
  case quiet =>
    intro quiet
    rw [exec_alertResponse, execAlertResponse, if_neg (by simp [aonRuns_of_on on]), if_neg (by simp [quiet])]
    rfl

/-- Settles O27: a write without its PEC, one whose value is taken and one whose value is not. -/
theorem smbusWritesTakeEffect : Obligations.SmbusWritesTakeEffect := by
  unfold Obligations.SmbusWritesTakeEffect
  intro s on
  refine ⟨?clearBad, ?maskBad, ?capBad, ?clear, ?mask, ?cap, ?capRefused⟩
  case clearBad =>
    intro w
    rw [exec_alertClear, execAlertClear, smbWrite_of_badPec on (by decide)]
  case maskBad =>
    intro x
    rw [exec_alertMask, execAlertMask, smbWrite_of_badPec on (by decide)]
  case capBad =>
    intro x
    rw [exec_powerCap, execPowerCap, smbWrite_of_badPec on (by decide)]
  case clear =>
    intro w u
    rw [exec_alertClear, execAlertClear, smbWrite_of_okay on (by decide) rfl]
    rfl
  case mask =>
    intro x
    rw [exec_alertMask, execAlertMask, smbWrite_of_okay on (by decide) rfl]
    rfl
  case cap =>
    intro x legal
    have taken : capTaken s x.toNat = true := by simpa [capTaken] using legal
    rw [exec_powerCap]
    exact smbWrite_of_okay (code := 0x10) on (by decide) taken _
  case capRefused =>
    intro x nonzero outside
    have refused : capTaken s x.toNat = false := by
      simp only [capTaken, Bool.or_eq_false_iff, beq_eq_false_iff_ne, Bool.and_eq_false_iff, decide_eq_false_iff_not, Nat.not_le]
      exact ⟨nonzero, outside⟩
    rw [exec_powerCap]
    exact smbWrite_of_refused (code := 0x10) on (by decide) refused _

end Sys2Proof.Machine
end

section
/-! PROOFS. The invariant of Safety at reset and over every step (R361, R351, R339, R232, R253). -/

namespace Sys2Proof.Machine

/-- Settles O4: at reset every memory and every queue is empty. -/
theorem resetMeetsInvariant : Obligations.ResetMeetsInvariant := by
  unfold Obligations.ResetMeetsInvariant
  exact (sound_iff.1 State_reset_sound).2

/-- A cycle of the empty queue, and the command at the front of any other, each keep `Sound`. -/
theorem step_sound {s : State} (inv : s.inv) : ∃ Q, SoundR Q (step s) := by
  unfold step
  cases queue : s.pending with
  | nil => exact ⟨[], tick_sound s (sound_iff.2 ⟨queue, inv⟩)⟩
  | cons c r => exact ⟨r, exec_sound c _ (sound_iff.2 ⟨rfl, inv⟩)⟩

/-- Settles O3: `Sound`, which every step keeps, is the invariant together with the queue. -/
theorem stepKeepsInvariant : Obligations.StepKeepsInvariant := by
  unfold Obligations.StepKeepsInvariant
  intro s t inv answer
  obtain ⟨Q, sound⟩ := step_sound inv
  rw [answer] at sound
  exact (sound_iff.1 sound).2

end Sys2Proof.Machine
end

section
/-! PROOFS. The safe state (R394) and what leads to it: lockstep mismatches, the input, a critical sensor, a second restart, a third monitor trip
(R360, R367, R392, R393, R430, R485). -/

namespace Sys2Proof.Machine

theorem exec_lockstepMismatch (u : Nat) (s : State) : exec (.lockstepMismatch u) s = execLockstepMismatch u s := rfl
theorem exec_inputOvervoltage (s : State) : exec .inputOvervoltage s = execInputOvervoltage s := rfl
theorem exec_thermalThreshold (n : Nat) (x : Int) (s : State) : exec (.thermalThreshold n x) s = execThermalThreshold n x s := rfl
theorem exec_smRestart (c ms : Nat) (i : ImageCopy) (s : State) : exec (.smRestart c ms i) s = execSmRestart c ms i s := rfl
theorem exec_monitorTrip (sec : Nat) (k : Bool) (v : BitVec 32) (s : State) : exec (.monitorTrip sec k v) s = execMonitorTrip sec k v s := rfl

section
variable {s : State}

/-! What an entry changes -/

/-- A change of any stacks' registers changes DRAM alone. -/
theorem foldl_modStk_eq (f : Stk → Stk) (l : List Nat) (s : State) : ∃ dram, l.foldl (fun s k => modStk s k f) s = { s with dram := dram } := by
  induction l generalizing s with
  | nil => exact ⟨s.dram, rfl⟩
  | cons k l ih => exact ih (modStk s k f)

@[simp] theorem logEvent_pauseOf (s : State) (code cls unit unitId link detail : Nat) :
    (logEvent s code cls unit unitId link detail).mb.pauseOf = s.mb.pauseOf := by
  rw [logEvent, (flushEvents_sameButPostings _).1]
  unfold logRaw
  dsimp only
  split
  · split <;> rfl
  · rfl

/-- A change of the operating state alerts, logs and posts, and changes nothing else. -/
theorem setOp_eq (s : State) (o : OpState) :
    ∃ smb flog mb comp free hub, setOp s o = { s with op := o, smb := smb, flog := flog, mb := mb, comp := comp, free := free, hub := hub } := by
  unfold setOp changeState
  split
  · next already => exact ⟨s.smb, s.flog, s.mb, s.comp, s.free, s.hub, by rw [← already.1]⟩
  · exact ⟨_, _, _, _, _, _, logEvent_logOnly ..⟩

@[simp] theorem setOp_pauseOf (s : State) (o : OpState) : (setOp s o).mb.pauseOf = s.mb.pauseOf := by
  unfold setOp changeState
  split
  · rfl
  · exact logEvent_pauseOf ..

theorem refusePause_of_none (noPause : s.mb.pauseOf = none) : refusePause s = s := by
  simp only [refusePause, noPause]

/-- The refusal of a PAUSE is a completion, and ends the pausing of the clusters (R341). -/
theorem refusePause_eq (s : State) : ∃ mb cl comp free, refusePause s = { s with mb := mb, cl := cl, comp := comp, free := free } := by
  cases pause : s.mb.pauseOf with
  | none => exact ⟨s.mb, s.cl, s.comp, s.free, refusePause_of_none pause⟩
  | some m =>
    simp only [refusePause, pause, fulfil]
    exact ⟨_, _, _, _, (postShortsN_sameButPostings _ _).1⟩

/-- The stacks in self-refresh, FAULT# on ALERT_STATUS, and SAFE_STATE in the log (R394). -/
def safeLogged (s : State) (unit cause : Nat) : State :=
  logEvent (setAlert ((List.range 12).foldl (fun s k => modStk s k (fun x => { x with refresh := true })) s) aFAULT) 0x0069 6 7 0 noLink
    (packFields [(unit, 8), (cause, 8)])

theorem safeLogged_eq (s : State) (u c : Nat) : (safeLogged s u c).mb.pauseOf = s.mb.pauseOf ∧ ∃ dram smb flog mb comp free hub,
    safeLogged s u c = { s with dram := dram, smb := smb, flog := flog, mb := mb, comp := comp, free := free, hub := hub } := by
  obtain ⟨dram, rested⟩ := foldl_modStk_eq (fun x => { x with refresh := true }) (List.range 12) s
  rw [safeLogged, rested]
  exact ⟨logEvent_pauseOf .., _, _, _, _, _, _, _, logEvent_logOnly ..⟩

/-- FAULT# asserted, ARITH stopped by the phase, and an end to every entry to sleep and every wake (R394). -/
def safeSignals (s : State) : State :=
  { s with faultPin := true, boot := { s.boot with phase := .safe },
           slp := { s.slp with entering := none, ponr := false, waking := false, pend := false, cut := none } }

section
variable (on : powered s = true) (notSafe : s.boot.phase ≠ .safe)
include on notSafe

theorem enterSafe_of_powered (u c : Nat) : enterSafe s u c = refusePause (setOp (safeSignals (safeLogged s u c)) .halted) := by
  simp only [safeSignals, safeLogged]
  exact if_neg (by simp [on, notSafe])

/-- What an entry to the safe state changes, and what stands (R394). -/
theorem enterSafe_eq (u c : Nat) : ∃ dram smb flog mb comp free hub cl, enterSafe s u c =
    { safeSignals s with op := .halted, dram := dram, smb := smb, flog := flog, mb := mb, comp := comp, free := free, hub := hub, cl := cl } := by
  obtain ⟨-, _, _, _, _, _, _, _, logged⟩ := safeLogged_eq s u c
  obtain ⟨_, _, _, _, _, _, halted⟩ := setOp_eq (safeSignals (safeLogged s u c)) .halted
  obtain ⟨_, _, _, _, refused⟩ := refusePause_eq (setOp (safeSignals (safeLogged s u c)) .halted)
  rw [enterSafe_of_powered on notSafe, refused, halted, logged]
  exact ⟨_, _, _, _, _, _, _, _, rfl⟩

/-- Without a PAUSE to refuse, the clusters stand. -/
theorem enterSafe_cl (noPause : s.mb.pauseOf = none) (u c : Nat) : (enterSafe s u c).cl = s.cl := by
  obtain ⟨pause, _, _, _, _, _, _, _, logged⟩ := safeLogged_eq s u c
  obtain ⟨_, _, _, _, _, _, halted⟩ := setOp_eq (safeSignals (safeLogged s u c)) .halted
  have nothingOwed : (setOp (safeSignals (safeLogged s u c)) .halted).mb.pauseOf = none :=
    (setOp_pauseOf ..).trans (pause.trans noPause)
  rw [enterSafe_of_powered on notSafe, refusePause_of_none nothingOwed, halted, logged]
  rfl

end

/-! What leads to it -/

theorem execLockstepMismatch_of_unit {u : Nat} (on : powered s = true) (notSafe : s.boot.phase ≠ .safe) (unit : u < 3) :
    execLockstepMismatch u s = .next (enterSafe
      (if u = 1 then { s with su := { s.su with wkeys := [], fkeys := [], ckey := none } } else s) u sfLockstep) :=
  if_neg (by simp [on, notSafe, Nat.le_of_lt_succ unit])

/-- A sensor at its critical temperature (R430), whose reading changes power control and the alerts alone. -/
theorem execThermalThreshold_of_critical {n : Nat} {x w h c : Int} (on : powered s = true) (isSensor : n ≤ 18)
    (listed : thresholds n = some (w, h, c)) (critical : c * 256 ≤ x) :
    ∃ t, execThermalThreshold n x s = .next (enterSafe t uModule sfTemp) ∧ t.cl = s.cl ∧ t.boot = s.boot := by
  rw [execThermalThreshold, if_neg (by simp [on, isSensor])]
  simp only [listed, if_pos critical]
  exact ⟨_, rfl, by split <;> rfl, by split <;> rfl⟩

/-- The second restart within 60 s (R392). -/
theorem execSmRestart_of_second {x : Nat} (runs : hubRuns s = true) (up : s.boot.phase = .up) (last : s.mb.restartAt = some x)
    (soon : s.clk.aon < x + 3000000000) (c ms : Nat) (i : ImageCopy) : execSmRestart c ms i s = .next (enterSafe s uHub sfRestart) := by
  simp only [execSmRestart, runs, up, last, soon, bne_self_eq_false, Bool.not_true, Bool.or_self, Bool.false_eq_true, if_false, decide_true, if_true]

/-- The state once a monitor's trip of a section is noted, its unsent pieces are formed again, and it is logged with class `cls` (R360, R367). -/
def tripLogged (s : State) (sec : Nat) (k : Bool) (v : BitVec 32) (cls : Nat) : State :=
  logEvent (reformPieces (modSection s sec (fun x => { x with trips := recentTrips s sec ++ [s.clk.aon], tripped := true })) sec) 0x0061 cls 1 sec
    noLink (packFields [(sec, 2), (b2n k, 8), (v.toNat, 32)])

/-- The third trip within 1 s enters the safe state, an earlier one stops the section's clusters of the consist (R367). -/
theorem execMonitorTrip_of_running {sec : Nat} (isSection : sec < 4) (runs : arithRuns s = true) (k : Bool) (v : BitVec 32) :
    execMonitorTrip sec k v s =
      if 2 ≤ (recentTrips s sec).length then .next (enterSafe (tripLogged s sec k v 6) uSection sfMonitor)
      else .next (((consistLcs (tripLogged s sec k v 1)).filter (fun lc => secOf lc == sec)).foldl (fun s lc => stopWith s lc .monitor)
        (tripLogged s sec k v 1)) := by
  have third : 3 ≤ (recentTrips s sec ++ [s.clk.aon]).length ↔ 2 ≤ (recentTrips s sec).length := by simp
  rw [execMonitorTrip, if_neg (by simp [runs, isSection])]
  simp only [third, decide_eq_true_eq]
  split <;> rfl

end

/-- Settles O44: an entry changes what `enterSafe_eq` names, and the guard of each cause holds. -/
theorem safeStateEntryComplete : Obligations.SafeStateEntryComplete := by
  unfold Obligations.SafeStateEntryComplete
  refine ⟨?entry, ?lockstep, ?overvoltage, ?critical, ?secondRestart, ?thirdTrip⟩
  case entry =>
    intro s u c on notSafe
    obtain ⟨_, _, _, _, _, _, _, _, entered⟩ := enterSafe_eq on notSafe u c
    have clusters : s.mb.pauseOf = none → (enterSafe s u c).cl = s.cl := fun noPause => enterSafe_cl on notSafe noPause u c
    rw [entered] at clusters ⊢
    exact ⟨rfl, rfl, rfl, rfl, clusters, rfl, rfl, rfl, rfl, rfl, rfl⟩
  case lockstep =>
    intro s u on notSafe unit
    rw [exec_lockstepMismatch, execLockstepMismatch_of_unit on notSafe unit]
    rfl
  case overvoltage => exact fun s => exec_inputOvervoltage s
  case critical =>
    intro s n x w h c on isSensor listed critical _ _
    rw [exec_thermalThreshold]
    exact execThermalThreshold_of_critical on isSensor listed critical
  case secondRestart =>
    rintro s c ms i runs up ⟨x, last, soon⟩
    rw [exec_smRestart]
    exact execSmRestart_of_second runs up last soon c ms i
  case thirdTrip =>
    intro s sec k v isSection runs third
    rw [exec_monitorTrip, execMonitorTrip_of_running isSection runs, if_pos third]
    rfl

end Sys2Proof.Machine
end

section
/-! PROOFS. SIDING_MOVE, PACE_LAG, MONITOR_TRIP and its recovery, and the first restart of the stationmaster (R367, R370, R373, R382, R390, R392). -/

namespace Sys2Proof.Machine

theorem exec_sidingMove (lc cyc : Nat) (b : Option (Nat × Nat × Nat)) (s : State) : exec (.sidingMove lc cyc b) s = execSidingMove lc cyc b s := rfl
theorem exec_paceLag (lc : Nat) (s : State) : exec (.paceLag lc) s = execPaceLag lc s := rfl
theorem exec_monitorRecovered (sec : Nat) (s : State) : exec (.monitorRecovered sec) s = execMonitorRecovered sec s := rfl

section
variable {s : State} {lc : Nat}

/-! Siding moves (R370) -/

theorem execSidingMove_of_due {b : Option (Nat × Nat × Nat)} (run : s.op = .running) (inConsist : (cluster s lc).inConsist = true)
    (due : moveDueNow (cluster s lc) = true) (failed : (cluster s lc).seq.stop ≠ some .poison ∨ b.isSome = true)
    (admitted : admits s 7 (devCells (secOf lc) (spGet 0 s.prog.parts lc) false) = true) (cyc : Nat) :
    execSidingMove lc cyc b s = .next (moveCluster s lc cyc b) := by
  have guard : (s.op = .running && (cluster s lc).inConsist && moveDueNow (cluster s lc) &&
      ((cluster s lc).seq.stop ≠ some .poison || b.isSome)) = true := by
    simpa [run, inConsist, due] using failed
  rw [execSidingMove, if_pos guard, gate_of_admits admitted]

theorem moveCluster_of_noSiding (noSiding : freeSidings s (secOf lc) = []) (cyc : Nat) (b : Option (Nat × Nat × Nat)) :
    moveCluster s lc cyc b =
      stepFaulted (setLc { s with map := { s.map with fenced := setAdd s.map.fenced (68 * secOf lc + (lcEntry s lc).phys) } } lc
        (fun e => { e with mapped := false })) (cluster s lc).log.faultIdx := by
  simp only [moveCluster, noSiding]

/-! Pace monitors (R373) -/

theorem execPaceLag_of_lag (inConsist : (cluster s lc).inConsist = true) (run : s.op = .running)
    (lag : 26215 < (cluster s lc).log.lost.foldl (· + ·) 0) (first : (cluster s lc).log.lagPosted = false) :
    execPaceLag lc s = .next (modCluster (logEvent s 0x0062 7 0 lc noLink
      (packFields [(lc, 8), ((cluster s lc).log.lost.foldl (· + ·) 0, 32)])) lc
      (fun c => { c with log := { c.log with lagPosted := true, moveDue := c.log.moveDue || s.ckpt.policy.paceMove } })) := by
  rw [execPaceLag, if_pos ⟨inConsist, run, lag, by simp [first]⟩]
  dsimp only
  rw [logEvent_ckpt]

theorem execPaceLag_of_pace (pace : (cluster s lc).log.lost.foldl (· + ·) 0 ≤ 26215) : execPaceLag lc s = .next s :=
  if_neg fun ⟨_, _, lag, _⟩ => Nat.not_lt.2 pace lag

/-! The first restart within 60 s (R392) -/

/-- Hub SRAM loaded again, the service up, and the restart logged as an interruption (R382, R392). -/
def restartLogged (s : State) (c ms : Nat) : State :=
  let r := [0, 1, 2, 3].foldl (fun s r => modRing s r (fun x => { x with first := true }))
    { s with mb := { s.mb with restartAt := some s.clk.aon, serviceUp := true } }
  logEvent (noteInterruption { r with hub := { r.hub with err := [], wb := [] } }) 0x0068 7 4 0 noLink (packFields [(c, 8), (ms, 32)])

/-- The work that the restart ends: the checkpoint in progress, the long commands, and the checkpoints asked for (R392). -/
def workEnded (s : State) : State :=
  let t := faultLong (abandonCkpt s) (fun _ => false)
  { t with ckpt := { t.ckpt with nowSeqs := [], waitSeqs := [], verify := none } }

theorem execSmRestart_of_first (runs : hubRuns s = true) (up : s.boot.phase = .up)
    (late : ∀ x, s.mb.restartAt = some x → x + 3000000000 ≤ s.clk.aon) (c ms : Nat) (i : ImageCopy) :
    execSmRestart c ms i s =
      if !i.good then .next { s with mb := { s.mb with restartAt := some s.clk.aon, serviceUp := false } }
      else .next (askDecisions (workEnded (restartLogged s c ms))) := by
  rw [execSmRestart, if_neg (by simp [runs, up])]
  extract_lets again
  have first : again = false := by
    unfold again
    split
    · next x last => exact decide_eq_false (Nat.not_lt.2 (late x last))
    · rfl
  rw [if_neg (by simp [first])]
  dsimp only [workEnded, restartLogged]

end

/-- Settles O45: the guard of each command and event decides its branch, and the branch is the stated effect. -/
theorem recoveryCommandsComplete : Obligations.RecoveryCommandsComplete := by
  unfold Obligations.RecoveryCommandsComplete
  refine ⟨?move, ?noSiding, ?lag, ?pace, ?trip, ?recovered, ?restart, ?badFirmware⟩
  case move =>
    intro s lc cyc b run inConsist due failed admitted
    rw [exec_sidingMove]
    exact execSidingMove_of_due run inConsist due failed admitted cyc
  case noSiding => exact fun s lc cyc b noSiding => moveCluster_of_noSiding noSiding cyc b
  case lag =>
    intro s lc inConsist run lag first
    rw [exec_paceLag]
    exact ⟨_, execPaceLag_of_lag inConsist run lag first, rfl⟩
  case pace =>
    intro s lc pace
    rw [exec_paceLag]
    exact execPaceLag_of_pace pace
  case trip =>
    intro s sec k v isSection runs first
    rw [exec_monitorTrip, execMonitorTrip_of_running isSection runs, if_neg (Nat.not_le.2 first)]
    exact ⟨_, rfl, rfl⟩
  case recovered =>
    intro s sec tripped
    rw [exec_monitorRecovered]
    exact if_pos tripped
  case restart =>
    intro s c ms i runs up late good r
    rw [exec_smRestart, execSmRestart_of_first runs up late, if_neg (by simp [good])]
    exact ⟨workEnded (restartLogged s c ms), restartLogged s c ms, rfl, rfl, rfl⟩
  case badFirmware =>
    intro s c ms i runs up late bad
    rw [exec_smRestart, execSmRestart_of_first runs up late, if_pos (by simp [bad])]

end Sys2Proof.Machine
end

section
/-! PROOFS. What the checkpoint store does of its own (R397, R398, R404, R405, R406, R407), holds that are copied and the buddy's silence (R381). -/

namespace Sys2Proof.Machine

theorem exec_storePatrol (b n : Nat) (h : Bool) (s : State) : exec (.storePatrol b n h) s = execStorePatrol b n h s := rfl
theorem exec_blockRefresh (b t : Nat) (s : State) : exec (.blockRefresh b t) s = execBlockRefresh b t s := rfl
theorem exec_wearLevelMove (b t : Nat) (s : State) : exec (.wearLevelMove b t) s = execWearLevelMove b t s := rfl
theorem exec_grownBad (b t : Nat) (s : State) : exec (.grownBad b t) s = execGrownBad b t s := rfl
theorem exec_storeDieLost (ch d : Nat) (s : State) : exec (.storeDieLost ch d) s = execStoreDieLost ch d s := rfl
theorem exec_rebuildEnd (s : State) : exec .rebuildEnd s = execRebuildEnd s := rfl
theorem exec_ckptHoldRelease (n : Nat) (s : State) : exec (.ckptHoldRelease n) s = execCkptHoldRelease n s := rfl
theorem exec_buddyAckTimeout (s : State) : exec .buddyAckTimeout s = execBuddyAckTimeout s := rfl

section
variable {s : State} {b t : Nat}

/-! The patrol (R397, R405) -/

theorem holding_of_patrolNext {st : Store} (next : patrolNext st b = true) : setHas (holding st) b = true :=
  (Bool.and_eq_true_iff.1 next).1

/-- The state once the patrol has read block b: n is the step of decoding that its worst codeword took, soft (1) or stripe (2), and h tells whether a
hard decode corrected more than half of the limit. Each of these makes a refresh due (R397, R405). -/
def blockRead (s : State) (b n : Nat) (h : Bool) : State :=
  modStore (chargeNand s 5 (blockUsed s.store b)) (fun st =>
    modBlock { st with softN := satAdd 16 st.softN (b2n (decide (n = 1))), stripeN := satAdd 16 st.stripeN (b2n (decide (n = 2))),
                       patrolLeft := setDel st.patrolLeft b } b
      (fun k => { k with seen := (s.clk.aon : Int), due := k.due || decide (n = 1) || decide (n = 2) || h }))

theorem execStorePatrol_of_next (ready : s.store.ready = true) (runs : hubRuns s = true) (next : patrolNext s.store b = true)
    (admitted : admits s 5 nandCells = true) (n : Nat) (h : Bool) :
    execStorePatrol b n h s = .next (if 3 ≤ n then loseRecord (blockRead s b n h) b else blockRead s b n h) := by
  rw [execStorePatrol, if_neg (by simp [ready, runs, next])]
  exact gate_of_admits admitted _

theorem execStorePatrol_of_other (other : patrolNext s.store b = false) (n : Nat) (h : Bool) : execStorePatrol b n h s = .next s :=
  if_pos (.inr (.inr (by simp [other])))

/-! Refreshes and moves (R404, R405, R407) -/

section
variable (ready : s.store.ready = true) (runs : hubRuns s = true)
include ready runs

section
variable (good : (blockOf s.store b).bad = false) (due : refreshDue s b = true)
include good due

/-- A due block without a record is owed its erase. -/
theorem execBlockRefresh_of_empty (empty : setHas (holding s.store) b = false) :
    execBlockRefresh b t s = if moveWaits s b = true then .next s else gate s 5 nandCells (.next (eraseOne s b)) := by
  rw [execBlockRefresh, if_neg (by simp [ready, runs, good, due]), if_pos (by simp [empty])]

theorem execBlockRefresh_of_holding (holds : setHas (holding s.store) b = true) (lowest : lowestFree s.store t = true) (other : t ≠ b)
    (admitted : admits s 5 nandCells = true) : execBlockRefresh b t s = .next (moveBlock s b t) := by
  rw [execBlockRefresh, if_neg (by simp [ready, runs, good, due]), if_neg (by simp [holds]), if_pos ⟨lowest, other⟩, gate_of_admits admitted]

end

theorem execWearLevelMove_of_spread (holds : setHas (holding s.store) b = true) (least : (blockOf s.store b).erases = (wearSpread s.store).1)
    (spread : (wearSpread s.store).1 + 1000 < (wearSpread s.store).2) (free : blockFree s.store t = true)
    (worn : (blockOf s.store b).erases < (blockOf s.store t).erases) (admitted : admits s 5 nandCells = true) :
    execWearLevelMove b t s = .next (moveBlock s b t) := by
  have guard : (s.store.ready && hubRuns s && setHas (holding s.store) b && decide ((blockOf s.store b).erases = (wearSpread s.store).1) &&
      decide ((wearSpread s.store).1 + 1000 < (wearSpread s.store).2) && blockFree s.store t &&
      decide ((blockOf s.store b).erases < (blockOf s.store t).erases)) = true := by
    simp only [ready, runs, holds, decide_eq_true least, spread, free, worn, decide_true, Bool.and_self]
  rw [execWearLevelMove, if_pos guard, gate_of_admits admitted]

/-! Grown-bad blocks (R404, R406) -/

/-- The store with block b retired from service. -/
def retired (b : Nat) (st : Store) : Store :=
  modBlock { st with grownBad := satAdd 16 st.grownBad 1 } b (fun k => { k with bad := true, due := false })

section
variable (used : b < inService s.store) (good : (blockOf s.store b).bad = false)
include used good

theorem execGrownBad_of_empty (empty : setHas (holding s.store) b = false) :
    execGrownBad b t s = .next (storeWear (modStore s (retired b))) := by
  rw [execGrownBad, if_neg (by simp [ready, runs, used, good, empty]), if_neg (by simp [empty])]
  rfl

theorem execGrownBad_of_holding (holds : setHas (holding s.store) b = true) (lowest : lowestFree (retired b s.store) t = true)
    (admitted : admits s 5 nandCells = true) :
    execGrownBad b t s = .next (storeWear (modStore (chargeNand (chargeNand s 5 (blockUsed s.store b)) 5 (blockUsed s.store b))
      (fun st => moveRecords (retired b st) s.clk.aon b t))) := by
  rw [execGrownBad, if_neg (by simpa [ready, runs, used, good, retired] using fun _ => lowest), if_pos holds]
  exact gate_of_admits admitted _

end

/-! Lost dies and their rebuild (R398) -/

theorem execStoreDieLost_of_new {ch d : Nat} (isChannel : ch < 16) (isDie : d < channelDies s.store)
    (new : setHas s.store.dies (ch * 16 + d) = false) :
    execStoreDieLost ch d s = .next (logEvent
      (modStore (if s.store.degraded = true ∧ s.store.dies.any (fun x => decide (x / 16 ≠ ch)) = true then secondDie s else s)
        (fun st => { st with degraded := true, dies := setAdd st.dies (ch * 16 + d) }))
      0x0071 7 6 0 noLink (packFields [(ch, 32), (d, 32)])) := by
  rw [execStoreDieLost, if_neg (by simp [ready, runs, isChannel, isDie, new])]
  simp only [Bool.and_eq_true]

theorem execRebuildEnd_of_degraded (degraded : s.store.degraded = true) (admitted : admits s 5 nandCells = true) :
    ∃ n, execRebuildEnd s = .next (modStore (chargeCells { s with free := s.free + 1 } 5 nandCells (64 * n))
      (fun st => { st with degraded := false, dies := [] })) := by
  rw [execRebuildEnd, if_neg (by simp [ready, runs, degraded])]
  exact ⟨_, gate_of_admits admitted _⟩

end

theorem execBlockRefresh_of_early (early : refreshDue s b = false) : execBlockRefresh b t s = .next s :=
  if_pos (.inr (.inr (.inr (by simp [early]))))

theorem execWearLevelMove_of_even (even : (wearSpread s.store).2 ≤ (wearSpread s.store).1 + 1000) : execWearLevelMove b t s = .next s :=
  if_neg (by simp [Nat.not_lt.2 even])

theorem execRebuildEnd_of_whole (whole : s.store.degraded = false) : execRebuildEnd s = .next s :=
  if_pos (.inr (.inr (by simp [whole])))

/-! The buddy's silence (R381) -/

theorem execBuddyAckTimeout_of_waiting {c : Cut} (cur : s.ckpt.cur = some c) (on : c.budOn = true) (waits : c.out ≠ []) :
    execBuddyAckTimeout s = .next (advanceCkpt (postCkptFailed
      { s with ckpt := { s.ckpt with cur := some { c with budOn := false, out := [] } } } c.number 1 cfTIMEOUT)) := by
  simp only [execBuddyAckTimeout, cur, on, waits, modCut, modCkpt, ne_eq, not_false_eq_true, decide_true, Bool.and_self, if_true, Option.map_some]

end

/-- Settles O49: the guard of each command decides its branch, the budget admits it, and the branch is the stated effect. -/
theorem storeCommandsComplete : Obligations.StoreCommandsComplete := by
  unfold Obligations.StoreCommandsComplete
  refine ⟨?patrol, ?live, ?notNext, ?erase, ?refresh, ?early, ?wear, ?even, ?grownBad, ?dieLost, ?rebuild, ?whole, ?holdRelease, ?silence⟩
  case patrol =>
    intro s b n h ready runs next admitted u v
    rw [exec_storePatrol, execStorePatrol_of_next ready runs next admitted]
    refine ⟨fun read => ?_, fun unreadable => ?_⟩
    · rw [if_neg (Nat.not_le.2 read)]
      rfl
    · have counted : blockRead s b n h = v := rfl
      rw [if_pos unreadable, counted]
  case live => exact fun s b next => holding_of_patrolNext next
  case notNext =>
    intro s b n h other
    rw [exec_storePatrol]
    exact execStorePatrol_of_other other n h
  case erase =>
    intro s b t ready runs good due empty
    rw [exec_blockRefresh, execBlockRefresh_of_empty ready runs good due empty]
    refine ⟨fun waits => if_pos waits, fun moved admitted => ?_⟩
    rw [if_neg (by simp [moved]), gate_of_admits admitted]
    rfl
  case refresh =>
    intro s b t ready runs good due holds lowest other admitted
    rw [exec_blockRefresh]
    exact execBlockRefresh_of_holding ready runs good due holds lowest other admitted
  case early =>
    intro s b t early
    rw [exec_blockRefresh]
    exact execBlockRefresh_of_early early
  case wear =>
    intro s b t ready runs holds least spread free worn admitted
    rw [exec_wearLevelMove]
    exact execWearLevelMove_of_spread ready runs holds least spread free worn admitted
  case even =>
    intro s b t even
    rw [exec_wearLevelMove]
    exact execWearLevelMove_of_even even
  case grownBad =>
    intro s b t ready runs used good
    rw [exec_grownBad]
    exact ⟨execGrownBad_of_empty ready runs used good, execGrownBad_of_holding ready runs used good⟩
  case dieLost =>
    intro s ch d ready runs isChannel isDie new
    rw [exec_storeDieLost]
    exact execStoreDieLost_of_new ready runs isChannel isDie new
  case rebuild =>
    intro s ready runs degraded admitted
    rw [exec_rebuildEnd]
    exact execRebuildEnd_of_degraded ready runs degraded admitted
  case whole =>
    intro s whole
    rw [exec_rebuildEnd]
    exact execRebuildEnd_of_whole whole
  case holdRelease =>
    intro s n admitted
    rw [exec_ckptHoldRelease]
    exact gate_of_admits admitted _
  case silence =>
    intro s c cur on waits
    rw [exec_buddyAckTimeout]
    exact execBuddyAckTimeout_of_waiting cur on waits

end Sys2Proof.Machine
end

section
/-! PROOFS. What a received BUDDY frame does: pairing (R385), a peer's checkpoint (R401), READ_REQ and READ_DATA (R387), slot fetches (R391). -/

namespace Sys2Proof.Machine

theorem exec_buddyPairRx (p : Nat) (f : Frame) (s : State) : exec (.buddyPairRx p f) s = execBuddyPairRx p f s := rfl
theorem exec_buddyDataRx (p : Nat) (f : Frame) (s : State) : exec (.buddyDataRx p f) s = execBuddyDataRx p f s := rfl
theorem exec_buddyReadReqRx (p : Nat) (f : Frame) (s : State) : exec (.buddyReadReqRx p f) s = execBuddyReadReqRx p f s := rfl
theorem exec_buddyReadDataRx (p : Nat) (f : Frame) (s : State) : exec (.buddyReadDataRx p f) s = execBuddyReadDataRx p f s := rfl
theorem exec_buddySlotReqRx (p : Nat) (f : Frame) (s : State) : exec (.buddySlotReqRx p f) s = execBuddySlotReqRx p f s := rfl
theorem exec_buddySlotDataRx (p : Nat) (f : Frame) (s : State) : exec (.buddySlotDataRx p f) s = execBuddySlotDataRx p f s := rfl

/-! A BUDDY frame of the row's kind is a frame of its job, answered with the status of its effect -/

section
variable {s t u : State} {p j : Nat} {f : Frame} {kinds : List Nat} {b : BuddyHdr} {act : Nat → Nat → BuddyHdr → State → Nat × State}

/-- A frame whose effect answers it later is not answered now (R401). -/
theorem receiveJob_of_later {type : Nat} {pl : List Byte} {effect : Nat → Hdr → List Byte → State → Nat × State}
    (rx : Received s p f type pl j t) (later : effect j (hdrOf f) pl t = (ackLATER, u)) : receiveJob s p f type effect = flushEvents u := by
  rw [receiveJob_of_received rx, later]
  rfl

theorem buddyRx_of_received (rx : ReceivedBuddy s p f kinds b j t) : ∃ pl, Received s p f tBUDDY pl j t ∧ buddyHdr pl = b ∧
    buddyRx s p f kinds act = receiveJob s p f tBUDDY (fun j h pl s => act j h.src (buddyHdr pl) s) := by
  obtain ⟨pl, arrives, clear, carries, ofKind⟩ := rx
  refine ⟨pl, arrives, carries, ?_⟩
  simp only [buddyRx, clear, carries, ofKind, if_true]

theorem buddyRx_of_accepted (rx : ReceivedBuddy s p f kinds b j t) (effect : act j (hdrOf f).src b t = (ackACCEPTED, u)) :
    buddyRx s p f kinds act = accepted u p f j := by
  obtain ⟨pl, arrives, rfl, taken⟩ := buddyRx_of_received (act := act) rx
  exact taken.trans (receiveJob_of_accepted arrives effect)

theorem buddyRx_of_busy (rx : ReceivedBuddy s p f kinds b j t) (effect : act j (hdrOf f).src b t = (ackBUSY, u)) :
    buddyRx s p f kinds act = flushEvents (sendAck u p f ackBUSY) := by
  obtain ⟨pl, arrives, rfl, taken⟩ := buddyRx_of_received (act := act) rx
  exact taken.trans (receiveJob_of_busy arrives effect)

theorem buddyRx_of_later (rx : ReceivedBuddy s p f kinds b j t) (effect : act j (hdrOf f).src b t = (ackLATER, u)) :
    buddyRx s p f kinds act = flushEvents u := by
  obtain ⟨pl, arrives, rfl, taken⟩ := buddyRx_of_received (act := act) rx
  exact taken.trans (receiveJob_of_later arrives effect)

end

section
variable {s : State} {p j m : Nat} {b : BuddyHdr}

/-! Pairing (R385) -/

/-- The answer that a BUDDY_PAIR waits for completes it, unless both modules hang on one feed. -/
theorem takePair_of_answer {l : LongCmd} (waits : pairCmd s p j m = some l) (apart : feedsEqual s b = false) :
    takePair p j m b s =
      finish (modCkpt s (fun c => { c with buddy := some ⟨(memberMac s j m).getD 0, p, j, m, b.feed, b.feedUnknown⟩ })) l.m stOK 1
        (packFields [(b.feed, 4), (b2n b.feedUnknown, 1)]) := by
  simp only [takePair, waits, apart, Bool.false_eq_true, if_false]

/-- A request is answered, and the module served, while fewer than two others are; of one on the same feed, or served already, the answer is all. -/
theorem takePair_of_request (request : pairCmd s p j m = none) :
    takePair p j m b s =
      let mac := (memberMac s j m).getD 0
      let answer (s : State) : State := (sendBuddy s p j m bPAIR 0 0 0 []).2
      if feedsEqual s b = true ∨ s.ckpt.peers.contains mac = true then answer s
      else if s.ckpt.peers.length < 2 then answer (modCkpt s (fun c => { c with peers := c.peers ++ [mac] }))
      else s := by
  simp only [takePair, request]

/-! A peer's checkpoint (R401) -/

theorem takeCkptData_of_off {f : Frame} (off : buddyOff s = true) {x : Nat} (known : memberMac s j m = some x) :
    takeCkptData p f j m b s = (ackBUSY, noteAsked s m) := by
  simp only [takeCkptData, known, off, if_true]

/-! READ_REQ and READ_DATA (R387) -/

theorem serveRead_of_off (off : buddyOff s = true) : serveRead p j m b s = (ackBUSY, noteAsked s m) := if_pos off

/-- What is served is accepted, a copy or none. -/
theorem serveRead_of_on (on : buddyOff s = false) (admitted : admits s 4 nandCells = true) :
    serveRead p j m b s = (ackACCEPTED, (serveRead p j m b s).2) := by
  refine Prod.ext ?_ rfl
  rw [serveRead, if_neg (by simp [on]), if_neg (by simp [admitted])]
  split
  · rfl
  · dsimp only
    split <;> rfl

theorem takeReadData_of_waiting (buddy : s.ckpt.buddy.any (fun y => y.port == p && y.jslot == j && y.midx == m) = true)
    (waits : longOf s 0x0051 = true) (data : b.data ≠ []) :
    takeReadData p j m b s = modCkpt s (fun c => { c with read := spPut c.read b.off b.data }) :=
  if_pos (by simp [buddy, waits, data])

theorem takeReadData_of_noRestore (noRestore : longOf s 0x0051 = false) : takeReadData p j m b s = s :=
  if_neg (by simp [noRestore])

/-! SLOT_REQ (R391) -/

theorem serveSlot_of_entering (entering : s.slp.entering.isSome = true) : serveSlot p j m b s = (ackBUSY, noteAsked s m) := if_pos entering

section
variable (awake : s.slp.entering = none)
include awake

theorem serveSlot_of_invalid (noTensor : (vtOf s b.tensor).valid = false) : serveSlot p j m b s = (ackACCEPTED, s) := by
  rw [serveSlot, if_neg (by simp [awake]), if_pos (by simp [noTensor])]

/-- The current slot of a valid tensor is sent, and held while its frames wait for their ACKs. -/
theorem serveSlot_of_valid (valid : (vtOf s b.tensor).valid = true)
    (admitted : admits s 4 (devCells 4 (slotBase (vtOf s b.tensor) (vtOf s b.tensor).cur) false) = true) :
    serveSlot p j m b s =
      let v := vtOf s b.tensor
      let d := devRead (chargeDev s 4 4 (slotBase v v.cur) v.size false) (slotBase v v.cur) v.size
      let r := sendBuddyAll d.2 p j m bSLOTDATA bSLOTDATA v.ver b.tensor 0 d.1.data
      (ackACCEPTED, modCkpt r.2 (fun k =>
        { k with slotServe := k.slotServe.filter (fun x => framesOpen s x.port x.jslot x.midx x.seqs) ++ [⟨b.tensor, v.cur, p, j, m, r.1⟩] })) := by
  rw [serveSlot, if_neg (by simp [awake]), if_neg (by simp [valid]), if_neg (by simp [admitted])]

end

end

/-- Settles O58: a frame of the row's kind has its effect and is answered with its status, and each effect has its cases. -/
theorem buddyFramesTakeEffect : Obligations.BuddyFramesTakeEffect := by
  unfold Obligations.BuddyFramesTakeEffect
  refine ⟨?pair, ?answer, ?request, ?data, ?readReq, ?readData, ?slotReq, ?slotData⟩
  case pair =>
    intro s p f b j t rx
    rw [exec_buddyPairRx, execBuddyPairRx, buddyRx_of_accepted rx rfl]
  case answer =>
    intro s p j m b l waits apart
    exact takePair_of_answer waits apart
  case request =>
    intro s p j m b request mac answer
    have unserved (apart : feedsEqual s b = false) (new : s.ckpt.peers.contains mac = false) :
        ¬ (feedsEqual s b = true ∨ s.ckpt.peers.contains mac = true) := by
      rw [apart, new]
      decide
    rw [takePair_of_request request]
    refine ⟨fun answered => if_pos answered, fun apart new room => ?_, fun apart new full => ?_⟩
    · exact (if_neg (unserved apart new)).trans (if_pos room)
    · exact (if_neg (unserved apart new)).trans (if_neg (Nat.not_lt.2 full))
  case data =>
    intro s p f b j t rx
    rw [exec_buddyDataRx, execBuddyDataRx]
    refine ⟨fun off ⟨x, known⟩ => ?_, fun u accepts => ?_, fun u stores => ?_⟩
    · rw [buddyRx_of_busy rx (takeCkptData_of_off off known)]
      rfl
    · rw [buddyRx_of_accepted rx accepts]
    · rw [buddyRx_of_later rx stores]
  case readReq =>
    intro s p f b j t rx
    rw [exec_buddyReadReqRx, execBuddyReadReqRx]
    refine ⟨fun off => ?_, fun on admitted => ?_⟩
    · rw [buddyRx_of_busy rx (serveRead_of_off off)]
      rfl
    · rw [buddyRx_of_accepted rx (serveRead_of_on on admitted)]
  case readData =>
    intro s p f b j t rx
    rw [exec_buddyReadDataRx, execBuddyReadDataRx, buddyRx_of_accepted rx rfl]
    refine ⟨fun buddy waits data => ?_, fun noRestore => ?_⟩
    · rw [takeReadData_of_waiting buddy waits data]
      rfl
    · rw [takeReadData_of_noRestore noRestore]
  case slotReq =>
    intro s p f b j t rx
    rw [exec_buddySlotReqRx, execBuddySlotReqRx]
    refine ⟨fun entering => ?_, fun awake noTensor => ?_, fun awake valid admitted => ?_⟩
    · rw [buddyRx_of_busy rx (serveSlot_of_entering entering)]
      rfl
    · rw [buddyRx_of_accepted rx (serveSlot_of_invalid awake noTensor)]
    · rw [buddyRx_of_accepted rx (serveSlot_of_valid awake valid admitted)]
      rfl
  case slotData =>
    intro s p f b j t rx
    rw [exec_buddySlotDataRx, execBuddySlotDataRx, buddyRx_of_accepted rx rfl]

end Sys2Proof.Machine
end

section
/-! PROOFS. Check values and the units that form them (R410 to R412, Table 14-6). -/

namespace Sys2Proof.Machine

theorem exec_cvStart (u : Nat) (cfg : Word64) (s : State) : exec (.cvStart u cfg) s = execCvStart u cfg s := rfl
theorem exec_cvFeed (u : Nat) (l : List Byte) (s : State) : exec (.cvFeed u l) s = execCvFeed u l s := rfl
theorem exec_cvValueWrite (u : Nat) (v : Word64) (s : State) : exec (.cvValueWrite u v) s = execCvValueWrite u v s := rfl

/-! Reflection -/

theorem reflect_lt (w x : Nat) : reflect w x < 2 ^ w := by
  induction w generalizing x with
  | zero => exact Nat.one_pos
  | succ w ih =>
    have rest := ih (x / 2)
    have low : x % 2 ≤ 1 := by omega
    calc x % 2 * 2 ^ w + reflect w (x / 2) < x % 2 * 2 ^ w + 2 ^ w := by omega
      _ ≤ 1 * 2 ^ w + 2 ^ w := by gcongr
      _ = 2 ^ (w + 1) := by rw [pow_succ]; omega

/-- The lowest bit becomes the highest, and the others are reflected below it. -/
theorem testBit_reflect {w i : Nat} (inWidth : i < w) (x : Nat) : (reflect w x).testBit i = x.testBit (w - 1 - i) := by
  induction w generalizing x with
  | zero => exact absurd inWidth (Nat.not_lt_zero i)
  | succ w ih =>
    rw [reflect, Nat.mul_comm, Nat.testBit_two_pow_mul_add _ (reflect_lt ..)]
    split
    next below =>
      rw [ih below, Nat.testBit_div_two]
      congr 1
      omega
    next top =>
      have highest : i = w := by omega
      subst highest
      simp [Nat.testBit_zero]

/-! One byte is eight bit steps -/

theorem crcBit_refin {c : CrcCfg} (refin : c.refin = true) (rpoly v : Nat) :
    crcBit c rpoly v = if v % 2 = 1 then v / 2 ^^^ rpoly else v / 2 := if_pos refin

theorem crcBit_noRefin {c : CrcCfg} (plain : c.refin = false) (rpoly v : Nat) :
    crcBit c rpoly v = if v / 2 ^ (c.w - 1) % 2 = 1 then (2 * v ^^^ c.poly) % 2 ^ c.w else 2 * v % 2 ^ c.w := by
  rw [crcBit, if_neg (by simp [plain]), natBits, Nat.shiftRight_eq_div_pow, pow_one]

theorem crcBits_eq_iterate (c : CrcCfg) (rpoly n v : Nat) : crcBits c rpoly n v = (crcBit c rpoly)^[n] v := by
  induction n generalizing v with
  | zero => rfl
  | succ n ih => exact ih _

theorem crcBit_lt {c : CrcCfg} {rpoly v : Nat} (poly : rpoly < 2 ^ c.w) (value : v < 2 ^ c.w) : crcBit c rpoly v < 2 ^ c.w := by
  have half : v / 2 < 2 ^ c.w := Nat.lt_of_le_of_lt (Nat.div_le_self ..) value
  have cut (x : Nat) : x % 2 ^ c.w < 2 ^ c.w := Nat.mod_lt _ (Nat.two_pow_pos _)
  cases refin : c.refin with
  | true =>
    rw [crcBit_refin refin]
    split
    · exact Nat.xor_lt_two_pow half poly
    · exact half
  | false =>
    rw [crcBit_noRefin refin]
    split
    · exact cut _
    · exact cut _

/-- The running value with a byte exclusive-ored in, at the end that REFIN names (R410). -/
def crcEntered (c : CrcCfg) (v : Nat) (b : Byte) : Nat := if c.refin then v ^^^ b.toNat else v ^^^ b.toNat * 2 ^ (c.w - 8)

/-- The running value after i of the bit steps of a byte. -/
def crcAfter (c : CrcCfg) (v : Nat) (b : Byte) (i : Nat) : Nat := (crcBit c (reflect c.w c.poly))^[i] (crcEntered c v b)

theorem crcAfter_succ (c : CrcCfg) (v : Nat) (b : Byte) (i : Nat) :
    crcAfter c v b (i + 1) = crcBit c (reflect c.w c.poly) (crcAfter c v b i) := Function.iterate_succ_apply' ..

theorem crcAfter_eight (c : CrcCfg) (v : Nat) (b : Byte) : crcAfter c v b 8 = crcByte c v b := (crcBits_eq_iterate ..).symm

theorem crcEntered_lt {c : CrcCfg} {v : Nat} (wide : 8 ≤ c.w) (value : v < 2 ^ c.w) (b : Byte) : crcEntered c v b < 2 ^ c.w := by
  have split8 : 2 ^ c.w = 2 ^ 8 * 2 ^ (c.w - 8) := by rw [← pow_add, Nat.add_sub_cancel' wide]
  rw [crcEntered]
  split
  · exact Nat.xor_lt_two_pow value (Nat.lt_of_lt_of_le b.isLt (Nat.pow_le_pow_right (by decide) wide))
  · refine Nat.xor_lt_two_pow value ?_
    rw [split8]
    exact Nat.mul_lt_mul_of_pos_right b.isLt (Nat.two_pow_pos _)

theorem crcAfter_lt {c : CrcCfg} {v : Nat} (wide : 8 ≤ c.w) (value : v < 2 ^ c.w) (b : Byte) (i : Nat) : crcAfter c v b i < 2 ^ c.w := by
  induction i with
  | zero => exact crcEntered_lt wide value b
  | succ i ih => exact crcAfter_succ c v b i ▸ crcBit_lt (reflect_lt ..) ih

/-! The commands of a unit -/

theorem leBytes_eq_map (n x : Nat) : leBytes n x = (List.range n).map (fun i => BitVec.ofNat 8 (x / 256 ^ i)) := by
  induction n generalizing x with
  | zero => rfl
  | succ n ih =>
    rw [leBytes, ih, List.range_succ_eq_map, List.map_cons, List.map_map]
    simp [Function.comp_def, Nat.div_div_eq_div_mul, pow_succ']

section
variable {s : State} {u : Nat}

theorem cvMay_of_unit (unit : u < 8) (runs : hubRuns s = true) : cvMay s u = true := by simp [cvMay, unit, runs]

theorem cvFeedBytes_of_length {l : List Byte} (fits : l.length = 1 ∨ l.length = 2 ∨ l.length = 4 ∨ l.length = 8) (k : CvUnit) :
    cvFeedBytes l k = { k with value := crcFeed (cvCfg k) k.value l, fed := (k.fed + l.length) % 2 ^ 48 } := if_pos fits

theorem cvSetCfg_of_short {x : Nat} (short : natBits x 0 6 < 7) (k : CvUnit) : cvSetCfg x k = k := if_pos short

theorem cvSetCfg_of_wide {x : Nat} (wide : 7 ≤ natBits x 0 6) (k : CvUnit) : cvSetCfg x k =
    { k with widthM1 := natBits x 0 6, refin := natBits x 6 1 == 1, refout := natBits x 7 1 == 1, finv := natBits x 8 1 == 1
             value := if natBits x 9 1 = 1 then k.init else k.value, fed := if natBits x 9 1 = 1 then 0 else k.fed } := by
  rw [cvSetCfg, if_neg (Nat.not_lt.2 wide)]
  dsimp only
  split
  · rfl
  · rfl

end

/-- Settles O47: a unit below 8 takes the write while the hub runs, and a table's write reads back at its own key alone. -/
theorem checkUnitCommandsComplete : Obligations.CheckUnitCommandsComplete := by
  unfold Obligations.CheckUnitCommandsComplete
  refine ⟨?short, ?cfg, ?feed, ?value, ?closed, ?others⟩
  case short =>
    intro s u x unit runs short
    rw [exec_cvStart, execCvStart, if_pos (cvMay_of_unit unit runs), funext (cvSetCfg_of_short short)]
  case cfg =>
    intro s u x unit runs wide
    rw [exec_cvStart, execCvStart, if_pos (cvMay_of_unit unit runs), funext (cvSetCfg_of_wide wide)]
  case feed =>
    intro s u l unit runs fits
    rw [exec_cvFeed, execCvFeed, if_pos (cvMay_of_unit unit runs), funext (cvFeedBytes_of_length fits)]
    rfl
  case value =>
    intro s u v unit runs
    rw [exec_cvValueWrite, execCvValueWrite, if_pos (cvMay_of_unit unit runs)]
  case closed =>
    intro s u x v l closed
    have mayNot : ¬ cvMay s u = true := by
      rcases closed with noUnit | halted
      · simp [cvMay, Nat.not_lt.2 noUnit]
      · simp [cvMay, halted]
    exact ⟨if_neg mayNot, if_neg mayNot, if_neg mayNot⟩
  case others => exact fun s u f w wf other => spGet_spSet_ne wf other

/-- Settles O48: a byte enters by eight bit steps from the value it is exclusive-ored into, each step keeping the width. -/
theorem checkValueByteRule : Obligations.CheckValueByteRule := by
  unfold Obligations.CheckValueByteRule
  intro c v b l wide _ value _
  refine ⟨crcAfter_eight c v b ▸ crcAfter_lt wide value b 8, ?refin, ?plain, ?result, fun i inWidth => testBit_reflect inWidth v, reflect_lt .., rfl, rfl, rfl, ?feed, ?start⟩
  case refin =>
    intro refin
    refine ⟨crcAfter c v b, if_pos refin, crcAfter_eight c v b, fun i _ => ?_⟩
    rw [crcAfter_succ, crcBit_refin refin]
  case plain =>
    intro plain
    refine ⟨crcAfter c v b, if_neg (by simp [plain]), crcAfter_eight c v b, fun i _ => ?_⟩
    rw [crcAfter_succ, crcBit_noRefin plain]
  case result => simp only [crcResult, bne_iff_ne]
  case feed =>
    intro s u n unit runs fits x
    have length : (leBytes n x).length = n := length_leBytes n x
    rw [exec_cvFeed, execCvFeed, if_pos (cvMay_of_unit unit runs), funext (cvFeedBytes_of_length (by rwa [length])), length, leBytes_eq_map]
  case start =>
    intro k x wideCfg start
    rw [cvSetCfg_of_wide wideCfg, if_pos start]

end Sys2Proof.Machine
end

section
/-! PROOFS. The cycle that an empty queue lets pass (R415, R428, Table 15-1, Table 15-7), and the WAKE pins in it (R435). -/

namespace Sys2Proof.Machine

section
variable {s : State}

theorem step_of_empty (empty : s.pending = []) : step s = .next (tick s) := by
  rw [step, empty]

theorem tick_of_off (off : s.boot.phase = .off) : tick s = s := if_pos off

theorem tick_of_on (on : s.boot.phase ≠ .off) : tick s = settlePin (settlePin (switchClocks { s with clk := countCycle s }) 0) 1 := if_neg on

/-! A WAKE pin -/

theorem settlePin_of_still {k : Nat} (still : pinEdge s k = none) : settlePin s k = s := by
  rw [settlePin, still]

section
variable {k x : Nat} (left : pinEdge s k = some x)
include left

theorem settlePin_of_early (early : s.clk.aon < x + 50) : settlePin s k = s := by
  simp only [settlePin, left, if_pos early]

theorem settlePin_of_stood (stood : x + 50 ≤ s.clk.aon) : settlePin s k =
    setEdge (setPin (if pinWakes s k (!(tbit s.slp.pins k)) then wakeEvent s (k + 1) 0 false else s) k (!(tbit s.slp.pins k))) k none := by
  simp only [settlePin, left, if_neg (Nat.not_lt.2 stood)]

end

/-- No edge of a pin counts before it has stood for 50 cycles. -/
theorem settlePin_of_short {k : Nat} (short : ∀ x, pinEdge s k = some x → s.clk.aon < x + 50) : settlePin s k = s := by
  cases edge : pinEdge s k with
  | none => exact settlePin_of_still edge
  | some x => exact settlePin_of_early edge (short x edge)

/-- A cycle in which no pin settles counts and lets the clocks switch. -/
theorem tick_of_short (on : s.boot.phase ≠ .off) (short : ∀ p k, p < 2 → pinEdge s p = some k → s.clk.aon + 1 < k + 50) :
    tick s = switchClocks { s with clk := countCycle s } := by
  have unsettled (p : Nat) (pin : p < 2) : settlePin (switchClocks { s with clk := countCycle s }) p = switchClocks { s with clk := countCycle s } :=
    settlePin_of_short fun x edge => short p x pin edge
  rw [tick_of_on on, unsettled 0 (by decide), unsettled 1 (by decide)]

/-! The counters of a cycle -/

/-- Each counter advances by the cycles of its clock, when the clock runs. -/
theorem ite_add_eq (c : Bool) (x n : Nat) : (if c then x + n else x) = x + if c then n else 0 := by
  cases c <;> rfl

theorem countCycle_hub : (countCycle s).hub = s.clk.hub + if hubClock s then 40 else 0 := ite_add_eq ..
theorem countCycle_nand : (countCycle s).nand = s.clk.nand + if nandClock s then 36 else 0 := ite_add_eq ..
theorem countCycle_mem : (countCycle s).mem = s.clk.mem + if memClock s then 20 else 0 := ite_add_eq ..
theorem countCycle_host : (countCycle s).host = s.clk.host + if hostClock s then 20 else 0 := ite_add_eq ..
theorem countCycle_fabQ : (countCycle s).fabQ = s.clk.fabQ + if fabClock s then 125 else 0 := ite_add_eq ..

/-- The ARITH cycles of section k in an AON cycle (Table 15-7). -/
def arithCycles (s : State) (k : Nat) : Nat := if arithClock s then 24 - 3 * min (clockLevel s k) 7 else 0

theorem countCycle_arith : (countCycle s).arith0 = s.clk.arith0 + arithCycles s 0 ∧ (countCycle s).arith1 = s.clk.arith1 + arithCycles s 1 ∧
    (countCycle s).arith2 = s.clk.arith2 + arithCycles s 2 ∧ (countCycle s).arith3 = s.clk.arith3 + arithCycles s 3 :=
  ⟨ite_add_eq .., ite_add_eq .., ite_add_eq .., ite_add_eq ..⟩

end

/-- Settles O2: the cycle is `tick`, whose counters advance in `countCycle` and whose levels are `switchClocks`. -/
theorem emptyQueueLetsOneCyclePass : Obligations.EmptyQueueLetsOneCyclePass := by
  unfold Obligations.EmptyQueueLetsOneCyclePass
  intro s empty
  refine ⟨tick s, step_of_empty empty, tick_of_off, fun on short => ?_⟩
  rw [tick_of_short on short]
  refine ⟨rfl, rfl, countCycle_hub, countCycle_nand, countCycle_mem, countCycle_host, countCycle_fabQ, ?arith⟩
  case arith =>
    obtain ⟨section0, section1, section2, section3⟩ := countCycle_arith (s := s)
    intro x k after y before
    simp only [List.mem_cons, Prod.mk.injEq, List.not_mem_nil, or_false] at after before
    rcases after with ⟨rfl, rfl⟩ | ⟨rfl, rfl⟩ | ⟨rfl, rfl⟩ | ⟨rfl, rfl⟩
    · obtain rfl : y = s.clk.arith0 := by simpa using before
      exact section0
    · obtain rfl : y = s.clk.arith1 := by simpa using before
      exact section1
    · obtain rfl : y = s.clk.arith2 := by simpa using before
      exact section2
    · obtain rfl : y = s.clk.arith3 := by simpa using before
      exact section3

end Sys2Proof.Machine
end

section
/-! PROOFS. Wake events by their source, and the end of a wake (R323, R431, R433, R435, R464). -/

namespace Sys2Proof.Machine

theorem exec_wake (source port : Nat) (rising : Bool) (s : State) : exec (.wake source port rising) s = execWake source port rising s := rfl
theorem exec_whistle (port : Nat) (s : State) : exec (.whistle port) s = execWhistle port s := rfl
theorem exec_woke (w : WakeEnd) (s : State) : exec (.woke w) s = execWoke w s := rfl
theorem exec_warmRestart (s : State) : exec .warmRestart s = execWarmRestart s := rfl

section
variable {s : State}

/-! The pins -/

theorem execWake_pin {k : Nat} (pin : k < 2) (on : s.boot.phase ≠ .off) (port : Nat) (rising : Bool) :
    execWake (k + 1) port rising s = .next (noteEdge s k rising) := by
  rw [execWake, if_pos (by omega), if_neg on, Nat.add_sub_cancel]

section
variable {k : Nat} {high : Bool}

theorem noteEdge_of_back (back : tbit s.slp.pins k = high) : noteEdge s k high = setEdge s k none := if_pos back

theorem noteEdge_of_left (left : tbit s.slp.pins k ≠ high) (still : pinEdge s k = none) : noteEdge s k high = setEdge s k (some s.clk.aon) := by
  rw [noteEdge, if_neg left, if_neg (by simp [still])]

theorem noteEdge_of_leaving (left : tbit s.slp.pins k ≠ high) (leaving : pinEdge s k ≠ none) : noteEdge s k high = s := by
  rw [noteEdge, if_neg left, if_pos (Option.isSome_iff_ne_none.2 leaving)]

end

/-! Sleep as a source sees it -/

section
variable (noEntry : s.slp.entering = none)
include noEntry

theorem wakeEvent_of_asleep (sleeps : asleep s = true) (idle : s.slp.waking = false) (cause port : Nat) (early : Bool) :
    wakeEvent s cause port early = { s with slp := { s.slp with waking := true, cause := cause, port := port, latched := false } } := by
  rw [wakeEvent, if_neg (by simp [noEntry]), if_pos (by simp [sleeps, idle])]
  rfl

theorem sleepTarget_of_noEntry : sleepTarget s = if asleep s then some (s.op.code - 7) else none := by
  rw [sleepTarget, noEntry]

/-- SL1 and SL2 hear Turaist and the ports. -/
theorem sleepTarget_light (light : s.op = .sl1 ∨ s.op = .sl2) : asleep s = true ∧ (sleepTarget s == some 1 || sleepTarget s == some 2) = true := by
  rw [sleepTarget_of_noEntry noEntry]
  rcases light with sl1 | sl2
  · simp [asleep, sl1, OpState.code]
  · simp [asleep, sl2, OpState.code]

theorem sleepTarget_sl3 (sl3 : s.op = .sl3) : asleep s = true ∧ sleepTarget s = some 3 := by
  rw [sleepTarget_of_noEntry noEntry]
  simp [asleep, sl3, OpState.code]

theorem sleepTarget_ne_three (notSl3 : s.op ≠ .sl3) : sleepTarget s ≠ some 3 := by
  rw [sleepTarget_of_noEntry noEntry, asleep]
  cases op : s.op <;> simp [OpState.code]
  exact notSl3 op

theorem execWake_host (light : s.op = .sl1 ∨ s.op = .sl2) (idle : s.slp.waking = false) (enabled : wakeCfg s 6 = true) (port : Nat)
    (rising : Bool) :
    execWake 3 port rising s = .next { s with slp := { s.slp with waking := true, cause := 3, port := 0, latched := false } } := by
  obtain ⟨sleeps, hears⟩ := sleepTarget_light noEntry light
  rw [← wakeEvent_of_asleep noEntry sleeps idle 3 0 false]
  simp [execWake, hostActivity, enabled, hears]

theorem execWake_frame {port : Nat} (isPort : port < 8) (light : s.op = .sl1 ∨ s.op = .sl2) (idle : s.slp.waking = false)
    (enabled : wakeCfg s (7 + port) = true) (rising : Bool) :
    execWake 4 port rising s = .next { s with slp := { s.slp with waking := true, cause := 4, port := port, latched := false } } := by
  obtain ⟨sleeps, hears⟩ := sleepTarget_light noEntry light
  rw [← wakeEvent_of_asleep noEntry sleeps idle 4 port false]
  simp [execWake, frameActivity, isPort, enabled, hears]

theorem execWake_frame_sl3 (sl3 : s.op = .sl3) (port : Nat) (rising : Bool) : execWake 4 port rising s = .next s := by
  obtain ⟨-, deep⟩ := sleepTarget_sl3 noEntry sl3
  simp [execWake, frameActivity, deep]

theorem execWhistle_sl3 {port : Nat} (isPort : port < 8) (sl3 : s.op = .sl3) (idle : s.slp.waking = false)
    (enabled : wakeCfg s (15 + port) = true) :
    execWhistle port s = .next { s with slp := { s.slp with waking := true, cause := 5, port := port, latched := false } } := by
  obtain ⟨sleeps, deep⟩ := sleepTarget_sl3 noEntry sl3
  rw [execWhistle, if_pos ⟨deep, isPort, enabled⟩, wakeEvent_of_asleep noEntry sleeps idle]

theorem execWhistle_of_not_sl3 (notSl3 : s.op ≠ .sl3) (port : Nat) : execWhistle port s = .next s := by
  rw [execWhistle, if_neg fun ⟨deep, _⟩ => sleepTarget_ne_three noEntry notSl3 deep]

end

/-! The end of a wake -/

/-- The state that a wake from SL1 or SL2 returns to. -/
def wakeTo (s : State) : OpState := match s.slp.back with
  | 1 => .idle
  | 2 => .loaded
  | _ => .paused

/-- The wake is over: the correlation pairs, WAKE_US and WOKE (R431, R417). -/
def wakeEnded (us : Nat) (s : State) : State :=
  logEvent (sampleSet { s with slp := { s.slp with waking := false, wakeUs := us % 2 ^ 36 } }) 0x0050 7 7 0 noLink
    (packFields [(s.slp.cause, 8), (s.slp.port, 3)])

/-- What SL2 kept comes back: the banks, the stacks out of self-refresh, and the ARITH counters at 0 (R236, R249, log 28). -/
def sl2Restored (s : State) : State :=
  let a := ((List.range 256).filter (fun lc => (lcEntry s lc).mapped)).foldl (fun x lc => modMem x lc wakeBanks) s
  let b := (List.range 12).foldl (fun x k => modStk x k (fun y => { y with refresh := false })) a
  { b with clk := { b.clk with arith0 := 0, arith1 := 0, arith2 := 0, arith3 := 0 } }

section
variable (waking : s.slp.waking = true) (us : Nat) (fails : List (Nat × Nat × Nat × Nat))
include waking

theorem execWoke_sl1 (sl1 : s.op = .sl1) : execWoke ⟨us, fails⟩ s = .next (flushEvents (wakeEnded us (setOp s (wakeTo s)))) := by
  simp only [execWoke, waking, sl1, Bool.not_true, Bool.false_eq_true, if_false, if_true]
  rfl

theorem execWoke_sl2 (sl2 : s.op = .sl2) : execWoke ⟨us, fails⟩ s =
    .next (flushEvents (wakeEnded us ((firstFaults [] fails).foldl (fun x f => testFailed x 2 f) (setOp (sl2Restored s) (wakeTo s))))) := by
  simp only [execWoke, waking, sl2, Bool.not_true, Bool.false_eq_true, if_false, if_true, reduceCtorEq]
  rfl

theorem execWoke_idle (idle : s.op = .idle) (up : s.boot.phase = .up) : execWoke ⟨us, fails⟩ s = .next (flushEvents (wakeEnded us s)) := by
  simp only [execWoke, waking, idle, up, Bool.not_true, Bool.false_eq_true, if_false, if_true, reduceCtorEq, and_self]
  rfl

end

end

/-- Settles O33: each source is heard in its states, and a wake ends by the state it began in. -/
theorem wakeCompletes : Obligations.WakeCompletes := by
  unfold Obligations.WakeCompletes
  refine ⟨?edge, ?cycle, ?settles, ?host, ?frame, ?deaf, ?whistle, ?unheard, ?sl1, ?sl2, ?idle, ?warm⟩
  case edge =>
    intro s k rising pin on
    rw [exec_wake, execWake_pin pin on]
    refine ⟨fun back => ?_, fun left still => ?_, fun left leaving => ?_⟩
    · rw [noteEdge_of_back back]
    · rw [noteEdge_of_left left still]
    · rw [noteEdge_of_leaving left leaving]
  case cycle =>
    intro s empty on
    rw [step_of_empty empty, tick_of_on on]
  case settles =>
    intro s k x _ edge
    refine ⟨settlePin_of_early edge, fun stood noEntry sleeps idle wakes => ?_, fun stood noWake => ?_⟩
    · rw [settlePin_of_stood edge stood, if_pos wakes, wakeEvent_of_asleep noEntry sleeps idle]
    · rw [settlePin_of_stood edge stood, if_neg (by simp [noWake])]
  case host =>
    intro s p rising noEntry light idle enabled
    rw [exec_wake, execWake_host noEntry light idle enabled]
  case frame =>
    intro s p rising isPort noEntry light idle enabled
    rw [exec_wake, execWake_frame noEntry isPort light idle enabled]
  case deaf =>
    intro s p rising noEntry sl3
    rw [exec_wake, execWake_frame_sl3 noEntry sl3]
  case whistle =>
    intro s p isPort noEntry sl3 idle enabled
    rw [exec_whistle, execWhistle_sl3 noEntry isPort sl3 idle enabled]
  case unheard =>
    intro s p noEntry notSl3
    rw [exec_whistle, execWhistle_of_not_sl3 noEntry notSl3]
  case sl1 =>
    intro s us fails waking sl1
    rw [exec_woke]
    exact execWoke_sl1 waking us fails sl1
  case sl2 =>
    intro s us fails waking sl2
    rw [exec_woke]
    exact execWoke_sl2 waking us fails sl2
  case idle =>
    intro s us fails waking idle up
    rw [exec_woke]
    exact execWoke_idle waking us fails idle up
  case warm =>
    intro s sl3 waking
    rw [exec_warmRestart, execWarmRestart, if_pos ⟨sl3, waking⟩]

end Sys2Proof.Machine
end

section
/-! PROOFS. Entry to sleep: ENTER_SLEEP, the point of no return, and the end of entry (R431 to R434, R461, R471, Table 15-10, Table 15-11). -/

namespace Sys2Proof.Machine

theorem exec_enterSleep (m : Msg) (s : State) : exec (.enterSleep m) s = execEnterSleep m s := rfl
theorem exec_sleepPointOfNoReturn (s : State) : exec .sleepPointOfNoReturn s = execSleepPointOfNoReturn s := rfl
theorem exec_sleepEntryComplete (s : State) : exec .sleepEntryComplete s = execSleepEntryComplete s := rfl

section
variable {s t : State} {m : Msg}

/-- A legal target without a refuser begins the entry (R432). -/
theorem execEnterSleep_of_good (taken : TakenArgs s m 0x0031 [(0, 4)] t) (target : mb m 0 2 ≠ 0) (retain : mb m 2 2 ≠ 3)
    (retainSl2 : mb m 0 2 = 2 ∨ mb m 2 2 = 0) (mayLayUp : ¬ (mb m 0 2 = 3 ∧ (t.op = .paused ∨ t.dbg = 3)))
    (noRefuser : refuser t (mb m 0 2) (mb m 2 2) = none) :
    execEnterSleep m s = .next (flushEvents (beginEntry (ok t m 0 0) (mb m 0 2) (mb m 2 2))) := by
  have retainOk : ¬ (mb m 2 2 = 3 ∨ (mb m 0 2 ≠ 2 ∧ mb m 2 2 ≠ 0)) := by
    rintro (reserved | ⟨notSl2, set⟩)
    · exact retain reserved
    · exact retainSl2.elim notSl2 set
  rw [execEnterSleep, takeArgs_taken _ taken]
  simp only [if_neg target, if_neg retainOk, if_neg mayLayUp, noRefuser]

/-! The point of no return (R433) -/

/-- The point of no return of the entry is passed. -/
def passPonr (s : State) : State := { s with slp := { s.slp with ponr := true } }

/-- Of an OPEN module no record is laid up (R434). -/
theorem writeLaidUp_of_open (isOpen : s.sec = .sopen) :
    writeLaidUp s = { s with store := { s.store with laid := none, mapRec := some s.map } } := by
  simp only [writeLaidUp, isOpen, if_true]

section
variable {k r : Nat} (entering : s.slp.entering = some (k, r)) (early : s.slp.ponr = false)
include entering early

theorem execSleepPointOfNoReturn_of_refuser {x : Refuser} (refused : refuser s k r = some x) :
    execSleepPointOfNoReturn s = .next (abortEntry s x) := by
  simp only [execSleepPointOfNoReturn, entering, early, refused, Bool.false_eq_true, if_false]

section
variable (noRefuser : refuser s k r = none) (noCkpt : autoDue s = false ∨ s.slp.due = true)
include noRefuser noCkpt

theorem execSleepPointOfNoReturn_of_light (light : k = 1 ∨ k = 2) : execSleepPointOfNoReturn s = .next (latchPins (passPonr s)) := by
  have notSl3 : k ≠ 3 := by omega
  have notNew : (autoDue s && !s.slp.due) = false := by rcases noCkpt with notDue | old <;> simp [*]
  simp only [execSleepPointOfNoReturn, entering, early, noRefuser, notNew, ne_eq, notSl3, not_false_eq_true, Bool.false_eq_true, if_false, if_true]
  rfl

theorem execSleepPointOfNoReturn_of_open (deep : k = 3) (isOpen : s.sec = .sopen) (noCut : s.ckpt.cur = none) :
    execSleepPointOfNoReturn s = .next (latchPins (passPonr (writeLaidUp s))) := by
  subst deep
  have notNew : (autoDue s && !s.slp.due) = false := by rcases noCkpt with notDue | old <;> simp [*]
  simp only [execSleepPointOfNoReturn, entering, early, noRefuser, notNew, noCut, isOpen, ne_eq, not_true_eq_false, false_and,
    Bool.false_eq_true, if_false]
  rfl

end

end

/-! The end of entry -/

/-- The module stands in sleep state k, and a wake that was latched begins (R433). -/
def entryEnded (k : Nat) (s : State) : State :=
  { s with slp := { s.slp with last := 7 + k, entering := none, ponr := false, cut := none, pend := false, waking := s.slp.pend,
                               latched := s.slp.latched && s.slp.pend } }

/-- The banks as SL2 keeps them and the stacks in self-refresh (R237, Table 15-10). -/
def sl2Kept (s : State) (r : Nat) : State :=
  (List.range 12).foldl (fun x k => modStk x k (fun y => { y with refresh := true }))
    (((List.range 256).filter (fun lc => (lcEntry s lc).mapped)).foldl (fun x lc => modMem x lc (fun _ => stableBanks s (cluster s lc) r)) s)

section
variable {r : Nat} (passed : s.slp.ponr = true)
include passed

theorem execSleepEntryComplete_sl1 (entering : s.slp.entering = some (1, r)) : execSleepEntryComplete s = .next (entryEnded 1 (setOp s .sl1)) := by
  simp only [execSleepEntryComplete, entering, passed, Bool.not_true, Bool.false_eq_true, if_false, if_true]
  rfl

theorem execSleepEntryComplete_sl2 (entering : s.slp.entering = some (2, r)) :
    execSleepEntryComplete s = .next (entryEnded 2 (setOp (sl2Kept s r) .sl2)) := by
  simp only [execSleepEntryComplete, entering, passed, Bool.not_true, Bool.false_eq_true, if_false, if_true, OfNat.ofNat_ne_one]
  rfl

theorem execSleepEntryComplete_sl3 (entering : s.slp.entering = some (3, r)) : execSleepEntryComplete s = .next (entryEnded 3 (layUp s)) := by
  simp only [execSleepEntryComplete, entering, passed, Bool.not_true, Bool.false_eq_true, if_false, OfNat.ofNat_ne_one, Nat.reduceEqDiff]
  rfl

end

/-- A change of the debug level logs and posts, and changes nothing else (R454). -/
theorem setDbg_logOnly (s : State) (l : Nat) : LogOnly { s with dbg := l } (setDbg s l) := by
  unfold setDbg
  split
  next same => exact same ▸ .refl s
  next => exact logEvent_logOnly ..

end

/-- Settles O32: the guards of each of the three steps hold, and what is laid up is a reset that keeps AON. -/
theorem sleepEntryCompletes : Obligations.SleepEntryCompletes := by
  unfold Obligations.SleepEntryCompletes
  refine ⟨?enter, ?light, ?openModule, ?refused, ?sl1, ?sl2, ?sl3⟩
  case enter =>
    intro s m t taken target retain retainSl2 mayLayUp noRefuser
    rw [exec_enterSleep, execEnterSleep_of_good taken target retain retainSl2 mayLayUp noRefuser]
  case light =>
    intro s k r light entering early noRefuser noCkpt
    rw [exec_sleepPointOfNoReturn, execSleepPointOfNoReturn_of_light entering early noRefuser noCkpt light]
    rfl
  case openModule =>
    intro s r entering early noRefuser noCkpt isOpen noCut
    rw [exec_sleepPointOfNoReturn, execSleepPointOfNoReturn_of_open entering early noRefuser noCkpt rfl isOpen noCut, writeLaidUp_of_open isOpen]
    rfl
  case refused =>
    intro s k r x entering early refused
    rw [exec_sleepPointOfNoReturn, execSleepPointOfNoReturn_of_refuser entering early refused]
  case sl1 =>
    intro s r entering passed
    rw [exec_sleepEntryComplete]
    exact execSleepEntryComplete_sl1 passed entering
  case sl2 =>
    intro s r entering passed
    rw [exec_sleepEntryComplete]
    exact execSleepEntryComplete_sl2 passed entering
  case sl3 =>
    intro s r entering passed
    obtain ⟨_, _, _, _, _, _, moved⟩ := setOp_eq (setDbg s 0) .sl3
    rw [exec_sleepEntryComplete, execSleepEntryComplete_sl3 passed entering, layUp, moved, setDbg_logOnly]
    exact ⟨_, rfl, rfl, rfl, rfl, rfl, rfl, rfl, rfl, rfl, rfl, rfl, rfl⟩

end Sys2Proof.Machine
end

section
/-! PROOFS. SET_PERF, SET_WAKE, BUDGET_SET and FABRIC_CONFIG once their message is taken (R288, R324, R424, R427, R435). -/

namespace Sys2Proof.Machine

theorem exec_setPerf (m : Msg) (s : State) : exec (.setPerf m) s = execSetPerf m s := rfl
theorem exec_setWake (m : Msg) (s : State) : exec (.setWake m) s = execSetWake m s := rfl
theorem exec_budgetSet (m : Msg) (s : State) : exec (.budgetSet m) s = execBudgetSet m s := rfl
theorem exec_fabricConfig (m : Msg) (s : State) : exec (.fabricConfig m) s = execFabricConfig m s := rfl

/-- Entering a value leaves what is found under every other key. -/
theorem find?_spPut_ne {α : Type} (t : Sparse α) {a b : Nat} (other : b ≠ a) (x : α) :
    (spPut t a x).find? (fun e => e.1 == b) = t.find? (fun e => e.1 == b) := by
  have skip (y : α) (r : Sparse α) : ((a, y) :: r).find? (fun e => e.1 == b) = r.find? (fun e => e.1 == b) :=
    List.find?_cons_of_neg (by simpa using other.symm)
  induction t with
  | nil => exact skip x []
  | cons e r ih =>
    obtain ⟨k, v⟩ := e
    rw [spPut]
    split
    next same =>
      subst same
      rw [skip, skip]
    next =>
      split
      · rw [skip]
      · rw [List.find?_cons, List.find?_cons, ih]

section
variable {s t : State} {m : Msg}

/-- The sum with activity a at some budget does not depend on the budget that a has. -/
theorem budgetSum_spPut (k a b : Nat) :
    budgetSum { t with tt := { t.tt with budgets := spPut t.tt.budgets (16 * k + a) b } } k a b = budgetSum t k a b := by
  refine List.foldl_ext _ _ 0 fun n x _ => congrArg (n + ·) ?_
  split
  · rfl
  next other => rw [ttBudget, ttBudget, find?_spPut_ne _ (by omega)]

/-- A budget of a listed activity, at or above its minimum and within the capacity, is set (R424). -/
theorem execBudgetSet_of_good (taken : TakenArgs s m 0x0070 [(0, 8), (32, 32)] t) (kind : mb m 0 4 ≤ 5) (activity : mb m 4 4 ≤ 8)
    (listed : (ttPermille (mb m 0 4) (mb m 4 4)).isSome = true) (least : ttMin (mb m 0 4) (mb m 4 4) ≤ mb m 32 32)
    (fits : budgetSum t (mb m 0 4) (mb m 4 4) (mb m 32 32) ≤ ttCapacity (mb m 0 4) * 256) :
    execBudgetSet m s = .next (flushEvents (ok
      { t with tt := { t.tt with budgets := spPut t.tt.budgets (16 * mb m 0 4 + mb m 4 4) (mb m 32 32) } } m 4
      (packFields [(ttCapacity (mb m 0 4) * 256 - budgetSum t (mb m 0 4) (mb m 4 4) (mb m 32 32), 32)]))) := by
  have named : ¬ (5 < mb m 0 4 ∨ 8 < mb m 4 4 ∨ (ttPermille (mb m 0 4) (mb m 4 4)).isNone = true) := by
    simp [Nat.not_lt.2 kind, Nat.not_lt.2 activity, Option.ne_none_iff_isSome.2 listed]
  have inRange : ¬ (mb m 32 32 < ttMin (mb m 0 4) (mb m 4 4) ∨ ttCapacity (mb m 0 4) * 256 < budgetSum t (mb m 0 4) (mb m 4 4) (mb m 32 32)) := by
    omega
  rw [execBudgetSet, takeArgs_taken _ taken]
  simp only [if_neg named, if_neg inRange, budgetSum_spPut]

end

/-- Settles O14: each command is taken, its arguments pass their checks, and it writes the registers that its body names. -/
theorem levelAndBudgetCommandsComplete : Obligations.LevelAndBudgetCommandsComplete := by
  unfold Obligations.LevelAndBudgetCommandsComplete
  refine ⟨?perf, ?wake, ?budget, ?fabric⟩
  case perf =>
    intro s m t taken u v
    rw [exec_setPerf, execSetPerf, takeArgs_taken _ taken]
    rfl
  case wake =>
    intro s m t taken
    rw [exec_setWake, execSetWake, takeArgs_taken _ taken]
  case budget =>
    intro s m t taken kind activity listed least fits
    rw [exec_budgetSet, execBudgetSet_of_good taken kind activity listed least fits]
  case fabric =>
    intro s m t taken unicast
    rw [exec_fabricConfig, execFabricConfig, takeArgs_taken _ taken]
    simp only [unicast, ne_eq, not_true_eq_false, if_false]
    rfl

end Sys2Proof.Machine
end

section
/-! PROOFS. ASSIGN_TENANT, SEAL, DEBUG_OPEN and DEBUG_CLOSE once their message is taken (R448, R449, R454). -/

namespace Sys2Proof.Machine

theorem exec_assignTenant (m : Msg) (s : State) : exec (.assignTenant m) s = execAssignTenant m s := rfl
theorem exec_seal (m : Msg) (s : State) : exec (.seal m) s = execSeal m s := rfl
theorem exec_debugOpen (m : Msg) (s : State) : exec (.debugOpen m) s = execDebugOpen m s := rfl
theorem exec_debugClose (m : Msg) (s : State) : exec (.debugClose m) s = execDebugClose m s := rfl

section
variable {s t : State} {m : Msg}

/-- The tenant of the argument block with its policy, and nothing of one before it (R448). -/
def boundTenant (l : List Byte) (u : Security) : Security :=
  { u with tenant := byteField l 0 4, policy := l.drop 1028, wdigFull := false, wkeys := [], fkeys := [], ckey := none, wdig := [], entries := [],
           reports := [] }

/-- A block of 1,540 bytes with right fields binds its tenant when the policy is signed (R448). -/
theorem execAssignTenant_of_good {l : List Byte} (block : TakenBlock s m m 0x0010 l t) (length : l.length = 1540)
    (notDbg3 : ∀ t0, judge s m = .inr t0 → t0.dbg ≠ 3) (good : assignBad l = none) (mayDebug : t.dbg ≤ natBits (byteField (l.drop 1028) 0 4) 16 2) :
    execAssignTenant m s = .next (flushEvents (if policySigned (l.drop 1028) then
      ok (changeState { t with win := sparseOf .reset ((List.range 64).map (fun k => winParse (byteField l (4 + 16 * k) 16)))
                               su := boundTenant l t.su } t.op .assigned) m 0 0
      else notAuth t m)) := by
  obtain ⟨t0, taken, read, plain⟩ := block
  rw [execAssignTenant, takeCommand_taken _ taken, if_neg (notDbg3 t0 taken.2.2), blockExact_of_length read length]
  dsimp only
  cases signed : policySigned (l.drop 1028) with
  | false => rw [if_pos (by rfl), if_neg (by decide)]
  | true =>
    rw [if_neg (by decide), if_pos rfl, checkBody_none _ plain]
    simp only [good, if_neg (Nat.not_lt.2 mayDebug)]
    rfl

/-- A level at or above the present one that needs no scrub is granted at once (R454). -/
theorem execDebugOpen_of_granted (taken : TakenArgs s m 0x0080 [(0, 3)] t) (level : dbLevel m = 1 ∨ dbLevel m = 2) (rises : t.dbg ≤ dbLevel m)
    (noRelease : longOf t 0x0012 = false) (granted : debugOutcome t (dbLevel m) (dbScrubOk m) = some false) :
    execDebugOpen m s = .next (flushEvents (ok (setDbg t (dbLevel m)) m 1 (dbLevel m))) := by
  have notUnlock : dbLevel m ≠ 3 := by omega
  have legal : ¬ (dbLevel m = 0 ∨ dbLevel m < t.dbg) := by omega
  rw [execDebugOpen, takeCommand_taken _ taken.1, if_pos notUnlock, checkBody_none _ taken.2, if_neg legal]
  simp only [openDebug, noRelease, granted, Bool.false_eq_true, if_false]

end

/-- Settles O15: each command is taken, and the checks before its effect pass. -/
theorem tenancyCommandsComplete : Obligations.TenancyCommandsComplete := by
  unfold Obligations.TenancyCommandsComplete
  refine ⟨?assign, ?sealing, ?debugOpen, ?debugClose⟩
  case assign =>
    intro s m l t block length notDbg3 good mayDebug
    rw [exec_assignTenant]
    exact execAssignTenant_of_good block length notDbg3 good mayDebug
  case sealing =>
    intro s m t taken mayDebug
    rw [exec_seal, execSeal, takeArgs_taken _ taken, if_neg (Nat.not_lt.2 mayDebug)]
  case debugOpen =>
    intro s m t taken level rises noRelease granted
    rw [exec_debugOpen, execDebugOpen_of_granted taken level rises noRelease granted]
  case debugClose =>
    intro s m t taken notDbg3
    rw [exec_debugClose, execDebugClose, takeArgs_taken _ taken, if_neg notDbg3]

end Sys2Proof.Machine
end

section
/-! PROOFS. Temperature and power readings, correlation samples and the periods of timetables (R373, R417, R419, R421, R429, R430). -/

namespace Sys2Proof.Machine

theorem exec_thermalCeilingStep (n : Nat) (s : State) : exec (.thermalCeilingStep n) s = execThermalCeilingStep n s := rfl
theorem exec_powerSample (r : PowerReading) (s : State) : exec (.powerSample r) s = execPowerSample r s := rfl
theorem exec_timeSampleSet (s : State) : exec .timeSampleSet s = execTimeSampleSet s := rfl
theorem exec_timetablePeriod (kind inst : Nat) (s : State) : exec (.timetablePeriod kind inst) s = execTimetablePeriod kind inst s := rfl

/-! Folds over a list of keys -/

/-- Writing a list of keys into a table. -/
theorem spGet_foldl_spSet {α : Type} [DecidableEq α] {d : α} (f : Nat → α) (l : List Nat) {t : Sparse α} (wf : spWf d t = true) (a : Nat) :
    spGet d (l.foldl (fun t k => spSet d t k (f k)) t) a = if a ∈ l then f a else spGet d t a := by
  induction l generalizing t with
  | nil => rfl
  | cons k l ih =>
    rw [List.foldl_cons, ih (spSet_wf wf), spGet_spSet wf]
    by_cases later : a ∈ l
    · simp [later]
    · by_cases now : a = k
      · simp [now]
      · simp [later, now]

/-- A mask of distinct bits has these bits. -/
theorem testBit_foldl_add_two_pow {l : List Nat} (distinct : l.Nodup) {x : Nat} (clear : ∀ d, d ∈ l → x.testBit d = false) (n : Nat) :
    (l.foldl (fun x d => x + 2 ^ d) x).testBit n = (x.testBit n || decide (n ∈ l)) := by
  induction l generalizing x with
  | nil => simp
  | cons d l ih =>
    obtain ⟨new, rest⟩ := List.nodup_cons.1 distinct
    have bit : x.testBit d = false := clear d List.mem_cons_self
    have stillClear (k : Nat) (hk : k ∈ l) : (x + 2 ^ d).testBit k = false := by
      rw [testBit_add_two_pow bit (ne_of_mem_of_not_mem hk new)]
      exact clear k (List.mem_cons_of_mem d hk)
    rw [List.foldl_cons, ih rest stillClear]
    by_cases same : n = d
    · subst same
      rw [Nat.add_comm, Nat.testBit_two_pow_add_eq]
      simp [bit]
    · rw [testBit_add_two_pow bit same]
      simp [same]

section
variable {s : State}

/-! Sample sets (R417) -/

/-- The domains that a sample set captures. -/
def sampledDomains (s : State) : List Nat := (List.range 28).filter (domRuns s)

theorem mem_sampledDomains {d : Nat} : d ∈ sampledDomains s ↔ d < 28 ∧ domRuns s d = true := by
  rw [sampledDomains, List.mem_filter, List.mem_range]

theorem sampleSet_pair (wf : spWf (0, 0) s.time.pairs = true) (d : Nat) : spGet (0, 0) (sampleSet s).time.pairs d =
    if d ∈ sampledDomains s then (s.clk.aon, domCount s d) else spGet (0, 0) s.time.pairs d :=
  spGet_foldl_spSet (fun d => (s.clk.aon, domCount s d)) (sampledDomains s) wf d

theorem sampleSet_run (d : Nat) : tbit (sampleSet s).time.run d = decide (d ∈ sampledDomains s) := by
  rw [tbit_eq_testBit]
  refine (testBit_foldl_add_two_pow (List.nodup_range.filter _) (fun k _ => Nat.zero_testBit k) d).trans ?_
  rw [Nat.zero_testBit, Bool.false_or]
  rfl

/-! Sensors (R430) -/

/-- A reading below the critical temperature is taken, and marks the sensor hot and warm by its thresholds (R430). -/
theorem execThermalThreshold_of_below {n : Nat} {x w h c : Int} (on : powered s = true) (isSensor : n ≤ 18) (listed : thresholds n = some (w, h, c))
    (below : x < c * 256) :
    let read := { s with pw := { s.pw with temps := spSet 0 s.pw.temps n x
                                           hot := if h * 256 < x then setAdd s.pw.hot n else setDel s.pw.hot n
                                           warm := if w * 256 ≤ x then setAdd s.pw.warm n else setDel s.pw.warm n } }
    execThermalThreshold n x s = .next (if w * 256 ≤ x then setAlert read aTEMP else read) := by
  intro read
  rw [execThermalThreshold, if_neg (by simp [on, isSensor])]
  simp only [listed, if_neg (Int.not_le.2 below), decide_eq_true_eq]
  rfl

/-! Periods of a timetable (R419, R421) -/

/-- A period of unit i of kind k has begun: its activities are refilled, and what waited is served again. -/
def periodBegun (s : State) (k i : Nat) : State :=
  let last := spGet 0 s.tt.periods (256 * k + i)
  let u := { s with tt := { s.tt with periods := spSet 0 s.tt.periods (256 * k + i) (if last < ttPeriod s k i then last + 1 else ttPeriod s k i) } }
  let v := [0, 1, 2, 3, 4, 5, 7, 8].foldl (fun x a => if (ttPermille k a).isSome then ttRefill x k i a else x) u
  serveWaiting (if k = 2 then flushPort v i else if k < 2 ∧ portsServe v then advanceAll v else v)

theorem execTimetablePeriod_of_same {k i : Nat} (same : ttPeriod s k i = spGet 0 s.tt.periods (256 * k + i)) :
    execTimetablePeriod k i s = .next s := if_pos (.inr (.inr same))

theorem execTimetablePeriod_of_new {k i : Nat} (inst : i < ttInstances k) (on : powered s = true)
    (new : ttPeriod s k i ≠ spGet 0 s.tt.periods (256 * k + i)) :
    execTimetablePeriod k i s = .next (if k = 3 ∧ (cluster (periodBegun s k i) i).inConsist then
      modCluster (periodBegun s k i) i (fun c => { c with log := { c.log with lost := (0 :: c.log.lost).take 64 } }) else periodBegun s k i) := by
  have due : ¬ (ttInstances k ≤ i ∨ (!powered s) = true ∨ ttPeriod s k i = spGet 0 s.tt.periods (256 * k + i)) := by
    simp [Nat.not_le.2 inst, on, new]
  rw [execTimetablePeriod, if_neg due]
  rfl

end

/-- Settles O46: the guard of each command holds, a sample set captures exactly the running domains, and a new period refills its unit. -/
theorem powerAndTimeCommandsComplete : Obligations.PowerAndTimeCommandsComplete := by
  unfold Obligations.PowerAndTimeCommandsComplete
  refine ⟨?threshold, ?step, ?power, ?sample, ?same, ?new⟩
  case threshold =>
    intro s n x w h c on isSensor listed below
    rw [exec_thermalThreshold, execThermalThreshold_of_below on isSensor listed below]
    refine ⟨_, rfl, ?_⟩
    split
    next warm => exact ⟨rfl, rfl, rfl, rfl, rfl, fun cool => absurd warm (Int.not_le.2 cool), fun _ => ⟨_, rfl⟩⟩
    next cool => exact ⟨rfl, rfl, rfl, rfl, rfl, fun _ => rfl, fun warm => absurd warm cool⟩
  case step =>
    intro s n on isSensor
    rw [exec_thermalCeilingStep, execThermalCeilingStep, if_pos (by simp [on, isSensor])]
    exact ⟨_, rfl, rfl⟩
  case power =>
    intro s r on
    rw [exec_powerSample, execPowerSample, if_pos on]
    exact ⟨_, rfl, rfl⟩
  case sample =>
    intro s up runs wf
    rw [exec_timeSampleSet, execTimeSampleSet, if_pos ⟨up, runs⟩]
    refine ⟨_, rfl, rfl, rfl, fun d domain running => ?_, fun d domain stopped => ?_⟩
    · have captured : d ∈ sampledDomains s := mem_sampledDomains.2 ⟨domain, running⟩
      rw [sampleSet_pair wf, sampleSet_run, if_pos captured]
      exact ⟨rfl, decide_eq_true captured⟩
    · have stands : d ∉ sampledDomains s := fun captured => by simp [(mem_sampledDomains.1 captured).2] at stopped
      rw [sampleSet_pair wf, sampleSet_run, if_neg stands]
      exact ⟨rfl, decide_eq_false stands⟩
  case same =>
    intro s k i _ _ same
    rw [exec_timetablePeriod, execTimetablePeriod_of_same same]
  case new =>
    intro s k i inst on new last u v w
    rw [exec_timetablePeriod, execTimetablePeriod_of_new inst on new]
    refine ⟨fun plain => ?_, fun isCluster inConsist => ?_⟩
    · rw [if_neg (by exact plain)]
      rfl
    · rw [if_pos (by exact ⟨isCluster, inConsist⟩)]
      rfl

end Sys2Proof.Machine
end

section
/-! PROOFS. The instructions of the test access port (R456, R459, R460, Table 16-10). -/

namespace Sys2Proof.Machine

theorem exec_idcode (s : State) : exec .idcode s = execIdcode s := rfl
theorem exec_dbgStatus (s : State) : exec .dbgStatus s = execDbgStatus s := rfl
theorem exec_bypass (op : BitVec 8) (s : State) : exec (.bypass op) s = execBypass op s := rfl
theorem exec_extest (s : State) : exec .extest s = execExtest s := rfl
theorem exec_samplePreload (l : List Bool) (s : State) : exec (.samplePreload l) s = execSamplePreload l s := rfl
theorem exec_dbgHalt (s : State) : exec .dbgHalt s = execDbgHalt s := rfl
theorem exec_vendorAnalysis (op : BitVec 8) (s : State) : exec (.vendorAnalysis op) s = execVendorAnalysis op s := rfl
theorem exec_dbgAccess (dr : BitVec 128) (s : State) : exec (.dbgAccess dr) s = execDbgAccess dr s := rfl

section
variable {s : State}

theorem execBypass_of_unlisted {op : BitVec 8} (unlisted : tapListed op.toNat = false) : execBypass op s = tapWhen s true (fun s => tapSelect s 0xFF 0) :=
  if_neg (by simp [unlisted])

theorem execVendorAnalysis_of_vendor {op : BitVec 8} (least : 0x20 ≤ op.toNat) (most : op.toNat ≤ 0x3F) : execVendorAnalysis op s =
    tapWhen s (tapFull s && s.dbg == 3) (fun s => tapSelect (drawFree 0 (2 ^ 128 - 1) s).2 op.toNat (drawFree 0 (2 ^ 128 - 1) s).1) :=
  if_neg (by omega)

/-- EXTEST acts in OPEN and IDLE alone. -/
theorem extest_permitted_iff : (tapFull s && s.sec == .sopen && s.op == .idle) = true ↔ s.op = .idle ∧ s.sec = .sopen := by
  constructor
  · intro permitted
    simp only [Bool.and_eq_true, beq_iff_eq] at permitted
    exact ⟨permitted.2, permitted.1.2⟩
  · rintro ⟨idle, isOpen⟩
    simp [tapFull, idle, isOpen]

section
variable (on : s.boot.phase ≠ .off)
include on

theorem tapRuns_of_on : tapRuns s = true := by simp [tapRuns, on]

theorem tapWhen_of_permitted {b : Bool} (permitted : b = true) (f : State → State) : tapWhen s b f = .next (f s) := by
  rw [tapWhen, if_neg (by simp [tapRuns_of_on on]), if_pos permitted]

theorem tapWhen_of_refused {b : Bool} (refused : b = false) (f : State → State) : tapWhen s b f = .next (tapRefuse s) := by
  rw [tapWhen, if_neg (by simp [tapRuns_of_on on]), if_neg (by simp [refused])]

/-! DBG_ACCESS (R460) -/

section
variable {dr : BitVec 128}

theorem execDbgAccess_of_refused (refused : tapFull s = false ∨ s.dbg = 0) : execDbgAccess dr s = .next (tapRefuse s) := by
  rw [execDbgAccess, if_neg (by simp [tapRuns_of_on on]), if_pos (by simpa using refused)]

section
variable (full : tapFull s = true) (debugged : s.dbg ≠ 0)
include full debugged

theorem execDbgAccess_of_badArg (bad : bits dr 0 48 % 8 ≠ 0 ∨ bits dr 49 7 ≠ 0) : execDbgAccess dr s = .next (dbgEnd s dr stBADARG 0) := by
  rw [execDbgAccess, if_neg (by simp [tapRuns_of_on on]), if_neg (by simp [full, debugged]), if_pos bad]

section
variable (aligned : bits dr 0 48 % 8 = 0) (plain : bits dr 49 7 = 0)
include aligned plain

/-- An access to device memory needs DBG2 and a bound window that grants reads. -/
theorem execDbgAccess_memory (memory : bitAt dr 48 = true) : execDbgAccess dr s =
    if s.dbg < 2 ∨ boundOk s (bits dr 0 48) (bits dr 0 48 + 7) false = false then .next (tapRefuse s)
    else .next (takeReq (tapSelect s 0x11 0) (.debug (bits dr 0 48) dr)) := by
  rw [execDbgAccess, if_neg (by simp [tapRuns_of_on on]), if_neg (by simp [full, debugged]), if_neg (by simp [aligned, plain]), if_pos memory]
  simp only [Bool.not_eq_true']

/-- An access to a hub register needs a level that reaches its class. -/
theorem execDbgAccess_hub (register : bitAt dr 48 = false) {o : Nat} (located : locate (bits dr 0 48) = .hub o) : execDbgAccess dr s =
    if dbgReaches s (hubClass o) = false then .next (tapRefuse (if classReadable s (hubClass o) then s else countAperture s))
    else .next (dbgEnd (hubRead s o).2 dr stOK (hubRead s o).1) := by
  rw [execDbgAccess, if_neg (by simp [tapRuns_of_on on]), if_neg (by simp [full, debugged]), if_neg (by simp [aligned, plain]),
    if_neg (by simp [register])]
  simp only [located, Bool.not_eq_true']

end

end

end

end

end

theorem locate_hub {o : Nat} (inHub : o < 0x100000000) : locate (0x7F0000000000 + o) = .hub o := by
  rw [locate, if_neg (by omega), if_neg (by omega), if_neg (by omega), if_pos (by omega), Nat.add_sub_cancel_left]

/-- A debug read that the timetable admits answers FAULTED with data 0 when its data is poisoned (R460). -/
theorem takeReq_debug {s : State} {a : Nat} {dr : BitVec 128} (admitted : admits s 8 (devCells 4 a false) = true)
    (unheld : heldRange s a 8 = false) : takeReq s (.debug a dr) =
      let r := devRead (chargeDev s 4 8 a 8 false) a 8
      if r.1.poison then dbgAnswer r.2 dr stFAULTED 0 else dbgAnswer r.2 dr stOK (ofLe r.1.data) :=
  takeReq_of_admitted (r := .debug a dr) admitted unheld

/-- The answer of a debug access stands in the data register while DBG_ACCESS is the instruction (R460). -/
def dbgAnswered (dr : BitVec 128) (u : State) (status data : Nat) : State :=
  { u with tap := { u.tap with
      ir := 0x11, drive := false, status := status
      dr := BitVec.ofNat 128 (packFields [(bits dr 0 48, 48), (b2n (bitAt dr 48), 1), (0, 7), (status, 8), (data, 64)]) } }

theorem dbgAnswer_of_selected {u : State} (selected : u.tap.ir = 0x11) (undriven : u.tap.drive = false) (dr : BitVec 128) (status data : Nat) :
    dbgAnswer u dr status data = dbgAnswered dr u status data := by
  simp only [dbgAnswer, dbgAnswered, modTap, selected, if_true, undriven]

theorem dbgEnd_eq (u : State) (dr : BitVec 128) (status data : Nat) : dbgEnd u dr status data = dbgAnswered dr u status data :=
  dbgAnswer_of_selected rfl rfl dr status data

/-- Settles O28: what permits an instruction decides between its effect and BYPASS. -/
theorem testPortInstructionsComplete : Obligations.TestPortInstructionsComplete := by
  unfold Obligations.TestPortInstructionsComplete
  intro s on ref
  refine ⟨?idcode, ?status, ?bypass, ?extest, ?noExtest, ?sample, ?noSample, ?halt, ?noHalt, ?vendor, ?noVendor, ?noAccess, ?access⟩
  case idcode =>
    rw [exec_idcode, execIdcode, tapWhen_of_permitted on rfl]
    rfl
  case status =>
    rw [exec_dbgStatus, execDbgStatus, tapWhen_of_permitted on rfl]
    rfl
  case bypass =>
    intro op unlisted
    rw [exec_bypass, execBypass_of_unlisted unlisted, tapWhen_of_permitted on rfl]
    rfl
  case extest =>
    intro idle isOpen
    rw [exec_extest, execExtest, tapWhen_of_permitted on (extest_permitted_iff.2 ⟨idle, isOpen⟩)]
    rfl
  case noExtest =>
    intro other
    have refused : ¬ (s.op = .idle ∧ s.sec = .sopen) := fun ⟨idle, isOpen⟩ => other.elim (absurd idle) (absurd isOpen)
    rw [exec_extest, execExtest, tapWhen_of_refused on (Bool.eq_false_iff.2 (extest_permitted_iff.not.2 refused))]
    rfl
  case sample =>
    intro l full isOpen
    rw [exec_samplePreload, execSamplePreload, tapWhen_of_permitted on (by simp [full, isOpen])]
    exact ⟨_, rfl⟩
  case noSample =>
    intro l other
    rw [exec_samplePreload, execSamplePreload, tapWhen_of_refused on (by simpa [← Bool.not_eq_true, ← not_and_or] using other)]
    rfl
  case halt =>
    intro running level
    rw [exec_dbgHalt, execDbgHalt, tapWhen_of_permitted on (by simp [running, level])]
    rfl
  case noHalt =>
    intro other
    rw [exec_dbgHalt, execDbgHalt, tapWhen_of_refused on (by simpa [← not_and_or] using other)]
    rfl
  case vendor =>
    intro op least most full level
    rw [exec_vendorAnalysis, execVendorAnalysis_of_vendor least most, tapWhen_of_permitted on (by simp [full, level])]
    exact ⟨_, rfl⟩
  case noVendor =>
    intro op least most other
    rw [exec_vendorAnalysis, execVendorAnalysis_of_vendor least most,
      tapWhen_of_refused on (by simpa [← Bool.not_eq_true, ← not_and_or] using other)]
    rfl
  case noAccess => exact fun dr refused => execDbgAccess_of_refused on refused
  case access =>
    intro dr data full debugged a fin v r
    rw [exec_dbgAccess]
    refine ⟨?bad, ?unbound, ?bound, ?answer, ?reached, ?unreached⟩
    case bad =>
      intro bad
      rw [execDbgAccess_of_badArg on full debugged bad, dbgEnd_eq]
      rfl
    case unbound =>
      intro aligned plain memory denied
      rw [execDbgAccess_memory on full debugged aligned plain memory, if_pos denied]
      rfl
    case bound =>
      intro aligned plain memory level granted
      have mayRead : ¬ (s.dbg < 2 ∨ boundOk s (bits dr 0 48) (bits dr 0 48 + 7) false = false) := by
        rintro (low | denied)
        · exact Nat.not_lt.2 level low
        · exact Bool.noConfusion (granted.symm.trans denied)
      rw [execDbgAccess_memory on full debugged aligned plain memory, if_neg mayRead]
      refine ⟨fun admitted unheld => ?_, fun waits => ?_⟩
      · rw [takeReq_debug (s := tapSelect s 0x11 0) admitted unheld]
        refine ⟨fun poisoned => ?_, fun clean read => ?_⟩
        · exact congrArg Host.Outcome.next (if_pos poisoned)
        · rw [← read]
          exact congrArg Host.Outcome.next (if_neg (Bool.eq_false_iff.1 clean))
      · rw [takeReq_of_waiting (s := tapSelect s 0x11 0) (r := .debug (bits dr 0 48) dr) waits]
        rfl
    case answer => exact fun u status d selected undriven => dbgAnswer_of_selected selected undriven dr status d
    case reached =>
      intro o at_o aligned inHub plain register reaches readable
      have located : locate (bits dr 0 48) = .hub o := (congrArg locate at_o).trans (locate_hub inHub)
      have alignedDr : bits dr 0 48 % 8 = 0 := by omega
      rw [execDbgAccess_hub on full debugged alignedDr plain register located, if_neg (by simp [reaches]), hubRead_of_readable readable, dbgEnd_eq]
      rfl
    case unreached =>
      intro o at_o aligned inHub plain register outOfReach
      have located : locate (bits dr 0 48) = .hub o := (congrArg locate at_o).trans (locate_hub inHub)
      have alignedDr : bits dr 0 48 % 8 = 0 := by omega
      rw [execDbgAccess_hub on full debugged alignedDr plain register located, if_pos outOfReach]

end Sys2Proof.Machine
end

section
/-! PROOFS. Reset values, and the power input, MOD_RESET# and the loss of AON power (R464 to R466, R469, R486). -/

namespace Sys2Proof.Machine

theorem exec_coldBoot (st : Straps) (s : State) : exec (.coldBoot st) s = execColdBoot st s := rfl
theorem exec_modResetAssert (s : State) : exec .modResetAssert s = execModResetAssert s := rfl
theorem exec_modResetDeassert (n : Nat) (st : Straps) (s : State) : exec (.modResetDeassert n st) s = execModResetDeassert n st s := rfl
theorem exec_inputUndervoltage (s : State) : exec .inputUndervoltage s = execInputUndervoltage s := rfl
theorem exec_inputRestored (st : Straps) (s : State) : exec (.inputRestored st) s = execInputRestored st s := rfl
theorem exec_aonPowerLoss (s : State) : exec .aonPowerLoss s = execAonPowerLoss s := rfl

theorem listGet_eq_getElem?_getD {α : Type} (d : α) (l : List α) (i : Nat) : listGet d l i = l[i]?.getD d := by
  induction l generalizing i with
  | nil => rfl
  | cons x l ih =>
    cases i with
    | zero => rfl
    | succ i => exact ih i

/-- Logical cluster n is cluster n mod 64 of its section (Table 1-6). -/
theorem lcEntry_reset {lc : Nat} (inMap : lc < 256) : lcEntry State.reset lc = ⟨lc % 64, true, 0⟩ := by
  show listGet _ ((List.range 256).map LcEntry.reset) lc = _
  simp [listGet_eq_getElem?_getD, inMap, LcEntry.reset]

/-- Settles O6: the tables of the state after reset are empty, so that each register reads its reset value. -/
theorem resetValues : Obligations.ResetValues := by
  unfold Obligations.ResetValues
  exact ⟨rfl, rfl, rfl, rfl, fun _ => lcEntry_reset, rfl, rfl, fun _ => rfl, rfl, fun _ => rfl, fun _ => ⟨rfl, rfl⟩, fun _ => rfl, rfl⟩

section
variable {s : State}

/-- The boot part once the straps are latched (R469, R4). -/
def strapped (b : Boot) (x : Straps) : Boot :=
  { b with slot := x.slot.toNat, cool := x.cool.toNat, coolUnknown := decide (2 < x.cool.toNat), coolNoted := false, feed := x.feed.toNat,
           feedUnknown := decide (x.feed.toNat = 15) }

theorem refreshPowerAlert_eq (s : State) : ∃ smb, refreshPowerAlert s = { s with smb := smb } := by
  unfold refreshPowerAlert
  split
  · exact ⟨_, rfl⟩
  · exact ⟨_, rfl⟩

/-- Latching the straps changes the boot part and the alerts alone. -/
theorem latchStraps_eq (s : State) (x : Straps) : ∃ smb, latchStraps s x = { s with boot := strapped s.boot x, smb := smb } := by
  have latched : latchStraps s x = refreshPowerAlert
      (if decide (2 < x.cool.toNat) || decide (x.feed.toNat = 15) then setAlert { s with boot := strapped s.boot x } aSTRAP
        else { s with boot := strapped s.boot x }) := rfl
  rw [latched]
  split
  · exact refreshPowerAlert_eq _
  · exact refreshPowerAlert_eq _

/-! Power on and the pin (R464, R465) -/

theorem execColdBoot_of_off (off : s.boot.phase = .off) (x : Straps) : execColdBoot x s =
    .next (if s.boot.pinLow then { latchStraps s x with boot := { (latchStraps s x).boot with phase := .held } } else beginStart (latchStraps s x) 0) :=
  if_neg (not_not_intro off)

theorem execModResetAssert_of_high (high : s.boot.pinLow = false) : execModResetAssert s =
    .next (if s.boot.phase = .off then { s with boot := { s.boot with pinLow := true } } else holdModule { s with boot := { s.boot with pinLow := true } }) :=
  if_neg (by simp [high])

/-- The state in which MOD_RESET# is high again. -/
def pinHigh (s : State) : State := { s with boot := { s.boot with pinLow := false } }

theorem execModResetDeassert_of_pulse {n : Nat} (low : s.boot.pinLow = true) (long : 500 ≤ n) (x : Straps) : execModResetDeassert n x s =
    if s.boot.phase ≠ .held then .next (pinHigh s)
    else .next (if s.boot.inputLow then latchStraps (pinHigh s) x else beginStart (latchStraps (pinHigh s) x) 1) := by
  rw [execModResetDeassert, if_neg (by simp [low, Nat.not_lt.2 long])]
  dsimp only
  split
  · rfl
  · obtain ⟨_, latched⟩ := latchStraps_eq (pinHigh s) x
    have same : (latchStraps (pinHigh s) x).boot.inputLow = s.boot.inputLow := by rw [latched]; rfl
    show Host.Outcome.next (if (latchStraps (pinHigh s) x).boot.inputLow then _ else _) = _
    rw [same]
    rfl

theorem execModResetDeassert_of_short {n : Nat} (short : n < 500) (x : Straps) : execModResetDeassert n x s = .next s :=
  if_pos (.inr short)

/-! The input supervisor and the loss of power -/

theorem execInputUndervoltage_of_on (on : s.boot.phase ≠ .off) (good : s.boot.inputLow = false) :
    execInputUndervoltage s = .next (holdModule { s with boot := { s.boot with inputLow := true } }) :=
  if_neg (by simp [on, good])

theorem execInputRestored_of_held (held : s.boot.phase = .held) (low : s.boot.inputLow = true) (high : s.boot.pinLow = false) (x : Straps) :
    execInputRestored x s = .next (beginStart (latchStraps { s with boot := { s.boot with inputLow := false } } x) 1) := by
  rw [execInputRestored, if_neg (by simp [held, low])]
  exact if_neg (by simp [high])

theorem execAonPowerLoss_of_on (on : s.boot.phase ≠ .off) : execAonPowerLoss s =
    .next { coreReset s true with store := ageBlocks (coreReset s true).store s.clk.aon, clk := .reset, smb := .reset, tap := .reset
                                  boot := { Boot.reset with pinLow := s.boot.pinLow } } :=
  if_neg on

end

/-- Settles O29: each event's guard decides its branch; a hold is `coreReset`, a start is `beginStart` with the straps latched. -/
theorem powerInputAndResetComplete : Obligations.PowerInputAndResetComplete := by
  unfold Obligations.PowerInputAndResetComplete
  refine ⟨?off, ?start, ?assert, ?deassert, ?stillLow, ?pulse, ?undervoltage, ?restored, ?loss⟩
  case off =>
    intro s st off
    rw [exec_coldBoot, execColdBoot_of_off off]
    refine ⟨fun high => ?_, fun low => ?_, fun high => ?_, fun n low long => ?_⟩
    · rw [if_neg (by simp [high])]
    · rw [if_pos low]
    · rw [exec_modResetAssert, execModResetAssert_of_high high, if_pos off]
    · rw [exec_modResetDeassert, execModResetDeassert_of_pulse low long, if_pos (by simp [off])]
      rfl
  case start =>
    intro s st k t
    obtain ⟨_, latched⟩ := latchStraps_eq s st
    have begun : t = beginStart (latchStraps s st) k := rfl
    rw [begun, latched]
    exact ⟨rfl, rfl, rfl, rfl, rfl, rfl, rfl, rfl, rfl⟩
  case assert =>
    intro s on high
    rw [exec_modResetAssert, execModResetAssert_of_high high, if_neg on]
    exact ⟨_, rfl, rfl, rfl, rfl, rfl, rfl, rfl, rfl, rfl, rfl, rfl, rfl, rfl, rfl, rfl, rfl, rfl, rfl⟩
  case deassert =>
    intro s st n held low good long
    rw [exec_modResetDeassert, execModResetDeassert_of_pulse low long, if_neg (not_not_intro held), if_neg (by simp [good])]
    rfl
  case stillLow =>
    intro s st n held low inputLow long
    rw [exec_modResetDeassert, execModResetDeassert_of_pulse low long, if_neg (not_not_intro held), if_pos inputLow]
    rfl
  case pulse =>
    intro s st n short
    rw [exec_modResetDeassert, execModResetDeassert_of_short short]
  case undervoltage =>
    intro s on good
    rw [exec_inputUndervoltage, execInputUndervoltage_of_on on good]
    exact ⟨_, rfl, rfl, rfl, rfl, rfl, rfl, rfl, rfl, rfl, rfl, rfl, rfl, rfl, rfl, rfl, rfl, rfl⟩
  case restored =>
    intro s st held low high
    rw [exec_inputRestored, execInputRestored_of_held held low high]
  case loss =>
    intro s on
    rw [exec_aonPowerLoss, execAonPowerLoss_of_on on]
    exact ⟨_, rfl, rfl, rfl, rfl, rfl, rfl, rfl, rfl, rfl, rfl⟩

end Sys2Proof.Machine
end

section
/-! PROOFS. The stages of a start: their ends, overruns and retries (R466 to R468, R473, R474, Table 17-2). -/

namespace Sys2Proof.Machine

theorem exec_startUpStageEnd (stage : Nat) (r : StageResult) (s : State) : exec (.startUpStageEnd stage r) s = execStartUpStageEnd stage r s := rfl
theorem exec_stageBoundOverrun (stage : Nat) (u : List Nat) (s : State) : exec (.stageBoundOverrun stage u) s = execStageBoundOverrun stage u s := rfl
theorem exec_unitRetry (unit : Nat) (trained : Bool) (s : State) : exec (.unitRetry unit trained) s = execUnitRetry unit trained s := rfl

theorem setHas_setAdd_self (t : NatSet) (a : Nat) : setHas (setAdd t a) a = true := by
  induction t with
  | nil => simp [setAdd, setHas]
  | cons k r ih =>
    unfold setAdd
    split
    next same => simp [setHas, same]
    next other =>
      split
      · simp [setHas]
      · simpa [setHas, Ne.symm other] using ih

section
variable {s : State} {stage : Nat}

theorem execStartUpStageEnd_of_other (other : setHas s.boot.running stage = false) (r : StageResult) : execStartUpStageEnd stage r s = .next s :=
  if_neg (by simp [other])

/-! Stages 0 and 1 -/

theorem endStage_zero (r : StageResult) (running : s.boot.running = [0]) (done : s.boot.done = []) :
    endStage s 0 r = { s with boot := { s.boot with running := [1], done := [0] } } := by
  have passed : passStage s 0 [1] = { s with boot := { s.boot with running := [1], done := [0] } } := by
    simp [passStage, modBoot, running, done, setAdd, setDel, setAddAll]
  simp [endStage, passed, setHas]

theorem noteCool_of_known (known : s.boot.coolUnknown = false) : noteCool s = s := if_neg (by simp [known])

@[simp] theorem hubTested_boot : (hubTested s).boot = s.boot := by
  unfold hubTested
  split <;> rfl

theorem endStage_one (r : StageResult) (running : s.boot.running = [1]) (done : s.boot.done = [0]) (known : s.boot.coolUnknown = false) :
    endStage s 1 r = { hubTested s with boot := { s.boot with running := [2], done := [0, 1] } } := by
  have noted : noteCool (hubTested s) = hubTested s := noteCool_of_known (by rw [hubTested_boot, known])
  have passed : passStage (hubTested s) 1 [2] = { hubTested s with boot := { s.boot with running := [2], done := [0, 1] } } := by
    simp [passStage, modBoot, running, done, setAdd, setDel, setAddAll]
  simp [endStage, noted, passed, setHas]

/-! A start that fails (R473) -/

@[simp] theorem noteCool_phase : (noteCool s).boot.phase = s.boot.phase := by
  unfold noteCool
  split <;> rfl

/-- The boot part of a start that has failed with a cause (R473). -/
def failedBoot (b : Boot) (stage cause : Nat) : Boot :=
  { b with failed := true, cause := cause, done := setAddAll b.done b.running, running := if stage = 4 then [] else b.running.filter (fun k => k == 4) }

/-- The failed start is logged; the safe state follows. -/
def failLogged (s : State) (stage cause : Nat) : State :=
  logEvent (modBoot (noteCool s) (fun b => failedBoot b stage cause)) 0x00A0 6 7 0 noLink
    (packFields [(stage, 8), (cause, 4), (b2n (noteCool s).boot.attempt, 1)])

theorem failLogged_boot (cause : Nat) : (failLogged s stage cause).boot = failedBoot (noteCool s).boot stage cause := logEvent_boot ..

theorem bootFail_eq (cause : Nat) : bootFail s stage cause = enterSafe (failLogged s stage cause) uModule sfStart := rfl

/-! Stage 9 (R474) -/

/-- The state of stage 9 of a start without a laid-up tenancy and without a scrub to complete, before it goes to IDLE. -/
def settled (s : State) : State :=
  modBoot (passStage { s with store := { s.store with laid := none } } 9 [])
    (fun b => { b with phase := .up, totalMs := (s.clk.aon - s.boot.began) / 50000 % 2 ^ 32 })

theorem endStage_nine (r : StageResult) (notWarm : s.boot.kind ≠ 2) (clean : s.flash.scrubMark = false) :
    endStage s 9 r = setOp (settled s) .idle := by
  have stage : stage9 s r = setOp (settled s) .idle := by
    rw [stage9, if_neg notWarm]
    simp only [clean, Bool.false_eq_true, if_false]
    rfl
  simp only [endStage, stage, Nat.lt_irrefl, false_and, if_false]

/-! While a start is in progress -/

section
variable (starting : s.boot.phase = .starting)
include starting

theorem execStartUpStageEnd_of_running (running : setHas s.boot.running stage = true) (r : StageResult) :
    execStartUpStageEnd stage r s = .next (endStage s stage r) :=
  if_pos ⟨by simp [stagesRun, starting], running⟩

/-- What a stage in progress comes to at its bound (R473). -/
theorem execStageBoundOverrun_of_running (running : setHas s.boot.running stage = true) (u : List Nat) :
    execStageBoundOverrun stage u s =
      if unitsFit stage u then .next (endStage s stage (unitResult u))
      else if s.boot.failed then .next s
      else if s.boot.overrun then .next (bootFail s stage 6)
      else .next { coreReset s false with
        slp := s.slp
        boot := { s.boot with running := [1], done := [], overrun := true, attempt := true, idLocked := false, mapRestored := false, portUp := 0
                              repaired := 0, retry := [] } } :=
  if_neg (by simp [stagesRun, starting, running])

/-- A start that fails is in the safe state, with its cause (R473). -/
theorem bootFail_boot (cause : Nat) : (bootFail s stage cause).boot.failed = true ∧ (bootFail s stage cause).boot.cause = cause ∧
    (bootFail s stage cause).boot.phase = .safe := by
  have phase : (failLogged s stage cause).boot.phase = .starting := by
    rw [failLogged_boot]
    exact noteCool_phase.trans starting
  obtain ⟨_, _, _, _, _, _, _, _, entered⟩ :=
    enterSafe_eq (s := failLogged s stage cause) (by simp [powered, phase]) (by simp [phase]) uModule sfStart
  rw [bootFail_eq, entered, safeSignals, failLogged_boot]
  exact ⟨rfl, rfl, rfl⟩

end

end

/-- Settles O30: the guard of each event decides its branch, and the branch is the stated effect. -/
theorem startUpStagesComplete : Obligations.StartUpStagesComplete := by
  unfold Obligations.StartUpStagesComplete
  refine ⟨?ends, ?zero, ?one, ?other, ?units, ?first, ?second, ?link, ?port⟩
  case ends =>
    intro s st r starting running
    rw [exec_startUpStageEnd, execStartUpStageEnd_of_running starting running]
  case zero =>
    intro s r starting running done
    rw [exec_startUpStageEnd, execStartUpStageEnd_of_running starting (by rw [running]; rfl), endStage_zero r running done]
  case one =>
    intro s r starting running done known
    rw [exec_startUpStageEnd, execStartUpStageEnd_of_running starting (by rw [running]; rfl), endStage_one r running done known]
  case other =>
    intro s st r _ other
    rw [exec_startUpStageEnd, execStartUpStageEnd_of_other other]
  case units =>
    intro s st u starting running fit
    rw [exec_stageBoundOverrun, execStageBoundOverrun_of_running starting running, if_pos fit]
  case first =>
    intro s st u starting running notUnits first unfailed
    rw [exec_stageBoundOverrun, execStageBoundOverrun_of_running starting running, if_neg (by simp [notUnits]), if_neg (by simp [unfailed]),
      if_neg (by simp [first])]
    exact ⟨_, rfl, rfl, rfl, rfl, rfl, starting, rfl, rfl, rfl⟩
  case second =>
    intro s st u starting running notUnits second unfailed
    rw [exec_stageBoundOverrun, execStageBoundOverrun_of_running starting running, if_neg (by simp [notUnits]), if_neg (by simp [unfailed]),
      if_pos second]
    exact ⟨_, rfl, bootFail_boot starting 6⟩
  case link =>
    intro s retried on
    rw [exec_unitRetry, execUnitRetry, if_neg (by simp [retried, on])]
    rfl
  case port =>
    intro s p isPort retried on
    rw [exec_unitRetry, execUnitRetry, if_neg (by simp [retried, on, Nat.le_of_lt isPort])]
    exact ⟨_, congrArg Host.Outcome.next (if_neg (Nat.ne_of_lt isPort)), rfl⟩

/-- Settles O31: stage 9 of a start that is not warm deletes the laid-up record and moves to IDLE, and no start changes the security state. -/
theorem stageNineMakesModuleIdle : Obligations.StageNineMakesModuleIdle := by
  unfold Obligations.StageNineMakesModuleIdle
  refine ⟨?nine, ?restored⟩
  case nine =>
    intro s r starting running notWarm clean
    obtain ⟨_, _, _, _, _, _, idle⟩ := setOp_eq (settled s) .idle
    rw [exec_startUpStageEnd, execStartUpStageEnd_of_running starting running, endStage_nine r notWarm clean, idle]
    exact ⟨_, rfl, rfl, rfl, fun isOpen => isOpen, rfl, rfl, rfl, rfl, rfl, rfl, setHas_setAdd_self ..⟩
  case restored =>
    intro s st held isOpen low high
    obtain ⟨_, latched⟩ := latchStraps_eq { s with boot := { s.boot with inputLow := false } } st
    rw [exec_inputRestored, execInputRestored_of_held held low high, latched]
    exact ⟨_, rfl, isOpen, rfl⟩

end Sys2Proof.Machine
end

section
/-! PROOFS. The start of a scrub: flows, jobs and host windows end (R322, R444, R450, R451). -/

namespace Sys2Proof.Machine

section
variable {s : State}

/-! Host windows -/

theorem hwinOf_modHwin {n : Nat} {f : HWin → HWin} (changed : f (hwinOf s n) ≠ .reset) (k : Nat) :
    hwinOf (modHwin s n f) k = if k = n then f (hwinOf s n) else hwinOf s k := by
  show spGet _ (spSet _ _ _ _) _ = _
  rw [spSet, if_neg (show ¬ f (spGet .reset s.mb.hwin n) = .reset from changed), spGet_spPut]
  rfl

/-- Close window n if p holds of it. -/
def closeHwin (p : HWin → Bool) (s : State) (n : Nat) : State :=
  if (hwinOf s n).en && p (hwinOf s n) then modHwin s n (fun w => { w with en := false, refused := true }) else s

theorem closeHwin_eq (p : HWin → Bool) (s : State) (n : Nat) : ∃ mb, closeHwin p s n = { s with mb := mb } := by
  unfold closeHwin
  split
  · exact ⟨_, rfl⟩
  · exact ⟨s.mb, rfl⟩

theorem closeHwins_eq (s : State) (p : HWin → Bool) : ∃ mb, closeHwins s p = { s with mb := mb } := by
  have folded (l : List Nat) (u : State) : ∃ mb, l.foldl (closeHwin p) u = { u with mb := mb } := by
    induction l generalizing u with
    | nil => exact ⟨u.mb, rfl⟩
    | cons n l ih =>
      obtain ⟨_, now⟩ := closeHwin_eq p u n
      obtain ⟨_, later⟩ := ih (closeHwin p u n)
      rw [List.foldl_cons, later, now]
      exact ⟨_, rfl⟩
  exact folded (List.range 16) s

theorem closeHwin_all_en (n k : Nat) : (hwinOf (closeHwin (fun _ => true) s n) k).en = if k = n then false else (hwinOf s k).en := by
  unfold closeHwin
  split
  · rw [hwinOf_modHwin (fun reset => Bool.noConfusion (congrArg HWin.refused reset))]
    split
    · rfl
    · rfl
  next shut =>
    split
    next same => simpa [same] using shut
    · rfl

/-- No window of a list stays open. -/
theorem closeHwin_all_foldl (l : List Nat) (s : State) (k : Nat) :
    (hwinOf (l.foldl (closeHwin (fun _ => true)) s) k).en = if k ∈ l then false else (hwinOf s k).en := by
  induction l generalizing s with
  | nil => rfl
  | cons n l ih =>
    rw [List.foldl_cons, ih, closeHwin_all_en]
    by_cases later : k ∈ l <;> simp [later]

theorem closeHwins_all {n : Nat} (listed : n < 16) : (hwinOf (closeHwins s (fun _ => true)) n).en = false :=
  (closeHwin_all_foldl (List.range 16) s n).trans (if_pos (List.mem_range.2 listed))

/-! Completions and the checkpoint in progress -/

/-- A final completion is posted, or waits for its turn (R340). -/
theorem owedOrPosted_logOnly (s : State) (o : OwedFinal) (waits : Bool) :
    LogOnly s (if waits then { s with mb := { s.mb with owed := s.mb.owed ++ [o] } } else postFinal s o) := by
  split
  · rfl
  · exact postRing_logOnly ..

theorem finish_logOnly (s : State) (m : Msg) (status len body : Nat) : LogOnly s (finish s m status len body) := by
  have counted : LogOnly s (if status = stOK ∨ status = stFAULTED then dropLong s m else countRefusal (dropLong s m) status) := by
    split <;> rfl
  exact .trans counted (owedOrPosted_logOnly _ _ _)

theorem fulfil_logOnly (s : State) (m : Msg) (status len body : Nat) : LogOnly s (fulfil s m status len body) :=
  .trans (b := { s with mb := _ }) rfl (postShorts_logOnly _)

/-- The answer of a PAUSE is a completion. -/
theorem answerPause_logOnly (s : State) : LogOnly s (answerPause s) := by
  unfold answerPause
  split
  · exact .refl s
  · dsimp only
    split
    · exact .trans (b := { s with mb := _ }) rfl (fulfil_logOnly ..)
    · exact .trans (b := countRefusal { s with mb := { s.mb with pauseOf := none } } stSTATE) rfl (fulfil_logOnly ..)

/-- An abandoned checkpoint leaves all but the store, the checkpoint part and the log alone (R400). -/
theorem abandonCkpt_eq (s : State) : ∃ store ckpt flog mb comp free hub,
    abandonCkpt s = { s with store := store, ckpt := ckpt, flog := flog, mb := mb, comp := comp, free := free, hub := hub } := by
  unfold abandonCkpt
  split
  · exact ⟨s.store, s.ckpt, s.flog, s.mb, s.comp, s.free, s.hub, rfl⟩
  · exact ⟨_, _, _, _, _, _, _, logEvent_logOnly ..⟩

/-- One of the long commands that end FAULTED. -/
def faultOne (s : State) (l : LongCmd) : State :=
  let t := finish s l.m stFAULTED 4 (lastEntry s)
  if mOpcode l.m = 0x41 then noteRunning t (mb l.m 0 8) else t

theorem faultOne_eq (s : State) (l : LongCmd) : ∃ cl flog mb comp free hub,
    faultOne s l = { s with cl := cl, flog := flog, mb := mb, comp := comp, free := free, hub := hub } := by
  unfold faultOne
  dsimp only
  rw [finish_logOnly s l.m]
  split
  · exact ⟨_, _, _, _, _, _, rfl⟩
  · exact ⟨_, _, _, _, _, _, rfl⟩

/-- Long commands that end FAULTED leave all but clusters and postings alone. -/
theorem faultLong_eq (s : State) (keep : LongCmd → Bool) : ∃ cl flog mb comp free hub,
    faultLong s keep = { s with cl := cl, flog := flog, mb := mb, comp := comp, free := free, hub := hub } := by
  have folded (ls : List LongCmd) (u : State) : ∃ cl flog mb comp free hub,
      ls.foldl faultOne u = { u with cl := cl, flog := flog, mb := mb, comp := comp, free := free, hub := hub } := by
    induction ls generalizing u with
    | nil => exact ⟨u.cl, u.flog, u.mb, u.comp, u.free, u.hub, rfl⟩
    | cons l ls ih =>
      obtain ⟨_, _, _, _, _, _, now⟩ := faultOne_eq u l
      obtain ⟨_, _, _, _, _, _, later⟩ := ih (faultOne u l)
      rw [List.foldl_cons, later, now]
      exact ⟨_, _, _, _, _, _, rfl⟩
  exact folded (s.mb.long.filter (fun l => !(keep l))) s

/-- A change of any ports' registers changes the ports alone. -/
theorem foldl_modPort_eq (f : Port → Port) (l : List Nat) (s : State) :
    ∃ ports, l.foldl (fun s p => modPort s p f) s = { s with fab := { s.fab with ports := ports } } := by
  induction l generalizing s with
  | nil => exact ⟨s.fab.ports, rfl⟩
  | cons p l ih => exact ih (modPort s p f)

/-! The start -/

/-- The tenant's work has ended: its pause answered, its checkpoint abandoned, its long commands FAULTED, all but the scrub's own. -/
def workStopped (s : State) (m : Msg) (k : Nat) : State :=
  let u := { s with flash := { s.flash with scrubMark := true }, su := { s.su with stage := 1, toDbg := k, began := s.clk.aon } }
  faultLong (abandonCkpt (answerPause (setOp (setAlert u aSCRUB0) .scrubbing))) (fun l => mSeq l.m == mSeq m && mOpcode l.m == mOpcode m)

theorem workStopped_spec (s : State) (m : Msg) (k : Nat) :
    (workStopped s m k).flash.scrubMark = true ∧ (workStopped s m k).op = .scrubbing ∧ (workStopped s m k).su.stage = 1 := by
  unfold workStopped
  dsimp only
  obtain ⟨_, _, _, _, _, _, faulted⟩ := faultLong_eq _ (fun l => mSeq l.m == mSeq m && mOpcode l.m == mOpcode m)
  obtain ⟨_, _, _, _, _, _, _, abandoned⟩ := abandonCkpt_eq _
  obtain ⟨_, _, _, _, _, _, moved⟩ := setOp_eq _ .scrubbing
  rw [faulted, abandoned, answerPause_logOnly, moved]
  exact ⟨rfl, rfl, rfl⟩

theorem beginScrub_of_not_safe (notSafe : s.boot.phase ≠ .safe) (m : Msg) (k : Nat) :
    beginScrub s m k = closeHwins (startOos (fabricScrub (releaseConsist (workStopped s m k)))) (fun _ => true) := by
  rw [beginScrub]
  exact if_neg notSafe

/-- The start of a scrub ends flows, jobs, frames in assembly and host windows (R322, R451). -/
theorem beginScrub_spec (notSafe : s.boot.phase ≠ .safe) (m : Msg) (k : Nat) :
    let t := beginScrub s m k
    (∀ p c, flowOf t p c = .reset) ∧ (∀ j, jobOf t j = .reset) ∧ t.fab.stages = [] ∧ (∀ n, n < 16 → (hwinOf t n).en = false) ∧
      t.flash.scrubMark = true ∧ t.op = .scrubbing ∧ t.su.stage = 1 := by
  obtain ⟨marked, scrubbing, stage⟩ := workStopped_spec s m k
  have closed (n : Nat) (listed : n < 16) : (hwinOf (beginScrub s m k) n).en = false := by
    rw [beginScrub_of_not_safe notSafe]
    exact closeHwins_all listed
  obtain ⟨_, shut⟩ := closeHwins_eq (startOos (fabricScrub (releaseConsist (workStopped s m k)))) (fun _ => true)
  obtain ⟨_, silenced⟩ := foldl_modPort_eq (fun q => { q with oos := true, oosSent := 0 }) [0, 1, 2, 3, 4, 5, 6, 7]
    (fabricScrub (releaseConsist (workStopped s m k)))
  have begun := beginScrub_of_not_safe notSafe m k
  rw [shut, startOos, silenced] at begun
  rw [begun] at closed ⊢
  exact ⟨fun _ _ => rfl, fun _ => rfl, rfl, closed, marked, scrubbing, stage⟩

end

end Sys2Proof.Machine
end

section
/-! PROOFS. The end of a scrub: what stages 2 to 7 erase, and the tests of the memories (R249, R403, R444, R451, Table 16-6). -/

namespace Sys2Proof.Machine

section
variable {s t : State}

/-! The table of clusters -/

theorem sparseOf_eq_tableOf {α : Type} [DecidableEq α] (d : α) (l : List α) :
    sparseOf d l = tableOf d (fun i => l.getD i d) (List.range l.length) := rfl

theorem spWf_sparseOf {α : Type} [DecidableEq α] (d : α) (l : List α) : spWf d (sparseOf d l) = true :=
  tableOf_wfFrom List.pairwise_lt_range fun k _ => Nat.zero_le k

theorem spGet_sparseOf {α : Type} [DecidableEq α] (d : α) (l : List α) (i : Nat) : spGet d (sparseOf d l) i = l.getD i d := by
  rw [sparseOf_eq_tableOf, spGet_tableOf List.pairwise_lt_range]
  split
  · rfl
  next beyond => simp [List.getD, List.getElem?_eq_none (Nat.not_lt.1 (beyond ∘ List.mem_range.2))]

/-! Tests of a cluster outside every consist -/

/-- The memories of a cluster hold nothing. -/
structure MemEmpty (m : ClMem) : Prop where
  sp : m.sp = []
  side : m.side = []
  seqm : m.seqm = []

/-- t is base but for tests of the clusters' memories, which are empty, and for what these tests post; no cluster is in a consist. -/
structure OnlyTested (base t : State) : Prop where
  same : t = { base with cl := t.cl, map := t.map, flog := t.flog, mb := t.mb, comp := t.comp, free := t.free, hub := t.hub }
  wf : spWf .reset t.cl = true
  regs : ∀ lc, cluster t lc = { cluster base lc with mem := (cluster t lc).mem }
  empty : ∀ lc, MemEmpty (cluster t lc).mem
  idle : ∀ lc, (cluster base lc).inConsist = false

theorem cluster_modMem (wf : spWf .reset s.cl = true) (lc : Nat) (f : ClMem → ClMem) (k : Nat) :
    cluster (modMem s lc f) k = if k = lc then { cluster s lc with mem := f (cluster s lc).mem } else cluster s k :=
  spGet_spSet wf

/-- SP_MSTAT after MARCH-D has found a fault (R249, R251). -/
def testMarked (x : Nat × Nat × Nat) (m : ClMem) : ClMem := { m with lastAlg := 0, lastFail := true, fail := x }

theorem testFailed_zero (s : State) (f : Nat × Nat × Nat × Nat) : testFailed s 0 f =
    if (!(lcEntry s f.1).mapped || decide (2 < f.2.1) || decide (bankCount f.2.1 ≤ f.2.2.1)) = true then s
    else hardFailure (modMem s f.1 (testMarked f.2)) f.1 := rfl

/-- A cluster outside the consist becomes unmapped, or moves to a siding with a powered memory (R370). -/
theorem moveIdle_of_idle {lc : Nat} (idle : (cluster s lc).inConsist = false) :
    (∃ map, moveIdle s lc = { s with map := map }) ∨ ∃ map flog mb comp free hub, moveIdle s lc =
      { s with cl := (modMem s lc (fun m => keepRegs m ClMem.powered)).cl, map := map, flog := flog, mb := mb, comp := comp, free := free, hub := hub } := by
  unfold moveIdle
  simp only [idle, Bool.not_false, if_true, Bool.false_eq_true, if_false]
  split
  · exact .inl ⟨_, rfl⟩
  · exact .inr ⟨_, _, _, _, _, _, logEvent_logOnly ..⟩

section
variable {base : State} (tested : OnlyTested base t)
include tested

omit tested in
theorem OnlyTested.of_cl {cl : Sparse Cluster} {map : ClMap} {flog : FaultLog} {mb : Mailbox} {comp : Companion} {free : Nat} {hub : HubSram}
    (tested : OnlyTested base { t with cl := cl }) :
    OnlyTested base { t with cl := cl, map := map, flog := flog, mb := mb, comp := comp, free := free, hub := hub } where
  same := congrArg (fun u : State => { u with map := map, flog := flog, mb := mb, comp := comp, free := free, hub := hub }) tested.same
  wf := tested.wf
  regs := tested.regs
  empty := tested.empty
  idle := tested.idle

theorem OnlyTested.inConsist (lc : Nat) : (cluster t lc).inConsist = false := by
  rw [tested.regs]
  exact tested.idle lc

/-- A change of one cluster's memory that leaves it empty. -/
theorem OnlyTested.modMem (lc : Nat) {f : ClMem → ClMem} (empties : ∀ m, MemEmpty m → MemEmpty (f m)) : OnlyTested base (modMem t lc f) where
  same := congrArg (fun u : State => { u with cl := (Machine.modMem t lc f).cl }) tested.same
  wf := spSet_wf tested.wf
  regs k := by
    rw [cluster_modMem tested.wf]
    split
    next same => rw [same, tested.regs lc]
    · exact tested.regs k
  empty k := by
    rw [cluster_modMem tested.wf]
    split
    · exact empties _ (tested.empty lc)
    · exact tested.empty k
  idle := tested.idle

/-- The move of a cluster outside the consist carries its registers to a powered, empty memory. -/
theorem OnlyTested.moveIdle (lc : Nat) : OnlyTested base (moveIdle t lc) := by
  rcases moveIdle_of_idle (tested.inConsist lc) with ⟨_, unmapped⟩ | ⟨_, _, _, _, _, _, moved⟩
  · rw [unmapped]
    exact (show OnlyTested base { t with cl := t.cl } from tested).of_cl
  · rw [moved]
    exact (tested.modMem lc (fun m _ => ⟨rfl, rfl, rfl⟩) : OnlyTested base (Machine.modMem t lc (fun m => keepRegs m ClMem.powered))).of_cl

theorem OnlyTested.testFailed (f : Nat × Nat × Nat × Nat) : OnlyTested base (testFailed t 0 f) := by
  rw [testFailed_zero]
  split
  · exact tested
  · have marked : OnlyTested base (Machine.modMem t f.1 (testMarked f.2)) :=
      tested.modMem f.1 fun m empty => ⟨empty.sp, empty.side, empty.seqm⟩
    rw [hardFailure, if_neg (by simp [marked.inConsist])]
    exact marked.moveIdle f.1

theorem OnlyTested.foldl_testFailed (l : List (Nat × Nat × Nat × Nat)) : OnlyTested base (l.foldl (fun s f => Machine.testFailed s 0 f) t) := by
  induction l generalizing t with
  | nil => exact tested
  | cons f l ih => exact ih (tested.testFailed f)

end

/-! What the stages erase -/

/-- Changing blocks leaves all but the blocks of the store alone. -/
theorem foldl_modBlock_eq (f : Block → Block) (l : List Nat) (st : Store) : ∃ blocks, l.foldl (fun st b => modBlock st b f) st = { st with blocks := blocks } := by
  induction l generalizing st with
  | nil => exact ⟨st.blocks, rfl⟩
  | cons b l ih => exact ih (modBlock st b f)

theorem dropCopies_all_copies (st : Store) : (dropCopies st (fun _ => true)).copies = [] := by
  unfold dropCopies
  dsimp only
  obtain ⟨_, dropped⟩ := foldl_modBlock_eq _ _ _
  rw [dropped]
  exact List.filter_eq_nil_iff.2 (by simp)

/-- Charging the fill of the stacks changes the timetable alone. -/
theorem chargeFill_eq (s : State) : ∃ tt, chargeFill s = { s with tt := tt } := by
  unfold chargeFill
  generalize List.range 12 = l
  induction l generalizing s with
  | nil => exact ⟨s.tt, rfl⟩
  | cons k l ih => exact ih (setTtCell s 0 k 7 _)

/-- One granule that twice read back wrong (R451). -/
def stubbornGranule (s : State) (g : Nat × Nat) : State :=
  logEvent { s with dram := { s.dram with poison := setAdd s.dram.poison (granKey g.1 (64 * g.2)) }, su := { s.su with stubborn := satAdd 16 s.su.stubborn 1 } }
    0x0031 7 2 g.1 noLink (packFields [(64 * g.2, 48)])

/-- Stubborn granules are poisoned, counted and posted (R451). -/
theorem stubbornGranules_eq (s : State) (l : List (Nat × Nat)) : ∃ n flog mb comp free hub, stubbornGranules s l =
    { s with dram := { s.dram with poison := l.foldl (fun p g => setAdd p (granKey g.1 (64 * g.2))) s.dram.poison }, su := { s.su with stubborn := n }
             flog := flog, mb := mb, comp := comp, free := free, hub := hub } := by
  have folded (u : State) : ∃ n flog mb comp free hub, l.foldl stubbornGranule u =
      { u with dram := { u.dram with poison := l.foldl (fun p g => setAdd p (granKey g.1 (64 * g.2))) u.dram.poison }, su := { u.su with stubborn := n }
               flog := flog, mb := mb, comp := comp, free := free, hub := hub } := by
    induction l generalizing u with
    | nil => exact ⟨u.su.stubborn, u.flog, u.mb, u.comp, u.free, u.hub, rfl⟩
    | cons g l ih =>
      obtain ⟨_, _, _, _, _, _, later⟩ := ih (stubbornGranule u g)
      rw [List.foldl_cons, later, stubbornGranule, logEvent_logOnly]
      exact ⟨_, _, _, _, _, _, rfl⟩
  obtain ⟨n, flog, mb, comp, free, hub, all⟩ := folded (modSu s (fun u => { u with stubborn := 0 }))
  exact ⟨n, flog, mb, comp, free, hub, all⟩

/-- Loading the firmware again changes the boot part alone. -/
theorem reloadFw_of_good (good : (pickCopy s.flash.fwA s.flash.fwB (fun i => i.good) false).isSome = true) :
    ∃ boot, reloadFw s = some { s with boot := boot } := by
  obtain ⟨n, picked⟩ := Option.isSome_iff_exists.1 good
  unfold reloadFw
  dsimp only
  rw [picked]
  exact ⟨_, rfl⟩

/-- A change of state alerts, logs and posts, and changes nothing else (R354). -/
theorem changeState_eq (s : State) (o : OpState) (x : SecState) : ∃ smb flog mb comp free hub,
    changeState s o x = { s with op := o, sec := x, smb := smb, flog := flog, mb := mb, comp := comp, free := free, hub := hub } := by
  unfold changeState
  split
  next already =>
    obtain ⟨rfl, rfl⟩ := already
    exact ⟨s.smb, s.flog, s.mb, s.comp, s.free, s.hub, rfl⟩
  · exact ⟨_, _, _, _, _, _, logEvent_logOnly ..⟩

/-! The end -/

/-- Stages 2 to 5: keys, binding and memories are erased; stubborn granules stay poisoned. -/
def scrubErased (s : State) (w : WorkResult) : State := stubbornGranules (chargeFill (scrubMemories (modSu s eraseTenant))) w.stubborn

/-- Stage 7: the mark is cleared, OOS ends, the scrub counts, and the module is IDLE and OPEN. -/
def scrubReleased (s : State) (ms : Nat) : State :=
  changeState (setAlert (modSu (endOos { s with flash := { s.flash with scrubMark := false } })
    (fun u => { u with stage := 0, toDbg := 0, scrubN := satAdd 16 u.scrubN 1, lastMs := min 65535 ms })) aSCRUB1) .idle .sopen

theorem scrubErased_eq (s : State) (w : WorkResult) : ∃ n tt flog mb comp free hub, scrubErased s w =
    { scrubMemories s with
      dram := { s.dram with bytes := [], err := [], poison := w.stubborn.foldl (fun p g => setAdd p (granKey g.1 (64 * g.2))) [] }
      su := { eraseTenant s.su with stubborn := n }, tt := tt, flog := flog, mb := mb, comp := comp, free := free, hub := hub } := by
  obtain ⟨_, filled⟩ := chargeFill_eq (scrubMemories (modSu s eraseTenant))
  obtain ⟨_, _, _, _, _, _, counted⟩ := stubbornGranules_eq (chargeFill (scrubMemories (modSu s eraseTenant))) w.stubborn
  rw [scrubErased, counted, filled]
  exact ⟨_, _, _, _, _, _, _, rfl⟩

theorem scrubReleased_eq (s : State) (ms : Nat) : ∃ fab smb flog mb comp free hub, scrubReleased s ms =
    { s with op := .idle, sec := .sopen, flash := { s.flash with scrubMark := false }
             su := { s.su with stage := 0, toDbg := 0, scrubN := satAdd 16 s.su.scrubN 1, lastMs := min 65535 ms }
             fab := fab, smb := smb, flog := flog, mb := mb, comp := comp, free := free, hub := hub } := by
  obtain ⟨_, ended⟩ := foldl_modPort_eq (fun q => { q with oos := false }) [0, 1, 2, 3, 4, 5, 6, 7] { s with flash := { s.flash with scrubMark := false } }
  obtain ⟨_, _, _, _, _, _, moved⟩ := changeState_eq (setAlert (modSu (endOos { s with flash := { s.flash with scrubMark := false } })
    (fun u => { u with stage := 0, toDbg := 0, scrubN := satAdd 16 u.scrubN 1, lastMs := min 65535 ms })) aSCRUB1) .idle .sopen
  rw [scrubReleased, moved, endOos, ended]
  exact ⟨_, _, _, _, _, _, _, rfl⟩

theorem cluster_scrubMemories (s : State) (lc : Nat) :
    cluster (scrubMemories s) lc = if lc < 256 then scrubCluster (cluster s lc) else .reset := by
  show spGet _ (sparseOf _ _) _ = _
  rw [spGet_sparseOf, List.getD_eq_getElem?_getD]
  split
  next listed => simp [listed]
  next unlisted => simp [Nat.not_lt.1 unlisted]

/-- Once erased, the clusters hold nothing and are in no consist. -/
theorem OnlyTested.of_scrubbed (scrubbed : t.cl = (scrubMemories s).cl) : OnlyTested t t where
  same := rfl
  wf := by
    rw [scrubbed]
    exact spWf_sparseOf ..
  regs _ := rfl
  empty lc := by
    rw [cluster_congr scrubbed, cluster_scrubMemories]
    split
    · exact ⟨rfl, rfl, rfl⟩
    · exact ⟨rfl, rfl, rfl⟩
  idle lc := by
    rw [cluster_congr scrubbed, cluster_scrubMemories]
    split
    · rfl
    · rfl

/-- A logical cluster after the scrub and its tests. -/
theorem OnlyTested.cluster_scrubbed {base : State} (tested : OnlyTested base t) (scrubbed : base.cl = (scrubMemories s).cl) {lc : Nat}
    (listed : lc < 256) : ∃ mem, MemEmpty mem ∧ cluster t lc = { scrubCluster (cluster s lc) with mem := mem } := by
  refine ⟨(cluster t lc).mem, tested.empty lc, ?_⟩
  rw [← (cluster_scrubMemories s lc).trans (if_pos listed), ← cluster_congr scrubbed]
  exact tested.regs lc

theorem finishScrub_of_good (notSafe : s.boot.phase ≠ .safe) {w : WorkResult} (reloaded : reloadFw (scrubErased s w) = some t) (m : Msg)
    (body : Nat × Nat) : finishScrub s m w body =
      finish (setDbg ((firstFaults [] w.hard).foldl (fun s f => testFailed s 0 f) (scrubReleased t w.ms)) s.su.toDbg) m stOK body.1 body.2 := by
  have reload : reloadFw (stubbornGranules (chargeFill (scrubMemories (modSu s eraseTenant))) w.stubborn) = some t := reloaded
  rw [finishScrub, if_neg notSafe]
  dsimp only
  rw [reload]
  rfl

/-- t is s with the tenant erased, IDLE and OPEN, but for counters, timetables, the boot part, ports, alerts and what was logged and posted. -/
def ScrubbedFrom (s : State) (w : WorkResult) (t : State) : Prop :=
  ∃ n k ms tt boot fab smb flog mb comp free hub, t = { scrubMemories s with
    op := .idle, sec := .sopen, flash := { s.flash with scrubMark := false }
    dram := { s.dram with bytes := [], err := [], poison := w.stubborn.foldl (fun p g => setAdd p (granKey g.1 (64 * g.2))) [] }
    su := { eraseTenant s.su with stubborn := n, stage := 0, toDbg := 0, scrubN := k, lastMs := ms }
    tt := tt, boot := boot, fab := fab, smb := smb, flog := flog, mb := mb, comp := comp, free := free, hub := hub }

theorem scrubReleased_scrubbedFrom (s : State) (w : WorkResult) (boot : Boot) :
    ScrubbedFrom s w (scrubReleased { scrubErased s w with boot := boot } w.ms) := by
  obtain ⟨_, _, _, _, _, _, _, erased⟩ := scrubErased_eq s w
  obtain ⟨_, _, _, _, _, _, _, released⟩ := scrubReleased_eq { scrubErased s w with boot := boot } w.ms
  rw [released, erased]
  exact ⟨_, _, _, _, _, _, _, _, _, _, _, _, rfl⟩

theorem ScrubbedFrom.cl {w : WorkResult} (scrubbed : ScrubbedFrom s w t) : t.cl = (scrubMemories s).cl := by
  obtain ⟨_, _, _, _, _, _, _, _, _, _, _, _, rfl⟩ := scrubbed
  rfl

/-- What is left at the end of a scrub: the erased module, after the tests of its memories, at the level it ends at (R451). -/
theorem finishScrub_spec (notSafe : s.boot.phase ≠ .safe) (good : (pickCopy s.flash.fwA s.flash.fwB (fun i => i.good) false).isSome = true)
    (w : WorkResult) (m : Msg) (body : Nat × Nat) : ∃ base u, ScrubbedFrom s w base ∧ OnlyTested base u ∧
      LogOnly { u with dbg := s.su.toDbg } (finishScrub s m w body) := by
  obtain ⟨_, _, _, _, _, _, _, erased⟩ := scrubErased_eq s w
  obtain ⟨boot, reloaded⟩ := reloadFw_of_good (s := scrubErased s w) (by rw [erased]; exact good)
  have scrubbed := scrubReleased_scrubbedFrom s w boot
  rw [finishScrub_of_good notSafe reloaded]
  exact ⟨_, _, scrubbed, (OnlyTested.of_scrubbed scrubbed.cl).foldl_testFailed (firstFaults [] w.hard),
    .trans (setDbg_logOnly ..) (finish_logOnly ..)⟩

end

theorem finishLong_releaseTenant {l : LongCmd} (release : mOpcode l.m = 0x0012) (s : State) (w : WorkResult) :
    finishLong s l w = finishScrub s l.m w (0, 0) := by
  simp only [finishLong, release]

/-- Settles O16: the start closes what the tenant has open, and the end is what `scrubMemories` erases, tested, and IDLE and OPEN. -/
theorem scrubErasesTenant : Obligations.ScrubErasesTenant := by
  unfold Obligations.ScrubErasesTenant
  refine ⟨fun s m k notSafe => beginScrub_spec notSafe m k, ?ends⟩
  case ends =>
    intro s l w release notSafe good
    obtain ⟨base, u, scrubbed, tested, posted⟩ := finishScrub_spec notSafe good w l.m (0, 0)
    have clusters (lc : Nat) (listed : lc < 256) := tested.cluster_scrubbed scrubbed.cl listed
    obtain ⟨_, _, _, _, _, _, _, _, _, _, _, _, rfl⟩ := scrubbed
    rw [finishLong_releaseTenant release, posted, tested.same]
    refine ⟨_, rfl, rfl, rfl, rfl, rfl, rfl, rfl, rfl, rfl, rfl, rfl, rfl, rfl, rfl, rfl, rfl, rfl, rfl, rfl, rfl, rfl, rfl, rfl,
      dropCopies_all_copies s.store, fun lc listed => ?_⟩
    obtain ⟨mem, ⟨sp, side, seqm⟩, read⟩ := clusters lc listed
    intro c o
    have same : c = { scrubCluster o with mem := mem } := read
    rw [same]
    exact ⟨sp, side, seqm, rfl, rfl, rfl, rfl, rfl, rfl, rfl, rfl, rfl, rfl, rfl, rfl⟩

end Sys2Proof.Machine
end
